-- ==== Sys2Proof/Word.lean ====
section
/-! DEFINITION. The word and byte types (R1, R2). -/

namespace Sys2Proof

/-- A 64-bit doubleword (R2): the width of a scalar register. -/
abbrev Word := BitVec 64

/-- A byte of memory (R2). -/
abbrev Byte := BitVec 8

end Sys2Proof
end

