-- ==== Sys2Proof/Syntax.lean ====
section
/-! DEFINITION. The instructions of the ALX-192 as syntax: one constructor per row of the opcode table.
Encoded rows carry the fields of their format (spec/02_encoding.md, R34, R37, R41, R45).
Rows without an encoding are the steps of the device and its agents (spec/95_what_each_step_holds.md).
A field that an instruction does not use is kept here and required zero by `Instr.wellFormed` (R40, R44, R47). -/

namespace Sys2Proof

/-- Format A (R34): scalar ALU, synchronisation, system, job and harness instructions. -/
structure OpA where
  b : BitVec 5
  a : BitVec 5
  d : BitVec 5
  deriving DecidableEq, Repr

/-- Format I (R34, R35) with a 14-bit immediate. -/
structure OpI14 where
  imm : BitVec 14
  a : BitVec 5
  d : BitVec 5
  deriving DecidableEq, Repr

/-- Format I of major 0x06: a six-bit shift amount (R35). -/
structure OpSh6 where
  sh : BitVec 6
  a : BitVec 5
  d : BitVec 5
  deriving DecidableEq, Repr

/-- Format I of major 0x07: a 13-bit comparand (R35). -/
structure OpI13 where
  imm : BitVec 13
  a : BitVec 5
  d : BitVec 5
  deriving DecidableEq, Repr

/-- Format M (R34): scalar loads and stores. -/
structure OpM11 where
  imm : BitVec 11
  a : BitVec 5
  d : BitVec 5
  deriving DecidableEq, Repr

/-- Format SA (R34): scalar atomics. -/
structure OpSA where
  sc : BitVec 3
  rl : Bool
  aq : Bool
  b : BitVec 5
  a : BitVec 5
  d : BitVec 5
  deriving DecidableEq, Repr

/-- Formats U and J (R34): a 19-bit immediate. -/
structure OpU19 where
  imm : BitVec 19
  d : BitVec 5
  deriving DecidableEq, Repr

/-- Format B (R34): imm14[13:5] is `hi`, imm14[4:0] is `lo`. -/
structure OpBr where
  hi : BitVec 9
  b : BitVec 5
  a : BitVec 5
  lo : BitVec 5
  deriving DecidableEq, Repr

/-- Format C (R34): control-register access. -/
structure OpC where
  idx : BitVec 12
  a : BitVec 5
  d : BitVec 5
  deriving DecidableEq, Repr

/-- Format V (R37). -/
structure OpV where
  l : Bool
  cb : Bool
  ca : Bool
  pred : BitVec 3
  vb : BitVec 5
  va : BitVec 5
  vd : BitVec 5
  deriving DecidableEq, Repr

/-- Format VS (R37): fn4[0] lies in bit 27. -/
structure OpVS where
  l : Bool
  ca : Bool
  pred : BitVec 3
  xb : BitVec 5
  va : BitVec 5
  vd : BitVec 5
  deriving DecidableEq, Repr

/-- Format V as the conversions of major 0x25 use it (R133): `fn` is the destination kind, `t` the source type code. -/
structure OpCv where
  fn : BitVec 3
  l : Bool
  ca : Bool
  pred : BitVec 3
  t : BitVec 5
  va : BitVec 5
  vd : BitVec 5
  deriving DecidableEq, Repr

/-- Format VM with X = 0 (R37, R38). -/
structure OpVM where
  l : Bool
  c : Bool
  pred : BitVec 3
  b : BitVec 5
  a : BitVec 5
  vd : BitVec 5
  deriving DecidableEq, Repr

/-- Format VM with X = 1 (R37, R38): gathers and scatters. -/
structure OpVMX where
  sc : BitVec 3
  l : Bool
  c : Bool
  pred : BitVec 3
  vb : BitVec 5
  a : BitVec 5
  vd : BitVec 5
  deriving DecidableEq, Repr

/-- Format VA (R37, R38): vector atomics and `vwait`. -/
structure OpVA where
  sc : BitVec 3
  l : Bool
  rl : Bool
  aq : Bool
  pred : BitVec 3
  vb : BitVec 5
  vd : BitVec 5
  deriving DecidableEq, Repr

/-- The accumulation-window layout of major 0x2E (R180, R181). -/
structure OpAW where
  l : Bool
  cb : Bool
  ca : Bool
  pred : BitVec 3
  b : BitVec 5
  a : BitVec 5
  n : BitVec 2
  deriving DecidableEq, Repr

/-- Format SM (R37, R226). -/
structure OpSM where
  l : Bool
  cb : Bool
  ca : Bool
  pred : BitVec 3
  b : BitVec 5
  a : BitVec 5
  sd : BitVec 4
  deriving DecidableEq, Repr

/-- Format DS (R37): durable and shed instructions. -/
structure OpDS where
  l : Bool
  sc : BitVec 3
  b : BitVec 5
  a : BitVec 5
  d : BitVec 5
  deriving DecidableEq, Repr

/-- Format AC (R34): access-class instructions. -/
structure OpAC where
  po : BitVec 2
  tk : BitVec 2
  b : BitVec 5
  a : BitVec 5
  d : BitVec 5
  deriving DecidableEq, Repr

/-- A 64-bit tile form: the prefix word (R41) and the base word in the V layout (R37). -/
structure OpTile where
  ff : Bool
  us : Bool
  ks : BitVec 3
  fsa : BitVec 2
  fsb : BitVec 2
  kind : BitVec 2
  cp : BitVec 4
  rp : BitVec 4
  t : BitVec 2
  l : Bool
  cb : Bool
  ca : Bool
  pred : BitVec 3
  vb : BitVec 5
  va : BitVec 5
  vd : BitVec 5
  deriving DecidableEq, Repr

/-- The TDISP states of a physical function (R354). -/
inductive TdispState where
  | unlocked
  | locked
  | run
  | error
  deriving DecidableEq, Repr

/-- The classes of R18, and `event` for a row of the table that is a step of the device, not an encoding. -/
inductive Cls where
  | scalar
  | vector
  | access
  | event
  deriving DecidableEq, Repr

/-- One constructor per row of the opcode table, in the table's order. -/
inductive Instr where
  /-- ADD (R61). -/
  | add (f : OpA)
  /-- SUB (R61). -/
  | sub (f : OpA)
  /-- AND (R61). -/
  | and (f : OpA)
  /-- OR (R61). -/
  | or (f : OpA)
  /-- XOR (R61). -/
  | xor (f : OpA)
  /-- SLL (R61). -/
  | sll (f : OpA)
  /-- SRL (R61). -/
  | srl (f : OpA)
  /-- SRA (R61). -/
  | sra (f : OpA)
  /-- SLT (R61). -/
  | slt (f : OpA)
  /-- SLTN (R61). -/
  | sltn (f : OpA)
  /-- MIN (R61). -/
  | min (f : OpA)
  /-- MAX (R61). -/
  | max (f : OpA)
  /-- MINN (R61). -/
  | minn (f : OpA)
  /-- MAXN (R61). -/
  | maxn (f : OpA)
  /-- MUL (R61). -/
  | mul (f : OpA)
  /-- MULH (R61). -/
  | mulh (f : OpA)
  /-- MULHN (R61). -/
  | mulhn (f : OpA)
  /-- DIV (R62). -/
  | div (f : OpA)
  /-- DIVN (R62). -/
  | divn (f : OpA)
  /-- REM (R62). -/
  | rem (f : OpA)
  /-- REMN (R62). -/
  | remn (f : OpA)
  /-- ADDW (R61). -/
  | addw (f : OpA)
  /-- SUBW (R61). -/
  | subw (f : OpA)
  /-- CLZ (R61). -/
  | clz (f : OpA)
  /-- CTZ (R61). -/
  | ctz (f : OpA)
  /-- POPC (R61). -/
  | popc (f : OpA)
  /-- ADDI (R63). -/
  | addi (f : OpI14)
  /-- ANDI (R63). -/
  | andi (f : OpI14)
  /-- ORI (R63). -/
  | ori (f : OpI14)
  /-- XORI (R63). -/
  | xori (f : OpI14)
  /-- SLLI (R63). -/
  | slli (f : OpSh6)
  /-- SRLI (R63). -/
  | srli (f : OpSh6)
  /-- SRAI (R63). -/
  | srai (f : OpSh6)
  /-- SLTI (R63). -/
  | slti (f : OpI13)
  /-- SLTNI (R63). -/
  | sltni (f : OpI13)
  /-- LD_I8 (R65). -/
  | ldI8 (f : OpM11)
  /-- LD_I16 (R65). -/
  | ldI16 (f : OpM11)
  /-- LD_I32 (R65). -/
  | ldI32 (f : OpM11)
  /-- LD_I64 (R65). -/
  | ldI64 (f : OpM11)
  /-- LD_N8 (R65). -/
  | ldN8 (f : OpM11)
  /-- LD_N16 (R65). -/
  | ldN16 (f : OpM11)
  /-- LD_N32 (R65). -/
  | ldN32 (f : OpM11)
  /-- LD_PR (R65). -/
  | ldPr (f : OpM11)
  /-- ST_I8 (R65). -/
  | stI8 (f : OpM11)
  /-- ST_I16 (R65). -/
  | stI16 (f : OpM11)
  /-- ST_I32 (R65). -/
  | stI32 (f : OpM11)
  /-- ST_I64 (R65). -/
  | stI64 (f : OpM11)
  /-- ST_PR (R65). -/
  | stPr (f : OpM11)
  /-- AMO_SWAP (R69). -/
  | amoSwap (f : OpSA)
  /-- AMO_ADD (R69). -/
  | amoAdd (f : OpSA)
  /-- AMO_AND (R69). -/
  | amoAnd (f : OpSA)
  /-- AMO_OR (R69). -/
  | amoOr (f : OpSA)
  /-- AMO_XOR (R69). -/
  | amoXor (f : OpSA)
  /-- AMO_MIN (R69). -/
  | amoMin (f : OpSA)
  /-- AMO_MAX (R69). -/
  | amoMax (f : OpSA)
  /-- AMO_MINN (R69). -/
  | amoMinn (f : OpSA)
  /-- AMO_MAXN (R69). -/
  | amoMaxn (f : OpSA)
  /-- AMO_CAS (R69). -/
  | amoCas (f : OpSA)
  /-- AMO_LD (R69). -/
  | amoLd (f : OpSA)
  /-- AMO_ST (R69). -/
  | amoSt (f : OpSA)
  /-- LDH (R64). -/
  | ldh (f : OpU19)
  /-- PCADD (R64). -/
  | pcadd (f : OpU19)
  /-- BEQ (R71). -/
  | beq (f : OpBr)
  /-- BNE (R71). -/
  | bne (f : OpBr)
  /-- BLT (R71). -/
  | blt (f : OpBr)
  /-- BGE (R71). -/
  | bge (f : OpBr)
  /-- BLTN (R71). -/
  | bltn (f : OpBr)
  /-- BGEN (R71). -/
  | bgen (f : OpBr)
  /-- JAL (R72). -/
  | jal (f : OpU19)
  /-- JALR (R72). -/
  | jalr (f : OpI14)
  /-- CR_RD (R73). -/
  | crRd (f : OpC)
  /-- CR_WR (R73). -/
  | crWr (f : OpC)
  /-- CR_SET (R73). -/
  | crSet (f : OpC)
  /-- CR_CLR (R73). -/
  | crClr (f : OpC)
  /-- TILEN_WRITE (R56). -/
  | tilenWrite (v : Word)
  /-- PSM_MIRROR_CLEAR (R56). -/
  | psmMirrorClear
  /-- VSL (R74). -/
  | vsl (f : OpI14)
  /-- BREAK (R81). -/
  | brk
  /-- SWTRAP (R81). -/
  | swtrap (f : OpA)
  /-- HALT (R81). -/
  | halt
  /-- LSYNC (R76). -/
  | lsync (sc : BitVec 3)
  /-- GBAR (R77). -/
  | gbar (f : OpA)
  /-- WM_PUB (R78). -/
  | wmPub (sc : BitVec 3) (f : OpA)
  /-- WM_WAIT (R78). -/
  | wmWait (sc : BitVec 3) (f : OpA)
  /-- PN_SEND (R79). -/
  | pnSend (c : BitVec 1) (f : OpA)
  /-- PN_RECV_CH2 (R79). -/
  | pnRecvCh2 (f : OpA)
  /-- PN_RECV_CH4 (R79). -/
  | pnRecvCh4 (f : OpA)
  /-- PN_CNT (R79). -/
  | pnCnt (c : BitVec 3) (f : OpA)
  /-- JL (R83). -/
  | jl (f : OpA)
  /-- JWAIT (R84). -/
  | jwait (f : OpA)
  /-- HM_BODY (R333). -/
  | hmBody
  /-- HM_END (R333). -/
  | hmEnd
  /-- C_ADDI (R45). -/
  | cAddi (imm : BitVec 6) (d : BitVec 5)
  /-- C_LI (R45). -/
  | cLi (imm : BitVec 6) (d : BitVec 5)
  /-- C_MV (R45). -/
  | cMv (a : BitVec 5) (d : BitVec 5)
  /-- C_ADD (R45). -/
  | cAdd (a : BitVec 5) (d : BitVec 5)
  /-- C_SUB (R45). -/
  | cSub (a : BitVec 5) (d : BitVec 5)
  /-- C_AND (R45). -/
  | cAnd (a : BitVec 5) (d : BitVec 5)
  /-- C_SLLI (R45). -/
  | cSlli (imm : BitVec 6) (d : BitVec 5)
  /-- C_SRAI (R45). -/
  | cSrai (imm : BitVec 6) (d : BitVec 5)
  /-- C_LD (R45). -/
  | cLd (a : BitVec 5) (d : BitVec 5)
  /-- C_SD (R45). -/
  | cSd (a : BitVec 5) (d : BitVec 5)
  /-- C_BEQZ (R45). -/
  | cBeqz (imm : BitVec 6) (d : BitVec 5)
  /-- C_BNEZ (R45). -/
  | cBnez (imm : BitVec 6) (d : BitVec 5)
  /-- C_J (R45). -/
  | cJ (imm : BitVec 11)
  /-- C_JR (R45). -/
  | cJr (a : BitVec 5)
  /-- C_NOP (R45). -/
  | cNop
  /-- C_BREAK (R45). -/
  | cBrk
  /-- ILLEGAL_INSTRUCTION (R47). -/
  | illegalInstruction (enc : Word) (member : BitVec 2)
  /-- VADD (R124). -/
  | vadd (f : OpV)
  /-- VSUB (R124). -/
  | vsub (f : OpV)
  /-- VMUL (R124). -/
  | vmul (f : OpV)
  /-- VMULH (R124). -/
  | vmulh (f : OpV)
  /-- VMULHN (R124). -/
  | vmulhn (f : OpV)
  /-- VAND (R124). -/
  | vand (f : OpV)
  /-- VOR (R124). -/
  | vor (f : OpV)
  /-- VXOR (R124). -/
  | vxor (f : OpV)
  /-- VSLL (R124). -/
  | vsll (f : OpV)
  /-- VSRL (R124). -/
  | vsrl (f : OpV)
  /-- VSRA (R124). -/
  | vsra (f : OpV)
  /-- VMIN (R124). -/
  | vmin (f : OpV)
  /-- VMAX (R124). -/
  | vmax (f : OpV)
  /-- VMINN (R124). -/
  | vminn (f : OpV)
  /-- VMAXN (R124). -/
  | vmaxn (f : OpV)
  /-- VSEL (R125). -/
  | vsel (f : OpV)
  /-- VFADD (R126). -/
  | vfadd (f : OpV)
  /-- VFSUB (R126). -/
  | vfsub (f : OpV)
  /-- VFMUL (R126). -/
  | vfmul (f : OpV)
  /-- VFDIV (R126). -/
  | vfdiv (f : OpV)
  /-- VFMIN (R126). -/
  | vfmin (f : OpV)
  /-- VFMAX (R126). -/
  | vfmax (f : OpV)
  /-- VFSQRT (R126). -/
  | vfsqrt (f : OpV)
  /-- VFABS (R126). -/
  | vfabs (f : OpV)
  /-- VFNEG (R126). -/
  | vfneg (f : OpV)
  /-- VFCLASS (R127). -/
  | vfclass (f : OpV)
  /-- VFSGNJ (R126). -/
  | vfsgnj (f : OpV)
  /-- VFMA (R128). -/
  | vfma (f : OpV)
  /-- VFMS (R128). -/
  | vfms (f : OpV)
  /-- VFNMA (R128). -/
  | vfnma (f : OpV)
  /-- VFNMS (R128). -/
  | vfnms (f : OpV)
  /-- VFAERR (R129). -/
  | vfaerr (f : OpV)
  /-- VFMERR (R129). -/
  | vfmerr (f : OpV)
  /-- VFRECIP_EST (R130). -/
  | vfrecipEst (f : OpV)
  /-- VFRSQRT_EST (R131). -/
  | vfrsqrtEst (f : OpV)
  /-- VCEQ (R132). -/
  | vceq (f : OpV)
  /-- VCLT (R132). -/
  | vclt (f : OpV)
  /-- VCLE (R132). -/
  | vcle (f : OpV)
  /-- VCLTN (R132). -/
  | vcltn (f : OpV)
  /-- VCLEN (R132). -/
  | vclen (f : OpV)
  /-- VFCEQ (R132). -/
  | vfceq (f : OpV)
  /-- VFCLT (R132). -/
  | vfclt (f : OpV)
  /-- VFCLE (R132). -/
  | vfcle (f : OpV)
  /-- VCVT (R135). -/
  | vcvt (f : OpCv)
  /-- VPERM (R137). -/
  | vperm (f : OpV)
  /-- VSLIDEUP (R137). -/
  | vslideup (f : OpV)
  /-- VSLIDEDOWN (R137). -/
  | vslidedown (f : OpV)
  /-- VCOMPRESS (R138). -/
  | vcompress (f : OpV)
  /-- VEXPAND (R137). -/
  | vexpand (f : OpV)
  /-- VMV (R137). -/
  | vmv (f : OpV)
  /-- VZIP (R137). -/
  | vzip (f : OpV)
  /-- VUNZIP (R137). -/
  | vunzip (f : OpV)
  /-- VFOLD_ADD (R140). -/
  | vfoldAdd (f : OpV)
  /-- VFOLD_MIN (R140). -/
  | vfoldMin (f : OpV)
  /-- VFOLD_MAX (R140). -/
  | vfoldMax (f : OpV)
  /-- VFOLD_MINN (R140). -/
  | vfoldMinn (f : OpV)
  /-- VFOLD_MAXN (R140). -/
  | vfoldMaxn (f : OpV)
  /-- VFOLD_FADD (R140). -/
  | vfoldFadd (f : OpV)
  /-- VFOLD_FMIN (R140). -/
  | vfoldFmin (f : OpV)
  /-- VFOLD_FMAX (R140). -/
  | vfoldFmax (f : OpV)
  /-- PAND (R141). -/
  | pand (f : OpV)
  /-- POR (R141). -/
  | por (f : OpV)
  /-- PXOR (R141). -/
  | pxor (f : OpV)
  /-- PANDN (R141). -/
  | pandn (f : OpV)
  /-- PLT (R141). -/
  | plt (f : OpV)
  /-- PGETSM (R141). -/
  | pgetsm (f : OpV)
  /-- PCOUNT (R141). -/
  | pcount (f : OpV)
  /-- PFIRST (R141). -/
  | pfirst (f : OpV)
  /-- VADD_VX (R142). -/
  | vaddVx (f : OpVS)
  /-- VSUB_VX (R142). -/
  | vsubVx (f : OpVS)
  /-- VRSUB_VX (R142). -/
  | vrsubVx (f : OpVS)
  /-- VMUL_VX (R142). -/
  | vmulVx (f : OpVS)
  /-- VAND_VX (R142). -/
  | vandVx (f : OpVS)
  /-- VOR_VX (R142). -/
  | vorVx (f : OpVS)
  /-- VXOR_VX (R142). -/
  | vxorVx (f : OpVS)
  /-- VSLL_VX (R142). -/
  | vsllVx (f : OpVS)
  /-- VSRL_VX (R142). -/
  | vsrlVx (f : OpVS)
  /-- VSRA_VX (R142). -/
  | vsraVx (f : OpVS)
  /-- VMIN_VX (R142). -/
  | vminVx (f : OpVS)
  /-- VMAX_VX (R142). -/
  | vmaxVx (f : OpVS)
  /-- VFADD_VX (R142). -/
  | vfaddVx (f : OpVS)
  /-- VFMUL_VX (R142). -/
  | vfmulVx (f : OpVS)
  /-- VFMA_VX (R142). -/
  | vfmaVx (f : OpVS)
  /-- VBCAST (R142). -/
  | vbcast (f : OpVS)
  /-- VLD (R150). -/
  | vld (f : OpVM)
  /-- VLDS (R150). -/
  | vlds (f : OpVM)
  /-- VLD_FF (R153). -/
  | vldFf (f : OpVM)
  /-- VLDC (R160). -/
  | vldc (f : OpVM)
  /-- VFILL (R164). -/
  | vfill (f : OpVM)
  /-- VLD_XN (R150). -/
  | vldXn (f : OpVM)
  /-- VLD_XTN (R150). -/
  | vldXtn (f : OpVM)
  /-- VLDX (R150). -/
  | vldx (f : OpVMX)
  /-- VST (R151). -/
  | vst (f : OpVM)
  /-- VSTS (R151). -/
  | vsts (f : OpVM)
  /-- VCOPY (R165). -/
  | vcopy (f : OpVM)
  /-- VSTC (R161). -/
  | vstc (f : OpVM)
  /-- VSPILL (R163). -/
  | vspill (f : OpVM)
  /-- VST_XN (R151). -/
  | vstXn (f : OpVM)
  /-- VST_XTN (R151). -/
  | vstXtn (f : OpVM)
  /-- VSTX (R151). -/
  | vstx (f : OpVMX)
  /-- VAMO_SWAP (R176). -/
  | vamoSwap (f : OpVA)
  /-- VAMO_ADD (R176). -/
  | vamoAdd (f : OpVA)
  /-- VAMO_AND (R176). -/
  | vamoAnd (f : OpVA)
  /-- VAMO_OR (R176). -/
  | vamoOr (f : OpVA)
  /-- VAMO_XOR (R176). -/
  | vamoXor (f : OpVA)
  /-- VAMO_MIN (R176). -/
  | vamoMin (f : OpVA)
  /-- VAMO_MAX (R176). -/
  | vamoMax (f : OpVA)
  /-- VAMO_MINN (R176). -/
  | vamoMinn (f : OpVA)
  /-- VAMO_MAXN (R176). -/
  | vamoMaxn (f : OpVA)
  /-- VAMO_CAS (R176). -/
  | vamoCas (f : OpVA)
  /-- VAMO_ADD_CB (R178). -/
  | vamoAddCb (f : OpVA)
  /-- VAMO_AND_CB (R178). -/
  | vamoAndCb (f : OpVA)
  /-- VAMO_OR_CB (R178). -/
  | vamoOrCb (f : OpVA)
  /-- VAMO_XOR_CB (R178). -/
  | vamoXorCb (f : OpVA)
  /-- VAMO_MIN_CB (R178). -/
  | vamoMinCb (f : OpVA)
  /-- VAMO_MAX_CB (R178). -/
  | vamoMaxCb (f : OpVA)
  /-- VAMO_MINN_CB (R178). -/
  | vamoMinnCb (f : OpVA)
  /-- VAMO_MAXN_CB (R178). -/
  | vamoMaxnCb (f : OpVA)
  /-- VAMO_FADD (R176). -/
  | vamoFadd (f : OpVA)
  /-- VAMO_FMIN (R176). -/
  | vamoFmin (f : OpVA)
  /-- VAMO_FMAX (R176). -/
  | vamoFmax (f : OpVA)
  /-- VWAIT_EQ (R179). -/
  | vwaitEq (f : OpVA)
  /-- VWAIT_NE (R179). -/
  | vwaitNe (f : OpVA)
  /-- VWAIT_GE (R179). -/
  | vwaitGe (f : OpVA)
  /-- VWAIT_LT (R179). -/
  | vwaitLt (f : OpVA)
  /-- VWAIT_GEN (R179). -/
  | vwaitGen (f : OpVA)
  /-- VWAIT_LTN (R179). -/
  | vwaitLtn (f : OpVA)
  /-- VAMO_FADD_CB (R178). -/
  | vamoFaddCb (f : OpVA)
  /-- VAMO_FMIN_CB (R178). -/
  | vamoFminCb (f : OpVA)
  /-- VAMO_FMAX_CB (R178). -/
  | vamoFmaxCb (f : OpVA)
  /-- VFENCE (R173). -/
  | vfence (sc : BitVec 3)
  /-- AWIN_DECL (R180). -/
  | awinDecl (f : OpAW)
  /-- AWIN_UPD (R181). -/
  | awinUpd (f : OpAW)
  /-- AWIN_MERGE (R182). -/
  | awinMerge (f : OpAW)
  /-- PN_TAKE (R39). -/
  | pnTake (l : Bool) (c : BitVec 3)
  /-- PN_POST (R39). -/
  | pnPost (c : BitVec 3)
  /-- PN_POST_VL (R39). -/
  | pnPostVl (c : BitVec 3)
  /-- SUPD_CMS (R231). -/
  | supdCms (f : OpSM)
  /-- SUPD_BKS (R231). -/
  | supdBks (f : OpSM)
  /-- SUPD_QH (R231). -/
  | supdQh (f : OpSM)
  /-- SUPD_MOM (R231). -/
  | supdMom (f : OpSM)
  /-- SUPD_WES (R232). -/
  | supdWes (f : OpSM)
  /-- SMERGE (R233). -/
  | smerge (f : OpSM)
  /-- SCLR (R230). -/
  | sclr (f : OpSM)
  /-- SDECL (R229). -/
  | sdecl (f : OpSM)
  /-- SQ_CMS (R239). -/
  | sqCms (f : OpSM)
  /-- SQ_BKS_EST (R240). -/
  | sqBksEst (f : OpSM)
  /-- SQ_BKS_ITEMS (R240). -/
  | sqBksItems (f : OpSM)
  /-- SQ_QNT (R241). -/
  | sqQnt (f : OpSM)
  /-- SQ_MOM_QUERY (R242). -/
  | sqMomQuery (f : OpSM)
  /-- SQ_WES (R243). -/
  | sqWes (f : OpSM)
  /-- SST (R238). -/
  | sst (f : OpSM)
  /-- SLD (R237). -/
  | sld (f : OpSM)
  /-- SMERGE_M (R234). -/
  | smergeM (f : OpSM)
  /-- SCMT (R298). -/
  | scmt (f : OpSM)
  /-- SCMT_IMAGE_WRITE (R298). -/
  | scmtImageWrite
  /-- SCMT_SEAL_WRITE (R298). -/
  | scmtSealWrite
  /-- AST_OPEN (R250). -/
  | astOpen (f : OpAC)
  /-- AST_CLOSE (R251). -/
  | astClose (f : OpAC)
  /-- AST_RUN (R256). -/
  | astRun (f : OpAC)
  /-- AR_BIND (R252). -/
  | arBind (f : OpAC)
  /-- AR_UNBIND (R252). -/
  | arUnbind (f : OpAC)
  /-- ACOL (R262). -/
  | acol (f : OpAC)
  /-- ASEND (R265). -/
  | asend (f : OpAC)
  /-- ARECV (R265). -/
  | arecv (f : OpAC)
  /-- AFLIP (R267). -/
  | aflip (f : OpAC)
  /-- DPB (R293). -/
  | dpb (f : OpDS)
  /-- SHALLOC (R308). -/
  | shalloc (f : OpDS)
  /-- SHALLOC_M (R308). -/
  | shallocM (f : OpDS)
  /-- SHFREE (R309). -/
  | shfree (f : OpDS)
  /-- SHSTAT (R310). -/
  | shstat (f : OpDS)
  /-- MOPA (R190). -/
  | mopa (f : OpTile)
  /-- MOPS (R190). -/
  | mops (f : OpTile)
  /-- MOPI (R190). -/
  | mopi (f : OpTile)
  /-- MOPN (R190). -/
  | mopn (f : OpTile)
  /-- MOPL (R196). -/
  | mopl (f : OpTile)
  /-- MGROW (R195). -/
  | mgrow (f : OpTile)
  /-- MROW_GET (R198). -/
  | mrowGet (f : OpTile)
  /-- MROW_PUT (R198). -/
  | mrowPut (f : OpTile)
  /-- MCOL_GET (R198). -/
  | mcolGet (f : OpTile)
  /-- MCOL_PUT (R198). -/
  | mcolPut (f : OpTile)
  /-- MLD (R199). -/
  | mld (f : OpTile)
  /-- MST (R199). -/
  | mst (f : OpTile)
  /-- MZERO (R200). -/
  | mzero (f : OpTile)
  /-- CONVOY_POST (R20). -/
  | convoyPost
  /-- MICRO_OPERATION_ISSUE (R21). -/
  | microOperationIssue
  /-- MICRO_OPERATION_COMPLETE (R53). -/
  | microOperationComplete (n : Nat)
  /-- LANE_RE_EXECUTION (R347): a micro-operation of those renamed and the lane that re-executes it, and whether that fails again. -/
  | laneReExecution (n : Nat × Nat) (again : Bool)
  /-- CONVOY_RETIRE (R53). -/
  | convoyRetire
  /-- PENNANT_TAKE (R26). -/
  | pennantTake (c : BitVec 3)
  /-- STORE_QUEUE_DRAIN (R169). -/
  | storeQueueDrain (n : Nat)
  /-- COMBINING_ENTRY_RETIRE (R178). -/
  | combiningEntryRetire (n : Nat)
  /-- GANG_BARRIER_COMPLETE (R77). -/
  | gangBarrierComplete
  /-- WM_WAIT_SATISFIED (R78). -/
  | wmWaitSatisfied
  /-- TRAP_DELIVERY (R86). -/
  | trapDelivery (cause : BitVec 8) (tval : Word) (epc : Word) (member : BitVec 2)
  /-- PREEMPT (R93). -/
  | preempt
  /-- PARTITION_SAVE (R96). -/
  | partitionSave
  /-- RESTORE (R97). -/
  | restore (core : BitVec 8) (stall : BitVec 2) (rpc : Option Word)
  /-- GANG_END (R99). -/
  | gangEnd (cause : BitVec 8)
  /-- STALL_MODE_REQUEST (R58). -/
  | stallModeRequest (mode : BitVec 2)
  /-- ARRIVAL (R58). -/
  | arrival
  /-- PENDING_MODE_WITHDRAW (R58). -/
  | pendingModeWithdraw
  /-- STALL_MODE_SWITCH (R59). -/
  | stallModeSwitch (gang : Word)
  /-- PAGE_WALK (R273). -/
  | pageWalk (pasid : BitVec 20) (va : Word) (write : Bool)
  /-- SHOOTDOWN (R275). -/
  | shootdown (pasid : BitVec 20) (lo : Word) (hi : Word)
  /-- PAGE_MIGRATION (R279). -/
  | pageMigration (pasid : BitVec 20) (va : Word) (pte : Word)
  /-- BACKING_EXCHANGE (R271). -/
  | backingExchange (pasid : BitVec 20) (base : Word) (len : Word)
  /-- WRITE_BACK (R283). -/
  | writeBack (pasid : BitVec 20) (va : Word) (block : BitVec 5)
  /-- RD (R285). -/
  | linkRd (m : BitVec 6) (addr : BitVec 40) (len : BitVec 3)
  /-- WR (R285). -/
  | linkWr (m : BitVec 6) (addr : BitVec 40) (len : BitVec 3) (data : List Byte) (pois : Bool)
  /-- WRM (R285). -/
  | linkWrm (m : BitVec 6) (addr : BitVec 40) (len : BitVec 3) (mask : BitVec 128) (data : List Byte) (pois : Bool)
  /-- RDR (R287). -/
  | linkRdr (m : BitVec 6) (sc : BitVec 5) (tag : BitVec 3) (ecc : BitVec 2)
  /-- WRA (R286). -/
  | linkWra (m : BitVec 6) (sc : BitVec 5) (tag : BitVec 3) (ecc : BitVec 2)
  /-- MODULE_LINK_FAILURE (R350). -/
  | moduleLinkFailure (m : BitVec 6)
  /-- PASID_TEARDOWN (R278). -/
  | pasidTeardown (id : BitVec 4) (pasid : BitVec 20)
  /-- PASID_DRAIN (R278). -/
  | pasidDrain (pasid : BitVec 20)
  /-- POWER_LOSS (R301). -/
  | powerLoss
  /-- DEVICE_RESET (R301). -/
  | deviceReset
  /-- POWER_ON (R361). -/
  | powerOn (lost bad : List Nat)
  /-- SCRUB_PASS (R346). -/
  | scrubPass (hit : Option Nat)
  /-- CORE_QUARANTINE (R353). -/
  | coreQuarantine (core : BitVec 8)
  /-- QUOTA_CHANGE (R311). -/
  | quotaChange (plane : BitVec 4) (tenant : Nat) (quota : Nat)
  /-- SWITCH_FAILURE (R314). -/
  | switchFailure (plane : BitVec 4)
  /-- SWITCH_RETURN (R314). -/
  | switchReturn (plane : BitVec 4)
  /-- CHUNK_DELIVERY (R256). -/
  | chunkDelivery (h : BitVec 4)
  /-- OUT_CHUNK_WRITE (R256). -/
  | outChunkWrite (h : BitVec 4)
  /-- SEND (R261). -/
  | colSend (n : Nat)
  /-- RECV (R261). -/
  | colRecv (n : Nat)
  /-- RED (R261). -/
  | colRed (n : Nat)
  /-- COPY (R261). -/
  | colCopy (n : Nat)
  /-- COPY_IN (R261). -/
  | colCopyIn (n : Nat)
  /-- COPY_OUT (R261). -/
  | colCopyOut (n : Nat)
  /-- RECV_TIMEOUT (R263). -/
  | recvTimeout (n : Nat)
  /-- LATE_IMAGE_MERGE (R263). -/
  | lateImageMerge (n : Nat)
  /-- PARTICIPANT_FAILED (R263). -/
  | participantFailed (m : BitVec 6) (hart : BitVec 16)
  /-- TRANSFER_MATCH (R265). -/
  | transferMatch (n : Nat)
  /-- QTAIL_WRITE (R319). -/
  | qtailWrite (fn : BitVec 1) (q : BitVec 6) (v : Word)
  /-- QREPRIO_WRITE (R326). -/
  | qreprioWrite (fn : BitVec 1) (q : BitVec 6) (v : Word)
  /-- MANAGEMENT_REGISTER_WRITE (R318). -/
  | managementRegisterWrite (fn : BitVec 1) (off : BitVec 25) (v : Word)
  /-- RECORD_FETCH (R319). -/
  | recordFetch (q : BitVec 6)
  /-- LAUNCH_READY (R321). -/
  | launchReady (lid : Word)
  /-- PAIR_DECISION (R336). -/
  | pairDecision (lid : Word)
  /-- SCHEDULER_SELECTION (R326). -/
  | schedulerSelection
  /-- GANG_START (R325). -/
  | gangStart (lid : Word)
  /-- STRIP_STEAL (R330). -/
  | stripSteal (lid : Word)
  /-- LINKED_STORE_RELEASE (R342). -/
  | linkedStoreRelease
  /-- COMPLETION_RECORD (R332). -/
  | completionRecord (q : BitVec 6)
  /-- OWNCLAIM (R359). -/
  | ownclaim (id : BitVec 4) (nonce : Word)
  /-- OWNSTAT_NEXT_WRITE (R359). -/
  | ownstatNextWrite (id : BitVec 4) (v : Word)
  /-- HANDOVER_TIMEOUT (R359). -/
  | handoverTimeout
  /-- OWNBEAT (R359). -/
  | ownbeat (id : BitVec 4)
  /-- HEARTBEAT_TIMEOUT (R359). -/
  | heartbeatTimeout
  /-- PWRLIM (R358). -/
  | pwrlim (id : BitVec 4) (v : Word)
  /-- ELOGTAIL (R358). -/
  | elogtail (v : Word)
  /-- ELOGLOST (R358). -/
  | eloglost (v : Word)
  /-- GET_MEASUREMENTS (R356). -/
  | getMeasurements (fn : BitVec 1)
  /-- KEY_EXCHANGE (R356). -/
  | keyExchange (fn : BitVec 1)
  /-- KEY_SLOT_WRITE (R357). -/
  | keySlotWrite (id : BitVec 4) (slot : BitVec 12) (key : BitVec 512)
  /-- KEY_SLOT_ERASE (R357). -/
  | keySlotErase (id : BitVec 4) (slot : BitVec 12)
  /-- TDISP_ERROR (R354). -/
  | tdispError (fn : BitVec 1)
  /-- BAR2_READ (R357). -/
  | bar2Read (off : BitVec 36)
  /-- BAR2_WRITE (R357). -/
  | bar2Write (off : BitVec 36) (v : Word)
  /-- POWER_LIMIT_EXCEEDED (R360). -/
  | powerLimitExceeded
  /-- CLOCK_RAISE (R327). -/
  | clockRaise (cluster : BitVec 5)
  /-- DIE_TEMPERATURE_105 (R360). -/
  | dieTemperature105 (die : BitVec 2)
  /-- DIE_TEMPERATURE_115 (R360). -/
  | dieTemperature115
  /-- SUPPLY_SAG (R360). -/
  | supplySag (die : BitVec 2)
  /-- PASID_ASSIGN (R276). -/
  | pasidAssign (pasid : BitVec 20) (root : Word) (key : BitVec 16)
  /-- PAGE_TABLE_CHANGE (R273). -/
  | pageTableChange (pa : BitVec 56) (pte : Word)
  /-- TDISP_INTERFACE_STATE_CHANGE (R354). -/
  | tdispInterfaceStateChange (fn : BitVec 1) (st : TdispState)
  /-- LATE_DATA_DISCARD (R263). -/
  | lateDataDiscard (n : Nat)
  /-- ACCESS_ENTRY_ISSUE (R247). -/
  | accessEntryIssue
  deriving DecidableEq, Repr

/-- The class of an instruction (R18). -/
def Instr.cls : Instr → Cls
  | .add _ => .scalar
  | .sub _ => .scalar
  | .and _ => .scalar
  | .or _ => .scalar
  | .xor _ => .scalar
  | .sll _ => .scalar
  | .srl _ => .scalar
  | .sra _ => .scalar
  | .slt _ => .scalar
  | .sltn _ => .scalar
  | .min _ => .scalar
  | .max _ => .scalar
  | .minn _ => .scalar
  | .maxn _ => .scalar
  | .mul _ => .scalar
  | .mulh _ => .scalar
  | .mulhn _ => .scalar
  | .div _ => .scalar
  | .divn _ => .scalar
  | .rem _ => .scalar
  | .remn _ => .scalar
  | .addw _ => .scalar
  | .subw _ => .scalar
  | .clz _ => .scalar
  | .ctz _ => .scalar
  | .popc _ => .scalar
  | .addi _ => .scalar
  | .andi _ => .scalar
  | .ori _ => .scalar
  | .xori _ => .scalar
  | .slli _ => .scalar
  | .srli _ => .scalar
  | .srai _ => .scalar
  | .slti _ => .scalar
  | .sltni _ => .scalar
  | .ldI8 _ => .scalar
  | .ldI16 _ => .scalar
  | .ldI32 _ => .scalar
  | .ldI64 _ => .scalar
  | .ldN8 _ => .scalar
  | .ldN16 _ => .scalar
  | .ldN32 _ => .scalar
  | .ldPr _ => .scalar
  | .stI8 _ => .scalar
  | .stI16 _ => .scalar
  | .stI32 _ => .scalar
  | .stI64 _ => .scalar
  | .stPr _ => .scalar
  | .amoSwap _ => .scalar
  | .amoAdd _ => .scalar
  | .amoAnd _ => .scalar
  | .amoOr _ => .scalar
  | .amoXor _ => .scalar
  | .amoMin _ => .scalar
  | .amoMax _ => .scalar
  | .amoMinn _ => .scalar
  | .amoMaxn _ => .scalar
  | .amoCas _ => .scalar
  | .amoLd _ => .scalar
  | .amoSt _ => .scalar
  | .ldh _ => .scalar
  | .pcadd _ => .scalar
  | .beq _ => .scalar
  | .bne _ => .scalar
  | .blt _ => .scalar
  | .bge _ => .scalar
  | .bltn _ => .scalar
  | .bgen _ => .scalar
  | .jal _ => .scalar
  | .jalr _ => .scalar
  | .crRd _ => .scalar
  | .crWr _ => .scalar
  | .crSet _ => .scalar
  | .crClr _ => .scalar
  | .tilenWrite _ => .event
  | .psmMirrorClear => .event
  | .vsl _ => .scalar
  | .brk => .scalar
  | .swtrap _ => .scalar
  | .halt => .scalar
  | .lsync _ => .scalar
  | .gbar _ => .scalar
  | .wmPub _ _ => .scalar
  | .wmWait _ _ => .scalar
  | .pnSend _ _ => .scalar
  | .pnRecvCh2 _ => .scalar
  | .pnRecvCh4 _ => .scalar
  | .pnCnt _ _ => .scalar
  | .jl _ => .scalar
  | .jwait _ => .scalar
  | .hmBody => .scalar
  | .hmEnd => .scalar
  | .cAddi _ _ => .scalar
  | .cLi _ _ => .scalar
  | .cMv _ _ => .scalar
  | .cAdd _ _ => .scalar
  | .cSub _ _ => .scalar
  | .cAnd _ _ => .scalar
  | .cSlli _ _ => .scalar
  | .cSrai _ _ => .scalar
  | .cLd _ _ => .scalar
  | .cSd _ _ => .scalar
  | .cBeqz _ _ => .scalar
  | .cBnez _ _ => .scalar
  | .cJ _ => .scalar
  | .cJr _ => .scalar
  | .cNop => .scalar
  | .cBrk => .scalar
  | .illegalInstruction _ _ => .event
  | .vadd _ => .vector
  | .vsub _ => .vector
  | .vmul _ => .vector
  | .vmulh _ => .vector
  | .vmulhn _ => .vector
  | .vand _ => .vector
  | .vor _ => .vector
  | .vxor _ => .vector
  | .vsll _ => .vector
  | .vsrl _ => .vector
  | .vsra _ => .vector
  | .vmin _ => .vector
  | .vmax _ => .vector
  | .vminn _ => .vector
  | .vmaxn _ => .vector
  | .vsel _ => .vector
  | .vfadd _ => .vector
  | .vfsub _ => .vector
  | .vfmul _ => .vector
  | .vfdiv _ => .vector
  | .vfmin _ => .vector
  | .vfmax _ => .vector
  | .vfsqrt _ => .vector
  | .vfabs _ => .vector
  | .vfneg _ => .vector
  | .vfclass _ => .vector
  | .vfsgnj _ => .vector
  | .vfma _ => .vector
  | .vfms _ => .vector
  | .vfnma _ => .vector
  | .vfnms _ => .vector
  | .vfaerr _ => .vector
  | .vfmerr _ => .vector
  | .vfrecipEst _ => .vector
  | .vfrsqrtEst _ => .vector
  | .vceq _ => .vector
  | .vclt _ => .vector
  | .vcle _ => .vector
  | .vcltn _ => .vector
  | .vclen _ => .vector
  | .vfceq _ => .vector
  | .vfclt _ => .vector
  | .vfcle _ => .vector
  | .vcvt _ => .vector
  | .vperm _ => .vector
  | .vslideup _ => .vector
  | .vslidedown _ => .vector
  | .vcompress _ => .vector
  | .vexpand _ => .vector
  | .vmv _ => .vector
  | .vzip _ => .vector
  | .vunzip _ => .vector
  | .vfoldAdd _ => .vector
  | .vfoldMin _ => .vector
  | .vfoldMax _ => .vector
  | .vfoldMinn _ => .vector
  | .vfoldMaxn _ => .vector
  | .vfoldFadd _ => .vector
  | .vfoldFmin _ => .vector
  | .vfoldFmax _ => .vector
  | .pand _ => .vector
  | .por _ => .vector
  | .pxor _ => .vector
  | .pandn _ => .vector
  | .plt _ => .vector
  | .pgetsm _ => .vector
  | .pcount _ => .vector
  | .pfirst _ => .vector
  | .vaddVx _ => .vector
  | .vsubVx _ => .vector
  | .vrsubVx _ => .vector
  | .vmulVx _ => .vector
  | .vandVx _ => .vector
  | .vorVx _ => .vector
  | .vxorVx _ => .vector
  | .vsllVx _ => .vector
  | .vsrlVx _ => .vector
  | .vsraVx _ => .vector
  | .vminVx _ => .vector
  | .vmaxVx _ => .vector
  | .vfaddVx _ => .vector
  | .vfmulVx _ => .vector
  | .vfmaVx _ => .vector
  | .vbcast _ => .vector
  | .vld _ => .vector
  | .vlds _ => .vector
  | .vldFf _ => .vector
  | .vldc _ => .vector
  | .vfill _ => .vector
  | .vldXn _ => .vector
  | .vldXtn _ => .vector
  | .vldx _ => .vector
  | .vst _ => .vector
  | .vsts _ => .vector
  | .vcopy _ => .vector
  | .vstc _ => .vector
  | .vspill _ => .vector
  | .vstXn _ => .vector
  | .vstXtn _ => .vector
  | .vstx _ => .vector
  | .vamoSwap _ => .vector
  | .vamoAdd _ => .vector
  | .vamoAnd _ => .vector
  | .vamoOr _ => .vector
  | .vamoXor _ => .vector
  | .vamoMin _ => .vector
  | .vamoMax _ => .vector
  | .vamoMinn _ => .vector
  | .vamoMaxn _ => .vector
  | .vamoCas _ => .vector
  | .vamoAddCb _ => .vector
  | .vamoAndCb _ => .vector
  | .vamoOrCb _ => .vector
  | .vamoXorCb _ => .vector
  | .vamoMinCb _ => .vector
  | .vamoMaxCb _ => .vector
  | .vamoMinnCb _ => .vector
  | .vamoMaxnCb _ => .vector
  | .vamoFadd _ => .vector
  | .vamoFmin _ => .vector
  | .vamoFmax _ => .vector
  | .vwaitEq _ => .vector
  | .vwaitNe _ => .vector
  | .vwaitGe _ => .vector
  | .vwaitLt _ => .vector
  | .vwaitGen _ => .vector
  | .vwaitLtn _ => .vector
  | .vamoFaddCb _ => .vector
  | .vamoFminCb _ => .vector
  | .vamoFmaxCb _ => .vector
  | .vfence _ => .vector
  | .awinDecl _ => .vector
  | .awinUpd _ => .vector
  | .awinMerge _ => .vector
  | .pnTake _ _ => .vector
  | .pnPost _ => .vector
  | .pnPostVl _ => .vector
  | .supdCms _ => .vector
  | .supdBks _ => .vector
  | .supdQh _ => .vector
  | .supdMom _ => .vector
  | .supdWes _ => .vector
  | .smerge _ => .vector
  | .sclr _ => .vector
  | .sdecl _ => .vector
  | .sqCms _ => .vector
  | .sqBksEst _ => .vector
  | .sqBksItems _ => .vector
  | .sqQnt _ => .vector
  | .sqMomQuery _ => .vector
  | .sqWes _ => .vector
  | .sst _ => .vector
  | .sld _ => .vector
  | .smergeM _ => .vector
  | .scmt _ => .vector
  | .scmtImageWrite => .event
  | .scmtSealWrite => .event
  | .astOpen _ => .access
  | .astClose _ => .access
  | .astRun _ => .access
  | .arBind _ => .access
  | .arUnbind _ => .access
  | .acol _ => .access
  | .asend _ => .access
  | .arecv _ => .access
  | .aflip _ => .access
  | .dpb _ => .vector
  | .shalloc _ => .vector
  | .shallocM _ => .vector
  | .shfree _ => .vector
  | .shstat _ => .vector
  | .mopa _ => .vector
  | .mops _ => .vector
  | .mopi _ => .vector
  | .mopn _ => .vector
  | .mopl _ => .vector
  | .mgrow _ => .vector
  | .mrowGet _ => .vector
  | .mrowPut _ => .vector
  | .mcolGet _ => .vector
  | .mcolPut _ => .vector
  | .mld _ => .vector
  | .mst _ => .vector
  | .mzero _ => .vector
  | .convoyPost => .event
  | .microOperationIssue => .event
  | .microOperationComplete _ => .event
  | .laneReExecution _ _ => .event
  | .convoyRetire => .event
  | .pennantTake _ => .event
  | .storeQueueDrain _ => .event
  | .combiningEntryRetire _ => .event
  | .gangBarrierComplete => .event
  | .wmWaitSatisfied => .event
  | .trapDelivery _ _ _ _ => .event
  | .preempt => .event
  | .partitionSave => .event
  | .restore _ _ _ => .event
  | .gangEnd _ => .event
  | .stallModeRequest _ => .event
  | .arrival => .event
  | .pendingModeWithdraw => .event
  | .stallModeSwitch _ => .event
  | .pageWalk _ _ _ => .event
  | .shootdown _ _ _ => .event
  | .pageMigration _ _ _ => .event
  | .backingExchange _ _ _ => .event
  | .writeBack _ _ _ => .event
  | .linkRd _ _ _ => .event
  | .linkWr _ _ _ _ _ => .event
  | .linkWrm _ _ _ _ _ _ => .event
  | .linkRdr _ _ _ _ => .event
  | .linkWra _ _ _ _ => .event
  | .moduleLinkFailure _ => .event
  | .pasidTeardown _ _ => .event
  | .pasidDrain _ => .event
  | .powerLoss => .event
  | .deviceReset => .event
  | .powerOn _ _ => .event
  | .scrubPass _ => .event
  | .coreQuarantine _ => .event
  | .quotaChange _ _ _ => .event
  | .switchFailure _ => .event
  | .switchReturn _ => .event
  | .chunkDelivery _ => .event
  | .outChunkWrite _ => .event
  | .colSend _ => .event
  | .colRecv _ => .event
  | .colRed _ => .event
  | .colCopy _ => .event
  | .colCopyIn _ => .event
  | .colCopyOut _ => .event
  | .recvTimeout _ => .event
  | .lateImageMerge _ => .event
  | .participantFailed _ _ => .event
  | .transferMatch _ => .event
  | .qtailWrite _ _ _ => .event
  | .qreprioWrite _ _ _ => .event
  | .managementRegisterWrite _ _ _ => .event
  | .recordFetch _ => .event
  | .launchReady _ => .event
  | .pairDecision _ => .event
  | .schedulerSelection => .event
  | .gangStart _ => .event
  | .stripSteal _ => .event
  | .linkedStoreRelease => .event
  | .completionRecord _ => .event
  | .ownclaim _ _ => .event
  | .ownstatNextWrite _ _ => .event
  | .handoverTimeout => .event
  | .ownbeat _ => .event
  | .heartbeatTimeout => .event
  | .pwrlim _ _ => .event
  | .elogtail _ => .event
  | .eloglost _ => .event
  | .getMeasurements _ => .event
  | .keyExchange _ => .event
  | .keySlotWrite _ _ _ => .event
  | .keySlotErase _ _ => .event
  | .tdispError _ => .event
  | .bar2Read _ => .event
  | .bar2Write _ _ => .event
  | .powerLimitExceeded => .event
  | .clockRaise _ => .event
  | .dieTemperature105 _ => .event
  | .dieTemperature115 => .event
  | .supplySag _ => .event
  | .pasidAssign _ _ _ => .event
  | .pageTableChange _ _ => .event
  | .tdispInterfaceStateChange _ _ => .event
  | .lateDataDiscard _ => .event
  | .accessEntryIssue => .event

/-- The length of an instruction in bits (R32); 0 for a row that has no encoding. -/
def Instr.bits : Instr → Nat
  | .add _ => 32
  | .sub _ => 32
  | .and _ => 32
  | .or _ => 32
  | .xor _ => 32
  | .sll _ => 32
  | .srl _ => 32
  | .sra _ => 32
  | .slt _ => 32
  | .sltn _ => 32
  | .min _ => 32
  | .max _ => 32
  | .minn _ => 32
  | .maxn _ => 32
  | .mul _ => 32
  | .mulh _ => 32
  | .mulhn _ => 32
  | .div _ => 32
  | .divn _ => 32
  | .rem _ => 32
  | .remn _ => 32
  | .addw _ => 32
  | .subw _ => 32
  | .clz _ => 32
  | .ctz _ => 32
  | .popc _ => 32
  | .addi _ => 32
  | .andi _ => 32
  | .ori _ => 32
  | .xori _ => 32
  | .slli _ => 32
  | .srli _ => 32
  | .srai _ => 32
  | .slti _ => 32
  | .sltni _ => 32
  | .ldI8 _ => 32
  | .ldI16 _ => 32
  | .ldI32 _ => 32
  | .ldI64 _ => 32
  | .ldN8 _ => 32
  | .ldN16 _ => 32
  | .ldN32 _ => 32
  | .ldPr _ => 32
  | .stI8 _ => 32
  | .stI16 _ => 32
  | .stI32 _ => 32
  | .stI64 _ => 32
  | .stPr _ => 32
  | .amoSwap _ => 32
  | .amoAdd _ => 32
  | .amoAnd _ => 32
  | .amoOr _ => 32
  | .amoXor _ => 32
  | .amoMin _ => 32
  | .amoMax _ => 32
  | .amoMinn _ => 32
  | .amoMaxn _ => 32
  | .amoCas _ => 32
  | .amoLd _ => 32
  | .amoSt _ => 32
  | .ldh _ => 32
  | .pcadd _ => 32
  | .beq _ => 32
  | .bne _ => 32
  | .blt _ => 32
  | .bge _ => 32
  | .bltn _ => 32
  | .bgen _ => 32
  | .jal _ => 32
  | .jalr _ => 32
  | .crRd _ => 32
  | .crWr _ => 32
  | .crSet _ => 32
  | .crClr _ => 32
  | .tilenWrite _ => 0
  | .psmMirrorClear => 0
  | .vsl _ => 32
  | .brk => 32
  | .swtrap _ => 32
  | .halt => 32
  | .lsync _ => 32
  | .gbar _ => 32
  | .wmPub _ _ => 32
  | .wmWait _ _ => 32
  | .pnSend _ _ => 32
  | .pnRecvCh2 _ => 32
  | .pnRecvCh4 _ => 32
  | .pnCnt _ _ => 32
  | .jl _ => 32
  | .jwait _ => 32
  | .hmBody => 32
  | .hmEnd => 32
  | .cAddi _ _ => 16
  | .cLi _ _ => 16
  | .cMv _ _ => 16
  | .cAdd _ _ => 16
  | .cSub _ _ => 16
  | .cAnd _ _ => 16
  | .cSlli _ _ => 16
  | .cSrai _ _ => 16
  | .cLd _ _ => 16
  | .cSd _ _ => 16
  | .cBeqz _ _ => 16
  | .cBnez _ _ => 16
  | .cJ _ => 16
  | .cJr _ => 16
  | .cNop => 16
  | .cBrk => 16
  | .illegalInstruction _ _ => 0
  | .vadd _ => 32
  | .vsub _ => 32
  | .vmul _ => 32
  | .vmulh _ => 32
  | .vmulhn _ => 32
  | .vand _ => 32
  | .vor _ => 32
  | .vxor _ => 32
  | .vsll _ => 32
  | .vsrl _ => 32
  | .vsra _ => 32
  | .vmin _ => 32
  | .vmax _ => 32
  | .vminn _ => 32
  | .vmaxn _ => 32
  | .vsel _ => 32
  | .vfadd _ => 32
  | .vfsub _ => 32
  | .vfmul _ => 32
  | .vfdiv _ => 32
  | .vfmin _ => 32
  | .vfmax _ => 32
  | .vfsqrt _ => 32
  | .vfabs _ => 32
  | .vfneg _ => 32
  | .vfclass _ => 32
  | .vfsgnj _ => 32
  | .vfma _ => 32
  | .vfms _ => 32
  | .vfnma _ => 32
  | .vfnms _ => 32
  | .vfaerr _ => 32
  | .vfmerr _ => 32
  | .vfrecipEst _ => 32
  | .vfrsqrtEst _ => 32
  | .vceq _ => 32
  | .vclt _ => 32
  | .vcle _ => 32
  | .vcltn _ => 32
  | .vclen _ => 32
  | .vfceq _ => 32
  | .vfclt _ => 32
  | .vfcle _ => 32
  | .vcvt _ => 32
  | .vperm _ => 32
  | .vslideup _ => 32
  | .vslidedown _ => 32
  | .vcompress _ => 32
  | .vexpand _ => 32
  | .vmv _ => 32
  | .vzip _ => 32
  | .vunzip _ => 32
  | .vfoldAdd _ => 32
  | .vfoldMin _ => 32
  | .vfoldMax _ => 32
  | .vfoldMinn _ => 32
  | .vfoldMaxn _ => 32
  | .vfoldFadd _ => 32
  | .vfoldFmin _ => 32
  | .vfoldFmax _ => 32
  | .pand _ => 32
  | .por _ => 32
  | .pxor _ => 32
  | .pandn _ => 32
  | .plt _ => 32
  | .pgetsm _ => 32
  | .pcount _ => 32
  | .pfirst _ => 32
  | .vaddVx _ => 32
  | .vsubVx _ => 32
  | .vrsubVx _ => 32
  | .vmulVx _ => 32
  | .vandVx _ => 32
  | .vorVx _ => 32
  | .vxorVx _ => 32
  | .vsllVx _ => 32
  | .vsrlVx _ => 32
  | .vsraVx _ => 32
  | .vminVx _ => 32
  | .vmaxVx _ => 32
  | .vfaddVx _ => 32
  | .vfmulVx _ => 32
  | .vfmaVx _ => 32
  | .vbcast _ => 32
  | .vld _ => 32
  | .vlds _ => 32
  | .vldFf _ => 32
  | .vldc _ => 32
  | .vfill _ => 32
  | .vldXn _ => 32
  | .vldXtn _ => 32
  | .vldx _ => 32
  | .vst _ => 32
  | .vsts _ => 32
  | .vcopy _ => 32
  | .vstc _ => 32
  | .vspill _ => 32
  | .vstXn _ => 32
  | .vstXtn _ => 32
  | .vstx _ => 32
  | .vamoSwap _ => 32
  | .vamoAdd _ => 32
  | .vamoAnd _ => 32
  | .vamoOr _ => 32
  | .vamoXor _ => 32
  | .vamoMin _ => 32
  | .vamoMax _ => 32
  | .vamoMinn _ => 32
  | .vamoMaxn _ => 32
  | .vamoCas _ => 32
  | .vamoAddCb _ => 32
  | .vamoAndCb _ => 32
  | .vamoOrCb _ => 32
  | .vamoXorCb _ => 32
  | .vamoMinCb _ => 32
  | .vamoMaxCb _ => 32
  | .vamoMinnCb _ => 32
  | .vamoMaxnCb _ => 32
  | .vamoFadd _ => 32
  | .vamoFmin _ => 32
  | .vamoFmax _ => 32
  | .vwaitEq _ => 32
  | .vwaitNe _ => 32
  | .vwaitGe _ => 32
  | .vwaitLt _ => 32
  | .vwaitGen _ => 32
  | .vwaitLtn _ => 32
  | .vamoFaddCb _ => 32
  | .vamoFminCb _ => 32
  | .vamoFmaxCb _ => 32
  | .vfence _ => 32
  | .awinDecl _ => 32
  | .awinUpd _ => 32
  | .awinMerge _ => 32
  | .pnTake _ _ => 32
  | .pnPost _ => 32
  | .pnPostVl _ => 32
  | .supdCms _ => 32
  | .supdBks _ => 32
  | .supdQh _ => 32
  | .supdMom _ => 32
  | .supdWes _ => 32
  | .smerge _ => 32
  | .sclr _ => 32
  | .sdecl _ => 32
  | .sqCms _ => 32
  | .sqBksEst _ => 32
  | .sqBksItems _ => 32
  | .sqQnt _ => 32
  | .sqMomQuery _ => 32
  | .sqWes _ => 32
  | .sst _ => 32
  | .sld _ => 32
  | .smergeM _ => 32
  | .scmt _ => 32
  | .scmtImageWrite => 0
  | .scmtSealWrite => 0
  | .astOpen _ => 32
  | .astClose _ => 32
  | .astRun _ => 32
  | .arBind _ => 32
  | .arUnbind _ => 32
  | .acol _ => 32
  | .asend _ => 32
  | .arecv _ => 32
  | .aflip _ => 32
  | .dpb _ => 32
  | .shalloc _ => 32
  | .shallocM _ => 32
  | .shfree _ => 32
  | .shstat _ => 32
  | .mopa _ => 64
  | .mops _ => 64
  | .mopi _ => 64
  | .mopn _ => 64
  | .mopl _ => 64
  | .mgrow _ => 64
  | .mrowGet _ => 64
  | .mrowPut _ => 64
  | .mcolGet _ => 64
  | .mcolPut _ => 64
  | .mld _ => 64
  | .mst _ => 64
  | .mzero _ => 64
  | .convoyPost => 0
  | .microOperationIssue => 0
  | .microOperationComplete _ => 0
  | .laneReExecution _ _ => 0
  | .convoyRetire => 0
  | .pennantTake _ => 0
  | .storeQueueDrain _ => 0
  | .combiningEntryRetire _ => 0
  | .gangBarrierComplete => 0
  | .wmWaitSatisfied => 0
  | .trapDelivery _ _ _ _ => 0
  | .preempt => 0
  | .partitionSave => 0
  | .restore _ _ _ => 0
  | .gangEnd _ => 0
  | .stallModeRequest _ => 0
  | .arrival => 0
  | .pendingModeWithdraw => 0
  | .stallModeSwitch _ => 0
  | .pageWalk _ _ _ => 0
  | .shootdown _ _ _ => 0
  | .pageMigration _ _ _ => 0
  | .backingExchange _ _ _ => 0
  | .writeBack _ _ _ => 0
  | .linkRd _ _ _ => 0
  | .linkWr _ _ _ _ _ => 0
  | .linkWrm _ _ _ _ _ _ => 0
  | .linkRdr _ _ _ _ => 0
  | .linkWra _ _ _ _ => 0
  | .moduleLinkFailure _ => 0
  | .pasidTeardown _ _ => 0
  | .pasidDrain _ => 0
  | .powerLoss => 0
  | .deviceReset => 0
  | .powerOn _ _ => 0
  | .scrubPass _ => 0
  | .coreQuarantine _ => 0
  | .quotaChange _ _ _ => 0
  | .switchFailure _ => 0
  | .switchReturn _ => 0
  | .chunkDelivery _ => 0
  | .outChunkWrite _ => 0
  | .colSend _ => 0
  | .colRecv _ => 0
  | .colRed _ => 0
  | .colCopy _ => 0
  | .colCopyIn _ => 0
  | .colCopyOut _ => 0
  | .recvTimeout _ => 0
  | .lateImageMerge _ => 0
  | .participantFailed _ _ => 0
  | .transferMatch _ => 0
  | .qtailWrite _ _ _ => 0
  | .qreprioWrite _ _ _ => 0
  | .managementRegisterWrite _ _ _ => 0
  | .recordFetch _ => 0
  | .launchReady _ => 0
  | .pairDecision _ => 0
  | .schedulerSelection => 0
  | .gangStart _ => 0
  | .stripSteal _ => 0
  | .linkedStoreRelease => 0
  | .completionRecord _ => 0
  | .ownclaim _ _ => 0
  | .ownstatNextWrite _ _ => 0
  | .handoverTimeout => 0
  | .ownbeat _ => 0
  | .heartbeatTimeout => 0
  | .pwrlim _ _ => 0
  | .elogtail _ => 0
  | .eloglost _ => 0
  | .getMeasurements _ => 0
  | .keyExchange _ => 0
  | .keySlotWrite _ _ _ => 0
  | .keySlotErase _ _ => 0
  | .tdispError _ => 0
  | .bar2Read _ => 0
  | .bar2Write _ _ => 0
  | .powerLimitExceeded => 0
  | .clockRaise _ => 0
  | .dieTemperature105 _ => 0
  | .dieTemperature115 => 0
  | .supplySag _ => 0
  | .pasidAssign _ _ _ => 0
  | .pageTableChange _ _ => 0
  | .tdispInterfaceStateChange _ _ => 0
  | .lateDataDiscard _ => 0
  | .accessEntryIssue => 0

/-- The convoy link bit L of a vector-class instruction (R19, R37). -/
def Instr.linked : Instr → Bool
  | .add _ => false
  | .sub _ => false
  | .and _ => false
  | .or _ => false
  | .xor _ => false
  | .sll _ => false
  | .srl _ => false
  | .sra _ => false
  | .slt _ => false
  | .sltn _ => false
  | .min _ => false
  | .max _ => false
  | .minn _ => false
  | .maxn _ => false
  | .mul _ => false
  | .mulh _ => false
  | .mulhn _ => false
  | .div _ => false
  | .divn _ => false
  | .rem _ => false
  | .remn _ => false
  | .addw _ => false
  | .subw _ => false
  | .clz _ => false
  | .ctz _ => false
  | .popc _ => false
  | .addi _ => false
  | .andi _ => false
  | .ori _ => false
  | .xori _ => false
  | .slli _ => false
  | .srli _ => false
  | .srai _ => false
  | .slti _ => false
  | .sltni _ => false
  | .ldI8 _ => false
  | .ldI16 _ => false
  | .ldI32 _ => false
  | .ldI64 _ => false
  | .ldN8 _ => false
  | .ldN16 _ => false
  | .ldN32 _ => false
  | .ldPr _ => false
  | .stI8 _ => false
  | .stI16 _ => false
  | .stI32 _ => false
  | .stI64 _ => false
  | .stPr _ => false
  | .amoSwap _ => false
  | .amoAdd _ => false
  | .amoAnd _ => false
  | .amoOr _ => false
  | .amoXor _ => false
  | .amoMin _ => false
  | .amoMax _ => false
  | .amoMinn _ => false
  | .amoMaxn _ => false
  | .amoCas _ => false
  | .amoLd _ => false
  | .amoSt _ => false
  | .ldh _ => false
  | .pcadd _ => false
  | .beq _ => false
  | .bne _ => false
  | .blt _ => false
  | .bge _ => false
  | .bltn _ => false
  | .bgen _ => false
  | .jal _ => false
  | .jalr _ => false
  | .crRd _ => false
  | .crWr _ => false
  | .crSet _ => false
  | .crClr _ => false
  | .tilenWrite _ => false
  | .psmMirrorClear => false
  | .vsl _ => false
  | .brk => false
  | .swtrap _ => false
  | .halt => false
  | .lsync _ => false
  | .gbar _ => false
  | .wmPub _ _ => false
  | .wmWait _ _ => false
  | .pnSend _ _ => false
  | .pnRecvCh2 _ => false
  | .pnRecvCh4 _ => false
  | .pnCnt _ _ => false
  | .jl _ => false
  | .jwait _ => false
  | .hmBody => false
  | .hmEnd => false
  | .cAddi _ _ => false
  | .cLi _ _ => false
  | .cMv _ _ => false
  | .cAdd _ _ => false
  | .cSub _ _ => false
  | .cAnd _ _ => false
  | .cSlli _ _ => false
  | .cSrai _ _ => false
  | .cLd _ _ => false
  | .cSd _ _ => false
  | .cBeqz _ _ => false
  | .cBnez _ _ => false
  | .cJ _ => false
  | .cJr _ => false
  | .cNop => false
  | .cBrk => false
  | .illegalInstruction _ _ => false
  | .vadd f => f.l
  | .vsub f => f.l
  | .vmul f => f.l
  | .vmulh f => f.l
  | .vmulhn f => f.l
  | .vand f => f.l
  | .vor f => f.l
  | .vxor f => f.l
  | .vsll f => f.l
  | .vsrl f => f.l
  | .vsra f => f.l
  | .vmin f => f.l
  | .vmax f => f.l
  | .vminn f => f.l
  | .vmaxn f => f.l
  | .vsel f => f.l
  | .vfadd f => f.l
  | .vfsub f => f.l
  | .vfmul f => f.l
  | .vfdiv f => f.l
  | .vfmin f => f.l
  | .vfmax f => f.l
  | .vfsqrt f => f.l
  | .vfabs f => f.l
  | .vfneg f => f.l
  | .vfclass f => f.l
  | .vfsgnj f => f.l
  | .vfma f => f.l
  | .vfms f => f.l
  | .vfnma f => f.l
  | .vfnms f => f.l
  | .vfaerr f => f.l
  | .vfmerr f => f.l
  | .vfrecipEst f => f.l
  | .vfrsqrtEst f => f.l
  | .vceq f => f.l
  | .vclt f => f.l
  | .vcle f => f.l
  | .vcltn f => f.l
  | .vclen f => f.l
  | .vfceq f => f.l
  | .vfclt f => f.l
  | .vfcle f => f.l
  | .vcvt f => f.l
  | .vperm f => f.l
  | .vslideup f => f.l
  | .vslidedown f => f.l
  | .vcompress f => f.l
  | .vexpand f => f.l
  | .vmv f => f.l
  | .vzip f => f.l
  | .vunzip f => f.l
  | .vfoldAdd f => f.l
  | .vfoldMin f => f.l
  | .vfoldMax f => f.l
  | .vfoldMinn f => f.l
  | .vfoldMaxn f => f.l
  | .vfoldFadd f => f.l
  | .vfoldFmin f => f.l
  | .vfoldFmax f => f.l
  | .pand f => f.l
  | .por f => f.l
  | .pxor f => f.l
  | .pandn f => f.l
  | .plt f => f.l
  | .pgetsm f => f.l
  | .pcount f => f.l
  | .pfirst f => f.l
  | .vaddVx f => f.l
  | .vsubVx f => f.l
  | .vrsubVx f => f.l
  | .vmulVx f => f.l
  | .vandVx f => f.l
  | .vorVx f => f.l
  | .vxorVx f => f.l
  | .vsllVx f => f.l
  | .vsrlVx f => f.l
  | .vsraVx f => f.l
  | .vminVx f => f.l
  | .vmaxVx f => f.l
  | .vfaddVx f => f.l
  | .vfmulVx f => f.l
  | .vfmaVx f => f.l
  | .vbcast f => f.l
  | .vld f => f.l
  | .vlds f => f.l
  | .vldFf f => f.l
  | .vldc f => f.l
  | .vfill f => f.l
  | .vldXn f => f.l
  | .vldXtn f => f.l
  | .vldx f => f.l
  | .vst f => f.l
  | .vsts f => f.l
  | .vcopy f => f.l
  | .vstc f => f.l
  | .vspill f => f.l
  | .vstXn f => f.l
  | .vstXtn f => f.l
  | .vstx f => f.l
  | .vamoSwap f => f.l
  | .vamoAdd f => f.l
  | .vamoAnd f => f.l
  | .vamoOr f => f.l
  | .vamoXor f => f.l
  | .vamoMin f => f.l
  | .vamoMax f => f.l
  | .vamoMinn f => f.l
  | .vamoMaxn f => f.l
  | .vamoCas f => f.l
  | .vamoAddCb f => f.l
  | .vamoAndCb f => f.l
  | .vamoOrCb f => f.l
  | .vamoXorCb f => f.l
  | .vamoMinCb f => f.l
  | .vamoMaxCb f => f.l
  | .vamoMinnCb f => f.l
  | .vamoMaxnCb f => f.l
  | .vamoFadd f => f.l
  | .vamoFmin f => f.l
  | .vamoFmax f => f.l
  | .vwaitEq f => f.l
  | .vwaitNe f => f.l
  | .vwaitGe f => f.l
  | .vwaitLt f => f.l
  | .vwaitGen f => f.l
  | .vwaitLtn f => f.l
  | .vamoFaddCb f => f.l
  | .vamoFminCb f => f.l
  | .vamoFmaxCb f => f.l
  | .vfence _ => false
  | .awinDecl f => f.l
  | .awinUpd f => f.l
  | .awinMerge f => f.l
  | .pnTake l _ => l
  | .pnPost _ => false
  | .pnPostVl _ => false
  | .supdCms f => f.l
  | .supdBks f => f.l
  | .supdQh f => f.l
  | .supdMom f => f.l
  | .supdWes f => f.l
  | .smerge f => f.l
  | .sclr f => f.l
  | .sdecl f => f.l
  | .sqCms f => f.l
  | .sqBksEst f => f.l
  | .sqBksItems f => f.l
  | .sqQnt f => f.l
  | .sqMomQuery f => f.l
  | .sqWes f => f.l
  | .sst f => f.l
  | .sld f => f.l
  | .smergeM f => f.l
  | .scmt f => f.l
  | .scmtImageWrite => false
  | .scmtSealWrite => false
  | .astOpen _ => false
  | .astClose _ => false
  | .astRun _ => false
  | .arBind _ => false
  | .arUnbind _ => false
  | .acol _ => false
  | .asend _ => false
  | .arecv _ => false
  | .aflip _ => false
  | .dpb f => f.l
  | .shalloc f => f.l
  | .shallocM f => f.l
  | .shfree f => f.l
  | .shstat f => f.l
  | .mopa f => f.l
  | .mops f => f.l
  | .mopi f => f.l
  | .mopn f => f.l
  | .mopl f => f.l
  | .mgrow f => f.l
  | .mrowGet f => f.l
  | .mrowPut f => f.l
  | .mcolGet f => f.l
  | .mcolPut f => f.l
  | .mld f => f.l
  | .mst f => f.l
  | .mzero f => f.l
  | .convoyPost => false
  | .microOperationIssue => false
  | .microOperationComplete _ => false
  | .laneReExecution _ _ => false
  | .convoyRetire => false
  | .pennantTake _ => false
  | .storeQueueDrain _ => false
  | .combiningEntryRetire _ => false
  | .gangBarrierComplete => false
  | .wmWaitSatisfied => false
  | .trapDelivery _ _ _ _ => false
  | .preempt => false
  | .partitionSave => false
  | .restore _ _ _ => false
  | .gangEnd _ => false
  | .stallModeRequest _ => false
  | .arrival => false
  | .pendingModeWithdraw => false
  | .stallModeSwitch _ => false
  | .pageWalk _ _ _ => false
  | .shootdown _ _ _ => false
  | .pageMigration _ _ _ => false
  | .backingExchange _ _ _ => false
  | .writeBack _ _ _ => false
  | .linkRd _ _ _ => false
  | .linkWr _ _ _ _ _ => false
  | .linkWrm _ _ _ _ _ _ => false
  | .linkRdr _ _ _ _ => false
  | .linkWra _ _ _ _ => false
  | .moduleLinkFailure _ => false
  | .pasidTeardown _ _ => false
  | .pasidDrain _ => false
  | .powerLoss => false
  | .deviceReset => false
  | .powerOn _ _ => false
  | .scrubPass _ => false
  | .coreQuarantine _ => false
  | .quotaChange _ _ _ => false
  | .switchFailure _ => false
  | .switchReturn _ => false
  | .chunkDelivery _ => false
  | .outChunkWrite _ => false
  | .colSend _ => false
  | .colRecv _ => false
  | .colRed _ => false
  | .colCopy _ => false
  | .colCopyIn _ => false
  | .colCopyOut _ => false
  | .recvTimeout _ => false
  | .lateImageMerge _ => false
  | .participantFailed _ _ => false
  | .transferMatch _ => false
  | .qtailWrite _ _ _ => false
  | .qreprioWrite _ _ _ => false
  | .managementRegisterWrite _ _ _ => false
  | .recordFetch _ => false
  | .launchReady _ => false
  | .pairDecision _ => false
  | .schedulerSelection => false
  | .gangStart _ => false
  | .stripSteal _ => false
  | .linkedStoreRelease => false
  | .completionRecord _ => false
  | .ownclaim _ _ => false
  | .ownstatNextWrite _ _ => false
  | .handoverTimeout => false
  | .ownbeat _ => false
  | .heartbeatTimeout => false
  | .pwrlim _ _ => false
  | .elogtail _ => false
  | .eloglost _ => false
  | .getMeasurements _ => false
  | .keyExchange _ => false
  | .keySlotWrite _ _ _ => false
  | .keySlotErase _ _ => false
  | .tdispError _ => false
  | .bar2Read _ => false
  | .bar2Write _ _ => false
  | .powerLimitExceeded => false
  | .clockRaise _ => false
  | .dieTemperature105 _ => false
  | .dieTemperature115 => false
  | .supplySag _ => false
  | .pasidAssign _ _ _ => false
  | .pageTableChange _ _ => false
  | .tdispInterfaceStateChange _ _ => false
  | .lateDataDiscard _ => false
  | .accessEntryIssue => false

/-- The mnemonic of the opcode table. -/
def Instr.mnemonic : Instr → String
  | .add _ => "ADD"
  | .sub _ => "SUB"
  | .and _ => "AND"
  | .or _ => "OR"
  | .xor _ => "XOR"
  | .sll _ => "SLL"
  | .srl _ => "SRL"
  | .sra _ => "SRA"
  | .slt _ => "SLT"
  | .sltn _ => "SLTN"
  | .min _ => "MIN"
  | .max _ => "MAX"
  | .minn _ => "MINN"
  | .maxn _ => "MAXN"
  | .mul _ => "MUL"
  | .mulh _ => "MULH"
  | .mulhn _ => "MULHN"
  | .div _ => "DIV"
  | .divn _ => "DIVN"
  | .rem _ => "REM"
  | .remn _ => "REMN"
  | .addw _ => "ADDW"
  | .subw _ => "SUBW"
  | .clz _ => "CLZ"
  | .ctz _ => "CTZ"
  | .popc _ => "POPC"
  | .addi _ => "ADDI"
  | .andi _ => "ANDI"
  | .ori _ => "ORI"
  | .xori _ => "XORI"
  | .slli _ => "SLLI"
  | .srli _ => "SRLI"
  | .srai _ => "SRAI"
  | .slti _ => "SLTI"
  | .sltni _ => "SLTNI"
  | .ldI8 _ => "LD_I8"
  | .ldI16 _ => "LD_I16"
  | .ldI32 _ => "LD_I32"
  | .ldI64 _ => "LD_I64"
  | .ldN8 _ => "LD_N8"
  | .ldN16 _ => "LD_N16"
  | .ldN32 _ => "LD_N32"
  | .ldPr _ => "LD_PR"
  | .stI8 _ => "ST_I8"
  | .stI16 _ => "ST_I16"
  | .stI32 _ => "ST_I32"
  | .stI64 _ => "ST_I64"
  | .stPr _ => "ST_PR"
  | .amoSwap _ => "AMO_SWAP"
  | .amoAdd _ => "AMO_ADD"
  | .amoAnd _ => "AMO_AND"
  | .amoOr _ => "AMO_OR"
  | .amoXor _ => "AMO_XOR"
  | .amoMin _ => "AMO_MIN"
  | .amoMax _ => "AMO_MAX"
  | .amoMinn _ => "AMO_MINN"
  | .amoMaxn _ => "AMO_MAXN"
  | .amoCas _ => "AMO_CAS"
  | .amoLd _ => "AMO_LD"
  | .amoSt _ => "AMO_ST"
  | .ldh _ => "LDH"
  | .pcadd _ => "PCADD"
  | .beq _ => "BEQ"
  | .bne _ => "BNE"
  | .blt _ => "BLT"
  | .bge _ => "BGE"
  | .bltn _ => "BLTN"
  | .bgen _ => "BGEN"
  | .jal _ => "JAL"
  | .jalr _ => "JALR"
  | .crRd _ => "CR_RD"
  | .crWr _ => "CR_WR"
  | .crSet _ => "CR_SET"
  | .crClr _ => "CR_CLR"
  | .tilenWrite _ => "TILEN_WRITE"
  | .psmMirrorClear => "PSM_MIRROR_CLEAR"
  | .vsl _ => "VSL"
  | .brk => "BREAK"
  | .swtrap _ => "SWTRAP"
  | .halt => "HALT"
  | .lsync _ => "LSYNC"
  | .gbar _ => "GBAR"
  | .wmPub _ _ => "WM_PUB"
  | .wmWait _ _ => "WM_WAIT"
  | .pnSend _ _ => "PN_SEND"
  | .pnRecvCh2 _ => "PN_RECV_CH2"
  | .pnRecvCh4 _ => "PN_RECV_CH4"
  | .pnCnt _ _ => "PN_CNT"
  | .jl _ => "JL"
  | .jwait _ => "JWAIT"
  | .hmBody => "HM_BODY"
  | .hmEnd => "HM_END"
  | .cAddi _ _ => "C_ADDI"
  | .cLi _ _ => "C_LI"
  | .cMv _ _ => "C_MV"
  | .cAdd _ _ => "C_ADD"
  | .cSub _ _ => "C_SUB"
  | .cAnd _ _ => "C_AND"
  | .cSlli _ _ => "C_SLLI"
  | .cSrai _ _ => "C_SRAI"
  | .cLd _ _ => "C_LD"
  | .cSd _ _ => "C_SD"
  | .cBeqz _ _ => "C_BEQZ"
  | .cBnez _ _ => "C_BNEZ"
  | .cJ _ => "C_J"
  | .cJr _ => "C_JR"
  | .cNop => "C_NOP"
  | .cBrk => "C_BREAK"
  | .illegalInstruction _ _ => "ILLEGAL_INSTRUCTION"
  | .vadd _ => "VADD"
  | .vsub _ => "VSUB"
  | .vmul _ => "VMUL"
  | .vmulh _ => "VMULH"
  | .vmulhn _ => "VMULHN"
  | .vand _ => "VAND"
  | .vor _ => "VOR"
  | .vxor _ => "VXOR"
  | .vsll _ => "VSLL"
  | .vsrl _ => "VSRL"
  | .vsra _ => "VSRA"
  | .vmin _ => "VMIN"
  | .vmax _ => "VMAX"
  | .vminn _ => "VMINN"
  | .vmaxn _ => "VMAXN"
  | .vsel _ => "VSEL"
  | .vfadd _ => "VFADD"
  | .vfsub _ => "VFSUB"
  | .vfmul _ => "VFMUL"
  | .vfdiv _ => "VFDIV"
  | .vfmin _ => "VFMIN"
  | .vfmax _ => "VFMAX"
  | .vfsqrt _ => "VFSQRT"
  | .vfabs _ => "VFABS"
  | .vfneg _ => "VFNEG"
  | .vfclass _ => "VFCLASS"
  | .vfsgnj _ => "VFSGNJ"
  | .vfma _ => "VFMA"
  | .vfms _ => "VFMS"
  | .vfnma _ => "VFNMA"
  | .vfnms _ => "VFNMS"
  | .vfaerr _ => "VFAERR"
  | .vfmerr _ => "VFMERR"
  | .vfrecipEst _ => "VFRECIP_EST"
  | .vfrsqrtEst _ => "VFRSQRT_EST"
  | .vceq _ => "VCEQ"
  | .vclt _ => "VCLT"
  | .vcle _ => "VCLE"
  | .vcltn _ => "VCLTN"
  | .vclen _ => "VCLEN"
  | .vfceq _ => "VFCEQ"
  | .vfclt _ => "VFCLT"
  | .vfcle _ => "VFCLE"
  | .vcvt _ => "VCVT"
  | .vperm _ => "VPERM"
  | .vslideup _ => "VSLIDEUP"
  | .vslidedown _ => "VSLIDEDOWN"
  | .vcompress _ => "VCOMPRESS"
  | .vexpand _ => "VEXPAND"
  | .vmv _ => "VMV"
  | .vzip _ => "VZIP"
  | .vunzip _ => "VUNZIP"
  | .vfoldAdd _ => "VFOLD_ADD"
  | .vfoldMin _ => "VFOLD_MIN"
  | .vfoldMax _ => "VFOLD_MAX"
  | .vfoldMinn _ => "VFOLD_MINN"
  | .vfoldMaxn _ => "VFOLD_MAXN"
  | .vfoldFadd _ => "VFOLD_FADD"
  | .vfoldFmin _ => "VFOLD_FMIN"
  | .vfoldFmax _ => "VFOLD_FMAX"
  | .pand _ => "PAND"
  | .por _ => "POR"
  | .pxor _ => "PXOR"
  | .pandn _ => "PANDN"
  | .plt _ => "PLT"
  | .pgetsm _ => "PGETSM"
  | .pcount _ => "PCOUNT"
  | .pfirst _ => "PFIRST"
  | .vaddVx _ => "VADD_VX"
  | .vsubVx _ => "VSUB_VX"
  | .vrsubVx _ => "VRSUB_VX"
  | .vmulVx _ => "VMUL_VX"
  | .vandVx _ => "VAND_VX"
  | .vorVx _ => "VOR_VX"
  | .vxorVx _ => "VXOR_VX"
  | .vsllVx _ => "VSLL_VX"
  | .vsrlVx _ => "VSRL_VX"
  | .vsraVx _ => "VSRA_VX"
  | .vminVx _ => "VMIN_VX"
  | .vmaxVx _ => "VMAX_VX"
  | .vfaddVx _ => "VFADD_VX"
  | .vfmulVx _ => "VFMUL_VX"
  | .vfmaVx _ => "VFMA_VX"
  | .vbcast _ => "VBCAST"
  | .vld _ => "VLD"
  | .vlds _ => "VLDS"
  | .vldFf _ => "VLD_FF"
  | .vldc _ => "VLDC"
  | .vfill _ => "VFILL"
  | .vldXn _ => "VLD_XN"
  | .vldXtn _ => "VLD_XTN"
  | .vldx _ => "VLDX"
  | .vst _ => "VST"
  | .vsts _ => "VSTS"
  | .vcopy _ => "VCOPY"
  | .vstc _ => "VSTC"
  | .vspill _ => "VSPILL"
  | .vstXn _ => "VST_XN"
  | .vstXtn _ => "VST_XTN"
  | .vstx _ => "VSTX"
  | .vamoSwap _ => "VAMO_SWAP"
  | .vamoAdd _ => "VAMO_ADD"
  | .vamoAnd _ => "VAMO_AND"
  | .vamoOr _ => "VAMO_OR"
  | .vamoXor _ => "VAMO_XOR"
  | .vamoMin _ => "VAMO_MIN"
  | .vamoMax _ => "VAMO_MAX"
  | .vamoMinn _ => "VAMO_MINN"
  | .vamoMaxn _ => "VAMO_MAXN"
  | .vamoCas _ => "VAMO_CAS"
  | .vamoAddCb _ => "VAMO_ADD_CB"
  | .vamoAndCb _ => "VAMO_AND_CB"
  | .vamoOrCb _ => "VAMO_OR_CB"
  | .vamoXorCb _ => "VAMO_XOR_CB"
  | .vamoMinCb _ => "VAMO_MIN_CB"
  | .vamoMaxCb _ => "VAMO_MAX_CB"
  | .vamoMinnCb _ => "VAMO_MINN_CB"
  | .vamoMaxnCb _ => "VAMO_MAXN_CB"
  | .vamoFadd _ => "VAMO_FADD"
  | .vamoFmin _ => "VAMO_FMIN"
  | .vamoFmax _ => "VAMO_FMAX"
  | .vwaitEq _ => "VWAIT_EQ"
  | .vwaitNe _ => "VWAIT_NE"
  | .vwaitGe _ => "VWAIT_GE"
  | .vwaitLt _ => "VWAIT_LT"
  | .vwaitGen _ => "VWAIT_GEN"
  | .vwaitLtn _ => "VWAIT_LTN"
  | .vamoFaddCb _ => "VAMO_FADD_CB"
  | .vamoFminCb _ => "VAMO_FMIN_CB"
  | .vamoFmaxCb _ => "VAMO_FMAX_CB"
  | .vfence _ => "VFENCE"
  | .awinDecl _ => "AWIN_DECL"
  | .awinUpd _ => "AWIN_UPD"
  | .awinMerge _ => "AWIN_MERGE"
  | .pnTake _ _ => "PN_TAKE"
  | .pnPost _ => "PN_POST"
  | .pnPostVl _ => "PN_POST_VL"
  | .supdCms _ => "SUPD_CMS"
  | .supdBks _ => "SUPD_BKS"
  | .supdQh _ => "SUPD_QH"
  | .supdMom _ => "SUPD_MOM"
  | .supdWes _ => "SUPD_WES"
  | .smerge _ => "SMERGE"
  | .sclr _ => "SCLR"
  | .sdecl _ => "SDECL"
  | .sqCms _ => "SQ_CMS"
  | .sqBksEst _ => "SQ_BKS_EST"
  | .sqBksItems _ => "SQ_BKS_ITEMS"
  | .sqQnt _ => "SQ_QNT"
  | .sqMomQuery _ => "SQ_MOM_QUERY"
  | .sqWes _ => "SQ_WES"
  | .sst _ => "SST"
  | .sld _ => "SLD"
  | .smergeM _ => "SMERGE_M"
  | .scmt _ => "SCMT"
  | .scmtImageWrite => "SCMT_IMAGE_WRITE"
  | .scmtSealWrite => "SCMT_SEAL_WRITE"
  | .astOpen _ => "AST_OPEN"
  | .astClose _ => "AST_CLOSE"
  | .astRun _ => "AST_RUN"
  | .arBind _ => "AR_BIND"
  | .arUnbind _ => "AR_UNBIND"
  | .acol _ => "ACOL"
  | .asend _ => "ASEND"
  | .arecv _ => "ARECV"
  | .aflip _ => "AFLIP"
  | .dpb _ => "DPB"
  | .shalloc _ => "SHALLOC"
  | .shallocM _ => "SHALLOC_M"
  | .shfree _ => "SHFREE"
  | .shstat _ => "SHSTAT"
  | .mopa _ => "MOPA"
  | .mops _ => "MOPS"
  | .mopi _ => "MOPI"
  | .mopn _ => "MOPN"
  | .mopl _ => "MOPL"
  | .mgrow _ => "MGROW"
  | .mrowGet _ => "MROW_GET"
  | .mrowPut _ => "MROW_PUT"
  | .mcolGet _ => "MCOL_GET"
  | .mcolPut _ => "MCOL_PUT"
  | .mld _ => "MLD"
  | .mst _ => "MST"
  | .mzero _ => "MZERO"
  | .convoyPost => "CONVOY_POST"
  | .microOperationIssue => "MICRO_OPERATION_ISSUE"
  | .microOperationComplete _ => "MICRO_OPERATION_COMPLETE"
  | .laneReExecution _ _ => "LANE_RE_EXECUTION"
  | .convoyRetire => "CONVOY_RETIRE"
  | .pennantTake _ => "PENNANT_TAKE"
  | .storeQueueDrain _ => "STORE_QUEUE_DRAIN"
  | .combiningEntryRetire _ => "COMBINING_ENTRY_RETIRE"
  | .gangBarrierComplete => "GANG_BARRIER_COMPLETE"
  | .wmWaitSatisfied => "WM_WAIT_SATISFIED"
  | .trapDelivery _ _ _ _ => "TRAP_DELIVERY"
  | .preempt => "PREEMPT"
  | .partitionSave => "PARTITION_SAVE"
  | .restore _ _ _ => "RESTORE"
  | .gangEnd _ => "GANG_END"
  | .stallModeRequest _ => "STALL_MODE_REQUEST"
  | .arrival => "ARRIVAL"
  | .pendingModeWithdraw => "PENDING_MODE_WITHDRAW"
  | .stallModeSwitch _ => "STALL_MODE_SWITCH"
  | .pageWalk _ _ _ => "PAGE_WALK"
  | .shootdown _ _ _ => "SHOOTDOWN"
  | .pageMigration _ _ _ => "PAGE_MIGRATION"
  | .backingExchange _ _ _ => "BACKING_EXCHANGE"
  | .writeBack _ _ _ => "WRITE_BACK"
  | .linkRd _ _ _ => "RD"
  | .linkWr _ _ _ _ _ => "WR"
  | .linkWrm _ _ _ _ _ _ => "WRM"
  | .linkRdr _ _ _ _ => "RDR"
  | .linkWra _ _ _ _ => "WRA"
  | .moduleLinkFailure _ => "MODULE_LINK_FAILURE"
  | .pasidTeardown _ _ => "PASID_TEARDOWN"
  | .pasidDrain _ => "PASID_DRAIN"
  | .powerLoss => "POWER_LOSS"
  | .deviceReset => "DEVICE_RESET"
  | .powerOn _ _ => "POWER_ON"
  | .scrubPass _ => "SCRUB_PASS"
  | .coreQuarantine _ => "CORE_QUARANTINE"
  | .quotaChange _ _ _ => "QUOTA_CHANGE"
  | .switchFailure _ => "SWITCH_FAILURE"
  | .switchReturn _ => "SWITCH_RETURN"
  | .chunkDelivery _ => "CHUNK_DELIVERY"
  | .outChunkWrite _ => "OUT_CHUNK_WRITE"
  | .colSend _ => "SEND"
  | .colRecv _ => "RECV"
  | .colRed _ => "RED"
  | .colCopy _ => "COPY"
  | .colCopyIn _ => "COPY_IN"
  | .colCopyOut _ => "COPY_OUT"
  | .recvTimeout _ => "RECV_TIMEOUT"
  | .lateImageMerge _ => "LATE_IMAGE_MERGE"
  | .participantFailed _ _ => "PARTICIPANT_FAILED"
  | .transferMatch _ => "TRANSFER_MATCH"
  | .qtailWrite _ _ _ => "QTAIL_WRITE"
  | .qreprioWrite _ _ _ => "QREPRIO_WRITE"
  | .managementRegisterWrite _ _ _ => "MANAGEMENT_REGISTER_WRITE"
  | .recordFetch _ => "RECORD_FETCH"
  | .launchReady _ => "LAUNCH_READY"
  | .pairDecision _ => "PAIR_DECISION"
  | .schedulerSelection => "SCHEDULER_SELECTION"
  | .gangStart _ => "GANG_START"
  | .stripSteal _ => "STRIP_STEAL"
  | .linkedStoreRelease => "LINKED_STORE_RELEASE"
  | .completionRecord _ => "COMPLETION_RECORD"
  | .ownclaim _ _ => "OWNCLAIM"
  | .ownstatNextWrite _ _ => "OWNSTAT_NEXT_WRITE"
  | .handoverTimeout => "HANDOVER_TIMEOUT"
  | .ownbeat _ => "OWNBEAT"
  | .heartbeatTimeout => "HEARTBEAT_TIMEOUT"
  | .pwrlim _ _ => "PWRLIM"
  | .elogtail _ => "ELOGTAIL"
  | .eloglost _ => "ELOGLOST"
  | .getMeasurements _ => "GET_MEASUREMENTS"
  | .keyExchange _ => "KEY_EXCHANGE"
  | .keySlotWrite _ _ _ => "KEY_SLOT_WRITE"
  | .keySlotErase _ _ => "KEY_SLOT_ERASE"
  | .tdispError _ => "TDISP_ERROR"
  | .bar2Read _ => "BAR2_READ"
  | .bar2Write _ _ => "BAR2_WRITE"
  | .powerLimitExceeded => "POWER_LIMIT_EXCEEDED"
  | .clockRaise _ => "CLOCK_RAISE"
  | .dieTemperature105 _ => "DIE_TEMPERATURE_105"
  | .dieTemperature115 => "DIE_TEMPERATURE_115"
  | .supplySag _ => "SUPPLY_SAG"
  | .pasidAssign _ _ _ => "PASID_ASSIGN"
  | .pageTableChange _ _ => "PAGE_TABLE_CHANGE"
  | .tdispInterfaceStateChange _ _ => "TDISP_INTERFACE_STATE_CHANGE"
  | .lateDataDiscard _ => "LATE_DATA_DISCARD"
  | .accessEntryIssue => "ACCESS_ENTRY_ISSUE"

end Sys2Proof
end

