-- ==== Sys2Proof/WellFormed.lean ====
section
/-! DEFINITION. Which instruction terms are encodings of instructions: the static field rules of R40, R44, R47 and of
the entries that restate them. A row that is a step of the device has no encoding and is well formed. -/

namespace Sys2Proof

/-- Scope value 7 is reserved (R6). -/
def scopeOk (sc : BitVec 3) : Bool := sc != 7

/-- A pair of registers starts at an even number (R36, R154, R161, R236). -/
def evenReg (d : BitVec 5) : Bool := d.toNat % 2 == 0

/-- A field that names a predicate accepts 0 to 15 (R40). -/
def predName (p : BitVec 5) : Bool := decide (p.toNat < 16)

/-- A destination predicate is `p1` to `p15` (R40). -/
def destPred (p : BitVec 5) : Bool := p != 0 && decide (p.toNat < 16)

/-- The indices that hold a control register (R54). -/
def crExists (i : BitVec 12) : Bool :=
  let n := i.toNat
  decide (n ≤ 6) || decide (8 ≤ n ∧ n ≤ 14) || decide (16 ≤ n ∧ n ≤ 19) || decide (32 ≤ n ∧ n ≤ 34) ||
  decide (48 ≤ n ∧ n ≤ 52) || decide (64 ≤ n ∧ n ≤ 68) || decide (80 ≤ n ∧ n ≤ 85) || n == 96 || n == 112

/-- The control registers with an RW or W1C bit: `vstart`, `memfmt`, `fmt0` to `fmt3`, `rmode`, `repro`, `mflags`,
`tgrant`, `tilen`, `dglim` and the `psm` mirror (R54, R73). -/
def crWritable (i : BitVec 12) : Bool :=
  let n := i.toNat
  n == 2 || n == 6 || decide (8 ≤ n ∧ n ≤ 14) || decide (17 ≤ n ∧ n ≤ 19) || n == 112

/-- The values of `vtype` that `vsl` may write: bits 13:5 zero and EW not 110 or 111 (R104). -/
def vtypeDefined (v : BitVec 14) : Bool := decide (v.toNat < 32) && decide (v.toNat % 8 < 6)

/-- The take and post fields of an access instruction (R39): 11 is not allowed. -/
def acTakePost (tk po : BitVec 2) : Bool := tk != 3 && po != 3

/-- Every field rule that the encoding alone decides (R40, R44, R47). What depends on control registers is checked at
decode by the machine (R49). DEDUCED: log entry 16. DEDUCED: log entry 17. -/
def Instr.wellFormed : Instr → Bool
  | .add _ => true
  | .sub _ => true
  | .and _ => true
  | .or _ => true
  | .xor _ => true
  | .sll _ => true
  | .srl _ => true
  | .sra _ => true
  | .slt _ => true
  | .sltn _ => true
  | .min _ => true
  | .max _ => true
  | .minn _ => true
  | .maxn _ => true
  | .mul _ => true
  | .mulh _ => true
  | .mulhn _ => true
  | .div _ => true
  | .divn _ => true
  | .rem _ => true
  | .remn _ => true
  | .addw _ => true
  | .subw _ => true
  | .clz f => f.b == 0
  | .ctz f => f.b == 0
  | .popc f => f.b == 0
  | .addi _ => true
  | .andi _ => true
  | .ori _ => true
  | .xori _ => true
  | .slli _ => true
  | .srli _ => true
  | .srai _ => true
  | .slti _ => true
  | .sltni _ => true
  | .ldI8 _ => true
  | .ldI16 _ => true
  | .ldI32 _ => true
  | .ldI64 _ => true
  | .ldN8 _ => true
  | .ldN16 _ => true
  | .ldN32 _ => true
  | .ldPr f => evenReg f.d
  | .stI8 _ => true
  | .stI16 _ => true
  | .stI32 _ => true
  | .stI64 _ => true
  | .stPr f => evenReg f.d
  | .amoSwap f => scopeOk f.sc
  | .amoAdd f => scopeOk f.sc
  | .amoAnd f => scopeOk f.sc
  | .amoOr f => scopeOk f.sc
  | .amoXor f => scopeOk f.sc
  | .amoMin f => scopeOk f.sc
  | .amoMax f => scopeOk f.sc
  | .amoMinn f => scopeOk f.sc
  | .amoMaxn f => scopeOk f.sc
  | .amoCas f => scopeOk f.sc
  | .amoLd f => f.b == 0 && scopeOk f.sc
  | .amoSt f => f.d == 0 && scopeOk f.sc
  | .ldh _ => true
  | .pcadd _ => true
  | .beq _ => true
  | .bne _ => true
  | .blt _ => true
  | .bge _ => true
  | .bltn _ => true
  | .bgen _ => true
  | .jal _ => true
  | .jalr _ => true
  | .crRd f => f.a == 0 && crExists f.idx
  | .crWr f => crWritable f.idx
  | .crSet f => crWritable f.idx
  | .crClr f => crWritable f.idx
  | .tilenWrite _ => true
  | .psmMirrorClear => true
  | .vsl f => vtypeDefined f.imm
  | .brk => true
  | .swtrap f => f.b == 0 && f.d == 0
  | .halt => true
  | .lsync sc => scopeOk sc
  | .gbar f => f.b == 0 && f.a == 0
  | .wmPub sc f => f.d == 0 && scopeOk sc
  | .wmWait sc _ => scopeOk sc
  | .pnSend _ f => f.b == 0 && f.d == 0
  | .pnRecvCh2 f => f.b == 0 && f.a == 0
  | .pnRecvCh4 f => f.b == 0 && f.a == 0
  | .pnCnt c f => f.b == 0 && f.a == 0 && decide (c.toNat ≤ 5)
  | .jl _ => true
  | .jwait f => f.b == 0
  | .hmBody => true
  | .hmEnd => true
  | .cAddi _ d => !(d == 0)
  | .cLi _ d => !(d == 0)
  | .cMv _ d => !(d == 0)
  | .cAdd _ d => !(d == 0)
  | .cSub _ d => !(d == 0)
  | .cAnd _ d => !(d == 0)
  | .cSlli _ d => !(d == 0)
  | .cSrai _ d => !(d == 0)
  | .cLd _ d => !(d == 0)
  | .cSd _ d => !(d == 0)
  | .cBeqz _ _ => true
  | .cBnez _ _ => true
  | .cJ _ => true
  | .cJr _ => true
  | .cNop => true
  | .cBrk => true
  | .illegalInstruction _ _ => true
  | .vadd _ => true
  | .vsub _ => true
  | .vmul _ => true
  | .vmulh _ => true
  | .vmulhn _ => true
  | .vand _ => true
  | .vor _ => true
  | .vxor _ => true
  | .vsll _ => true
  | .vsrl _ => true
  | .vsra _ => true
  | .vmin _ => true
  | .vmax _ => true
  | .vminn _ => true
  | .vmaxn _ => true
  | .vsel _ => true
  | .vfadd _ => true
  | .vfsub _ => true
  | .vfmul _ => true
  | .vfdiv _ => true
  | .vfmin _ => true
  | .vfmax _ => true
  | .vfsqrt f => !f.cb && f.vb == 0
  | .vfabs f => !f.cb && f.vb == 1
  | .vfneg f => !f.cb && f.vb == 2
  | .vfclass f => !f.cb && f.vb == 3
  | .vfsgnj _ => true
  | .vfma _ => true
  | .vfms _ => true
  | .vfnma _ => true
  | .vfnms _ => true
  | .vfaerr _ => true
  | .vfmerr _ => true
  | .vfrecipEst f => !f.cb && f.vb == 0
  | .vfrsqrtEst f => !f.cb && f.vb == 0
  | .vceq f => destPred f.vd
  | .vclt f => destPred f.vd
  | .vcle f => destPred f.vd
  | .vcltn f => destPred f.vd
  | .vclen f => destPred f.vd
  | .vfceq f => destPred f.vd
  | .vfclt f => destPred f.vd
  | .vfcle f => destPred f.vd
  | .vcvt f => decide (f.t.toNat < 16)
  | .vperm _ => true
  | .vslideup f => !f.cb
  | .vslidedown f => !f.cb
  | .vcompress f => !f.cb && f.vb == 0
  | .vexpand f => !f.cb && f.vb == 0
  | .vmv f => !f.cb && f.vb == 0
  | .vzip _ => true
  | .vunzip _ => true
  | .vfoldAdd f => !f.cb && f.vb == 0
  | .vfoldMin f => !f.cb && f.vb == 0
  | .vfoldMax f => !f.cb && f.vb == 0
  | .vfoldMinn f => !f.cb && f.vb == 0
  | .vfoldMaxn f => !f.cb && f.vb == 0
  | .vfoldFadd f => !f.cb && f.vb == 0
  | .vfoldFmin f => !f.cb && f.vb == 0
  | .vfoldFmax f => !f.cb && f.vb == 0
  | .pand f => !f.cb && !f.ca && destPred f.vd && predName f.va && predName f.vb
  | .por f => !f.cb && !f.ca && destPred f.vd && predName f.va && predName f.vb
  | .pxor f => !f.cb && !f.ca && destPred f.vd && predName f.va && predName f.vb
  | .pandn f => !f.cb && !f.ca && destPred f.vd && predName f.va && predName f.vb
  | .plt f => !f.cb && !f.ca && f.vb == 0 && destPred f.vd
  | .pgetsm f => !f.cb && !f.ca && f.pred == 0 && f.vb == 0 && f.va == 0 && destPred f.vd
  | .pcount f => !f.cb && !f.ca && f.pred == 0 && f.vb == 0 && predName f.va
  | .pfirst f => !f.cb && !f.ca && f.pred == 0 && f.vb == 0 && predName f.va
  | .vaddVx _ => true
  | .vsubVx _ => true
  | .vrsubVx _ => true
  | .vmulVx _ => true
  | .vandVx _ => true
  | .vorVx _ => true
  | .vxorVx _ => true
  | .vsllVx _ => true
  | .vsrlVx _ => true
  | .vsraVx _ => true
  | .vminVx _ => true
  | .vmaxVx _ => true
  | .vfaddVx _ => true
  | .vfmulVx _ => true
  | .vfmaVx _ => true
  | .vbcast f => !f.ca && f.va == 0
  | .vld f => !f.c && f.b == 0
  | .vlds f => !f.c
  | .vldFf f => !f.c && f.b == 0
  | .vldc f => !f.c && f.pred == 0 && f.b == 0 && evenReg f.a
  | .vfill f => !f.c && f.pred == 0 && f.b == 0
  | .vldXn f => !f.c && f.b == 0 && decide (f.pred ≠ 0)
  | .vldXtn f => !f.c && f.b == 0 && decide (f.pred ≠ 0)
  | .vldx f => scopeOk f.sc
  | .vst f => f.b == 0
  | .vsts _ => true
  | .vcopy f => !f.c && f.b == 0
  | .vstc f => f.b == 0 && evenReg f.a
  | .vspill f => f.pred == 0 && f.b == 0
  | .vstXn f => f.b == 0 && decide (f.pred ≠ 0)
  | .vstXtn f => f.b == 0 && decide (f.pred ≠ 0)
  | .vstx f => scopeOk f.sc
  | .vamoSwap f => scopeOk f.sc
  | .vamoAdd f => scopeOk f.sc
  | .vamoAnd f => scopeOk f.sc
  | .vamoOr f => scopeOk f.sc
  | .vamoXor f => scopeOk f.sc
  | .vamoMin f => scopeOk f.sc
  | .vamoMax f => scopeOk f.sc
  | .vamoMinn f => scopeOk f.sc
  | .vamoMaxn f => scopeOk f.sc
  | .vamoCas f => scopeOk f.sc && decide (f.vd ≠ 31)
  | .vamoAddCb f => !f.rl && !f.aq && scopeOk f.sc
  | .vamoAndCb f => !f.rl && !f.aq && scopeOk f.sc
  | .vamoOrCb f => !f.rl && !f.aq && scopeOk f.sc
  | .vamoXorCb f => !f.rl && !f.aq && scopeOk f.sc
  | .vamoMinCb f => !f.rl && !f.aq && scopeOk f.sc
  | .vamoMaxCb f => !f.rl && !f.aq && scopeOk f.sc
  | .vamoMinnCb f => !f.rl && !f.aq && scopeOk f.sc
  | .vamoMaxnCb f => !f.rl && !f.aq && scopeOk f.sc
  | .vamoFadd f => scopeOk f.sc
  | .vamoFmin f => scopeOk f.sc
  | .vamoFmax f => scopeOk f.sc
  | .vwaitEq f => !f.rl && scopeOk f.sc
  | .vwaitNe f => !f.rl && scopeOk f.sc
  | .vwaitGe f => !f.rl && scopeOk f.sc
  | .vwaitLt f => !f.rl && scopeOk f.sc
  | .vwaitGen f => !f.rl && scopeOk f.sc
  | .vwaitLtn f => !f.rl && scopeOk f.sc
  | .vamoFaddCb f => !f.rl && !f.aq && scopeOk f.sc
  | .vamoFminCb f => !f.rl && !f.aq && scopeOk f.sc
  | .vamoFmaxCb f => !f.rl && !f.aq && scopeOk f.sc
  | .vfence sc => scopeOk sc
  | .awinDecl f => !f.cb && !f.ca && decide (f.pred.toNat ≤ 4)
  | .awinUpd _ => true
  | .awinMerge f => !f.cb && !f.ca && f.pred == 0 && f.b == 0 && f.a == 0
  | .pnTake _ c => (c == 0 || c == 5)
  | .pnPost c => (c == 2 || c == 3)
  | .pnPostVl c => (c == 2 || c == 3)
  | .supdCms f => (!(f.b == 0) || !f.cb)
  | .supdBks f => (!(f.b == 0) || !f.cb)
  | .supdQh f => !f.cb && decide (f.b.toNat < 16)
  | .supdMom f => !f.cb && decide (f.b.toNat < 16)
  | .supdWes f => !f.cb
  | .smerge f => !f.cb && !f.ca && f.pred == 0 && f.b == 0 && decide (f.a.toNat < 16)
  | .sclr f => !f.cb && !f.ca && f.pred == 0 && f.b == 0 && f.a == 0
  | .sdecl f => !f.cb && !f.ca && f.pred == 0 && f.b == 0
  | .sqCms f => !f.cb
  | .sqBksEst f => !f.cb && !f.ca && f.pred == 0 && f.a == 0
  | .sqBksItems f => f.cb && !f.ca && evenReg f.b
  | .sqQnt f => !f.cb && !f.ca && f.pred == 0
  | .sqMomQuery f => !f.cb && !f.ca && f.pred == 0 && decide (f.a.toNat < 16)
  | .sqWes f => !f.cb && !f.ca
  | .sst f => !f.cb && !f.ca && f.pred == 0
  | .sld f => !f.cb && !f.ca && f.pred == 0 && f.b == 0
  | .smergeM f => !f.cb && !f.ca && f.pred == 0 && f.b == 0
  | .scmt f => !f.cb && !f.ca && f.pred == 0
  | .scmtImageWrite => true
  | .scmtSealWrite => true
  | .astOpen f => f.b == 0 && acTakePost f.tk f.po
  | .astClose f => f.b == 0 && f.d == 0 && acTakePost f.tk f.po
  | .astRun f => f.d == 0 && acTakePost f.tk f.po
  | .arBind f => f.b == 0 && acTakePost f.tk f.po
  | .arUnbind f => f.b == 0 && f.a == 0 && acTakePost f.tk f.po
  | .acol f => acTakePost f.tk f.po
  | .asend f => f.b == 0 && acTakePost f.tk f.po
  | .arecv f => f.b == 0 && acTakePost f.tk f.po
  | .aflip f => acTakePost f.tk f.po && decide (f.d.toNat < 7)
  | .dpb f => f.sc == 0 && f.b == 0 && f.a == 0 && f.d == 0
  | .shalloc f => f.b == 0 && (f.sc == 4 || f.sc == 5)
  | .shallocM f => (f.sc == 4 || f.sc == 5)
  | .shfree f => f.b == 0 && f.d == 0 && (f.sc == 4 || f.sc == 5)
  | .shstat f => f.b == 0 && (f.sc == 4 || f.sc == 5)
  | .mopa f => (f.kind == 0 && f.fsa != 3 && f.fsb == 0 && !f.us || f.kind == 1) && (f.us || f.ks == 0) && !f.ff && f.vd == 0
  | .mops f => (f.kind == 0 && f.fsa != 3 && f.fsb == 0 && !f.us || f.kind == 1) && (f.us || f.ks == 0) && !f.ff && f.vd == 0
  | .mopi f => f.kind == 2 && decide (f.fsa.toNat < 2) && f.fsb == 0 && !f.us && f.ks == 0 && !f.ff && f.vd == 0
  | .mopn f => f.kind == 2 && decide (f.fsa.toNat < 2) && f.fsb == 0 && !f.us && f.ks == 0 && !f.ff && f.vd == 0
  | .mopl f => (f.kind == 0 && f.fsa != 3 && f.fsb == 0 && !f.us || f.kind == 1) && (f.us || f.ks == 0) && !f.ff && f.vd == 0 && f.va == 0 && !f.ca
  | .mgrow f => (f.kind == 0 && f.fsa != 3 || f.kind == 1) && f.t == 0 && f.cp == 0 && f.fsb == 0 && !f.us && f.ks == 0 && f.pred == 0 && !f.cb
  | .mrowGet f => f.rp == 0 && f.cp == 0 && f.kind == 0 && f.fsa == 0 && f.fsb == 0 && !f.us && f.ks == 0 && !f.ff && f.va == 0 && !f.ca && !f.cb
  | .mrowPut f => f.rp == 0 && f.cp == 0 && f.kind == 0 && f.fsa == 0 && f.fsb == 0 && !f.us && f.ks == 0 && !f.ff && f.vd == 0 && !f.cb
  | .mcolGet f => f.rp == 0 && f.cp == 0 && f.kind == 0 && f.fsa == 0 && f.fsb == 0 && !f.us && f.ks == 0 && !f.ff && f.va == 0 && !f.ca && !f.cb
  | .mcolPut f => f.rp == 0 && f.cp == 0 && f.kind == 0 && f.fsa == 0 && f.fsb == 0 && !f.us && f.ks == 0 && !f.ff && f.vd == 0 && !f.cb
  | .mld f => f.kind == 0 && f.fsa == 0 && f.fsb == 0 && !f.us && f.ks == 0 && f.vd == 0 && f.pred == 0 && !f.ca && !f.cb
  | .mst f => f.kind == 0 && f.fsa == 0 && f.fsb == 0 && !f.us && f.ks == 0 && !f.ff && f.vd == 0 && f.pred == 0 && !f.ca && !f.cb
  | .mzero f => f.rp == 0 && f.cp == 0 && f.kind == 0 && f.fsa == 0 && f.fsb == 0 && !f.us && f.ks == 0 && !f.ff && f.vd == 0 && f.va == 0 && f.vb == 0 && f.pred == 0 && !f.ca && !f.cb
  | .convoyPost => true
  | .microOperationIssue => true
  | .microOperationComplete _ => true
  | .laneReExecution _ _ => true
  | .convoyRetire => true
  | .pennantTake _ => true
  | .storeQueueDrain _ => true
  | .combiningEntryRetire _ => true
  | .gangBarrierComplete => true
  | .wmWaitSatisfied => true
  | .trapDelivery _ _ _ _ => true
  | .preempt => true
  | .partitionSave => true
  | .restore _ _ _ => true
  | .gangEnd _ => true
  | .stallModeRequest _ => true
  | .arrival => true
  | .pendingModeWithdraw => true
  | .stallModeSwitch _ => true
  | .pageWalk _ _ _ => true
  | .shootdown _ _ _ => true
  | .pageMigration _ _ _ => true
  | .backingExchange _ _ _ => true
  | .writeBack _ _ _ => true
  | .linkRd _ _ _ => true
  | .linkWr _ _ _ _ _ => true
  | .linkWrm _ _ _ _ _ _ => true
  | .linkRdr _ _ _ _ => true
  | .linkWra _ _ _ _ => true
  | .moduleLinkFailure _ => true
  | .pasidTeardown _ _ => true
  | .pasidDrain _ => true
  | .powerLoss => true
  | .deviceReset => true
  | .powerOn _ _ => true
  | .scrubPass _ => true
  | .coreQuarantine _ => true
  | .quotaChange _ _ _ => true
  | .switchFailure _ => true
  | .switchReturn _ => true
  | .chunkDelivery _ => true
  | .outChunkWrite _ => true
  | .colSend _ => true
  | .colRecv _ => true
  | .colRed _ => true
  | .colCopy _ => true
  | .colCopyIn _ => true
  | .colCopyOut _ => true
  | .recvTimeout _ => true
  | .lateImageMerge _ => true
  | .participantFailed _ _ => true
  | .transferMatch _ => true
  | .qtailWrite _ _ _ => true
  | .qreprioWrite _ _ _ => true
  | .managementRegisterWrite _ _ _ => true
  | .recordFetch _ => true
  | .launchReady _ => true
  | .pairDecision _ => true
  | .schedulerSelection => true
  | .gangStart _ => true
  | .stripSteal _ => true
  | .linkedStoreRelease => true
  | .completionRecord _ => true
  | .ownclaim _ _ => true
  | .ownstatNextWrite _ _ => true
  | .handoverTimeout => true
  | .ownbeat _ => true
  | .heartbeatTimeout => true
  | .pwrlim _ _ => true
  | .elogtail _ => true
  | .eloglost _ => true
  | .getMeasurements _ => true
  | .keyExchange _ => true
  | .keySlotWrite _ _ _ => true
  | .keySlotErase _ _ => true
  | .tdispError _ => true
  | .bar2Read _ => true
  | .bar2Write _ _ => true
  | .powerLimitExceeded => true
  | .clockRaise _ => true
  | .dieTemperature105 _ => true
  | .dieTemperature115 => true
  | .supplySag _ => true
  | .pasidAssign _ _ _ => true
  | .pageTableChange _ _ => true
  | .tdispInterfaceStateChange _ _ => true
  | .lateDataDiscard _ => true
  | .accessEntryIssue => true

end Sys2Proof
end

