-- ==== Sys2Proof/Decode.lean ====
section
/-! DEFINITION. The decoder and, after it, the encoder: bits to instructions and back (spec/02_encoding.md).
A word or halfword is a natural number whose bit 0 is the least significant bit; a 64-bit form is its prefix word and its
base word. Each pattern that is not an instruction decodes to a rejection with a name (R47). -/

namespace Sys2Proof

/-- Bit `k` of a word. -/
def bitAt (w k : Nat) : Bool := w / 2 ^ k % 2 == 1

/-- A flag at bit `k` of a word. -/
def bitTo (b : Bool) (k : Nat) : Nat := if b then 2 ^ k else 0

/-- The length in bytes that the first halfword announces (R32). -/
def lengthOf (h : Nat) : Nat := if h % 2 = 0 then 2 else if h % 4 = 1 then 4 else 8


/-- The fields of `OpA` at their places in a base word. -/
def OpOf.a (w : Nat) : OpA :=
  ⟨BitVec.ofNat 5 (w / 2 ^ 18), BitVec.ofNat 5 (w / 2 ^ 13), BitVec.ofNat 5 (w / 2 ^ 8)⟩

/-- The bits of `OpA` in a base word. -/
def OpTo.a (f : OpA) : Nat :=
  f.b.toNat * 2 ^ 18 + f.a.toNat * 2 ^ 13 + f.d.toNat * 2 ^ 8

/-- The fields of `OpI14` at their places in a base word. -/
def OpOf.i14 (w : Nat) : OpI14 :=
  ⟨BitVec.ofNat 14 (w / 2 ^ 18), BitVec.ofNat 5 (w / 2 ^ 13), BitVec.ofNat 5 (w / 2 ^ 8)⟩

/-- The bits of `OpI14` in a base word. -/
def OpTo.i14 (f : OpI14) : Nat :=
  f.imm.toNat * 2 ^ 18 + f.a.toNat * 2 ^ 13 + f.d.toNat * 2 ^ 8

/-- The fields of `OpSh6` at their places in a base word. -/
def OpOf.sh6 (w : Nat) : OpSh6 :=
  ⟨BitVec.ofNat 6 (w / 2 ^ 18), BitVec.ofNat 5 (w / 2 ^ 13), BitVec.ofNat 5 (w / 2 ^ 8)⟩

/-- The bits of `OpSh6` in a base word. -/
def OpTo.sh6 (f : OpSh6) : Nat :=
  f.sh.toNat * 2 ^ 18 + f.a.toNat * 2 ^ 13 + f.d.toNat * 2 ^ 8

/-- The fields of `OpI13` at their places in a base word. -/
def OpOf.i13 (w : Nat) : OpI13 :=
  ⟨BitVec.ofNat 13 (w / 2 ^ 18), BitVec.ofNat 5 (w / 2 ^ 13), BitVec.ofNat 5 (w / 2 ^ 8)⟩

/-- The bits of `OpI13` in a base word. -/
def OpTo.i13 (f : OpI13) : Nat :=
  f.imm.toNat * 2 ^ 18 + f.a.toNat * 2 ^ 13 + f.d.toNat * 2 ^ 8

/-- The fields of `OpM11` at their places in a base word. -/
def OpOf.m11 (w : Nat) : OpM11 :=
  ⟨BitVec.ofNat 11 (w / 2 ^ 21), BitVec.ofNat 5 (w / 2 ^ 13), BitVec.ofNat 5 (w / 2 ^ 8)⟩

/-- The bits of `OpM11` in a base word. -/
def OpTo.m11 (f : OpM11) : Nat :=
  f.imm.toNat * 2 ^ 21 + f.a.toNat * 2 ^ 13 + f.d.toNat * 2 ^ 8

/-- The fields of `OpSA` at their places in a base word. -/
def OpOf.sA (w : Nat) : OpSA :=
  ⟨BitVec.ofNat 3 (w / 2 ^ 29), bitAt w 28, bitAt w 27, BitVec.ofNat 5 (w / 2 ^ 18), BitVec.ofNat 5 (w / 2 ^ 13), BitVec.ofNat 5 (w / 2 ^ 8)⟩

/-- The bits of `OpSA` in a base word. -/
def OpTo.sA (f : OpSA) : Nat :=
  f.sc.toNat * 2 ^ 29 + bitTo f.rl 28 + bitTo f.aq 27 + f.b.toNat * 2 ^ 18 + f.a.toNat * 2 ^ 13 + f.d.toNat * 2 ^ 8

/-- The fields of `OpU19` at their places in a base word. -/
def OpOf.u19 (w : Nat) : OpU19 :=
  ⟨BitVec.ofNat 19 (w / 2 ^ 13), BitVec.ofNat 5 (w / 2 ^ 8)⟩

/-- The bits of `OpU19` in a base word. -/
def OpTo.u19 (f : OpU19) : Nat :=
  f.imm.toNat * 2 ^ 13 + f.d.toNat * 2 ^ 8

/-- The fields of `OpBr` at their places in a base word. -/
def OpOf.br (w : Nat) : OpBr :=
  ⟨BitVec.ofNat 9 (w / 2 ^ 23), BitVec.ofNat 5 (w / 2 ^ 18), BitVec.ofNat 5 (w / 2 ^ 13), BitVec.ofNat 5 (w / 2 ^ 8)⟩

/-- The bits of `OpBr` in a base word. -/
def OpTo.br (f : OpBr) : Nat :=
  f.hi.toNat * 2 ^ 23 + f.b.toNat * 2 ^ 18 + f.a.toNat * 2 ^ 13 + f.lo.toNat * 2 ^ 8

/-- The fields of `OpC` at their places in a base word. -/
def OpOf.c (w : Nat) : OpC :=
  ⟨BitVec.ofNat 12 (w / 2 ^ 20), BitVec.ofNat 5 (w / 2 ^ 13), BitVec.ofNat 5 (w / 2 ^ 8)⟩

/-- The bits of `OpC` in a base word. -/
def OpTo.c (f : OpC) : Nat :=
  f.idx.toNat * 2 ^ 20 + f.a.toNat * 2 ^ 13 + f.d.toNat * 2 ^ 8

/-- The fields of `OpV` at their places in a base word. -/
def OpOf.v (w : Nat) : OpV :=
  ⟨bitAt w 28, bitAt w 27, bitAt w 26, BitVec.ofNat 3 (w / 2 ^ 23), BitVec.ofNat 5 (w / 2 ^ 18), BitVec.ofNat 5 (w / 2 ^ 13), BitVec.ofNat 5 (w / 2 ^ 8)⟩

/-- The bits of `OpV` in a base word. -/
def OpTo.v (f : OpV) : Nat :=
  bitTo f.l 28 + bitTo f.cb 27 + bitTo f.ca 26 + f.pred.toNat * 2 ^ 23 + f.vb.toNat * 2 ^ 18 + f.va.toNat * 2 ^ 13 + f.vd.toNat * 2 ^ 8

/-- The fields of `OpVS` at their places in a base word. -/
def OpOf.vS (w : Nat) : OpVS :=
  ⟨bitAt w 28, bitAt w 26, BitVec.ofNat 3 (w / 2 ^ 23), BitVec.ofNat 5 (w / 2 ^ 18), BitVec.ofNat 5 (w / 2 ^ 13), BitVec.ofNat 5 (w / 2 ^ 8)⟩

/-- The bits of `OpVS` in a base word. -/
def OpTo.vS (f : OpVS) : Nat :=
  bitTo f.l 28 + bitTo f.ca 26 + f.pred.toNat * 2 ^ 23 + f.xb.toNat * 2 ^ 18 + f.va.toNat * 2 ^ 13 + f.vd.toNat * 2 ^ 8

/-- The fields of `OpCv` at their places in a base word. -/
def OpOf.cv (w : Nat) : OpCv :=
  ⟨BitVec.ofNat 3 (w / 2 ^ 29), bitAt w 28, bitAt w 26, BitVec.ofNat 3 (w / 2 ^ 23), BitVec.ofNat 5 (w / 2 ^ 18), BitVec.ofNat 5 (w / 2 ^ 13), BitVec.ofNat 5 (w / 2 ^ 8)⟩

/-- The bits of `OpCv` in a base word. -/
def OpTo.cv (f : OpCv) : Nat :=
  f.fn.toNat * 2 ^ 29 + bitTo f.l 28 + bitTo f.ca 26 + f.pred.toNat * 2 ^ 23 + f.t.toNat * 2 ^ 18 + f.va.toNat * 2 ^ 13 + f.vd.toNat * 2 ^ 8

/-- The fields of `OpVM` at their places in a base word. -/
def OpOf.vM (w : Nat) : OpVM :=
  ⟨bitAt w 28, bitAt w 26, BitVec.ofNat 3 (w / 2 ^ 23), BitVec.ofNat 5 (w / 2 ^ 18), BitVec.ofNat 5 (w / 2 ^ 13), BitVec.ofNat 5 (w / 2 ^ 8)⟩

/-- The bits of `OpVM` in a base word. -/
def OpTo.vM (f : OpVM) : Nat :=
  bitTo f.l 28 + bitTo f.c 26 + f.pred.toNat * 2 ^ 23 + f.b.toNat * 2 ^ 18 + f.a.toNat * 2 ^ 13 + f.vd.toNat * 2 ^ 8

/-- The fields of `OpVMX` at their places in a base word. -/
def OpOf.vMX (w : Nat) : OpVMX :=
  ⟨BitVec.ofNat 3 (w / 2 ^ 29), bitAt w 28, bitAt w 26, BitVec.ofNat 3 (w / 2 ^ 23), BitVec.ofNat 5 (w / 2 ^ 18), BitVec.ofNat 5 (w / 2 ^ 13), BitVec.ofNat 5 (w / 2 ^ 8)⟩

/-- The bits of `OpVMX` in a base word. -/
def OpTo.vMX (f : OpVMX) : Nat :=
  f.sc.toNat * 2 ^ 29 + bitTo f.l 28 + bitTo f.c 26 + f.pred.toNat * 2 ^ 23 + f.vb.toNat * 2 ^ 18 + f.a.toNat * 2 ^ 13 + f.vd.toNat * 2 ^ 8

/-- The fields of `OpVA` at their places in a base word. -/
def OpOf.vA (w : Nat) : OpVA :=
  ⟨BitVec.ofNat 3 (w / 2 ^ 29), bitAt w 28, bitAt w 27, bitAt w 26, BitVec.ofNat 3 (w / 2 ^ 23), BitVec.ofNat 5 (w / 2 ^ 18), BitVec.ofNat 5 (w / 2 ^ 8)⟩

/-- The bits of `OpVA` in a base word. -/
def OpTo.vA (f : OpVA) : Nat :=
  f.sc.toNat * 2 ^ 29 + bitTo f.l 28 + bitTo f.rl 27 + bitTo f.aq 26 + f.pred.toNat * 2 ^ 23 + f.vb.toNat * 2 ^ 18 + f.vd.toNat * 2 ^ 8

/-- The fields of `OpAW` at their places in a base word. -/
def OpOf.aW (w : Nat) : OpAW :=
  ⟨bitAt w 28, bitAt w 27, bitAt w 26, BitVec.ofNat 3 (w / 2 ^ 23), BitVec.ofNat 5 (w / 2 ^ 18), BitVec.ofNat 5 (w / 2 ^ 13), BitVec.ofNat 2 (w / 2 ^ 8)⟩

/-- The bits of `OpAW` in a base word. -/
def OpTo.aW (f : OpAW) : Nat :=
  bitTo f.l 28 + bitTo f.cb 27 + bitTo f.ca 26 + f.pred.toNat * 2 ^ 23 + f.b.toNat * 2 ^ 18 + f.a.toNat * 2 ^ 13 + f.n.toNat * 2 ^ 8

/-- The fields of `OpSM` at their places in a base word. -/
def OpOf.sM (w : Nat) : OpSM :=
  ⟨bitAt w 28, bitAt w 27, bitAt w 26, BitVec.ofNat 3 (w / 2 ^ 23), BitVec.ofNat 5 (w / 2 ^ 18), BitVec.ofNat 5 (w / 2 ^ 13), BitVec.ofNat 4 (w / 2 ^ 8)⟩

/-- The bits of `OpSM` in a base word. -/
def OpTo.sM (f : OpSM) : Nat :=
  bitTo f.l 28 + bitTo f.cb 27 + bitTo f.ca 26 + f.pred.toNat * 2 ^ 23 + f.b.toNat * 2 ^ 18 + f.a.toNat * 2 ^ 13 + f.sd.toNat * 2 ^ 8

/-- The fields of `OpDS` at their places in a base word. -/
def OpOf.dS (w : Nat) : OpDS :=
  ⟨bitAt w 28, BitVec.ofNat 3 (w / 2 ^ 23), BitVec.ofNat 5 (w / 2 ^ 18), BitVec.ofNat 5 (w / 2 ^ 13), BitVec.ofNat 5 (w / 2 ^ 8)⟩

/-- The bits of `OpDS` in a base word. -/
def OpTo.dS (f : OpDS) : Nat :=
  bitTo f.l 28 + f.sc.toNat * 2 ^ 23 + f.b.toNat * 2 ^ 18 + f.a.toNat * 2 ^ 13 + f.d.toNat * 2 ^ 8

/-- The fields of `OpAC` at their places in a base word. -/
def OpOf.aC (w : Nat) : OpAC :=
  ⟨BitVec.ofNat 2 (w / 2 ^ 25), BitVec.ofNat 2 (w / 2 ^ 23), BitVec.ofNat 5 (w / 2 ^ 18), BitVec.ofNat 5 (w / 2 ^ 13), BitVec.ofNat 5 (w / 2 ^ 8)⟩

/-- The bits of `OpAC` in a base word. -/
def OpTo.aC (f : OpAC) : Nat :=
  f.po.toNat * 2 ^ 25 + f.tk.toNat * 2 ^ 23 + f.b.toNat * 2 ^ 18 + f.a.toNat * 2 ^ 13 + f.d.toNat * 2 ^ 8

/-- The fields of a tile form: `p` is the prefix word, `w` the base word (R37, R41). -/
def OpOf.tile (p w : Nat) : OpTile :=
  ⟨bitAt p 28, bitAt p 27, BitVec.ofNat 3 (p / 2 ^ 24), BitVec.ofNat 2 (p / 2 ^ 22), BitVec.ofNat 2 (p / 2 ^ 20), BitVec.ofNat 2 (p / 2 ^ 18), BitVec.ofNat 4 (p / 2 ^ 14), BitVec.ofNat 4 (p / 2 ^ 10), BitVec.ofNat 2 (p / 2 ^ 8), bitAt w 28, bitAt w 27, bitAt w 26, BitVec.ofNat 3 (w / 2 ^ 23), BitVec.ofNat 5 (w / 2 ^ 18), BitVec.ofNat 5 (w / 2 ^ 13), BitVec.ofNat 5 (w / 2 ^ 8)⟩

/-- The prefix word of a tile form, of prefix class `c` (R41). -/
def OpTo.prefixWord (c : Nat) (f : OpTile) : Nat :=
  3 + 4 * c + bitTo f.ff 28 + bitTo f.us 27 + f.ks.toNat * 2 ^ 24 + f.fsa.toNat * 2 ^ 22 + f.fsb.toNat * 2 ^ 20 + f.kind.toNat * 2 ^ 18 + f.cp.toNat * 2 ^ 14 + f.rp.toNat * 2 ^ 10 + f.t.toNat * 2 ^ 8

/-- The base word of a tile form, with function `fn` (R37, R43). -/
def OpTo.tileBase (fn : Nat) (f : OpTile) : Nat :=
  1 + fn * 2 ^ 29 + bitTo f.l 28 + bitTo f.cb 27 + bitTo f.ca 26 + f.pred.toNat * 2 ^ 23 + f.vb.toNat * 2 ^ 18 + f.va.toNat * 2 ^ 13 + f.vd.toNat * 2 ^ 8

/-- Major 0x01 (R46). -/
def decodeMajor01 (w : Nat) : Option Instr :=
  if w / 2 ^ 23 % 2 ^ 9 = 0 then some (.add (OpOf.a w))
  else if w / 2 ^ 23 % 2 ^ 9 = 1 then some (.sub (OpOf.a w))
  else if w / 2 ^ 23 % 2 ^ 9 = 2 then some (.and (OpOf.a w))
  else if w / 2 ^ 23 % 2 ^ 9 = 3 then some (.or (OpOf.a w))
  else if w / 2 ^ 23 % 2 ^ 9 = 4 then some (.xor (OpOf.a w))
  else if w / 2 ^ 23 % 2 ^ 9 = 5 then some (.sll (OpOf.a w))
  else if w / 2 ^ 23 % 2 ^ 9 = 6 then some (.srl (OpOf.a w))
  else if w / 2 ^ 23 % 2 ^ 9 = 7 then some (.sra (OpOf.a w))
  else if w / 2 ^ 23 % 2 ^ 9 = 8 then some (.slt (OpOf.a w))
  else if w / 2 ^ 23 % 2 ^ 9 = 9 then some (.sltn (OpOf.a w))
  else if w / 2 ^ 23 % 2 ^ 9 = 10 then some (.min (OpOf.a w))
  else if w / 2 ^ 23 % 2 ^ 9 = 11 then some (.max (OpOf.a w))
  else if w / 2 ^ 23 % 2 ^ 9 = 12 then some (.minn (OpOf.a w))
  else if w / 2 ^ 23 % 2 ^ 9 = 13 then some (.maxn (OpOf.a w))
  else if w / 2 ^ 23 % 2 ^ 9 = 16 then some (.mul (OpOf.a w))
  else if w / 2 ^ 23 % 2 ^ 9 = 17 then some (.mulh (OpOf.a w))
  else if w / 2 ^ 23 % 2 ^ 9 = 18 then some (.mulhn (OpOf.a w))
  else if w / 2 ^ 23 % 2 ^ 9 = 20 then some (.div (OpOf.a w))
  else if w / 2 ^ 23 % 2 ^ 9 = 21 then some (.divn (OpOf.a w))
  else if w / 2 ^ 23 % 2 ^ 9 = 22 then some (.rem (OpOf.a w))
  else if w / 2 ^ 23 % 2 ^ 9 = 23 then some (.remn (OpOf.a w))
  else if w / 2 ^ 23 % 2 ^ 9 = 24 then some (.addw (OpOf.a w))
  else if w / 2 ^ 23 % 2 ^ 9 = 25 then some (.subw (OpOf.a w))
  else if w / 2 ^ 23 % 2 ^ 9 = 32 then some (.clz (OpOf.a w))
  else if w / 2 ^ 23 % 2 ^ 9 = 33 then some (.ctz (OpOf.a w))
  else if w / 2 ^ 23 % 2 ^ 9 = 34 then some (.popc (OpOf.a w))
  else none

/-- Major 0x02 (R46). -/
def decodeMajor02 (w : Nat) : Option Instr :=
  some (.addi (OpOf.i14 w))

/-- Major 0x03 (R46). -/
def decodeMajor03 (w : Nat) : Option Instr :=
  some (.andi (OpOf.i14 w))

/-- Major 0x04 (R46). -/
def decodeMajor04 (w : Nat) : Option Instr :=
  some (.ori (OpOf.i14 w))

/-- Major 0x05 (R46). -/
def decodeMajor05 (w : Nat) : Option Instr :=
  some (.xori (OpOf.i14 w))

/-- Major 0x06 (R46). -/
def decodeMajor06 (w : Nat) : Option Instr :=
  if w / 2 ^ 24 % 2 ^ 8 = 0 then some (.slli (OpOf.sh6 w))
  else if w / 2 ^ 24 % 2 ^ 8 = 1 then some (.srli (OpOf.sh6 w))
  else if w / 2 ^ 24 % 2 ^ 8 = 2 then some (.srai (OpOf.sh6 w))
  else none

/-- Major 0x07 (R46). -/
def decodeMajor07 (w : Nat) : Option Instr :=
  if w / 2 ^ 31 % 2 ^ 1 = 0 then some (.slti (OpOf.i13 w))
  else if w / 2 ^ 31 % 2 ^ 1 = 1 then some (.sltni (OpOf.i13 w))
  else none

/-- Major 0x08 (R46). -/
def decodeMajor08 (w : Nat) : Option Instr :=
  if w / 2 ^ 18 % 2 ^ 3 = 0 then some (.ldI8 (OpOf.m11 w))
  else if w / 2 ^ 18 % 2 ^ 3 = 1 then some (.ldI16 (OpOf.m11 w))
  else if w / 2 ^ 18 % 2 ^ 3 = 2 then some (.ldI32 (OpOf.m11 w))
  else if w / 2 ^ 18 % 2 ^ 3 = 3 then some (.ldI64 (OpOf.m11 w))
  else if w / 2 ^ 18 % 2 ^ 3 = 4 then some (.ldN8 (OpOf.m11 w))
  else if w / 2 ^ 18 % 2 ^ 3 = 5 then some (.ldN16 (OpOf.m11 w))
  else if w / 2 ^ 18 % 2 ^ 3 = 6 then some (.ldN32 (OpOf.m11 w))
  else if w / 2 ^ 18 % 2 ^ 3 = 7 then some (.ldPr (OpOf.m11 w))
  else none

/-- Major 0x09 (R46). -/
def decodeMajor09 (w : Nat) : Option Instr :=
  if w / 2 ^ 18 % 2 ^ 3 = 0 then some (.stI8 (OpOf.m11 w))
  else if w / 2 ^ 18 % 2 ^ 3 = 1 then some (.stI16 (OpOf.m11 w))
  else if w / 2 ^ 18 % 2 ^ 3 = 2 then some (.stI32 (OpOf.m11 w))
  else if w / 2 ^ 18 % 2 ^ 3 = 3 then some (.stI64 (OpOf.m11 w))
  else if w / 2 ^ 18 % 2 ^ 3 = 7 then some (.stPr (OpOf.m11 w))
  else none

/-- Major 0x0A (R46). -/
def decodeMajor0A (w : Nat) : Option Instr :=
  if w / 2 ^ 23 % 2 ^ 4 = 0 then some (.amoSwap (OpOf.sA w))
  else if w / 2 ^ 23 % 2 ^ 4 = 1 then some (.amoAdd (OpOf.sA w))
  else if w / 2 ^ 23 % 2 ^ 4 = 2 then some (.amoAnd (OpOf.sA w))
  else if w / 2 ^ 23 % 2 ^ 4 = 3 then some (.amoOr (OpOf.sA w))
  else if w / 2 ^ 23 % 2 ^ 4 = 4 then some (.amoXor (OpOf.sA w))
  else if w / 2 ^ 23 % 2 ^ 4 = 5 then some (.amoMin (OpOf.sA w))
  else if w / 2 ^ 23 % 2 ^ 4 = 6 then some (.amoMax (OpOf.sA w))
  else if w / 2 ^ 23 % 2 ^ 4 = 7 then some (.amoMinn (OpOf.sA w))
  else if w / 2 ^ 23 % 2 ^ 4 = 8 then some (.amoMaxn (OpOf.sA w))
  else if w / 2 ^ 23 % 2 ^ 4 = 9 then some (.amoCas (OpOf.sA w))
  else if w / 2 ^ 23 % 2 ^ 4 = 10 then some (.amoLd (OpOf.sA w))
  else if w / 2 ^ 23 % 2 ^ 4 = 11 then some (.amoSt (OpOf.sA w))
  else none

/-- Major 0x0B (R46). -/
def decodeMajor0B (w : Nat) : Option Instr :=
  some (.ldh (OpOf.u19 w))

/-- Major 0x0C (R46). -/
def decodeMajor0C (w : Nat) : Option Instr :=
  some (.pcadd (OpOf.u19 w))

/-- Major 0x0D (R46). -/
def decodeMajor0D (w : Nat) : Option Instr :=
  some (.beq (OpOf.br w))

/-- Major 0x0E (R46). -/
def decodeMajor0E (w : Nat) : Option Instr :=
  some (.bne (OpOf.br w))

/-- Major 0x0F (R46). -/
def decodeMajor0F (w : Nat) : Option Instr :=
  some (.blt (OpOf.br w))

/-- Major 0x10 (R46). -/
def decodeMajor10 (w : Nat) : Option Instr :=
  some (.bge (OpOf.br w))

/-- Major 0x11 (R46). -/
def decodeMajor11 (w : Nat) : Option Instr :=
  some (.bltn (OpOf.br w))

/-- Major 0x12 (R46). -/
def decodeMajor12 (w : Nat) : Option Instr :=
  some (.bgen (OpOf.br w))

/-- Major 0x13 (R46). -/
def decodeMajor13 (w : Nat) : Option Instr :=
  some (.jal (OpOf.u19 w))

/-- Major 0x14 (R46). -/
def decodeMajor14 (w : Nat) : Option Instr :=
  some (.jalr (OpOf.i14 w))

/-- Major 0x15 (R46). -/
def decodeMajor15 (w : Nat) : Option Instr :=
  if w / 2 ^ 18 % 2 ^ 2 = 0 then some (.crRd (OpOf.c w))
  else if w / 2 ^ 18 % 2 ^ 2 = 1 then some (.crWr (OpOf.c w))
  else if w / 2 ^ 18 % 2 ^ 2 = 2 then some (.crSet (OpOf.c w))
  else if w / 2 ^ 18 % 2 ^ 2 = 3 then some (.crClr (OpOf.c w))
  else none

/-- Major 0x16 (R46). -/
def decodeMajor16 (w : Nat) : Option Instr :=
  some (.vsl (OpOf.i14 w))

/-- Major 0x17 (R46). -/
def decodeMajor17 (w : Nat) : Option Instr :=
  if w / 2 ^ 23 % 2 ^ 9 = 0 ∧ w / 2 ^ 8 % 2 ^ 15 = 0 then some .brk
  else if w / 2 ^ 23 % 2 ^ 9 = 1 then some (.swtrap (OpOf.a w))
  else if w / 2 ^ 23 % 2 ^ 9 = 2 ∧ w / 2 ^ 8 % 2 ^ 15 = 0 then some .halt
  else if w / 2 ^ 26 % 2 ^ 6 = 1 ∧ w / 2 ^ 8 % 2 ^ 15 = 0 then some (.lsync (BitVec.ofNat 3 (w / 2 ^ 23)))
  else if w / 2 ^ 23 % 2 ^ 9 = 16 then some (.gbar (OpOf.a w))
  else if w / 2 ^ 26 % 2 ^ 6 = 3 then some (.wmPub (BitVec.ofNat 3 (w / 2 ^ 23)) (OpOf.a w))
  else if w / 2 ^ 26 % 2 ^ 6 = 4 then some (.wmWait (BitVec.ofNat 3 (w / 2 ^ 23)) (OpOf.a w))
  else if w / 2 ^ 24 % 2 ^ 8 = 24 then some (.pnSend (BitVec.ofNat 1 (w / 2 ^ 23)) (OpOf.a w))
  else if w / 2 ^ 23 % 2 ^ 9 = 50 then some (.pnRecvCh2 (OpOf.a w))
  else if w / 2 ^ 23 % 2 ^ 9 = 52 then some (.pnRecvCh4 (OpOf.a w))
  else if w / 2 ^ 26 % 2 ^ 6 = 7 then some (.pnCnt (BitVec.ofNat 3 (w / 2 ^ 23)) (OpOf.a w))
  else none

/-- Major 0x18 (R46). -/
def decodeMajor18 (w : Nat) : Option Instr :=
  if w / 2 ^ 23 % 2 ^ 9 = 0 then some (.jl (OpOf.a w))
  else if w / 2 ^ 23 % 2 ^ 9 = 1 then some (.jwait (OpOf.a w))
  else if w / 2 ^ 23 % 2 ^ 9 = 16 ∧ w / 2 ^ 8 % 2 ^ 15 = 0 then some .hmBody
  else if w / 2 ^ 23 % 2 ^ 9 = 17 ∧ w / 2 ^ 8 % 2 ^ 15 = 0 then some .hmEnd
  else none

/-- Major 0x20 (R46). -/
def decodeMajor20 (w : Nat) : Option Instr :=
  if w / 2 ^ 29 % 2 ^ 3 = 0 then some (.vadd (OpOf.v w))
  else if w / 2 ^ 29 % 2 ^ 3 = 1 then some (.vsub (OpOf.v w))
  else if w / 2 ^ 29 % 2 ^ 3 = 2 then some (.vmul (OpOf.v w))
  else if w / 2 ^ 29 % 2 ^ 3 = 3 then some (.vmulh (OpOf.v w))
  else if w / 2 ^ 29 % 2 ^ 3 = 4 then some (.vmulhn (OpOf.v w))
  else if w / 2 ^ 29 % 2 ^ 3 = 5 then some (.vand (OpOf.v w))
  else if w / 2 ^ 29 % 2 ^ 3 = 6 then some (.vor (OpOf.v w))
  else if w / 2 ^ 29 % 2 ^ 3 = 7 then some (.vxor (OpOf.v w))
  else none

/-- Major 0x21 (R46). -/
def decodeMajor21 (w : Nat) : Option Instr :=
  if w / 2 ^ 29 % 2 ^ 3 = 0 then some (.vsll (OpOf.v w))
  else if w / 2 ^ 29 % 2 ^ 3 = 1 then some (.vsrl (OpOf.v w))
  else if w / 2 ^ 29 % 2 ^ 3 = 2 then some (.vsra (OpOf.v w))
  else if w / 2 ^ 29 % 2 ^ 3 = 3 then some (.vmin (OpOf.v w))
  else if w / 2 ^ 29 % 2 ^ 3 = 4 then some (.vmax (OpOf.v w))
  else if w / 2 ^ 29 % 2 ^ 3 = 5 then some (.vminn (OpOf.v w))
  else if w / 2 ^ 29 % 2 ^ 3 = 6 then some (.vmaxn (OpOf.v w))
  else if w / 2 ^ 29 % 2 ^ 3 = 7 then some (.vsel (OpOf.v w))
  else none

/-- Major 0x22 (R46). -/
def decodeMajor22 (w : Nat) : Option Instr :=
  if w / 2 ^ 29 % 2 ^ 3 = 0 then some (.vfadd (OpOf.v w))
  else if w / 2 ^ 29 % 2 ^ 3 = 1 then some (.vfsub (OpOf.v w))
  else if w / 2 ^ 29 % 2 ^ 3 = 2 then some (.vfmul (OpOf.v w))
  else if w / 2 ^ 29 % 2 ^ 3 = 3 then some (.vfdiv (OpOf.v w))
  else if w / 2 ^ 29 % 2 ^ 3 = 4 then some (.vfmin (OpOf.v w))
  else if w / 2 ^ 29 % 2 ^ 3 = 5 then some (.vfmax (OpOf.v w))
  else if w / 2 ^ 29 % 2 ^ 3 = 6 ∧ w / 2 ^ 18 % 2 ^ 5 = 0 then some (.vfsqrt (OpOf.v w))
  else if w / 2 ^ 29 % 2 ^ 3 = 6 ∧ w / 2 ^ 18 % 2 ^ 5 = 1 then some (.vfabs (OpOf.v w))
  else if w / 2 ^ 29 % 2 ^ 3 = 6 ∧ w / 2 ^ 18 % 2 ^ 5 = 2 then some (.vfneg (OpOf.v w))
  else if w / 2 ^ 29 % 2 ^ 3 = 6 ∧ w / 2 ^ 18 % 2 ^ 5 = 3 then some (.vfclass (OpOf.v w))
  else if w / 2 ^ 29 % 2 ^ 3 = 7 then some (.vfsgnj (OpOf.v w))
  else none

/-- Major 0x23 (R46). -/
def decodeMajor23 (w : Nat) : Option Instr :=
  if w / 2 ^ 29 % 2 ^ 3 = 0 then some (.vfma (OpOf.v w))
  else if w / 2 ^ 29 % 2 ^ 3 = 1 then some (.vfms (OpOf.v w))
  else if w / 2 ^ 29 % 2 ^ 3 = 2 then some (.vfnma (OpOf.v w))
  else if w / 2 ^ 29 % 2 ^ 3 = 3 then some (.vfnms (OpOf.v w))
  else if w / 2 ^ 29 % 2 ^ 3 = 4 then some (.vfaerr (OpOf.v w))
  else if w / 2 ^ 29 % 2 ^ 3 = 5 then some (.vfmerr (OpOf.v w))
  else if w / 2 ^ 29 % 2 ^ 3 = 6 then some (.vfrecipEst (OpOf.v w))
  else if w / 2 ^ 29 % 2 ^ 3 = 7 then some (.vfrsqrtEst (OpOf.v w))
  else none

/-- Major 0x24 (R46). -/
def decodeMajor24 (w : Nat) : Option Instr :=
  if w / 2 ^ 29 % 2 ^ 3 = 0 then some (.vceq (OpOf.v w))
  else if w / 2 ^ 29 % 2 ^ 3 = 1 then some (.vclt (OpOf.v w))
  else if w / 2 ^ 29 % 2 ^ 3 = 2 then some (.vcle (OpOf.v w))
  else if w / 2 ^ 29 % 2 ^ 3 = 3 then some (.vcltn (OpOf.v w))
  else if w / 2 ^ 29 % 2 ^ 3 = 4 then some (.vclen (OpOf.v w))
  else if w / 2 ^ 29 % 2 ^ 3 = 5 then some (.vfceq (OpOf.v w))
  else if w / 2 ^ 29 % 2 ^ 3 = 6 then some (.vfclt (OpOf.v w))
  else if w / 2 ^ 29 % 2 ^ 3 = 7 then some (.vfcle (OpOf.v w))
  else none

/-- Major 0x25 (R46). -/
def decodeMajor25 (w : Nat) : Option Instr :=
  if w / 2 ^ 27 % 2 ^ 1 = 0 then some (.vcvt (OpOf.cv w))
  else none

/-- Major 0x26 (R46). -/
def decodeMajor26 (w : Nat) : Option Instr :=
  if w / 2 ^ 29 % 2 ^ 3 = 0 then some (.vperm (OpOf.v w))
  else if w / 2 ^ 29 % 2 ^ 3 = 1 then some (.vslideup (OpOf.v w))
  else if w / 2 ^ 29 % 2 ^ 3 = 2 then some (.vslidedown (OpOf.v w))
  else if w / 2 ^ 29 % 2 ^ 3 = 3 then some (.vcompress (OpOf.v w))
  else if w / 2 ^ 29 % 2 ^ 3 = 4 then some (.vexpand (OpOf.v w))
  else if w / 2 ^ 29 % 2 ^ 3 = 5 then some (.vmv (OpOf.v w))
  else if w / 2 ^ 29 % 2 ^ 3 = 6 then some (.vzip (OpOf.v w))
  else if w / 2 ^ 29 % 2 ^ 3 = 7 then some (.vunzip (OpOf.v w))
  else none

/-- Major 0x27 (R46). -/
def decodeMajor27 (w : Nat) : Option Instr :=
  if w / 2 ^ 29 % 2 ^ 3 = 0 then some (.vfoldAdd (OpOf.v w))
  else if w / 2 ^ 29 % 2 ^ 3 = 1 then some (.vfoldMin (OpOf.v w))
  else if w / 2 ^ 29 % 2 ^ 3 = 2 then some (.vfoldMax (OpOf.v w))
  else if w / 2 ^ 29 % 2 ^ 3 = 3 then some (.vfoldMinn (OpOf.v w))
  else if w / 2 ^ 29 % 2 ^ 3 = 4 then some (.vfoldMaxn (OpOf.v w))
  else if w / 2 ^ 29 % 2 ^ 3 = 5 then some (.vfoldFadd (OpOf.v w))
  else if w / 2 ^ 29 % 2 ^ 3 = 6 then some (.vfoldFmin (OpOf.v w))
  else if w / 2 ^ 29 % 2 ^ 3 = 7 then some (.vfoldFmax (OpOf.v w))
  else none

/-- Major 0x28 (R46). -/
def decodeMajor28 (w : Nat) : Option Instr :=
  if w / 2 ^ 29 % 2 ^ 3 = 0 then some (.pand (OpOf.v w))
  else if w / 2 ^ 29 % 2 ^ 3 = 1 then some (.por (OpOf.v w))
  else if w / 2 ^ 29 % 2 ^ 3 = 2 then some (.pxor (OpOf.v w))
  else if w / 2 ^ 29 % 2 ^ 3 = 3 then some (.pandn (OpOf.v w))
  else if w / 2 ^ 29 % 2 ^ 3 = 4 then some (.plt (OpOf.v w))
  else if w / 2 ^ 29 % 2 ^ 3 = 5 then some (.pgetsm (OpOf.v w))
  else if w / 2 ^ 29 % 2 ^ 3 = 6 then some (.pcount (OpOf.v w))
  else if w / 2 ^ 29 % 2 ^ 3 = 7 then some (.pfirst (OpOf.v w))
  else none

/-- Major 0x29 (R46). -/
def decodeMajor29 (w : Nat) : Option Instr :=
  if w / 2 ^ 29 % 2 ^ 3 = 0 ∧ w / 2 ^ 27 % 2 ^ 1 = 0 then some (.vaddVx (OpOf.vS w))
  else if w / 2 ^ 29 % 2 ^ 3 = 0 ∧ w / 2 ^ 27 % 2 ^ 1 = 1 then some (.vsubVx (OpOf.vS w))
  else if w / 2 ^ 29 % 2 ^ 3 = 1 ∧ w / 2 ^ 27 % 2 ^ 1 = 0 then some (.vrsubVx (OpOf.vS w))
  else if w / 2 ^ 29 % 2 ^ 3 = 1 ∧ w / 2 ^ 27 % 2 ^ 1 = 1 then some (.vmulVx (OpOf.vS w))
  else if w / 2 ^ 29 % 2 ^ 3 = 2 ∧ w / 2 ^ 27 % 2 ^ 1 = 0 then some (.vandVx (OpOf.vS w))
  else if w / 2 ^ 29 % 2 ^ 3 = 2 ∧ w / 2 ^ 27 % 2 ^ 1 = 1 then some (.vorVx (OpOf.vS w))
  else if w / 2 ^ 29 % 2 ^ 3 = 3 ∧ w / 2 ^ 27 % 2 ^ 1 = 0 then some (.vxorVx (OpOf.vS w))
  else if w / 2 ^ 29 % 2 ^ 3 = 3 ∧ w / 2 ^ 27 % 2 ^ 1 = 1 then some (.vsllVx (OpOf.vS w))
  else if w / 2 ^ 29 % 2 ^ 3 = 4 ∧ w / 2 ^ 27 % 2 ^ 1 = 0 then some (.vsrlVx (OpOf.vS w))
  else if w / 2 ^ 29 % 2 ^ 3 = 4 ∧ w / 2 ^ 27 % 2 ^ 1 = 1 then some (.vsraVx (OpOf.vS w))
  else if w / 2 ^ 29 % 2 ^ 3 = 5 ∧ w / 2 ^ 27 % 2 ^ 1 = 0 then some (.vminVx (OpOf.vS w))
  else if w / 2 ^ 29 % 2 ^ 3 = 5 ∧ w / 2 ^ 27 % 2 ^ 1 = 1 then some (.vmaxVx (OpOf.vS w))
  else if w / 2 ^ 29 % 2 ^ 3 = 6 ∧ w / 2 ^ 27 % 2 ^ 1 = 0 then some (.vfaddVx (OpOf.vS w))
  else if w / 2 ^ 29 % 2 ^ 3 = 6 ∧ w / 2 ^ 27 % 2 ^ 1 = 1 then some (.vfmulVx (OpOf.vS w))
  else if w / 2 ^ 29 % 2 ^ 3 = 7 ∧ w / 2 ^ 27 % 2 ^ 1 = 0 then some (.vfmaVx (OpOf.vS w))
  else if w / 2 ^ 29 % 2 ^ 3 = 7 ∧ w / 2 ^ 27 % 2 ^ 1 = 1 then some (.vbcast (OpOf.vS w))
  else none

/-- Major 0x2A (R46). -/
def decodeMajor2A (w : Nat) : Option Instr :=
  if w / 2 ^ 27 % 2 ^ 1 = 0 ∧ w / 2 ^ 29 % 2 ^ 3 = 0 then some (.vld (OpOf.vM w))
  else if w / 2 ^ 27 % 2 ^ 1 = 0 ∧ w / 2 ^ 29 % 2 ^ 3 = 1 then some (.vlds (OpOf.vM w))
  else if w / 2 ^ 27 % 2 ^ 1 = 0 ∧ w / 2 ^ 29 % 2 ^ 3 = 2 then some (.vldFf (OpOf.vM w))
  else if w / 2 ^ 27 % 2 ^ 1 = 0 ∧ w / 2 ^ 29 % 2 ^ 3 = 3 then some (.vldc (OpOf.vM w))
  else if w / 2 ^ 27 % 2 ^ 1 = 0 ∧ w / 2 ^ 29 % 2 ^ 3 = 4 then some (.vfill (OpOf.vM w))
  else if w / 2 ^ 27 % 2 ^ 1 = 0 ∧ w / 2 ^ 29 % 2 ^ 3 = 5 then some (.vldXn (OpOf.vM w))
  else if w / 2 ^ 27 % 2 ^ 1 = 0 ∧ w / 2 ^ 29 % 2 ^ 3 = 6 then some (.vldXtn (OpOf.vM w))
  else if w / 2 ^ 27 % 2 ^ 1 = 1 then some (.vldx (OpOf.vMX w))
  else none

/-- Major 0x2B (R46). -/
def decodeMajor2B (w : Nat) : Option Instr :=
  if w / 2 ^ 27 % 2 ^ 1 = 0 ∧ w / 2 ^ 29 % 2 ^ 3 = 0 then some (.vst (OpOf.vM w))
  else if w / 2 ^ 27 % 2 ^ 1 = 0 ∧ w / 2 ^ 29 % 2 ^ 3 = 1 then some (.vsts (OpOf.vM w))
  else if w / 2 ^ 27 % 2 ^ 1 = 0 ∧ w / 2 ^ 29 % 2 ^ 3 = 2 then some (.vcopy (OpOf.vM w))
  else if w / 2 ^ 27 % 2 ^ 1 = 0 ∧ w / 2 ^ 29 % 2 ^ 3 = 3 then some (.vstc (OpOf.vM w))
  else if w / 2 ^ 27 % 2 ^ 1 = 0 ∧ w / 2 ^ 29 % 2 ^ 3 = 4 then some (.vspill (OpOf.vM w))
  else if w / 2 ^ 27 % 2 ^ 1 = 0 ∧ w / 2 ^ 29 % 2 ^ 3 = 5 then some (.vstXn (OpOf.vM w))
  else if w / 2 ^ 27 % 2 ^ 1 = 0 ∧ w / 2 ^ 29 % 2 ^ 3 = 6 then some (.vstXtn (OpOf.vM w))
  else if w / 2 ^ 27 % 2 ^ 1 = 1 then some (.vstx (OpOf.vMX w))
  else none

/-- Major 0x2C (R46). -/
def decodeMajor2C (w : Nat) : Option Instr :=
  if w / 2 ^ 13 % 2 ^ 5 = 0 then some (.vamoSwap (OpOf.vA w))
  else if w / 2 ^ 13 % 2 ^ 5 = 1 then some (.vamoAdd (OpOf.vA w))
  else if w / 2 ^ 13 % 2 ^ 5 = 2 then some (.vamoAnd (OpOf.vA w))
  else if w / 2 ^ 13 % 2 ^ 5 = 3 then some (.vamoOr (OpOf.vA w))
  else if w / 2 ^ 13 % 2 ^ 5 = 4 then some (.vamoXor (OpOf.vA w))
  else if w / 2 ^ 13 % 2 ^ 5 = 5 then some (.vamoMin (OpOf.vA w))
  else if w / 2 ^ 13 % 2 ^ 5 = 6 then some (.vamoMax (OpOf.vA w))
  else if w / 2 ^ 13 % 2 ^ 5 = 7 then some (.vamoMinn (OpOf.vA w))
  else if w / 2 ^ 13 % 2 ^ 5 = 8 then some (.vamoMaxn (OpOf.vA w))
  else if w / 2 ^ 13 % 2 ^ 5 = 9 then some (.vamoCas (OpOf.vA w))
  else if w / 2 ^ 13 % 2 ^ 5 = 17 then some (.vamoAddCb (OpOf.vA w))
  else if w / 2 ^ 13 % 2 ^ 5 = 18 then some (.vamoAndCb (OpOf.vA w))
  else if w / 2 ^ 13 % 2 ^ 5 = 19 then some (.vamoOrCb (OpOf.vA w))
  else if w / 2 ^ 13 % 2 ^ 5 = 20 then some (.vamoXorCb (OpOf.vA w))
  else if w / 2 ^ 13 % 2 ^ 5 = 21 then some (.vamoMinCb (OpOf.vA w))
  else if w / 2 ^ 13 % 2 ^ 5 = 22 then some (.vamoMaxCb (OpOf.vA w))
  else if w / 2 ^ 13 % 2 ^ 5 = 23 then some (.vamoMinnCb (OpOf.vA w))
  else if w / 2 ^ 13 % 2 ^ 5 = 24 then some (.vamoMaxnCb (OpOf.vA w))
  else none

/-- Major 0x2D (R46). -/
def decodeMajor2D (w : Nat) : Option Instr :=
  if w / 2 ^ 13 % 2 ^ 5 = 0 then some (.vamoFadd (OpOf.vA w))
  else if w / 2 ^ 13 % 2 ^ 5 = 1 then some (.vamoFmin (OpOf.vA w))
  else if w / 2 ^ 13 % 2 ^ 5 = 2 then some (.vamoFmax (OpOf.vA w))
  else if w / 2 ^ 13 % 2 ^ 5 = 8 then some (.vwaitEq (OpOf.vA w))
  else if w / 2 ^ 13 % 2 ^ 5 = 9 then some (.vwaitNe (OpOf.vA w))
  else if w / 2 ^ 13 % 2 ^ 5 = 10 then some (.vwaitGe (OpOf.vA w))
  else if w / 2 ^ 13 % 2 ^ 5 = 11 then some (.vwaitLt (OpOf.vA w))
  else if w / 2 ^ 13 % 2 ^ 5 = 12 then some (.vwaitGen (OpOf.vA w))
  else if w / 2 ^ 13 % 2 ^ 5 = 13 then some (.vwaitLtn (OpOf.vA w))
  else if w / 2 ^ 13 % 2 ^ 5 = 16 then some (.vamoFaddCb (OpOf.vA w))
  else if w / 2 ^ 13 % 2 ^ 5 = 17 then some (.vamoFminCb (OpOf.vA w))
  else if w / 2 ^ 13 % 2 ^ 5 = 18 then some (.vamoFmaxCb (OpOf.vA w))
  else none

/-- Major 0x2E (R46). -/
noncomputable def decodeMajor2E (w : Nat) : Option Instr :=
  if w / 2 ^ 29 % 2 ^ 3 = 0 ∧ w / 2 ^ 28 % 2 ^ 1 = 0 ∧ w / 2 ^ 11 % 2 ^ 17 = 0 then some (.vfence (BitVec.ofNat 3 (w / 2 ^ 8)))
  else if w / 2 ^ 29 % 2 ^ 3 = 2 ∧ w / 2 ^ 10 % 2 ^ 3 = 0 then some (.awinDecl (OpOf.aW w))
  else if w / 2 ^ 29 % 2 ^ 3 = 3 ∧ w / 2 ^ 10 % 2 ^ 3 = 0 then some (.awinUpd (OpOf.aW w))
  else if w / 2 ^ 29 % 2 ^ 3 = 4 ∧ w / 2 ^ 10 % 2 ^ 3 = 0 then some (.awinMerge (OpOf.aW w))
  else if w / 2 ^ 29 % 2 ^ 3 = 6 ∧ w / 2 ^ 11 % 2 ^ 17 = 0 then some (.pnTake (bitAt w 28) (BitVec.ofNat 3 (w / 2 ^ 8)))
  else if w / 2 ^ 29 % 2 ^ 3 = 7 ∧ w / 2 ^ 28 % 2 ^ 1 = 0 ∧ w / 2 ^ 11 % 2 ^ 17 = 0 then some (.pnPost (BitVec.ofNat 3 (w / 2 ^ 8)))
  else if w / 2 ^ 29 % 2 ^ 3 = 7 ∧ w / 2 ^ 28 % 2 ^ 1 = 0 ∧ w / 2 ^ 11 % 2 ^ 17 = 4 then some (.pnPostVl (BitVec.ofNat 3 (w / 2 ^ 8)))
  else none

/-- Major 0x2F (R46). -/
noncomputable def decodeMajor2F (w : Nat) : Option Instr :=
  if w / 2 ^ 29 % 2 ^ 3 = 0 ∧ w / 2 ^ 12 % 2 ^ 1 = 0 then some (.supdCms (OpOf.sM w))
  else if w / 2 ^ 29 % 2 ^ 3 = 1 ∧ w / 2 ^ 12 % 2 ^ 1 = 0 then some (.supdBks (OpOf.sM w))
  else if w / 2 ^ 29 % 2 ^ 3 = 2 ∧ w / 2 ^ 12 % 2 ^ 1 = 0 then some (.supdQh (OpOf.sM w))
  else if w / 2 ^ 29 % 2 ^ 3 = 3 ∧ w / 2 ^ 12 % 2 ^ 1 = 0 then some (.supdMom (OpOf.sM w))
  else if w / 2 ^ 29 % 2 ^ 3 = 4 ∧ w / 2 ^ 12 % 2 ^ 1 = 0 then some (.supdWes (OpOf.sM w))
  else if w / 2 ^ 29 % 2 ^ 3 = 5 ∧ w / 2 ^ 12 % 2 ^ 1 = 0 then some (.smerge (OpOf.sM w))
  else if w / 2 ^ 29 % 2 ^ 3 = 6 ∧ w / 2 ^ 12 % 2 ^ 1 = 0 then some (.sclr (OpOf.sM w))
  else if w / 2 ^ 29 % 2 ^ 3 = 7 ∧ w / 2 ^ 12 % 2 ^ 1 = 0 then some (.sdecl (OpOf.sM w))
  else none

/-- Major 0x30 (R46). -/
noncomputable def decodeMajor30 (w : Nat) : Option Instr :=
  if w / 2 ^ 29 % 2 ^ 3 = 0 ∧ w / 2 ^ 12 % 2 ^ 1 = 0 then some (.sqCms (OpOf.sM w))
  else if w / 2 ^ 29 % 2 ^ 3 = 1 ∧ w / 2 ^ 27 % 2 ^ 1 = 0 ∧ w / 2 ^ 12 % 2 ^ 1 = 0 then some (.sqBksEst (OpOf.sM w))
  else if w / 2 ^ 29 % 2 ^ 3 = 1 ∧ w / 2 ^ 27 % 2 ^ 1 = 1 ∧ w / 2 ^ 12 % 2 ^ 1 = 0 then some (.sqBksItems (OpOf.sM w))
  else if w / 2 ^ 29 % 2 ^ 3 = 2 ∧ w / 2 ^ 12 % 2 ^ 1 = 0 then some (.sqQnt (OpOf.sM w))
  else if w / 2 ^ 29 % 2 ^ 3 = 3 ∧ w / 2 ^ 12 % 2 ^ 1 = 0 then some (.sqMomQuery (OpOf.sM w))
  else if w / 2 ^ 29 % 2 ^ 3 = 4 ∧ w / 2 ^ 12 % 2 ^ 1 = 0 then some (.sqWes (OpOf.sM w))
  else if w / 2 ^ 29 % 2 ^ 3 = 5 ∧ w / 2 ^ 12 % 2 ^ 1 = 0 then some (.sst (OpOf.sM w))
  else if w / 2 ^ 29 % 2 ^ 3 = 6 ∧ w / 2 ^ 12 % 2 ^ 1 = 0 then some (.sld (OpOf.sM w))
  else if w / 2 ^ 29 % 2 ^ 3 = 7 ∧ w / 2 ^ 12 % 2 ^ 1 = 0 then some (.smergeM (OpOf.sM w))
  else none

/-- Major 0x31 (R46). -/
noncomputable def decodeMajor31 (w : Nat) : Option Instr :=
  if w / 2 ^ 29 % 2 ^ 3 = 0 ∧ w / 2 ^ 12 % 2 ^ 1 = 0 then some (.scmt (OpOf.sM w))
  else none

/-- Major 0x32 (R46). -/
noncomputable def decodeMajor32 (w : Nat) : Option Instr :=
  if w / 2 ^ 27 % 2 ^ 1 = 0 ∧ w / 2 ^ 28 % 2 ^ 4 = 0 then some (.astOpen (OpOf.aC w))
  else if w / 2 ^ 27 % 2 ^ 1 = 0 ∧ w / 2 ^ 28 % 2 ^ 4 = 1 then some (.astClose (OpOf.aC w))
  else if w / 2 ^ 27 % 2 ^ 1 = 0 ∧ w / 2 ^ 28 % 2 ^ 4 = 2 then some (.astRun (OpOf.aC w))
  else if w / 2 ^ 27 % 2 ^ 1 = 0 ∧ w / 2 ^ 28 % 2 ^ 4 = 3 then some (.arBind (OpOf.aC w))
  else if w / 2 ^ 27 % 2 ^ 1 = 0 ∧ w / 2 ^ 28 % 2 ^ 4 = 4 then some (.arUnbind (OpOf.aC w))
  else if w / 2 ^ 27 % 2 ^ 1 = 0 ∧ w / 2 ^ 28 % 2 ^ 4 = 5 then some (.acol (OpOf.aC w))
  else if w / 2 ^ 27 % 2 ^ 1 = 0 ∧ w / 2 ^ 28 % 2 ^ 4 = 6 then some (.asend (OpOf.aC w))
  else if w / 2 ^ 27 % 2 ^ 1 = 0 ∧ w / 2 ^ 28 % 2 ^ 4 = 7 then some (.arecv (OpOf.aC w))
  else if w / 2 ^ 27 % 2 ^ 1 = 0 ∧ w / 2 ^ 28 % 2 ^ 4 = 8 then some (.aflip (OpOf.aC w))
  else none

/-- Major 0x33 (R46). -/
noncomputable def decodeMajor33 (w : Nat) : Option Instr :=
  if w / 2 ^ 29 % 2 ^ 3 = 0 ∧ w / 2 ^ 26 % 2 ^ 2 = 0 then some (.dpb (OpOf.dS w))
  else if w / 2 ^ 29 % 2 ^ 3 = 1 ∧ w / 2 ^ 26 % 2 ^ 2 = 0 then some (.shalloc (OpOf.dS w))
  else if w / 2 ^ 29 % 2 ^ 3 = 2 ∧ w / 2 ^ 26 % 2 ^ 2 = 0 then some (.shallocM (OpOf.dS w))
  else if w / 2 ^ 29 % 2 ^ 3 = 3 ∧ w / 2 ^ 26 % 2 ^ 2 = 0 then some (.shfree (OpOf.dS w))
  else if w / 2 ^ 29 % 2 ^ 3 = 4 ∧ w / 2 ^ 26 % 2 ^ 2 = 0 then some (.shstat (OpOf.dS w))
  else none

/-- The instruction of a 32-bit base word, before the field rules are applied (R34, R37, R46). -/
noncomputable def decodeBase (w : Nat) : Option Instr :=
  match w / 2 ^ 2 % 2 ^ 6 with
  | 0x01 => decodeMajor01 w
  | 0x02 => decodeMajor02 w
  | 0x03 => decodeMajor03 w
  | 0x04 => decodeMajor04 w
  | 0x05 => decodeMajor05 w
  | 0x06 => decodeMajor06 w
  | 0x07 => decodeMajor07 w
  | 0x08 => decodeMajor08 w
  | 0x09 => decodeMajor09 w
  | 0x0A => decodeMajor0A w
  | 0x0B => decodeMajor0B w
  | 0x0C => decodeMajor0C w
  | 0x0D => decodeMajor0D w
  | 0x0E => decodeMajor0E w
  | 0x0F => decodeMajor0F w
  | 0x10 => decodeMajor10 w
  | 0x11 => decodeMajor11 w
  | 0x12 => decodeMajor12 w
  | 0x13 => decodeMajor13 w
  | 0x14 => decodeMajor14 w
  | 0x15 => decodeMajor15 w
  | 0x16 => decodeMajor16 w
  | 0x17 => decodeMajor17 w
  | 0x18 => decodeMajor18 w
  | 0x20 => decodeMajor20 w
  | 0x21 => decodeMajor21 w
  | 0x22 => decodeMajor22 w
  | 0x23 => decodeMajor23 w
  | 0x24 => decodeMajor24 w
  | 0x25 => decodeMajor25 w
  | 0x26 => decodeMajor26 w
  | 0x27 => decodeMajor27 w
  | 0x28 => decodeMajor28 w
  | 0x29 => decodeMajor29 w
  | 0x2A => decodeMajor2A w
  | 0x2B => decodeMajor2B w
  | 0x2C => decodeMajor2C w
  | 0x2D => decodeMajor2D w
  | 0x2E => decodeMajor2E w
  | 0x2F => decodeMajor2F w
  | 0x30 => decodeMajor30 w
  | 0x31 => decodeMajor31 w
  | 0x32 => decodeMajor32 w
  | 0x33 => decodeMajor33 w
  | _ => none

/-- The instruction of a 64-bit prefixed form, before the field rules: `p` the prefix word, `w` the base word (R41, R43).
The base word has bits 1:0 = 01 and bits 7:2 zero (R37), and prefix bits 31:29 are zero. -/
noncomputable def decodePrefixed (p w : Nat) : Option Instr :=
  if w % 2 ^ 8 = 1 ∧ p / 2 ^ 29 % 2 ^ 3 = 0 then
    match p / 2 ^ 2 % 2 ^ 6, w / 2 ^ 29 % 2 ^ 3 with
    | 0, 0 => some (.mopa (OpOf.tile p w))
    | 0, 1 => some (.mops (OpOf.tile p w))
    | 0, 2 => some (.mopi (OpOf.tile p w))
    | 0, 3 => some (.mopn (OpOf.tile p w))
    | 0, 4 => some (.mopl (OpOf.tile p w))
    | 1, 0 => some (.mgrow (OpOf.tile p w))
    | 2, 0 => some (.mrowGet (OpOf.tile p w))
    | 2, 1 => some (.mrowPut (OpOf.tile p w))
    | 2, 2 => some (.mcolGet (OpOf.tile p w))
    | 2, 3 => some (.mcolPut (OpOf.tile p w))
    | 3, 0 => some (.mld (OpOf.tile p w))
    | 3, 1 => some (.mst (OpOf.tile p w))
    | 4, 0 => some (.mzero (OpOf.tile p w))
    | _, _ => none
  else none

/-- The instruction of a compressed halfword, before the field rules (R45). -/
def decodeCompressed (w : Nat) : Option Instr :=
  match w / 2 % 2 ^ 4 with
  | 1 => some (.cAddi (BitVec.ofNat 6 (w / 2 ^ 10)) (BitVec.ofNat 5 (w / 2 ^ 5)))
  | 2 => some (.cLi (BitVec.ofNat 6 (w / 2 ^ 10)) (BitVec.ofNat 5 (w / 2 ^ 5)))
  | 3 => if w / 2 ^ 15 % 2 = 0 then some (.cMv (BitVec.ofNat 5 (w / 2 ^ 10)) (BitVec.ofNat 5 (w / 2 ^ 5))) else none
  | 4 => if w / 2 ^ 15 % 2 = 0 then some (.cAdd (BitVec.ofNat 5 (w / 2 ^ 10)) (BitVec.ofNat 5 (w / 2 ^ 5))) else none
  | 5 => if w / 2 ^ 15 % 2 = 0 then some (.cSub (BitVec.ofNat 5 (w / 2 ^ 10)) (BitVec.ofNat 5 (w / 2 ^ 5))) else none
  | 6 => if w / 2 ^ 15 % 2 = 0 then some (.cAnd (BitVec.ofNat 5 (w / 2 ^ 10)) (BitVec.ofNat 5 (w / 2 ^ 5))) else none
  | 7 => some (.cSlli (BitVec.ofNat 6 (w / 2 ^ 10)) (BitVec.ofNat 5 (w / 2 ^ 5)))
  | 8 => some (.cSrai (BitVec.ofNat 6 (w / 2 ^ 10)) (BitVec.ofNat 5 (w / 2 ^ 5)))
  | 9 => if w / 2 ^ 15 % 2 = 0 then some (.cLd (BitVec.ofNat 5 (w / 2 ^ 10)) (BitVec.ofNat 5 (w / 2 ^ 5))) else none
  | 10 => if w / 2 ^ 15 % 2 = 0 then some (.cSd (BitVec.ofNat 5 (w / 2 ^ 10)) (BitVec.ofNat 5 (w / 2 ^ 5))) else none
  | 11 => some (.cBeqz (BitVec.ofNat 6 (w / 2 ^ 10)) (BitVec.ofNat 5 (w / 2 ^ 5)))
  | 12 => some (.cBnez (BitVec.ofNat 6 (w / 2 ^ 10)) (BitVec.ofNat 5 (w / 2 ^ 5)))
  | 13 => some (.cJ (BitVec.ofNat 11 (w / 2 ^ 5)))
  | 14 => if w / 2 ^ 10 % 2 ^ 6 = 0 then some (.cJr (BitVec.ofNat 5 (w / 2 ^ 5))) else none
  | 15 => if w / 2 ^ 5 % 2 ^ 11 = 0 then some .cNop else if w / 2 ^ 5 % 2 ^ 11 = 1 then some .cBrk else none
  | _ => none

/-- Why bytes are not an instruction: every such pattern traps ILLEGAL (R47). -/
inductive Reject where
  /-- Fewer bytes than the first halfword announces. -/
  | short
  /-- A reserved major, prefix class, selector or compressed form. -/
  | reserved
  /-- A field that must be zero or within a range is not (R40, R44, R47). -/
  | badField
  deriving DecidableEq, Repr

/-- Apply the field rules to what the layout names. -/
def checkFields : Option Instr → Except Reject Instr
  | none => .error .reserved
  | some i => if i.wellFormed then .ok i else .error .badField

/-- The instruction whose bits are `w`, numbered from the first halfword (R1, R32). Only the bits of its own length count. -/
noncomputable def decodeBits (w : Nat) : Except Reject Instr :=
  if w % 2 = 0 then checkFields (decodeCompressed (w % 2 ^ 16))
  else if w % 4 = 1 then checkFields (decodeBase (w % 2 ^ 32))
  else checkFields (decodePrefixed (w % 2 ^ 32) (w / 2 ^ 32 % 2 ^ 32))

/-- Bytes in memory order as one little-endian number (R1). -/
def leNat : List Byte → Nat
  | [] => 0
  | b :: bs => b.toNat + 256 * leNat bs

/-- The low `n` bytes of a number in memory order (R1). -/
def leBytes : Nat → Nat → List Byte
  | 0, _ => []
  | n + 1, v => BitVec.ofNat 8 v :: leBytes n (v / 256)

/-- Decode the instruction at the front of a list of bytes, total on any bytes: the instruction and the rest (R32, R47). -/
noncomputable def decode (bs : List Byte) : Except Reject (Instr × List Byte) :=
  match bs with
  | b0 :: b1 :: _ =>
    let n := lengthOf (b0.toNat + 256 * b1.toNat)
    if bs.length < n then .error .short
    else
      match decodeBits (leNat (bs.take n)) with
      | .ok i => .ok (i, bs.drop n)
      | .error r => .error r
  | _ => .error .short

/-- The instruction the decoder reads from an instruction whose bits are `w`, laid out as the hardware stores them. -/
noncomputable def decodeTableWord (nbits w : Nat) : Option Instr :=
  match decode (leBytes 8 (w % 2 ^ nbits)) with
  | .ok (i, _) => some i
  | .error _ => none


/-- The bits of an instruction as one number, its first halfword lowest (R1, R32); 0 for a row that has no encoding. -/
def encode : Instr → Nat
  | .add f => 0x00000005 + OpTo.a f
  | .sub f => 0x00800005 + OpTo.a f
  | .and f => 0x01000005 + OpTo.a f
  | .or f => 0x01800005 + OpTo.a f
  | .xor f => 0x02000005 + OpTo.a f
  | .sll f => 0x02800005 + OpTo.a f
  | .srl f => 0x03000005 + OpTo.a f
  | .sra f => 0x03800005 + OpTo.a f
  | .slt f => 0x04000005 + OpTo.a f
  | .sltn f => 0x04800005 + OpTo.a f
  | .min f => 0x05000005 + OpTo.a f
  | .max f => 0x05800005 + OpTo.a f
  | .minn f => 0x06000005 + OpTo.a f
  | .maxn f => 0x06800005 + OpTo.a f
  | .mul f => 0x08000005 + OpTo.a f
  | .mulh f => 0x08800005 + OpTo.a f
  | .mulhn f => 0x09000005 + OpTo.a f
  | .div f => 0x0A000005 + OpTo.a f
  | .divn f => 0x0A800005 + OpTo.a f
  | .rem f => 0x0B000005 + OpTo.a f
  | .remn f => 0x0B800005 + OpTo.a f
  | .addw f => 0x0C000005 + OpTo.a f
  | .subw f => 0x0C800005 + OpTo.a f
  | .clz f => 0x10000005 + OpTo.a f
  | .ctz f => 0x10800005 + OpTo.a f
  | .popc f => 0x11000005 + OpTo.a f
  | .addi f => 0x00000009 + OpTo.i14 f
  | .andi f => 0x0000000D + OpTo.i14 f
  | .ori f => 0x00000011 + OpTo.i14 f
  | .xori f => 0x00000015 + OpTo.i14 f
  | .slli f => 0x00000019 + OpTo.sh6 f
  | .srli f => 0x01000019 + OpTo.sh6 f
  | .srai f => 0x02000019 + OpTo.sh6 f
  | .slti f => 0x0000001D + OpTo.i13 f
  | .sltni f => 0x8000001D + OpTo.i13 f
  | .ldI8 f => 0x00000021 + OpTo.m11 f
  | .ldI16 f => 0x00040021 + OpTo.m11 f
  | .ldI32 f => 0x00080021 + OpTo.m11 f
  | .ldI64 f => 0x000C0021 + OpTo.m11 f
  | .ldN8 f => 0x00100021 + OpTo.m11 f
  | .ldN16 f => 0x00140021 + OpTo.m11 f
  | .ldN32 f => 0x00180021 + OpTo.m11 f
  | .ldPr f => 0x001C0021 + OpTo.m11 f
  | .stI8 f => 0x00000025 + OpTo.m11 f
  | .stI16 f => 0x00040025 + OpTo.m11 f
  | .stI32 f => 0x00080025 + OpTo.m11 f
  | .stI64 f => 0x000C0025 + OpTo.m11 f
  | .stPr f => 0x001C0025 + OpTo.m11 f
  | .amoSwap f => 0x00000029 + OpTo.sA f
  | .amoAdd f => 0x00800029 + OpTo.sA f
  | .amoAnd f => 0x01000029 + OpTo.sA f
  | .amoOr f => 0x01800029 + OpTo.sA f
  | .amoXor f => 0x02000029 + OpTo.sA f
  | .amoMin f => 0x02800029 + OpTo.sA f
  | .amoMax f => 0x03000029 + OpTo.sA f
  | .amoMinn f => 0x03800029 + OpTo.sA f
  | .amoMaxn f => 0x04000029 + OpTo.sA f
  | .amoCas f => 0x04800029 + OpTo.sA f
  | .amoLd f => 0x05000029 + OpTo.sA f
  | .amoSt f => 0x05800029 + OpTo.sA f
  | .ldh f => 0x0000002D + OpTo.u19 f
  | .pcadd f => 0x00000031 + OpTo.u19 f
  | .beq f => 0x00000035 + OpTo.br f
  | .bne f => 0x00000039 + OpTo.br f
  | .blt f => 0x0000003D + OpTo.br f
  | .bge f => 0x00000041 + OpTo.br f
  | .bltn f => 0x00000045 + OpTo.br f
  | .bgen f => 0x00000049 + OpTo.br f
  | .jal f => 0x0000004D + OpTo.u19 f
  | .jalr f => 0x00000051 + OpTo.i14 f
  | .crRd f => 0x00000055 + OpTo.c f
  | .crWr f => 0x00040055 + OpTo.c f
  | .crSet f => 0x00080055 + OpTo.c f
  | .crClr f => 0x000C0055 + OpTo.c f
  | .tilenWrite _ => 0
  | .psmMirrorClear => 0
  | .vsl f => 0x00000059 + OpTo.i14 f
  | .brk => 0x0000005D
  | .swtrap f => 0x0080005D + OpTo.a f
  | .halt => 0x0100005D
  | .lsync sc => 0x0400005D + sc.toNat * 2 ^ 23
  | .gbar f => 0x0800005D + OpTo.a f
  | .wmPub sc f => 0x0C00005D + sc.toNat * 2 ^ 23 + OpTo.a f
  | .wmWait sc f => 0x1000005D + sc.toNat * 2 ^ 23 + OpTo.a f
  | .pnSend c f => 0x1800005D + c.toNat * 2 ^ 23 + OpTo.a f
  | .pnRecvCh2 f => 0x1900005D + OpTo.a f
  | .pnRecvCh4 f => 0x1A00005D + OpTo.a f
  | .pnCnt c f => 0x1C00005D + c.toNat * 2 ^ 23 + OpTo.a f
  | .jl f => 0x00000061 + OpTo.a f
  | .jwait f => 0x00800061 + OpTo.a f
  | .hmBody => 0x08000061
  | .hmEnd => 0x08800061
  | .cAddi imm d => 2 + d.toNat * 2 ^ 5 + imm.toNat * 2 ^ 10
  | .cLi imm d => 4 + d.toNat * 2 ^ 5 + imm.toNat * 2 ^ 10
  | .cMv a d => 6 + d.toNat * 2 ^ 5 + a.toNat * 2 ^ 10
  | .cAdd a d => 8 + d.toNat * 2 ^ 5 + a.toNat * 2 ^ 10
  | .cSub a d => 10 + d.toNat * 2 ^ 5 + a.toNat * 2 ^ 10
  | .cAnd a d => 12 + d.toNat * 2 ^ 5 + a.toNat * 2 ^ 10
  | .cSlli imm d => 14 + d.toNat * 2 ^ 5 + imm.toNat * 2 ^ 10
  | .cSrai imm d => 16 + d.toNat * 2 ^ 5 + imm.toNat * 2 ^ 10
  | .cLd a d => 18 + d.toNat * 2 ^ 5 + a.toNat * 2 ^ 10
  | .cSd a d => 20 + d.toNat * 2 ^ 5 + a.toNat * 2 ^ 10
  | .cBeqz imm d => 22 + d.toNat * 2 ^ 5 + imm.toNat * 2 ^ 10
  | .cBnez imm d => 24 + d.toNat * 2 ^ 5 + imm.toNat * 2 ^ 10
  | .cJ imm => 26 + imm.toNat * 2 ^ 5
  | .cJr a => 28 + a.toNat * 2 ^ 5
  | .cNop => 30
  | .cBrk => 30 + 2 ^ 5
  | .illegalInstruction _ _ => 0
  | .vadd f => 0x00000081 + OpTo.v f
  | .vsub f => 0x20000081 + OpTo.v f
  | .vmul f => 0x40000081 + OpTo.v f
  | .vmulh f => 0x60000081 + OpTo.v f
  | .vmulhn f => 0x80000081 + OpTo.v f
  | .vand f => 0xA0000081 + OpTo.v f
  | .vor f => 0xC0000081 + OpTo.v f
  | .vxor f => 0xE0000081 + OpTo.v f
  | .vsll f => 0x00000085 + OpTo.v f
  | .vsrl f => 0x20000085 + OpTo.v f
  | .vsra f => 0x40000085 + OpTo.v f
  | .vmin f => 0x60000085 + OpTo.v f
  | .vmax f => 0x80000085 + OpTo.v f
  | .vminn f => 0xA0000085 + OpTo.v f
  | .vmaxn f => 0xC0000085 + OpTo.v f
  | .vsel f => 0xE0000085 + OpTo.v f
  | .vfadd f => 0x00000089 + OpTo.v f
  | .vfsub f => 0x20000089 + OpTo.v f
  | .vfmul f => 0x40000089 + OpTo.v f
  | .vfdiv f => 0x60000089 + OpTo.v f
  | .vfmin f => 0x80000089 + OpTo.v f
  | .vfmax f => 0xA0000089 + OpTo.v f
  | .vfsqrt f => 0xC0000089 + OpTo.v f
  | .vfabs f => 0xC0000089 + OpTo.v f
  | .vfneg f => 0xC0000089 + OpTo.v f
  | .vfclass f => 0xC0000089 + OpTo.v f
  | .vfsgnj f => 0xE0000089 + OpTo.v f
  | .vfma f => 0x0000008D + OpTo.v f
  | .vfms f => 0x2000008D + OpTo.v f
  | .vfnma f => 0x4000008D + OpTo.v f
  | .vfnms f => 0x6000008D + OpTo.v f
  | .vfaerr f => 0x8000008D + OpTo.v f
  | .vfmerr f => 0xA000008D + OpTo.v f
  | .vfrecipEst f => 0xC000008D + OpTo.v f
  | .vfrsqrtEst f => 0xE000008D + OpTo.v f
  | .vceq f => 0x00000091 + OpTo.v f
  | .vclt f => 0x20000091 + OpTo.v f
  | .vcle f => 0x40000091 + OpTo.v f
  | .vcltn f => 0x60000091 + OpTo.v f
  | .vclen f => 0x80000091 + OpTo.v f
  | .vfceq f => 0xA0000091 + OpTo.v f
  | .vfclt f => 0xC0000091 + OpTo.v f
  | .vfcle f => 0xE0000091 + OpTo.v f
  | .vcvt f => 0x00000095 + OpTo.cv f
  | .vperm f => 0x00000099 + OpTo.v f
  | .vslideup f => 0x20000099 + OpTo.v f
  | .vslidedown f => 0x40000099 + OpTo.v f
  | .vcompress f => 0x60000099 + OpTo.v f
  | .vexpand f => 0x80000099 + OpTo.v f
  | .vmv f => 0xA0000099 + OpTo.v f
  | .vzip f => 0xC0000099 + OpTo.v f
  | .vunzip f => 0xE0000099 + OpTo.v f
  | .vfoldAdd f => 0x0000009D + OpTo.v f
  | .vfoldMin f => 0x2000009D + OpTo.v f
  | .vfoldMax f => 0x4000009D + OpTo.v f
  | .vfoldMinn f => 0x6000009D + OpTo.v f
  | .vfoldMaxn f => 0x8000009D + OpTo.v f
  | .vfoldFadd f => 0xA000009D + OpTo.v f
  | .vfoldFmin f => 0xC000009D + OpTo.v f
  | .vfoldFmax f => 0xE000009D + OpTo.v f
  | .pand f => 0x000000A1 + OpTo.v f
  | .por f => 0x200000A1 + OpTo.v f
  | .pxor f => 0x400000A1 + OpTo.v f
  | .pandn f => 0x600000A1 + OpTo.v f
  | .plt f => 0x800000A1 + OpTo.v f
  | .pgetsm f => 0xA00000A1 + OpTo.v f
  | .pcount f => 0xC00000A1 + OpTo.v f
  | .pfirst f => 0xE00000A1 + OpTo.v f
  | .vaddVx f => 0x000000A5 + OpTo.vS f
  | .vsubVx f => 0x080000A5 + OpTo.vS f
  | .vrsubVx f => 0x200000A5 + OpTo.vS f
  | .vmulVx f => 0x280000A5 + OpTo.vS f
  | .vandVx f => 0x400000A5 + OpTo.vS f
  | .vorVx f => 0x480000A5 + OpTo.vS f
  | .vxorVx f => 0x600000A5 + OpTo.vS f
  | .vsllVx f => 0x680000A5 + OpTo.vS f
  | .vsrlVx f => 0x800000A5 + OpTo.vS f
  | .vsraVx f => 0x880000A5 + OpTo.vS f
  | .vminVx f => 0xA00000A5 + OpTo.vS f
  | .vmaxVx f => 0xA80000A5 + OpTo.vS f
  | .vfaddVx f => 0xC00000A5 + OpTo.vS f
  | .vfmulVx f => 0xC80000A5 + OpTo.vS f
  | .vfmaVx f => 0xE00000A5 + OpTo.vS f
  | .vbcast f => 0xE80000A5 + OpTo.vS f
  | .vld f => 0x000000A9 + OpTo.vM f
  | .vlds f => 0x200000A9 + OpTo.vM f
  | .vldFf f => 0x400000A9 + OpTo.vM f
  | .vldc f => 0x600000A9 + OpTo.vM f
  | .vfill f => 0x800000A9 + OpTo.vM f
  | .vldXn f => 0xA00000A9 + OpTo.vM f
  | .vldXtn f => 0xC00000A9 + OpTo.vM f
  | .vldx f => 0x080000A9 + OpTo.vMX f
  | .vst f => 0x000000AD + OpTo.vM f
  | .vsts f => 0x200000AD + OpTo.vM f
  | .vcopy f => 0x400000AD + OpTo.vM f
  | .vstc f => 0x600000AD + OpTo.vM f
  | .vspill f => 0x800000AD + OpTo.vM f
  | .vstXn f => 0xA00000AD + OpTo.vM f
  | .vstXtn f => 0xC00000AD + OpTo.vM f
  | .vstx f => 0x080000AD + OpTo.vMX f
  | .vamoSwap f => 0x000000B1 + OpTo.vA f
  | .vamoAdd f => 0x000020B1 + OpTo.vA f
  | .vamoAnd f => 0x000040B1 + OpTo.vA f
  | .vamoOr f => 0x000060B1 + OpTo.vA f
  | .vamoXor f => 0x000080B1 + OpTo.vA f
  | .vamoMin f => 0x0000A0B1 + OpTo.vA f
  | .vamoMax f => 0x0000C0B1 + OpTo.vA f
  | .vamoMinn f => 0x0000E0B1 + OpTo.vA f
  | .vamoMaxn f => 0x000100B1 + OpTo.vA f
  | .vamoCas f => 0x000120B1 + OpTo.vA f
  | .vamoAddCb f => 0x000220B1 + OpTo.vA f
  | .vamoAndCb f => 0x000240B1 + OpTo.vA f
  | .vamoOrCb f => 0x000260B1 + OpTo.vA f
  | .vamoXorCb f => 0x000280B1 + OpTo.vA f
  | .vamoMinCb f => 0x0002A0B1 + OpTo.vA f
  | .vamoMaxCb f => 0x0002C0B1 + OpTo.vA f
  | .vamoMinnCb f => 0x0002E0B1 + OpTo.vA f
  | .vamoMaxnCb f => 0x000300B1 + OpTo.vA f
  | .vamoFadd f => 0x000000B5 + OpTo.vA f
  | .vamoFmin f => 0x000020B5 + OpTo.vA f
  | .vamoFmax f => 0x000040B5 + OpTo.vA f
  | .vwaitEq f => 0x000100B5 + OpTo.vA f
  | .vwaitNe f => 0x000120B5 + OpTo.vA f
  | .vwaitGe f => 0x000140B5 + OpTo.vA f
  | .vwaitLt f => 0x000160B5 + OpTo.vA f
  | .vwaitGen f => 0x000180B5 + OpTo.vA f
  | .vwaitLtn f => 0x0001A0B5 + OpTo.vA f
  | .vamoFaddCb f => 0x000200B5 + OpTo.vA f
  | .vamoFminCb f => 0x000220B5 + OpTo.vA f
  | .vamoFmaxCb f => 0x000240B5 + OpTo.vA f
  | .vfence sc => 0x000000B9 + sc.toNat * 2 ^ 8
  | .awinDecl f => 0x400000B9 + OpTo.aW f
  | .awinUpd f => 0x600000B9 + OpTo.aW f
  | .awinMerge f => 0x800000B9 + OpTo.aW f
  | .pnTake l c => 0xC00000B9 + bitTo l 28 + c.toNat * 2 ^ 8
  | .pnPost c => 0xE00000B9 + c.toNat * 2 ^ 8
  | .pnPostVl c => 0xE00020B9 + c.toNat * 2 ^ 8
  | .supdCms f => 0x000000BD + OpTo.sM f
  | .supdBks f => 0x200000BD + OpTo.sM f
  | .supdQh f => 0x400000BD + OpTo.sM f
  | .supdMom f => 0x600000BD + OpTo.sM f
  | .supdWes f => 0x800000BD + OpTo.sM f
  | .smerge f => 0xA00000BD + OpTo.sM f
  | .sclr f => 0xC00000BD + OpTo.sM f
  | .sdecl f => 0xE00000BD + OpTo.sM f
  | .sqCms f => 0x000000C1 + OpTo.sM f
  | .sqBksEst f => 0x200000C1 + OpTo.sM f
  | .sqBksItems f => 0x200000C1 + OpTo.sM f
  | .sqQnt f => 0x400000C1 + OpTo.sM f
  | .sqMomQuery f => 0x600000C1 + OpTo.sM f
  | .sqWes f => 0x800000C1 + OpTo.sM f
  | .sst f => 0xA00000C1 + OpTo.sM f
  | .sld f => 0xC00000C1 + OpTo.sM f
  | .smergeM f => 0xE00000C1 + OpTo.sM f
  | .scmt f => 0x000000C5 + OpTo.sM f
  | .scmtImageWrite => 0
  | .scmtSealWrite => 0
  | .astOpen f => 0x000000C9 + OpTo.aC f
  | .astClose f => 0x100000C9 + OpTo.aC f
  | .astRun f => 0x200000C9 + OpTo.aC f
  | .arBind f => 0x300000C9 + OpTo.aC f
  | .arUnbind f => 0x400000C9 + OpTo.aC f
  | .acol f => 0x500000C9 + OpTo.aC f
  | .asend f => 0x600000C9 + OpTo.aC f
  | .arecv f => 0x700000C9 + OpTo.aC f
  | .aflip f => 0x800000C9 + OpTo.aC f
  | .dpb f => 0x000000CD + OpTo.dS f
  | .shalloc f => 0x200000CD + OpTo.dS f
  | .shallocM f => 0x400000CD + OpTo.dS f
  | .shfree f => 0x600000CD + OpTo.dS f
  | .shstat f => 0x800000CD + OpTo.dS f
  | .mopa f => OpTo.prefixWord 0 f + 2 ^ 32 * OpTo.tileBase 0 f
  | .mops f => OpTo.prefixWord 0 f + 2 ^ 32 * OpTo.tileBase 1 f
  | .mopi f => OpTo.prefixWord 0 f + 2 ^ 32 * OpTo.tileBase 2 f
  | .mopn f => OpTo.prefixWord 0 f + 2 ^ 32 * OpTo.tileBase 3 f
  | .mopl f => OpTo.prefixWord 0 f + 2 ^ 32 * OpTo.tileBase 4 f
  | .mgrow f => OpTo.prefixWord 1 f + 2 ^ 32 * OpTo.tileBase 0 f
  | .mrowGet f => OpTo.prefixWord 2 f + 2 ^ 32 * OpTo.tileBase 0 f
  | .mrowPut f => OpTo.prefixWord 2 f + 2 ^ 32 * OpTo.tileBase 1 f
  | .mcolGet f => OpTo.prefixWord 2 f + 2 ^ 32 * OpTo.tileBase 2 f
  | .mcolPut f => OpTo.prefixWord 2 f + 2 ^ 32 * OpTo.tileBase 3 f
  | .mld f => OpTo.prefixWord 3 f + 2 ^ 32 * OpTo.tileBase 0 f
  | .mst f => OpTo.prefixWord 3 f + 2 ^ 32 * OpTo.tileBase 1 f
  | .mzero f => OpTo.prefixWord 4 f + 2 ^ 32 * OpTo.tileBase 0 f
  | .convoyPost => 0
  | .microOperationIssue => 0
  | .microOperationComplete _ => 0
  | .laneReExecution _ _ => 0
  | .convoyRetire => 0
  | .pennantTake _ => 0
  | .storeQueueDrain _ => 0
  | .combiningEntryRetire _ => 0
  | .gangBarrierComplete => 0
  | .wmWaitSatisfied => 0
  | .trapDelivery _ _ _ _ => 0
  | .preempt => 0
  | .partitionSave => 0
  | .restore _ _ _ => 0
  | .gangEnd _ => 0
  | .stallModeRequest _ => 0
  | .arrival => 0
  | .pendingModeWithdraw => 0
  | .stallModeSwitch _ => 0
  | .pageWalk _ _ _ => 0
  | .shootdown _ _ _ => 0
  | .pageMigration _ _ _ => 0
  | .backingExchange _ _ _ => 0
  | .writeBack _ _ _ => 0
  | .linkRd _ _ _ => 0
  | .linkWr _ _ _ _ _ => 0
  | .linkWrm _ _ _ _ _ _ => 0
  | .linkRdr _ _ _ _ => 0
  | .linkWra _ _ _ _ => 0
  | .moduleLinkFailure _ => 0
  | .pasidTeardown _ _ => 0
  | .pasidDrain _ => 0
  | .powerLoss => 0
  | .deviceReset => 0
  | .powerOn _ _ => 0
  | .scrubPass _ => 0
  | .coreQuarantine _ => 0
  | .quotaChange _ _ _ => 0
  | .switchFailure _ => 0
  | .switchReturn _ => 0
  | .chunkDelivery _ => 0
  | .outChunkWrite _ => 0
  | .colSend _ => 0
  | .colRecv _ => 0
  | .colRed _ => 0
  | .colCopy _ => 0
  | .colCopyIn _ => 0
  | .colCopyOut _ => 0
  | .recvTimeout _ => 0
  | .lateImageMerge _ => 0
  | .participantFailed _ _ => 0
  | .transferMatch _ => 0
  | .qtailWrite _ _ _ => 0
  | .qreprioWrite _ _ _ => 0
  | .managementRegisterWrite _ _ _ => 0
  | .recordFetch _ => 0
  | .launchReady _ => 0
  | .pairDecision _ => 0
  | .schedulerSelection => 0
  | .gangStart _ => 0
  | .stripSteal _ => 0
  | .linkedStoreRelease => 0
  | .completionRecord _ => 0
  | .ownclaim _ _ => 0
  | .ownstatNextWrite _ _ => 0
  | .handoverTimeout => 0
  | .ownbeat _ => 0
  | .heartbeatTimeout => 0
  | .pwrlim _ _ => 0
  | .elogtail _ => 0
  | .eloglost _ => 0
  | .getMeasurements _ => 0
  | .keyExchange _ => 0
  | .keySlotWrite _ _ _ => 0
  | .keySlotErase _ _ => 0
  | .tdispError _ => 0
  | .bar2Read _ => 0
  | .bar2Write _ _ => 0
  | .powerLimitExceeded => 0
  | .clockRaise _ => 0
  | .dieTemperature105 _ => 0
  | .dieTemperature115 => 0
  | .supplySag _ => 0
  | .pasidAssign _ _ _ => 0
  | .pageTableChange _ _ => 0
  | .tdispInterfaceStateChange _ _ => 0
  | .lateDataDiscard _ => 0
  | .accessEntryIssue => 0

end Sys2Proof
end

