-- ==== Sys2Proof/Config.lean ====
section
/-! DEFINITION. What the model leaves free: constants with no body, each applied to a counter of `State` or to the operands
it depends on, so that a claim holds whatever they are (log entry 5). -/

namespace Sys2Proof

/-- The advance of `cycle`, in arithmetic-clock cycles, seen by one read (R54, R55: a count of elapsed time). -/
opaque Config.cycles : Nat → BitVec 64

/-- The advance of `dgbub` seen by one read (R57: timing only). -/
opaque Config.bubbles : Nat → BitVec 64

/-- The advance of `energy`, in microjoules, seen by one read (R54, R31). -/
opaque Config.energy : Nat → BitVec 64

/-- The power draw that PWRNOW reports, in watts, at one read (R358). -/
opaque Config.power : Nat → BitVec 64

/-- The temperature that TEMP reports at one read (R358). -/
opaque Config.temperature : Nat → BitVec 64

/-- The bytes that an SPDM responder answers where the spec gives no value: digests, signatures, public keys (R356). -/
opaque Config.spdm : Nat → BitVec 64

/-- The SHA-384 digest of a measurement block, from its number and what it measures: the spec does not give the layout that is hashed (R356). -/
opaque Config.measurement : Nat → List Nat → BitVec 384

/-- The doubleword that a BAR2 read of a poisoned granule returns: the spec gives no value (R354, R357). -/
opaque Config.hidden : Nat → BitVec 64

/-- The page of DRAM that the management cores take for a page table which the mapping of an arena needs (R306). -/
opaque Config.tablePage : Nat → BitVec 64

/-- A byte that a forwarded load reads beyond the store it receives where no translation reaches: the spec gives it no value (R341). -/
opaque Config.beyond : BitVec 64 → Byte

/-- The scale byte of a block whose descriptor has no finite value but zero, from the descriptor and the largest magnitude as a numerator
and a denominator: the spec gives no exponent of MaxFin and no quotient by it (R119). -/
opaque Config.scaleByte : BitVec 64 → Nat → Nat → BitVec 8

end Sys2Proof
end

