-- ==== Sys2Proof/Machine/State.lean ====
section
/-! DEFINITION. The machine's state as plain data: all that the spec gives the ALX-192, in the order of INVENTORY.md. -/

namespace Sys2Proof.Machine

/-- Trap and stop causes (R87). -/
inductive Cause where
  | illegal | misalign | tfault | perm | scope | tileOff | nonrepro | poison | mismatch | sumtype | sumpoison | sumspace
  | shedLost | shedUnalloc | quota | pennant | brk | swtrap | stream | pasidGone
  | preempt | halt | repartition
  deriving DecidableEq, Repr

/-- A trap condition: its cause and its trap value (R87). -/
structure Trap where
  cause : Cause
  tval : Word
  deriving DecidableEq, Repr

/-- The queue a stop is charged to, as the frame header codes it (R95). -/
inductive Queue where
  | sequencer | vector | access | none
  deriving DecidableEq, Repr

/-- The class-S registers a convoy or access entry carries (R52). -/
structure Snap where
  memfmt : Word
  fmt : Vector Word 4
  rmode : Word
  repro : Word
  tilen : Word
  deriving DecidableEq, Repr

/-- What a bound vector register stands for (R252, R262). -/
inductive Bind where
  /-- The stream record with this handle. -/
  | stream (handle : Nat)
  /-- The window of the collective whose route table lies at this address. -/
  | window (table : Word)
  deriving DecidableEq, Repr

/-- A register-shaped value with its poison: `cells` holds one bit for each two data bits (R100, R123). -/
structure Chunk where
  val : Nat
  cells : Nat
  deriving DecidableEq, Repr

/-- A posted convoy (R19, R52). -/
structure Convoy where
  addr : Word
  members : List Instr
  snap : Snap
  /-- `vl` and `vtype` that a `vsl` attached (R52, R74). -/
  setVl : Option (Nat × BitVec 14)
  /-- The scalar registers at posting (R121). -/
  xs : Vector Word 32
  /-- The persist epoch of its stores (R292). -/
  epoch : Nat
  binds : List (Nat × Bind)
  /-- Registers whose binding ended since the convoy before: they read zero from this convoy on (R252). -/
  zero : List Nat
  /-- The payload of the pennant taken for it (R39). -/
  taken : Option (BitVec 32)
  /-- Elements of a `vwait` that have been observed to satisfy their condition (R179). -/
  waited : List Nat
  /-- The leaf entries under which a `vwait` that waits has read (R185). -/
  held : List Nat
  /-- Phase of an `scmt` at retirement: 0 not begun, 1 image written, 2 seal written (R298). -/
  phase : Nat
  /-- The slot t and the sequence number q of an `scmt` that has begun (R298). -/
  commit : Nat × Nat
  /-- When spliced: the role and the address in the original job (R339, R343). -/
  origin : Word
  /-- How many entries of the access queue were posted before it and have not retired. -/
  aqAhead : Nat
  /-- Result groups that are poison because their micro-operation failed again: member and element group (R347). -/
  hurt : List (Nat × Nat)
  /-- Result groups whose two copies differ after the retry: member and element group (R351). -/
  differs : List (Nat × Nat)
  /-- Results so far of bound destinations, below the element at which the convoy stopped: 32 × member + register (R90, R254). -/
  parts : List (Nat × Chunk)
  /-- Tags of linked pairs whose check has passed for a member of it (R340, R345). -/
  passed : List Nat
  deriving DecidableEq, Repr

/-- The convoy that is being performed: what its members read, and what they found. -/
structure Ctx where
  snap : Snap
  xs : Vector Word 32
  epoch : Nat
  binds : List (Nat × Bind)
  /-- `vl` in force for the next member; a first-fault or compressed load shortens it (R52). -/
  vl : Nat
  vtype : BitVec 14
  vstart : Nat
  /-- Elements at or above this index are not performed (R90). -/
  stop : Option Nat
  /-- The lowest element with a condition, its member and the condition (R90). -/
  fault : Option (Nat × Nat × Trap)
  /-- The index of the member that is being performed. -/
  index : Nat
  hurt : List (Nat × Nat)
  differs : List (Nat × Nat)
  parts : List (Nat × Chunk)
  passed : List Nat
  /-- Old values of destinations that the member also reads as a chunk (R262). -/
  old : List (Nat × Chunk)
  /-- The convoy must wait: for a pennant, a chunk or ring space with the trap value of R27, or for something else. -/
  wait : Option (Option Word)
  /-- The element at which it waits (R90). -/
  waitAt : Nat
  waited : List Nat
  held : List Nat
  taken : Option (BitVec 32)
  phase : Nat
  commit : Nat × Nat
  /-- The convoy's address. -/
  addr : Word
  /-- A condition that belongs to another convoy: the address it is charged to (R343). -/
  blame : Option Word
  /-- Destinations of members performed since a condition was found, vector registers and 32 + predicates: their elements at or above
  the condition have no result (R90). -/
  cut : List Nat
  /-- Leaves in which the translations made before the accesses have set A, and D when the second part says so (R156, R274). -/
  walked : List (Nat × Bool)
  aqAhead : Nat
  /-- The convoy's value of `vl` before any member changed it (R39). -/
  vlStart : Nat
  deriving DecidableEq, Repr

/-- The narrow part of a store that is not yet visible: `n` bytes at `key`, of which `mask` are written (R148, R169). -/
structure PStore where
  key : Nat
  n : Nat
  val : Nat
  mask : Nat
  poison : Bool
  epoch : Nat
  queue : Queue
  /-- The page is persist-ordered (R294). -/
  po : Bool
  /-- The page is sealed (R277). -/
  sealing : Bool
  /-- The key slot of the PASID whose page is sealed (R277). -/
  slot : Nat := 0
  /-- The element of a vector store, and the address of its convoy (R352). -/
  elem : Nat := 0
  conv : Word := 0
  /-- The last store of an instruction that writes this granule whole and clean (R184). -/
  whole : Bool
  /-- Its place in the order in which the hart's stores entered the store queues; 0 when it becomes visible without having been queued (R294). -/
  seq : Nat
  deriving DecidableEq, Repr

/-- An entry of a combining buffer (R178). -/
structure Combine where
  key : Nat
  w : Nat
  op : Nat
  fp : Bool
  val : Nat
  poison : Bool
  rm : Nat
  epoch : Nat
  po : Bool
  sealing : Bool
  slot : Nat
  /-- The hart that made it: the launch id of its gang, and its hartid. -/
  gang : Word
  hart : Nat
  deriving DecidableEq, Repr

/-- A Loft store that is visible but not yet durable: the hart that made it (the launch id of its gang, and its hartid), its epoch and
queue (R289, R292, R294). -/
structure LoftStore where
  gang : Word
  hart : Nat
  epoch : Nat
  queue : Queue
  po : Bool
  key : Nat
  n : Nat
  val : Nat
  mask : Nat
  poison : Bool
  whole : Bool
  /-- Its place in the order in which the hart's stores entered the store queues (R294). -/
  seq : Nat
  deriving DecidableEq, Repr

/-- A tile: rows of 32-bit elements, flags and poison (R186, R194). -/
structure Tile where
  rows : Vector (BitVec 4096) 128
  rowFlag : BitVec 128
  colFlag : BitVec 128
  poison : Vector (BitVec 128) 128
  /-- The elements at which the mirror of protected mode differs (R204). -/
  differs : List (Nat × Nat)
  deriving DecidableEq, Repr

/-- An accumulation window descriptor (R180). -/
structure Window where
  op : Nat
  w : Nat
  table : Word
  len : Nat
  deriving DecidableEq, Repr

/-- A pinned translation: the virtual 4 KiB page, and the leaf it is reached by (R98). -/
structure Pin where
  page : Nat
  queue : Queue
  pte : Nat
  pteAt : Nat
  level : Nat
  /-- The member and the element of the convoy at which the pin ends; none when it ends at retirement, or with the unit of an entry. -/
  until' : Option (Nat × Nat)
  /-- Of a pin for the sequencer's instruction: the count of instructions at which it ends (R98). -/
  past : Option Word
  deriving DecidableEq, Repr

/-- The contents of a summary by type (R212, R214, R217, R219, R223). -/
inductive Body where
  /-- Count-min sketch: TOTAL and the counters packed in table order. -/
  | cms (total counters : Nat)
  /-- Bottom-k sample: items (P, key, payload) in ascending order. -/
  | bks (items : List (Nat × Nat × Nat))
  /-- Quantile histogram: LEVEL, NZERO, NNAN, NPINF, NNINF and the non-zero buckets (key, count) in ascending order of key; NB
  and NTOT follow from them (R217). -/
  | qh (level nzero nnan npinf nninf : Nat) (buckets : List (Nat × Nat))
  /-- Moments: COUNT, NNAN, NPINF, NNINF, SX and SXX modulo 2^768, MIN and MAX as 128-bit patterns. -/
  | mom (count nnan npinf nninf sx sxx mn mx : Nat)
  /-- Windowed exact sum: NUPD, NCLIP, NNAN and the N sums packed at 128 bits. -/
  | wes (nupd nclip nnan sums : Nat)
  deriving DecidableEq, Repr

/-- A declared summary register (R206, R208). Its type is that of its body, and OVF follows from the body (R221, R224). -/
structure Summary where
  /-- The 16 PARAM bytes, little-endian. -/
  param : Nat
  seed : Nat
  poison : Bool
  wmark : Nat
  contrib : Nat
  body : Body
  deriving DecidableEq, Repr

/-- An open stream record (R248 to R259). -/
structure Stream where
  handle : Nat
  /-- Where the record was read, for STREAM traps. -/
  recAddr : Word
  out : Bool
  comp : Nat
  ew : Nat
  scope : Nat
  srck : Nat
  addr : Word
  len : Nat
  ch : Nat
  rbase : Nat
  rbytes : Nat
  permits : Nat
  /-- Source bytes read, or destination bytes written. -/
  pos : Nat
  /-- Ring chunks in order: placed and not consumed (in), pushed and not written (out). -/
  ring : List Chunk
  /-- Staged bytes with their poison, from stream byte `eaten` onwards (R259). -/
  staged : List (Byte × Bool)
  eaten : Nat
  exhausted : Bool
  failed : Bool
  deriving DecidableEq, Repr

/-- A step of a route table (R260). -/
structure RouteStep where
  kind : Nat
  peer : Nat
  sa : Nat
  sb : Nat
  tag : Nat
  deriving DecidableEq, Repr

/-- A slot of a collective: its data and its contributor mask (R261), and the participants whose flushed images follow it (R263). -/
structure Slot where
  data : Chunk
  mask : Nat
  late : Nat
  deriving DecidableEq, Repr

/-- A collective in progress (R260 to R264). -/
structure Coll where
  op : Nat
  ewc : Nat
  etype : Nat
  npart : Nat
  self : Nat
  nslot : Nat
  ch : Nat
  cid : Nat
  timeout : Nat
  parts : List (Nat × Nat)
  slotsAt : Word
  localAt : Word
  destAt : Word
  statusAt : Word
  steps : List RouteStep
  /-- The step reached and the time at which it was reached. -/
  stepNo : Nat
  since : Nat
  slots : List Slot
  /-- Chunks written to the window and not yet copied in; chunks copied out and not yet read (R262). -/
  inq : List Chunk
  outq : List Chunk
  /-- AND of the masks of every COPY-OUT so far. -/
  mask : Nat
  flushed : Nat
  lost : Nat
  /-- Images that have not arrived (SMERGE): the RECV step they come through, and the participant that was flushed (R263). -/
  awaiting : List (Nat × Nat)
  /-- A COPY-OUT has written DEST (SMERGE). -/
  destSet : Bool
  /-- An image that came late has been merged (R264). -/
  merged : Bool
  failed : Bool
  deriving DecidableEq, Repr

/-- A transfer (R265): the buffer, the peer and the tag; of one in progress, the bytes that have been moved, packet by packet (R92), and, at the
receiver, the sender's LEN once its first packet has come. -/
structure Transfer where
  addr : Word
  len : Nat
  peerModule : Nat
  peerHart : Nat
  tag : Nat
  pos : Nat
  total : Option Nat
  deriving DecidableEq, Repr

/-- What an access entry has done so far (R92, R247). -/
inductive Progress where
  | fresh
  /-- `ast.run`: units moved, elements counted, error bit. -/
  | run (units count : Nat) (err : Bool)
  | coll (c : Coll)
  /-- `arecv`. -/
  | transfer (t : Transfer)
  /-- `asend`. -/
  | send (t : Transfer)
  /-- The work is done: the scalar result and the payload of the post that retirement writes; `durable` when the entry's Loft writes
  must be durable first (R291). -/
  | done (result : Word) (payload : BitVec 32) (durable : Bool)
  deriving DecidableEq, Repr

/-- An entry of the access queue (R247). -/
structure AqEntry where
  addr : Word
  instr : Instr
  snap : Snap
  xs : Vector Word 32
  epoch : Nat
  taken : Option (BitVec 32)
  progress : Progress
  /-- How many convoys were posted before it and have not retired. -/
  vqAhead : Nat
  /-- At posting, an `ast.close` found a register still bound to its record, or an `ar.unbind` found a window whose collective had not
  retired (R251, R262). -/
  early : Bool
  deriving DecidableEq, Repr

/-- A datum on the fabric: from a participant or sender to a hart of a module (R261, R265). -/
structure Message where
  toModule : Nat
  toHart : Nat
  fromModule : Nat
  fromHart : Nat
  /-- Collective id, or none for a transfer. -/
  cid : Option Nat
  /-- The sender's participant index in a collective. -/
  part : Nat
  tag : Nat
  data : Chunk
  bytes : List (Byte × Bool)
  mask : Nat
  /-- SMERGE: participants whose late images will follow this one; and, of a forwarded late image, its participant (R263). -/
  late : Nat
  lateOf : Option Nat
  /-- A packet of a transfer: the sender's LEN and the offset of its first byte (R92, R265). -/
  total : Nat
  offset : Nat
  /-- When it was sent, or reached this module (R263). -/
  came : Nat
  deriving DecidableEq, Repr

/-- Why the sequencer waits (R22, R27, R58, R68, R77 to R84). -/
inductive Park where
  | held | queue | qclass | migration | stores | acquire | barrier | mark | pennant | launch | drain | vsl | full | epoch
  deriving DecidableEq, Repr

/-- The run status of a hart's sequencer. -/
inductive Run where
  /-- The sequencer serves no stall. -/
  | idle
  | running
  /-- Stopped by a trap or a stop, until `restore` (R86). -/
  | stopped
  /-- Stopped with HALT: it does not resume (R81). -/
  | halted
  /-- Its gang has ended. -/
  | ended
  deriving DecidableEq, Repr

/-- What a delivered stop leaves: the header fields that R95 names beside the class-F registers. -/
structure Stop where
  queue : Queue
  rpc : Word
  vstart : Nat
  /-- The element at which the head convoy stands, in the opaque part: VSTART but for a stop of the access queue (R92, R97). -/
  stands : Nat
  vl : Nat
  vtype : BitVec 14
  vdirty : BitVec 32
  sdirty : BitVec 16
  mdirty : BitVec 4
  arrived : Bool
  gbgen : Nat
  spad : Bool
  /-- The frame's first byte. -/
  frame : Word
  /-- VRLEN of the frame. -/
  vrl : Nat
  /-- The stall that wrote the frame. -/
  core : Nat
  stall : Nat
  /-- The frame save faulted: the leaf ends the gang (R94). -/
  faulted : Option Trap
  /-- The save has not been done yet: a page of the frame is in migration, or the head convoy is still to be cut (R60, R93, R279). -/
  unsaved : Bool
  /-- What memory held in the opaque part when the frame was saved: the check that `restore` makes of it (R95, R97; log entry 20). -/
  opaquePart : List Host.Cell
  deriving DecidableEq, Repr

/-- The copy of the scratchpad partition in a frame: cells at partition offsets and poisoned granules (R96). -/
structure SpadCopy where
  cells : List Host.Cell
  poison : List Nat
  deriving DecidableEq, Repr

/-- The role context of a spliced hart (R338). -/
structure RoleCtx where
  vl : Nat
  vtype : BitVec 14
  /-- What a `vsl` of the role has set for its next convoy (R52). -/
  pend : Option (Nat × BitVec 14)
  vstart : Nat
  ffidx : Nat
  memfmt : Word
  fmt : Vector Word 4
  rmode : Word
  repro : Word
  mflags : BitVec 1
  tgrant : Nat
  psm : BitVec 16384
  gangid : Word
  deriving DecidableEq, Repr

/-- An instruction of a spliced program with its role, its original address and its region (R334, R339). -/
structure SpInstr where
  consumer : Bool
  orig : Word
  /-- 0 prologue, 1 body, 2 back branch, 3 epilogue. -/
  region : Nat
  instr : Instr
  /-- The spliced index of the target of a branch or jump. -/
  target : Nat
  deriving DecidableEq, Repr

/-- A producer's linked store whose release is held (R340, R342). -/
structure Linked where
  tag : Nat
  base : Word
  /-- The elements that are held: from `lo` up to, not including, `hi`. -/
  lo : Nat
  hi : Nat
  vl : Nat
  ew : Nat
  memfmt : Word
  transient : Bool
  /-- The check has passed: the store is released at the end of the C body, or elided. -/
  forwarded : Bool
  data : Chunk
  snap : Snap
  addr : Word
  /-- The place of the member in its convoy (R90, R343). -/
  index : Nat
  /-- The stores of each element, at the places that the checks of its own place found (R342). -/
  placed : List (List PStore)
  deriving DecidableEq, Repr

/-- The splice a hart runs (R338, R339). -/
structure Splice where
  code : List SpInstr
  consumer : Bool
  /-- The context of the role that is not in force. -/
  other : RoleCtx
  /-- Outcomes of the two back branches of this iteration, producer's then consumer's. -/
  taken : Option Bool
  unzipped : Option Bool
  linked : List Linked
  /-- Tags that form linked pairs, and those of them whose two forms are both transient (R340, R342). -/
  tags : List Nat
  both : List Nat
  tilesP : List Nat
  tilesC : List (Nat × Nat)
  deriving DecidableEq, Repr

/-- A hart: one sequencer and its stall (R51). -/
structure Hart where
  run : Run
  core : Nat
  stall : Nat
  hartid : Nat
  gangid : Word
  gangsize : Nat
  pasid : Nat
  /-- FRAME of the job image (R94). -/
  frame : Word
  prot : Bool
  duplex : Bool
  pc : Word
  x : Vector Word 32
  park : Option Park
  /-- The model's own: the turn has passed since the wait began, and the instruction is tried again (log entry 1). -/
  again : Bool
  /-- The barrier generation awaited by a kept arrival (R77). -/
  arrived : Option Nat
  -- class S
  memfmt : Word
  fmt : Vector Word 4
  rmode : Word
  repro : Word
  tilen : Word
  dglim : Word
  -- class Q
  vl : Nat
  vtype : BitVec 14
  /-- The values of the last `vsl`, not yet attached to a convoy (R52). -/
  pend : Option (Nat × BitVec 14)
  vstart : Nat
  ffidx : Nat
  tgrant : Nat
  mflags : BitVec 1
  vdirty : BitVec 32
  sdirty : BitVec 16
  mdirty : BitVec 4
  -- class F
  cause : BitVec 8
  epc : Word
  tval : Word
  member : BitVec 2
  origin : Word
  -- class C
  cycle : Word
  instret : Word
  dgbub : Word
  energy : Word
  stretch : Word
  -- vector, matrix and summary state
  v : Vector (BitVec 32768) 32
  /-- Poison of the vector registers: one bit for each two data bits. -/
  vp : Vector (BitVec 16384) 32
  p : Vector (BitVec 16384) 16
  pp : Vector (BitVec 16384) 16
  psm : BitVec 16384
  k : Vector (BitVec 8192) 8
  kp : Vector (BitVec 1024) 8
  tile : Vector Tile 4
  /-- Row-gather latch, laid out as one vector register, and LR (R186). -/
  latch : Chunk
  lr : Nat
  sums : Vector (Option Summary) 16
  win : Vector (Option Window) 4
  -- queues
  vq : List Convoy
  aq : List AqEntry
  /-- The oldest convoy, or entry, cannot proceed until something else does; with the trap value of R27 when it waits for a
  pennant, a chunk or ring space. -/
  vwait : Option (Option Word)
  await : Option (Option Word)
  cur : Ctx
  /-- How many micro-operations of each posted convoy have been renamed, in order from the head, and which micro-operations have issued and which are
  complete: the place of the convoy in the queue, and the place in its renaming order (R21, R53). -/
  renamed : List Nat
  issued : List (Nat × Nat)
  complete : List (Nat × Nat)
  pennants : Vector (List (BitVec 32)) 6
  storeQ : List PStore
  /-- How many stores have entered the store queues (R294). -/
  entered : Nat
  epoch : Nat
  streams : List Stream
  /-- Bindings as the sequencer has posted them, and as the access queue has checked them (R252). -/
  binds : List (Nat × Bind)
  bound : List (Nat × Bind)
  /-- Registers whose binding has ended and that no convoy has carried yet (R252). -/
  unbound : List Nat
  /-- Route tables of collectives that failed, for their window's next use (R263). -/
  winFailed : List Word
  /-- Receive steps that were flushed, as (collective id, participant, tag): their late data is discarded (R263). -/
  flushed : List (Nat × Nat × Nat)
  pins : List Pin
  /-- Vector registers with data from a tile row whose copies differ and whose compare is still to come: register, tile, row (R204). -/
  unverified : List (Nat × Nat × Nat)
  /-- The address of the first store in flight that a switch failure has dropped while the hart was stopped: its trap is still to be taken (R314). -/
  lostAt : Option Word
  -- frame
  stop : Option Stop
  spad : Option SpadCopy
  splice : Option Splice
  /-- The model's own: the value of `instret / 256` at the hart's last turn of housekeeping (log entry 1). -/
  kept : Nat
  deriving DecidableEq, Repr

/-- A core's stall mode and its micro-operation window's round-robin pointer (R21, R56, R58). -/
structure Core where
  id : Nat
  cur : Nat
  pend : Option Nat
  rr : Nat
  /-- Quarantined, and the spare serves its number (R353). -/
  spare : Bool
  /-- Quarantined with the spare of the cluster already in use: ordinary jobs do not run on it (R353). -/
  gone : Bool
  /-- MISMATCH traps that the core's harts have taken, and lane re-executions in this scrub interval, by lane (R353). -/
  mismatches : Nat
  reexec : List (Nat × Nat)
  deriving DecidableEq, Repr

/-- An entry of the context table (R276): STATE 0 free, 1 active, 2 draining. -/
structure Context where
  root : Nat
  state : Nat
  key : Nat
  deriving DecidableEq, Repr

/-- A TLB entry: the page of a PASID, its size in bytes and the leaf it was made from (R273). -/
structure TlbEntry where
  pasid : Nat
  base : Nat
  size : Nat
  pte : Nat
  pteAt : Nat
  level : Nat
  deriving DecidableEq, Repr

/-- A page in migration (R279): the leaf that it will have, and the phase (0 marked, 1 copied). -/
structure Migration where
  pasid : Nat
  va : Nat
  pte : Nat
  phase : Nat
  deriving DecidableEq, Repr

/-- A module-link packet that awaits its reply, or a reply not yet taken (R285, R286). -/
structure Packet where
  module : Nat
  cmd : Nat
  sc : Nat
  tag : Nat
  len : Nat
  addr : Nat
  mask : Nat
  data : Nat
  pois : Bool
  deriving DecidableEq, Repr

/-- The last reply of a module link (R285, R287). -/
structure Reply where
  module : Nat
  cmd : Nat
  sc : Nat
  tag : Nat
  len : Nat
  data : Nat
  pois : Bool
  ce : Bool
  /-- ERR: the request's CMD is reserved (R287). -/
  err : Bool
  addr : Nat
  deriving DecidableEq, Repr

/-- An allocated shed block (R305): `mirrorOf` names the primary when the block is a mirror half. -/
structure ShedBlock where
  plane : Nat
  block : Nat
  tenant : Nat
  gang : Word
  partner : Option (Nat × Nat)
  mirror : Bool
  lost : Bool
  overQ : Bool
  seq : Nat
  deriving DecidableEq, Repr

/-- The sheds of the domain as this module sees them (R305 to R314). -/
structure Sheds where
  failed : List Nat
  /-- (plane, tenant, quota). -/
  quotas : List (Nat × Nat × Nat)
  blocks : List ShedBlock
  seq : Nat
  /-- Extents in use: (plane, extent, launch id). -/
  extents : List (Nat × Nat × Word)
  deriving DecidableEq, Repr

/-- A command queue's registers (R318). -/
structure CQueue where
  irq : Bool
  en : Bool
  base : Word
  cbase : Word
  log2 : Nat
  isOpen : Bool
  pasid : Nat
  head : Nat
  tail : Nat
  done : Nat
  reprio : Word
  /-- Records below this sequence number had been appended when their PASID was torn down: they complete with PASIDGONE (R278, R331). -/
  goneTo : Nat
  deriving DecidableEq, Repr

/-- A dependence of a launch record (R320): kind 0 none, 1 launch, 2 watermark. -/
structure Dep where
  kind : Nat
  a : Word
  b : Word
  deriving DecidableEq, Repr

/-- The reported fields of a completion record (R331). -/
structure Result where
  code : Nat
  cause : Nat
  epc : Word
  tval : Word
  hart : Nat
  energy : Word
  origin : Word
  deriving DecidableEq, Repr

/-- How far a launch has come (R319 to R332). -/
inductive Phase where
  | fetched | ready | selected | running | ended | posted
  deriving DecidableEq, Repr

/-- What the harness builds for a pair that it splices: the consumer's renumbering by class, the spliced code, the tags of linked
pairs and those both of whose forms are transient, and the tiles of each role (R337 to R340). -/
structure Plan where
  maps : List (List (Nat × Nat))
  code : List SpInstr
  tags : List Nat
  both : List Nat
  tilesP : List Nat
  tilesC : List (Nat × Nat)
  deriving DecidableEq, Repr

/-- A fetched launch (R319 to R332). -/
structure Launch where
  lid : Word
  queue : Nat
  seq : Nat
  image : Word
  prio : Nat
  eclass : Nat
  splice : Bool
  deps : List Dep
  /-- The dependences that have been met: a dependence once met stays met. -/
  met : List Nat
  pasid : Nat
  phase : Phase
  readyAt : Nat
  /-- Its place in the order in which launches became ready (R326). -/
  readyNo : Nat
  /-- The places that selection has bound it to: core and stall (R326). -/
  places : List (Nat × Nat)
  hreason : Nat
  /-- The consumer or producer of the pair that it is spliced in (R336). -/
  pair : Option Word
  /-- The producer's record of the splice. -/
  plan : Option Plan
  consumer : Bool
  decided : Bool
  result : Result
  deriving DecidableEq, Repr

/-- A gang (R325): its launches, image fields, barrier and shed arena. -/
structure Gang where
  lid : Word
  lid2 : Option Word
  pasid : Nat
  size : Nat
  mode : Nat
  repart : Bool
  debug : Bool
  image : Word
  image2 : Word
  spills : List (Nat × Nat × Nat)
  spills2 : List (Nat × Nat × Nat)
  stride : Word
  stride2 : Word
  gen : Nat
  stab : Word
  nstrip : Nat
  /-- Shed arenas: base and extents on each plane, of the launch and of the consumer of a splice (R306). -/
  ava : Word
  ng : List Nat
  ava2 : Word
  ng2 : List Nat
  deriving DecidableEq, Repr

/-- What a leaf has been told (R86, R94, R97). -/
inductive LeafNote where
  | stopped (gangid : Word) (hartid : Nat)
  | frameFault (gangid : Word) (hartid : Nat) (t : Trap)
  | partitionSaved (gangid : Word) (hartid : Nat)
  | refused (gangid : Word) (hartid : Nat)
  | halted (gangid : Word) (hartid : Nat)
  /-- A pre-emption that gave way to a trap: the request stays pending (R88). -/
  | preemptPending (gangid : Word) (hartid : Nat)
  deriving DecidableEq, Repr

/-- An error-log record (R348). -/
structure LogRecord where
  time : Nat
  code : Nat
  die : Nat
  unit : Nat
  pasid : Nat
  addr : Nat
  info : Nat
  deriving DecidableEq, Repr

/-- Device registers and agents outside the clusters (R348, R354 to R361). -/
structure Device where
  ready : Bool
  ownnonce : Word
  owner : Nat
  nextOwner : Nat
  /-- When the owner last claimed or beat, and when NEXT was written, in microseconds. -/
  beatAt : Nat
  nextAt : Nat
  pwrlim : Nat
  log : List LogRecord
  elogHead : Nat
  elogTail : Nat
  elogLost : Nat
  tdisp : Vector TdispState 2
  /-- SPDM: the last response of each function's mailbox, and whether its secured session is open (R356). -/
  spdm : Vector (List Byte) 2
  session : Vector Bool 2
  /-- Cluster clocks in sixteenths of nominal (R327, R360). -/
  clocks : Vector Nat 24
  computeOn : Bool
  /-- Key slots that hold a key (R357). -/
  keys : List (Nat × BitVec 512)
  /-- Corrected errors by module position since the last record of code 0x01, and when that record was made (R348). -/
  corrected : List (Nat × Nat × Nat)
  /-- (function, vector) of MSI-X messages raised (R355). -/
  msi : List (Nat × Nat)
  /-- The value of the last management or aperture read. -/
  readBack : Word
  /-- OWNBEAT, PWRNOW and TEMP (R358). -/
  ownbeat : Word
  pwrnow : Nat
  temp : Nat
  /-- Link IDE is on, and the selective IDE streams of each function, at most eight (R354). -/
  linkIde : Bool
  ide : Vector (List Nat) 2
  /-- Cores whose quarantine the owner has requested (R359). -/
  asked : List Nat
  /-- Fabric ports whose link has failed (R346, R350). -/
  portsFailed : List Nat
  deriving DecidableEq, Repr

/-- A single fault in a unit of a hart that the unit cannot mask (R346): a hardware fault is an input of the machine. -/
inductive Upset where
  /-- The two copies of element C[i][j] of tile `t` differ, and go on differing (R204). -/
  | tileCopy (t i j : Nat)
  /-- The two copies of the result group `g` of member `m` of the convoy at place `p` differ, and go on differing (R351). -/
  | groupCopy (p m g : Nat)
  /-- The twins' copies of queued store `n` differ, and go on differing (R352). -/
  | storeCopy (n : Nat)
  /-- A compare of copies has failed, and its retry has passed (R204, R351, R352). -/
  | retried
  /-- Parity: an element group of a vector, predicate or scale register. -/
  | vector (r g : Nat)
  | predicate (r g : Nat)
  | scale (r g : Nat)
  /-- Parity of a scalar register. -/
  | scalar
  /-- Parity of the vector queue or of rename state: the result group of a micro-operation of a member of the convoy at place `p`. -/
  | rename (p m g : Nat)
  /-- Parity of a store queue's entry, and of the access queue's. -/
  | storeEntry (n : Nat)
  | accessEntry (n : Nat)
  /-- ECC: a 64-byte granule of a tile's row, of the latch or of a chunk in a ring; a summary. -/
  | tile (t i g : Nat)
  | latch (g : Nat)
  | ring (h c g : Nat)
  | summary (n : Nat)
  /-- A corrected error of a unit. -/
  | corrected
  deriving DecidableEq, Repr

/-- One turn of the agenda: which agent moves next, or an input from outside (log entry 1). -/
inductive Turn where
  /-- An agent takes this step. -/
  | event (i : Instr)
  /-- The hart `n` places on in the rotation becomes the focused hart. -/
  | focus (n : Nat)
  /-- Microseconds pass. -/
  | tick (us : Nat)
  /-- A message of a peer arrives at a fabric port. -/
  | arrive (m : Message)
  /-- The host maps or unmaps a page of its memory for a PASID (R272). -/
  | hostPage (pasid page : Nat) (fails : Bool)
  /-- A fault in the focused hart's stall (R346). -/
  | upset (u : Upset)
  /-- The fabric manager assigns a PASID to a tenant (R305). -/
  | tenant (pasid tenant : Nat)
  /-- A peer hart of another module has posted an `arecv` that names a hart of this module: its LEN (R265). -/
  | recvPosted (fromModule fromHart toHart tag len : Nat)
  /-- A packet with a reserved CMD crosses a module link (R285, R287). -/
  | strangePacket (module cmd addr len : Nat)
  /-- A function reads a doubleword of its management BAR, or the BMC or the fabric manager that of the device registers (R354, R355, R358). -/
  | mgmtRead (off : Nat)
  /-- The draw over the last 1 ms and the hottest die's temperature are measured (R358). -/
  | measure
  /-- A selective IDE stream of a function is set up or torn down; with no stream named, Link IDE is (R354). -/
  | ide (fn : Nat) (stream : Option Nat) (on : Bool)
  /-- A master requests the quarantine of a core (R359). -/
  | askQuarantine (id core : Nat)
  /-- A fabric port stays down after its replays (R346, R350). -/
  | portFails (port : Nat)
  /-- A peer module has so many populated DRAM modules (R272). -/
  | peerDrams (module n : Nat)
  deriving DecidableEq, Repr

/-- The whole machine. -/
structure State where
  /-- The hart that the next sequencer step belongs to; the other harts follow in rotation order. -/
  hart : Hart
  others : List Hart
  cores : List Core
  gangs : List Gang
  /-- Memory at physical keys, canonical (`Memory.wf`). -/
  mem : List Host.Cell
  /-- Poisoned granules, ascending (R184). -/
  poison : List Nat
  /-- Sealed 64-byte granules, ascending (R357), and the key slot under which each was written (R277). -/
  sealed : List Nat
  sealKeys : List (Nat × Nat)
  /-- What the Loft modules hold durably, canonical, and its poisoned granules (R289). -/
  durable : List Host.Cell
  durablePoison : List Nat
  loftPend : List LoftStore
  combining : List Combine
  /-- Expanded blocks of compressed pages: those in the die cache and those in the overflow buffer (R282, R283). -/
  zcache : List Nat
  overflow : List Nat
  /-- The entries of the overflow buffer that have moved with their page: they are written into the new copy when it has room (R284). -/
  overflowMoved : List Nat
  /-- The hart that has last written each expanded block, as (block, launch id of its gang, hartid), and the blocks whose write-back waits
  for room in the overflow buffer, with the bytes of their allotment (R283). -/
  zWriters : List (Nat × Word × Nat)
  wbWait : List (Nat × Nat)
  driverEvents : Nat
  /-- Pages of host memory, by PASID, for which the host side of PCI Express reports an error (R272). -/
  hostFaults : List (Nat × Nat)
  /-- Populated DRAM and Loft modules (R272). -/
  drams : Nat
  lofts : Nat
  /-- Populated DRAM modules of peers; a peer that is not listed has as many as this module may have (R272; log entry 4). -/
  peerDrams : List (Nat × Nat)
  /-- Loft modules that are reported lost, and their granules that have been written clean since (R304). -/
  loftLost : List Nat
  loftClean : List Nat
  /-- Granules of lost modules whose clean writing is durable (R289, R304). -/
  durableClean : List Nat
  linkFailed : List Nat
  packets : List Packet
  replies : List Reply
  /-- Where the context table lies in device memory (R276; log entry 23). -/
  ctxBase : Nat
  tlb : List TlbEntry
  migrations : List Migration
  sheds : Sheds
  /-- Tenant of each PASID (R305). -/
  tenants : List (Nat × Nat)
  queues : Vector CQueue 64
  launches : List Launch
  leaf : List LeafNote
  /-- The number of this module on the fabric (R260, R265). -/
  module : Nat
  inbox : List Message
  outbox : List Message
  /-- Receives posted by harts of other modules that no transfer has matched, with their LEN, and transfers that no receive has matched:
  (module, hartid, hartid here, TAG, LEN) (R265). -/
  remote : List (Nat × Nat × Nat × Nat × Option Nat)
  /-- Peer harts declared failed: (module, hartid) (R263). -/
  peersFailed : List (Nat × Nat)
  /-- Microseconds since device reset (R348). -/
  time : Nat
  dev : Device
  /-- The model's own: whose turn comes next; empty means the default policy (log entry 1). -/
  agenda : List Turn
  /-- The model's own: the counter that free values are applied to (log entry 5). -/
  free : Nat
  deriving DecidableEq, Repr

/-- The class-S registers at reset (R54). -/
def Snap.reset : Snap :=
  { memfmt := 0, fmt := Vector.replicate 4 0, rmode := 0, repro := 0, tilen := 0 }

/-- No convoy is being performed. -/
def Ctx.reset : Ctx :=
  { snap := Snap.reset, xs := Vector.replicate 32 0, epoch := 0, binds := [], vl := 0, vtype := 0, vstart := 0,
    stop := none, fault := none, index := 0, hurt := [], differs := [], parts := [], passed := [], old := [], wait := none, waitAt := 0, waited := [], held := [], taken := none,
    phase := 0, commit := (0, 0), addr := 0, blame := none, cut := [], walked := [], aqAhead := 0, vlStart := 0 }

/-- A tile of zeros with no flag (R56, R186). -/
def Tile.zero : Tile :=
  { rows := Vector.replicate 128 0, rowFlag := 0, colFlag := 0, poison := Vector.replicate 128 0, differs := [] }

/-- A sequencer before any job: registers start at zero (R51), control registers at the reset values of R54. -/
def Hart.reset (core stall : Nat) : Hart :=
  { run := .idle, core := core, stall := stall, hartid := 0, gangid := 0, gangsize := 0, pasid := 0, frame := 0,
    prot := false, duplex := false, pc := 0, x := Vector.replicate 32 0, park := none, again := false, arrived := none,
    memfmt := 0, fmt := Vector.replicate 4 0, rmode := 0, repro := 0, tilen := 0, dglim := 16,
    vl := 0, vtype := 0, pend := none, vstart := 0, ffidx := 0, tgrant := 128, mflags := 0,
    vdirty := 0xFFFFFFFF, sdirty := 0xFFFF, mdirty := 0,
    cause := 0, epc := 0, tval := 0, member := 0, origin := 0,
    cycle := 0, instret := 0, dgbub := 0, energy := 0, stretch := 0,
    v := Vector.replicate 32 0, vp := Vector.replicate 32 0,
    p := (Vector.replicate 16 0).set 0 (BitVec.allOnes 16384), pp := Vector.replicate 16 0, psm := 0,
    k := Vector.replicate 8 0, kp := Vector.replicate 8 0, tile := Vector.replicate 4 Tile.zero, latch := { val := 0, cells := 0 }, lr := 0,
    sums := Vector.replicate 16 none, win := Vector.replicate 4 none,
    vq := [], aq := [], vwait := none, await := none, cur := Ctx.reset, renamed := [], issued := [], complete := [],
    pennants := Vector.replicate 6 [], storeQ := [], entered := 0, epoch := 0, streams := [], binds := [], bound := [], unbound := [],
    winFailed := [], flushed := [], pins := [], unverified := [], lostAt := none,
    stop := none, spad := none, splice := none, kept := 0 }

/-- A command queue at reset (R318). -/
def CQueue.reset : CQueue :=
  { irq := false, en := false, base := 0, cbase := 0, log2 := 4, isOpen := false, pasid := 0, head := 0, tail := 0,
    done := 0, reprio := 0, goneTo := 0 }

/-- The device registers at reset (R318, R358). -/
def Device.reset : Device :=
  { ready := false, ownnonce := 0, owner := 0xF, nextOwner := 0xF, beatAt := 0, nextAt := 0, pwrlim := 3200, log := [],
    elogHead := 0, elogTail := 0, elogLost := 0, tdisp := Vector.replicate 2 .unlocked,
    spdm := Vector.replicate 2 [], session := Vector.replicate 2 false, clocks := Vector.replicate 24 16,
    computeOn := true, keys := [], corrected := [], msi := [], readBack := 0, ownbeat := 0, pwrnow := 0, temp := 0, linkIde := false,
    ide := Vector.replicate 2 [], asked := [], portsFailed := [] }

/-- No shed block allocated, no switch failed, no quota set (R305). -/
def Sheds.reset : Sheds := { failed := [], quotas := [], blocks := [], seq := 0, extents := [] }

/-- The machine right after device reset, before bring-up (R54, R318, R358, R361; log entries 2 to 4). -/
def State.reset : State :=
  { hart := Hart.reset 0 0, others := [], cores := [], gangs := [], mem := [], poison := [], sealed := [], sealKeys := [],
    durable := [], durablePoison := [], loftPend := [], combining := [], zcache := [], overflow := [], overflowMoved := [], zWriters := [], wbWait := [],
    driverEvents := 0, hostFaults := [], drams := 32, lofts := 16, peerDrams := [], loftLost := [], loftClean := [], durableClean := [], linkFailed := [], packets := [], replies := [],
    ctxBase := 2 ^ 43 - 2 ^ 24, tlb := [], migrations := [], sheds := Sheds.reset, tenants := [],
    queues := Vector.replicate 64 CQueue.reset, launches := [], leaf := [], module := 0, inbox := [], outbox := [], remote := [],
    peersFailed := [], time := 0, dev := Device.reset, agenda := [], free := 0 }

/-- Why a run stops for good. No meaning of this model stops: every row of the opcode table has its effect or takes the
exception the spec names, so the type has the one reason that an arm not yet given a meaning would never use. -/
inductive Fault where
  /-- Raised by no meaning: an access that the spec places outside the machine takes the trap TFAULT instead.
  Kept so that the type is not empty; safe. -/
  | outsideMachine
  deriving DecidableEq, Repr

/-- Why an instruction is refused. -/
inductive Refusal where
  /-- An instruction that has no meaning yet, by its mnemonic; raised by `exec` alone; safe. -/
  | notModelled (mnemonic : String)
  deriving DecidableEq, Repr

end Sys2Proof.Machine
end

