-- ==== Sys2Proof/Machine/Ops.lean ====
section
/-! DEFINITION. The named operations over registers, memory, translation, store queues and traps that every meaning uses. -/

namespace Sys2Proof.Machine

/-- The outcome of a step of this machine. -/
abbrev Out := Host.Outcome State Fault Refusal

/-! ### Small arithmetic -/

/-- Bit `k` of a number. -/
def bitN (v k : Nat) : Bool := v / 2 ^ k % 2 == 1

/-- Bits `lo + n - 1` to `lo` of a number. -/
def bitsN (v lo n : Nat) : Nat := v / 2 ^ lo % 2 ^ n

/-- `SignExt(v, n)` (R8). -/
def signExt (v n : Nat) : Int := if v % 2 ^ n < 2 ^ (n - 1) then (v % 2 ^ n : Nat) else (v % 2 ^ n : Nat) - (2 ^ n : Nat)

/-- `Wrap(v, n)` (R8). -/
def wrapN (v : Int) (n : Nat) : Nat := (v % (2 ^ n : Nat)).toNat

/-- `SatS(v, n)` (R8). -/
def satS (v : Int) (n : Nat) : Int := max (-(2 ^ (n - 1) : Nat)) (min v ((2 ^ (n - 1) : Nat) - 1))

/-- `SatN(v, n)` (R8). -/
def satN (v : Int) (n : Nat) : Int := max 0 (min v ((2 ^ n : Nat) - 1))

/-- `v` rounded up to a multiple of `m`. -/
def ceilTo (v m : Nat) : Nat := (v + m - 1) / m * m

/-- `ceil(v / m)`. -/
def ceilDiv (v m : Nat) : Nat := (v + m - 1) / m

/-- The exclusive OR of two numbers below 2^64. -/
def mix64 (z0 : Nat) : Nat :=
  let z := z0 % 2 ^ 64
  let z := ((z ^^^ (z / 2 ^ 30)) * 0xBF58476D1CE4E5B9) % 2 ^ 64
  let z := ((z ^^^ (z / 2 ^ 27)) * 0x94D049BB133111EB) % 2 ^ 64
  z ^^^ (z / 2 ^ 31)

/-- Do `f` for `lo`, `lo + 1`, … `n` times, in ascending order. -/
def forUp {α : Type} : Nat → Nat → α → (Nat → α → α) → α
  | 0, _, a, _ => a
  | n + 1, lo, a, f => forUp n (lo + 1) (f lo a) f

/-- The 64-bit number of an address. -/
abbrev W (n : Nat) : Word := BitVec.ofNat 64 n

/-! ### Memory as cells -/

/-- What an unlisted address reads as (R361; log entry 3). -/
def Memory.blank : Byte := 0

/-- The byte at a key. -/
def Memory.read : List Host.Cell → Nat → Byte
  | [], _ => Memory.blank
  | (k, b) :: m, a => if a = k then b else if a < k then Memory.blank else Memory.read m a

/-- Write one byte, keeping the canonical form: ascending keys, no entry equal to `Memory.blank`. -/
def Memory.write : List Host.Cell → Nat → Byte → List Host.Cell
  | [], a, b => if b = Memory.blank then [] else [(a, b)]
  | (k, c) :: m, a, b =>
    if a < k then (if b = Memory.blank then (k, c) :: m else (a, b) :: (k, c) :: m)
    else if a = k then (if b = Memory.blank then m else (a, b) :: m)
    else (k, c) :: Memory.write m a b

/-- Every key of the list lies above `lo`, keys rise, and no entry is blank. -/
def Memory.wfFrom : Nat → List Host.Cell → Bool
  | _, [] => true
  | lo, (k, b) :: m => decide (lo ≤ k) && b != Memory.blank && Memory.wfFrom (k + 1) m

/-- The canonical form of a memory. -/
def Memory.wf (m : List Host.Cell) : Bool := Memory.wfFrom 0 m

/-- `n` bytes as one little-endian number (R1). -/
def Memory.readN (m : List Host.Cell) (a : Nat) : Nat → Nat
  | 0 => 0
  | n + 1 => (Memory.read m a).toNat + 256 * Memory.readN m (a + 1) n

/-- Write the low `n` bytes of `v`, those whose mask byte is not zero bit by bit (R148). -/
def Memory.writeMasked (m : List Host.Cell) (a : Nat) : Nat → Nat → Nat → List Host.Cell
  | 0, _, _ => m
  | n + 1, v, k =>
    let old := (Memory.read m a).toNat
    let kb := k % 256
    let m := if kb = 0 then m else Memory.write m a (BitVec.ofNat 8 ((old &&& (255 - kb)) ||| (v % 256 &&& kb)))
    Memory.writeMasked m (a + 1) n (v / 256) (k / 256)

/-- Write the low `n` bytes of `v`. -/
def Memory.writeN (m : List Host.Cell) (a n v : Nat) : List Host.Cell := Memory.writeMasked m a n v (256 ^ n - 1)

/-- Remove the cells with keys from `lo` to `lo + n - 1`: they read as blank. -/
def Memory.clear (m : List Host.Cell) (lo n : Nat) : List Host.Cell :=
  m.filter fun c => !(decide (lo ≤ c.1) && decide (c.1 < lo + n))

/-- Insert a number into an ascending list without repeats. -/
def insertN : Nat → List Nat → List Nat
  | a, [] => [a]
  | a, b :: l => if a < b then a :: b :: l else if a = b then b :: l else b :: insertN a l

/-- Remove a number from a list. -/
def removeN (a : Nat) (l : List Nat) : List Nat := l.filter (fun b => b != a)

/-! ### Keys: where a byte lies -/

/-- First key of the scratchpad of core `c`; each core has 2 MiB (R143). -/
def spadKey (c : Nat) : Nat := 2 ^ 57 + c * 2 ^ 21

/-- Keys of scratchpad bytes. -/
def isSpadKey (k : Nat) : Bool := decide (2 ^ 57 ≤ k) && decide (k < 2 ^ 58)

/-- Keys of the expanded bytes of compressed pages: byte `o` of the page whose allotment starts at `b` is
2^58 + 4 b + o (R282). -/
def isZKey (k : Nat) : Bool := decide (2 ^ 58 ≤ k)

/-- The poison granule of a key: 8 bytes in the scratchpad, 64 bytes elsewhere (R184). -/
def granule (k : Nat) : Nat := if isSpadKey k then 2 ^ 60 + k / 8 else k / 64

/-- The places of R272. -/
inductive Place where
  | dram | loft (n : Nat) | peer (m : Nat) | shed (plane block : Nat) | host | spad (core : Nat)
  deriving DecidableEq, Repr

/-- The bytes of device DRAM that a peer module has populated; one that is not listed has 32 modules (R272). DESIGN CHOICE: log entry 4. -/
def peerCapacity (s : State) (m : Nat) : Nat := ((s.peerDrams.find? fun p => p.1 == m).map fun p => p.2).getD 32 * 2 ^ 38

/-- The place of a physical address that is populated, or none (R272). DESIGN CHOICE: log entry 22. -/
def placeOf (s : State) (k : Nat) : Option Place :=
  if isSpadKey k then some (.spad ((k - 2 ^ 57) / 2 ^ 21))
  else if isZKey k then some .dram
  else if k < 0x0000100000000000 then (if k < s.drams * 2 ^ 38 then some .dram else none)
  else if 0x0010000000000000 ≤ k ∧ k < 0x0010080000000000 then
    let n := (k - 0x0010000000000000) / 2 ^ 39
    if n < s.lofts then some (.loft n) else none
  else if 0x0040000000000000 ≤ k ∧ k < 0x0044000000000000 then
    let m := (k - 0x0040000000000000) / 2 ^ 44
    if (k - 0x0040000000000000) % 2 ^ 44 < peerCapacity s m then some (.peer m) else none
  else if 0x00C0000000000000 ≤ k ∧ k < 0x00C0020000000000 then
    let o := (k - 0x00C0000000000000) % 2 ^ 37
    if o < 96 * 2 ^ 30 then some (.shed ((k - 0x00C0000000000000) / 2 ^ 37) (o / 2 ^ 21)) else none
  else if 0x00D0000000000000 ≤ k ∧ k < 0x00E0000000000000 then some .host
  else none

/-- Keys of Loft bytes. -/
def isLoftKey (k : Nat) : Bool := decide (0x0010000000000000 ≤ k) && decide (k < 0x0010080000000000)

/-- The target that owns the order of a location (R167): a number for each slice, scratchpad, peer, switch and the host. -/
def sliceOf (pa : Nat) : Nat :=
  let g := pa / 512
  forUp 7 0 0 fun i acc => acc ^^^ (g / 2 ^ (7 * i) % 128)

/-- The target of a key (R167). -/
def targetOf (k : Nat) : Nat :=
  if isSpadKey k then 1000 + (k - 2 ^ 57) / 2 ^ 21
  else if isZKey k then sliceOf ((k - 2 ^ 58) / 4)
  else if k < 0x0040000000000000 then sliceOf k
  else if k < 0x00C0000000000000 then 2000 + (k - 0x0040000000000000) / 2 ^ 44
  else if k < 0x00D0000000000000 then 3000 + (k - 0x00C0000000000000) / 2 ^ 37
  else 4000

/-! ### Cores and stalls -/

/-- The core record of a core, at its reset value when nothing has changed it (R56; log entry 2). -/
def coreOf (s : State) (c : Nat) : Core :=
  match s.cores.find? (fun r => r.id == c) with
  | some r => r
  | none => { id := c, cur := 0, pend := none, rr := 0, spare := false, gone := false, mismatches := 0, reexec := [] }

/-- The cluster of a core number. A quarantined core whose number its spare has taken is 192 + its cluster (R12, R353).
DESIGN CHOICE: log entry 105. -/
def clusterOf (c : Nat) : Nat := if c < 192 then c / 8 else c - 192

/-- The compute die of a core number (R12). -/
def dieOf (c : Nat) : Nat := clusterOf c / 6

/-- Replace a core record. -/
def setCore (s : State) (r : Core) : State :=
  { s with cores := r :: s.cores.filter (fun q => q.id != r.id) }

/-- The stall mode of the focused hart's core. -/
def modeOf (s : State) : Nat := (coreOf s s.hart.core).cur

/-- `vrlen` of a stall in a mode (R14), halved in protected mode (R351). -/
def vrlenIn (mode : Nat) (prot : Bool) : Nat := (4096 / 2 ^ mode) / (if prot then 2 else 1)

/-- `vrlen` of the focused hart. -/
def vrlen (s : State) : Nat := vrlenIn (modeOf s) s.hart.prot

/-- Lanes per stall (R14); in protected mode the upper half mirrors the lower (R351). -/
def lanes (s : State) : Nat := (32 / 2 ^ modeOf s) / (if s.hart.prot then 2 else 1)

/-- Element-group bytes (R14). -/
def groupBytes (s : State) : Nat := 8 * lanes s

/-- Tiles per stall (R14). -/
def tilesPerStall (s : State) : Nat := 4 / 2 ^ modeOf s

/-- Bytes of the stall's scratchpad partition (R14, R143). -/
def partBytes (s : State) : Nat := 2 ^ 21 / 2 ^ modeOf s

/-- First key of the hart's own partition. -/
def partKey (s : State) : Nat := spadKey s.hart.core + s.hart.stall * partBytes s

/-- Bytes of the stall's summary-store share (R14, R205). -/
def shareBytes (s : State) : Nat := 1572864 / 2 ^ modeOf s

/-- `framesz` (R94). -/
def frameszIn (mode : Nat) : Nat := 0x440000 / 2 ^ mode

/-- `framesz` of the focused hart. -/
def framesz (s : State) : Nat := frameszIn (modeOf s)

/-- The width in bits that EW selects (R104). -/
def widthOf (ew : Nat) : Nat :=
  match ew % 8 with
  | 0 => 8
  | 1 => 16
  | 2 => 32
  | 3 => 64
  | 4 => 4
  | _ => 2

/-- EW of a `vtype` value as a width in bits. -/
def ewOf (vt : BitVec 14) : Nat := widthOf (vt.toNat % 8)

/-- `vlmax` for a `vtype` value (R54, R104). -/
def vlmaxFor (s : State) (vt : BitVec 14) : Nat := vrlen s * 8 / ewOf vt

/-- All harts, the focused one first. -/
def harts (s : State) : List Hart := s.hart :: s.others

/-- Apply `f` to every hart. -/
def mapHarts (s : State) (f : Hart → Hart) : State := { s with hart := f s.hart, others := s.others.map f }

/-- Focus the first hart that satisfies `p`; the others follow in rotation order. -/
def focusOn (s : State) (p : Hart → Bool) : Option State :=
  if p s.hart then some s
  else
    match s.others.findIdx? p with
    | some i =>
      match s.others.drop i with
      | h :: t => some { s with hart := h, others := t ++ (s.hart :: s.others.take i) }
      | [] => none
    | none => none

/-- Run an operation as the first hart that satisfies `p`, then return the focus to the hart of the caller. -/
def asHart (s : State) (p : Hart → Bool) (f : State → State) : State :=
  if p s.hart then f s
  else
    match s.others.findIdx? p with
    | some i =>
      match s.others[i]? with
      | some h =>
        let r := f { s with hart := h, others := s.others.set i s.hart }
        { r with hart := r.others.getD i s.hart, others := r.others.set i r.hart }
      | none => s
    | none => s

/-- The next hart in rotation order becomes the focused one. -/
def rotate (s : State) : State :=
  match s.others with
  | h :: t => { s with hart := h, others := t ++ [s.hart] }
  | [] => s

/-- Do an operation once for every hart, as that hart; the focus ends where it was. -/
def eachHart (s : State) (f : State → State) : State :=
  (List.range (s.others.length + 1)).foldl (fun s _ => rotate (f s)) s

/-! ### Scalar registers -/

/-- Read a scalar register; `x0` reads zero (R5). -/
def readX (s : State) (n : BitVec 5) : Word := if n = 0 then 0 else s.hart.x[n.toNat]

/-- Write a scalar register; a write to `x0` is discarded (R60). -/
def writeX (s : State) (n : BitVec 5) (v : Word) : State :=
  if n = 0 then s else { s with hart := { s.hart with x := s.hart.x.set n.toNat v } }

/-- The scalar registers that a posted convoy member or access entry holds until it retires (R22, R247). -/
def holdsOf : Instr → List Nat
  | .vfoldAdd f | .vfoldMin f | .vfoldMax f | .vfoldMinn f | .vfoldMaxn f | .vfoldFadd f | .vfoldFmin f | .vfoldFmax f =>
    [f.vd.toNat]
  | .pcount f | .pfirst f => [f.vd.toNat]
  | .vldc f | .vstc f => [f.a.toNat, f.a.toNat + 1]
  | .sqBksEst f | .sqQnt f | .sqMomQuery f => [f.b.toNat]
  | .shalloc f | .shallocM f | .shstat f => [f.d.toNat]
  | .astOpen f | .acol f | .asend f | .arecv f => [f.d.toNat]
  | _ => []

/-- A scalar register is held by a posted convoy or entry (R22); `x0` is never held. -/
def isHeld (h : Hart) (n : Nat) : Bool :=
  n != 0 && ((h.vq.any fun c => c.members.any fun i => (holdsOf i).contains n) ||
    (h.aq.any fun e => (holdsOf e.instr).contains n))

/-- Some register of the list is held. -/
def anyHeld (s : State) (l : List (BitVec 5)) : Bool := l.any fun n => isHeld s.hart n.toNat

/-- The sequencer waits and tries the instruction again (R22, R89). -/
def wait (s : State) (why : Park) : State := { s with hart := { s.hart with park := some why } }

/-- The bytes that an instruction of `n` bytes takes at the program counter: each instruction of spliced code takes eight
(R339; log entry 6). -/
def stepBytes (h : Hart) (n : Nat) : Nat := if h.splice.isSome then 8 else n

/-- An instruction of `n` bytes has completed: the sequencer goes on with the next one. -/
def advance (s : State) (n : Nat) : State :=
  { s with hart := { s.hart with pc := s.hart.pc + W (stepBytes s.hart n), park := none, instret := s.hart.instret + 1 } }

/-- An instruction has completed and transferred control. -/
def jumpTo (s : State) (target : Word) : State :=
  { s with hart := { s.hart with pc := target, park := none, instret := s.hart.instret + 1 } }

/-! ### Compressed blocks (R159, R282) -/

/-- The number of one bits of a number below 2^n. -/
def popN : Nat → Nat → Nat
  | 0, _ => 0
  | n + 1, v => v % 2 + popN n (v / 2)

/-- The bytes of one ZB32 block at width 32 expanded from its mask and packed words. -/
def zExpand : Nat → Nat → Nat → (Nat → Nat) → Nat
  | 0, _, _, _ => 0
  | n + 1, mask, i, rd =>
    (if mask % 2 = 1 then rd i else 0) + 2 ^ 32 * zExpand n (mask / 2) (if mask % 2 = 1 then i + 1 else i) rd

/-- The 128 bytes of block `i` of the compressed page whose allotment starts at `b`, as stored (R282). -/
def zStored (m : List Host.Cell) (b i : Nat) : Nat :=
  let off := Memory.readN m (b + 2 * i) 2
  let a := b + off
  zExpand 32 (Memory.readN m a 4) 0 (fun j => Memory.readN m (a + 4 + 4 * j) 4)

/-- The block of an expanded key lies in the die cache or in the overflow buffer (R282, R283). -/
def zHeld (s : State) (k : Nat) : Bool := s.zcache.contains (k / 128) || s.overflow.contains (k / 128)

/-- A byte as the die cache would give it: expanded bytes of compressed pages, plain bytes elsewhere (R282). -/
def memByte (s : State) (k : Nat) : Byte :=
  if isZKey k then
    if zHeld s k then Memory.read s.mem k
    else
      let o := (k - 2 ^ 58) % 4096
      let b := (k - 2 ^ 58 - o) / 4
      BitVec.ofNat 8 (zStored s.mem b (o / 128) / 256 ^ (o % 128))
  else Memory.read s.mem k

/-- Block `i` of the compressed page whose allotment starts at `b` is poisoned as stored (R282). -/
def zStoredPois (s : State) (b i : Nat) : Bool :=
  let a := b + Memory.readN s.mem (b + 2 * i) 2
  let n := 4 + 4 * popN 32 (Memory.readN s.mem a 4)
  (List.range ((a + n - 1) / 64 - a / 64 + 1)).any fun j => s.poison.contains (a / 64 + j)

/-- The stored block that an expanded key is read from is poisoned (R282). -/
def zPois (s : State) (k : Nat) : Bool :=
  isZKey k && decide (k < 2 ^ 60) && !zHeld s k &&
    (let o := (k - 2 ^ 58) % 4096
     zStoredPois s ((k - 2 ^ 58 - o) / 4) (o / 128))

/-- Bring the expanded block of a key into the die cache: a poisoned block poisons both of its granules (R282). -/
def zTouch (s : State) (k : Nat) : State :=
  if isZKey k && !zHeld s k then
    let o := (k - 2 ^ 58) % 4096
    let b := (k - 2 ^ 58 - o) / 4
    { s with zcache := insertN (k / 128) s.zcache,
             mem := Memory.writeN s.mem (k / 128 * 128) 128 (zStored s.mem b (o / 128)),
             poison := if zPois s k then insertN (k / 128 * 2) (insertN (k / 128 * 2 + 1) s.poison) else s.poison }
  else s

/-! ### The error log (R348) -/

/-- A record as 32 bytes, little-endian (R348). -/
def LogRecord.bytes (r : LogRecord) : Nat :=
  r.time % 2 ^ 64 + r.code % 256 * 2 ^ 64 + r.die % 256 * 2 ^ 72 + r.unit % 65536 * 2 ^ 80 + r.pasid % 2 ^ 20 * 2 ^ 96 + r.addr % 2 ^ 64 * 2 ^ 128 +
  r.info % 2 ^ 64 * 2 ^ 192

/-- Add a record to the error log: discarded and counted when the ring of 4,096 is full; vector 32 of each function is raised
(R348, R355). The ring keeps consumed records until others take their places. -/
def logError (s : State) (code die unit pasid addr info : Nat) : State :=
  if 4096 ≤ s.dev.elogHead - s.dev.elogTail then
    { s with dev := { s.dev with elogLost := s.dev.elogLost + 1 } }
  else
    { s with dev := { s.dev with
        log := s.dev.log.drop (s.dev.log.length - 4095) ++
          [{ time := s.time, code := code, die := die, unit := unit, pasid := pasid, addr := addr, info := info }],
        elogHead := s.dev.elogHead + 1,
        msi := s.dev.msi ++ [(0, 32), (1, 32)] } }

/-! ### Sheds (R305 to R314) -/

/-- The record of an allocated block. -/
def shedBlock (s : State) (plane block : Nat) : Option ShedBlock :=
  s.sheds.blocks.find? fun b => b.plane == plane && b.block == block

/-- The key of byte `o` of a shed block (R272). -/
def shedKey (plane block : Nat) : Nat := 0x00C0000000000000 + plane * 2 ^ 37 + block * 2 ^ 21

/-- The key that serves an access to a shed key, and the key that mirrors its writes (R312): the partner serves when the plane of
the address has failed. -/
def shedRoute (s : State) (k : Nat) : Nat × Option Nat :=
  let plane := (k - 0x00C0000000000000) / 2 ^ 37
  let o := (k - 0x00C0000000000000) % 2 ^ 37
  let block := o / 2 ^ 21
  match shedBlock s plane block with
  | some b =>
    match b.partner with
    | some (q, n) =>
      let other := shedKey q n + o % 2 ^ 21
      if b.lost then (other, none)
      else
        match shedBlock s q n with
        | some c => if c.lost then (k, none) else (k, some other)
        | none => (k, none)
    | none => (k, none)
  | none => (k, none)

/-- Shed keys. -/
def isShedKey (k : Nat) : Bool := decide (0x00C0000000000000 ≤ k) && decide (k < 0x00C0020000000000)

/-- The key at which a read of a key is served: the other half of a mirrored pair after a failure, the key itself elsewhere (R312). -/
def servedKey (s : State) (k : Nat) : Nat := if isShedKey k then (shedRoute s k).1 else k

/-- The other half of a mirrored pair (R308, R312). -/
def shedPartner (s : State) (b : ShedBlock) : Option ShedBlock := b.partner.bind fun p => shedBlock s p.1 p.2

/-- A block is lost: its switch failed, and so did that of every other half (R314). -/
def shedLost (s : State) (b : ShedBlock) : Bool :=
  b.lost && (match shedPartner s b with
    | some c => c.lost
    | none => true)

/-- A block, or the other half of its pair, is over quota (R311). DEDUCED: log entry 39. -/
def shedOver (s : State) (b : ShedBlock) : Bool := b.overQ || ((shedPartner s b).map fun c => c.overQ).getD false

/-- The condition an access to a shed block raises, if any (R306, R311, R314). DEDUCED: log entry 81. -/
def shedFault (s : State) (gang : Word) (k : Nat) (va : Word) : Option Trap :=
  if !isShedKey k then none
  else
    match shedBlock s ((k - 0x00C0000000000000) / 2 ^ 37) ((k - 0x00C0000000000000) % 2 ^ 37 / 2 ^ 21) with
    | none => some ⟨.shedUnalloc, va⟩
    | some b =>
      if b.gang ≠ gang then some ⟨.shedUnalloc, va⟩
      else if shedLost s b then some ⟨.shedLost, va⟩
      else if shedOver s b then some ⟨.quota, va⟩
      else none

/-! ### Visible writes -/

/-- The module position of a Loft or DRAM key has failed: its reads return poison and its writes are dropped (R350).
DRAM modules are positions 0 to `drams` − 1; Loft module n is position `drams` + n (log entry 4). -/
def moduleFailed (s : State) (k : Nat) : Bool :=
  if isLoftKey k then s.linkFailed.contains (s.drams + (k - 0x0010000000000000) / 2 ^ 39)
  else if isZKey k then s.linkFailed.contains ((k - 2 ^ 58) / 4 / 4096 % s.drams)
  else if k < 0x0000100000000000 then s.linkFailed.contains (k / 4096 % s.drams)
  else false

/-- Some of `n` bytes from a key lie in a failed module; DRAM is interleaved in granules of 4 KiB (R272, R350). -/
def failedIn (s : State) (k n : Nat) : Bool :=
  !s.linkFailed.isEmpty && (List.range (n / 64 + 2)).any fun i => moduleFailed s (k + min (64 * i) (n - 1))

/-- The granules that `n` bytes from a key touch. -/
def granulesOf (k : Nat) : Nat → List Nat
  | 0 => []
  | n + 1 => insertN (granule k) (granulesOf (k + 1) n)

/-- Poison after a store of `n` bytes (R184): poisoned data marks every granule it writes; the store that completes a granule
written whole and clean by its instruction clears it; any other clean store leaves a poisoned granule poisoned. -/
def poisonAfter (l : List Nat) (gs : List Nat) (pois whole : Bool) : List Nat :=
  if pois then gs.foldl (fun l g => insertN g l) l
  else if whole then gs.foldl (fun l g => removeN g l) l
  else l

/-- A granule reads as poison: it is marked, it is expanded from a poisoned block, or it lies in a lost Loft module and has not been
written clean since (R184, R282, R304). -/
def granulePois (s : State) (g : Nat) : Bool :=
  s.poison.contains g || zPois s (64 * g) ||
    (decide (0x0010000000000000 / 64 ≤ g) && decide (g < 0x0010080000000000 / 64) &&
      s.loftLost.contains ((g - 0x0010000000000000 / 64) / 2 ^ 33) && !s.loftClean.contains g)

/-- The granule that serves a granule: that of the other half of a mirrored pair after a failure (R312). -/
def servedGranule (s : State) (g : Nat) : Nat := if isShedKey (64 * g) then servedKey s (64 * g) / 64 else g

/-- Some of `n` bytes from a key read as poison where they are served: a poisoned granule, a failed module (R184, R312, R350). -/
def memPois (s : State) (k n : Nat) : Bool := ((granulesOf k n).any fun g => granulePois s (servedGranule s g)) || failedIn s k n

/-- The compute die whose die cache holds a key: 32 slices on each die (R11, R167). -/
def dieOfSlice (k : Nat) : Nat := targetOf k / 32

/-- The target that serves a key: the new primary's switch after a failover (R167, R312). -/
def targetIn (s : State) (k : Nat) : Nat := targetOf (servedKey s k)

/-- One write at its place, with poison, the poisoned-merge event, and the sealed tag (R184, R287, R357). -/
def applyAt (s : State) (k : Nat) (st : PStore) : State :=
  if moduleFailed s k then s
  else
    let s := zTouch s k
    let gs := granulesOf k st.n
    let merge := !st.poison && !st.whole && gs.any (granulePois s)
    let s := { s with
      mem := Memory.writeMasked s.mem k st.n st.val st.mask,
      poison := poisonAfter s.poison gs st.poison st.whole,
      loftClean := if s.loftLost.isEmpty || st.poison || !st.whole then s.loftClean else gs.foldl (fun l g => insertN g l) s.loftClean,
      sealed := if st.sealing then insertN (k / 64) s.sealed else s.sealed,
      sealKeys := if st.sealing then (k / 64, st.slot) :: s.sealKeys.filter (fun q => q.1 != k / 64) else s.sealKeys }
    if merge then logError s 0x03 4 0 s.hart.pasid k 0 else s

/-- The launch id of a hart's gang: one for both roles of a spliced hart (R325, R338). -/
def ownerGang (s : State) (h : Hart) : Word :=
  ((s.gangs.find? fun g => g.pasid == h.pasid && (g.lid == h.gangid || g.lid2 == some h.gangid)).map fun g => g.lid).getD h.gangid

/-- A hart is the one that made a store. -/
def owns (s : State) (h : Hart) (gang : Word) (hart : Nat) : Bool := h.hartid == hart && ownerGang s h == gang

/-- `n` bytes from offset `o` of a key cut into stores of at most 16 naturally aligned bytes: offset and length of each (R290). -/
def storeParts (k : Nat) : Nat → Nat → Nat → List (Nat × Nat)
  | 0, _, _ => []
  | fuel + 1, o, n =>
    if n = 0 then []
    else
      let m := min n (16 - (k + o) % 16)
      (o, m) :: storeParts k fuel (o + m) (n - m)

/-- How many stores of a hart have entered its store queues (R294). -/
def enteredBy (s : State) (gang : Word) (hart : Nat) : Nat := (((harts s).find? fun h => owns s h gang hart).map fun h => h.entered).getD 0

/-- The hart that has written an expanded block of a compressed page is noted, as the one that its write-back can stall (R283). -/
def noteWriter (s : State) (gang : Word) (hart k : Nat) : State :=
  if isZKey k then { s with zWriters := (k / 128, gang, hart) :: s.zWriters.filter fun w => w.1 != k / 128 } else s

/-- A store of a hart becomes visible at its target (R168, R169): in both halves of a shed pair, the mirror first (R312); a Loft store
also waits to become durable (R289). -/
def applyStoreOf (s : State) (gang : Word) (hart : Nat) (st : PStore) : State :=
  if isShedKey st.key then
    let (k, m) := shedRoute s st.key
    let s := match m with
      | some k2 => applyAt s k2 st
      | none => s
    applyAt s k st
  else
    let s := noteWriter (applyAt s st.key st) gang hart st.key
    if isLoftKey st.key && !moduleFailed s st.key then
      { s with loftPend := s.loftPend ++ (storeParts st.key (st.n / 16 + 2) 0 st.n).map fun c => {
          gang := gang, hart := hart, epoch := st.epoch, queue := st.queue, po := st.po,
          key := st.key + c.1, n := c.2, val := st.val / 256 ^ c.1 % 256 ^ c.2, mask := st.mask / 256 ^ c.1 % 256 ^ c.2,
          poison := st.poison, whole := st.whole && decide (c.1 + c.2 = st.n), seq := if st.seq = 0 then enteredBy s gang hart + 1 else st.seq } }
    else s

/-- The hart stalls: a write-back of a block that it wrote waits while all 256 entries of the overflow buffer are occupied, and so do its later
stores to the slice (R283). -/
def writerStalls (s : State) (h : Hart) : Bool :=
  decide (256 ≤ s.overflow.length) && s.zWriters.any fun w => (s.wbWait.any fun b => b.1 == w.1) && owns s h w.2.1 w.2.2

/-- A store of the focused hart becomes visible at its target (R168, R169). -/
def applyStore (s : State) (st : PStore) : State := applyStoreOf s (ownerGang s s.hart) s.hart.hartid st

/-! ### Translation (R269 to R274) -/

/-- The kinds of access. An engine's write to a shadow page goes to the hidden backing (R185, R271). -/
inductive Acc where
  | load | store | fetch | engineStore
  deriving DecidableEq, Repr

/-- An access writes. -/
def Acc.writes : Acc → Bool
  | .store | .engineStore => true
  | _ => false

/-- What a translation found: the key, the bytes left in its page from there, the leaf and its address. -/
structure Hit where
  key : Nat
  left : Nat
  pte : Nat
  pteAt : Nat
  level : Nat
  deriving DecidableEq, Repr

/-- The outcome of a translation: a place, a condition, or a stall on a page in migration (R279). -/
inductive XRes where
  | ok (h : Hit)
  | trap (t : Trap)
  | stall
  deriving DecidableEq, Repr

/-- A leaf entry is well formed at its level (R270). DEDUCED: log entry 19. -/
def leafOk (pte level : Nat) : Bool :=
  let n := bitN pte 63
  let ppn := bitsN pte 10 44
  decide (level < 4) && bitsN pte 61 2 == 0 && (!n || level == 0 && ppn % 16 == 8) &&
  ppn % 2 ^ (9 * level) == 0

/-- A pointer entry is well formed (R270): D, A, U, N, PBMT and bits 60:54 zero. -/
def pointerOk (pte : Nat) : Bool :=
  !bitN pte 7 && !bitN pte 6 && !bitN pte 4 && bitsN pte 54 10 == 0

/-- Walk the table from `table` down: the leaf's address, the leaf and its level (R269, R270). -/
def walk (m : List Host.Cell) (va : Nat) : Nat → Nat → Option (Nat × Nat × Nat)
  | 0, _ => none
  | l + 1, table =>
    let pa := table + 8 * (va / 2 ^ (12 + 9 * l) % 512)
    let pte := Memory.readN m pa 8
    if !bitN pte 0 || (!bitN pte 1 && bitN pte 2) then none
    else if bitN pte 1 || bitN pte 3 then (if leafOk pte l then some (pa, pte, l) else none)
    else if pointerOk pte then walk m va l (bitsN pte 10 44 * 4096) else none

/-- The page size of a leaf (R270). -/
def leafSize (pte level : Nat) : Nat := if bitN pte 63 then 65536 else 4096 * 2 ^ (9 * level)

/-- The attribute limits of R271 hold for a leaf in a place. DEDUCED: log entry 18. -/
def attrOk (p : Place) (pte level : Nat) : Bool :=
  let shd := bitN pte 60
  let cmp := bitsN pte 58 2
  let enc := bitN pte 57
  let po := bitN pte 56
  let small := level == 0 && !bitN pte 63
  let own := match p with
    | .dram => true
    | _ => false
  let lofty := match p with
    | .loft _ => true
    | _ => false
  (!shd || own && small && cmp == 0 && !po && !bitN pte 9 && bitsN pte 10 44 % 2 == 0) &&
  (cmp == 0 || cmp != 3 && own && small && !po) && (!enc || own || lofty) && (!po || lofty)

/-- The key that an address reaches under a leaf (R270, R271, R282). -/
def leafKey (pte level va : Nat) (acc : Acc) : Nat :=
  let size := leafSize pte level
  let pa := bitsN pte 10 44 * 4096 / size * size + va % size
  if bitN pte 60 then
    let half := if acc = .engineStore then !bitN pte 8 else bitN pte 8
    pa + (if half then 4096 else 0)
  else if bitsN pte 58 2 = 1 then
    2 ^ 58 + 4 * (bitsN pte 10 44 * 4096 + (if bitN pte 9 then 2048 else 0)) + va % 4096
  else if bitsN pte 58 2 = 2 then
    2 ^ 58 + 4 * (bitsN pte 10 44 * 4096 + 1024 * bitsN pte 8 2) + va % 4096
  else pa

/-- The permission that an access needs (R270). -/
def permitted (pte : Nat) (acc : Acc) : Bool :=
  bitN pte 4 && (match acc with
    | .load => bitN pte 1
    | .fetch => bitN pte 3
    | _ => bitN pte 2)

/-- A context-table entry as its 16 bytes, little-endian: ROOT at 0x00, STATE at 0x08, KEY at 0x0A, zeros elsewhere (R276). -/
def Context.bytes (c : Context) : Nat := c.root % 2 ^ 64 + c.state % 256 * 2 ^ 64 + c.key % 65536 * 2 ^ 80

/-- The context-table entry of a PASID, in device memory (R276). DESIGN CHOICE: log entry 23. -/
def contextOf (s : State) (pasid : Nat) : Context :=
  let v := Memory.readN s.mem (s.ctxBase + 16 * pasid) 16
  { root := v % 2 ^ 64, state := bitsN v 64 8, key := bitsN v 80 16 }

/-- Write the context-table entry of a PASID (R276). -/
def setContext (s : State) (pasid : Nat) (c : Context) : State :=
  { s with mem := Memory.writeN s.mem (s.ctxBase + 16 * pasid) 16 c.bytes }

/-- An active PASID names a key slot (R276, R357): an entry of the table has STATE 1 and that KEY. -/
def slotInUse (s : State) (slot : Nat) : Bool :=
  s.mem.any fun c =>
    decide (s.ctxBase ≤ c.1) && decide (c.1 < s.ctxBase + 2 ^ 24) && (c.1 - s.ctxBase) % 16 == 8 && c.2 == 1 &&
      (contextOf s ((c.1 - s.ctxBase) / 16)).key == slot

/-- Bits 63:57 are copies of bit 56 (R65, R269). -/
def canonical (va : Nat) : Bool := va / 2 ^ 56 % 2 ^ 8 == 0 || va / 2 ^ 56 % 2 ^ 8 == 255

/-- The A bit, and the D bit for a write, that an access needs (R274). -/
def adBits (acc : Acc) : Nat := if acc.writes then 192 else 64

/-- Set A, and D for a write, in the leaf by an OR of its lowest byte (R274). -/
def setAD (s : State) (pteAt : Nat) (acc : Acc) : State :=
  let b := (Memory.read s.mem pteAt).toNat
  if b &&& adBits acc = adBits acc ∨ moduleFailed s pteAt then s
  else { s with mem := Memory.write s.mem pteAt (BitVec.ofNat 8 (b ||| adBits acc)) }

/-- A TLB entry that serves an access: it covers the address and its leaf already carries the bits the access needs (R273). -/
def tlbHit (s : State) (pasid va : Nat) (acc : Acc) : Option (Nat × Nat × Nat) :=
  (s.tlb.find? fun e => e.pasid == pasid && decide (e.base ≤ va) && decide (va < e.base + e.size) &&
    e.pte % 256 &&& adBits acc == adBits acc).map fun e => (e.pteAt, e.pte, e.level)

/-- The place of a leaf's physical address: a compressed page lies where its allotment does (R271, R272, R282). -/
def leafPlace (s : State) (pte key : Nat) : Option Place :=
  if isZKey key then placeOf s (bitsN pte 10 44 * 4096) else placeOf s key

/-- The addresses of the entries that a walk reads, from `table` down. -/
def walkReads (m : List Host.Cell) (va : Nat) : Nat → Nat → List Nat
  | 0, _ => []
  | l + 1, table =>
    let pa := table + 8 * (va / 2 ^ (12 + 9 * l) % 512)
    let pte := Memory.readN m pa 8
    pa :: (if !bitN pte 0 || bitN pte 1 || bitN pte 3 then [] else walkReads m va l (bitsN pte 10 44 * 4096))

/-- The walk for an address of a PASID; an entry that reads as poison, of a failed module for one, is no valid entry (R273, R350).
DESIGN CHOICE: log entry 106. -/
def walkFor (s : State) (pasid a : Nat) : Option (Nat × Nat × Nat) :=
  let root := (contextOf s pasid).root
  if (walkReads s.mem a 5 root).any fun pa => memPois s pa 8 then none else walk s.mem a 5 root

/-- Find the place of an address of a PASID, before any permission is asked (R269 to R273, R276): no table translates the scratchpad window
(R143), and every walk that reaches a leaf in migration stalls (R279). -/
def locate (s : State) (pasid : Nat) (va : Word) (acc : Acc) : XRes :=
  let a := va.toNat
  if !canonical a || decide (0x00FD000000000000 ≤ a ∧ a < 0x00FE000000000000 + 2 ^ 32) then .trap ⟨.tfault, va⟩
  else if (contextOf s pasid).state ≠ 1 then .trap ⟨.pasidGone, W pasid⟩
  else
    match (match tlbHit s pasid a acc with
      | some r => some r
      | none => walkFor s pasid a) with
    | none => .trap ⟨.tfault, va⟩
    | some (pteAt, pte, level) =>
      let key := leafKey pte level a acc
      if bitN pte 54 then .stall
      else match leafPlace s pte key with
      | none => .trap ⟨.tfault, va⟩
      | some p =>
        if !attrOk p pte level || p == .host && s.hostFaults.contains (pasid, key / 4096) then .trap ⟨.tfault, va⟩
        else .ok { key := key, left := leafSize pte level - a % leafSize pte level, pte := pte, pteAt := pteAt, level := level }

/-- The leaf already carries the bits that an access needs (R274). -/
def adSet (pte : Nat) (acc : Acc) : Bool := pte % 256 &&& adBits acc == adBits acc

/-- Wait for a page in migration, ask the permission of a translation that was found, and set A and D when they are clear (R270, R274,
R279, R357); the entry is as the walk read it. -/
def grantLeaf (s : State) (pasid : Nat) (va : Word) (acc : Acc) (h : Hit) : State × XRes :=
  if bitN h.pte 54 then (s, .stall)
  else if !permitted h.pte acc || bitN h.pte 57 && (contextOf s pasid).key == 0 then (s, .trap ⟨.perm, va⟩)
  else (if adSet h.pte acc then s else setAD s h.pteAt acc, .ok h)

/-- Use a translation that was found: when A or D must be set and the entry has changed since it was read, the walk starts again (R274). -/
def grant (s : State) (pasid : Nat) (va : Word) (acc : Acc) (h : Hit) : State × XRes :=
  if adSet h.pte acc || Memory.readN s.mem h.pteAt 8 == h.pte then grantLeaf s pasid va acc h
  else
    match locate s pasid va acc with
    | .ok h => grantLeaf s pasid va acc h
    | r => (s, r)

/-- Translate an address of a PASID, outside the scratchpad window. -/
def translate (s : State) (pasid : Nat) (va : Word) (acc : Acc) : State × XRes :=
  match locate s pasid va acc with
  | .ok h => grant s pasid va acc h
  | r => (s, r)

/-- SPBASE (R143). -/
def spBase : Nat := 0x00FE000000000000

/-- The scratchpad window (R143). -/
def inWindow (va : Nat) : Bool := decide (spBase ≤ va) && decide (va < spBase + 2 ^ 32)

/-- A stopped hart whose partition has been saved has left its stall: the rings and copies in it moved with the partition (R96, R144, R183;
log entry 63). -/
def partitionMoved (h : Hart) : Bool := h.run == .stopped && (h.stop.map fun p => p.spad && !p.unsaved && p.faulted.isNone).getD false

/-- The bytes of a core's scratchpad that no access may touch: rings of open stream records and copies of declared windows of its
harts (R144, R183), as (first key, count). -/
def reservedRanges (s : State) (core : Nat) : List (Nat × Nat) :=
  let mode := (coreOf s core).cur
  ((harts s).filter fun h => h.core == core && h.run != .idle && h.run != .ended && !partitionMoved h).flatMap fun h =>
    let part := spadKey core + h.stall * (2 ^ 21 / 2 ^ mode)
    let l := (32 / 2 ^ mode) / (if h.prot then 2 else 1)
    (h.streams.map fun r => (part + r.rbase, r.rbytes)) ++
    (h.win.toList.filterMap fun w =>
      w.map fun w => (spadKey core + (w.table.toNat - spBase) + w.len * (w.w / 8), l * w.len * (w.w / 8)))

/-- The lowest of `n` bytes from a key that lies in a reserved range. -/
def reservedByte (s : State) (core k : Nat) : Nat → Option Nat
  | 0 => none
  | n + 1 =>
    if (reservedRanges s core).any fun r => decide (r.1 ≤ k) && decide (k < r.1 + r.2) then some k
    else reservedByte s core (k + 1) n

/-- A pin still holds: that of the sequencer's instruction until the instruction has completed, that of a convoy until the element has (R98). -/
def livePin (h : Hart) (p : Pin) : Bool :=
  (p.past.map fun n => h.instret == n).getD true && (p.until'.map fun e => decide (h.vstart ≤ e.2)).getD true

/-- A pinned translation of the focused hart that covers an address (R98). -/
def pinHit (s : State) (a : Nat) (acc : Acc) : Option Hit :=
  (s.hart.pins.find? fun p => p.page == a / 4096 && livePin s.hart p).map fun p =>
    { key := leafKey p.pte p.level a acc, left := 4096 - a % 4096, pte := p.pte, pteAt := p.pteAt, level := p.level }

/-- Find the place of `n` naturally aligned bytes at an address for the focused hart (R65, R98, R143, R269). -/
def findPlace (s : State) (va : Word) (n : Nat) (acc : Acc) : XRes :=
  let a := va.toNat
  if inWindow a then
    let o := a - spBase
    if acc = .fetch then .trap ⟨.perm, va⟩
    else if 2 ^ 21 < o + n then .trap ⟨.tfault, W (max a (spBase + 2 ^ 21))⟩
    else .ok { key := spadKey s.hart.core + o, left := 2 ^ 21 - o, pte := 0, pteAt := 0, level := 0 }
  else
    match pinHit s a acc with
    | some h => .ok h
    | none => locate s s.hart.pasid va acc

/-- The page permission of a place that was found; the scratchpad asks none (R143, R270). -/
def grantPlace (s : State) (va : Word) (acc : Acc) (h : Hit) : State × XRes :=
  if isSpadKey h.key then (s, .ok h) else grant s s.hart.pasid va acc h

/-- Resolve `n` naturally aligned bytes at an address for the focused hart: place and page permission, but not the permission
conditions of sheds and reserved bytes, which come after the scope check (R174). -/
def resolve (s : State) (va : Word) (n : Nat) (acc : Acc) : State × XRes :=
  match findPlace s va n acc with
  | .ok h => grantPlace s va acc h
  | r => (s, r)

/-- The conditions that rank after the scope check: reserved scratchpad bytes and the shed conditions (R144, R174, R183). DEDUCED: log entry 13. -/
def lateFault (s : State) (va : Word) (k n : Nat) : Option Trap :=
  if isSpadKey k then
    (reservedByte s ((k - 2 ^ 57) / 2 ^ 21) k n).map fun b => ⟨.perm, va + W (b - k)⟩
  else shedFault s s.hart.gangid k va

/-- `InReach(a, sc)` for an address and the key it reaches (R28). The hart's own frame is the range of its addresses, FRAME + hartid × framesz on,
and not the memory behind them. DESIGN CHOICE: log entry 87. -/
def inReach (s : State) (va : Word) (k sc : Nat) : Bool :=
  let own := decide (partKey s ≤ k) && decide (k < partKey s + partBytes s)
  let f := s.hart.frame.toNat + s.hart.hartid * framesz s
  let frame := decide (f ≤ va.toNat) && decide (va.toNat < f + framesz s)
  let core := isSpadKey k
  let device := isZKey k || decide (k < 0x0040000000000000)
  let domain := decide (k < 0x00D0000000000000)
  match sc with
  | 0 => own || !core && frame
  | 1 => core
  | 2 => core || device
  | 3 => core || device
  | 4 => core || device || domain
  | _ => true

/-! ### Loads and stores of the focused hart -/

/-- Lay the hart's queued stores over a byte, oldest first (R67, R155). -/
def overlay (q : List PStore) (k : Nat) (b : Nat) : Nat :=
  q.foldl (fun b st =>
    if st.key ≤ k ∧ k < st.key + st.n then
      let m := st.mask / 256 ^ (k - st.key) % 256
      (b &&& (255 - m)) ||| (st.val / 256 ^ (k - st.key) % 256 &&& m)
    else b) b

/-- The byte that the focused hart reads at a key: its own queued stores over memory. A shed pair is read where it is served. -/
def hartByte (s : State) (k : Nat) : Nat :=
  overlay s.hart.storeQ k (memByte s (servedKey s k)).toNat

/-- `n` bytes as the focused hart reads them. -/
def hartRead (s : State) (k : Nat) : Nat → Nat
  | 0 => 0
  | n + 1 => hartByte s k + 256 * hartRead s (k + 1) n

/-- The poison of a granule once the hart's queued stores, oldest first, have been laid over it (R155, R184). -/
def overlayPois (q : List PStore) (g : Nat) (b : Bool) : Bool :=
  q.foldl (fun b st => if (granulesOf st.key st.n).contains g then st.poison || b && !st.whole else b) b

/-- A read of `n` bytes returns poison: a granule that is poisoned once the queued stores are laid over it, a failed module (R155, R184,
R350). -/
def readsPoison (s : State) (k n : Nat) : Bool :=
  ((granulesOf k n).any fun g => overlayPois s.hart.storeQ g (granulePois s (servedGranule s g))) || failedIn s k n

/-- The key slot under which a store through a leaf seals its granules: that of the PASID (R277). -/
def keySlot (s : State) (pte : Nat) : Nat := if bitN pte 57 then (contextOf s s.hart.pasid).key else 0

/-- The queue entry for `n` bytes at a translated place. -/
def mkStore (s : State) (h : Hit) (n val mask : Nat) (pois : Bool) (q : Queue) (epoch : Nat) : PStore :=
  { key := h.key, n := n, val := val % 256 ^ n, mask := mask, poison := pois, epoch := epoch, queue := q,
    po := bitN h.pte 56, sealing := bitN h.pte 57, slot := keySlot s h.pte,
    whole := decide (isSpadKey h.key ∧ n = 8 ∧ mask = 256 ^ 8 - 1 ∧ h.key % 8 = 0) ||
      decide (isSpadKey h.key ∧ n = 16 ∧ h.key % 8 = 0 ∧ mask = 256 ^ 16 - 1),
    conv := if q = .vector then s.hart.cur.addr else 0, seq := 0 }

/-- A released store enters the store queue of its target (R169, R294). -/
def release (s : State) (st : PStore) : State :=
  { s with hart := { s.hart with storeQ := s.hart.storeQ ++ [{ st with seq := s.hart.entered + 1 }], entered := s.hart.entered + 1 } }

/-- Every queued store of the hart becomes visible in release order (R169). -/
def drainAll (s : State) : State :=
  (s.hart.storeQ.foldl applyStore { s with hart := { s.hart with storeQ := [] } })

/-! ### Poisoned summaries (R210) -/

/-- The type code of a body. -/
def Body.ty : Body → Nat
  | .cms _ _ => 1
  | .bks _ => 2
  | .qh _ _ _ _ _ _ => 3
  | .mom _ _ _ _ _ _ _ _ => 4
  | .wes _ _ _ _ => 5

/-- The all-zero body of a poisoned summary (R210). -/
def zeroBody (ty : Nat) : Body :=
  match ty with
  | 1 => .cms 0 0
  | 2 => .bks []
  | 3 => .qh 0 0 0 0 0 []
  | 4 => .mom 0 0 0 0 0 0 0 0
  | _ => .wes 0 0 0 0

/-- A summary whose POISON is set (R210). -/
def poisonSum (m : Summary) : Summary := { m with poison := true, body := zeroBody m.body.ty }

/-! ### Taking a trap (R86 to R96) -/

/-- The code of a cause (R87). -/
def Cause.code : Cause → Nat
  | .illegal => 0x01
  | .misalign => 0x02
  | .tfault => 0x03
  | .perm => 0x04
  | .scope => 0x05
  | .tileOff => 0x06
  | .nonrepro => 0x07
  | .poison => 0x08
  | .mismatch => 0x09
  | .sumtype => 0x0A
  | .sumpoison => 0x0B
  | .sumspace => 0x0C
  | .shedLost => 0x0D
  | .shedUnalloc => 0x0E
  | .quota => 0x0F
  | .pennant => 0x10
  | .brk => 0x11
  | .swtrap => 0x12
  | .stream => 0x13
  | .pasidGone => 0x14
  | .preempt => 0x20
  | .halt => 0x21
  | .repartition => 0x22

/-- The code of a queue in the frame header (R95). -/
def Queue.code : Queue → Nat
  | .sequencer => 0
  | .vector => 1
  | .access => 2
  | .none => 3

/-- What stands against saving a frame: a page that faults, or a page in migration, which makes the save wait (R94, R279). -/
inductive FrameBar where
  | fault (t : Trap)
  | stall
  deriving DecidableEq, Repr

/-- Translate every page of `n` bytes from `va` for reading and for writing, leaf by leaf (R94). -/
def frameWalk (s : State) : Nat → Word → Nat → State × Option FrameBar
  | 0, _, _ => (s, none)
  | fuel + 1, va, n =>
    match translate s s.hart.pasid va .load with
    | (s, .trap t) => (s, some (.fault t))
    | (s, .stall) => (s, some .stall)
    | (s, .ok _) =>
      match translate s s.hart.pasid va .store with
      | (s, .trap t) => (s, some (.fault t))
      | (s, .stall) => (s, some .stall)
      | (s, .ok h) => if n ≤ h.left then (s, none) else frameWalk s fuel (va + W h.left) (n - h.left)

/-- What memory holds in `n` bytes from `va`, leaf by leaf, as cells at offsets that begin at `o`. The expanded bytes of compressed pages are
left out: they have no cells of their own while their blocks are packed. -/
def frameCells (s : State) : Nat → Word → Nat → Nat → List Host.Cell
  | 0, _, _, _ => []
  | fuel + 1, va, n, o =>
    match locate s s.hart.pasid va .load with
    | .ok h =>
      let m := min n h.left
      (if isZKey h.key then [] else
        (s.mem.filter fun c => decide (h.key ≤ c.1) && decide (c.1 < h.key + m)).map fun c => (c.1 - h.key + o, c.2)) ++
        (if n ≤ h.left then [] else frameCells s fuel (va + W h.left) (n - h.left) (o + h.left))
    | _ => []

/-- What memory holds in the opaque part of a frame of `fsz` bytes (R95, R97; log entry 20). -/
def opaqueCells (s : State) (frame : Word) (fsz : Nat) : List Host.Cell := frameCells s 2048 (frame + 256) (fsz - 256) 0

/-- The 256-byte frame header as one little-endian number (R95). -/
def headerOf (h : Hart) (p : Stop) (vrl fsz : Nat) : Nat :=
  h.epc.toNat + h.tval.toNat * 2 ^ 64 + p.rpc.toNat * 2 ^ 128 + h.origin.toNat * 2 ^ 192 +
  h.cause.toNat * 2 ^ (8 * 0x20) + h.member.toNat * 2 ^ (8 * 0x22) + p.queue.code * 2 ^ (8 * 0x23) +
  p.vstart * 2 ^ (8 * 0x24) + vrl * 2 ^ (8 * 0x26) + p.vdirty.toNat * 2 ^ (8 * 0x28) + p.sdirty.toNat * 2 ^ (8 * 0x2C) +
  p.mdirty.toNat * 2 ^ (8 * 0x2E) +
  ((if p.spad then 1 else 0) + (if p.arrived then 2 else 0) + (if h.prot then 4 else 0)) * 2 ^ (8 * 0x2F) +
  p.gbgen * 2 ^ (8 * 0x30) + fsz * 2 ^ (8 * 0x38) + 1 * 2 ^ (8 * 0x3C) + p.vl * 2 ^ (8 * 0x40) + p.vtype.toNat * 2 ^ (8 * 0x48)

/-- `n` bytes from offset `o` of a key cut at poison granules: offset and length of each part (R184). -/
def granuleParts (k g : Nat) : Nat → Nat → Nat → List (Nat × Nat)
  | 0, _, _ => []
  | fuel + 1, o, n =>
    if n = 0 then []
    else
      let m := min n (g - (k + o) % g)
      (o, m) :: granuleParts k g fuel (o + m) (n - m)

/-- Write `n` bytes of `v` at an address as visible writes of the hart's frame save, granule by granule (R94, R96). -/
def frameWrite (s : State) (va : Word) (n v : Nat) : State :=
  match translate s s.hart.pasid va .store with
  | (s, .ok h) =>
    (granuleParts h.key 64 (n / 64 + 2) 0 n).foldl (fun s c =>
      applyStore s { mkStore s { h with key := h.key + c.1 } c.2 (v / 256 ^ c.1) (256 ^ c.2 - 1) false .none s.hart.epoch with
        whole := decide (c.2 = 64) }) s
  | (s, _) => s

/-- The hart's partition as a copy: cells at partition offsets and poisoned granules (R96). -/
def partitionCopy (s : State) : SpadCopy :=
  { cells := (s.mem.filter fun c => decide (partKey s ≤ c.1) && decide (c.1 < partKey s + partBytes s)).map
      fun c => (c.1 - partKey s, c.2),
    poison := (s.poison.filter fun g => decide (granule (partKey s) ≤ g) && decide (g < granule (partKey s) + partBytes s / 8)).map
      fun g => g - granule (partKey s) }

/-- Save the frame of a hart that has stopped with stop record `p` (R94, R96): nothing is written when a page of it faults, and the save
waits for a page in migration; otherwise the header, and, in the part whose layout is not architectural, the rest, which is the hart record
itself. Dirty bits of what was saved are cleared, and the leaf is told. DEDUCED: log entry 20. -/
def saveFrame (s : State) (p : Stop) : State :=
  let fsz := framesz s
  match frameWalk s 2048 p.frame fsz with
  | (s, some (.fault t)) =>
    { s with hart := { s.hart with stop := some { p with faulted := some t, unsaved := false } },
             leaf := s.leaf ++ [.frameFault s.hart.gangid s.hart.hartid t] }
  | (s, some .stall) => { s with hart := { s.hart with stop := some { p with unsaved := true } } }
  | (s, none) =>
    let s := frameWrite s p.frame 256 (headerOf s.hart p (vrlen s) fsz)
    let copy := if p.spad then some (partitionCopy s) else none
    let q := { p with unsaved := false, opaquePart := opaqueCells s p.frame fsz }
    { s with hart := { s.hart with stop := some q, spad := copy, vdirty := 0, sdirty := 0, mdirty := 0 },
             leaf := s.leaf ++ [.stopped s.hart.gangid s.hart.hartid] }

/-- The spliced instruction at an address of spliced code (R339). -/
def spliceCodeAt (h : Hart) (a : Word) : Option SpInstr :=
  h.splice.bind fun sp => sp.code[(a.toNat - 0x00FD000000000000) / 8]?

/-- What was posted at an address belongs to the role that is in force (R338). -/
def ofRole (h : Hart) (a : Word) : Bool :=
  match h.splice with
  | some sp => ((spliceCodeAt h a).map fun i => i.consumer == sp.consumer).getD true
  | none => true

/-- `origin` at a stop charged to an address: the role and the original address when the hart runs a spliced program (R56, R343). -/
def originAt (h : Hart) (a : Word) : Word :=
  match spliceCodeAt h a with
  | some i => W (2 ^ 63 + (if i.consumer then 2 ^ 62 else 0) + i.orig.toNat % 2 ^ 57)
  | none => 0

/-- The original address of an address: its own outside spliced code (R339). -/
def origAddr (h : Hart) (a : Word) : Word :=
  match spliceCodeAt h a with
  | some i => i.orig
  | none => a

/-- A gang of a hart (R325, R338). -/
def gangOf (s : State) (h : Hart) : Option Gang :=
  s.gangs.find? fun g => g.pasid == h.pasid && (g.lid == h.gangid || g.lid2 == some h.gangid)

/-- The generation of a barrier at which a hart has arrived and which is not complete (R77, R95). -/
def awaitedGen (s : State) (h : Hart) : Option Nat :=
  h.arrived.filter fun n => ((gangOf s h).map fun g => decide (g.gen < n)).getD true

/-- What a stop leaves of the vector queue: a commit that had begun starts again (R300), and micro-operations that had not led to
results are done again (R93). -/
def uncommit (h : Hart) : Hart :=
  let q := match h.vq with
    | c :: l => { c with phase := 0, commit := (0, 0) } :: l
    | [] => []
  { h with vq := q, renamed := [], issued := [], complete := [] }

/-- Taking a trap or a stop, as one operation (R86): the hart stops, class F is written, the frame is saved (but not for
PASID_GONE and HALT), and the leaf is told. `q` is the queue charged, `epc` and `member` where the condition arose, `rpc` where the
sequencer resumes (R89), `vs` the value of `vstart`, and `vl`, `vt` the posted values of a reported convoy (R95). A hart that has
arrived at a barrier keeps its arrival (R77). When the sequencer or the access queue traps while micro-operations of the head convoy are
complete, the save waits until that convoy has been cut as for a pre-emption (R60, R92). DEDUCED: log entry 59. -/
def takeStop (s : State) (q : Queue) (t : Trap) (epc rpc : Word) (member vs vl : Nat) (vt : BitVec 14) : State :=
  let h := s.hart
  let late := (h.complete.any fun u => u.1 == 0) && (q == .sequencer || q == .access)
  let h := { (if late then h else uncommit h) with
    run := if t.cause = .halt then .halted else .stopped,
    park := none, again := false,
    cause := BitVec.ofNat 8 t.cause.code, epc := epc, tval := t.tval, member := BitVec.ofNat 2 member,
    origin := originAt h epc, vstart := vs, vwait := none, await := none,
    pins := if t.cause = .preempt ∨ t.cause = .repartition then [] else h.pins }
  let s := { s with hart := h }
  let p : Stop := {
    queue := q, rpc := rpc, vstart := (if q = .access then 0 else vs), stands := vs, vl := (if q = .vector then vl else 0),
    vtype := (if q = .vector then vt else 0), vdirty := h.vdirty, sdirty := h.sdirty, mdirty := h.mdirty,
    arrived := (awaitedGen s h).isSome, gbgen := (awaitedGen s h).getD 0,
    spad := (t.cause = .preempt ∨ t.cause = .repartition : Bool),
    frame := h.frame + W (h.hartid * framesz s), vrl := vrlen s, core := h.core, stall := h.stall, faulted := none,
    unsaved := late, opaquePart := [] }
  if t.cause = .pasidGone ∨ t.cause = .halt then
    { s with hart := { s.hart with stop := some { p with unsaved := false } },
             leaf := s.leaf ++ [if t.cause = .halt then .halted h.gangid h.hartid else .stopped h.gangid h.hartid] }
  else if late then { s with hart := { s.hart with stop := some p } }
  else saveFrame s p

/-- A precise trap of the instruction at `pc` (R60): no effect, and the resume address is its own. -/
def takeTrap (s : State) (c : Cause) (tval : Word) : State :=
  takeStop s .sequencer ⟨c, tval⟩ s.hart.pc s.hart.pc 0 s.hart.vstart 0 0

/-- Returning from a stop: the state the frame holds is put back, dirty maps read zero, the head convoy goes on from the element at which it
stands, which is the header's VSTART but for a stop of the access queue (R92), and the sequencer starts at RPC (R97). Class F keeps its
values. DEDUCED: log entry 59. -/
def resumeHart (h : Hart) (p : Stop) (rpc : Word) : Hart :=
  { h with run := .running, pc := rpc, vstart := p.stands, vdirty := 0, sdirty := 0, mdirty := 0, stop := none, spad := none,
           park := none, again := false, vwait := none, await := none }

end Sys2Proof.Machine
end

