-- ==== Sys2Proof/Machine/Num.lean ====
section
/-! DEFINITION. Number formats, exact values and `Round` (R107 to R119). Every value is exact until it is rounded once. -/

namespace Sys2Proof.Machine

/-- An exact value: NaN, an infinity, or (−1)^neg × m × 2^e, with a sign for zero (R111). -/
inductive FVal where
  | nan
  | inf (neg : Bool)
  | fin (neg : Bool) (m : Nat) (e : Int)
  deriving DecidableEq, Repr

/-- A floating or narrow format: exponent and mantissa widths, bias, sign, and the family SPC (0 for IEEE) (R107, R112). -/
structure Fmt where
  exp : Nat
  man : Nat
  bias : Int
  sgn : Bool
  spc : Nat
  deriving DecidableEq, Repr

/-- `.f64` (R107). -/
def Fmt.f64 : Fmt := ⟨11, 52, 1023, true, 0⟩
/-- `.f32` (R107). -/
def Fmt.f32 : Fmt := ⟨8, 23, 127, true, 0⟩
/-- `.h16` (R107). -/
def Fmt.h16 : Fmt := ⟨5, 10, 15, true, 0⟩
/-- `.bf16` (R107). -/
def Fmt.bf16 : Fmt := ⟨8, 7, 127, true, 0⟩
/-- E4M3 (R116). -/
def Fmt.e4m3 : Fmt := ⟨4, 3, 7, true, 1⟩

/-- Bits of a value of the format, without the container (R107, R113). -/
def Fmt.wid (f : Fmt) : Nat := (if f.sgn then 1 else 0) + f.exp + f.man

/-- 2^k for an integer k as a numerator and a denominator. -/
def pow2 (k : Int) : Nat × Nat := if 0 ≤ k then (2 ^ k.toNat, 1) else (1, 2 ^ (-k).toNat)

/-- The value of a pattern (R107, R115). -/
def Fmt.decode (f : Fmt) (w : Nat) : FVal :=
  let m := w % 2 ^ f.man
  let e := w / 2 ^ f.man % 2 ^ f.exp
  let s := f.sgn && bitN w (f.exp + f.man)
  let top := 2 ^ f.exp - 1
  if f.spc = 0 ∧ e = top then (if m = 0 then .inf s else .nan)
  else if f.spc = 1 ∧ e = top ∧ m = 2 ^ f.man - 1 then .nan
  else if e = 0 then .fin s m (1 - f.bias - f.man)
  else .fin s (2 ^ f.man + m) (e - f.bias - f.man)

/-- A sign bit at the top of a pattern. -/
def Fmt.sign (f : Fmt) (neg : Bool) : Nat := if neg && f.sgn then 2 ^ (f.exp + f.man) else 0

/-- The pattern of MaxFin (R107, R115). -/
def Fmt.maxFin (f : Fmt) : Nat :=
  match f.spc with
  | 0 => (2 ^ f.exp - 2) * 2 ^ f.man + (2 ^ f.man - 1)
  | 1 => if f.man = 0 then 2 ^ f.exp - 2 else (2 ^ f.exp - 1) * 2 ^ f.man + (2 ^ f.man - 2)
  | _ => 2 ^ (f.exp + f.man) - 1

/-- `Special(f, NaN)` (R107, R111, R115). -/
def Fmt.nan (f : Fmt) : Nat :=
  match f.spc with
  | 0 => (2 ^ f.exp - 1) * 2 ^ f.man + 2 ^ (f.man - 1)
  | 1 => 2 ^ (f.exp + f.man) - 1
  | _ => 0

/-- `Special(f, ±∞)` (R111). -/
def Fmt.inf (f : Fmt) (neg : Bool) : Nat :=
  match f.spc with
  | 0 => f.sign neg + (2 ^ f.exp - 1) * 2 ^ f.man
  | 1 => f.nan
  | _ => f.sign neg + f.maxFin

/-- `Overflow(f, mode, sign)` (R111). -/
def Fmt.overflow (f : Fmt) (mode : Nat) (neg : Bool) : Nat :=
  if f.spc ≠ 0 then f.sign neg + f.maxFin
  else
    match mode % 4 with
    | 0 => f.inf neg
    | 1 => f.sign neg + f.maxFin
    | 2 => if neg then f.sign neg + f.maxFin else f.inf neg
    | _ => if neg then f.inf neg else f.sign neg + f.maxFin

/-- floor(log2(num / den)) for positive numbers. -/
def floorLog2 (num den : Nat) : Int :=
  let d : Int := (Nat.log2 num : Int) - Nat.log2 den
  let p := pow2 d
  if den * p.1 ≤ num * p.2 then d else d - 1

/-- The magnitude is rounded up, away from zero, under a mode: `lo` is the truncated quotient, `rem` of `den` what is left (R111). -/
def roundsUp (mode : Nat) (neg : Bool) (lo rem den : Nat) : Bool :=
  if rem = 0 then false
  else
    match mode % 4 with
    | 0 => decide (den < 2 * rem) || decide (2 * rem = den) && lo % 2 == 1
    | 1 => false
    | 2 => !neg
    | _ => neg

/-- The spaced magnitude nearest to num / den: its multiple of 2^q, and q (R111). -/
def roundMag (f : Fmt) (mode : Nat) (neg : Bool) (num den : Nat) : Nat × Int :=
  let e := max (floorLog2 num den) (1 - f.bias)
  let q := e - f.man
  let p := pow2 q
  let n := num * p.2
  let d := den * p.1
  let lo := n / d
  (if roundsUp mode neg lo (n % d) d then lo + 1 else lo, q)

/-- The pattern of a spaced magnitude y × 2^q that does not exceed MaxFin (R111). -/
def Fmt.pack (f : Fmt) (neg : Bool) (y : Nat) (q : Int) : Nat :=
  let yq : Nat × Int := if y = 2 ^ (f.man + 1) then (2 ^ f.man, q + 1) else (y, q)
  if yq.1 < 2 ^ f.man then f.sign neg + yq.1
  else f.sign neg + (yq.2 + f.man + f.bias).toNat * 2 ^ f.man + (yq.1 - 2 ^ f.man)

/-- The magnitude y × 2^q exceeds MaxFin (R111). -/
def Fmt.exceeds (f : Fmt) (y : Nat) (q : Int) : Bool :=
  match f.decode f.maxFin with
  | .fin _ m e =>
    let p := pow2 (q - e)
    decide (m * p.2 < y * p.1)
  | _ => false

/-- `Round` of a non-zero rational (R111). `sat` is the rule of R119 that Overflow gives ±MaxFin in every family. -/
def Fmt.roundRat (f : Fmt) (mode : Nat) (neg : Bool) (num den : Nat) (sat : Bool := false) : Nat :=
  if neg && !f.sgn then 0
  else
    let y := roundMag f mode neg num den
    if f.exceeds y.1 y.2 then (if sat then f.sign neg + f.maxFin else f.overflow mode neg)
    else f.pack neg y.1 y.2

/-- `Round(x, f, mode)` (R111). -/
def Fmt.round (f : Fmt) (mode : Nat) (x : FVal) (sat : Bool := false) : Nat :=
  match x with
  | .nan => f.nan
  | .inf neg => if neg && !f.sgn then 0 else f.inf neg
  | .fin neg m e =>
    if neg && !f.sgn then 0
    else if m = 0 then f.sign neg
    else f.roundRat mode neg (m * (pow2 e).1) (pow2 e).2 sat

/-! ### Exact arithmetic on values -/

/-- The signed mantissa of two finite values at their lower exponent. -/
def alignPair (m1 : Int) (e1 : Int) (m2 : Int) (e2 : Int) : Int × Int × Int :=
  let e := min e1 e2
  (m1 * (2 ^ (e1 - e).toNat : Nat), m2 * (2 ^ (e2 - e).toNat : Nat), e)

/-- A finite value's signed mantissa. -/
def signedMan (neg : Bool) (m : Nat) : Int := if neg then -(m : Int) else m

/-- A finite value from a signed mantissa; an exact zero takes the sign `z` (R110). -/
def finOf (v : Int) (e : Int) (z : Bool) : FVal := .fin (if v = 0 then z else decide (v < 0)) v.natAbs e

/-- Exact sum; an exact zero of a sum of unlike signs is −0 under toward −∞ and +0 otherwise (R110). -/
def FVal.add (mode : Nat) : FVal → FVal → FVal
  | .nan, _ => .nan
  | _, .nan => .nan
  | .inf a, .inf b => if a = b then .inf a else .nan
  | .inf a, _ => .inf a
  | _, .inf b => .inf b
  | .fin s1 m1 e1, .fin s2 m2 e2 =>
    let r := alignPair (signedMan s1 m1) e1 (signedMan s2 m2) e2
    finOf (r.1 + r.2.1) r.2.2 (if m1 = 0 ∧ m2 = 0 ∧ s1 = s2 then s1 else mode % 4 == 3)

/-- Negation. -/
def FVal.neg : FVal → FVal
  | .nan => .nan
  | .inf a => .inf (!a)
  | .fin s m e => .fin (!s) m e

/-- Exact product. -/
def FVal.mul : FVal → FVal → FVal
  | .nan, _ => .nan
  | _, .nan => .nan
  | .inf a, .inf b => .inf (a != b)
  | .inf a, .fin s m _ => if m = 0 then .nan else .inf (a != s)
  | .fin s m _, .inf b => if m = 0 then .nan else .inf (s != b)
  | .fin s1 m1 e1, .fin s2 m2 e2 => .fin (s1 != s2) (m1 * m2) (e1 + e2)

/-- The value is NaN. -/
def FVal.isNan : FVal → Bool
  | .nan => true
  | _ => false

/-- The sign of a value that is not NaN. -/
def FVal.signOf : FVal → Bool
  | .nan => false
  | .inf s => s
  | .fin s _ _ => s

/-- Order of two values that are not NaN; −0 equals +0 (R110). -/
def FVal.lt : FVal → FVal → Bool
  | .nan, _ => false
  | _, .nan => false
  | .inf a, .inf b => a && !b
  | .inf a, _ => a
  | _, .inf b => !b
  | .fin s1 m1 e1, .fin s2 m2 e2 =>
    let r := alignPair (signedMan s1 m1) e1 (signedMan s2 m2) e2
    decide (r.1 < r.2.1)

/-- Equality of two values that are not NaN; −0 equals +0 (R110). -/
def FVal.eq (a b : FVal) : Bool := !a.isNan && !b.isNan && !a.lt b && !b.lt a

/-- Equal as values with the sign of zero (two values that round to one pattern of the same format). -/
def FVal.isZero : FVal → Bool
  | .fin _ m _ => m == 0
  | _ => false

/-- Round of an exact quotient (R122, R126). -/
def divRound (f : Fmt) (mode : Nat) (a b : FVal) : Nat :=
  match a, b with
  | .nan, _ => f.nan
  | _, .nan => f.nan
  | .inf _, .inf _ => f.nan
  | .inf s, .fin t _ _ => f.round mode (.inf (s != t))
  | .fin s _ _, .inf t => f.round mode (.fin (s != t) 0 0)
  | .fin s m1 e1, .fin t m2 e2 =>
    if m2 = 0 then (if m1 = 0 then f.nan else f.round mode (.inf (s != t)))
    else if m1 = 0 then f.round mode (.fin (s != t) 0 0)
    else
      let p := pow2 (e1 - e2)
      f.roundRat mode (s != t) (m1 * p.1) (m2 * p.2)

/-- floor(sqrt n), bit by bit from bit `k` down. -/
def isqrtFrom (n : Nat) : Nat → Nat → Nat
  | 0, r => r
  | k + 1, r => if (r + 2 ^ k) * (r + 2 ^ k) ≤ n then isqrtFrom n k (r + 2 ^ k) else isqrtFrom n k r

/-- floor(sqrt n). -/
def isqrt (n : Nat) : Nat := isqrtFrom n (Nat.log2 n / 2 + 1) 0

/-- Round of an exact square root: computed to well below the spacing of any format, with a sticky bit (R122, R126). -/
def sqrtRound (f : Fmt) (mode : Nat) (a : FVal) : Nat :=
  match a with
  | .nan => f.nan
  | .inf s => if s then f.nan else f.round mode (.inf false)
  | .fin s m e =>
    if m = 0 then f.round mode (.fin s 0 0)
    else if s then f.nan
    else
      let odd := e % 2 = 1
      let n := m * (if odd then 2 else 1) * 2 ^ 256
      let h := ((if odd then e - 1 else e) - 256) / 2
      let r := isqrt n
      let r2 := 2 * r + (if r * r = n then 0 else 1)
      let p := pow2 (h - 1)
      f.roundRat mode false (r2 * p.1) p.2

/-! ### Narrow descriptors (R112 to R114) -/

/-- The WID field of a descriptor. -/
def descWid (d : Word) : Nat := bitsN d.toNat 0 4
/-- The SCL field of a descriptor. -/
def descScl (d : Word) : Nat := bitsN d.toNat 26 2

/-- The format of a descriptor, its scale aside. -/
def descFmt (d : Word) : Fmt :=
  { exp := bitsN d.toNat 4 4, man := bitsN d.toNat 8 4, bias := signExt (bitsN d.toNat 16 8) 8, sgn := bitN d.toNat 12,
    spc := bitsN d.toNat 24 2 }

/-- A descriptor is valid (R113). -/
def descValid (d : Word) : Bool :=
  let f := descFmt d
  decide (2 ≤ descWid d) && decide (descWid d ≤ 8) && decide (1 ≤ f.exp) && f.wid == descWid d && f.spc != 3 &&
  descScl d != 3 && (f.spc != 0 || decide (2 ≤ f.exp) && decide (1 ≤ f.man))

/-- The container width of a descriptor (R114). -/
def containerOf (d : Word) : Nat := if descWid d ≤ 2 then 2 else if descWid d ≤ 4 then 4 else 8

/-- The decoded scale of a scale byte: the scale as a value, NaN where the block reads as NaN (R118). -/
def scaleOf (scl c : Nat) : FVal :=
  if scl = 1 then (if c = 255 then .nan else .fin false 1 ((c : Int) - 127))
  else if c < 0x7F then Fmt.e4m3.decode c else .nan

/-! ### Integers as values -/

/-- An integer as an exact value; zero is +0. -/
def FVal.ofInt (v : Int) : FVal := finOf v 0 false

/-- The integer part of a finite value rounded under a mode (R134). -/
def roundInt (mode : Nat) (neg : Bool) (m : Nat) (e : Int) : Int :=
  let p := pow2 e
  let n := m * p.1
  let y := n / p.2 + (if roundsUp mode neg (n / p.2) (n % p.2) p.2 then 1 else 0)
  if neg then -(y : Int) else y

end Sys2Proof.Machine
end

