-- ==== Sys2Proof/Machine/Operands.lean ====
section
/-! DEFINITION. The operand forms: immediates and offsets, scalar sources of a member, elements of registers and groups,
predicate bits, and how a destination is written (R35, R100 to R106, R121, R123). -/

namespace Sys2Proof.Machine

/-- An immediate of `n` bits, sign-extended to 64 bits (R35). -/
def immS {n : Nat} (v : BitVec n) : Word := v.signExtend 64

/-- A branch or jump offset: the immediate times two (R35). -/
def offS {n : Nat} (v : BitVec n) : Word := v.signExtend 64 * 2

/-- The 14-bit branch offset of format B from its two fields (R34). -/
def brOff (f : OpBr) : Word := offS (f.hi ++ f.lo)

/-- The value of a U immediate (R35). -/
def immU (v : BitVec 19) : Word := v.signExtend 64 <<< 14

/-! ### The convoy that is being performed -/

/-- EW of the convoy, in bits. -/
def ew (s : State) : Nat := ewOf s.hart.cur.vtype

/-- TZ of the convoy (R104). -/
def tz (s : State) : Bool := bitN s.hart.cur.vtype.toNat 3

/-- MZ of the convoy (R104). -/
def mz (s : State) : Bool := bitN s.hart.cur.vtype.toNat 4

/-- The rounding mode of the convoy's snapshot (R111). -/
def rmodeOf (s : State) : Nat := s.hart.cur.snap.rmode.toNat % 4

/-- A scalar source as it stood at posting (R121). -/
def srcX (s : State) (n : BitVec 5) : Word := if n = 0 then 0 else s.hart.cur.xs[n.toNat]

/-- A narrow-format descriptor of the snapshot (R112). -/
def fmtReg (s : State) (n : Nat) : Word := s.hart.cur.snap.fmt[n % 4]

/-- Elements at or above this are not performed: `vl`, a stop boundary, or a condition found at a lower element (R90). -/
def limit (s : State) : Nat :=
  let a := min s.hart.cur.vl (s.hart.cur.stop.getD s.hart.cur.vl)
  match s.hart.cur.fault with
  | some (k, _, _) => min a k
  | none => a

/-- A condition at element `k` of the member that is performed: the lowest element counts, and at one element the lowest member
(R90). -/
def raise (s : State) (k : Nat) (t : Trap) : State :=
  match s.hart.cur.fault with
  | some (k0, _, _) =>
    if k < k0 then { s with hart := { s.hart with cur := { s.hart.cur with fault := some (k, s.hart.cur.index, t) } } } else s
  | none => { s with hart := { s.hart with cur := { s.hart.cur with fault := some (k, s.hart.cur.index, t) } } }

/-- The member must wait at element `e`, so its convoy does; `why` is the trap value of R27 when it waits for a pennant or a ring. -/
def waitAtEl (s : State) (e : Nat) (why : Option Word) : State :=
  { s with hart := { s.hart with cur := { s.hart.cur with wait := some why, waitAt := e } } }

/-- The member must wait before its first element. -/
def mustWait (s : State) (why : Option Word) : State := waitAtEl s s.hart.cur.vstart why

/-! ### Elements -/

/-- `Elem(vr, e, w)` (R8). -/
def el (s : State) (r e w : Nat) : Nat := bitsN (s.hart.v[r % 32].toNat) (e * w) w

/-- Some cell of the element is poisoned (R123). -/
def elP (s : State) (r e w : Nat) : Bool := bitsN (s.hart.vp[r % 32].toNat) (e * w / 2) (w / 2) != 0

/-- Element e of the register group that starts at r (R100). -/
def elG (s : State) (r e w : Nat) : Nat :=
  let per := vrlen s * 8 / w
  el s (r + e / per) (e % per) w

/-- Poison of an element of a group. -/
def elGP (s : State) (r e w : Nat) : Bool :=
  let per := vrlen s * 8 / w
  elP s (r + e / per) (e % per) w

/-- A number with the `w` bits from `lo` replaced. -/
def setBits (v lo w x : Nat) : Nat := v - bitsN v lo w * 2 ^ lo + x % 2 ^ w * 2 ^ lo

/-- All ones in `w` bits, or zero. -/
def ones (w : Nat) (b : Bool) : Nat := if b then 2 ^ w - 1 else 0

/-- Write element e of register r, with or without poison; the register becomes dirty (R56). -/
def setEl (s : State) (r e w x : Nat) (pois : Bool) : State :=
  let i := r % 32
  { s with hart := { s.hart with
      v := s.hart.v.set i (BitVec.ofNat 32768 (setBits s.hart.v[i].toNat (e * w) w x)) (Nat.mod_lt _ (by decide)),
      vp := s.hart.vp.set i (BitVec.ofNat 16384 (setBits s.hart.vp[i].toNat (e * w / 2) (w / 2) (ones (w / 2) pois)))
        (Nat.mod_lt _ (by decide)),
      vdirty := s.hart.vdirty ||| BitVec.ofNat 32 (2 ^ i) } }

/-- Replace a whole register. -/
def setReg (s : State) (r : Nat) (x cells : Nat) : State :=
  let i := r % 32
  { s with hart := { s.hart with
      v := s.hart.v.set i (BitVec.ofNat 32768 x) (Nat.mod_lt _ (by decide)),
      vp := s.hart.vp.set i (BitVec.ofNat 16384 cells) (Nat.mod_lt _ (by decide)),
      vdirty := s.hart.vdirty ||| BitVec.ofNat 32 (2 ^ i) } }

/-- `Active(p, e)`: bit e of a predicate; always 1 for `p0` (R8, R101). -/
def active (s : State) (p e : Nat) : Bool := p == 0 || bitN (s.hart.p[p % 16].toNat) e

/-- Poison of a predicate bit (R123). -/
def activeP (s : State) (p e : Nat) : Bool := p != 0 && bitN (s.hart.pp[p % 16].toNat) e

/-- Write bit e of a predicate. -/
def setPred (s : State) (p e : Nat) (b pois : Bool) : State :=
  let i := p % 16
  { s with hart := { s.hart with
      p := s.hart.p.set i (BitVec.ofNat 16384 (setBits s.hart.p[i].toNat e 1 (if b then 1 else 0))) (Nat.mod_lt _ (by decide)),
      pp := s.hart.pp.set i (BitVec.ofNat 16384 (setBits s.hart.pp[i].toNat e 1 (if pois then 1 else 0)))
        (Nat.mod_lt _ (by decide)) } }

/-- Set bit e of `psm`: the element missed its scope (R102, R174). -/
def setPsm (s : State) (e : Nat) : State :=
  { s with hart := { s.hart with psm := s.hart.psm ||| BitVec.ofNat 16384 (2 ^ e) } }

/-- A scale byte of a scale register (R103). -/
def scaleByte (s : State) (k j : Nat) : Nat := bitsN (s.hart.k[k % 8].toNat) (8 * j) 8

/-- Poison of a scale byte. -/
def scaleP (s : State) (k j : Nat) : Bool := bitN (s.hart.kp[k % 8].toNat) j

/-- Write a scale byte. -/
def setScale (s : State) (k j c : Nat) (pois : Bool) : State :=
  let i := k % 8
  { s with hart := { s.hart with
      k := s.hart.k.set i (BitVec.ofNat 8192 (setBits s.hart.k[i].toNat (8 * j) 8 c)) (Nat.mod_lt _ (by decide)),
      kp := s.hart.kp.set i (BitVec.ofNat 1024 (setBits s.hart.kp[i].toNat j 1 (if pois then 1 else 0)))
        (Nat.mod_lt _ (by decide)) } }

/-! ### How a destination is written (R106) -/

/-- Do `f` at each body element below the limit, in ascending order. -/
def bodyLoop (s : State) (f : Nat → State → State) : State :=
  forUp (s.hart.cur.vl - s.hart.cur.vstart) s.hart.cur.vstart s fun e s => if e < limit s then f e s else s

/-- Zero the tail of a register from bit `lo` (R106). -/
def zeroTail (s : State) (r lo : Nat) : State :=
  setReg s r (s.hart.v[r % 32].toNat % 2 ^ lo) (s.hart.vp[r % 32].toNat % 2 ^ (lo / 2))

/-- Write the tail of register d under TZ, unless the member was cut short or no byte lies in it (R56, R90, R106). -/
def tail (s : State) (d w : Nat) : State :=
  if tz s && s.hart.cur.stop == none && s.hart.cur.vl > s.hart.cur.vstart && decide (s.hart.cur.vl * w < 8 * vrlen s) then
    zeroTail s d (s.hart.cur.vl * w)
  else s

/-- The state with the old value of destination d in place: a destination that the member also reads as a chunk has an old value of its
own (R254, R262). -/
def openOld (s : State) (d : Nat) : State :=
  match s.hart.cur.old.find? fun p => p.1 == d % 32 with
  | some p => setReg s d p.2.val p.2.cells
  | none => s

/-- Write vector destination d at width w under predicate p: at an active body element the value and poison that `f` gives, read
from the state before the member; an inactive element is kept, or zeroed under MZ; a poisoned predicate bit poisons (R106,
R123). -/
def writeVec (s : State) (d w p : Nat) (f : Nat → Nat × Bool) : State :=
  let o := openOld s d
  let r := bodyLoop o fun e t =>
    if active s p e then setEl t d e w (f e).1 ((f e).2 || activeP s p e)
    else if activeP s p e then setEl t d e w (if mz s then 0 else el o d e w) true
    else if mz s then setEl t d e w 0 false else t
  tail r d w

/-- Write predicate destination d under predicate p, as `writeVec` for bits (R106). -/
def writePred (s : State) (d p : Nat) (f : Nat → Bool × Bool) : State :=
  let r := bodyLoop s fun e t =>
    if active s p e then setPred t d e (f e).1 ((f e).2 || activeP s p e)
    else if activeP s p e then setPred t d e (if mz s then false else bitN (s.hart.p[d % 16].toNat) e) true
    else if mz s then setPred t d e false false else t
  if tz s && s.hart.cur.stop == none && s.hart.cur.vl > s.hart.cur.vstart then
    let i := d % 16
    { r with hart := { r.hart with
        p := r.hart.p.set i (BitVec.ofNat 16384 (r.hart.p[i].toNat % 2 ^ s.hart.cur.vl)) (Nat.mod_lt _ (by decide)),
        pp := r.hart.pp.set i (BitVec.ofNat 16384 (r.hart.pp[i].toNat % 2 ^ s.hart.cur.vl)) (Nat.mod_lt _ (by decide)) } }
  else r

/-- The IEEE format of vector arithmetic at a width (R120). -/
def vfmt (w : Nat) : Fmt := if w = 16 then .bf16 else if w = 32 then .f32 else .f64

/-- Element e of a register as a value of the vector format at width w. -/
def elF (s : State) (r e w : Nat) : FVal := (vfmt w).decode (el s r e w)

end Sys2Proof.Machine
end

