-- ==== Sys2Proof/Machine/Vec.lean ====
section
/-! DEFINITION. What each member of majors 0x20 to 0x29 does: arithmetic, conversion, permutation, reduction and predicate
operations (spec/07_vector_instructions.md). A member is its decode check, the registers it names, and its effect on the convoy
that is being performed. -/

namespace Sys2Proof.Machine

/-- What the sequencer knows when it decodes a member: EW and the snapshot (R49, R105). -/
structure DCtx where
  ew : Nat
  snap : Snap
  vrlen : Nat
  tiles : Nat
  deriving DecidableEq, Repr

/-- A convoy member: its decode condition, whether it is a whole member (R91), the vector registers it reads and writes singly
and in groups (R252 to R255), whether it reads its old destination, and its effect. -/
structure Member where
  check : DCtx → Option Cause
  whole : Bool := false
  srcs : List Nat := []
  dsts : List Nat := []
  groups : List Nat := []
  /-- Predicate registers that it writes. -/
  pdsts : List Nat := []
  readsDst : Bool := false
  /-- Sources whose widths EW and the snapshot decide: (first register, number of registers). -/
  sized : DCtx → List (Nat × Nat) := fun _ => []
  /-- The scaled destination block, in elements, at which the convoy stops (R136); 1 when there is none. -/
  block : DCtx → Nat := fun _ => 1
  /-- What a failed micro-operation of an element group does to a result that is no vector or predicate register and no store (R346, R347). -/
  hurt : Nat → State → State := fun _ s => s
  run : State → State

/-- A failed result that goes to a scalar register: POISON (R346). -/
def hurtScalar (_ : Nat) (s : State) : State := raise s s.hart.cur.vstart ⟨.poison, 0⟩

/-- ILLEGAL unless EW is one of the list (R105). -/
def needEw (l : List Nat) (d : DCtx) : Option Cause := if l.contains d.ew then none else some .illegal

/-- The EW values of integer members (R120). -/
def ewInt : List Nat := [8, 16, 32, 64]
/-- The EW values of floating-point members (R120). -/
def ewFp : List Nat := [16, 32, 64]
/-- Every EW (R104). -/
def ewAny : List Nat := [2, 4, 8, 16, 32, 64]

/-- The two sources of a format V member, element by element (R121, R124). -/
def memVV (f : OpV) (l : List Nat) (g : Nat → Nat → Nat → Nat) : Member :=
  { check := needEw l, srcs := [f.va.toNat, f.vb.toNat], dsts := [f.vd.toNat],
    run := fun s =>
      let w := ew s
      writeVec s f.vd.toNat w f.pred.toNat fun e =>
        (g w (el s f.va.toNat e w) (el s f.vb.toNat e w), elP s f.va.toNat e w || elP s f.vb.toNat e w) }

/-- One source and a scalar in place of vb (R142). -/
def memVX (f : OpVS) (l : List Nat) (g : Nat → Nat → Nat → Nat) : Member :=
  { check := needEw l, srcs := [f.va.toNat], dsts := [f.vd.toNat],
    run := fun s =>
      let w := ew s
      writeVec s f.vd.toNat w f.pred.toNat fun e =>
        (g w (el s f.va.toNat e w) ((srcX s f.xb).toNat % 2 ^ w), elP s f.va.toNat e w) }

/-- One source element (R126). -/
def memV1 (f : OpV) (l : List Nat) (g : Nat → Nat → Nat) : Member :=
  { check := needEw l, srcs := [f.va.toNat], dsts := [f.vd.toNat],
    run := fun s =>
      let w := ew s
      writeVec s f.vd.toNat w f.pred.toNat fun e => (g w (el s f.va.toNat e w), elP s f.va.toNat e w) }

/-! ### Integer functions of R124: width, then the two patterns -/

/-- `vadd`. -/
def iAdd (w a b : Nat) : Nat := wrapN (signExt a w + signExt b w) w
/-- `vsub`. -/
def iSub (w a b : Nat) : Nat := wrapN (signExt a w - signExt b w) w
/-- `vrsub`. -/
def iRsub (w a b : Nat) : Nat := iSub w b a
/-- `vmul`. -/
def iMul (w a b : Nat) : Nat := wrapN (signExt a w * signExt b w) w
/-- `vmulh`. -/
def iMulh (w a b : Nat) : Nat := wrapN (signExt a w * signExt b w / (2 ^ w : Nat)) w
/-- `vmulhn`. -/
def iMulhn (w a b : Nat) : Nat := a % 2 ^ w * (b % 2 ^ w) / 2 ^ w
/-- Bitwise AND. -/
def iAnd (w a b : Nat) : Nat := (a &&& b) % 2 ^ w
/-- Bitwise OR. -/
def iOr (w a b : Nat) : Nat := (a ||| b) % 2 ^ w
/-- Bitwise XOR. -/
def iXor (w a b : Nat) : Nat := (a ^^^ b) % 2 ^ w
/-- `vsll`. -/
def iSll (w a b : Nat) : Nat := a * 2 ^ (b % w) % 2 ^ w
/-- `vsrl`. -/
def iSrl (w a b : Nat) : Nat := a % 2 ^ w / 2 ^ (b % w)
/-- `vsra`. -/
def iSra (w a b : Nat) : Nat := wrapN (signExt a w / (2 ^ (b % w) : Nat)) w
/-- Signed minimum. -/
def iMin (w a b : Nat) : Nat := if signExt a w ≤ signExt b w then a % 2 ^ w else b % 2 ^ w
/-- Signed maximum. -/
def iMax (w a b : Nat) : Nat := if signExt a w ≤ signExt b w then b % 2 ^ w else a % 2 ^ w
/-- Natural minimum. -/
def iMinn (w a b : Nat) : Nat := min (a % 2 ^ w) (b % 2 ^ w)
/-- Natural maximum. -/
def iMaxn (w a b : Nat) : Nat := max (a % 2 ^ w) (b % 2 ^ w)

/-- `vsel`: every body element, from va where active and from vb elsewhere (R125). -/
def selMember (f : OpV) : Member :=
  { check := needEw ewAny, srcs := [f.va.toNat, f.vb.toNat], dsts := [f.vd.toNat],
    run := fun s =>
      let w := ew s
      let r := bodyLoop (openOld s f.vd.toNat) fun e t =>
        let src := if active s f.pred.toNat e then f.va.toNat else f.vb.toNat
        setEl t f.vd.toNat e w (el s src e w) (elP s src e w || activeP s f.pred.toNat e)
      tail r f.vd.toNat w }

/-! ### Floating-point functions of R126 to R131: mode, width, patterns -/

/-- `vfadd`. -/
def fAdd (m w a b : Nat) : Nat := (vfmt w).round m (FVal.add m ((vfmt w).decode a) ((vfmt w).decode b))
/-- `vfsub`. -/
def fSub (m w a b : Nat) : Nat := (vfmt w).round m (FVal.add m ((vfmt w).decode a) ((vfmt w).decode b).neg)
/-- `vfmul`. -/
def fMul (m w a b : Nat) : Nat := (vfmt w).round m (((vfmt w).decode a).mul ((vfmt w).decode b))
/-- `vfdiv`. -/
def fDiv (m w a b : Nat) : Nat := divRound (vfmt w) m ((vfmt w).decode a) ((vfmt w).decode b)

/-- IEEE 754-2019 minimum in a format: NaN gives the canonical NaN, −0 ranks below +0 (R126). -/
def fminIn (f : Fmt) (a b : Nat) : Nat :=
  let x := f.decode a
  let y := f.decode b
  if x.isNan || y.isNan then f.nan
  else if x.lt y then a else if y.lt x then b else if x.signOf then a else b

/-- IEEE 754-2019 maximum in a format (R126). -/
def fmaxIn (f : Fmt) (a b : Nat) : Nat :=
  let x := f.decode a
  let y := f.decode b
  if x.isNan || y.isNan then f.nan
  else if x.lt y then b else if y.lt x then a else if x.signOf then b else a

/-- `vfmin`. -/
def fMin (w a b : Nat) : Nat := fminIn (vfmt w) a b
/-- `vfmax`. -/
def fMax (w a b : Nat) : Nat := fmaxIn (vfmt w) a b

/-- Magnitude bits of a pattern. -/
def magOf (w a : Nat) : Nat := a % 2 ^ (w - 1)

/-- `vfabs`: a NaN gives the canonical NaN (R126). -/
def fAbs (w a : Nat) : Nat := if ((vfmt w).decode a).isNan then (vfmt w).nan else magOf w a
/-- `vfneg`. -/
def fNeg (w a : Nat) : Nat :=
  if ((vfmt w).decode a).isNan then (vfmt w).nan else magOf w a + (if bitN a (w - 1) then 0 else 2 ^ (w - 1))
/-- `vfsgnj`: a with the sign of b. -/
def fSgnj (w a b : Nat) : Nat :=
  if ((vfmt w).decode a).isNan then (vfmt w).nan else magOf w a + (if bitN b (w - 1) then 2 ^ (w - 1) else 0)

/-- `vfclass` (R127). -/
def fClass (w a : Nat) : Nat :=
  let f := vfmt w
  match f.decode a with
  | .nan => 2 ^ 8
  | .inf n => if n then 2 ^ 0 else 2 ^ 7
  | .fin n m _ =>
    if m = 0 then (if n then 2 ^ 3 else 2 ^ 4)
    else if m < 2 ^ f.man then (if n then 2 ^ 2 else 2 ^ 5)
    else (if n then 2 ^ 1 else 2 ^ 6)

/-- The four fused forms: the product or its negation, plus or minus c (R128). -/
def fFma (negP negC : Bool) (m w a b c : Nat) : Nat :=
  let f := vfmt w
  let p := (f.decode a).mul (f.decode b)
  let c := f.decode c
  f.round m (FVal.add m (if negP then p.neg else p) (if negC then c.neg else c))

/-- The exact error of a sum or product rounded to nearest-even (R129). -/
def fErr (w : Nat) (a b x : FVal) : Nat :=
  let f := vfmt w
  let s := f.decode (f.round 0 x)
  match a, b, s with
  | .fin _ _ _, .fin _ _ _, .fin _ _ _ =>
    let r := FVal.add 0 x s.neg
    if r.isZero then 0 else f.round 0 r
  | _, _, _ => 0

/-- `vfaerr`. -/
def fAerr (w a b : Nat) : Nat :=
  fErr w ((vfmt w).decode a) ((vfmt w).decode b) (FVal.add 0 ((vfmt w).decode a) ((vfmt w).decode b))
/-- `vfmerr`. -/
def fMerr (w a b : Nat) : Nat :=
  fErr w ((vfmt w).decode a) ((vfmt w).decode b) (((vfmt w).decode a).mul ((vfmt w).decode b))

/-- The exponent E and the top seven fraction bits t of a normalised non-zero value m × 2^e (R130). -/
def estParts (m : Nat) (e : Int) : Int × Nat := ((Nat.log2 m : Int) + e, m * 128 / 2 ^ Nat.log2 m - 128)

/-- `vfrecip.est` (R130). -/
def fRecip (w a : Nat) : Nat :=
  let f := vfmt w
  match f.decode a with
  | .nan => f.nan
  | .inf n => f.round 0 (.fin n 0 0)
  | .fin n m e =>
    if m = 0 then f.inf n
    else
      let p := estParts m e
      f.round 0 (.fin n (65536 / (257 + 2 * p.2)) (-p.1 - 8))

/-- The largest q with q² × d ≤ 2^24 (R131). -/
def rsqrtQ (d : Nat) : Nat := isqrt (2 ^ 24 / d)

/-- `vfrsqrt.est` (R131). -/
def fRsqrt (w a : Nat) : Nat :=
  let f := vfmt w
  match f.decode a with
  | .nan => f.nan
  | .inf n => if n then f.nan else 0
  | .fin n m e =>
    if m = 0 then f.inf n
    else if n then f.nan
    else
      let p := estParts m e
      let o := (p.1 % 2).toNat
      f.round 0 (.fin false (rsqrtQ ((257 + 2 * p.2) * 2 ^ o)) (-((p.1 - o) / 2) - 8))

/-- A floating-point member of two sources under the convoy's rounding mode (R122). -/
def memF2 (f : OpV) (g : Nat → Nat → Nat → Nat → Nat) : Member :=
  { memVV f ewFp (fun _ _ _ => 0) with
    run := fun s =>
      let w := ew s
      writeVec s f.vd.toNat w f.pred.toNat fun e =>
        (g (rmodeOf s) w (el s f.va.toNat e w) (el s f.vb.toNat e w), elP s f.va.toNat e w || elP s f.vb.toNat e w) }

/-- `vfsqrt` (R126). -/
def memSqrt (f : OpV) : Member :=
  { check := needEw ewFp, srcs := [f.va.toNat], dsts := [f.vd.toNat],
    run := fun s =>
      let w := ew s
      writeVec s f.vd.toNat w f.pred.toNat fun e =>
        (sqrtRound (vfmt w) (rmodeOf s) (elF s f.va.toNat e w), elP s f.va.toNat e w) }

/-- A fused multiply-add into vd, which reads its old destination (R106, R128). -/
def memFma (f : OpV) (negP negC : Bool) : Member :=
  { check := needEw ewFp, srcs := [f.va.toNat, f.vb.toNat], dsts := [f.vd.toNat], readsDst := true,
    run := fun s =>
      let w := ew s
      writeVec s f.vd.toNat w f.pred.toNat fun e =>
        (fFma negP negC (rmodeOf s) w (el s f.va.toNat e w) (el s f.vb.toNat e w) (el s f.vd.toNat e w),
          elP s f.va.toNat e w || elP s f.vb.toNat e w || elP s f.vd.toNat e w) }

/-- A floating-point member with a scalar source under the convoy's rounding mode (R142). -/
def memFX (f : OpVS) (g : Nat → Nat → Nat → Nat → Nat) : Member :=
  { memVX f ewFp (fun _ _ _ => 0) with
    run := fun s =>
      let w := ew s
      writeVec s f.vd.toNat w f.pred.toNat fun e =>
        (g (rmodeOf s) w (el s f.va.toNat e w) ((srcX s f.xb).toNat % 2 ^ w), elP s f.va.toNat e w) }

/-- `vfma.vx` (R142). -/
def memFmaX (f : OpVS) : Member :=
  { check := needEw ewFp, srcs := [f.va.toNat], dsts := [f.vd.toNat], readsDst := true,
    run := fun s =>
      let w := ew s
      writeVec s f.vd.toNat w f.pred.toNat fun e =>
        (fFma false false (rmodeOf s) w (el s f.va.toNat e w) ((srcX s f.xb).toNat % 2 ^ w) (el s f.vd.toNat e w),
          elP s f.va.toNat e w || elP s f.vd.toNat e w) }

/-- `vbcast` (R142). -/
def memBcast (f : OpVS) : Member :=
  { check := needEw ewAny, dsts := [f.vd.toNat],
    run := fun s => writeVec s f.vd.toNat (ew s) f.pred.toNat fun _ => ((srcX s f.xb).toNat % 2 ^ ew s, false) }

/-! ### Compares (R132) -/

/-- A compare into a predicate. -/
def memCmp (f : OpV) (l : List Nat) (g : Nat → Nat → Nat → Bool) : Member :=
  { check := needEw l, srcs := [f.va.toNat, f.vb.toNat], pdsts := [f.vd.toNat],
    run := fun s =>
      let w := ew s
      writePred s f.vd.toNat f.pred.toNat fun e =>
        (g w (el s f.va.toNat e w) (el s f.vb.toNat e w), elP s f.va.toNat e w || elP s f.vb.toNat e w) }

/-- `vceq`. -/
def cEq (w a b : Nat) : Bool := a % 2 ^ w == b % 2 ^ w
/-- `vclt`. -/
def cLt (w a b : Nat) : Bool := decide (signExt a w < signExt b w)
/-- `vcle`. -/
def cLe (w a b : Nat) : Bool := decide (signExt a w ≤ signExt b w)
/-- `vcltn`. -/
def cLtn (w a b : Nat) : Bool := decide (a % 2 ^ w < b % 2 ^ w)
/-- `vclen`. -/
def cLen (w a b : Nat) : Bool := decide (a % 2 ^ w ≤ b % 2 ^ w)
/-- `vfceq`. -/
def cFeq (w a b : Nat) : Bool := ((vfmt w).decode a).eq ((vfmt w).decode b)
/-- `vfclt`. -/
def cFlt (w a b : Nat) : Bool := ((vfmt w).decode a).lt ((vfmt w).decode b)
/-- `vfcle`. -/
def cFle (w a b : Nat) : Bool := cFlt w a b || cFeq w a b

/-! ### Conversions (R133 to R136) -/

/-- The width of a conversion source type code (R133). -/
def cvtSrcWidth (snap : Snap) (t : Nat) : Nat :=
  if t < 8 then 8 * 2 ^ (t % 4)
  else if t = 8 ∨ t = 9 then 16
  else if t = 10 then 32
  else if t = 11 then 64
  else containerOf snap.fmt[t % 4]

/-- The decode check of a conversion (R105, R113, R133, R134). -/
def cvtCheck (f : OpCv) (d : DCtx) : Option Cause :=
  let fn := f.fn.toNat
  let t := f.t.toNat
  let dstOk :=
    if fn < 2 then ewInt.contains d.ew
    else if fn = 2 then ewFp.contains d.ew
    else if fn = 3 then d.ew == 16
    else descValid d.snap.fmt[fn % 4] && containerOf d.snap.fmt[fn % 4] == d.ew
  let srcOk := t < 12 || descValid d.snap.fmt[t % 4]
  let ws := cvtSrcWidth d.snap t
  if dstOk && srcOk && decide (ws ≤ 8 * d.ew) && decide (f.va.toNat + (ws / d.ew - 1) < 32) then none else some .illegal

/-- An exact source value of a conversion: an integer or a floating value (R135). -/
inductive CvtVal where
  | int (v : Int)
  | flt (v : FVal)
  deriving DecidableEq, Repr

/-- A narrow element read with its scale when the descriptor has one (R115, R118). -/
def narrowVal (d : Word) (pat : Nat) (scale : Nat) : FVal :=
  let v := (descFmt d).decode (pat % 2 ^ descWid d)
  if descScl d = 0 then v
  else
    match scaleOf (descScl d) scale with
    | .nan => .nan
    | sc => v.mul sc

/-- Elements in a block of a scaled descriptor (R117). -/
def blockOf (d : Word) : Nat := if descScl d = 1 then 32 else if descScl d = 2 then 16 else 1

/-- Source element e of a conversion and its poison (R134, R136). -/
def cvtSrc (s : State) (f : OpCv) (e : Nat) : CvtVal × Bool :=
  let t := f.t.toNat
  let ws := cvtSrcWidth s.hart.cur.snap t
  let x := elG s f.va.toNat e ws
  let p := elGP s f.va.toNat e ws
  if t < 4 then (.int (signExt x ws), p)
  else if t < 8 then (.int (x : Int), p)
  else if t = 8 then (.flt (Fmt.h16.decode x), p)
  else if t = 9 then (.flt (Fmt.bf16.decode x), p)
  else if t = 10 then (.flt (Fmt.f32.decode x), p)
  else if t = 11 then (.flt (Fmt.f64.decode x), p)
  else
    let d := fmtReg s (t % 4)
    let j := e / blockOf d
    (.flt (narrowVal d x (scaleByte s (t % 4) j)), p || descScl d != 0 && scaleP s (t % 4) j)

/-- A value as a floating value. -/
def CvtVal.toF : CvtVal → FVal
  | .int v => FVal.ofInt v
  | .flt v => v

/-- The integer that a value converts to (R135). -/
def CvtVal.toInt (mode : Nat) (signed : Bool) (w : Nat) (v : CvtVal) : Int :=
  let clamp (x : Int) : Int := if signed then satS x w else satN x w
  match v with
  | .int x => clamp x
  | .flt .nan => 0
  | .flt (.inf n) => if n then clamp (-(2 ^ 80 : Nat)) else clamp (2 ^ 80 : Nat)
  | .flt (.fin n m e) => clamp (roundInt mode n m e)

/-- The unscaled destination pattern of a conversion (R135). -/
def cvtPat (s : State) (f : OpCv) (w : Nat) (v : CvtVal) : Nat :=
  let fn := f.fn.toNat
  let m := rmodeOf s
  if fn = 0 then wrapN (v.toInt m true w) w
  else if fn = 1 then wrapN (v.toInt m false w) w
  else if fn = 2 then (if w = 16 then Fmt.h16 else if w = 32 then Fmt.f32 else Fmt.f64).round m v.toF
  else if fn = 3 then Fmt.bf16.round m v.toF
  else (descFmt (fmtReg s (fn % 4))).round m v.toF

/-- The magnitude of a finite value as a rational. -/
def FVal.mag : FVal → Nat × Nat
  | .fin _ m e => (m * (pow2 e).1, (pow2 e).2)
  | _ => (0, 1)

/-- The larger of two magnitudes given as rationals. -/
def maxRat (a b : Nat × Nat) : Nat × Nat := if a.1 * b.2 ≤ b.1 * a.2 then b else a

/-- The scale byte of a block from its contributing values, and the pattern each value then has (R119). A descriptor whose MaxFin is zero
has no exponent and no quotient to derive a scale from: its scale byte is a free value. DESIGN CHOICE: log entry 93. -/
def deriveScale (d : Word) (mode : Nat) (vals : List FVal) : Nat × (FVal → Nat) :=
  let f := descFmt d
  let scl := descScl d
  if vals.any fun v => match v with
    | .fin _ _ _ => false
    | _ => true
  then ((if scl = 1 then 255 else 0x7F), fun _ => 0)
  else
    let amax := vals.foldl (fun a v => maxRat a v.mag) (0, 1)
    if amax.1 = 0 then (0, fun v => f.round mode v)
    else
      let mf := (f.decode f.maxFin).mag
      let free := (Config.scaleByte d amax.1 amax.2).toNat
      let scaled (c : Nat) (sn sd : Nat) : Nat × (FVal → Nat) :=
        (c, fun v => match v with
          | .fin n m e =>
            if m = 0 then f.round mode v
            else f.roundRat mode n (m * (pow2 e).1 * sd) ((pow2 e).2 * sn) true
          | v => f.round mode v true)
      if scl = 1 then
        let x := floorLog2 amax.1 amax.2 - floorLog2 mf.1 mf.2
        let c := if mf.1 = 0 then free % 255 else (min (max (x + 127) 0) 254).toNat
        let p := pow2 ((c : Int) - 127)
        scaled c p.1 p.2
      else
        let c0 := Fmt.e4m3.roundRat 2 false (amax.1 * mf.2) (amax.2 * mf.1)
        let c := if mf.1 = 0 then 1 + free % 0x7E else min c0 0x7E
        let sv := (Fmt.e4m3.decode c).mag
        scaled c sv.1 sv.2

/-- The contributing elements of block j: body elements below the limit that are active (R119). -/
def blockElems (s : State) (b j p : Nat) : List Nat :=
  (List.range b).filterMap fun i =>
    let e := j * b + i
    if s.hart.cur.vstart ≤ e ∧ e < limit s ∧ active s p e then some e else none

/-- The body elements of block j below the limit. -/
def blockBody (s : State) (b j : Nat) : List Nat :=
  (List.range b).filterMap fun i => if s.hart.cur.vstart ≤ j * b + i ∧ j * b + i < limit s then some (j * b + i) else none

/-- A conversion to a scaled narrow destination, block by block (R119, R123, R136): a poisoned contributing element poisons the scale byte
and every body element of its block. DEDUCED: log entry 98. -/
def cvtScaled (s : State) (f : OpCv) : State :=
  let n := f.fn.toNat % 4
  let d := fmtReg s n
  let b := blockOf d
  let w := ew s
  let hurt (e : Nat) : Bool := (cvtSrc s f e).2 || activeP s f.pred.toNat e
  let step (j : Nat) (t : State) : State :=
    let es := blockElems s b j f.pred.toNat
    if es.isEmpty then t
    else
      let pois := es.any hurt
      let r := deriveScale d (rmodeOf s) (es.map fun e => (cvtSrc s f e).1.toF)
      let t := setScale t n j r.1 pois
      let t := es.foldl (fun t e => setEl t f.vd.toNat e w (r.2 (cvtSrc s f e).1.toF) pois) t
      if pois then
        (blockBody s b j).foldl (fun t e => if active s f.pred.toNat e then t else setEl t f.vd.toNat e w (el t f.vd.toNat e w) true) t
      else t
  let o := openOld s f.vd.toNat
  let t := if limit s ≤ s.hart.cur.vstart then o else forUp (ceilDiv (limit s) b) 0 o step
  let t := bodyLoop t fun e t =>
    if active s f.pred.toNat e then t
    else if mz s then setEl t f.vd.toNat e w 0 (elP t f.vd.toNat e w && (blockElems s b (e / b) f.pred.toNat).any hurt || activeP s f.pred.toNat e)
    else if activeP s f.pred.toNat e then setEl t f.vd.toNat e w (el t f.vd.toNat e w) true
    else t
  tail t f.vd.toNat w

/-- `vcvt` (R133 to R136). -/
def memCvt (f : OpCv) : Member :=
  { check := cvtCheck f,
    dsts := [f.vd.toNat],
    sized := fun d => [(f.va.toNat, max 1 (cvtSrcWidth d.snap f.t.toNat / d.ew))],
    block := fun d => if f.fn.toNat < 4 then 1 else blockOf d.snap.fmt[f.fn.toNat % 4],
    run := fun s =>
      let w := ew s
      if 4 ≤ f.fn.toNat ∧ descScl (fmtReg s (f.fn.toNat % 4)) ≠ 0 then cvtScaled s f
      else writeVec s f.vd.toNat w f.pred.toNat fun e => (cvtPat s f w (cvtSrc s f e).1, (cvtSrc s f e).2) }

/-! ### Permutes (R137, R138) -/

/-- A permute: the element index of the source register each body element takes, or zero, or unchanged. -/
inductive Pick where
  | from (r e : Nat) (alsoPoisoned : Bool)
  | zero (poisoned : Bool)
  | keep
  deriving DecidableEq, Repr

/-- A permute written under R106. -/
def memPermute (f : OpV) (l : List Nat) (srcs : List Nat) (g : State → Nat → Nat → Pick) : Member :=
  { check := needEw l, whole := true, srcs := srcs, dsts := [f.vd.toNat],
    run := fun s =>
      let w := ew s
      let o := openOld s f.vd.toNat
      writeVec s f.vd.toNat w f.pred.toNat fun e =>
        match g s w e with
        | .from r i p => (el s r i w, elP s r i w || p)
        | .zero p => (0, p)
        | .keep => (el o f.vd.toNat e w, elP o f.vd.toNat e w) }

/-- `vlmax` of the convoy's `vtype`. -/
def curVlmax (s : State) : Nat := vlmaxFor s s.hart.cur.vtype

/-- `vperm`. -/
def pkPerm (f : OpV) (s : State) (w e : Nat) : Pick :=
  let i := el s f.vb.toNat e w
  let p := elP s f.vb.toNat e w
  if i < curVlmax s then .from f.va.toNat i p else .zero p

/-- `vslideup`. -/
def pkUp (f : OpV) (s : State) (_ e : Nat) : Pick :=
  let off := (srcX s f.vb).toNat
  if off ≤ e then .from f.va.toNat (e - off) false else .keep

/-- `vslidedown`. -/
def pkDown (f : OpV) (s : State) (_ e : Nat) : Pick :=
  let off := (srcX s f.vb).toNat
  if e + off < curVlmax s then .from f.va.toNat (e + off) false else .zero false

/-- The number of active elements below e, and whether one of their predicate bits is poisoned. -/
def activeBelow (s : State) (p : Nat) : Nat → Nat × Bool
  | 0 => (0, false)
  | e + 1 =>
    let r := activeBelow s p e
    (r.1 + (if active s p e then 1 else 0), r.2 || activeP s p e)

/-- `vexpand`. DEDUCED: log entry 94. -/
def pkExpand (f : OpV) (s : State) (_ e : Nat) : Pick :=
  let r := activeBelow s f.pred.toNat e
  .from f.va.toNat r.1 r.2

/-- `vmv`. -/
def pkMv (f : OpV) (_ : State) (_ e : Nat) : Pick := .from f.va.toNat e false

/-- `vzip`. -/
def pkZip (f : OpV) (_ : State) (_ e : Nat) : Pick :=
  if e % 2 = 0 then .from f.va.toNat (e / 2) false else .from f.vb.toNat ((e - 1) / 2) false

/-- `vunzip`. -/
def pkUnzip (f : OpV) (s : State) (_ e : Nat) : Pick :=
  if 2 * e < s.hart.cur.vl then .from f.va.toNat (2 * e) false else .from f.vb.toNat (2 * e - s.hart.cur.vl) false

/-- `vcompress` (R138): selects; elements from the count up to `vl`, and the tail, follow TZ. A poisoned predicate bit poisons the
packed elements whose source element lies at or above it, and none of the elements from the count on. DEDUCED: log entry 107. -/
def memCompress (f : OpV) : Member :=
  { check := needEw ewInt, whole := true, srcs := [f.va.toNat], dsts := [f.vd.toNat],
    run := fun s =>
      let w := ew s
      if s.hart.cur.vl ≤ s.hart.cur.vstart then s
      else
        let r := forUp s.hart.cur.vl 0 ((0, openOld s f.vd.toNat, false) : Nat × State × Bool) fun e a =>
          let pois := a.2.2 || activeP s f.pred.toNat e
          if active s f.pred.toNat e then
            (a.1 + 1, setEl a.2.1 f.vd.toNat a.1 w (el s f.va.toNat e w) (elP s f.va.toNat e w || pois), pois)
          else (a.1, a.2.1, pois)
        if tz s then zeroTail r.2.1 f.vd.toNat (r.1 * w) else r.2.1 }

/-! ### Reductions (R139, R140) -/

/-- One level of the pairwise tree. -/
def foldLevel (g : Nat → Nat → Nat) : List (Option Nat) → List (Option Nat)
  | a :: b :: l =>
    (match a, b with
      | some x, some y => some (g x y)
      | some x, none => some x
      | none, y => y) :: foldLevel g l
  | l => l

/-- The pairwise tree over element indices: level by level until one node is left (R139). -/
def foldTree (g : Nat → Nat → Nat) : Nat → List (Option Nat) → Option Nat
  | _, [] => none
  | _, [a] => a
  | 0, a :: _ => a
  | n + 1, l => foldTree g n (foldLevel g l)

/-- Element e of a register has no result: a member that was performed since a condition below was found writes it (R90). -/
def unmade (s : State) (r e : Nat) : Bool := s.hart.cur.cut.contains r && decide (limit s ≤ e)

/-- A reduction to a scalar: POISON at `vstart` when something it reads is poisoned (R123). -/
def memFold (f : OpV) (l : List Nat) (rd : Nat → Nat → Nat) (g : Nat → Nat → Nat → Nat → Nat) (empty : Nat → Nat)
    (fin : Nat → Nat → Nat) : Member :=
  { check := needEw l, whole := true, srcs := [f.va.toNat], hurt := hurtScalar,
    run := fun s =>
      let w := ew s
      let es := List.range s.hart.cur.vl
      let p := f.pred.toNat
      if es.any fun e => activeP s p e && !unmade s (32 + p) e || active s p e && elP s f.va.toNat e w && !unmade s f.va.toNat e then
        raise s s.hart.cur.vstart ⟨.poison, 0⟩
      else
        let t := es.map fun e => if active s p e then some (rd w (el s f.va.toNat e w)) else none
        writeX s f.vd (W (match foldTree (g (rmodeOf s) w) s.hart.cur.vl t with
          | some r => fin w r
          | none => empty w)) }

/-- A sign-extended pattern as a 64-bit pattern. -/
def sx64 (w a : Nat) : Nat := wrapN (signExt a w) 64

/-- A NaN result is written as the canonical NaN (R140). -/
def canonNan (w a : Nat) : Nat := if ((vfmt w).decode a).isNan then (vfmt w).nan else a

/-! ### Predicate operations (R141) -/

/-- Bit e of a predicate operand, with its poison; `p0` is all ones. -/
def pbit (s : State) (r e : Nat) : Bool × Bool := (active s r e, activeP s r e)

/-- A predicate operation on two predicates. -/
def memPred2 (f : OpV) (g : Bool → Bool → Bool) : Member :=
  { check := fun _ => none, pdsts := [f.vd.toNat],
    run := fun s =>
      writePred s f.vd.toNat f.pred.toNat fun e =>
        let a := pbit s f.va.toNat e
        let b := pbit s f.vb.toNat e
        (g a.1 b.1, a.2 || b.2) }

/-- `plt`. -/
def pltMember (f : OpV) : Member :=
  { check := fun _ => none, pdsts := [f.vd.toNat],
    run := fun s => writePred s f.vd.toNat f.pred.toNat fun e => (decide (e < (srcX s f.va).toNat), false) }

/-- `pgetsm`. -/
def getsmMember (f : OpV) : Member :=
  { check := fun _ => none, pdsts := [f.vd.toNat],
    run := fun s => writePred s f.vd.toNat 0 fun e => (bitN s.hart.psm.toNat e, false) }

/-- The bits of a predicate below `vl` are free of poison. -/
def predClean (s : State) (r : Nat) : Bool := (List.range s.hart.cur.vl).all fun e => !activeP s r e || unmade s (32 + r) e

/-- `pcount`. -/
def countMember (f : OpV) : Member :=
  { check := fun _ => none, hurt := hurtScalar,
    run := fun s =>
      if s.hart.cur.stop != none then s
      else if predClean s f.va.toNat then
        writeX s f.vd (W ((List.range s.hart.cur.vl).countP fun e => active s f.va.toNat e))
      else raise s s.hart.cur.vstart ⟨.poison, 0⟩ }

/-- `pfirst`. -/
def firstMember (f : OpV) : Member :=
  { check := fun _ => none, hurt := hurtScalar,
    run := fun s =>
      if s.hart.cur.stop != none then s
      else if predClean s f.va.toNat then
        writeX s f.vd (match (List.range s.hart.cur.vl).find? fun e => active s f.va.toNat e with
          | some e => W e
          | none => BitVec.allOnes 64)
      else raise s s.hart.cur.vstart ⟨.poison, 0⟩ }

end Sys2Proof.Machine
end

