-- ==== Sys2Proof/Machine/Flags.lean ====
section
/-! DEFINITION. Status that instructions set beside their results: dirty maps, `repro.SEEN`, the `psm` mirror, `mflags.OF`, the
persist epoch, and the order of traps among the queues (R29, R56, R88, R292). -/

namespace Sys2Proof.Machine

/-- The class-S registers of the hart as a snapshot (R52). -/
def curSnap (h : Hart) : Snap := { memfmt := h.memfmt, fmt := h.fmt, rmode := h.rmode, repro := h.repro, tilen := h.tilen }

/-- `repro.EN` of a snapshot (R29). -/
def reproEn (p : Snap) : Bool := bitN p.repro.toNat 0

/-- Set `repro.SEEN` (R29). -/
def setSeen (s : State) : State := { s with hart := { s.hart with repro := s.hart.repro ||| 2 } }

/-- A summary register becomes dirty (R56). -/
def dirtyS (s : State) (n : Nat) : State :=
  { s with hart := { s.hart with sdirty := s.hart.sdirty ||| BitVec.ofNat 16 (2 ^ (n % 16)) } }

/-- A tile becomes dirty (R56). -/
def dirtyM (s : State) (n : Nat) : State :=
  { s with hart := { s.hart with mdirty := s.hart.mdirty ||| BitVec.ofNat 4 (2 ^ (n % 4)) } }

/-- `mflags.OF` (R56). -/
def setOF (s : State) : State := { s with hart := { s.hart with mflags := 1 } }

/-- The index of the lowest set bit below `n`, from `i`, or `none`. -/
def lowestBit (v : Nat) : Nat → Nat → Option Nat
  | 0, _ => none
  | n + 1, i => if bitN v i then some i else lowestBit v n (i + 1)

/-- The `psm` mirror (R56): ANY in bit 63, FIRST in bits 14:0. -/
def psmMirror (v : BitVec 16384) : Word :=
  if v = 0 then 0 else W (2 ^ 63 + (lowestBit v.toNat 16384 0).getD 0)

/-- The epochs of the hart that hold Loft stores not yet durable, its queued Loft stores included (R292). -/
def openEpochs (s : State) : List Nat :=
  let a := (s.loftPend.filter fun l => owns s s.hart l.gang l.hart).map fun l => l.epoch
  let b := (s.hart.storeQ.filter fun q => isLoftKey q.key).map fun q => q.epoch
  (a ++ b).foldl (fun l e => insertN e l) []

/-- The next epoch boundary must wait: sixteen epochs hold Loft stores that are not durable (R292). -/
def epochFull (s : State) : Bool := decide (16 ≤ (openEpochs s).length)

/-- Every Loft store of the hart of epoch `n` or below is durable: none is queued, combining or pending (R291, R292). -/
def durableUpTo (s : State) (n : Nat) : Bool :=
  (openEpochs s).all (fun e => decide (n < e)) &&
  s.combining.all fun c => !isLoftKey c.key || !owns s s.hart c.gang c.hart || decide (n < c.epoch)

/-- Advance the persist epoch by `n` boundaries (R292). -/
def nextEpoch (s : State) (n : Nat) : State := { s with hart := { s.hart with epoch := s.hart.epoch + n } }

/-- The oldest free value, and the counter moved on (log entry 5). -/
def takeFree (s : State) : Nat × State := (s.free, { s with free := s.free + 1 })

end Sys2Proof.Machine
end

