-- ==== Sys2Proof/Machine/Convoy.lean ====
section
/-! DEFINITION. Convoys: posting, the registers that stream records bind, performing the members, retirement, and the stop of the
vector queue at an element (R19, R20, R52, R53, R90, R91, R252 to R255). -/

namespace Sys2Proof.Machine

/-- The `vtype` under which the next convoy would run: the sequencer knows it, because `vsl` acts in the sequencer (R105). -/
def seqVtype (h : Hart) : BitVec 14 :=
  match h.pend with
  | some p => p.2
  | none =>
    match (h.vq.filterMap fun c => if ofRole h c.addr then c.setVl else none).getLast? with
    | some p => p.2
    | none => h.vtype

/-- What the sequencer knows at decode (R49, R105). -/
def dctx (s : State) : DCtx :=
  { ew := ewOf (seqVtype s.hart), snap := curSnap s.hart, vrlen := vrlen s, tiles := tilesPerStall s }

/-- The scalar registers that a member or entry reads at posting (R121, R247). -/
def xsrcOf : Instr → List (BitVec 5)
  | .vaddVx f | .vsubVx f | .vrsubVx f | .vmulVx f | .vandVx f | .vorVx f | .vxorVx f | .vsllVx f | .vsrlVx f | .vsraVx f
  | .vminVx f | .vmaxVx f | .vfaddVx f | .vfmulVx f | .vfmaVx f | .vbcast f => [f.xb]
  | .vslideup f | .vslidedown f => [f.vb]
  | .plt f => [f.va]
  | .vld f | .vldFf f | .vfill f | .vldXn f | .vldXtn f | .vst f | .vspill f | .vstXn f | .vstXtn f => [f.a]
  | .vlds f | .vsts f => [f.a, f.b]
  | .vldc f | .vstc f => [f.a, f.a + 1]
  | .vcopy f => [f.a, f.vd]
  | .vldx f | .vstx f => [f.a]
  | .awinDecl f => [f.a, f.b]
  | .supdWes f => [f.b]
  | .sdecl f | .sqBksItems f | .sqQnt f | .sqWes f => [f.a]
  | .sst f => [f.a, f.b]
  | .sld f | .smergeM f => [f.a]
  | .scmt f => [f.a, f.b]
  | .shalloc f | .shfree f | .shstat f => [f.a]
  | .shallocM f => [f.a, f.b]
  | .mgrow f => [f.vb, f.vd]
  | .mrowGet f | .mrowPut f | .mcolGet f | .mcolPut f => [f.vb]
  | .mld f | .mst f => [f.va, f.vb]
  | .astOpen f | .astClose f | .arBind f | .acol f | .asend f | .arecv f => [f.a]
  | .astRun f | .aflip f => [f.a, f.b]
  | _ => []

/-- The epoch boundaries that posting an instruction passes, and how many of them lie before its own stores (R292). -/
def epochSteps : Instr → Nat × Nat
  | .dpb _ => (1, 0)
  | .scmt _ => (2, 1)
  | .vamoSwap f | .vamoAdd f | .vamoAnd f | .vamoOr f | .vamoXor f | .vamoMin f | .vamoMax f | .vamoMinn f | .vamoMaxn f
  | .vamoCas f | .vamoFadd f | .vamoFmin f | .vamoFmax f => if f.rl && f.sc == 6 then (1, 1) else (0, 0)
  | _ => (0, 0)

/-- Boundaries of all members. -/
def epochTotal (l : List Instr) : Nat × Nat :=
  l.foldl (fun a i => (a.1 + (epochSteps i).1, a.2 + (epochSteps i).2)) (0, 0)

/-- The convoy that posting makes of members at the program counter (R52). -/
def mkConvoy (s : State) (is : List Instr) : Convoy :=
  { addr := s.hart.pc, members := is, snap := curSnap s.hart, setVl := s.hart.pend, xs := s.hart.x,
    epoch := s.hart.epoch + (epochTotal is).2, binds := s.hart.binds, zero := s.hart.unbound, taken := none, waited := [], held := [], phase := 0, commit := (0, 0),
    origin := origAddr s.hart s.hart.pc, aqAhead := s.hart.aq.length, hurt := [], differs := [], parts := [], passed := [] }

/-- The convoy enters the vector queue, and the sequencer goes on after its `len` bytes (R20, R52). -/
def postConvoy (s : State) (is : List Instr) (len : Nat) : State :=
  let c := mkConvoy s is
  { s with hart := { s.hart with
      vq := s.hart.vq ++ [c], pend := none, park := none, unbound := [],
      pc := s.hart.pc + W (if s.hart.splice.isSome then 8 * is.length else len),
      epoch := s.hart.epoch + (epochTotal is).1 } }

/-- What keeps the sequencer from posting: a held source, a full queue, or the bound on open epochs (R20, R121, R292). -/
def postWait (s : State) (is : List Instr) : Option Park :=
  if anyHeld s (is.flatMap xsrcOf) then some .held
  else if 256 ≤ s.hart.vq.length then some .full
  else if (epochTotal is).1 ≠ 0 ∧ epochFull s then some .epoch
  else none

/-- Registers whose binding has ended read zero in every byte, and become dirty (R252). -/
def zeroRegs (s : State) (l : List Nat) : State := l.foldl (fun s r => setReg s r 0 0) s

/-- The context in which the members of a convoy run (R52). -/
def beginConvoy (s : State) (c : Convoy) : State :=
  let p := c.setVl.getD (s.hart.vl, s.hart.vtype)
  let s := zeroRegs s c.zero
  { s with hart := { s.hart with cur := {
      snap := c.snap, xs := c.xs, epoch := c.epoch, binds := c.binds, vl := p.1, vtype := p.2, vstart := s.hart.vstart,
      stop := none, fault := none, index := 0, hurt := c.hurt, differs := c.differs, parts := c.parts, passed := c.passed, old := [], wait := none, waitAt := 0, waited := c.waited, held := c.held,
      taken := c.taken, phase := c.phase, commit := c.commit, addr := c.addr, blame := none, cut := [], walked := [], aqAhead := c.aqAhead, vlStart := p.1 } } }

/-! ### Bound registers (R252 to R255, R262) -/

/-- The binding of a register in the convoy that is performed. -/
def bindOf (s : State) (r : Nat) : Option Bind := (s.hart.cur.binds.find? fun b => b.1 == r).map fun b => b.2

/-- The open record with a handle. -/
def streamOf (s : State) (h : Nat) : Option Stream := s.hart.streams.find? fun r => r.handle == h

/-- Replace an open record. -/
def setStream (s : State) (r : Stream) : State :=
  { s with hart := { s.hart with streams := s.hart.streams.map fun q => if q.handle = r.handle then r else q } }

/-- The collective in progress whose route table lies at an address. -/
def collOf (s : State) (table : Word) : Option Coll :=
  s.hart.aq.findSome? fun e =>
    match e.instr, e.progress with
    | .acol f, .coll c => if e.xs[f.a.toNat] = table ∧ f.a ≠ 0 then some c else none
    | _, _ => none

/-- Replace the collective whose route table lies at an address. -/
def setColl (s : State) (table : Word) (c : Coll) : State :=
  { s with hart := { s.hart with aq := s.hart.aq.map fun e =>
      match e.instr, e.progress with
      | .acol f, .coll _ => if e.xs[f.a.toNat] = table ∧ f.a ≠ 0 then { e with progress := .coll c } else e
      | _, _ => e } }

/-- An `acol` entry with this route table is still queued (R262). -/
def collQueued (s : State) (table : Word) : Bool :=
  s.hart.aq.any fun e =>
    match e.instr with
    | .acol f => e.xs[f.a.toNat] == table && f.a != 0
    | _ => false

/-- The trap value of STREAM at a bound register: the record or route-table address (R255, R262). -/
def bindAddr (s : State) : Bind → Word
  | .stream h => ((streamOf s h).map fun r => r.recAddr).getD 0
  | .window t => t

/-- Give the member its chunk for a bound source register: the chunk stands in the register while the member runs (R253). -/
def takeChunk (s : State) (r : Nat) : State :=
  let k := s.hart.cur.vstart
  match bindOf s r with
  | none => s
  | some (.stream h) =>
    match streamOf s h with
    | none => raise s k ⟨.stream, 0⟩
    | some st =>
      if st.out then raise s k ⟨.stream, st.recAddr⟩
      else
        match st.ring with
        | c :: rest => setReg (setStream s { st with ring := rest }) r c.val c.cells
        | [] => if st.exhausted then raise s k ⟨.stream, st.recAddr⟩ else mustWait s (some st.recAddr)
  | some (.window t) =>
    match collOf s t with
    | some c =>
      if c.failed then raise s k ⟨.nonrepro, W (0x8000000000000000 + r)⟩
      else
        match c.outq with
        | x :: rest => setReg (setColl s t { c with outq := rest }) r x.val x.cells
        | [] => mustWait s (some t)
    | none =>
      if collQueued s t then mustWait s (some t)
      else if s.hart.winFailed.contains t then raise s k ⟨.nonrepro, W (0x8000000000000000 + r)⟩
      else raise s k ⟨.stream, t⟩

/-- The result so far of a bound destination of the member that is performed: zero before its first element (R254). -/
def partOf (s : State) (r : Nat) : Chunk :=
  ((s.hart.cur.parts.find? fun p => p.1 == 32 * s.hart.cur.index + r % 32).map fun p => p.2).getD { val := 0, cells := 0 }

/-- Give a bound destination its old value (R254): in the register itself, or beside it when the member reads a chunk there (R262). -/
def setOld (s : State) (r : Nat) (both : Bool) : State :=
  let c := partOf s r
  if both then { s with hart := { s.hart with cur := { s.hart.cur with old := (r % 32, c) :: s.hart.cur.old } } }
  else setReg s r c.val c.cells

/-- Check a bound destination: an in-bound register, a full ring or a window that is gone (R254, R255, R262), and give it its old value;
`both` says that the member reads a chunk in it too. -/
def openDst (m : Member) (both : Bool) (s : State) (r : Nat) : State :=
  let k := s.hart.cur.vstart
  match bindOf s r with
  | none => s
  | some (.stream h) =>
    match streamOf s h with
    | none => raise s k ⟨.stream, 0⟩
    | some st =>
      if !st.out || m.readsDst then raise s k ⟨.stream, st.recAddr⟩
      else if st.rbytes / st.ch ≤ st.ring.length then mustWait s (some st.recAddr)
      else setOld s r both
  | some (.window t) =>
    match collOf s t with
    | some c => if c.failed then raise s k ⟨.nonrepro, W (0x8000000000000000 + r)⟩ else setOld s r both
    | none =>
      if collQueued s t then mustWait s (some t)
      else if s.hart.winFailed.contains t then raise s k ⟨.nonrepro, W (0x8000000000000000 + r)⟩
      else raise s k ⟨.stream, t⟩

/-- Push the result in a bound destination (R254, R262). -/
def pushDst (s : State) (r : Nat) : State :=
  let chunk (ch : Nat) : Chunk :=
    { val := s.hart.v[r % 32].toNat % 2 ^ (8 * ch), cells := s.hart.vp[r % 32].toNat % 2 ^ (4 * ch) }
  match bindOf s r with
  | some (.stream h) =>
    match streamOf s h with
    | some st => setStream s { st with ring := st.ring ++ [chunk st.ch] }
    | none => s
  | some (.window t) =>
    match collOf s t with
    | some c => setColl s t { c with inq := c.inq ++ [chunk c.ch] }
    | none => s
  | none => s

/-- The registers of a list that are bound, each once. -/
def boundOf (s : State) (l : List Nat) : List Nat := l.eraseDups.filter fun r => (bindOf s r).isSome

/-- A bound register that receives chunks (R252). -/
def isInBound (s : State) (r : Nat) : Bool :=
  match bindOf s r with
  | some (.stream h) => ((streamOf s h).map fun st => !st.out).getD false
  | _ => false

/-- A register is bound as a window (R262). -/
def isWindowBound (s : State) (r : Nat) : Bool :=
  match bindOf s r with
  | some (.window _) => true
  | _ => false

/-- Keep the results so far of bound destinations (R90, R254). -/
def keepParts (s : State) (l : List Nat) : State :=
  { s with hart := { s.hart with cur := { s.hart.cur with
      parts := l.map (fun r => (32 * s.hart.cur.index + r % 32,
        { val := s.hart.v[r % 32].toNat, cells := s.hart.vp[r % 32].toNat : Chunk })) ++ s.hart.cur.parts } } }

/-- Perform a member whose convoy carries bindings: chunks stand in the bound registers while it runs, results of bound destinations
are pushed, and the registers themselves are not changed (R252 to R255). -/
def runBound (m : Member) (d : DCtx) (s : State) : State :=
  let single := (m.sized d).filterMap fun g => if g.2 = 1 then some g.1 else none
  let grouped := m.groups ++ (m.sized d).flatMap fun g => if g.2 = 1 then [] else (List.range g.2).map (g.1 + ·)
  match grouped.findSome? (bindOf s) with
  | some b => raise s s.hart.cur.vstart ⟨.stream, bindAddr s b⟩
  | none =>
    let srcs := boundOf s (m.srcs ++ single ++ (if m.readsDst then m.dsts.filter (isWindowBound s) else []))
    let dsts := (boundOf s m.dsts).filter fun r => s.hart.cur.vstart < s.hart.cur.vl || !isInBound s r
    let t := srcs.foldl takeChunk s
    let t := dsts.foldl (fun t r => openDst m (srcs.contains r) t r) t
    if t.hart.cur.wait.isSome || (t.hart.cur.fault != s.hart.cur.fault) then
      { s with hart := { s.hart with cur := { s.hart.cur with
          wait := t.hart.cur.wait, waitAt := t.hart.cur.waitAt, fault := t.hart.cur.fault } } }
    else
      let t := m.run t
      let t := dsts.foldl pushDst (keepParts t dsts)
      let t := { t with hart := { t.hart with cur := { t.hart.cur with old := [] } } }
      (srcs ++ dsts).foldl (fun t r =>
        { t with hart := { t.hart with
            v := t.hart.v.set (r % 32) s.hart.v[r % 32] (Nat.mod_lt _ (by decide)),
            vp := t.hart.vp.set (r % 32) s.hart.vp[r % 32] (Nat.mod_lt _ (by decide)),
            vdirty := (t.hart.vdirty &&& ~~~(BitVec.ofNat 32 (2 ^ (r % 32)))) |||
              (s.hart.vdirty &&& BitVec.ofNat 32 (2 ^ (r % 32))) } }) t

/-- The decode context of the convoy that is performed. -/
def curDctx (s : State) : DCtx :=
  { ew := ew s, snap := s.hart.cur.snap, vrlen := vrlen s, tiles := tilesPerStall s }

/-- The width of the widest element of a member in bits (R53). -/
def widest (d : DCtx) (m : Member) : Nat := d.ew * (m.sized d).foldl (fun a g => max a g.2) 1

/-- The first element of element group `g` of a member (R53). -/
def groupStart (s : State) (m : Member) (g : Nat) : Nat := g * (8 * groupBytes s) / widest (curDctx s) m

/-- Ones in the cells of `n` bits from bit `lo`: two bits to a cell. -/
def cellMask (lo n : Nat) : Nat := (2 ^ (n / 2) - 1) * 2 ^ (lo / 2)

/-- A store of the elements from `a` up to, not including, `b` is poison; of a whole member, every store. -/
def hurtStore (m : Member) (a b : Nat) (st : PStore) : PStore :=
  if m.whole || decide (a ≤ st.elem) && decide (st.elem < b) then { st with poison := true, whole := false } else st

/-- A held store of which the elements from `a` up to, not including, `b` are poison. -/
def hurtLinked (a b : Nat) (k : Linked) : Linked :=
  { k with data := { k.data with cells := k.data.cells ||| cellMask (a * k.ew) ((b - a) * k.ew) },
           placed := k.placed.zipIdx.map fun p =>
             if decide (a ≤ k.lo + p.2) && decide (k.lo + p.2 < b) then p.1.map fun st => { st with poison := true, whole := false } else p.1 }

/-- Element group `g` of the results of a member is poison, `t` being the state after it and `s` the state before: the elements of its
vector and predicate destinations, the stores of those elements, and what else the member writes (R123, R346, R347). -/
def hurtGroup (s : State) (m : Member) (t : State) (g : Nat) : State :=
  let a := groupStart s m g
  let b := groupStart s m (g + 1)
  let held := (s.hart.splice.map fun sp => sp.linked.length).getD 0
  let t := m.dsts.foldl (fun s r =>
    { s with hart := { s.hart with
        vp := s.hart.vp.set (r % 32) (s.hart.vp[r % 32]'(Nat.mod_lt _ (by decide)) ||| BitVec.ofNat 16384 (cellMask (a * ew s) ((b - a) * ew s)))
          (Nat.mod_lt _ (by decide)) } }) t
  let t := m.pdsts.foldl (fun s r =>
    { s with hart := { s.hart with
        pp := s.hart.pp.set (r % 16) (s.hart.pp[r % 16]'(Nat.mod_lt _ (by decide)) ||| BitVec.ofNat 16384 ((2 ^ (b - a) - 1) * 2 ^ a))
          (Nat.mod_lt _ (by decide)) } }) t
  m.hurt g { t with hart := { t.hart with
    storeQ := t.hart.storeQ.take s.hart.storeQ.length ++ (t.hart.storeQ.drop s.hart.storeQ.length).map (hurtStore m a b),
    splice := t.hart.splice.map fun sp => { sp with linked := sp.linked.take held ++ (sp.linked.drop held).map (hurtLinked a b) } } }

/-- A micro-operation of the member failed again when it was re-executed: its result group is poison, whatever value it has; a member that
writes a scalar register traps POISON (R123, R346, R347). DEDUCED: log entry 55. -/
def hurtMember (s t : State) (m : Member) : State :=
  ((s.hart.cur.hurt.filter fun p => p.1 == s.hart.cur.index).map fun p => p.2).foldl (hurtGroup s m) t

/-- The member as its convoy performs it: failed groups are poisoned before a bound destination is pushed (R347). -/
def withHurt (m : Member) : Member := { m with run := fun s => hurtMember s (m.run s) m }

/-- The vector registers that a member reads. -/
def readsOf (d : DCtx) (m : Member) : List Nat :=
  m.srcs ++ m.groups ++ ((m.sized d).flatMap fun g => (List.range g.2).map (g.1 + ·)) ++ if m.readsDst then m.dsts else []

/-- The compare that a member has to wait for: it reads a register into which the row of a tile went whose copies differ (R204, R351). -/
def unverifiedRead (s : State) (m : Member) : Option (Nat × Nat × Nat) :=
  s.hart.unverified.find? fun u => (readsOf (curDctx s) m).contains u.1

/-- The first element of the member's lowest group whose two copies differ after the retry (R351). -/
def groupDiffers (s : State) (m : Member) : Option Nat :=
  ((s.hart.cur.differs.filter fun p => p.1 == s.hart.cur.index).map fun p => max (groupStart s m p.2) s.hart.cur.vstart).min?

/-- The compares that fail before the member's results: MISMATCH with i × `tlen` for a row that a register came from, MISMATCH with the element for
a group of its own (R204, R351). -/
def compareMember (s : State) (m : Member) : State :=
  let s := match unverifiedRead s m with
    | some u => raise s s.hart.cur.vstart ⟨.mismatch, W (128 * u.2.2)⟩
    | none => s
  match groupDiffers s m with
  | some k => if k < s.hart.cur.vl then raise s k ⟨.mismatch, W k⟩ else s
  | none => s

/-- The member has been performed: the next one follows; while a condition or a stop stands, its destinations have no result from there on (R90). -/
def nextMember (t : State) (m : Member) : State :=
  { t with hart := { t.hart with cur := { t.hart.cur with
      index := t.hart.cur.index + 1,
      cut := if t.hart.cur.fault.isSome || t.hart.cur.stop.isSome then t.hart.cur.cut ++ m.dsts ++ m.pdsts.map (32 + ·) else t.hart.cur.cut } } }

/-- Perform one member, unless an earlier one waits (R53). -/
def runMember (s : State) (m : Member) : State :=
  if s.hart.cur.wait.isSome then s
  else
    let s := compareMember s m
    let m := withHurt m
    nextMember (if s.hart.cur.binds.isEmpty then m.run s else runBound m (curDctx s) s) m

/-- Perform the members in order: a later member reads the results of the earlier ones (R121). -/
def runMembers (s : State) (ms : List Member) : State := ms.foldl runMember s

/-- The block boundary at which a convoy with scaled conversions stops in place of element k (R136). -/
def stopBoundary (d : DCtx) (ms : List Member) (vstart k : Nat) : Nat :=
  ms.foldl (fun k m => max (k / m.block d * m.block d) vstart) k

/-- Micro-operations of the convoys behind the head, once the head has retired. -/
def nextUops (l : List (Nat × Nat)) : List (Nat × Nat) := (l.filter fun u => u.1 != 0).map fun u => (u.1 - 1, u.2)

/-- The convoy at the head retires: its results stand, `vl` is what it leaves, `vstart` becomes 0 (R53, R55). -/
def retire (s r : State) (n : Nat) : State :=
  let last := r.hart.vq.length ≤ 1
  let r := if last then zeroRegs r r.hart.unbound else r
  { r with hart := { r.hart with
      vq := r.hart.vq.drop 1, vl := r.hart.cur.vl, vtype := r.hart.cur.vtype, vstart := 0, cur := s.hart.cur, vwait := none,
      await := none, park := none, aq := r.hart.aq.map fun e => { e with vqAhead := e.vqAhead - 1 },
      unbound := if last then [] else r.hart.unbound,
      renamed := r.hart.renamed.drop 1, issued := nextUops r.hart.issued, complete := nextUops r.hart.complete, pins := r.hart.pins.filter fun p => p.queue != .vector,
      instret := r.hart.instret + W n } }

/-- The convoy keeps its place, with what it has so far: a pennant taken, elements waited for, the phase of a commit (R39, R179,
R298). Once a commit has begun to release its stores, what it has released stands. -/
def keepHead (s r : State) (c : Convoy) : State :=
  let c' := { c with taken := r.hart.cur.taken, waited := r.hart.cur.waited, held := r.hart.cur.held,
                     phase := r.hart.cur.phase, commit := r.hart.cur.commit }
  let b := if r.hart.cur.phase ≠ 0 then r else s
  { b with hart := { b.hart with
      vq := c' :: s.hart.vq.drop 1, pennants := r.hart.pennants, vwait := some (r.hart.cur.wait.getD none), cur := s.hart.cur,
      park := if r.hart.pennants = s.hart.pennants then s.hart.park else none } }

/-- The linked stores that a splice holds (R340). -/
def heldStores (s : State) : List Linked := (s.hart.splice.map fun sp => sp.linked).getD []

/-- Run a member on the first state; what its check has decided stands in the second as well: held stores that a failed check has
released, and those that a passed check keeps for the end of the iteration (R340, R345). -/
def keepRelease (a : State × State) (m : Member) : State × State :=
  let t := runMember a.1 m
  let decided (k : Linked) : Option Linked := (heldStores t).find? fun q => { q with forwarded := k.forwarded } = k
  if (heldStores t).length < (heldStores a.1).length ∨ (heldStores a.2).any (fun k => (decided k).any fun q => q.forwarded != k.forwarded) then
    (t, { a.2 with hart := { a.2.hart with
        storeQ := a.2.hart.storeQ ++ (if (heldStores t).length < (heldStores a.1).length then t.hart.storeQ.drop a.1.hart.storeQ.length else []),
        splice := a.2.hart.splice.map fun sp => { sp with linked := sp.linked.filterMap decided } } })
  else (t, a.2)

/-- Pins of a convoy that end below element `k`: their elements have completed (R98). -/
def dropPins (k : Nat) (l : List Pin) : List Pin :=
  l.filter fun p => !(p.queue == .vector && ((p.until').map fun e => decide (e.2 < k)).getD false)

/-- What a convoy keeps when it is stopped: its posted `vl` and `vtype`; of one of whose elements some have been committed (`kept` is false), the partial
results of its bound destinations, and its ended bindings have been zeroed; what it has observed is observed again, a commit starts again, and checks that have
passed are not made again (R52, R90, R91, R252, R300, R345). -/
def stoppedConvoy (c : Convoy) (kept : Bool) (p : Nat × BitVec 14) (parts : List (Nat × Chunk)) (passed : List Nat)
    (taken : Option (BitVec 32)) : Convoy :=
  { c with setVl := some p, taken := taken, passed := passed, zero := if kept then c.zero else [], parts := if kept then c.parts else parts, waited := [], held := [],
           phase := 0, commit := (0, 0), hurt := [], differs := [] }

/-- The tile whose copies are compared by a member that reads it (R204). -/
def comparedTile (c : Convoy) (j : Nat) : Option Nat :=
  (c.members[j]?).bind fun i =>
    match i with
    | .mrowGet f | .mcolGet f | .mst f => some f.t.toNat
    | _ => none

/-- The summaries that a member updates (R351). -/
def updatedSum : Instr → Option Nat
  | .supdCms f | .supdBks f | .supdQh f | .supdMom f | .supdWes f | .smerge f | .smergeM f => some (f.sd.toNat % 16)
  | _ => none

/-- A failed compare and the MISMATCH that follows are logged (R348). -/
def logMismatch (s : State) (t : Trap) : State :=
  if t.cause ≠ .mismatch then s
  else
    let s := logError s 0x05 (dieOf s.hart.core) s.hart.core s.hart.pasid 0 0
    let s := logError s 0x06 (dieOf s.hart.core) s.hart.core s.hart.pasid s.hart.gangid.toNat 0
    let r := coreOf s s.hart.core
    setCore s { r with mismatches := r.mismatches + 1 }

/-- Every element of a tile is poison, and its compares are over (R204). -/
def poisonTile (s : State) (n : Nat) : State :=
  let m := s.hart.tile[n % 4]'(Nat.mod_lt _ (by decide))
  dirtyM { s with hart := { s.hart with
    tile := s.hart.tile.set (n % 4) { m with poison := Vector.replicate 128 (BitVec.allOnes 128), differs := [] } (Nat.mod_lt _ (by decide)),
    unverified := s.hart.unverified.filter fun u => u.2.1 != n } } n

/-- The tiles whose compare has failed: those of rows which registers hold, or else those which members up to `j` read (R204). -/
def failedTiles (s : State) (c : Convoy) (j : Nat) : List Nat :=
  if s.hart.unverified.isEmpty then
    (((List.range (j + 1)).filterMap (comparedTile c)).filter fun n => !(s.hart.tile[n % 4]'(Nat.mod_lt _ (by decide))).differs.isEmpty).eraseDups
  else (s.hart.unverified.map fun u => u.2.1).eraseDups

/-- What MISMATCH does besides the trap (R204, R348, R351): the failed compare and the trap are logged, every element of the tile is poisoned, and
so is every summary that a member of the convoy updates. -/
def mismatchEffects (s : State) (c : Convoy) (j : Nat) (t : Trap) : State :=
  if t.cause ≠ .mismatch then s
  else
    let s := logMismatch s t
    let s := (failedTiles s c j).foldl poisonTile s
    (c.members.filterMap updatedSum).foldl (fun s n =>
      dirtyS { s with hart := { s.hart with
        sums := s.hart.sums.set (n % 16) ((s.hart.sums[n % 16]'(Nat.mod_lt _ (by decide))).map poisonSum) (Nat.mod_lt _ (by decide)) } } n) s

/-- The store queue of a convoy whose member `j` reads a tile's row that has failed its compare: what the members before it store does not derive
from the row, and stands (R204). -/
def storesBefore (b r : State) (ms : List Member) (j : Nat) (t : Trap) : State :=
  if t.cause = .mismatch ∧ !b.hart.unverified.isEmpty ∧ j ≠ 0 then
    let q := runMembers b (ms.take j)
    { r with hart := { r.hart with storeQ := q.hart.storeQ, entered := q.hart.entered } }
  else r

/-- A and D, where the translations that a convoy made before its accesses have set them, stand (R156, R274). -/
def keepWalked (s : State) (l : List (Nat × Bool)) : State := l.foldl (fun s p => setAD s p.1 (if p.2 then .store else .load)) s

/-- A condition at element `k` of member `j` stops the vector queue (R90, R91): the results of every member for the elements below the
stop stand, none for a whole convoy, but for linked stores that a failed check has released (R340); the convoy keeps its place with its posted `vl` and `vtype`, its chunks go back to their rings,
and the trap is delivered. DEDUCED: log entry 21. -/
def stopConvoy (s : State) (c : Convoy) (ms : List Member) (k j : Nat) (t : Trap) (taken : Option (BitVec 32))
    (pennants : Vector (List (BitVec 32)) 6) (blame : Option Word) : State :=
  let b := beginConvoy s c
  let whole := ms.any fun m => m.whole
  let k' := if whole then 0 else stopBoundary (curDctx b) ms s.hart.vstart k
  let p :=
    if whole then ms.foldl keepRelease (b, s)
    else
      let r := runMembers { b with hart := { b.hart with cur := { b.hart.cur with stop := some k', taken := taken } } } ms
      (r, storesBefore b r ms j t)
  let r := p.2
  let c' := stoppedConvoy c whole (b.hart.cur.vl, b.hart.cur.vtype) p.1.hart.cur.parts p.1.hart.cur.passed taken
  let r := { r with hart := { r.hart with
      vq := c' :: s.hart.vq.drop 1, streams := s.hart.streams, aq := s.hart.aq, pennants := pennants, cur := s.hart.cur,
      pins := if whole then s.hart.pins else dropPins k' s.hart.pins } }
  takeStop (mismatchEffects r c j t) .vector t (blame.getD c.addr) s.hart.pc j k' b.hart.cur.vl b.hart.cur.vtype

/-- The members as far as no one waits: `r` is a run of them, and while one waits, they are run for the elements below that one (R90). -/
def runBelow (b : State) (ms : List Member) : Nat → State → State
  | 0, r => r
  | n + 1, r =>
    if r.hart.cur.wait.isNone || decide (r.hart.cur.waitAt ≤ b.hart.cur.vstart) then r
    else runBelow b ms n (runMembers { b with hart := { b.hart with cur := { b.hart.cur with stop := some r.hart.cur.waitAt } } } ms)

/-- The condition that stops a convoy which waits: one at an element below every one at which a member waits (R90); the members of a whole
convoy have none. -/
def faultBelow (b : State) (ms : List Member) (r : State) : Option State :=
  if ms.any fun m => m.whole then none
  else
    let q := runBelow b ms (ms.length + 1) r
    if q.hart.cur.fault.isSome && q.hart.cur.wait.isNone then some q else none

/-- A row of a tile that a convoy before has taken out has failed its compare, and no member reads what it took: the convoy traps before it
begins (R204). DEDUCED: log entry 100. -/
def settleCompare (b : State) (ms : List Member) : State :=
  match b.hart.unverified with
  | [] => b
  | u :: _ => if ms.any fun m => (unverifiedRead b m).isSome then b else raise b b.hart.cur.vstart ⟨.mismatch, W (128 * u.2.2)⟩

/-- A convoy writes a scalar register that its retirement releases (R22). -/
def holdsAny (c : Convoy) : Bool := c.members.any fun i => !(holdsOf i).isEmpty

/-- Some store of the hart's vector queue is not yet visible. -/
def vectorStores (h : Hart) : Bool := h.storeQ.any fun st => st.queue == .vector

/-- Before a convoy whose retirement a scalar instruction can observe, the stores of earlier convoys are visible (R170). -/
def settleEarlier (s : State) (c : Convoy) : State := if holdsAny c && vectorStores s.hart then drainAll s else s

/-- Perform the convoy at the head of the vector queue: it retires, waits at the head, or stops at an element (R53, R90, R91). A condition at
element k is delivered once no member waits below k; the condition of a whole convoy that waits, at its first element only. -/
def runConvoy (ms : List Member) (s : State) : State :=
  match s.hart.vq with
  | [] => s
  | c :: _ =>
    let s := settleEarlier s c
    let b := beginConvoy s c
    if (ms.any fun m => m.whole) && s.hart.vstart != 0 then
      takeStop { s with hart := { s.hart with vq := { c with setVl := some (b.hart.cur.vl, b.hart.cur.vtype) } :: s.hart.vq.drop 1 } }
        .vector ⟨.illegal, W ((c.members.head?.map encode).getD 0)⟩ c.addr s.hart.pc 0 s.hart.vstart b.hart.cur.vl b.hart.cur.vtype
    else
      let r := runMembers (settleCompare b ms) ms
      let stop (q : State) : State :=
        match q.hart.cur.fault with
        | some (k, j, t) =>
          stopConvoy (keepWalked s (r.hart.cur.walked ++ q.hart.cur.walked)) c ms k j t q.hart.cur.taken q.hart.pennants q.hart.cur.blame
        | none => keepHead s q c
      match r.hart.cur.fault with
      | some (k, _, _) =>
        if r.hart.cur.wait.isSome && decide (s.hart.vstart < k) then ((faultBelow b ms r).map stop).getD (keepHead s r c) else stop r
      | none =>
        if r.hart.cur.wait.isSome then stop ((faultBelow b ms r).getD r)
        else retire s r c.members.length

/-- A single vector-class instruction as a convoy of its own, as the sequencer decodes it (R19, R20, R49): a decode condition traps
precisely; otherwise the convoy is posted, and it is performed at once when nothing is queued before it. DEDUCED: log entry 78. -/
def solo (i : Instr) (m : Member) (s : State) : Out :=
  match m.check (dctx s) with
  | some c => .next (takeTrap s c (W (encode i)))
  | none =>
    match postWait s [i] with
    | some why => .next (wait s why)
    | none =>
      let t := postConvoy s [i] (i.bits / 8)
      .next (if s.hart.vq.isEmpty then runConvoy [m] t else t)

end Sys2Proof.Machine
end

