-- ==== Sys2Proof/Machine/Access.lean ====
section
/-! DEFINITION. Scalar accesses of the sequencer and the pieces they share with vector memory: draining a target, retiring combining
entries, the checks of an access, loads, stores and atomic steps, and the waits of R68 (R65 to R70, R169, R178, R291). -/

namespace Sys2Proof.Machine

/-! ### Making stores visible -/

/-- The hart's queued stores to one target become visible, in order (R169). DEDUCED: log entry 52. -/
def drainTarget (s : State) (t : Nat) : State :=
  let go := s.hart.storeQ.filter fun st => targetIn s st.key == t
  let keep := s.hart.storeQ.filter fun st => targetIn s st.key != t
  go.foldl applyStore { s with hart := { s.hart with storeQ := keep } }

/-- The oldest queued store of the hart becomes visible. -/
def drainOne (s : State) : State :=
  match s.hart.storeQ with
  | [] => s
  | st :: rest => applyStore { s with hart := { s.hart with storeQ := rest } } st

/-- The integer operations of an atomic or combining form: code 1 to 8 as in the opcode tables (R69, R175). -/
def atomOp (op w a b : Nat) : Nat :=
  match op with
  | 1 => iAdd w a b
  | 2 => iAnd w a b
  | 3 => iOr w a b
  | 4 => iXor w a b
  | 5 => iMin w a b
  | 6 => iMax w a b
  | 7 => iMinn w a b
  | 8 => iMaxn w a b
  | _ => b % 2 ^ w

/-- The floating-point operations of an atomic or combining form: add, minimum, maximum (R175). -/
def atomFop (op m w a b : Nat) : Nat :=
  match op with
  | 0 => fAdd m w a b
  | 1 => fMin w a b
  | _ => fMax w a b

/-- The value a combining operation gives. -/
def combineOp (fp : Bool) (op m w a b : Nat) : Nat := if fp then atomFop op m w a b else atomOp op w a b

/-- The store that an atomic step makes. -/
def atomStore (key n val : Nat) (pois po sealing : Bool) (slot epoch : Nat) (q : Queue) : PStore :=
  { key := key, n := n, val := val % 256 ^ n, mask := 256 ^ n - 1, poison := pois, epoch := epoch, queue := q, po := po,
    sealing := sealing, slot := slot, whole := decide (isSpadKey key ∧ n = 8 ∧ key % 8 = 0), seq := 0 }

/-- A combining entry retires: its value is applied to memory as one atomic step (R178), under the rounding mode of the
last member that entered it. A poisoned old value stays poisoned. DESIGN CHOICE: log entry 97. -/
def retireCombine (s : State) (c : Combine) : State :=
  let n := c.w / 8
  let old := leNat ((List.range n).map fun i => memByte s (c.key + i))
  let pois := c.poison || (granulesOf c.key n).any (granulePois s) || moduleFailed s c.key
  applyStoreOf s c.gang c.hart (atomStore c.key n (combineOp c.fp c.op c.rm c.w old c.val) pois c.po c.sealing c.slot c.epoch .vector)

/-- Every combining entry that satisfies `p` retires, oldest first. -/
def retireWhere (s : State) (p : Combine → Bool) : State :=
  (s.combining.filter p).foldl retireCombine { s with combining := s.combining.filter fun c => !p c }

/-- Combining entries that overlap `n` bytes from a key retire, so that a later access of the queue sees them (R168). -/
def flushCombine (s : State) (key n : Nat) : State :=
  if s.combining.any fun c => decide (c.key < key + n) && decide (key < c.key + c.w / 8) then
    retireWhere s fun c => decide (c.key < key + n) && decide (key < c.key + c.w / 8)
  else s

/-! ### Checks of an access -/

/-- The checks of a plain access of `n` bytes, aligned to `align`, up to the place and its permission (R65, R66, R154): alignment,
translation, permission; then reserved bytes and shed conditions. -/
def checkAccess (s : State) (va : Word) (n align : Nat) (acc : Acc) : State × XRes :=
  if va.toNat % align ≠ 0 then (s, .trap ⟨.misalign, va⟩)
  else
    match resolve s va n acc with
    | (t, .ok h) =>
      match lateFault t va h.key n with
      | some tr => (t, .trap tr)
      | none => (t, .ok h)
    | r => r

/-- The checks of a scoped access: the scope comes after the translation and before the permission (R70, R174); `none` is a scope
miss. -/
def checkScoped (s : State) (va : Word) (n sc : Nat) (acc : Acc) : State × Option XRes :=
  if va.toNat % n ≠ 0 then (s, some (.trap ⟨.misalign, va⟩))
  else
    match findPlace s va n acc with
    | .ok h =>
      if !inReach s va h.key sc then (s, none)
      else
        match grantPlace s va acc h with
        | (t, .ok h) =>
          match lateFault t va h.key n with
          | some tr => (t, some (.trap tr))
          | none => (t, some (.ok h))
        | (t, r) => (t, some r)
    | r => (s, some r)

/-! ### Scalar loads, stores and atomics -/

/-- A vector-class instruction that acquires: every later access of the hart is performed after it (R172, R176, R179). -/
def acquires : Instr → Bool
  | .vamoSwap f | .vamoAdd f | .vamoAnd f | .vamoOr f | .vamoXor f | .vamoMin f | .vamoMax f | .vamoMinn f | .vamoMaxn f
  | .vamoCas f | .vamoFadd f | .vamoFmin f | .vamoFmax f | .vwaitEq f | .vwaitNe f | .vwaitGe f | .vwaitLt f | .vwaitGen f
  | .vwaitLtn f => f.aq
  | _ => false

/-- Some convoy of a list has not performed its acquire. -/
def acquireIn (l : List Convoy) : Bool := l.any fun c => c.members.any acquires

/-- A scalar load of `n` bytes at `ea` (R65, R66), after every acquire posted before it (R172): the value goes to `fin`, which writes the registers. -/
def scalarLoad (s : State) (ea : Word) (n len : Nat) (fin : State → Nat → State) : Out :=
  if acquireIn s.hart.vq then .next (wait s .acquire) else
  match checkAccess s ea n n .load with
  | (_, .trap t) => .next (takeTrap s t.cause t.tval)
  | (t, .stall) => .next (wait t .migration)
  | (t, .ok h) =>
    if readsPoison t h.key n then .next (takeTrap s .poison ea)
    else .next (advance (fin t (hartRead t h.key n)) len)

/-- A scalar store of `n` bytes at `ea`, after every acquire posted before it (R172): it enters the store queue when it executes (R65 to R67, R169). -/
def scalarStore (s : State) (ea : Word) (n val len : Nat) : Out :=
  if acquireIn s.hart.vq then .next (wait s .acquire) else
  match checkAccess s ea n n .store with
  | (_, .trap t) => .next (takeTrap s t.cause t.tval)
  | (t, .stall) => .next (wait t .migration)
  | (t, .ok h) => .next (advance (release t (mkStore t h n val (256 ^ n - 1) false .sequencer t.hart.epoch)) len)

/-- A wait for earlier stores waits for an access entry (R68): for every one but the run of an open in-stream, which makes no stores; the program of
chapter 20 publishes while such a run is under way. DEDUCED: log entry 9. -/
def entryAwaited (h : Hart) (e : AqEntry) : Bool :=
  match e.instr with
  | .astRun f =>
    let n := if f.a = 0 then 0 else e.xs[f.a.toNat].toNat
    (h.streams.find? fun r => r.handle == n).all fun r => r.out
  | _ => true

/-- What the hart's earlier stores still lack (R68, R76, R178, R291): convoys and access entries that have not retired, queued stores,
combining entries, and at `.du` Loft stores that are not durable. -/
def storesPending (s : State) (sc : Nat) : Bool :=
  !s.hart.vq.isEmpty || s.hart.aq.any (entryAwaited s.hart) || !s.hart.storeQ.isEmpty || !s.combining.isEmpty ||
  (sc == 6 && !durableUpTo s s.hart.epoch)

/-- The scope at which a release or an acquire acts: `.du` on shed memory is `.sy` (R313). -/
def scopeAt (s : State) (va : Word) (sc : Nat) : Nat :=
  if sc = 6 then
    match findPlace s va 8 .load with
    | .ok h => if isShedKey h.key then 5 else 6
    | _ => 6
  else sc

/-- A scalar atomic (R69, R70): `f` gives the new value from the old one, or `none` for no write; `writes` asks for write
permission, `reads` is false for `amo.st` alone. -/
def scalarAmo (f : OpSA) (writes reads : Bool) (regs : List (BitVec 5)) (g : Word → Option Word) (s : State) : Out :=
  let ea := readX s f.a
  let sc := scopeAt s ea f.sc.toNat
  if anyHeld s regs then .next (wait s .held)
  else if acquireIn s.hart.vq then .next (wait s .acquire)
  else if f.rl && storesPending s sc then .next (wait s .stores)
  else
    match checkScoped s ea 8 f.sc.toNat (if writes then .store else .load) with
    | (_, none) => .next (takeTrap s .scope ea)
    | (_, some (.trap t)) => .next (takeTrap s t.cause (if t.cause = .perm then ea else t.tval))
    | (t, some .stall) => .next (wait t .migration)
    | (t, some (.ok h)) =>
      if reads && readsPoison t h.key 8 then .next (takeTrap s .poison ea)
      else
        let t := drainTarget t (targetIn t h.key)
        let t := if f.rl && sc == 6 then nextEpoch t 1 else t
        let old := W (hartRead t h.key 8)
        let t :=
          match g old with
          | some v => applyStore t (atomStore h.key 8 v.toNat false (bitN h.pte 56) (bitN h.pte 57) (keySlot t h.pte) t.hart.epoch .sequencer)
          | none => t
        .next (advance (if reads then writeX t f.d old else t) 4)

end Sys2Proof.Machine
end

