-- ==== Sys2Proof/Machine/Alu.lean ====
section
/-! DEFINITION. Integer arithmetic of the sequencer and the compressed forms of it (R45, R61 to R64). -/

namespace Sys2Proof.Machine

/-- Two sources and a destination: wait while one is held, then write the result (R22, R60, R61). -/
def alu (f : OpA) (g : Word → Word → Word) (s : State) : Out :=
  if anyHeld s [f.a, f.b, f.d] then .next (wait s .held)
  else .next (advance (writeX s f.d (g (readX s f.a) (readX s f.b))) 4)

/-- One source, a constant and a destination, in an instruction of `n` bytes. -/
def aluImm (a d : BitVec 5) (n : Nat) (g : Word → Word) (s : State) : Out :=
  if anyHeld s [a, d] then .next (wait s .held)
  else .next (advance (writeX s d (g (readX s a))) n)

/-- Two sources and a destination in a compressed instruction (R45). -/
def aluC (a b d : BitVec 5) (g : Word → Word → Word) (s : State) : Out :=
  if anyHeld s [a, b, d] then .next (wait s .held)
  else .next (advance (writeX s d (g (readX s a) (readX s b))) 2)

/-- 1 for true. -/
def flag (b : Bool) : Word := if b then 1 else 0

/-- Signed quotient truncated toward zero, all ones for a zero divisor (R61, R62). -/
def divS (a b : Word) : Word := if b = 0 then BitVec.allOnes 64 else BitVec.ofInt 64 (a.toInt.tdiv b.toInt)

/-- Natural quotient (R61, R62). -/
def divN (a b : Word) : Word := if b = 0 then BitVec.allOnes 64 else W (a.toNat / b.toNat)

/-- Signed remainder (R61, R62). -/
def remS (a b : Word) : Word := if b = 0 then a else BitVec.ofInt 64 (a.toInt - b.toInt * a.toInt.tdiv b.toInt)

/-- Natural remainder (R61, R62). -/
def remN (a b : Word) : Word := if b = 0 then a else W (a.toNat % b.toNat)

/-- A 32-bit result sign-extended (R61). -/
def word32 (v : Word) : Word := (v.truncate 32).signExtend 64

/-- Leading zero bits (R61). -/
def leadingZeros (a : Word) : Nat := if a = 0 then 64 else 63 - Nat.log2 a.toNat

/-- Trailing zero bits (R61). -/
def trailingZeros (a : Word) : Nat := (lowestBit a.toNat 64 0).getD 64

/-- Shift amounts are taken modulo 64 (R61). -/
def sllW (a b : Word) : Word := a <<< (b.toNat % 64)
/-- `srl` (R61). -/
def srlW (a b : Word) : Word := a >>> (b.toNat % 64)
/-- `sra` (R61). -/
def sraW (a b : Word) : Word := a.sshiftRight (b.toNat % 64)


/-- `add` (R61). -/
def execAdd (f : OpA) (s : State) : Out := alu f (fun a b => a + b) s

/-- `sub` (R61). -/
def execSub (f : OpA) (s : State) : Out := alu f (fun a b => a - b) s

/-- `and` (R61). -/
def execAnd (f : OpA) (s : State) : Out := alu f (fun a b => a &&& b) s

/-- `or` (R61). -/
def execOr (f : OpA) (s : State) : Out := alu f (fun a b => a ||| b) s

/-- `xor` (R61). -/
def execXor (f : OpA) (s : State) : Out := alu f (fun a b => a ^^^ b) s

/-- `sll` (R61). -/
def execSll (f : OpA) (s : State) : Out := alu f (fun a b => sllW a b) s

/-- `srl` (R61). -/
def execSrl (f : OpA) (s : State) : Out := alu f (fun a b => srlW a b) s

/-- `sra` (R61). -/
def execSra (f : OpA) (s : State) : Out := alu f (fun a b => sraW a b) s

/-- `slt` (R61). -/
def execSlt (f : OpA) (s : State) : Out := alu f (fun a b => flag (a.slt b)) s

/-- `sltn` (R61). -/
def execSltn (f : OpA) (s : State) : Out := alu f (fun a b => flag (a.ult b)) s

/-- `min` (R61). -/
def execMin (f : OpA) (s : State) : Out := alu f (fun a b => if a.slt b then a else b) s

/-- `max` (R61). -/
def execMax (f : OpA) (s : State) : Out := alu f (fun a b => if a.slt b then b else a) s

/-- `minn` (R61). -/
def execMinn (f : OpA) (s : State) : Out := alu f (fun a b => if a.ult b then a else b) s

/-- `maxn` (R61). -/
def execMaxn (f : OpA) (s : State) : Out := alu f (fun a b => if a.ult b then b else a) s

/-- `mul` (R61). -/
def execMul (f : OpA) (s : State) : Out := alu f (fun a b => a * b) s

/-- `mulh` (R61). -/
def execMulh (f : OpA) (s : State) : Out := alu f (fun a b => BitVec.ofInt 64 (a.toInt * b.toInt / 2 ^ 64)) s

/-- `mulhn` (R61). -/
def execMulhn (f : OpA) (s : State) : Out := alu f (fun a b => W (a.toNat * b.toNat / 2 ^ 64)) s

/-- `div` (R61, R62). -/
def execDiv (f : OpA) (s : State) : Out := alu f (fun a b => divS a b) s

/-- `divn` (R61, R62). -/
def execDivn (f : OpA) (s : State) : Out := alu f (fun a b => divN a b) s

/-- `rem` (R61, R62). -/
def execRem (f : OpA) (s : State) : Out := alu f (fun a b => remS a b) s

/-- `remn` (R61, R62). -/
def execRemn (f : OpA) (s : State) : Out := alu f (fun a b => remN a b) s

/-- `addw` (R61). -/
def execAddw (f : OpA) (s : State) : Out := alu f (fun a b => word32 (a + b)) s

/-- `subw` (R61). -/
def execSubw (f : OpA) (s : State) : Out := alu f (fun a b => word32 (a - b)) s

/-- `clz` (R61). -/
def execClz (f : OpA) (s : State) : Out := aluImm f.a f.d 4 (fun a => W (leadingZeros a)) s

/-- `ctz` (R61). -/
def execCtz (f : OpA) (s : State) : Out := aluImm f.a f.d 4 (fun a => W (trailingZeros a)) s

/-- `popc` (R61). -/
def execPopc (f : OpA) (s : State) : Out := aluImm f.a f.d 4 (fun a => W (popN 64 a.toNat)) s

/-- `addi` (R63). -/
def execAddi (f : OpI14) (s : State) : Out := aluImm f.a f.d 4 (fun a => a + immS f.imm) s

/-- `andi` (R63). -/
def execAndi (f : OpI14) (s : State) : Out := aluImm f.a f.d 4 (fun a => a &&& immS f.imm) s

/-- `ori` (R63). -/
def execOri (f : OpI14) (s : State) : Out := aluImm f.a f.d 4 (fun a => a ||| immS f.imm) s

/-- `xori` (R63). -/
def execXori (f : OpI14) (s : State) : Out := aluImm f.a f.d 4 (fun a => a ^^^ immS f.imm) s

/-- `slli` (R35, R63). -/
def execSlli (f : OpSh6) (s : State) : Out := aluImm f.a f.d 4 (fun a => a <<< f.sh.toNat) s

/-- `srli` (R35, R63). -/
def execSrli (f : OpSh6) (s : State) : Out := aluImm f.a f.d 4 (fun a => a >>> f.sh.toNat) s

/-- `srai` (R35, R63). -/
def execSrai (f : OpSh6) (s : State) : Out := aluImm f.a f.d 4 (fun a => a.sshiftRight f.sh.toNat) s

/-- `slti` (R35, R63). -/
def execSlti (f : OpI13) (s : State) : Out := aluImm f.a f.d 4 (fun a => flag (a.slt (immS f.imm))) s

/-- `sltni`: the comparand is sign-extended and compared as a natural number (R35, R63). -/
def execSltni (f : OpI13) (s : State) : Out := aluImm f.a f.d 4 (fun a => flag (a.ult (immS f.imm))) s

/-- `ldh` (R64). -/
def execLdh (f : OpU19) (s : State) : Out := aluImm 0 f.d 4 (fun _ => immU f.imm) s

/-- `pcadd`: adds to its own address, the original one in a spliced program (R64, R339). -/
def execPcadd (f : OpU19) (s : State) : Out := aluImm 0 f.d 4 (fun _ => origAddr s.hart s.hart.pc + immU f.imm) s

/-- `c.addi` (R45). -/
def execCAddi (imm : BitVec 6) (d : BitVec 5) (s : State) : Out := aluImm d d 2 (fun a => a + immS imm) s

/-- `c.li` (R45). -/
def execCLi (imm : BitVec 6) (d : BitVec 5) (s : State) : Out := aluImm 0 d 2 (fun _ => immS imm) s

/-- `c.mv` (R45). -/
def execCMv (a d : BitVec 5) (s : State) : Out := aluImm a d 2 (fun a => a) s

/-- `c.add` (R45). -/
def execCAdd (a d : BitVec 5) (s : State) : Out := aluC d a d (fun a b => a + b) s

/-- `c.sub` (R45). -/
def execCSub (a d : BitVec 5) (s : State) : Out := aluC d a d (fun a b => a - b) s

/-- `c.and` (R45). -/
def execCAnd (a d : BitVec 5) (s : State) : Out := aluC d a d (fun a b => a &&& b) s

/-- `c.slli` (R45). -/
def execCSlli (imm : BitVec 6) (d : BitVec 5) (s : State) : Out := aluImm d d 2 (fun a => a <<< imm.toNat) s

/-- `c.srai` (R45). -/
def execCSrai (imm : BitVec 6) (d : BitVec 5) (s : State) : Out := aluImm d d 2 (fun a => a.sshiftRight imm.toNat) s

/-- `c.nop` (R45). -/
def execCNop  (s : State) : Out := .next (advance s 2)

end Sys2Proof.Machine
end

