-- ==== Sys2Proof/Machine/Aes.lean ====
section
/-! DEFINITION. AES-256-XTS over the 64-byte granule, as the link-die memory path applies it to SEAL pages (R277, R357). R357 names the cipher, its data
unit and its tweak; the function is that of FIPS 197 and IEEE 1619, with the first 32 bytes of a slot as the data key and the last 32 as the tweak key.
PRESUMED: log entry 120. -/

namespace Sys2Proof.Machine

/-- Twice a byte in GF(2^8). -/
def xtime (a : Nat) : Nat := if a < 128 then 2 * a else (2 * a - 256) ^^^ 0x1B

/-- The product of two bytes in GF(2^8). -/
def gmul (a b : Nat) : Nat :=
  ((List.range 8).foldl (fun (p : Nat × Nat) i => (if bitN b i then p.1 ^^^ p.2 else p.1, xtime p.2)) (0, a)).1

/-- The inverse of a byte in GF(2^8), which is its power 254; zero for zero. -/
def ginv (a : Nat) : Nat :=
  ((List.range 7).foldl (fun (p : Nat × Nat) _ => (gmul p.1 p.1, gmul p.2 (gmul p.1 p.1))) (a, 1)).2

/-- A byte rotated left. -/
def rotl8 (a n : Nat) : Nat := a * 2 ^ n % 256 ^^^ a / 2 ^ (8 - n)

/-- The S-box. -/
def sbox (a : Nat) : Nat :=
  let b := ginv a
  b ^^^ rotl8 b 1 ^^^ rotl8 b 2 ^^^ rotl8 b 3 ^^^ rotl8 b 4 ^^^ 0x63

/-- The inverse of the S-box. -/
def unsbox (a : Nat) : Nat := ginv (rotl8 a 1 ^^^ rotl8 a 3 ^^^ rotl8 a 6 ^^^ 5)

/-- Byte lists of one length, added in GF(2^8). -/
def xorB (a b : List Nat) : List Nat := List.zipWith (· ^^^ ·) a b

/-- The next word of the key schedule after the words so far. -/
def nextWord (w : List (List Nat)) : List Nat :=
  let i := w.length
  let t := (w.getLast?).getD []
  let t := if i % 8 = 0 then xorB ((t.drop 1 ++ t.take 1).map sbox) [2 ^ (i / 8 - 1), 0, 0, 0] else if i % 8 = 4 then t.map sbox else t
  xorB ((w[i - 8]?).getD []) t

/-- The bytes of a number, the lowest first. -/
def bytesN (v n : Nat) : List Nat := (List.range n).map fun i => bitsN v (8 * i) 8

/-- A number from its bytes. -/
def ofBytes (l : List Nat) : Nat := l.foldr (fun b a => b + 256 * a) 0

/-- The 15 round keys of a 256-bit key. -/
def roundKeys (key : Nat) : List (List Nat) :=
  let w := (List.range 52).foldl (fun w _ => w ++ [nextWord w]) ((List.range 8).map fun i => bytesN (bitsN key (32 * i) 32) 4)
  (List.range 15).map fun r => ((w.drop (4 * r)).take 4).flatten

/-- A state with its rows shifted by `n` columns for each row. -/
def shiftRows (n : Nat) (b : List Nat) : List Nat := (List.range 16).map fun k => (b[(k + 4 * n * (k % 4)) % 16]?).getD 0

/-- Each column multiplied by a circulant matrix with this first row. -/
def mixColumns (m b : List Nat) : List Nat :=
  (List.range 16).map fun k =>
    (List.range 4).foldl (fun a i => a ^^^ gmul ((b[k / 4 * 4 + i]?).getD 0) ((m[(i + 4 - k % 4) % 4]?).getD 0)) 0

/-- A block enciphered. -/
def aesEnc (key : Nat) (b : List Nat) : List Nat :=
  let ks := roundKeys key
  let k (r : Nat) : List Nat := (ks[r]?).getD []
  let s := (List.range 13).foldl (fun s r => xorB (mixColumns [2, 3, 1, 1] (shiftRows 1 (s.map sbox))) (k (r + 1))) (xorB b (k 0))
  xorB (shiftRows 1 (s.map sbox)) (k 14)

/-- A block deciphered. -/
def aesDec (key : Nat) (b : List Nat) : List Nat :=
  let ks := roundKeys key
  let k (r : Nat) : List Nat := (ks[r]?).getD []
  let s := (List.range 13).foldl (fun s r => mixColumns [14, 11, 13, 9] (xorB ((shiftRows 3 s).map unsbox) (k (13 - r)))) (xorB b (k 14))
  xorB ((shiftRows 3 s).map unsbox) (k 0)

/-- Twice a tweak in GF(2^128). -/
def doubleTweak (t : Nat) : Nat := if bitN t 127 then 2 * t % 2 ^ 128 ^^^ 0x87 else 2 * t

/-- The four blocks of a granule under XTS, `f` being the block cipher's direction (R357). -/
def xts (f : Nat → List Nat → List Nat) (key tweak v : Nat) : Nat :=
  let first := ofBytes (aesEnc (key / 2 ^ 256) (bytesN tweak 16))
  ((List.range 4).foldl (fun (a : Nat × Nat) i =>
    let b := bitsN v (128 * i) 128 ^^^ a.2
    (a.1 + (ofBytes (f (key % 2 ^ 256) (bytesN b 16)) ^^^ a.2) * 2 ^ (128 * i), doubleTweak a.2)) (0, first)).1

/-- A granule of 64 bytes enciphered: the tweak is its physical address shifted right by 6 (R357). PRESUMED: log entry 120. -/
def sealGranule (key : BitVec 512) (g v : Nat) : Nat := xts aesEnc key.toNat g v

/-- A granule of 64 bytes deciphered (R357). PRESUMED: log entry 120. -/
def unsealGranule (key : BitVec 512) (g v : Nat) : Nat := xts aesDec key.toNat g v

end Sys2Proof.Machine
end

