-- ==== Sys2Proof/Machine/Fetch.lean ====
section
/-! DEFINITION. Fetching an instruction's bytes, and the code of a spliced program (R32, R33, R48, R339). -/

namespace Sys2Proof.Machine

/-- What a fetch gives. -/
inductive Fetched where
  | bits (v : Nat)
  | trap (t : Trap)
  | stall
  deriving DecidableEq, Repr

/-- Fetch the halfword at an even address (R33): never from the scratchpad window. DEDUCED: log entry 15. DEDUCED: log entry 80. -/
def fetchHalf (s : State) (va : Word) : State × Fetched :=
  match resolve s va 2 .fetch with
  | (t, .ok h) => (t, .bits ((memByte t (servedKey t h.key)).toNat + 256 * (memByte t (servedKey t (h.key + 1))).toNat))
  | (_, .trap tr) => (s, .trap tr)
  | (_, .stall) => (s, .stall)

/-- Fetch `n` halfwords from an even address: the lowest faulting byte is reported (R33). -/
def fetchHalves (s : State) (va : Word) : Nat → State × Fetched
  | 0 => (s, .bits 0)
  | n + 1 =>
    match fetchHalf s va with
    | (t, .bits v) =>
      match fetchHalves t (va + 2) n with
      | (u, .bits w) => (u, .bits (v + 65536 * w))
      | r => r
    | r => r

/-- Fetch the bits of the instruction at an even address (R32, R33). -/
def fetchBits (s : State) (va : Word) : State × Fetched :=
  match fetchHalf s va with
  | (t, .bits v) =>
    match fetchHalves t (va + 2) (lengthOf v / 2 - 1) with
    | (u, .bits w) => (u, .bits (v + 65536 * w))
    | r => r
  | r => r

/-- The word below a target marks it as lying inside a convoy (R48). -/
def insideConvoy (w : Nat) : Bool :=
  let m := bitsN w 2 6
  w % 4 == 1 && (m == 0 || decide (0x20 ≤ m ∧ m ≤ 0x31) || m == 0x33) && bitN w 28

/-! ### Spliced code (R339) -/

/-- First address of spliced code; each instruction takes eight bytes (R339; log entry 6). -/
def spliceBase : Nat := 0x00FD000000000000

/-- The address of spliced instruction `k`. -/
def spliceAddr (k : Nat) : Word := W (spliceBase + 8 * k)

/-- The index of a spliced address. -/
def spliceIndex (a : Word) : Nat := (a.toNat - spliceBase) / 8

/-- The place of a role's region in the spliced order: prologues, bodies, back branches, epilogues, P before C (R339). -/
def regionRank (consumer : Bool) (region : Nat) : Nat := 2 * region + (if consumer then 1 else 0)

/-- The index at which a region starts. -/
def startOf (sp : Splice) (consumer : Bool) (region : Nat) : Nat :=
  sp.code.countP fun i => decide (regionRank i.consumer i.region < regionRank consumer region)

/-- The index that is fetched at `k`: once a splice has unzipped, the body and back branch of the role that has ended are passed
over (R339). -/
def spliceNext (sp : Splice) (k : Nat) : Nat :=
  match sp.unzipped, sp.code[k]? with
  | some c, some i =>
    if i.consumer = c then k
    else if i.region = 1 then startOf sp c 2
    else if i.region = 2 then (if c then startOf sp true 2 else startOf sp false 3)
    else k
  | _, _ => k

/-- The spliced instruction at the program counter. -/
def spliceAt (h : Hart) : Option SpInstr := h.splice.bind fun sp => sp.code[spliceIndex h.pc]?

/-- The role context of a hart as R338 lists it. -/
def roleCtx (h : Hart) : RoleCtx :=
  { vl := h.vl, vtype := h.vtype, pend := h.pend, vstart := h.vstart, ffidx := h.ffidx, memfmt := h.memfmt, fmt := h.fmt, rmode := h.rmode,
    repro := h.repro, mflags := h.mflags, tgrant := h.tgrant, psm := h.psm, gangid := h.gangid }

/-- Put a role context in force. -/
def setRole (h : Hart) (c : RoleCtx) : Hart :=
  { h with vl := c.vl, vtype := c.vtype, vstart := c.vstart, ffidx := c.ffidx, memfmt := c.memfmt, fmt := c.fmt, rmode := c.rmode,
           repro := c.repro, mflags := c.mflags, tgrant := c.tgrant, psm := c.psm, gangid := c.gangid, pend := c.pend }

/-- Change the role of a spliced hart (R338). -/
def swapRole (s : State) : State :=
  match s.hart.splice with
  | some sp =>
    let h := setRole s.hart sp.other
    { s with hart := { h with splice := some { sp with consumer := !sp.consumer, other := roleCtx s.hart } } }
  | none => s

/-- The role of what was posted at an address is put in force: what a convoy or an access entry reads and writes is the copy of its role (R338). -/
def roleFor (s : State) (a : Word) : State := if ofRole s.hart a then s else swapRole s

/-- The scalar or access instruction at the program counter, when its bytes can be fetched and decoded. -/
noncomputable def instrHere (s : State) : Option Instr :=
  match s.hart.splice with
  | some _ => (spliceAt s.hart).map fun i => i.instr
  | none =>
    match fetchBits s s.hart.pc with
    | (_, .bits v) =>
      match decodeBits v with
      | .ok i => some i
      | .error _ => none
    | _ => none

end Sys2Proof.Machine
end

