-- ==== Sys2Proof/Machine/Branch.lean ====
section
/-! DEFINITION. Branches and jumps with the convoy-start check, in plain and in spliced code (R45, R48, R71, R72, R339). -/

namespace Sys2Proof.Machine

/-- Go to a target that passed its check: in spliced code, to the spliced place of the instruction at the original target (R339). -/
def goTo (s : State) (target : Word) : State :=
  match spliceAt s.hart with
  | some i => jumpTo s (spliceAddr i.target)
  | none => jumpTo s target

/-- Transfer control to `target` (R48): ILLEGAL with the target when it lies inside a convoy, otherwise `w` writes the link and
control goes to the target. A word below the target that cannot be fetched passes. -/
def transfer (s : State) (target : Word) (w : State → State) : Out :=
  match fetchHalves s (target - 4) 2 with
  | (_, .stall) => .next (wait s .migration)
  | (t, .bits v) => if insideConvoy v then .next (takeTrap s .illegal target) else .next (goTo (w t) target)
  | (_, .trap _) => .next (goTo (w s) target)

/-- The outcome of the two back branches of a spliced iteration, or of the one that is left after an unzip (R339). -/
def backBranch (s : State) (sp : Splice) (consumer taken : Bool) : State :=
  let go (sp : Splice) (k : Nat) : State :=
    let t := jumpTo s (spliceAddr k)
    { t with hart := { t.hart with splice := some sp } }
  match sp.unzipped with
  | some c => if taken then go sp (startOf sp c 1) else go sp (startOf sp c 3)
  | none =>
    if !consumer then go { sp with taken := some taken } (spliceIndex s.hart.pc + 1)
    else
      match sp.taken.getD false, taken with
      | true, true => go { sp with taken := none } (startOf sp false 1)
      | false, false => go { sp with taken := none } (startOf sp false 3)
      | _, _ =>
        let t := go { sp with taken := none, unzipped := some taken } (startOf sp false (if taken then 3 else 1))
        { t with launches := t.launches.map fun l =>
            if l.pair.isSome ∧ l.pasid = s.hart.pasid ∧ (l.lid = s.hart.gangid ∨ l.pair = some s.hart.gangid)
            then { l with hreason := 2 } else l }

/-- A conditional branch of `n` bytes on registers a and b (R71): the back branch of a spliced body is decided by `backBranch`. -/
def branch (a b : BitVec 5) (off : Word) (n : Nat) (cond : Word → Word → Bool) (s : State) : Out :=
  if anyHeld s [a, b] then .next (wait s .held)
  else
    let taken := cond (readX s a) (readX s b)
    let target := origAddr s.hart s.hart.pc + off
    match s.hart.splice, spliceAt s.hart with
    | some sp, some i =>
      if i.region = 2 then
        match (if taken then fetchHalves s (target - 4) 2 else (s, .trap ⟨.tfault, 0⟩)) with
        | (_, .stall) => .next (wait s .migration)
        | (t, .bits v) =>
          if insideConvoy v then .next (takeTrap s .illegal target) else .next (backBranch t sp i.consumer taken)
        | (_, .trap _) => .next (backBranch s sp i.consumer taken)
      else if taken then transfer s target (fun t => t) else .next (advance s n)
    | _, _ => if taken then transfer s target (fun t => t) else .next (advance s n)

/-- `beq` (R71). -/
def execBeq (f : OpBr) (s : State) : Out := branch f.a f.b (brOff f) 4 (fun a b => a == b) s

/-- `bne` (R71). -/
def execBne (f : OpBr) (s : State) : Out := branch f.a f.b (brOff f) 4 (fun a b => a != b) s

/-- `blt` (R71). -/
def execBlt (f : OpBr) (s : State) : Out := branch f.a f.b (brOff f) 4 (fun a b => a.slt b) s

/-- `bge` (R71). -/
def execBge (f : OpBr) (s : State) : Out := branch f.a f.b (brOff f) 4 (fun a b => !a.slt b) s

/-- `bltn` (R71). -/
def execBltn (f : OpBr) (s : State) : Out := branch f.a f.b (brOff f) 4 (fun a b => a.ult b) s

/-- `bgen` (R71). -/
def execBgen (f : OpBr) (s : State) : Out := branch f.a f.b (brOff f) 4 (fun a b => !a.ult b) s

/-- `c.beqz` (R45). -/
def execCBeqz (imm : BitVec 6) (d : BitVec 5) (s : State) : Out := branch d 0 (offS imm) 2 (fun a b => a == b) s

/-- `c.bnez` (R45). -/
def execCBnez (imm : BitVec 6) (d : BitVec 5) (s : State) : Out := branch d 0 (offS imm) 2 (fun a b => a != b) s

/-- `jal`: the link is the original address plus 4 (R72, R339). -/
def execJal (f : OpU19) (s : State) : Out :=
  if anyHeld s [f.d] then .next (wait s .held)
  else
    let here := origAddr s.hart s.hart.pc
    transfer s (here + offS f.imm) (fun t => writeX t f.d (here + 4))

/-- `jalr`: an odd target traps MISALIGN before the check; x[a] is read before x[d] is written (R33, R72). -/
def execJalr (f : OpI14) (s : State) : Out :=
  if anyHeld s [f.a, f.d] then .next (wait s .held)
  else
    let target := readX s f.a + immS f.imm
    if target.toNat % 2 = 1 then .next (takeTrap s .misalign target)
    else transfer s target (fun t => writeX t f.d (origAddr s.hart s.hart.pc + 4))

/-- `c.j` (R45). -/
def execCJ (imm : BitVec 11) (s : State) : Out := transfer s (origAddr s.hart s.hart.pc + offS imm) (fun t => t)

/-- `c.jr`: as `jalr x0, xa, 0` (R45). -/
def execCJr (a : BitVec 5) (s : State) : Out :=
  if anyHeld s [a] then .next (wait s .held)
  else
    let target := readX s a
    if target.toNat % 2 = 1 then .next (takeTrap s .misalign target) else transfer s target (fun t => t)

end Sys2Proof.Machine
end

