-- ==== Sys2Proof/Machine/Control.lean ====
section
/-! DEFINITION. Control registers and the vector length: classes, fields, tile enables, the `psm` mirror, `vsl` and its arrival at a
pending stall mode (R54 to R58, R73, R74, R104, R112, R337). -/

namespace Sys2Proof.Machine

/-- `vl` and `vtype` with which the next convoy posted would run, once the queue is empty or a `vsl` is pending (R55). -/
def nextVl (h : Hart) : Nat × BitVec 14 := h.pend.getD (h.vl, h.vtype)

/-- `stallmode` (R56). -/
def stallmode (s : State) : Word :=
  let c := coreOf s s.hart.core
  match c.pend with
  | some m => W (64 + 16 * m + c.cur)
  | none => W c.cur

/-- A set of tiles as a role of a splice sees it: its own tiles, in its own numbering (R337). -/
def roleTiles (h : Hart) (v : Nat) : Nat :=
  match h.splice with
  | none => v
  | some sp =>
    if sp.consumer then sp.tilesC.foldl (fun a m => if bitN v m.2 then a ||| 2 ^ m.1 else a) 0
    else sp.tilesP.foldl (fun a m => if bitN v m then a ||| 2 ^ m else a) 0

/-- The value of `tilen` after a role writes `v` for its own tiles: the other bits are as before (R337). -/
def roleTilen (h : Hart) (v : Nat) : Nat :=
  match h.splice with
  | none => v
  | some sp =>
    let old := h.tilen.toNat
    if sp.consumer then sp.tilesC.foldl (fun a m => setBits a m.2 1 (if bitN v m.1 then 1 else 0)) old
    else sp.tilesP.foldl (fun a m => setBits a m 1 (if bitN v m then 1 else 0)) old

/-- The value of a control register that stands still while the hart runs (R54, R56). Counters are read by `crCount`. -/
def crValue (s : State) (idx : Nat) : Word :=
  let h := s.hart
  match idx with
  | 0x000 => W (nextVl h).1
  | 0x001 => W (nextVl h).2.toNat
  | 0x002 => W h.vstart
  | 0x003 => W (vrlen s)
  | 0x004 => W (vlmaxFor s (nextVl h).2)
  | 0x005 => W h.ffidx
  | 0x006 => h.memfmt
  | 0x008 => h.fmt[0]
  | 0x009 => h.fmt[1]
  | 0x00A => h.fmt[2]
  | 0x00B => h.fmt[3]
  | 0x00C => h.rmode
  | 0x00D => h.repro
  | 0x00E => W h.mflags.toNat
  | 0x010 => 128
  | 0x011 => W h.tgrant
  | 0x012 => W (roleTiles h h.tilen.toNat)
  | 0x013 => h.dglim
  | 0x020 => W h.vdirty.toNat
  | 0x021 => W h.sdirty.toNat
  | 0x022 => W (roleTiles h h.mdirty.toNat)
  | 0x030 => W h.cause.toNat
  | 0x031 => h.epc
  | 0x032 => h.tval
  | 0x033 => W h.member.toNat
  | 0x034 => W (framesz s)
  | 0x041 => h.instret
  | 0x044 => h.stretch
  | 0x050 => W h.hartid
  | 0x051 => h.gangid
  | 0x052 => W h.gangsize
  | 0x053 => stallmode s
  | 0x054 => W (256 * h.stall + h.core)
  | 0x055 => W h.pasid
  | 0x060 => h.origin
  | 0x070 => psmMirror h.psm
  | _ => 0

/-- Read a control register: the free-running counters move on by a free amount at each read (R54, R55; log entry 5). -/
def crRead (s : State) (idx : Nat) : Word × State :=
  let h := s.hart
  let n := takeFree s
  match idx with
  | 0x040 => (h.cycle + Config.cycles n.1, { n.2 with hart := { h with cycle := h.cycle + Config.cycles n.1 } })
  | 0x042 => (h.dgbub + Config.bubbles n.1, { n.2 with hart := { h with dgbub := h.dgbub + Config.bubbles n.1 } })
  | 0x043 => (h.energy + Config.energy n.1, { n.2 with hart := { h with energy := h.energy + Config.energy n.1 } })
  | _ => (crValue s idx, s)

/-- Class Q of R54. -/
def isClassQ (idx : Nat) : Bool :=
  idx ≤ 2 || idx == 4 || idx == 5 || idx == 0x0E || idx == 0x11 || decide (0x20 ≤ idx ∧ idx ≤ 0x22) || idx == 0x70

/-- The vector queue has convoys, or stores of retired ones that are not yet visible: a class-Q access observes that they have retired
(R55, R170). -/
def vectorBusy (h : Hart) : Bool := !h.vq.isEmpty || vectorStores h

/-- A read waits: class Q waits for the vector queue, but `vl`, `vtype` and `vlmax` do not after a `vsl` with no convoy since
(R55). -/
def crReadWaits (s : State) (idx : Nat) : Bool :=
  isClassQ idx && vectorBusy s.hart && !((idx == 0 || idx == 1 || idx == 4) && s.hart.pend.isSome)

/-- The RW bits of a control register (R54, R56, R112, R145). -/
def crRw (s : State) (idx : Nat) : Nat :=
  match idx with
  | 0x002 => 0x7FFF
  | 0x006 => 0x3C1F
  | 0x008 | 0x009 | 0x00A | 0x00B => 0x0FFF1FFF
  | 0x00C => 3
  | 0x00D => 1
  | 0x011 => 0xFF
  | 0x012 => 2 ^ tilesPerStall s - 1
  | 0x013 => 0x1F
  | _ => 0

/-- The W1C bits of a control register. -/
def crW1c (idx : Nat) : Nat :=
  match idx with
  | 0x00D => 2
  | 0x00E => 1
  | 0x070 => 2 ^ 63
  | _ => 0

/-- Tile enables take a new value: a tile that becomes enabled is zero and dirty, one that becomes disabled is lost and clean
(R56). -/
def setTilen (s : State) (v : Nat) : State :=
  let one (n : Nat) (s : State) : State :=
    let old := bitN s.hart.tilen.toNat n
    let new := bitN v n
    if old = new then s
    else
      let s := { s with hart := { s.hart with tile := s.hart.tile.set (n % 4) Tile.zero (Nat.mod_lt _ (by decide)) } }
      if new then dirtyM s n
      else { s with hart := { s.hart with mdirty := s.hart.mdirty &&& ~~~(BitVec.ofNat 4 (2 ^ (n % 4))) } }
  let s := forUp 4 0 s one
  { s with hart := { s.hart with tilen := W v } }

/-- Every bit of `psm` becomes 0 (R56). -/
def clearPsm (s : State) : State := { s with hart := { s.hart with psm := 0 } }

/-- Store the value that results in the RW bits, with the clamps of R56, and clear the W1C bits (R73). -/
def crStore (s : State) (idx v w1c : Nat) : State :=
  let h := s.hart
  match idx with
  | 0x002 => { s with hart := { h with vstart := v } }
  | 0x006 => { s with hart := { h with memfmt := W v } }
  | 0x008 => { s with hart := { h with fmt := h.fmt.set 0 (W v) } }
  | 0x009 => { s with hart := { h with fmt := h.fmt.set 1 (W v) } }
  | 0x00A => { s with hart := { h with fmt := h.fmt.set 2 (W v) } }
  | 0x00B => { s with hart := { h with fmt := h.fmt.set 3 (W v) } }
  | 0x00C => { s with hart := { h with rmode := W v } }
  | 0x00D => { s with hart := { h with repro := W (v + (if w1c = 0 && bitN h.repro.toNat 1 then 2 else 0)) } }
  | 0x00E => { s with hart := { h with mflags := if w1c = 0 then h.mflags else 0 } }
  | 0x011 => { s with hart := { h with tgrant := min v 128 } }
  | 0x012 => setTilen s (roleTilen h v)
  | 0x013 => { s with hart := { h with dglim := W (max 1 (min v 16)) } }
  | 0x070 => if w1c = 0 then s else clearPsm s
  | _ => s

/-- The value of the RW bits before a write, in the numbering the writer sees (R73). -/
def crOld (s : State) (idx : Nat) : Nat := (crValue s idx).toNat &&& crRw s idx

/-- `cr.wr`, `cr.set` and `cr.clr`: wait as the class asks (R55), return the old value, and write (R73). `rw` gives the RW bits from
the old ones and x[a]; `w1c` is false for `cr.clr`. -/
def crWrite (f : OpC) (rw : Nat → Nat → Nat) (w1c : Bool) (s : State) : Out :=
  let idx := f.idx.toNat
  if anyHeld s [f.a, f.d] then .next (wait s .held)
  else
    let a := (readX s f.a).toNat
    let v := rw (crOld s idx) a &&& crRw s idx
    let c := if w1c then a &&& crW1c idx else 0
    if isClassQ idx && vectorBusy s.hart then .next (wait s .qclass)
    else if idx = 0x012 ∧ roleTilen s.hart v ≠ s.hart.tilen.toNat ∧ vectorBusy s.hart then .next (wait s .qclass)
    else
      let r := crRead s idx
      .next (advance (writeX (crStore r.2 idx v c) f.d r.1) 4)

/-- `cr.rd` (R55, R73). -/
def execCrRd (f : OpC) (s : State) : Out :=
  if anyHeld s [f.d] then .next (wait s .held)
  else if crReadWaits s f.idx.toNat then .next (wait s .qclass)
  else
    let r := crRead s f.idx.toNat
    .next (advance (writeX r.2 f.d r.1) 4)

/-- `cr.wr` (R73). DEDUCED: log entry 51. -/
def execCrWr (f : OpC) (s : State) : Out := crWrite f (fun _ a => a) true s

/-- `cr.set` (R73). -/
def execCrSet (f : OpC) (s : State) : Out := crWrite f (fun o a => o ||| a) true s

/-- `cr.clr`: W1C bits are unchanged (R73). -/
def execCrClr (f : OpC) (s : State) : Out := crWrite f (fun o a => o - (o &&& a)) false s

/-- The step of a write to `tilen`: it acts once posted convoys have retired (R56; log entry 7 before that). -/
def execTilenWrite (v : Word) (s : State) : Out :=
  if s.hart.run = .running ∧ s.hart.vq.isEmpty then .next (setTilen s (roleTilen s.hart (v.toNat % 2 ^ tilesPerStall s))) else .next s

/-- The step of writing 1 to ANY of the `psm` mirror (R56). -/
def execPsmMirrorClear (s : State) : Out := if s.hart.run = .running ∧ s.hart.vq.isEmpty then .next (clearPsm s) else .next s

/-- `vsl` (R52, R74): it does not wait for the vector queue, but under a pending stall mode it is the arrival point of R58. -/
def execVsl (f : OpI14) (s : State) : Out :=
  if anyHeld s [f.a, f.d] then .next (wait s .held)
  else if (coreOf s s.hart.core).pend.isSome then
    .next (wait s (if s.hart.vq.isEmpty && s.hart.aq.isEmpty then .vsl else .drain))
  else
    let most := vlmaxFor s f.imm
    let n := if f.a = 0 then most else min (readX s f.a).toNat most
    let t := writeX s f.d (W n)
    .next (advance { t with hart := { t.hart with pend := some (n, f.imm) } } 4)

end Sys2Proof.Machine
end

