-- ==== Sys2Proof/Machine/Span.lean ====
section
/-! DEFINITION. Ranges of bytes: translated page by page, read and written as numbers with their poison (R154, R156, R184). -/

namespace Sys2Proof.Machine

/-- A range that was translated: pieces of one page each, or what stopped it. -/
inductive Span where
  | ok (l : List (Hit × Nat))
  | trap (t : Trap)
  | stall
  deriving DecidableEq, Repr

/-- Translate `n` bytes from `va` piece by piece with `tr`; the lowest fault is reported. -/
def spanWith (tr : State → Word → Nat → State × XRes) : Nat → State → Word → Nat → State × Span
  | 0, s, _, _ => (s, .ok [])
  | fuel + 1, s, va, n =>
    if n = 0 then (s, .ok [])
    else
      match tr s va n with
      | (t, .ok h) =>
        let m := min n h.left
        match spanWith tr fuel t (va + W m) (n - m) with
        | (u, .ok l) => (u, .ok ((h, m) :: l))
        | r => r
      | (t, .trap tr) => (t, .trap tr)
      | (t, .stall) => (t, .stall)

/-- Pages that `n` bytes can touch, and one more for each end. -/
def spanFuel (n : Nat) : Nat := n / 4096 + 3

/-- A place cut at the end of its shed block: each block has conditions of its own (R306, R311, R314). -/
def blockHit (h : Hit) : Hit := if isShedKey h.key then { h with left := min h.left (2 ^ 21 - h.key % 2 ^ 21) } else h

/-- One piece of a range of the focused hart: window or page, permission, reserved bytes and shed conditions (R143, R144, R154). -/
def hartPiece (acc : Acc) (s : State) (va : Word) (n : Nat) : State × XRes :=
  match resolve s va 1 acc with
  | (t, .ok h) =>
    let h := blockHit h
    match lateFault t va h.key (min n h.left) with
    | some tr => (t, .trap tr)
    | none => (t, .ok h)
  | r => r

/-- Where `n` bytes at an address lie for the focused hart whatever stands against using them: the old copy of a page in migration (R279). -/
def peekPlace (s : State) (va : Word) : Option Hit :=
  let a := va.toNat
  if inWindow a then
    match findPlace s va 1 .load with
    | .ok h => some h
    | _ => none
  else
    match pinHit s a .load with
    | some h => some h
    | none =>
      (walkFor s s.hart.pasid a).bind fun r =>
        let key := leafKey r.2.1 r.2.2 a .load
        (leafPlace s r.2.1 key).map fun _ =>
          { key := key, left := leafSize r.2.1 r.2.2 - a % leafSize r.2.1 r.2.2, pte := r.2.1, pteAt := r.1, level := r.2.2 }

/-- A range as the focused hart reaches it. -/
def hartSpan (s : State) (va : Word) (n : Nat) (acc : Acc) : State × Span := spanWith (hartPiece acc) (spanFuel n) s va n

/-- The condition of a shed block for an engine outside a hart: not allocated, lost, or over quota (R306, R311, R314). -/
def engineShedFault (s : State) (k : Nat) (va : Word) : Option Trap :=
  if !isShedKey k then none
  else
    match shedBlock s ((k - 0x00C0000000000000) / 2 ^ 37) ((k - 0x00C0000000000000) % 2 ^ 37 / 2 ^ 21) with
    | none => some ⟨.shedUnalloc, va⟩
    | some b => shedFault s b.gang k va

/-- One piece of a range of a PASID as an engine outside a hart reaches it. -/
def pasidPiece (pasid : Nat) (acc : Acc) (s : State) (va : Word) (_ : Nat) : State × XRes :=
  match translate s pasid va acc with
  | (t, .ok h) =>
    match engineShedFault t h.key va with
    | some tr => (t, .trap tr)
    | none => (t, .ok (blockHit h))
  | r => r

/-- A range of a PASID as an engine outside a hart reaches it. -/
def pasidSpan (s : State) (pasid : Nat) (va : Word) (n : Nat) (acc : Acc) : State × Span :=
  spanWith (pasidPiece pasid acc) (spanFuel n) s va n

/-- The bytes of a range as memory holds them, a number; a shed pair is read where it is served. -/
def memRead (s : State) (k n : Nat) : Nat :=
  leNat ((List.range n).map fun i => memByte s (servedKey s (k + i)))

/-- What memory holds in `n` bytes at an address of the focused hart that lie in one page, when it can be told before the access is made. -/
def peekRead (s : State) (va : Word) (n : Nat) : Option Nat := (peekPlace s va).map fun h => memRead s h.key n

/-- The bytes of a range as a number, read by the focused hart's vector queue or sequencer (own queued stores included). -/
def spanRead (s : State) (l : List (Hit × Nat)) : Nat :=
  l.foldr (fun p acc => hartRead s p.1.key p.2 + 256 ^ p.2 * acc) 0

/-- The bytes of a range as an engine reads them. -/
def spanReadMem (s : State) (l : List (Hit × Nat)) : Nat :=
  l.foldr (fun p acc => memRead s p.1.key p.2 + 256 ^ p.2 * acc) 0

/-- Some byte of the range reads as poison. -/
def spanPoison (s : State) (l : List (Hit × Nat)) : Bool := l.any fun p => readsPoison s p.1.key p.2

/-- The offset of the lowest byte of the range that reads as poison. -/
def spanPoisonAt (s : State) : List (Hit × Nat) → Nat → Option Nat
  | [], _ => none
  | p :: l, o =>
    match (List.range p.2).find? fun i => readsPoison s (p.1.key + i) 1 with
    | some i => some (o + i)
    | none => spanPoisonAt s l (o + p.2)

/-- The hit and the byte offset in it of byte `o` of a range. -/
def spanAt : List (Hit × Nat) → Nat → Option Hit
  | [], _ => none
  | p :: l, o => if o < p.2 then some { p.1 with key := p.1.key + o, left := p.1.left - o } else spanAt l (o - p.2)

/-- Every queued store of the hart to bytes of a range becomes visible, and combining entries on it retire: what an engine write
or an atomic step of the hart does first (R168). -/
def settle (s : State) (l : List (Hit × Nat)) : State :=
  l.foldl (fun s p => flushCombine (drainTarget s (targetIn s p.1.key)) p.1.key p.2) s

/-- Bytes in a poison granule (R184). -/
def granuleBytes (k : Nat) : Nat := if isSpadKey k then 8 else 64

/-- Write a range as one operation of an engine: visible at once (R185); a granule written whole and clean loses its poison. -/
def spanApply (s : State) (l : List (Hit × Nat)) (v : Nat) (pois : Bool) (q : Queue) (epoch : Nat) : State :=
  (l.foldl (fun (a : State × Nat) p =>
    let g := granuleBytes p.1.key
    ((granuleParts p.1.key g (p.2 / g + 2) 0 p.2).foldl (fun s c =>
        applyStore s { mkStore s { p.1 with key := p.1.key + c.1 } c.2 (a.2 / 256 ^ c.1) (256 ^ c.2 - 1) pois q epoch with
          whole := decide (c.2 = g) }) a.1,
      a.2 / 256 ^ p.2)) (s, v)).1

/-- Read `n` bytes for an engine under a PASID: the value and its poison, or what stopped it. -/
def engineRead (s : State) (pasid : Nat) (va : Word) (n : Nat) : State × Except (Option Trap) (Nat × Bool) :=
  match pasidSpan s pasid va n .load with
  | (t, .ok l) => (t, .ok (spanReadMem t l, l.any fun p => memPois t p.1.key p.2))
  | (t, .trap tr) => (t, .error (some tr))
  | (t, .stall) => (t, .error none)

/-- Write `n` bytes for an engine under a PASID, or say what stands against it; `none` is a page in migration, for which the write
waits (R279). A module that has failed takes no write (R350). -/
def engineWrite (s : State) (pasid : Nat) (va : Word) (n v : Nat) : State × Except (Option Trap) Unit :=
  match pasidSpan s pasid va n .engineStore with
  | (t, .ok l) =>
    if l.any fun p => failedIn t p.1.key p.2 then (s, .error (some ⟨.tfault, va⟩)) else (spanApply t l v false .none 0, .ok ())
  | (_, .trap tr) => (s, .error (some tr))
  | (_, .stall) => (s, .error none)

end Sys2Proof.Machine
end

