-- ==== Sys2Proof/Machine/Sync.lean ====
section
/-! DEFINITION. Synchronisation, pennants, system instructions and harness marks of the sequencer, with the steps that complete its
parks (R75 to R81, R84, R85; `halt` and `jl` stand with the launch engine). -/

namespace Sys2Proof.Machine

/-! ### Traps and marks -/

/-- `break` (R81). -/
def execBrk (s : State) : Out := .next (takeTrap s .brk 0)

/-- `c.break`: as `break`, at its own address (R45, R81). -/
def execCBrk (s : State) : Out := .next (takeTrap s .brk 0)

/-- `swtrap` (R81). -/
def execSwtrap (f : OpA) (s : State) : Out :=
  if anyHeld s [f.a] then .next (wait s .held) else .next (takeTrap s .swtrap (readX s f.a))

/-- `hm.body` retires with no effect (R85, R333). -/
def execHmBody (s : State) : Out := .next (advance s 4)

/-- `hm.end` retires with no effect (R85, R333). -/
def execHmEnd (s : State) : Out := .next (advance s 4)

/-! ### Stores and watermarks -/

/-- `lsync`: waits for the hart's earlier stores; at `.du` for their durability, and it is an epoch boundary (R76, R291, R292). -/
def execLsync (sc : BitVec 3) (s : State) : Out :=
  if storesPending s sc.toNat then .next (wait s .stores)
  else .next (advance (if sc = 6 then nextEpoch s 1 else s) 4)

/-- `wm.pub`: a release store of x[b] (R78, R291). -/
def execWmPub (sc : BitVec 3) (f : OpA) (s : State) : Out :=
  if anyHeld s [f.a, f.b] then .next (wait s .held)
  else if storesPending s (scopeAt s (readX s f.a) sc.toNat) then .next (wait s .stores)
  else
    let ea := readX s f.a
    match checkScoped s ea 8 sc.toNat .store with
    | (_, none) => .next (takeTrap s .scope ea)
    | (_, some (.trap t)) => .next (takeTrap s t.cause (if t.cause = .perm then ea else t.tval))
    | (t, some .stall) => .next (wait t .migration)
    | (t, some (.ok h)) =>
      let t := drainTarget t (targetIn t h.key)
      let t := if scopeAt s ea sc.toNat = 6 then nextEpoch t 1 else t
      let st := atomStore h.key 8 (readX s f.b).toNat false (bitN h.pte 56) (bitN h.pte 57) (keySlot t h.pte) t.hart.epoch .sequencer
      .next (advance (applyStore t st) 4)

/-- `wm.wait`: parks until the doubleword is at least x[b] (R78). -/
def execWmWait (sc : BitVec 3) (f : OpA) (s : State) : Out :=
  if anyHeld s [f.a, f.b, f.d] then .next (wait s .held)
  else if acquireIn s.hart.vq then .next (wait s .acquire)
  else
    let ea := readX s f.a
    match checkScoped s ea 8 sc.toNat .load with
    | (_, none) => .next (takeTrap s .scope ea)
    | (_, some (.trap t)) => .next (takeTrap s t.cause (if t.cause = .perm then ea else t.tval))
    | (t, some .stall) => .next (wait t .migration)
    | (t, some (.ok h)) =>
      if readsPoison t h.key 8 then .next (takeTrap s .poison ea)
      else
        let v := W (hartRead t h.key 8)
        if v.toNat < (readX s f.b).toNat then .next (wait t .mark) else .next (advance (writeX t f.d v) 4)

/-- The step in which a parked `wm.wait` reads a value at least its bound (R78; log entry 7 when none is parked). -/
noncomputable def execWmWaitSatisfied (s : State) : Out :=
  match s.hart.park, instrHere s with
  | some .mark, some (.wmWait sc f) => execWmWait sc f s
  | _, _ => .next s

/-! ### The gang barrier (R77) -/

/-- Two harts belong to one gang. -/
def sameGang (g : Gang) (h : Hart) : Bool :=
  g.pasid == h.pasid && (g.lid == h.gangid || g.lid2 == some h.gangid) && h.run != .idle

/-- Every other hart of the gang has arrived or halted. -/
def othersArrived (s : State) (g : Gang) : Bool :=
  s.others.all fun h => !sameGang g h || h.arrived == some (g.gen + 1) || h.run == .halted

/-- Replace a gang. -/
def setGang (s : State) (g : Gang) : State :=
  { s with gangs := s.gangs.map fun q => if q.lid = g.lid then g else q }

/-- The barrier completes: its generation advances, and harts parked in it go on (R77). -/
def barrierDone (s : State) (g : Gang) : State :=
  let s := setGang s { g with gen := g.gen + 1 }
  mapHarts s fun h => if sameGang g h && h.park == some .barrier then { h with park := none } else h

/-- `gbar` (R77): the wait of `lsync.pk`, then the arrival, which is kept until its generation completes. -/
def execGbar (f : OpA) (s : State) : Out :=
  if anyHeld s [f.d] then .next (wait s .held)
  else
    let finish (s : State) (n : Nat) : Out :=
      .next (advance (writeX { s with hart := { s.hart with arrived := none } } f.d (W n)) 4)
    match gangOf s s.hart, s.hart.arrived with
    | none, _ => finish s 1
    | some g, some n =>
      if n ≤ g.gen then finish s n
      else if othersArrived s g then finish (barrierDone s g) n
      else .next (wait s .barrier)
    | some g, none =>
      if storesPending s 3 then .next (wait s .stores)
      else if othersArrived s g then finish (barrierDone s g) (g.gen + 1)
      else .next (wait { s with hart := { s.hart with arrived := some (g.gen + 1) } } .barrier)

/-- The step in which the focused hart's barrier completes: every hart of its gang has arrived or halted (R77). -/
def execGangBarrierComplete (s : State) : Out :=
  match gangOf s s.hart with
  | none => .next s
  | some g =>
    if othersArrived s g && (s.hart.arrived == some (g.gen + 1) || s.hart.run == .halted) &&
        (harts s).any (fun h => sameGang g h && h.arrived == some (g.gen + 1)) then .next (barrierDone s g)
    else .next s

/-! ### Pennants of the sequencer (R25 to R27, R79) -/

/-- Append a pennant to a channel. -/
def pnPush (s : State) (c : Nat) (v : BitVec 32) : State :=
  let i := c % 6
  { s with hart := { s.hart with
      pennants := s.hart.pennants.set i (s.hart.pennants[i]'(Nat.mod_lt _ (by decide)) ++ [v]) (Nat.mod_lt _ (by decide)) } }

/-- The pennants of a channel, oldest first. -/
def pnList (h : Hart) (c : Nat) : List (BitVec 32) := h.pennants[c % 6]'(Nat.mod_lt _ (by decide))

/-- Replace the pennants of a channel. -/
def pnSet (s : State) (c : Nat) (l : List (BitVec 32)) : State :=
  { s with hart := { s.hart with pennants := s.hart.pennants.set (c % 6) l (Nat.mod_lt _ (by decide)) } }

/-- The hart's own queues are empty, so nothing posted can free a channel or post on it (R27, R79). -/
def queuesEmpty (h : Hart) : Bool := h.vq.isEmpty && h.aq.isEmpty

/-- Some earlier scalar store is not yet visible (R79). -/
def scalarPending (s : State) : Bool := s.hart.storeQ.any fun st => st.queue == .sequencer

/-- `pn.send`: waits for earlier scalar stores, then posts; a full channel stalls, and traps PENNANT when nothing posted can take
from it (R27, R79). -/
def execPnSend (c : BitVec 1) (f : OpA) (s : State) : Out :=
  if anyHeld s [f.a] then .next (wait s .held)
  else if scalarPending s then .next (wait s .stores)
  else if 64 ≤ (pnList s.hart c.toNat).length then
    if queuesEmpty s.hart then .next (takeTrap s .pennant (W c.toNat)) else .next (wait s .pennant)
  else .next (advance (pnPush s c.toNat ((readX s f.a).truncate 32)) 4)

/-- Take the oldest pennant of a channel, or park; PENNANT when both queues are empty (R79). -/
def pnRecv (c : Nat) (f : OpA) (s : State) : Out :=
  if anyHeld s [f.d] then .next (wait s .held)
  else
    match pnList s.hart c with
    | p :: l => .next (advance (writeX (pnSet s c l) f.d (p.zeroExtend 64)) 4)
    | [] => if queuesEmpty s.hart then .next (takeTrap s .pennant (W c)) else .next (wait s .pennant)

/-- `pn.recv xd, 2` (R79). -/
def execPnRecvCh2 (f : OpA) (s : State) : Out := pnRecv 2 f s

/-- `pn.recv xd, 4` (R79). -/
def execPnRecvCh4 (f : OpA) (s : State) : Out := pnRecv 4 f s

/-- `pn.cnt`: does not wait for the channel (R79). -/
def execPnCnt (c : BitVec 3) (f : OpA) (s : State) : Out :=
  if anyHeld s [f.d] then .next (wait s .held)
  else .next (advance (writeX s f.d (W (pnList s.hart c.toNat).length)) 4)

/-! ### Launches (R84) -/

/-- STATUS of a completion record (R331). -/
def statusOf (l : Launch) : Word := W (l.result.code + 256 * l.result.cause + 65536 * l.hreason)

/-- A launch id names the hart's own gang, or a launch of the splice it runs in (R84, R339). -/
def ownLaunch (s : State) (lid : Word) : Bool :=
  lid == s.hart.gangid || (match gangOf s s.hart with
    | some g => g.lid == lid || g.lid2 == some lid
    | none => false)

/-- How a launch stands for `jwait` and for dependences (R321, R332): pending, completed with a held record of this STATUS, or neither. -/
inductive Standing where
  | pending
  | held (status : Word)
  | unknown
  deriving DecidableEq, Repr

/-- How the launch with an id stands: appended and not posted is pending; a posted record stays held until its slot is overwritten
(R318, R332). -/
def standing (s : State) (lid : Word) : Standing :=
  let q := lid.toNat / 2 ^ 56
  let n := lid.toNat % 2 ^ 56
  if h : q < 64 then
    let c := s.queues[q]
    if n = 0 then .unknown
    else if c.done < n then (if n ≤ c.tail then .pending else .unknown)
    else if c.done < n + 2 ^ c.log2 then
      match s.launches.find? fun l => l.lid == lid with
      | some l => .held (statusOf l)
      | none => .unknown
    else .unknown
  else .unknown

/-- `jwait` (R84). -/
def execJwait (f : OpA) (s : State) : Out :=
  if anyHeld s [f.a, f.d] then .next (wait s .held)
  else
    let lid := readX s f.a
    if ownLaunch s lid then .next (advance (writeX s f.d (BitVec.allOnes 64)) 4)
    else
      match standing s lid with
      | .unknown => .next (advance (writeX s f.d (BitVec.allOnes 64)) 4)
      | .held v => .next (advance (writeX s f.d v) 4)
      | .pending => .next (wait s .launch)

end Sys2Proof.Machine
end

