-- ==== Sys2Proof/Machine/VMem.lean ====
section
/-! DEFINITION. Vector loads and stores: the memory format, element addresses, gathers and scatters, first-fault loads, compressed data,
spill frames, copies and linked forms (R145 to R165, R340 to R342). -/

namespace Sys2Proof.Machine

/-! ### The memory format (R145 to R147) -/

/-- MTYPE of a `memfmt` value. -/
def mtypeOf (m : Word) : Nat := m.toNat % 16

/-- PK. -/
def mpk (m : Word) : Bool := bitN m.toNat 4

/-- The index width in bits under EW, from IXW. -/
def ixWidth (m : Word) (w : Nat) : Nat :=
  match bitsN m.toNat 10 2 with
  | 0 => w
  | 1 => 32
  | _ => 64

/-- ISC. -/
def isc (m : Word) : Nat := bitsN m.toNat 12 2

/-- The memory width of an element in bits (R146). -/
def memWidth (p : Snap) (w : Nat) : Nat :=
  match mtypeOf p.memfmt with
  | 0 => w
  | 1 | 2 => 16
  | 3 => 32
  | 8 | 11 => 8
  | 9 | 12 => 16
  | 10 | 13 => 32
  | t =>
    let d := p.fmt[t % 4]
    if mpk p.memfmt then descWid d else containerOf d

/-- The decode check of a member that applies `memfmt` (R146); `bytes` for the strided and indexed forms. -/
def memfmtCheck (bytes : Bool) (d : DCtx) : Option Cause :=
  let m := d.snap.memfmt
  let t := mtypeOf m
  let narrow := decide (4 ≤ t ∧ t ≤ 7)
  if decide (14 ≤ t) || bitsN m.toNat 10 2 == 3 || mpk m && !narrow || t != 0 && decide (d.ew < 8) ||
      decide (1 ≤ t ∧ t ≤ 7) && d.ew == 8 ||
      narrow && !(descValid d.snap.fmt[t % 4] && descScl d.snap.fmt[t % 4] == 0) ||
      bytes && decide (memWidth d.snap d.ew < 8)
  then some .illegal else none

/-- A memory value as it stands in a register element (R147). -/
def loadConv (p : Snap) (w wm x : Nat) : Nat :=
  let m := p.rmode.toNat % 4
  match mtypeOf p.memfmt with
  | 0 => x % 2 ^ w
  | 1 => (vfmt w).round m (Fmt.h16.decode (x % 2 ^ 16))
  | 2 => (vfmt w).round m (Fmt.bf16.decode (x % 2 ^ 16))
  | 3 => (vfmt w).round m (Fmt.f32.decode (x % 2 ^ 32))
  | 8 | 9 | 10 => wrapN (satS (signExt x wm) w) w
  | 11 | 12 | 13 => wrapN (satN (x % 2 ^ wm : Nat) w) w
  | t =>
    let d := p.fmt[t % 4]
    (vfmt w).round m ((descFmt d).decode (x % 2 ^ descWid d))

/-- A register element as it stands in memory (R147). -/
def storeConv (p : Snap) (w wm x : Nat) : Nat :=
  let m := p.rmode.toNat % 4
  match mtypeOf p.memfmt with
  | 0 => x % 2 ^ w
  | 1 => Fmt.h16.round m ((vfmt w).decode x)
  | 2 => Fmt.bf16.round m ((vfmt w).decode x)
  | 3 => Fmt.f32.round m ((vfmt w).decode x)
  | 8 | 9 | 10 => wrapN (satS (signExt x w) wm) wm
  | 11 | 12 | 13 => wrapN (satN (x % 2 ^ w : Nat) wm) wm
  | t => (descFmt p.fmt[t % 4]).round m ((vfmt w).decode x)

/-! ### Element accesses -/

/-- Where an element lies in memory: its address, the bit offset in its first byte, and its width in bits (R148). -/
structure Foot where
  va : Word
  bit : Nat
  wm : Nat
  deriving DecidableEq, Repr

/-- The bytes a footprint touches. -/
def Foot.bytes (f : Foot) : Nat := (f.bit + f.wm + 7) / 8

/-- The footprint of element e of a unit-stride form (R148). -/
def unitFoot (base : Word) (wm e : Nat) : Foot := { va := base + W (e * wm / 8), bit := e * wm % 8, wm := wm }

/-- What an element access found. -/
inductive Found where
  | ok (l : List (Hit × Nat))
  | missed
  | trap (t : Trap)
  | stall
  deriving DecidableEq, Repr

/-- Reach an element's bytes for a plain access: a shed condition has the element's address (R148, R154). -/
def reach (s : State) (f : Foot) (acc : Acc) : State × Found :=
  if 8 ≤ f.wm ∧ f.va.toNat % (f.wm / 8) ≠ 0 then (s, .trap ⟨.misalign, f.va⟩)
  else
    match hartSpan s f.va f.bytes acc with
    | (t, .ok l) => (t, .ok l)
    | (t, .trap tr) =>
      (t, .trap (if tr.cause = .shedUnalloc ∨ tr.cause = .shedLost ∨ tr.cause = .quota then { tr with tval := f.va } else tr))
    | (t, .stall) => (t, .stall)

/-- Reach an element's bytes for a scoped access (R174). -/
def reachScoped (sc : Nat) (s : State) (f : Foot) (acc : Acc) : State × Found :=
  match checkScoped s f.va (f.wm / 8) sc acc with
  | (t, none) => (t, .missed)
  | (t, some (.ok h)) => (t, .ok [(h, f.wm / 8)])
  | (t, some (.trap tr)) => (t, .trap tr)
  | (t, some .stall) => (t, .stall)

/-- The bits of a footprint and their poison, as the hart's vector queue reads them (R155, R168). -/
def footRead (s : State) (f : Foot) (l : List (Hit × Nat)) : Nat × Bool :=
  (bitsN (spanRead s l) f.bit f.wm, spanPoison s l)

/-- Combining entries on the bytes of a range retire (R168, R178). -/
def flushSpan (s : State) (l : List (Hit × Nat)) : State := l.foldl (fun s p => flushCombine s p.1.key p.2) s

/-- Release the store of a footprint: one store, or two when the bits lie in two doublewords (R148, R169). -/
def footStore (s : State) (f : Foot) (l : List (Hit × Nat)) (v : Nat) (pois : Bool) (q : Queue) (epoch : Nat) : State :=
  let s := flushSpan s l
  let val := v % 2 ^ f.wm * 2 ^ f.bit
  let mask := (2 ^ f.wm - 1) * 2 ^ f.bit
  let one (s : State) (o n : Nat) : State :=
    match spanAt l o with
    | some h => release s (mkStore s h n (val / 256 ^ o) (mask / 256 ^ o % 256 ^ n) pois q epoch)
    | none => s
  if f.wm < 8 ∧ 1 < f.bytes then
    if f.va.toNat % 8 = 7 then one (one s 0 1) 1 1
    else
      match l with
      | [_] => one s 0 f.bytes
      | _ => one (one s 0 1) 1 1
  else one s 0 f.bytes

/-- Granules that the stores released since the first `old` of the queue write whole and clean lose their poison at the last of those
stores (R184; log entry 8). -/
def markWhole (old : Nat) (s : State) : State :=
  let new := s.hart.storeQ.drop old
  let full (g : Nat) : Bool :=
    let b := if isSpadKey ((new.find? fun st => granule st.key == g).map (fun st => st.key) |>.getD 0) then 8 else 64
    let base := ((new.find? fun st => granule st.key == g).map fun st => st.key / b * b).getD 0
    (new.all fun st => granule st.key != g || !st.poison) &&
    (List.range b).all fun i => new.any fun st =>
      decide (st.key ≤ base + i) && decide (base + i < st.key + st.n) && st.mask / 256 ^ (base + i - st.key) % 256 == 255
  let gs := ((new.map fun st => granule st.key).eraseDups).filter full
  let mark (l : List PStore) : List PStore :=
    (l.foldr (fun st (a : List PStore × List Nat) =>
      let g := granule st.key
      if gs.contains g && !a.2.contains g then ({ st with whole := true } :: a.1, g :: a.2) else (st :: a.1, a.2)) ([], [])).1
  { s with hart := { s.hart with storeQ := s.hart.storeQ.take old ++ mark new } }

/-- An element that must wait is the one at which the convoy waits. -/
def markWait (e : Nat) (t : State) : State := if t.hart.cur.wait.isSome then waitAtEl t e (t.hart.cur.wait.getD none) else t

/-- The stores released since the first `old` of the queue are those of element `e` (R352). -/
def stampElem (old e : Nat) (t : State) : State :=
  { t with hart := { t.hart with storeQ := t.hart.storeQ.take old ++ (t.hart.storeQ.drop old).map fun st => { st with elem := e } } }

/-- Do `f` for each body element that `act` accepts, in ascending order, until a condition or a wait (R90). -/
def memLoop (s : State) (act : Nat → Bool) (f : Nat → State → State) : State :=
  forUp (s.hart.cur.vl - s.hart.cur.vstart) s.hart.cur.vstart s fun e t =>
    if e < limit t && t.hart.cur.wait.isNone && act e then stampElem t.hart.storeQ.length e (markWait e (f e t)) else t

/-- The leaves that a translation made ahead of the accesses has reached are noted, with D for a store (R156, R274). -/
def noteWalk (l : List (Hit × Nat)) (acc : Acc) (s : State) : State :=
  let w := (l.filter fun p => !isSpadKey p.1.key).map fun p => (p.1.pteAt, acc.writes)
  { s with hart := { s.hart with cur := { s.hart.cur with walked := w.foldl (fun l p => if l.contains p then l else p :: l) s.hart.cur.walked } } }

/-- The pages of the active body elements are translated before any access of the member (R156, R274): those of every element, or, when
`grp` is not 0, of every element up to the end of the group of `grp` elements in which a condition lies. Elements whose predicate or index, in the
registers `ix`, has not been made are not translated. -/
def preWalk (s : State) (p grp : Nat) (ix : List Nat) (go : State → Foot → Acc → State × Found) (acc : Acc) (foot : Nat → Except Trap Foot) : State :=
  let hi := if s.hart.cur.cut.contains (32 + p % 16) || ix.any fun r => s.hart.cur.cut.contains r then limit s else s.hart.cur.vl
  let past (e : Nat) (b : Option Nat) : Option Nat := b.orElse fun _ => if grp = 0 then none else some ((e / grp + 1) * grp)
  (forUp (hi - s.hart.cur.vstart) s.hart.cur.vstart ((s, none) : State × Option Nat) fun e a =>
    if (a.2.map fun b => decide (b ≤ e)).getD false || !active s p e then a
    else
      match foot e with
      | .error _ => (a.1, past e a.2)
      | .ok f =>
        match go a.1 f acc with
        | (u, .trap _) => (u, past e a.2)
        | (u, .ok l) => (noteWalk l acc u, a.2)
        | (u, _) => (u, a.2)).1

/-- Load each active body element: `foot` gives its footprint, or a condition of its own; a scope miss sets its `psm` bit (R150). The
register file is read as it was before the member. DEDUCED: log entry 95. -/
def loadVec (s : State) (d p grp : Nat) (ix : List Nat) (go : State → Foot → Acc → State × Found) (foot : Nat → Except Trap Foot) : State :=
  let w := ew s
  let snap := s.hart.cur.snap
  let o := openOld s d
  let r := memLoop (openOld (preWalk s p grp ix go .load foot) d) (fun _ => true) fun e t =>
    if active s p e then
      match foot e with
      | .error tr => raise t e tr
      | .ok f =>
        match go t f .load with
        | (u, .ok l) =>
          let u := flushSpan u l
          let x := footRead u f l
          setEl u d e w (loadConv snap w f.wm x.1) (x.2 || activeP s p e)
        | (u, .missed) => setPsm u e
        | (_, .trap tr) => raise t e tr
        | (u, .stall) => mustWait u none
    else if activeP s p e then setEl t d e w (if mz s then 0 else el o d e w) true
    else if mz s then setEl t d e w 0 false else t
  tail r d w

/-- Store each active body element (R151). DEDUCED: log entry 14. -/
def storeVec (s : State) (d p grp : Nat) (ix : List Nat) (go : State → Foot → Acc → State × Found) (foot : Nat → Except Trap Foot) : State :=
  let w := ew s
  let snap := s.hart.cur.snap
  markWhole s.hart.storeQ.length <| memLoop (preWalk s p grp ix go .store foot) (active s p) fun e t =>
    match foot e with
    | .error tr => raise t e tr
    | .ok f =>
      match go t f .store with
      | (u, .ok l) =>
        footStore u f l (storeConv snap w f.wm (el s d e w)) (elP s d e w || activeP s p e) .vector s.hart.cur.epoch
      | (u, .missed) => setPsm u e
      | (_, .trap tr) => raise t e tr
      | (u, .stall) => mustWait u none

/-- The memory width of the convoy. -/
def curWm (s : State) : Nat := memWidth s.hart.cur.snap (ew s)

/-- Footprints of a unit-stride form. -/
def footUnit (s : State) (a : BitVec 5) (e : Nat) : Except Trap Foot := .ok (unitFoot (srcX s a) (curWm s) e)

/-- Footprints of a strided form (R148). -/
def footStride (s : State) (a b : BitVec 5) (e : Nat) : Except Trap Foot :=
  .ok { va := srcX s a + W e * srcX s b, bit := 0, wm := curWm s }

/-- Footprints of a gather or scatter: a poisoned index traps POISON (R148, R152, R154). -/
def footIndex (s : State) (a vb : BitVec 5) (e : Nat) : Except Trap Foot :=
  let m := s.hart.cur.snap.memfmt
  let wi := ixWidth m (ew s)
  if elGP s vb.toNat e wi then .error ⟨.poison, 0⟩
  else .ok { va := srcX s a + W (elG s vb.toNat e wi * 2 ^ isc m), bit := 0, wm := curWm s }

/-- The number of registers of an index group (R152). -/
def indexRegs (d : DCtx) : Nat := max 1 (ixWidth d.snap.memfmt d.ew / d.ew)

/-- Elements of a group of micro-operations of a gather or scatter, by its widest width (R53, R156). -/
def indexGroup (s : State) : Nat := max 1 (8 * groupBytes s / max (ew s) (ixWidth s.hart.cur.snap.memfmt (ew s)))

/-- The registers of the index group. -/
def indexList (s : State) (vb : BitVec 5) : List Nat := (List.range (indexRegs (curDctx s))).map (vb.toNat + ·)

/-- The decode check of an indexed form: `memfmt`, and the index group (R40, R152). -/
def indexCheck (vb : BitVec 5) (d : DCtx) : Option Cause :=
  match memfmtCheck true d with
  | some c => some c
  | none => if 8 < indexRegs d ∨ 32 < vb.toNat + indexRegs d then some .illegal else none

/-! ### Members of the element-wise forms -/

/-- `vld` (R150). -/
def memVld (f : OpVM) : Member :=
  { check := memfmtCheck false, dsts := [f.vd.toNat],
    run := fun s => loadVec s f.vd.toNat f.pred.toNat 0 [] reach (footUnit s f.a) }

/-- `vlds` (R150). -/
def memVlds (f : OpVM) : Member :=
  { check := memfmtCheck true, dsts := [f.vd.toNat],
    run := fun s => loadVec s f.vd.toNat f.pred.toNat 0 [] reach (footStride s f.a f.b) }

/-- `vldx` (R150, R152). -/
def memVldx (f : OpVMX) : Member :=
  { check := indexCheck f.vb, dsts := [f.vd.toNat], sized := fun d => [(f.vb.toNat, indexRegs d)],
    run := fun s => loadVec s f.vd.toNat f.pred.toNat (indexGroup s) (indexList s f.vb) (reachScoped f.sc.toNat) (footIndex s f.a f.vb) }

/-- The lowest active body element at which an access of the load would trap TFAULT or PERM, and no other condition comes first
(R153). -/
def firstFault (s : State) (p : Nat) (foot : Nat → Except Trap Foot) : Option Nat :=
  let r := forUp (s.hart.cur.vl - s.hart.cur.vstart) s.hart.cur.vstart ((none, false) : Option Nat × Bool) fun e a =>
    if a.1.isSome || a.2 || !active s p e then a
    else
      match foot e with
      | .error _ => (none, true)
      | .ok f =>
        match reach s f .load with
        | (_, .trap tr) => if tr.cause = .tfault ∨ tr.cause = .perm then (some e, true) else (none, true)
        | _ => a
  r.1

/-- `vld.ff` (R153): it shortens `vl` also when its convoy stops below the element it found; `ffidx` is a result of that element. -/
def memVldFf (f : OpVM) : Member :=
  { check := memfmtCheck false, dsts := [f.vd.toNat],
    run := fun s =>
      let s' :=
        match firstFault s f.pred.toNat (footUnit s f.a) with
        | some k =>
          if k ≤ s.hart.cur.vstart then s
          else
            let n := if k < s.hart.cur.stop.getD s.hart.cur.vl then k else s.hart.ffidx
            { s with hart := { s.hart with ffidx := n, cur := { s.hart.cur with vl := k } } }
        | none => s
      loadVec (preWalk s f.pred.toNat 0 [] reach .load (footUnit s f.a) |> fun t =>
          { t with hart := { t.hart with ffidx := s'.hart.ffidx, cur := { s'.hart.cur with walked := t.hart.cur.walked } } })
        f.vd.toNat f.pred.toNat 0 [] reach (footUnit s f.a) }

/-- `vst` (R151). -/
def memVst (f : OpVM) : Member :=
  { check := memfmtCheck false, srcs := [f.vd.toNat],
    run := fun s => storeVec s f.vd.toNat f.pred.toNat 0 [] reach (footUnit s f.a) }

/-- `vsts` (R151). -/
def memVsts (f : OpVM) : Member :=
  { check := memfmtCheck true, srcs := [f.vd.toNat],
    run := fun s => storeVec s f.vd.toNat f.pred.toNat 0 [] reach (footStride s f.a f.b) }

/-- `vstx` (R151, R152). -/
def memVstx (f : OpVMX) : Member :=
  { check := indexCheck f.vb, srcs := [f.vd.toNat], sized := fun d => [(f.vb.toNat, indexRegs d)],
    run := fun s => storeVec s f.vd.toNat f.pred.toNat (indexGroup s) (indexList s f.vb) (reachScoped f.sc.toNat) (footIndex s f.a f.vb) }

/-! ### Linked forms (R151, R340 to R342) -/

/-- The convoy lies in a joint body of a splice, and the tag forms a pair. -/
def pairOf (s : State) (tag : Nat) : Option Splice :=
  match s.hart.splice, spliceCodeAt s.hart s.hart.cur.addr with
  | some sp, some i => if sp.unzipped.isNone && i.region == 1 && sp.tags.contains tag then some sp else none
  | _, _ => none

/-- Replace the held stores of the splice. -/
def setLinked (s : State) (l : List Linked) : State :=
  match s.hart.splice with
  | some sp => { s with hart := { s.hart with splice := some { sp with linked := l } } }
  | none => s

/-- The memory pattern and poison of element e of a held store. -/
def linkedEl (k : Linked) (wm e : Nat) : Nat × Bool :=
  (storeConv k.snap k.ew wm (bitsN k.data.val (e * k.ew) k.ew), bitsN k.data.cells (e * k.ew / 2) (k.ew / 2) != 0)

/-- Release the elements of a held store, in element order, at the epoch now in force (R340, R342); or what stands against it: the first
condition, or, `none`, a page in migration. An element whose own place has been checked is stored there when its page has since been taken
away: it traps nothing any more. -/
def releaseLinked (s : State) (k : Linked) : State × Option (Option Trap) :=
  let wm := memWidth k.snap k.ew
  let r := forUp (k.hi - k.lo) k.lo ((s, none) : State × Option (Option Trap)) fun e a =>
    if a.2.isSome then a
    else
      let f := unitFoot k.base wm e
      match reach a.1 f .store with
      | (u, .ok l) => (footStore u f l (linkedEl k wm e).1 (linkedEl k wm e).2 .vector u.hart.epoch, none)
      | (_, .trap tr) =>
        match k.placed[e - k.lo]? with
        | some (st :: l) => ((st :: l).foldl (fun t st => release t { st with epoch := t.hart.epoch }) a.1, none)
        | _ => (a.1, some (some tr))
      | (_, _) => (a.1, some none)
  (markWhole s.hart.storeQ.length r.1, r.2)

/-- The stores that element e of a linked store would make now. -/
def placeLinked (s : State) (k : Linked) (e : Nat) : List PStore :=
  let wm := memWidth k.snap k.ew
  let f := unitFoot k.base wm e
  match reach { s with hart := { s.hart with storeQ := [] } } f .store with
  | (u, .ok l) => (footStore u f l (linkedEl k wm e).1 (linkedEl k wm e).2 .vector 0).hart.storeQ
  | _ => []

/-- A linked store: as `vst`, unless it is the producer of a pair in a joint body; then its elements are held (R340), after the
checks of its own place when the store will be performed (R342). DEDUCED: log entry 26. -/
def runLinkedStore (f : OpVM) (transient : Bool) (s : State) : State :=
  match pairOf s f.pred.toNat with
  | none => storeVec s f.vd.toNat 0 0 [] reach (footUnit s f.a)
  | some sp =>
    let t :=
      if sp.both.contains f.pred.toNat then s
      else memLoop (preWalk s 0 0 [] reach .store (footUnit s f.a)) (fun _ => true) fun e t =>
        match reach t (unitFoot (srcX s f.a) (curWm s) e) .store with
        | (u, .ok _) => u
        | (u, .stall) => mustWait u none
        | (_, .trap tr) => raise t e tr
        | (u, .missed) => u
    let k : Linked := {
      tag := f.pred.toNat, base := srcX s f.a, lo := s.hart.cur.vstart, hi := limit t, vl := s.hart.cur.vl, ew := ew s,
      memfmt := s.hart.cur.snap.memfmt, transient := transient, forwarded := false,
      data := { val := s.hart.v[f.vd.toNat].toNat, cells := s.hart.vp[f.vd.toNat].toNat },
      snap := s.hart.cur.snap, addr := s.hart.cur.addr, index := s.hart.cur.index, placed := [] }
    let k := if sp.both.contains f.pred.toNat then k else { k with placed := (List.range (k.hi - k.lo)).map fun i => placeLinked t k (k.lo + i) }
    if k.lo < k.hi then setLinked t (sp.linked ++ [k]) else t

/-- The granules of an address range, named by address: 8 bytes in the scratchpad window, 64 bytes elsewhere (R184). -/
def granulesAt (va n : Nat) : List Nat :=
  let g := if spBase ≤ va then 8 else 64
  (List.range ((va + n - 1) / g - va / g + 1)).map fun i => (va / g + i) * g

/-- Element `e` of the load, of `wc` bits, reads as poison once a held store of elements of `wm` bits has been performed: a poisoned element writes one
of its granules, or the granule was poisoned before and the store does not write it whole, or its module has failed (R184, R341, R350). -/
def forwardPoison (s : State) (k : Linked) (wm wc : Nat) : Nat → Bool :=
  let b := k.base.toNat
  let span (w e : Nat) : List Nat := granulesAt (b + e * w / 8) (unitFoot k.base w e).bytes
  let bad := (List.range k.hi).flatMap fun e => if (linkedEl k wm e).2 then span wm e else []
  let before (g : Nat) : Bool :=
    let n := if spBase ≤ b then 8 else 64
    match peekPlace s (W g) with
    | some h => failedIn s h.key n || !(decide (b ≤ g) && decide (8 * (g + n) ≤ 8 * b + k.hi * wm)) && readsPoison s h.key n
    | none => false
  fun e => (span wc e).any fun g => bad.contains g || before g

/-- The bits that a held store writes from its address on: the patterns of its elements, one after the other (R148, R341). -/
def linkedImage (k : Linked) (wm : Nat) : Nat := forUp k.hi 0 0 fun e v => v + (linkedEl k wm e).1 % 2 ^ wm * 2 ^ (e * wm)

/-- `n` bits from bit `o` past the address of a held store, as memory reads once the store has been performed (R341): those beyond the store are the
bytes that lie there, a free value where no translation reaches. DESIGN CHOICE: log entry 110. -/
def forwardBits (s : State) (k : Linked) (wm o n : Nat) : Nat :=
  let image := linkedImage k wm
  let byteAt (i : Nat) : Nat :=
    match peekPlace s (k.base + W i) with
    | some h => hartByte s h.key
    | none => (Config.beyond (k.base + W i)).toNat
  let bit (b : Nat) : Nat := if b < k.hi * wm then bitsN image b 1 else bitsN (byteAt (b / 8)) (b % 8) 1
  if o + n ≤ k.hi * wm then bitsN image o n else forUp n 0 0 fun i v => v + bit (o + i) * 2 ^ i

/-- Receive a forwarded store: the value the load would read if the store had just been performed, under the memory format of each role (R341). -/
def runForward (f : OpVM) (k : Linked) (s : State) : State :=
  let w := ew s
  let wm := memWidth k.snap k.ew
  let wc := curWm s
  let pois := forwardPoison s k wm wc
  writeVec s f.vd.toNat w 0 fun e => (loadConv s.hart.cur.snap w wc (forwardBits s k wm (e * wc) wc), pois e)

/-- The check of R340: the two members agree in address, `vl`, `vstart`, EW and memory format. -/
def linkedCheck (f : OpVM) (k : Linked) (s : State) : Bool :=
  k.lo == 0 && k.hi == k.vl && s.hart.cur.vstart == 0 && k.base == srcX s f.a && k.vl == s.hart.cur.vl && k.ew == ew s &&
  k.memfmt == s.hart.cur.snap.memfmt

/-- The pair of a tag has passed its check for a member of this convoy: it is not made again after a stop (R345). -/
def markPassed (tag : Nat) (s : State) : State :=
  { s with hart := { s.hart with cur := { s.hart.cur with passed := insertN tag s.hart.cur.passed } } }

/-- A condition of a store that was held is its own: the convoy and the member that it was posted in (R90, R343). -/
def blameStore (s : State) (k : Linked) (tr : Trap) : State :=
  if (s.hart.cur.fault.map fun f => decide (f.1 ≤ s.hart.cur.vstart)).getD false then s
  else { s with hart := { s.hart with cur := { s.hart.cur with fault := some (s.hart.cur.vstart, k.index, tr), blame := some k.addr } } }

/-- A linked load: as `vld`, unless it is the consumer of a pair in a joint body. Then the check of R340 decides, at each issue of the
member: a pair that passes is forwarded; otherwise the held elements are released, and the load runs as its plain form. A convoy that is run
again after a stop receives the values kept for it (R345). -/
def runLinkedLoad (f : OpVM) (s : State) : State :=
  let plain (s : State) : State := loadVec s f.vd.toNat 0 0 [] reach (footUnit s f.a)
  match pairOf s f.pred.toNat with
  | none => plain s
  | some sp =>
    let mine := sp.linked.filter fun k => k.tag == f.pred.toNat
    match mine with
    | [] => plain s
    | k :: more =>
      if s.hart.cur.passed.contains k.tag then runForward f k s
      else if more.isEmpty && linkedCheck f k s then
        runForward f k (markPassed k.tag (setLinked s (sp.linked.map fun q => if q.tag = k.tag then { q with forwarded := true } else q)))
      else
        let r := mine.foldl (fun (a : State × Option (Option Trap × Linked)) k =>
          if a.2.isSome then a
          else
            match releaseLinked a.1 k with
            | (u, none) => (u, none)
            | (u, some tr) => (u, some (tr, k))) (s, none)
        match r with
        | (u, none) => plain (setLinked u (sp.linked.filter fun k => k.tag != f.pred.toNat))
        | (_, some (none, _)) => mustWait s none
        | (_, some (some tr, k)) => blameStore s k tr

/-- `vld.xN` (R150, R340). -/
def memVldXn (f : OpVM) : Member := { check := memfmtCheck false, dsts := [f.vd.toNat], run := runLinkedLoad f }

/-- `vld.xtN` (R150, R340). -/
def memVldXtn (f : OpVM) : Member := { check := memfmtCheck false, dsts := [f.vd.toNat], run := runLinkedLoad f }

/-- `vst.xN` (R151, R340). -/
def memVstXn (f : OpVM) : Member := { check := memfmtCheck false, srcs := [f.vd.toNat], run := runLinkedStore f false }

/-- `vst.xtN` (R151, R340). -/
def memVstXtn (f : OpVM) : Member := { check := memfmtCheck false, srcs := [f.vd.toNat], run := runLinkedStore f true }

/-! ### Copies (R165) -/

/-- Footprints of a copy. -/
def footUnitAt (base : Word) (w e : Nat) : Except Trap Foot := .ok (unitFoot base w e)

/-- `vcopy`: element by element in ascending order, each load seeing the stores of lower elements. -/
def memVcopy (f : OpVM) : Member :=
  { check := needEw ewInt,
    run := fun s =>
      let w := ew s
      let p := f.pred.toNat
      let t := preWalk s p 0 [] reach .load (footUnitAt (srcX s f.a) w)
      let t := preWalk t p 0 [] reach .store (footUnitAt (srcX s f.vd) w)
      markWhole s.hart.storeQ.length <| memLoop t (active s p) fun e t =>
        let src := unitFoot (srcX s f.a) w e
        let dst := unitFoot (srcX s f.vd) w e
        match reach t src .load with
        | (_, .trap tr) => raise t e tr
        | (u, .ok l) =>
          match reach u dst .store with
          | (_, .trap tr) => raise t e tr
          | (u, .ok m) =>
            let u := flushSpan u l
            let x := footRead u src l
            footStore u dst m x.1 (x.2 || activeP s p e) .vector s.hart.cur.epoch
          | (u, _) => mustWait u none
        | (u, _) => mustWait u none }

/-! ### Spill frames (R162 to R164) -/

/-- Translate every page of `n` bytes at an address ahead of the accesses, those behind a page that faults too (R156, R274). -/
def walkPages (s : State) (va : Word) (n : Nat) (acc : Acc) : State :=
  forUp (if n = 0 then 0 else (va.toNat % 4096 + n - 1) / 4096 + 1) 0 s fun i t =>
    match hartPiece acc t (if i = 0 then va else va - W (va.toNat % 4096) + W (4096 * i)) 1 with
    | (u, .ok h) => noteWalk [(h, 1)] acc u
    | (u, _) => u

/-- The 64-byte header of a spill frame (R162). -/
def spillHeader (s : State) (reg : Nat) : Nat :=
  s.hart.cur.vl + 2 ^ 64 * s.hart.cur.vtype.toNat + 2 ^ 128 * vrlen s + 2 ^ 144 * reg + 2 ^ 152

/-- The part of its byte that element `e` of a width below 8 stores: with the last element of a byte that is performed, the bits from the
byte's first element, or from `vstart` when the spill resumes inside it, up to that element, and up to the end of the byte at the last body
element (R90, R163). -/
def spillBits (s t : State) (w e : Nat) : Option (Nat × Nat) :=
  if (e + 1) * w % 8 = 0 ∨ limit t ≤ e + 1 then
    let lo := max (e * w / 8 * 8) (s.hart.cur.vstart * w)
    let hi := if e + 1 = s.hart.cur.vl then (e * w / 8 + 1) * 8 else (e + 1) * w
    some (lo, hi - lo)
  else none

/-- `vspill`: the header with element 0, as four stores of 16 bytes in ascending order, then the register's bytes element by element
(R163). A misaligned address is reported as it is (R154). DEDUCED: log entry 96. -/
def memVspill (f : OpVM) : Member :=
  { check := needEw ewAny, srcs := [f.vd.toNat],
    run := fun s =>
      let w := ew s
      let base := srcX s f.a
      if s.hart.cur.vstart < s.hart.cur.vl && base.toNat % 64 != 0 then raise s s.hart.cur.vstart ⟨.misalign, base⟩
      else
        let put (v n : Nat) (pois : Bool) (va : Word) (e : Nat) (t : State) : State :=
          let foot : Foot := { va := va, bit := 0, wm := 8 * n }
          match reach t foot .store with
          | (u, .ok l) => footStore u foot l v pois .vector s.hart.cur.epoch
          | (_, .trap tr) => raise t e tr
          | (u, _) => mustWait u none
        let hdr := spillHeader s f.vd.toNat
        let walked := if s.hart.cur.vstart = 0 ∧ 0 < s.hart.cur.vl then walkPages s base 64 .store else s
        let walked := preWalk walked 0 0 [] reach .store fun e =>
          .ok { va := base + W (64 + e * w / 8), bit := 0, wm := max 8 w }
        markWhole s.hart.storeQ.length <| memLoop walked (fun _ => true) fun e t =>
          let t := if e = 0 then
              forUp 4 0 t fun i t =>
                if t.hart.cur.fault == s.hart.cur.fault then put (bitsN hdr (128 * i) 128) 16 false (base + W (16 * i)) e t else t
            else t
          if t.hart.cur.fault != s.hart.cur.fault || t.hart.cur.wait.isSome then t
          else if 8 ≤ w then put (el s f.vd.toNat e w) (w / 8) (elP s f.vd.toNat e w) (base + W (64 + e * (w / 8))) e t
          else
            let byte : Foot := { va := base + W (64 + e * w / 8), bit := 0, wm := 8 }
            match reach t byte .store with
            | (u, .ok l) =>
              match spillBits s t w e with
              | some (lo, n) =>
                footStore u { byte with bit := lo % 8, wm := n } l (bitsN s.hart.v[f.vd.toNat].toNat lo n)
                  (bitsN s.hart.vp[f.vd.toNat].toNat (lo / 2) (ceilDiv n 2) != 0) .vector s.hart.cur.epoch
              | none => u
            | (_, .trap tr) => raise t e tr
            | (u, _) => mustWait u none }

/-- `vfill`: its body is the elements from `vstart` to `vlmax` − 1 whatever `vl` is (R164). -/
def memVfill (f : OpVM) : Member :=
  { check := needEw ewAny, dsts := [f.vd.toNat],
    run := fun s =>
      let w := ew s
      let base := srcX s f.a
      let k0 := s.hart.cur.vstart
      let most := curVlmax s
      let bound (t : State) : Nat :=
        let a := s.hart.cur.stop.getD most
        match t.hart.cur.fault with
        | some (k, _, _) => min a k
        | none => a
      if most ≤ k0 ∨ bound s ≤ k0 then s
      else if base.toNat % 64 ≠ 0 then raise s k0 ⟨.misalign, base⟩
      else
        match hartSpan s base 64 .load with
        | (_, .trap tr) => raise s k0 tr
        | (u, .stall) => mustWait u none
        | (u, .ok l) =>
          let u := flushSpan (noteWalk l .load u) l
          if spanPoison u l then raise u k0 ⟨.poison, base⟩
          else
            let hdr := spanRead u l
            let dh :=
              if bitsN hdr 152 8 = 1 ∧ bitsN hdr 64 3 < 6 then
                min (ceilDiv (bitsN hdr 0 64 * widthOf (bitsN hdr 64 3)) 8) (vrlen s)
              else 0
            let wb := max w 8 / 8
            let u := walkPages u (base + W (64 + k0 * w / 8)) (dh - k0 * w / 8) .load
            forUp (most - k0) k0 u fun e t =>
              if e < bound t && t.hart.cur.wait.isNone then
                let o := e * w / 8
                if dh ≤ o then setEl t f.vd.toNat e w 0 false
                else
                  let n := min wb (dh - o)
                  match hartSpan t (base + W (64 + o)) n .load with
                  | (_, .trap tr) => raise t e tr
                  | (u, .stall) => waitAtEl u e none
                  | (u, .ok l) =>
                    let u := flushSpan u l
                    setEl u f.vd.toNat e w (bitsN (spanRead u l) (e * w % 8) w) (spanPoison u l)
              else t }

/-! ### ZB32 compressed data (R159 to R161, R259) -/

/-- What `vldc` reads: bytes of memory, or the staging window of a record. -/
inductive Source where
  | memory (l : List (Hit × Nat))
  | staged (st : Stream)
  deriving DecidableEq, Repr

/-- Bytes `o` to `o + n − 1` of the source as a number, or the lowest of them that is poisoned. -/
def srcRead (s : State) : Source → Nat → Nat → Except Nat Nat
  | .memory l, o, n =>
    let at' (i : Nat) : Byte × Bool :=
      match spanAt l (o + i) with
      | some h => (BitVec.ofNat 8 (hartByte s h.key), readsPoison s h.key 1)
      | none => (0, false)
    match (List.range n).find? fun i => (at' i).2 with
    | some i => .error (o + i)
    | none => .ok (leNat ((List.range n).map fun i => (at' i).1))
  | .staged st, o, n =>
    let bs := (st.staged.drop o).take n
    match bs.findIdx? fun b => b.2 with
    | some i => .error (o + i)
    | none => .ok (leNat (bs.map fun b => b.1))

/-- The non-zero elements of a block laid out by its mask. -/
def zbElem (mask body w i : Nat) : Nat :=
  if bitN mask i then bitsN body (w * popN i (mask % 2 ^ i)) w else 0

/-- The state of `vldc` block by block. -/
structure Zb where
  n : Nat
  used : Nat
  done : Bool
  pois : Option Nat
  waits : Bool
  deriving DecidableEq, Repr

/-- The loop of `vldc` (R160): at most `fuel` blocks. -/
def zbLoop (src : Source) (d w vl bound : Nat) : Nat → State × Zb → State × Zb
  | 0, a => a
  | fuel + 1, (s, z) =>
    let have' (m : Nat) : Bool := match src with
      | .memory _ => true
      | .staged st => decide (m ≤ st.staged.length)
    let ends : Bool := match src with
      | .memory _ => false
      | .staged st => st.exhausted
    if z.done || decide (vl < 32 * (z.n + 1)) || decide (bound < z.used + 4) then (s, { z with done := true })
    else if !have' (z.used + 4) then (s, { z with done := true, waits := !ends })
    else
      match srcRead s src z.used 4 with
      | .error o => (s, { z with done := true, pois := some o })
      | .ok mask =>
        let size := 4 + w / 8 * popN 32 mask
        if bound < z.used + size then (s, { z with done := true })
        else if !have' (z.used + size) then (s, { z with done := true, waits := !ends })
        else
          match srcRead s src (z.used + 4) (size - 4) with
          | .error o => (s, { z with done := true, pois := some o })
          | .ok body =>
            let s := forUp 32 0 s fun i s => setEl s d (32 * z.n + i) w (zbElem mask body w i) false
            zbLoop src d w vl bound fuel (s, { z with n := z.n + 1, used := z.used + size })

/-- What `vldc` leaves at retirement: the elements, the shortened `vl`, the two scalars, the staged bytes consumed (R160). -/
def vldcDone (f : OpVM) (base : Word) (b : Nat) (src : Source) (s : State) (z : Zb) : State :=
  let w := ew s
  let s := { s with hart := { s.hart with cur := { s.hart.cur with vl := 32 * z.n } } }
  let s := if tz s && 0 < z.n then zeroTail s f.vd.toNat (32 * z.n * w) else s
  let s := match src with
    | .staged st => setStream s { st with staged := st.staged.drop z.used, eaten := st.eaten + z.used }
    | .memory _ => s
  writeX (writeX s f.a (base + W z.used)) (f.a + 1) (W (b - z.used))

/-- The record whose staging window holds an address (R259). -/
def stagingOf (s : State) (a : Word) : Option Stream :=
  if inWindow a.toNat && decide (spBase + 0x80000000 ≤ a.toNat) then
    s.hart.streams.find? fun r => r.comp == 2 && r.handle == (a.toNat - (spBase + 0x80000000)) / 0x10000000 + 1
  else none

/-- `vldc` (R160, R259): a whole member. DEDUCED: log entry 25. -/
def memVldc (f : OpVM) : Member :=
  { check := needEw ewInt, whole := true, dsts := [f.vd.toNat], hurt := hurtScalar,
    run := fun s =>
      let base := srcX s f.a
      let b := (srcX s (f.a + 1)).toNat
      let vl := s.hart.cur.vl
      let go (t : State) (src : Source) : State :=
        let r := zbLoop src f.vd.toNat (ew s) vl b (vl / 32 + 1) (t, { n := 0, used := 0, done := false, pois := none, waits := false })
        match r.2.pois with
        | some o => raise t s.hart.cur.vstart ⟨.poison, base + W o⟩
        | none =>
          if r.2.waits then
            mustWait s (match src with
              | .staged st => some st.recAddr
              | .memory _ => none)
          else vldcDone f base b src r.1 r.2
      match stagingOf s base with
      | some st =>
        if base.toNat ≠ spBase + 0x80000000 + (st.handle - 1) * 0x10000000 + st.eaten then
          raise s s.hart.cur.vstart ⟨.stream, st.recAddr⟩
        else go s (.staged st)
      | none =>
        if vl = 0 then go s (.memory [])
        else
          match hartSpan s base b .load with
          | (_, .trap tr) => raise (walkPages s base b .load) s.hart.cur.vstart tr
          | (u, .stall) => mustWait u none
          | (u, .ok l) => go (flushSpan (noteWalk l .load u) l) (.memory l) }

/-- The pattern and poison of an element of `vstc`: zero when inactive or at or above `vl` (R161). -/
def vstcEl (s : State) (f : OpVM) (e : Nat) : Nat × Bool :=
  let p := f.pred.toNat
  if e < s.hart.cur.vl ∧ active s p e then (el s f.vd.toNat e (ew s), elP s f.vd.toNat e (ew s) || activeP s p e) else (0, false)

/-- Store `n` bytes of a number at byte `o` of a range, byte by byte. -/
def putBytes (l : List (Hit × Nat)) (v : Nat) (pois : Bool) (o : Nat) (s : State) (n : Nat) : State :=
  forUp n 0 s fun i s =>
    match spanAt l (o + i) with
    | some h => release (flushCombine s h.key 1) (mkStore s h 1 (v / 256 ^ i) 255 pois .vector s.hart.cur.epoch)
    | none => s

/-- Block `n` of `vstc`: its mask, whether the mask is poisoned, and its non-zero elements. -/
def vstcBlock (s : State) (f : OpVM) (n : Nat) : Nat × Bool × List (Nat × Bool) :=
  let es := (List.range 32).map fun i => vstcEl s f (32 * n + i)
  let on (x : Nat × Bool) : Bool := x.1 != 0 || x.2
  (es.foldr (fun x m => 2 * m + (if on x then 1 else 0)) 0, es.any fun x => x.2, es.filter on)

/-- The loop of `vstc` (R161): the number of blocks written and their bytes. -/
def vstcLoop (f : OpVM) (l : List (Hit × Nat)) (s0 : State) (b total : Nat) : Nat → State × Nat × Nat → State × Nat × Nat
  | 0, a => a
  | fuel + 1, (s, n, used) =>
    if total ≤ n then (s, n, used)
    else
      let blk := vstcBlock s0 f n
      let wb := ew s0 / 8
      let size := 4 + wb * blk.2.2.length
      if b < used + size then (s, n, used)
      else
        let s := putBytes l blk.1 blk.2.1 used s 4
        let s := (blk.2.2.foldl (fun (a : State × Nat) x => (putBytes l x.1 x.2 a.2 a.1 wb, a.2 + wb)) (s, used + 4)).1
        vstcLoop f l s0 b total fuel (s, n + 1, used + size)

/-- `vstc` (R161): a whole member. -/
def memVstc (f : OpVM) : Member :=
  { check := needEw ewInt, whole := true, srcs := [f.vd.toNat], hurt := hurtScalar,
    run := fun s =>
      let base := srcX s f.a
      let b := (srcX s (f.a + 1)).toNat
      let total := ceilDiv s.hart.cur.vl 32
      match hartSpan s base (min b (total * (4 + 4 * ew s))) .store with
      | (_, .trap tr) => raise (walkPages s base (min b (total * (4 + 4 * ew s))) .store) s.hart.cur.vstart tr
      | (u, .stall) => mustWait u none
      | (u, .ok l) =>
        let r := vstcLoop f l s b total total (u, 0, 0)
        let t := markWhole s.hart.storeQ.length r.1
        let t := { t with hart := { t.hart with cur := { t.hart.cur with vl := min s.hart.cur.vl (32 * r.2.1) } } }
        writeX (writeX t f.a (base + W r.2.2)) (f.a + 1) (W (b - r.2.2)) }

end Sys2Proof.Machine
end

