-- ==== Sys2Proof/Machine/VAtom.lean ====
section
/-! DEFINITION. Vector atomics, combining forms, waits, fences, accumulation windows and pennant members (R39, R173 to R183). -/

namespace Sys2Proof.Machine

noncomputable section

/-! ### Vector atomics (R175 to R178) -/

/-- The number of registers of an address group (R175). -/
def addrRegs (d : DCtx) : Nat := 64 / max d.ew 1

/-- The decode check of a vector atomic or `vwait`: EW 32 or 64, the address group, and NONREPRO for a floating-point form while
`repro.EN` = 1 (R31, R40, R175). -/
def atomCheck (vb : BitVec 5) (fp : Bool) (d : DCtx) : Option Cause :=
  if d.ew ≠ 32 ∧ d.ew ≠ 64 then some .illegal
  else if 32 < vb.toNat + addrRegs d then some .illegal
  else if fp && reproEn d.snap then some .nonrepro
  else none

/-- Everything the hart stored before this convoy becomes visible, as a release asks; the convoy must still wait for the entries of the
access queue that were posted before it, and at `.du` for durability (R68, R176, R291). -/
def releaseWait (s : State) (sc : Nat) : State :=
  if (s.hart.aq.take s.hart.cur.aqAhead).any (entryAwaited s.hart) then mustWait s none
  else if sc = 6 ∧ !durableUpTo s (s.hart.cur.epoch - 1) then mustWait s none
  else retireWhere (drainAll s) fun _ => true

/-- The trap value of an atomic's condition: the element address (R177). -/
def atomTrap (t : Trap) (va : Word) : Trap := if t.cause = .perm then ⟨.perm, va⟩ else t

/-- An element's place for an atomic: a poisoned address, alignment, translation, scope, then permission (R174, R177). -/
def atomReach (s t : State) (f : OpVA) (acc : Acc) (e : Nat) : State × Found × Word :=
  let va := W (elG s f.vb.toNat e 64)
  if elGP s f.vb.toNat e 64 then (t, .trap ⟨.poison, 0⟩, va)
  else
    match reachScoped f.sc.toNat t { va := va, bit := 0, wm := ew s } acc with
    | (u, .trap tr) => (u, .trap (atomTrap tr va), va)
    | (u, r) => (u, r, va)

/-- One atomic element: the new value from the old one and the element's operands, or no write (R175, R176). `fresh` says that the new
value does not depend on the old one. -/
def atomElem (s u : State) (f : OpVA) (h : Hit) (e : Nat) (g : Nat → Option Nat) (fresh : Bool) (pv returns : Bool) : State :=
  let w := ew s
  let n := w / 8
  let u := drainTarget u (targetIn u h.key)
  let u := flushCombine u h.key n
  let old := hartRead u h.key n
  let po := readsPoison u h.key n
  let u :=
    match g old with
    | some v =>
      applyStore u (atomStore h.key n v (pv || po && !fresh) (bitN h.pte 56) (bitN h.pte 57) (keySlot s h.pte) s.hart.cur.epoch .vector)
    | none => u
  if returns then setEl u f.vd.toNat e w old (po || activeP s f.pred.toNat e) else u

/-- The scope at which a release of a vector atomic acts: `.du` is `.sy` when every place that it reaches is shed memory (R313). -/
def releaseScope (s : State) (f : OpVA) : Nat :=
  let es := (List.range s.hart.cur.vl).filter fun e => decide (s.hart.cur.vstart ≤ e) && active s f.pred.toNat e
  if f.sc = 6 && !es.isEmpty && es.all fun e => scopeAt s (W (elG s f.vb.toNat e 64)) 6 == 5 then 5 else f.sc.toNat

/-- A vector atomic (R176): `g` gives the new value from width, old value, operand and compare value. -/
def vatom (f : OpVA) (fp cas fresh : Bool) (g : State → Nat → Nat → Nat → Nat → Option Nat) : Member :=
  { check := atomCheck f.vb fp, srcs := if cas then [f.vd.toNat + 1] else [], groups := [], dsts := [f.vd.toNat], readsDst := true,
    sized := fun d => [(f.vb.toNat, addrRegs d)],
    run := fun s =>
      let w := ew s
      let p := f.pred.toNat
      let t := if f.rl && decide (s.hart.cur.vstart < limit s) then releaseWait s (releaseScope s f) else s
      let t := if fp && s.hart.cur.stop == none then setSeen t else t
      let o := openOld s f.vd.toNat
      let r := memLoop (openOld t f.vd.toNat) (fun _ => true) fun e t =>
        if active s p e then
          match atomReach s t f .store e with
          | (u, .ok [(h, _)], _) =>
            let v := el s f.vd.toNat e w
            let c := el s (f.vd.toNat + 1) e w
            let pv := elP s f.vd.toNat e w || activeP s p e || cas && elP s (f.vd.toNat + 1) e w
            atomElem s u f h e (fun old => g s w old v c) fresh pv true
          | (u, .missed, _) => setPsm u e
          | (_, .trap tr, _) => raise t e tr
          | (u, _, _) => mustWait u none
        else if activeP s p e then setEl t f.vd.toNat e w (if mz s then 0 else el o f.vd.toNat e w) true
        else if mz s then setEl t f.vd.toNat e w 0 false else t
      tail r f.vd.toNat w }

/-- A location with an update unit: a scratchpad bank or a die-cache slice (R178). -/
def combines (k : Nat) : Bool := targetOf k < 2000

/-- Two entries that combine: one address, width and op (R178), of one hart and persist epoch (R292). An entry of another hart or epoch
retires first. DEDUCED: log entry 85. -/
def combinesWith (q c : Combine) : Bool :=
  q.key == c.key && q.w == c.w && q.op == c.op && q.fp == c.fp && q.gang == c.gang && q.hart == c.hart && q.epoch == c.epoch

/-- Enter an element into its combining buffer (R178). -/
def enterCombine (u : State) (c : Combine) : State :=
  if u.combining.any fun q => combinesWith q c then
    { u with combining := u.combining.map fun q =>
        if combinesWith q c then { q with val := combineOp c.fp c.op c.rm c.w q.val c.val, poison := q.poison || c.poison, rm := c.rm } else q }
  else
    let u := flushCombine u c.key (c.w / 8)
    { u with combining := u.combining ++ [c] }

/-- The unit that serves a combining location: a scratchpad bank of a core or a slice (R157, R178). -/
def unitOf (k : Nat) : Nat :=
  if isSpadKey k then
    let w := (k - 2 ^ 57) % 2 ^ 21 / 8
    1000 + 64 * ((k - 2 ^ 57) / 2 ^ 21) + ((w % 64) ^^^ (w / 64 % 64))
  else targetOf k

/-- A buffer of 32 entries that is full makes room: its oldest entry retires (R178). -/
def makeRoom (u : State) (k : Nat) : State :=
  if (u.combining.countP fun c => unitOf c.key == unitOf k) < 32 then u
  else
    match u.combining.find? fun c => unitOf c.key == unitOf k with
    | some c => retireCombine { u with combining := u.combining.erase c } c
    | none => u

/-- A combining form (R178): no result, an update in a buffer; at a peer, a shed or the host it is performed as the returning form. -/
def vcomb (f : OpVA) (fp : Bool) (op : Nat) : Member :=
  { check := atomCheck f.vb fp, srcs := [f.vd.toNat], sized := fun d => [(f.vb.toNat, addrRegs d)],
    run := fun s =>
      let w := ew s
      let p := f.pred.toNat
      let t := if fp && s.hart.cur.stop == none then setSeen s else s
      memLoop t (active s p) fun e t =>
        match atomReach s t f .store e with
        | (u, .ok [(h, _)], _) =>
          let v := el s f.vd.toNat e w
          let pv := elP s f.vd.toNat e w || activeP s p e
          if combines h.key then
            let u := drainTarget u (targetIn u h.key)
            enterCombine (makeRoom u h.key) {
              key := h.key, w := w, op := op, fp := fp, val := v, poison := pv, rm := rmodeOf s, epoch := s.hart.cur.epoch,
              po := bitN h.pte 56, sealing := bitN h.pte 57, slot := keySlot s h.pte, gang := ownerGang s s.hart, hart := s.hart.hartid }
          else atomElem s u f h e (fun old => some (combineOp fp op (rmodeOf s) w old v)) false pv false
        | (u, .missed, _) => setPsm u e
        | (_, .trap tr, _) => raise t e tr
        | (u, _, _) => mustWait u none }

/-- Key of an element of the member that is performed in the list of elements a `vwait` has seen satisfied. -/
def waitKey (s : State) (e : Nat) : Nat := s.hart.cur.index * 65536 + e

/-- `vwait` (R179): each active body element is done once a read has satisfied its condition; the convoy waits for the rest. -/
def vwaitM (f : OpVA) (c : Nat → Nat → Nat → Bool) : Member :=
  { check := atomCheck f.vb false, srcs := [f.vd.toNat], sized := fun d => [(f.vb.toNat, addrRegs d)],
    run := fun s =>
      let w := ew s
      let p := f.pred.toNat
      let r := forUp (s.hart.cur.vl - s.hart.cur.vstart) s.hart.cur.vstart ((s, none, none) : State × Option Nat × Option (Nat × Trap))
        fun e a =>
          if a.2.2.isSome || !decide (e < limit s) || !active s p e || s.hart.cur.waited.contains (waitKey s e) then a
          else
            match atomReach s a.1 f .load e with
            | (u, .ok [(h, _)], va) =>
              let u := flushCombine u h.key (w / 8)
              let u := { u with hart := { u.hart with cur := { u.hart.cur with held := insertN h.pteAt u.hart.cur.held } } }
              if readsPoison u h.key (w / 8) then (a.1, a.2.1, some (e, ⟨.poison, va⟩))
              else if c w (hartRead u h.key (w / 8)) (el s f.vd.toNat e w) then
                ({ u with hart := { u.hart with cur := { u.hart.cur with waited := insertN (waitKey s e) u.hart.cur.waited } } },
                  a.2.1, none)
              else (u, some (a.2.1.getD e), none)
            | (u, .missed, _) => (setPsm u e, a.2.1, none)
            | (_, .trap tr, _) => (a.1, a.2.1, some (e, tr))
            | (u, _, _) => (u, some (a.2.1.getD e), none)
      match r with
      | (t, some e, _) => waitAtEl t e none
      | (t, none, some (e, tr)) => raise t e tr
      | (t, none, none) => t }

/-- Conditions of `vwait` (R179). -/
def wEq (w a b : Nat) : Bool := a % 2 ^ w == b % 2 ^ w
/-- `ge`, signed. -/
def wGe (w a b : Nat) : Bool := decide (signExt b w ≤ signExt a w)
/-- `gen`, natural. -/
def wGen (w a b : Nat) : Bool := decide (b % 2 ^ w ≤ a % 2 ^ w)

/-! ### Fences, windows and pennant members -/

/-- Loft stores of the hart's vector queue that are not durable (R291). -/
def vectorPending (s : State) : Bool :=
  (s.loftPend.any fun l => owns s s.hart l.gang l.hart && l.queue == .vector) ||
  (s.hart.storeQ.any fun q => isLoftKey q.key && q.queue == .vector) || s.combining.any fun c => isLoftKey c.key && owns s s.hart c.gang c.hart

/-- `vfence` (R173, R291): every store of earlier convoys is visible, combining updates included; at `.du` durable as well. -/
def memVfence (sc : BitVec 3) : Member :=
  { check := fun _ => none,
    run := fun s =>
      if s.hart.cur.stop != none then s
      else if sc = 6 ∧ vectorPending s then mustWait s none
      else retireWhere (drainAll s) fun _ => true }

/-- First key of the copies of a window (R180). -/
def copyKey (s : State) (w : Window) : Nat := spadKey s.hart.core + (w.table.toNat - spBase) + w.len * (w.w / 8)

/-- Write `n` bytes of the scratchpad that no queue holds a store to. -/
def pokeSpad (s : State) (k n v : Nat) : State := { s with mem := Memory.writeN s.mem k n v }

/-- The granules of the scratchpad that `n` bytes from a key cover whole lose their poison (R184). -/
def cleanSpad (s : State) (k n : Nat) : State :=
  { s with poison := s.poison.filter fun g => !(decide (granule (k + 7) ≤ g) && decide (g < granule (k + n))) }

/-- The identity of a window's operation at a width (R180). -/
def windowIdentity (op w : Nat) : Nat :=
  match op with
  | 1 => 2 ^ (w - 1) - 1
  | 2 => 2 ^ (w - 1)
  | 3 => 2 ^ w - 1
  | _ => 0

/-- A window's operation (R180). -/
def windowOp (op w a b : Nat) : Nat :=
  match op with
  | 0 => iAdd w a b
  | 1 => iMin w a b
  | 2 => iMax w a b
  | 3 => iMinn w a b
  | _ => iMaxn w a b

/-- A window becomes undeclared: its copy bytes read zero (R180, R182; log entry 10). -/
def dropWindow (s : State) (n : Nat) : State :=
  match s.hart.win[n % 4]'(Nat.mod_lt _ (by decide)) with
  | none => s
  | some w =>
    let bytes := lanes s * w.len * (w.w / 8)
    let s := cleanSpad { s with mem := Memory.clear s.mem (copyKey s w) bytes } (copyKey s w) bytes
    { s with hart := { s.hart with win := s.hart.win.set (n % 4) none (Nat.mod_lt _ (by decide)) } }

/-- `awin.decl` (R180): a whole member that ignores `vl`. Of the conditions that it names TFAULT comes before MISALIGN, and new copies that would lie on a
ring slot or on another window's copies trap PERM at the lowest such byte. DEDUCED: log entry 111. -/
def memAwinDecl (f : OpAW) : Member :=
  { check := needEw [32, 64], whole := true,
    run := fun s =>
      let w := ew s
      let base := srcX s f.a
      let len := (srcX s f.b).toNat
      let n := w / 8
      let lo := spBase + s.hart.stall * partBytes s
      let copies := base.toNat + len * n
      let bytes := lanes s * len * n
      if len = 0 ∨ 4096 < len ∨ base.toNat < lo ∨ lo + partBytes s < copies + bytes then
        raise s s.hart.cur.vstart ⟨.tfault, base⟩
      else if base.toNat % n ≠ 0 then raise s s.hart.cur.vstart ⟨.misalign, base⟩
      else
        let s' := dropWindow s f.n.toNat
        let key := spadKey s.hart.core + (copies - spBase)
        match reservedByte s' s.hart.core key bytes with
        | some b => raise s s.hart.cur.vstart ⟨.perm, W (copies + (b - key))⟩
        | none =>
          let t := drainTarget s' (targetIn s' key)
          let t := flushCombine t key bytes
          let t := forUp (lanes s * len) 0 (cleanSpad t key bytes) fun i t => pokeSpad t (key + i * n) n (windowIdentity f.pred.toNat w)
          let win : Window := { op := f.pred.toNat, w := w, table := base, len := len }
          { t with hart := { t.hart with win := t.hart.win.set (f.n.toNat % 4) (some win) (Nat.mod_lt _ (by decide)) } } }

/-- The window a member names. -/
def windowOf (s : State) (n : BitVec 2) : Option Window := s.hart.win[n.toNat]

/-- A scratchpad word of a copy with its poison. -/
def copyRead (s : State) (k n : Nat) : Nat × Bool :=
  (Memory.readN s.mem k n, (granulesOf k n).any (granulePois s))

/-- `awin.upd` (R181): resumable, each element folded into the copy of its lane. DEDUCED: log entry 24. -/
def memAwinUpd (f : OpAW) : Member :=
  { check := fun _ => none, srcs := [f.a.toNat, f.b.toNat],
    run := fun s =>
      let w := ew s
      let p := f.pred.toNat
      match windowOf s f.n with
      | none => raise s s.hart.cur.vstart ⟨.illegal, W (encode (.awinUpd f))⟩
      | some win =>
        if win.w ≠ w then raise s s.hart.cur.vstart ⟨.illegal, W (encode (.awinUpd f))⟩
        else
          memLoop s (active s p) fun e t =>
            let i := el s f.a.toNat e w
            if elP s f.a.toNat e w then raise t e ⟨.poison, 0⟩
            else if win.len ≤ i then raise t e ⟨.tfault, win.table + W (i * (w / 8))⟩
            else
              let k := copyKey s win + (e * w / 64 % lanes s * win.len + i) * (w / 8)
              let old := copyRead t k (w / 8)
              let pois := old.2 || elP s f.b.toNat e w || activeP s p e
              let v := windowOp win.op w old.1 (el s f.b.toNat e w)
              let t := { t with mem := Memory.writeN t.mem k (w / 8) v }
              { t with poison := poisonAfter t.poison (granulesOf k (w / 8)) pois (w == 64) } }

/-- `awin.merge` (R182): a whole member; the copies fold into the table in lane order. -/
def memAwinMerge (f : OpAW) : Member :=
  { check := fun _ => none, whole := true,
    run := fun s =>
      match windowOf s f.n with
      | none => raise s s.hart.cur.vstart ⟨.illegal, W (encode (.awinMerge f))⟩
      | some win =>
        let n := win.w / 8
        let t := forUp win.len 0 s fun i t =>
          if t.hart.cur.fault != s.hart.cur.fault then t
          else
            match checkAccess t (win.table + W (i * n)) n n .store with
            | (_, .trap tr) => raise t s.hart.cur.vstart tr
            | (u, .stall) => mustWait u none
            | (u, .ok h) =>
              let u := flushCombine u h.key n
              let r := forUp (lanes s) 0 ((hartRead u h.key n, readsPoison u h.key n) : Nat × Bool) fun l a =>
                let c := copyRead u (copyKey s win + (l * win.len + i) * n) n
                (windowOp win.op win.w a.1 c.1, a.2 || c.2)
              release u (mkStore u h n r.1 (256 ^ n - 1) r.2 .vector s.hart.cur.epoch)
        if t.hart.cur.fault != s.hart.cur.fault then t else dropWindow (markWhole s.hart.storeQ.length t) f.n.toNat }

/-- `pn.take` (R26, R39): the convoy takes one pennant before it issues, once. -/
def memPnTake (c : BitVec 3) : Member :=
  { check := fun _ => none,
    run := fun s =>
      if s.hart.cur.taken.isSome then s
      else
        match pnList s.hart c.toNat with
        | [] => mustWait s (some (W c.toNat))
        | x :: l =>
          let t := pnSet s c.toNat l
          { t with hart := { t.hart with cur := { t.hart.cur with taken := some x } } } }

/-- Post a pennant as the convoy retires: its writes are visible first; a full channel stalls the retirement (R26, R27, R53). -/
def postMember (c : BitVec 3) (payload : State → BitVec 32) : Member :=
  { check := fun _ => none,
    run := fun s =>
      if s.hart.cur.stop != none || s.hart.cur.fault.isSome then s
      else if 64 ≤ (pnList s.hart c.toNat).length then mustWait s (some (W c.toNat))
      else pnPush (retireWhere (drainAll s) fun _ => true) c.toNat (payload s) }

/-- `pn.post` (R39). -/
def memPnPost (c : BitVec 3) : Member := postMember c fun _ => 0

/-- `pn.post.vl`: the payload is the convoy's `vl` (R39; log entry 11). -/
def memPnPostVl (c : BitVec 3) : Member := postMember c fun s => BitVec.ofNat 32 s.hart.cur.vlStart


/-! ### The members by name -/

/-- `vamo.swap` (R175). -/
def memVamoSwap (f : OpVA) : Member := vatom f false false true fun _ w _ v _ => some (v % 2 ^ w)

/-- `vamoSwap` as a convoy of its own (R19, R20). -/
def execVamoSwap (f : OpVA) (s : State) : Out := solo (.vamoSwap f) (memVamoSwap f) s

/-- `vamo.add` (R175). -/
def memVamoAdd (f : OpVA) : Member := vatom f false false false fun _ w old v _ => some (atomOp 1 w old v)

/-- `vamoAdd` as a convoy of its own (R19, R20). -/
def execVamoAdd (f : OpVA) (s : State) : Out := solo (.vamoAdd f) (memVamoAdd f) s

/-- `vamo.and` (R175). -/
def memVamoAnd (f : OpVA) : Member := vatom f false false false fun _ w old v _ => some (atomOp 2 w old v)

/-- `vamoAnd` as a convoy of its own (R19, R20). -/
def execVamoAnd (f : OpVA) (s : State) : Out := solo (.vamoAnd f) (memVamoAnd f) s

/-- `vamo.or` (R175). -/
def memVamoOr (f : OpVA) : Member := vatom f false false false fun _ w old v _ => some (atomOp 3 w old v)

/-- `vamoOr` as a convoy of its own (R19, R20). -/
def execVamoOr (f : OpVA) (s : State) : Out := solo (.vamoOr f) (memVamoOr f) s

/-- `vamo.xor` (R175). -/
def memVamoXor (f : OpVA) : Member := vatom f false false false fun _ w old v _ => some (atomOp 4 w old v)

/-- `vamoXor` as a convoy of its own (R19, R20). -/
def execVamoXor (f : OpVA) (s : State) : Out := solo (.vamoXor f) (memVamoXor f) s

/-- `vamo.min` (R175). -/
def memVamoMin (f : OpVA) : Member := vatom f false false false fun _ w old v _ => some (atomOp 5 w old v)

/-- `vamoMin` as a convoy of its own (R19, R20). -/
def execVamoMin (f : OpVA) (s : State) : Out := solo (.vamoMin f) (memVamoMin f) s

/-- `vamo.max` (R175). -/
def memVamoMax (f : OpVA) : Member := vatom f false false false fun _ w old v _ => some (atomOp 6 w old v)

/-- `vamoMax` as a convoy of its own (R19, R20). -/
def execVamoMax (f : OpVA) (s : State) : Out := solo (.vamoMax f) (memVamoMax f) s

/-- `vamo.minn` (R175). -/
def memVamoMinn (f : OpVA) : Member := vatom f false false false fun _ w old v _ => some (atomOp 7 w old v)

/-- `vamoMinn` as a convoy of its own (R19, R20). -/
def execVamoMinn (f : OpVA) (s : State) : Out := solo (.vamoMinn f) (memVamoMinn f) s

/-- `vamo.maxn` (R175). -/
def memVamoMaxn (f : OpVA) : Member := vatom f false false false fun _ w old v _ => some (atomOp 8 w old v)

/-- `vamoMaxn` as a convoy of its own (R19, R20). -/
def execVamoMaxn (f : OpVA) (s : State) : Out := solo (.vamoMaxn f) (memVamoMaxn f) s

/-- `vamo.cas`: the compare values are in v(d+1) (R175). -/
def memVamoCas (f : OpVA) : Member := vatom f false true false fun _ w old v c => if old = c then some (v % 2 ^ w) else none

/-- `vamoCas` as a convoy of its own (R19, R20). -/
def execVamoCas (f : OpVA) (s : State) : Out := solo (.vamoCas f) (memVamoCas f) s

/-- `vamo.add.cb` (R175, R178). -/
def memVamoAddCb (f : OpVA) : Member := vcomb f false 1

/-- `vamoAddCb` as a convoy of its own (R19, R20). -/
def execVamoAddCb (f : OpVA) (s : State) : Out := solo (.vamoAddCb f) (memVamoAddCb f) s

/-- `vamo.and.cb` (R175, R178). -/
def memVamoAndCb (f : OpVA) : Member := vcomb f false 2

/-- `vamoAndCb` as a convoy of its own (R19, R20). -/
def execVamoAndCb (f : OpVA) (s : State) : Out := solo (.vamoAndCb f) (memVamoAndCb f) s

/-- `vamo.or.cb` (R175, R178). -/
def memVamoOrCb (f : OpVA) : Member := vcomb f false 3

/-- `vamoOrCb` as a convoy of its own (R19, R20). -/
def execVamoOrCb (f : OpVA) (s : State) : Out := solo (.vamoOrCb f) (memVamoOrCb f) s

/-- `vamo.xor.cb` (R175, R178). -/
def memVamoXorCb (f : OpVA) : Member := vcomb f false 4

/-- `vamoXorCb` as a convoy of its own (R19, R20). -/
def execVamoXorCb (f : OpVA) (s : State) : Out := solo (.vamoXorCb f) (memVamoXorCb f) s

/-- `vamo.min.cb` (R175, R178). -/
def memVamoMinCb (f : OpVA) : Member := vcomb f false 5

/-- `vamoMinCb` as a convoy of its own (R19, R20). -/
def execVamoMinCb (f : OpVA) (s : State) : Out := solo (.vamoMinCb f) (memVamoMinCb f) s

/-- `vamo.max.cb` (R175, R178). -/
def memVamoMaxCb (f : OpVA) : Member := vcomb f false 6

/-- `vamoMaxCb` as a convoy of its own (R19, R20). -/
def execVamoMaxCb (f : OpVA) (s : State) : Out := solo (.vamoMaxCb f) (memVamoMaxCb f) s

/-- `vamo.minn.cb` (R175, R178). -/
def memVamoMinnCb (f : OpVA) : Member := vcomb f false 7

/-- `vamoMinnCb` as a convoy of its own (R19, R20). -/
def execVamoMinnCb (f : OpVA) (s : State) : Out := solo (.vamoMinnCb f) (memVamoMinnCb f) s

/-- `vamo.maxn.cb` (R175, R178). -/
def memVamoMaxnCb (f : OpVA) : Member := vcomb f false 8

/-- `vamoMaxnCb` as a convoy of its own (R19, R20). -/
def execVamoMaxnCb (f : OpVA) (s : State) : Out := solo (.vamoMaxnCb f) (memVamoMaxnCb f) s

/-- `vamo.fadd` (R175). -/
def memVamoFadd (f : OpVA) : Member := vatom f true false false fun s w old v _ => some (atomFop 0 (rmodeOf s) w old v)

/-- `vamoFadd` as a convoy of its own (R19, R20). -/
def execVamoFadd (f : OpVA) (s : State) : Out := solo (.vamoFadd f) (memVamoFadd f) s

/-- `vamo.fmin` (R175). -/
def memVamoFmin (f : OpVA) : Member := vatom f true false false fun s w old v _ => some (atomFop 1 (rmodeOf s) w old v)

/-- `vamoFmin` as a convoy of its own (R19, R20). -/
def execVamoFmin (f : OpVA) (s : State) : Out := solo (.vamoFmin f) (memVamoFmin f) s

/-- `vamo.fmax` (R175). -/
def memVamoFmax (f : OpVA) : Member := vatom f true false false fun s w old v _ => some (atomFop 2 (rmodeOf s) w old v)

/-- `vamoFmax` as a convoy of its own (R19, R20). -/
def execVamoFmax (f : OpVA) (s : State) : Out := solo (.vamoFmax f) (memVamoFmax f) s

/-- `vamo.fadd.cb` (R175, R178). -/
def memVamoFaddCb (f : OpVA) : Member := vcomb f true 0

/-- `vamoFaddCb` as a convoy of its own (R19, R20). -/
def execVamoFaddCb (f : OpVA) (s : State) : Out := solo (.vamoFaddCb f) (memVamoFaddCb f) s

/-- `vamo.fmin.cb` (R175, R178). -/
def memVamoFminCb (f : OpVA) : Member := vcomb f true 1

/-- `vamoFminCb` as a convoy of its own (R19, R20). -/
def execVamoFminCb (f : OpVA) (s : State) : Out := solo (.vamoFminCb f) (memVamoFminCb f) s

/-- `vamo.fmax.cb` (R175, R178). -/
def memVamoFmaxCb (f : OpVA) : Member := vcomb f true 2

/-- `vamoFmaxCb` as a convoy of its own (R19, R20). -/
def execVamoFmaxCb (f : OpVA) (s : State) : Out := solo (.vamoFmaxCb f) (memVamoFmaxCb f) s

/-- `vwait.eq` (R179). -/
def memVwaitEq (f : OpVA) : Member := vwaitM f wEq

/-- `vwaitEq` as a convoy of its own (R19, R20). -/
def execVwaitEq (f : OpVA) (s : State) : Out := solo (.vwaitEq f) (memVwaitEq f) s

/-- `vwait.ne` (R179). -/
def memVwaitNe (f : OpVA) : Member := vwaitM f (fun w a b => !wEq w a b)

/-- `vwaitNe` as a convoy of its own (R19, R20). -/
def execVwaitNe (f : OpVA) (s : State) : Out := solo (.vwaitNe f) (memVwaitNe f) s

/-- `vwait.ge` (R179). -/
def memVwaitGe (f : OpVA) : Member := vwaitM f wGe

/-- `vwaitGe` as a convoy of its own (R19, R20). -/
def execVwaitGe (f : OpVA) (s : State) : Out := solo (.vwaitGe f) (memVwaitGe f) s

/-- `vwait.lt` (R179). -/
def memVwaitLt (f : OpVA) : Member := vwaitM f (fun w a b => !wGe w a b)

/-- `vwaitLt` as a convoy of its own (R19, R20). -/
def execVwaitLt (f : OpVA) (s : State) : Out := solo (.vwaitLt f) (memVwaitLt f) s

/-- `vwait.gen` (R179). -/
def memVwaitGen (f : OpVA) : Member := vwaitM f wGen

/-- `vwaitGen` as a convoy of its own (R19, R20). -/
def execVwaitGen (f : OpVA) (s : State) : Out := solo (.vwaitGen f) (memVwaitGen f) s

/-- `vwait.ltn` (R179). -/
def memVwaitLtn (f : OpVA) : Member := vwaitM f (fun w a b => !wGen w a b)

/-- `vwaitLtn` as a convoy of its own (R19, R20). -/
def execVwaitLtn (f : OpVA) (s : State) : Out := solo (.vwaitLtn f) (memVwaitLtn f) s

/-- `vfence` as a convoy of its own (R19, R20). -/
def execVfence (sc : BitVec 3) (s : State) : Out := solo (.vfence sc) (memVfence sc) s

/-- `awinDecl` as a convoy of its own (R19, R20). -/
def execAwinDecl (f : OpAW) (s : State) : Out := solo (.awinDecl f) (memAwinDecl f) s

/-- `awinUpd` as a convoy of its own (R19, R20). -/
def execAwinUpd (f : OpAW) (s : State) : Out := solo (.awinUpd f) (memAwinUpd f) s

/-- `awinMerge` as a convoy of its own (R19, R20). -/
def execAwinMerge (f : OpAW) (s : State) : Out := solo (.awinMerge f) (memAwinMerge f) s

/-- `pnTake` as a convoy of its own (R19, R20). -/
def execPnTake (l : Bool) (c : BitVec 3) (s : State) : Out := solo (.pnTake l c) (memPnTake c) s

/-- `pnPost` as a convoy of its own (R19, R20). -/
def execPnPost (c : BitVec 3) (s : State) : Out := solo (.pnPost c) (memPnPost c) s

/-- `pnPostVl` as a convoy of its own (R19, R20). -/
def execPnPostVl (c : BitVec 3) (s : State) : Out := solo (.pnPostVl c) (memPnPostVl c) s

/-- `vld` as a convoy of its own (R19, R20). -/
def execVld (f : OpVM) (s : State) : Out := solo (.vld f) (memVld f) s

/-- `vlds` as a convoy of its own (R19, R20). -/
def execVlds (f : OpVM) (s : State) : Out := solo (.vlds f) (memVlds f) s

/-- `vldFf` as a convoy of its own (R19, R20). -/
def execVldFf (f : OpVM) (s : State) : Out := solo (.vldFf f) (memVldFf f) s

/-- `vldc` as a convoy of its own (R19, R20). -/
def execVldc (f : OpVM) (s : State) : Out := solo (.vldc f) (memVldc f) s

/-- `vfill` as a convoy of its own (R19, R20). -/
def execVfill (f : OpVM) (s : State) : Out := solo (.vfill f) (memVfill f) s

/-- `vldXn` as a convoy of its own (R19, R20). -/
def execVldXn (f : OpVM) (s : State) : Out := solo (.vldXn f) (memVldXn f) s

/-- `vldXtn` as a convoy of its own (R19, R20). -/
def execVldXtn (f : OpVM) (s : State) : Out := solo (.vldXtn f) (memVldXtn f) s

/-- `vldx` as a convoy of its own (R19, R20). -/
def execVldx (f : OpVMX) (s : State) : Out := solo (.vldx f) (memVldx f) s

/-- `vst` as a convoy of its own (R19, R20). -/
def execVst (f : OpVM) (s : State) : Out := solo (.vst f) (memVst f) s

/-- `vsts` as a convoy of its own (R19, R20). -/
def execVsts (f : OpVM) (s : State) : Out := solo (.vsts f) (memVsts f) s

/-- `vcopy` as a convoy of its own (R19, R20). -/
def execVcopy (f : OpVM) (s : State) : Out := solo (.vcopy f) (memVcopy f) s

/-- `vstc` as a convoy of its own (R19, R20). -/
def execVstc (f : OpVM) (s : State) : Out := solo (.vstc f) (memVstc f) s

/-- `vspill` as a convoy of its own (R19, R20). -/
def execVspill (f : OpVM) (s : State) : Out := solo (.vspill f) (memVspill f) s

/-- `vstXn` as a convoy of its own (R19, R20). -/
def execVstXn (f : OpVM) (s : State) : Out := solo (.vstXn f) (memVstXn f) s

/-- `vstXtn` as a convoy of its own (R19, R20). -/
def execVstXtn (f : OpVM) (s : State) : Out := solo (.vstXtn f) (memVstXtn f) s

/-- `vstx` as a convoy of its own (R19, R20). -/
def execVstx (f : OpVMX) (s : State) : Out := solo (.vstx f) (memVstx f) s

end

end Sys2Proof.Machine
end

