-- ==== Sys2Proof/Machine/Matrix.lean ====
section
/-! DEFINITION. The matrix engine: outer products, the row-gather latch, slices, tile loads and stores (R186 to R204). -/

namespace Sys2Proof.Machine

/-! ### Tiles -/

/-- Element C[i][j] as it is stored. -/
def tileEl (t : Tile) (i j : Nat) : Nat := bitsN (t.rows[i % 128]'(Nat.mod_lt _ (by decide))).toNat (32 * j) 32

/-- Element C[i][j] is poisoned (R194). -/
def tileP (t : Tile) (i j : Nat) : Bool := bitN (t.poison[i % 128]'(Nat.mod_lt _ (by decide))).toNat j

/-- Write C[i][j] with its poison. -/
def setTileEl (t : Tile) (i j x : Nat) (pois : Bool) : Tile :=
  let r := i % 128
  { t with
    rows := t.rows.set r (BitVec.ofNat 4096 (setBits (t.rows[r]'(Nat.mod_lt _ (by decide))).toNat (32 * j) 32 x))
      (Nat.mod_lt _ (by decide)),
    poison := t.poison.set r (BitVec.ofNat 128 (setBits (t.poison[r]'(Nat.mod_lt _ (by decide))).toNat j 1 (if pois then 1 else 0)))
      (Nat.mod_lt _ (by decide)),
    differs := t.differs.filter fun d => d != (r, j) }

/-- The canonical NaN of a tile (R190, R193). -/
def tileNan : Nat := 0x7FC00000

/-- Row flag i. -/
def rowFlagged (t : Tile) (i : Nat) : Bool := bitN t.rowFlag.toNat i

/-- Column flag j. -/
def colFlagged (t : Tile) (j : Nat) : Bool := bitN t.colFlag.toNat j

/-- `Read(m, i, j)` (R193). -/
def tileRead (t : Tile) (i j : Nat) : Nat := if rowFlagged t i || colFlagged t j then tileNan else tileEl t i j

/-- Settle row i (R193). -/
def settleRow (t : Tile) (i : Nat) : Tile :=
  if rowFlagged t i then
    let u := forUp 128 0 t fun j t => setTileEl t i j tileNan false
    { u with rowFlag := u.rowFlag &&& ~~~(BitVec.ofNat 128 (2 ^ i)) }
  else t

/-- Settle column j (R193). -/
def settleCol (t : Tile) (j : Nat) : Tile :=
  if colFlagged t j then
    let u := forUp 128 0 t fun i t => setTileEl t i j tileNan false
    { u with colFlag := u.colFlag &&& ~~~(BitVec.ofNat 128 (2 ^ j)) }
  else t

/-- The first of some rows, in ascending order, at which the two copies of a tile differ in an element that leaves it: the elements that stay in the tile are
not compared (R204). DEDUCED: log entry 100. -/
def mismatchRow (t : Tile) (leaves : Nat → Nat → Bool) : Option Nat :=
  ((t.differs.filter fun d => leaves d.1 d.2).map fun d => d.1).min?

/-- The compare of the copies fails for a row: the convoy traps MISMATCH with i × `tlen` (R204). -/
def raiseMismatch (s : State) (i : Nat) : State := raise s s.hart.cur.vstart ⟨.mismatch, W (128 * i)⟩

/-- Tile `n` of the hart. -/
def tileOf (s : State) (n : BitVec 2) : Tile := s.hart.tile[n.toNat]

/-- Replace a tile; it becomes dirty (R56). -/
def setTile (s : State) (n : BitVec 2) (t : Tile) : State :=
  dirtyM { s with hart := { s.hart with tile := s.hart.tile.set n.toNat t } } n.toNat

/-! ### Formats (R188) -/

/-- The operand width w of an outer product, `mopl` or `mgrow`. -/
def tileWidth (f : OpTile) (p : Snap) : Nat :=
  if f.kind = 0 then (if f.fsa = 2 then 32 else 16)
  else if f.kind = 1 then containerOf p.fmt[f.fsa.toNat % 4]
  else if f.fsa = 0 then 8 else 4

/-- K steps per group. -/
def tileGroup (f : OpTile) (p : Snap) : Nat := if f.kind = 1 then (if tileWidth f p = 8 then 2 else 4) else 1

/-- The format of operand A, with `fs` its descriptor or IEEE code. -/
def tileFmt (f : OpTile) (fs : BitVec 2) (p : Snap) : Fmt :=
  if f.kind = 1 then descFmt p.fmt[fs.toNat % 4]
  else if f.fsa = 0 then Fmt.bf16 else if f.fsa = 1 then Fmt.h16 else Fmt.f32

/-- A pattern of a format without the padding of its container. -/
def tilePat (f : OpTile) (fs : BitVec 2) (p : Snap) (x : Nat) : Nat :=
  if f.kind = 1 then x % 2 ^ descWid p.fmt[fs.toNat % 4] else x

/-- TILE_OFF: the tile's bit in `tilen` is clear (R44). -/
def tileOn (f : OpTile) (d : DCtx) : Option Cause := if bitN d.snap.tilen.toNat f.t.toNat then none else some .tileOff

/-- The decode check of the formats of an outer product (R188). -/
def outerCheck (f : OpTile) (d : DCtx) : Option Cause :=
  let a := d.snap.fmt[f.fsa.toNat % 4]
  let b := d.snap.fmt[f.fsb.toNat % 4]
  let scl := if f.us then 1 else 0
  let ok := f.kind != 1 || descValid a && descValid b && containerOf a == containerOf b && descScl a == scl && descScl b == scl &&
    (!f.us || f.ks.toNat % 2 == 0)
  if ok && d.ew == tileWidth f d.snap then tileOn f d else some .illegal

/-- The decode check of `mgrow` (R188). -/
def growCheck (f : OpTile) (d : DCtx) : Option Cause :=
  let a := d.snap.fmt[f.fsa.toNat % 4]
  if (f.kind != 1 || descValid a && descScl a == 0) && d.ew == tileWidth f d.snap then none else some .illegal

/-- The decode check of a slice move: EW must be 32 (R198). -/
def sliceCheck (f : OpTile) (d : DCtx) : Option Cause := if d.ew = 32 then tileOn f d else some .illegal

/-! ### Outer products (R189 to R192) -/

/-- Row or column n is on: its bit of predicate p, all when p is 0 (R190). -/
def lineOn (s : State) (p : BitVec 4) (n : Nat) : Bool := active s p.toNat n

/-- One operand line over its K steps: the values that are terms, whether the line is flagged, and whether something it reads is
poisoned (R189, R192, R194). -/
structure Lane where
  vals : List (Option FVal)
  flag : Bool
  pois : Bool
  deriving DecidableEq, Repr

/-- The K steps of an instruction under `vl` (R189). -/
def kSteps (s : State) : Nat := ceilDiv s.hart.cur.vl 128

/-- Step k of an operand line: its value when it is a term, a flag, and poison (R189, R191, R192). -/
def laneStep (s : State) (p : Nat) (rd : Nat → Nat × Bool) (dec : Nat → FVal) (scale : Option Nat) (i k : Nat) :
    Option FVal × Bool × Bool :=
  let e := k * 128 + i
  if s.hart.cur.vl ≤ e then (none, false, false)
  else if !active s p e then (none, false, activeP s p e)
  else
    let c := match scale with
      | some r => scaleByte s r (k / 32 * 128 + i)
      | none => 127
    let cp := match scale with
      | some r => scaleP s r (k / 32 * 128 + i)
      | none => false
    let pois := (rd e).2 || cp || activeP s p e
    match dec (rd e).1 with
    | .fin n m x => if c = 255 then (none, true, pois) else (some (.fin n m (x + c - 127)), false, pois)
    | _ => (none, true, pois)

/-- An operand line. -/
def laneOf (s : State) (p : Nat) (rd : Nat → Nat × Bool) (dec : Nat → FVal) (scale : Option Nat) (i : Nat) : Lane :=
  let l := (List.range (kSteps s)).map (laneStep s p rd dec scale i)
  { vals := l.map fun x => x.1, flag := l.any fun x => x.2.1, pois := l.any fun x => x.2.2 }

/-- The terms of group g of s steps: the products of the steps at which both operands are terms (R190). -/
def groupTerms (a b : Lane) (n g : Nat) : List FVal :=
  (List.range n).filterMap fun q =>
    match a.vals[g * n + q]?, b.vals[g * n + q]? with
    | some (some x), some (some y) => some (x.mul y)
    | _, _ => none

/-- `TileAcc(c, t)` of the floating-point forms, with the saturation it reports (R190). -/
def tileAcc (mode c : Nat) (terms : List FVal) : Nat × Bool :=
  match Fmt.f32.decode c with
  | .fin n m e =>
    match terms.foldl (FVal.add 0) (.fin n m e) with
    | .fin sn sm se =>
      if sm = 0 then
        let all := FVal.fin n m e :: terms
        let neg := (all.all fun x => x.isZero && x.signOf) || mode % 4 == 3 && (all.any fun x => x.signOf) && all.any fun x => !x.signOf
        (if neg then 2 ^ 31 else 0, false)
      else if Fmt.f32.exceeds sm se then (Fmt.f32.sign sn + 0x7F7FFFFF, true)
      else (Fmt.f32.round mode (.fin sn sm se), false)
    | _ => (tileNan, false)
  | _ => (tileNan, false)

/-- `TileAcc(c, t)` of the integer forms: the products are integers (R190). -/
def tileAccInt (c : Nat) (terms : List FVal) : Nat :=
  wrapN (terms.foldl (fun (a : Int) x => match x with
    | .fin n m e => a + signedMan n m * (2 ^ e.toNat : Nat)
    | _ => a) (signExt c 32)) 32

/-- One element over all its groups. -/
def outerEl (int neg : Bool) (mode n groups : Nat) (a b : Lane) (c : Nat) : Nat × Bool :=
  forUp groups 0 (c, false) fun g acc =>
    let terms := groupTerms a b n g
    let terms := if neg then terms.map FVal.neg else terms
    if int then (tileAccInt acc.1 terms, acc.2)
    else
      let r := tileAcc mode acc.1 terms
      (r.1, acc.2 || r.2)

/-- The outer product of operand lines A and B: `rowOn` says which rows take part (R190, R192, R194). DEDUCED: log entry 28. DEDUCED: log entry 29. DEDUCED: log entry 30. -/
def outerTile (s : State) (f : OpTile) (int neg : Bool) (rowOn : Nat → Bool) (a b : Nat → Lane) : State :=
  let n := tileGroup f s.hart.cur.snap
  let groups := ceilDiv (kSteps s) n
  let rows := ((List.range 128).filter rowOn).map fun i => (i, a i)
  let cols := ((List.range 128).filter (lineOn s f.cp)).map fun j => (j, b j)
  if kSteps s = 0 then s
  else
    let t0 := tileOf s f.t
    let r := rows.foldl (fun (acc : Tile × Bool) i =>
      cols.foldl (fun (acc : Tile × Bool) j =>
        let r := outerEl int neg (rmodeOf s) n groups i.2 j.2 (tileEl t0 i.1 j.1)
        (setTileEl acc.1 i.1 j.1 r.1 (tileP t0 i.1 j.1 || i.2.pois || j.2.pois), acc.2 || r.2)) acc) (t0, false)
    let rf := rows.foldl (fun m i => if i.2.flag then m ||| BitVec.ofNat 128 (2 ^ i.1) else m) r.1.rowFlag
    let cf := cols.foldl (fun m j => if j.2.flag then m ||| BitVec.ofNat 128 (2 ^ j.1) else m) r.1.colFlag
    let t := { r.1 with rowFlag := rf, colFlag := cf, differs := t0.differs }
    let s := if rows.isEmpty || cols.isEmpty then (if t = t0 then s else setTile s f.t t) else setTile s f.t t
    if r.2 then setOF s else s

/-- An element of a register with its poison, as an operand. -/
def regOperand (s : State) (r w e : Nat) : Nat × Bool := (elG s r e w, elGP s r e w)

/-- An element of the latch with its poison (R195, R196). -/
def latchOperand (s : State) (w e : Nat) : Nat × Bool :=
  (bitsN s.hart.latch.val (e * w) w, bitsN s.hart.latch.cells (e * w / 2) (w / 2) != 0)

/-- The value of a pattern of an outer product. -/
def operandVal (s : State) (f : OpTile) (fs : BitVec 2) (signed : Bool) (x : Nat) : FVal :=
  let p := s.hart.cur.snap
  let w := tileWidth f p
  if f.kind = 2 then FVal.ofInt (if signed then signExt x w else (x % 2 ^ w : Nat))
  else (tileFmt f fs p).decode (tilePat f fs p x)

/-- `mopa`, `mops`, `mopi`, `mopn` (R189, R190). -/
def runOuter (f : OpTile) (int signed neg : Bool) (s : State) : State :=
  let w := tileWidth f s.hart.cur.snap
  let p := f.pred.toNat
  let sc (o : Nat) : Option Nat := if f.us then some (f.ks.toNat + o) else none
  outerTile s f int neg (lineOn s f.rp)
    (laneOf s p (regOperand s f.va.toNat w) (operandVal s f f.fsa signed) (sc 0))
    (laneOf s p (regOperand s f.vb.toNat w) (operandVal s f (if f.kind = 1 then f.fsb else f.fsa) signed) (sc 1))

/-- `mopl` (R189, R196): operand A from the latch, rows at or above LR not active. -/
def runMopl (f : OpTile) (s : State) : State :=
  let w := tileWidth f s.hart.cur.snap
  let p := f.pred.toNat
  let sc (o : Nat) : Option Nat := if f.us then some (f.ks.toNat + o) else none
  outerTile s f false false (fun i => lineOn s f.rp i && decide (i < s.hart.lr))
    (laneOf s p (latchOperand s w) (operandVal s f f.fsa true) (sc 0))
    (laneOf s p (regOperand s f.vb.toNat w) (operandVal s f (if f.kind = 1 then f.fsb else f.fsa) true) (sc 1))

/-- Elements of a tile whose micro-operation failed again are poison (R194, R347). -/
def hurtTile (f : OpTile) (on : Nat → Nat → Bool) (s : State) : State :=
  let t := tileOf s f.t
  setTile s f.t { t with poison := Vector.ofFn fun i : Fin 128 =>
    (t.poison[i]) ||| BitVec.ofNat 128 ((List.range 128).foldl (fun m j => if on i j then m + 2 ^ j else m) 0) }

/-- A failed K step of an outer product: the elements of its rows and columns are poison (R190, R347). -/
def hurtOuter (f : OpTile) (_ : Nat) (s : State) : State := hurtTile f (fun i j => lineOn s f.rp i && lineOn s f.cp j) s

/-- The row that micro-operation `g` of a row member accesses (R203). -/
def rowOf (f : OpTile) (s : State) (g : Nat) : Nat := (((List.range 128).filter (lineOn s f.rp))[g]?).getD 128

/-- `mopa` (R190). -/
def memMopa (f : OpTile) : Member :=
  { check := outerCheck f, whole := true, srcs := [f.va.toNat, f.vb.toNat], hurt := hurtOuter f, run := runOuter f false true false }

/-- `mops` (R190). -/
def memMops (f : OpTile) : Member :=
  { check := outerCheck f, whole := true, srcs := [f.va.toNat, f.vb.toNat], hurt := hurtOuter f, run := runOuter f false true true }

/-- `mopi` (R190). -/
def memMopi (f : OpTile) : Member :=
  { check := outerCheck f, whole := true, srcs := [f.va.toNat, f.vb.toNat], hurt := hurtOuter f, run := runOuter f true true false }

/-- `mopn` (R190). -/
def memMopn (f : OpTile) : Member :=
  { check := outerCheck f, whole := true, srcs := [f.va.toNat, f.vb.toNat], hurt := hurtOuter f, run := runOuter f true false false }

/-- `mopl` (R196). -/
def memMopl (f : OpTile) : Member := { check := outerCheck f, whole := true, srcs := [f.vb.toNat], hurt := hurtOuter f, run := runMopl f }

/-! ### Rows from memory (R195, R197, R199) -/

/-- What the translation of the rows found: rows below `r` may be read; a condition that traps; or a page in migration. -/
inductive RowScan where
  | upTo (r : Nat)
  | trap (t : Trap)
  | stall
  deriving DecidableEq, Repr

/-- Look at rows `i`, `i + 1`, … in ascending order: the lowest one that traps TFAULT or PERM ends a first-fault load, unless it is
row 0; any other condition traps (R197). The trap value is the lowest faulting byte of the lowest row at fault, wherever the other rows lie.
DEDUCED: log entry 108. -/
def scanRows (s : State) (ff : Bool) (on : Nat → Bool) (row : State → Nat → State × Except Trap (List (Hit × Nat))) :
    Nat → Nat → State × RowScan
  | 0, i => (s, .upTo i)
  | n + 1, i =>
    if !on i then scanRows s ff on row n (i + 1)
    else
      match row s i with
      | (u, .ok _) => if u.hart.cur.wait.isSome then (s, .stall) else scanRows s ff on row n (i + 1)
      | (_, .error t) =>
        if ff && i != 0 && (t.cause == .tfault || t.cause == .perm) then (s, .upTo i) else (s, .trap t)

/-- The granted number of rows is less than asked (R197). -/
def grantRows (s : State) (r g : Nat) : State :=
  if r < g then { s with hart := { s.hart with tgrant := r, ffidx := r } } else s

/-- The row address of `mgrow`, or its condition (R195, R201). -/
def growRow (f : OpTile) (s : State) (w rb : Nat) (t : State) (i : Nat) : State × Except Trap (List (Hit × Nat)) :=
  if elGP s f.va.toNat i 32 then (t, .error ⟨.poison, 0⟩)
  else
    let ra := srcX s f.vb + W (elG s f.va.toNat i 32) * srcX s f.vd
    if 8 ≤ w ∧ ra.toNat % (w / 8) ≠ 0 then (t, .error ⟨.misalign, ra⟩)
    else
      match hartSpan t ra rb .load with
      | (u, .ok l) => (u, .ok l)
      | (u, .trap tr) => (u, .error tr)
      | (u, .stall) => (mustWait u none, .ok [])

/-- Rows `mgrow` and `mld` may read: G (R195). -/
def grantOf (s : State) : Nat := min s.hart.tgrant 128

/-- Put one row's K steps in the latch (R195). -/
def growLatch (w kn i : Nat) (l : List (Hit × Nat)) (t : State) (c : Chunk) : Chunk :=
  let v := spanRead t l
  forUp kn 0 c fun k c =>
    let e := k * 128 + i
    let lo := k * w / 8
    let hi := (k * w + w + 7) / 8
    let pois := (List.range (hi - lo)).any fun o => match spanAt l (lo + o) with
      | some h => readsPoison t h.key 1
      | none => false
    { val := setBits c.val (e * w) w (bitsN v (k * w) w), cells := setBits c.cells (e * w / 2) (w / 2) (ones (w / 2) pois) }

/-- `mgrow` (R195, R197). -/
def memMgrow (f : OpTile) : Member :=
  { check := growCheck f, whole := true, srcs := [f.va.toNat],
    hurt := fun g s =>
      let w := tileWidth f s.hart.cur.snap
      let c := forUp (kSteps s) 0 s.hart.latch.cells fun k c => c ||| cellMask ((k * 128 + rowOf f s g) * w) w
      { s with hart := { s.hart with latch := { s.hart.latch with cells := c } } },
    run := fun s =>
      let w := tileWidth f s.hart.cur.snap
      let kn := kSteps s
      let rb := ceilDiv (kn * w) 8
      let g := grantOf s
      let row := growRow f s w rb
      match scanRows s f.ff (lineOn s f.rp) row g 0 with
      | (_, .trap t) => raise s s.hart.cur.vstart t
      | (_, .stall) => mustWait s none
      | (u, .upTo r) =>
        let q := forUp r 0 ((u, { val := 0, cells := 0 }) : State × Chunk) fun i a =>
          if lineOn s f.rp i then
            match row a.1 i with
            | (v, .ok l) =>
              let v := flushSpan v l
              (v, growLatch w kn i l v a.2)
            | (v, .error _) => (v, a.2)
          else a
        grantRows { q.1 with hart := { q.1.hart with latch := q.2, lr := r } } r g }

/-- The address of column j of row i of `mld` and `mst` (R199). -/
def tileAddr (f : OpTile) (s : State) (i j : Nat) : Word := srcX s f.va + W i * srcX s f.vb + W (4 * j)

/-- The active columns of row i of `mld`, each 4 bytes (R199). -/
def mldRow (f : OpTile) (s : State) (t : State) (i : Nat) : State × Except Trap (List (Hit × Nat)) :=
  ((List.range 128).filter (lineOn s f.cp)).foldl (fun (a : State × Except Trap (List (Hit × Nat))) j =>
    match a.2 with
    | .error _ => a
    | .ok l =>
      match hartSpan a.1 (tileAddr f s i j) 4 .load with
      | (u, .ok m) => (u, .ok (l ++ m))
      | (u, .trap tr) => (u, .error tr)
      | (u, .stall) => (mustWait u none, .ok l)) (t, .ok [])

/-- Base and pitch are multiples of 4 (R199). -/
def pitchOk (f : OpTile) (s : State) : Bool := (srcX s f.va).toNat % 4 == 0 && (srcX s f.vb).toNat % 4 == 0

/-- `mld` (R197, R199). -/
def memMld (f : OpTile) : Member :=
  { check := tileOn f, whole := true, hurt := fun g s => hurtTile f (fun i j => i == rowOf f s g && lineOn s f.cp j) s,
    run := fun s =>
      if !pitchOk f s then raise s s.hart.cur.vstart ⟨.misalign, srcX s f.va⟩
      else
        let g := grantOf s
        match scanRows s f.ff (lineOn s f.rp) (mldRow f s) g 0 with
        | (_, .trap t) => raise s s.hart.cur.vstart t
        | (_, .stall) => mustWait s none
        | (u, .upTo r) =>
          let q := forUp r 0 u fun i u =>
            if lineOn s f.rp i then
              match mldRow f s u i with
              | (v, .ok l) =>
                let v := flushSpan v l
                let t := settleRow (tileOf v f.t) i
                let t := ((List.range 128).filter (lineOn s f.cp)).foldl (fun (a : Tile × Nat) j =>
                  match spanAt l (4 * a.2) with
                  | some h => (setTileEl a.1 i j (hartRead v h.key 4) (readsPoison v h.key 4), a.2 + 1)
                  | none => (a.1, a.2 + 1)) (t, 0)
                if ((List.range 128).any (lineOn s f.cp)) || t.1 != tileOf v f.t then setTile v f.t t.1 else v
              | (v, .error _) => v
            else u
          grantRows q r g }

/-- `mst` (R199): element by element, rows then columns in ascending order; of several elements at fault the first one in that order is reported (R201).
DEDUCED: log entry 109. -/
def memMst (f : OpTile) : Member :=
  { check := tileOn f, whole := true,
    run := fun s =>
      if !pitchOk f s then raise s s.hart.cur.vstart ⟨.misalign, srcX s f.va⟩
      else
        let t := tileOf s f.t
        let bad := if s.hart.prot then mismatchRow t (fun i j => lineOn s f.rp i && lineOn s f.cp j) else none
        let last := bad.getD 128
        let r := markWhole s.hart.storeQ.length <| forUp last 0 s fun i u =>
          if lineOn s f.rp i then
            forUp 128 0 u fun j u =>
              if lineOn s f.cp j && u.hart.cur.fault == s.hart.cur.fault && u.hart.cur.wait.isNone then
                let foot : Foot := { va := tileAddr f s i j, bit := 0, wm := 32 }
                match reach u foot .store with
                | (v, .ok l) => footStore v foot l (tileRead t i j) (tileP t i j) .vector s.hart.cur.epoch
                | (_, .trap tr) => raise u s.hart.cur.vstart tr
                | (v, _) => mustWait v none
              else u
          else u
        match bad with
        | some i => if r.hart.cur.fault == s.hart.cur.fault && r.hart.cur.wait.isNone then raiseMismatch r i else r
        | none => r }

/-! ### Slices (R198, R200) -/

/-- A slice read into a vector register; `col` exchanges row and column. In protected mode the copies of a row that leaves the tile are compared: the register
waits for the compare of a row that differs, but one that is bound, whose chunk would leave at once (R204). DEDUCED: log entry 100. -/
def runGet (f : OpTile) (col : Bool) (s : State) : State :=
  let r := (srcX s f.vb).toNat
  let t := tileOf s f.t
  let leaves (i j : Nat) : Bool :=
    let e := if col then i else j
    (if col then j == r else i == r) && decide (e < s.hart.cur.vl) && active s f.pred.toNat e
  let u := writeVec s f.vd.toNat 32 f.pred.toNat fun e =>
    if r < 128 ∧ e < 128 then
      (if col then (tileRead t e r, tileP t e r) else (tileRead t r e, tileP t r e))
    else (0, false)
  match (if s.hart.prot then mismatchRow t leaves else none) with
  | some i =>
    if (bindOf s f.vd.toNat).isSome then raiseMismatch s i
    else { u with hart := { u.hart with unverified := (f.vd.toNat, f.t.toNat, i) :: u.hart.unverified } }
  | none => u

/-- A slice written from a vector register. -/
def runPut (f : OpTile) (col : Bool) (s : State) : State :=
  let r := (srcX s f.vb).toNat
  if 128 ≤ r then s
  else
    let t0 := tileOf s f.t
    let t := if col then settleCol t0 r else settleRow t0 r
    let p := f.pred.toNat
    let n := min s.hart.cur.vl 128
    let writes := (List.range n).any fun j => active s p j || activeP s p j
    let t := forUp n 0 t fun j t =>
      let i := if col then j else r
      let k := if col then r else j
      if active s p j then setTileEl t i k (elG s f.va.toNat j 32) (elGP s f.va.toNat j 32 || activeP s p j)
      else if activeP s p j then setTileEl t i k (tileEl t i k) true
      else t
    if writes || t != t0 then setTile s f.t t else s

/-- `mrow.get` (R198). -/
def memMrowGet (f : OpTile) : Member :=
  { check := sliceCheck f, whole := true, dsts := [f.vd.toNat], run := runGet f false }

/-- `mcol.get` (R198). -/
def memMcolGet (f : OpTile) : Member :=
  { check := sliceCheck f, whole := true, dsts := [f.vd.toNat], run := runGet f true }

/-- `mrow.put` (R198). -/
def memMrowPut (f : OpTile) : Member :=
  { check := sliceCheck f, whole := true, srcs := [f.va.toNat], hurt := fun _ s => hurtTile f (fun i _ => i == (srcX s f.vb).toNat) s, run := runPut f false }

/-- `mcol.put` (R198). -/
def memMcolPut (f : OpTile) : Member :=
  { check := sliceCheck f, whole := true, srcs := [f.va.toNat], hurt := fun _ s => hurtTile f (fun _ j => j == (srcX s f.vb).toNat) s, run := runPut f true }

/-- `mzero` (R200). DEDUCED: log entry 31. -/
def memMzero (f : OpTile) : Member :=
  { check := tileOn f, whole := true, hurt := fun _ s => hurtTile f (fun _ _ => true) s, run := fun s => setTile s f.t Tile.zero }

noncomputable section

/-- `mopa` as a convoy of its own (R19, R20). -/
def execMopa (f : OpTile) (s : State) : Out := solo (.mopa f) (memMopa f) s

/-- `mops` as a convoy of its own (R19, R20). -/
def execMops (f : OpTile) (s : State) : Out := solo (.mops f) (memMops f) s

/-- `mopi` as a convoy of its own (R19, R20). -/
def execMopi (f : OpTile) (s : State) : Out := solo (.mopi f) (memMopi f) s

/-- `mopn` as a convoy of its own (R19, R20). -/
def execMopn (f : OpTile) (s : State) : Out := solo (.mopn f) (memMopn f) s

/-- `mopl` as a convoy of its own (R19, R20). -/
def execMopl (f : OpTile) (s : State) : Out := solo (.mopl f) (memMopl f) s

/-- `mgrow` as a convoy of its own (R19, R20). -/
def execMgrow (f : OpTile) (s : State) : Out := solo (.mgrow f) (memMgrow f) s

/-- `mld` as a convoy of its own (R19, R20). -/
def execMld (f : OpTile) (s : State) : Out := solo (.mld f) (memMld f) s

/-- `mst` as a convoy of its own (R19, R20). -/
def execMst (f : OpTile) (s : State) : Out := solo (.mst f) (memMst f) s

/-- `mrowGet` as a convoy of its own (R19, R20). -/
def execMrowGet (f : OpTile) (s : State) : Out := solo (.mrowGet f) (memMrowGet f) s

/-- `mrowPut` as a convoy of its own (R19, R20). -/
def execMrowPut (f : OpTile) (s : State) : Out := solo (.mrowPut f) (memMrowPut f) s

/-- `mcolGet` as a convoy of its own (R19, R20). -/
def execMcolGet (f : OpTile) (s : State) : Out := solo (.mcolGet f) (memMcolGet f) s

/-- `mcolPut` as a convoy of its own (R19, R20). -/
def execMcolPut (f : OpTile) (s : State) : Out := solo (.mcolPut f) (memMcolPut f) s

/-- `mzero` as a convoy of its own (R19, R20). -/
def execMzero (f : OpTile) (s : State) : Out := solo (.mzero f) (memMzero f) s

end

end Sys2Proof.Machine
end

