-- ==== Sys2Proof/Machine/SumTypes.lean ====
section
/-! DEFINITION. Summary contents: parameters, canonical states, updates, merges, queries and images (R205 to R225, R236). -/

namespace Sys2Proof.Machine

/-! ### CRC-32C (R207) -/

/-- One bit of the reflected CRC. -/
def crcBit (c : Nat) : Nat := if c % 2 = 1 then c / 2 ^^^ 0x82F63B78 else c / 2

/-- One byte. -/
def crcByte (c b : Nat) : Nat := forUp 8 0 (c ^^^ b) fun _ c => crcBit c

/-- CRC-32C of the low `n` bytes of a number, lowest byte first. -/
def crc32c (v n : Nat) : Nat :=
  (forUp n 0 ((0xFFFFFFFF, v) : Nat × Nat) fun _ a => (crcByte a.1 (a.2 % 256), a.2 / 256)).1 ^^^ 0xFFFFFFFF

/-! ### Parameters (R205, R208): type code `ty`, PARAM field `p` as a little-endian number -/

/-- D of a CMS. -/
def cmsD (p : Nat) : Nat := bitsN p 0 8
/-- B of a CMS. -/
def cmsB (p : Nat) : Nat := bitsN p 8 8
/-- CW of a CMS. -/
def cmsCW (p : Nat) : Nat := bitsN p 16 8
/-- K of a BKS. -/
def bksK (p : Nat) : Nat := bitsN p 0 16
/-- M of a QH. -/
def qhM (p : Nat) : Nat := bitsN p 0 8
/-- CAP of a QH. -/
def qhCap (p : Nat) : Nat := bitsN p 16 16
/-- DOM of a MOM. -/
def momDom (p : Nat) : Nat := bitsN p 0 8
/-- N of a WES. -/
def wesN (p : Nat) : Nat := bitsN p 0 32
/-- E0 of a WES. -/
def wesE0 (p : Nat) : Int := signExt (bitsN p 32 16) 16

/-- Bytes of the table (R205). -/
def tableBytes (ty p : Nat) : Nat :=
  match ty with
  | 1 => cmsD p * 2 ^ cmsB p * cmsCW p / 8
  | 2 => 24 * bksK p
  | 3 => 16 * qhCap p
  | 4 => 224
  | _ => 16 * wesN p

/-- Bytes of the body (R205). -/
def bodyBytes (ty p : Nat) : Nat := 64 + tableBytes ty p

/-- TYPE, PARAM and SEED are within the limits of R208. -/
def paramOk (ty p seed : Nat) : Bool :=
  match ty with
  | 1 => decide (1 ≤ cmsD p ∧ cmsD p ≤ 8 ∧ 3 ≤ cmsB p ∧ cmsB p ≤ 15 ∧ (cmsCW p = 32 ∨ cmsCW p = 64)) &&
      decide (cmsD p * 2 ^ cmsB p * cmsCW p / 8 ≤ 2 ^ 20) && p / 2 ^ 24 == 0
  | 2 => decide (1 ≤ bksK p ∧ bksK p ≤ 4096) && p / 2 ^ 16 == 0
  | 3 => decide (qhM p ≤ 7 ∧ 64 ≤ qhCap p ∧ qhCap p ≤ 16384) && bitsN p 8 8 == 0 && p / 2 ^ 32 == 0 && seed == 0
  | 4 => decide (momDom p ≤ 1) && p / 2 ^ 8 == 0 && seed == 0
  | 5 => decide (1 ≤ wesN p ∧ wesN p ≤ 65536 ∧ -1100 ≤ wesE0 p ∧ wesE0 p ≤ 1100) && p / 2 ^ 48 == 0 && seed == 0
  | _ => false

/-- +∞ and −∞ in binary32. -/
def f32Inf (neg : Bool) : Nat := if neg then 0xFF800000 else 0x7F800000

/-- The empty body (R209, R220). -/
def emptyBody (ty p : Nat) : Body :=
  match ty with
  | 1 => .cms 0 0
  | 2 => .bks []
  | 3 => .qh 0 0 0 0 0 []
  | 4 => if momDom p = 1 then .mom 0 0 0 0 0 0 (2 ^ 127 - 1) (2 ^ 127) else .mom 0 0 0 0 0 0 (f32Inf false) (f32Inf true)
  | _ => .wes 0 0 0 0

/-- The empty state (R209). -/
def emptySum (ty p seed : Nat) : Summary :=
  { param := p, seed := seed, poison := false, wmark := 0, contrib := 1, body := emptyBody ty p }

/-- Bytes that a summary takes in the store, and its image's size (R205, R206). -/
def footprint (m : Summary) : Nat := 64 + bodyBytes m.body.ty m.param

/-- A number saturated at 2^64 − 1. -/
def sat64 (v : Nat) : Nat := min v (2 ^ 64 - 1)

/-- OVF (R221, R224). -/
def sumOvf (m : Summary) : Bool :=
  match m.body with
  | .mom count _ _ _ _ _ _ _ => count == 2 ^ 64 - 1
  | .wes nupd _ _ _ => decide (2 ^ 32 ≤ nupd)
  | _ => false

/-! ### Count-min sketch (R212, R213) -/

/-- The multipliers and offsets of `n` rows (R212). -/
def cmsRows : Nat → Nat → List (Nat × Nat)
  | 0, _ => []
  | n + 1, z =>
    let a := mix64 ((z + 0x9E3779B97F4A7C15) % 2 ^ 64)
    let c := mix64 ((a + 0x9E3779B97F4A7C15) % 2 ^ 64)
    (a ||| 1, c) :: cmsRows n c

/-- The counter numbers of a key, one in each row (R212). -/
def cmsSlots (p seed key : Nat) : List Nat :=
  let b := cmsB p
  ((cmsRows (cmsD p) seed).foldl (fun (r : List Nat × Nat) ac =>
    (r.1 ++ [r.2 * 2 ^ b + (ac.1 * key + ac.2) % 2 ^ 64 / 2 ^ (64 - b)], r.2 + 1)) ([], 0)).1

/-- Absorb a key with a weight. -/
def cmsAdd (p seed : Nat) (x : Nat × Nat) (key w : Nat) : Nat × Nat :=
  let cw := cmsCW p
  (sat64 (x.1 + w), (cmsSlots p seed key).foldl (fun t i =>
    setBits t (i * cw) cw (min (bitsN t (i * cw) cw + w) (2 ^ cw - 1))) x.2)

/-- The point query. -/
def cmsPoint (p seed counters key : Nat) : Nat :=
  (cmsSlots p seed key).foldl (fun m i => min m (bitsN counters (i * cmsCW p) (cmsCW p))) (2 ^ cmsCW p - 1)

/-! ### Bottom-k sample (R214, R215) -/

/-- The priority of an item. -/
def bksPrio (seed key pay : Nat) : Nat := mix64 (mix64 (key ^^^ seed) ^^^ pay)

/-- The order of items. -/
def itemLt (a b : Nat × Nat × Nat) : Bool :=
  decide (a.1 < b.1) || a.1 == b.1 && (decide (a.2.1 < b.2.1) || a.2.1 == b.2.1 && decide (a.2.2 < b.2.2))

/-- Insert an item in order, dropping a duplicate. -/
def itemInsert (x : Nat × Nat × Nat) : List (Nat × Nat × Nat) → List (Nat × Nat × Nat)
  | [] => [x]
  | y :: l => if itemLt x y then x :: y :: l else if x = y then y :: l else y :: itemInsert x l

/-- Absorb an item. -/
def bksAdd (p seed : Nat) (l : List (Nat × Nat × Nat)) (key pay : Nat) : List (Nat × Nat × Nat) :=
  (itemInsert (bksPrio seed key pay, key, pay) l).take (bksK p)

/-- The distinct estimate. -/
def bksEstimate (p : Nat) (l : List (Nat × Nat × Nat)) : Nat :=
  let k := bksK p
  if l.length < k ∨ k = 1 then l.length
  else
    let pk := (l[k - 1]?.getD (0, 0, 0)).1
    if pk = 0 then 2 ^ 64 - 1 else sat64 ((k - 1) * 2 ^ 64 / pk)

/-! ### Quantile histogram (R216 to R218) -/

/-- Add a count to a bucket of an ascending list. -/
def bucketAdd (k c : Nat) : List (Nat × Nat) → List (Nat × Nat)
  | [] => [(k, c)]
  | (j, d) :: l => if k < j then (k, c) :: (j, d) :: l else if k = j then (j, sat64 (c + d)) :: l else (j, d) :: bucketAdd k c l

/-- Raise the level by one. -/
def qhUp (l : List (Nat × Nat)) : List (Nat × Nat) := l.foldl (fun a b => bucketAdd (b.1 / 2) b.2 a) []

/-- Raise `n` levels. -/
def qhUpN : Nat → List (Nat × Nat) → List (Nat × Nat)
  | 0, l => l
  | n + 1, l => qhUpN n (qhUp l)

/-- Raise while the buckets exceed the capacity. -/
def qhFit (cap : Nat) : Nat → Nat → List (Nat × Nat) → Nat × List (Nat × Nat)
  | 0, lv, l => (lv, l)
  | n + 1, lv, l => if cap < l.length then qhFit cap n (lv + 1) (qhUp l) else (lv, l)

/-- The index of a non-zero finite binary32 pattern (R216). -/
def qhIndex (m pat : Nat) : Nat :=
  let mag := pat % 2 ^ 31 / 2 ^ (23 - m)
  if bitN pat 31 then 2 ^ 15 - 1 - mag else 2 ^ 15 + mag

/-- Count one binary32 input at the current level. -/
def qhCount (p : Nat) (b : Body) (pat : Nat) : Body :=
  match b with
  | .qh lv nz nn npi nni l =>
    if pat % 2 ^ 31 = 0 then .qh lv (sat64 (nz + 1)) nn npi nni l
    else if bitsN pat 23 8 = 255 then
      if pat % 2 ^ 23 ≠ 0 then .qh lv nz (sat64 (nn + 1)) npi nni l
      else if bitN pat 31 then .qh lv nz nn npi (sat64 (nni + 1)) l
      else .qh lv nz nn (sat64 (npi + 1)) nni l
    else .qh lv nz nn npi nni (bucketAdd (qhIndex (qhM p) pat / 2 ^ lv) 1 l)
  | b => b

/-- NTOT (R217). -/
def qhTotal (nz npi nni : Nat) (l : List (Nat × Nat)) : Nat := sat64 (l.foldl (fun a b => a + b.2) (nz + npi + nni))

/-- `Low(key)` (R218). -/
def qhLow (m lv key : Nat) : Nat :=
  let i := max (key * 2 ^ lv) (2 ^ 15 - 255 * 2 ^ m)
  if 2 ^ 15 ≤ i then max ((i - 2 ^ 15) * 2 ^ (23 - m)) 1
  else 2 ^ 31 + (2 ^ 15 - 1 - i) * 2 ^ (23 - m) + (2 ^ (23 - m) - 1)

/-- The first part at which the running count reaches the rank. -/
def qhWalk (rank : Nat) : Nat → List (Nat × Nat) → Nat
  | _, [] => 0x7FC00000
  | run, (c, r) :: l => if rank ≤ run + c then r else qhWalk rank (run + c) l

/-- The quantile query for a binary64 pattern (R218, R241). -/
def qhQuantile (p : Nat) (b : Body) (q : Nat) : Nat :=
  match b, Fmt.f64.decode q with
  | .qh lv nz _ npi nni l, .fin neg m e =>
    let n := qhTotal nz npi nni l
    let x := pow2 e
    if neg && m != 0 || decide (x.2 < m * x.1) || n == 0 then 0x7FC00000
    else
      let rank := max 1 (ceilDiv (m * x.1 * n) x.2)
      let low := l.filter fun k => decide (k.1 * 2 ^ lv < 2 ^ 15)
      let high := l.filter fun k => !decide (k.1 * 2 ^ lv < 2 ^ 15)
      let part (k : Nat × Nat) : Nat × Nat := (k.2, qhLow (qhM p) lv k.1)
      qhWalk rank 0 ((nni, f32Inf true) :: low.map part ++ (nz, 2 ^ 31) :: high.map part ++ [(npi, f32Inf false)])
  | _, _ => 0x7FC00000

/-! ### Moments (R219 to R222) -/

/-- The order of binary32 patterns with infinities and −0 below +0 (R220). -/
def f32Key (pat : Nat) : Int := if bitN pat 31 then -(pat % 2 ^ 31 : Nat) - 1 else (pat % 2 ^ 31 : Nat)

/-- The order of MIN and MAX in a domain. -/
def momKey (dom x : Nat) : Int := if dom = 1 then signExt x 128 else f32Key x

/-- The lesser and the greater of two MIN or MAX fields. -/
def momMin (dom a b : Nat) : Nat := if momKey dom b < momKey dom a then b else a
/-- The greater of two MAX fields. -/
def momMax (dom a b : Nat) : Nat := if momKey dom a < momKey dom b then b else a

/-- A finite input ± m × 2^e with MIN and MAX pattern x. -/
def momFinite (dom : Nat) (b : Body) (neg : Bool) (m : Nat) (e : Int) (x : Nat) : Body :=
  match b with
  | .mom count nn npi nni sx sxx mn mx =>
    let v := m * (pow2 (e + 320)).1 / (pow2 (e + 320)).2
    let vv := m * m * (pow2 (2 * e + 320)).1 / (pow2 (2 * e + 320)).2
    .mom (sat64 (count + 1)) nn npi nni (wrapN (sx + signedMan neg v) 768) (wrapN (sxx + (vv : Nat)) 768)
      (momMin dom mn x) (momMax dom mx x)
  | b => b

/-- One input of the real domain, a binary32 pattern (R221). -/
def momReal (b : Body) (pat : Nat) : Body :=
  match b, Fmt.f32.decode pat with
  | .mom count nn npi nni sx sxx mn mx, .nan => .mom count (sat64 (nn + 1)) npi nni sx sxx mn mx
  | .mom count nn npi nni sx sxx mn mx, .inf neg =>
    .mom count nn (if neg then npi else sat64 (npi + 1)) (if neg then sat64 (nni + 1) else nni) sx sxx
      (momMin 0 mn pat) (momMax 0 mx pat)
  | b, .fin neg m e => momFinite 0 b neg m e pat
  | b, _ => b

/-- One input of the integer domain (R221). -/
def momInt (b : Body) (x : Int) : Body := momFinite 1 b (decide (x < 0)) x.natAbs 0 (wrapN x 128)

/-- `Round` of num / den, exact zero +0 (R222, R224). -/
def roundFrac (f : Fmt) (mode : Nat) (num : Int) (den : Nat) : Nat :=
  if num = 0 then 0 else f.roundRat mode (decide (num < 0)) num.natAbs den

/-- The result of a moment query by its code (R242). -/
def momQuery (p : Nat) (b : Body) (code mode : Nat) : Nat :=
  match b with
  | .mom count nn npi nni sx sxx mn mx =>
    let f := if code % 2 = 1 then Fmt.f64 else Fmt.f32
    let x := signExt sx 768
    let xx := signExt sxx 768
    match code with
    | 0 => count
    | 1 => nn
    | 2 => npi
    | 3 => nni
    | 4 => mn % 2 ^ 64
    | 5 => if momDom p = 1 then mn / 2 ^ 64 else 0
    | 6 => mx % 2 ^ 64
    | 7 => if momDom p = 1 then mx / 2 ^ 64 else 0
    | 8 | 9 => roundFrac f mode x (2 ^ 320)
    | 10 | 11 => if count = 0 then f.nan else roundFrac f mode x (count * 2 ^ 320)
    | 12 | 13 =>
      if count = 0 then f.nan else roundFrac f mode (count * xx * (2 ^ 320 : Nat) - x * x) (count * count * 2 ^ 640)
    | _ =>
      if count < 2 then f.nan else roundFrac f mode (count * xx * (2 ^ 320 : Nat) - x * x) (count * (count - 1) * 2 ^ 640)
  | _ => 0

/-! ### Windowed exact sum (R223, R224) -/

/-- Add one input to element e. -/
def wesAdd (p : Nat) (b : Body) (e : Nat) (x : FVal) : Body :=
  match b with
  | .wes nupd nclip nnan sums =>
    match x with
    | .nan => .wes nupd nclip (sat64 (nnan + 1)) sums
    | .inf _ => .wes nupd (sat64 (nclip + 1)) nnan sums
    | .fin neg m k =>
      let q := pow2 (k - wesE0 p)
      let y := m * q.1 / q.2
      if 2 ^ 95 ≤ y then .wes nupd (sat64 (nclip + 1)) nnan sums
      else .wes nupd nclip nnan (setBits sums (128 * e) 128 (wrapN (bitsN sums (128 * e) 128 + signedMan neg y) 128))
  | b => b

/-- The end of a round (R217, R223). -/
def endRound (p : Nat) (b : Body) : Body :=
  match b with
  | .wes nupd nclip nnan sums => .wes (sat64 (nupd + 1)) nclip nnan sums
  | .qh lv nz nn npi nni l =>
    let r := qhFit (qhCap p) 16 lv l
    .qh r.1 nz nn npi nni r.2
  | b => b

/-- The query of element e (R224). -/
def wesQuery (p : Nat) (f : Fmt) (sums e : Nat) : Nat :=
  let v := signExt (bitsN sums (128 * e) 128) 128
  let q := pow2 (wesE0 p)
  roundFrac f 0 (v * (q.1 : Nat)) q.2

/-! ### Merges (R210, R213, R215, R217, R221, R224) -/

/-- Add two packed tables of `n` fields of `w` bits with `g`. -/
def packedAdd (w : Nat) (g : Nat → Nat) (a b n : Nat) : Nat :=
  forUp n 0 0 fun i t => t + g (bitsN a (i * w) w + bitsN b (i * w) w) * 2 ^ (i * w)

/-- The body of a merge of two bodies of one type. -/
def mergeBody (p : Nat) : Body → Body → Body
  | .cms t a, .cms u b =>
    .cms (sat64 (t + u)) (packedAdd (cmsCW p) (fun v => min v (2 ^ cmsCW p - 1)) a b (cmsD p * 2 ^ cmsB p))
  | .bks a, .bks b => .bks ((b.foldl (fun l x => itemInsert x l) a).take (bksK p))
  | .qh l1 nz1 nn1 npi1 nni1 b1, .qh l2 nz2 nn2 npi2 nni2 b2 =>
    let lv := max l1 l2
    let m := (qhUpN (lv - l2) b2).foldl (fun l b => bucketAdd b.1 b.2 l) (qhUpN (lv - l1) b1)
    let r := qhFit (qhCap p) 16 lv m
    .qh r.1 (sat64 (nz1 + nz2)) (sat64 (nn1 + nn2)) (sat64 (npi1 + npi2)) (sat64 (nni1 + nni2)) r.2
  | .mom c1 a1 b1 d1 x1 y1 mn1 mx1, .mom c2 a2 b2 d2 x2 y2 mn2 mx2 =>
    .mom (sat64 (c1 + c2)) (sat64 (a1 + a2)) (sat64 (b1 + b2)) (sat64 (d1 + d2)) ((x1 + x2) % 2 ^ 768) ((y1 + y2) % 2 ^ 768)
      (momMin (momDom p) mn1 mn2) (momMax (momDom p) mx1 mx2)
  | .wes u1 c1 n1 s1, .wes u2 c2 n2 s2 =>
    .wes (sat64 (u1 + u2)) (sat64 (c1 + c2)) (sat64 (n1 + n2)) (packedAdd 128 (fun v => v % 2 ^ 128) s1 s2 (wesN p))
  | a, _ => a

/-- The merge of two summaries; none when TYPE, PARAM or SEED differs (R210). -/
def mergeSum (a b : Summary) : Option Summary :=
  if a.body.ty = b.body.ty ∧ a.param = b.param ∧ a.seed = b.seed then
    let pois := a.poison || b.poison
    some { a with wmark := max a.wmark b.wmark, contrib := sat64 (a.contrib + b.contrib), poison := pois,
                  body := if pois then zeroBody a.body.ty else mergeBody a.param a.body b.body }
  else none

/-! ### Images (R206, R236) -/

/-- Pack fields of 64 bits, first lowest. -/
def pack64 (l : List Nat) : Nat := l.foldr (fun x a => x % 2 ^ 64 + 2 ^ 64 * a) 0

/-- The body as a little-endian number: the preamble in the low 512 bits, then the table. -/
def bodyNum (b : Body) : Nat :=
  match b with
  | .cms total t => pack64 [total] + 2 ^ 512 * t
  | .bks l => pack64 [l.length] + 2 ^ 512 * pack64 (l.flatMap fun x => [x.1, x.2.1, x.2.2])
  | .qh lv nz nn npi nni l =>
    pack64 [lv, nz, nn, npi, nni, l.length, qhTotal nz npi nni l] + 2 ^ 512 * pack64 (l.flatMap fun x => [x.1, x.2])
  | .mom count nn npi nni sx sxx mn mx =>
    pack64 [count, nn, npi, nni] + 2 ^ 512 * (sx + 2 ^ 768 * sxx + 2 ^ 1536 * mn + 2 ^ 1664 * mx)
  | .wes nupd nclip nnan sums => pack64 [nupd, nclip, nnan] + 2 ^ 512 * sums

/-- The header without HCRC, as a number of 60 bytes. -/
def headerNum (m : Summary) (bcrc : Nat) : Nat :=
  m.body.ty + 2 ^ 8 + ((if m.poison then 1 else 0) + (if sumOvf m then 2 else 0)) * 2 ^ 16 +
  bodyBytes m.body.ty m.param * 2 ^ 32 + m.seed * 2 ^ 64 + m.param * 2 ^ 128 + m.wmark * 2 ^ 256 + m.contrib * 2 ^ 320 +
  bcrc * 2 ^ 448

/-- The image as a little-endian number of `footprint` bytes; BCRC first, then HCRC (R206, R207). -/
def sumImage (m : Summary) : Nat :=
  -- A poisoned summary carries the all-zero body (R210).
  let body := if m.poison then 0 else bodyNum m.body
  let h := headerNum m (crc32c body (bodyBytes m.body.ty m.param))
  h + crc32c h 60 * 2 ^ 480 + body * 2 ^ 512

/-- A descriptor: the summary it declares, when it is valid (R208, R209). -/
def descriptorSum (d : Nat) : Option Summary :=
  let ty := bitsN d 0 8
  let p := bitsN d 128 128
  let seed := bitsN d 64 64
  if bitsN d 8 8 = 1 ∧ bitsN d 16 48 = 0 ∧ d / 2 ^ 256 % 2 ^ 256 = 0 ∧ paramOk ty p seed then some (emptySum ty p seed) else none

/-- The header of an image, when R236 accepts it: the summary with an empty body, and FLAGS and BCRC. -/
def headerSum (h : Nat) : Option Summary :=
  let ty := bitsN h 0 8
  let p := bitsN h 128 128
  let seed := bitsN h 64 64
  if bitsN h 8 8 = 1 ∧ bitsN h 18 14 = 0 ∧ paramOk ty p seed ∧ bitsN h 32 32 = bodyBytes ty p ∧ bitsN h 384 64 = 0 ∧
      bitsN h 480 32 = crc32c (h % 2 ^ 480) 60 then
    some { emptySum ty p seed with poison := bitN h 16, wmark := bitsN h 256 64, contrib := bitsN h 320 64 }
  else none

/-- Entries of `k` doublewords each, from a table. -/
def entry (t k i j : Nat) : Nat := bitsN t (64 * (k * i + j)) 64

/-- Every entry lies below the next one. -/
def strictly {α : Type} (lt : α → α → Bool) : List α → Bool
  | a :: b :: l => lt a b && strictly lt (b :: l)
  | _ => true

/-- The body that bytes stand for, when they are a canonical state of the type (R236). What is marked zero, the counts that follow
from others and OVF are tested by `imageSum`, which writes the image again. -/
def parseBody (ty p seed b : Nat) : Option Body :=
  let t := b / 2 ^ 512
  match ty with
  | 1 => some (.cms (bitsN b 0 64) (t % 2 ^ (8 * tableBytes 1 p)))
  | 2 =>
    let n := bitsN b 0 64
    if bksK p < n then none
    else
      let l := (List.range n).map fun i => (entry t 3 i 0, entry t 3 i 1, entry t 3 i 2)
      if strictly itemLt l && l.all fun x => x.1 == bksPrio seed x.2.1 x.2.2 then some (.bks l) else none
  | 3 =>
    let lv := bitsN b 0 64
    let n := bitsN b 320 64
    if 16 < lv ∨ qhCap p < n then none
    else
      let l := (List.range n).map fun i => (entry t 2 i 0, entry t 2 i 1)
      let fits := lv != 0 && decide (l.foldl (fun a x => a + min x.2 2) 0 ≤ qhCap p)
      if strictly (fun x y : Nat × Nat => decide (x.1 < y.1)) l && (l.all fun x => x.2 != 0 && decide (x.1 < 2 ^ (16 - lv))) && !fits then
        some (.qh lv (bitsN b 64 64) (bitsN b 128 64) (bitsN b 192 64) (bitsN b 256 64) l)
      else none
  | 4 =>
    let mn := bitsN t 1536 128
    let mx := bitsN t 1664 128
    let r := Body.mom (bitsN b 0 64) (bitsN b 64 64) (bitsN b 128 64) (bitsN b 192 64) (bitsN t 0 768) (bitsN t 768 768) mn mx
    if momDom p = 1 then (if bitsN b 64 192 = 0 then some r else none)
    else if mn < 2 ^ 32 ∧ mx < 2 ^ 32 then some r else none
  | _ => some (.wes (bitsN b 0 64) (bitsN b 64 64) (bitsN b 128 64) (t % 2 ^ (128 * wesN p)))

/-- An image of `footprint` bytes with an accepted header: the summary, when R236 accepts the whole. DEDUCED: log entry 37. -/
def imageSum (m : Summary) (img : Nat) : Option Summary :=
  let ty := m.body.ty
  let r :=
    if m.poison then some { m with body := zeroBody ty }
    else (parseBody ty m.param m.seed (img / 2 ^ 512)).map fun b => { m with body := b }
  r.filter fun r => sumImage r == img

end Sys2Proof.Machine
end

