-- ==== Sys2Proof/Machine/Summary.lean ====
section
/-! DEFINITION. Summary members: declaring, updating, merging, querying, images, and commits to the Loft with `dpb` (R226 to R244,
R292 to R300). -/

namespace Sys2Proof.Machine

/-! ### Registers and traps -/

/-- Raise a condition of a summary member: it lies at element `vstart` (R228). -/
def sumTrap (s : State) (c : Cause) (tval : Word) : State := raise s s.hart.cur.vstart ⟨c, tval⟩

/-- The summary in a register. -/
def sumOf (s : State) (n : Nat) : Option Summary := s.hart.sums[n % 16]'(Nat.mod_lt _ (by decide))

/-- Replace a summary register; it becomes dirty (R227). -/
def setSum (s : State) (n : Nat) (m : Summary) : State :=
  dirtyS { s with hart := { s.hart with sums := s.hart.sums.set (n % 16) (some m) (Nat.mod_lt _ (by decide)) } } n

/-- A failed micro-operation of a member that writes a summary: it is poisoned (R210, R347). -/
def hurtSum (n : Nat) (_ : Nat) (s : State) : State := ((sumOf s n).map fun m => setSum s n (poisonSum m)).getD s

/-- Go on with the summary of a declared register; otherwise SUMTYPE (R227). -/
def withSum (s : State) (n : Nat) (g : Summary → State) : State :=
  match sumOf s n with
  | some m => g m
  | none => sumTrap s .sumtype (W n)

/-- Go on with a summary of the type that the mnemonic names (R227). -/
def withType (s : State) (n ty : Nat) (g : Summary → State) : State :=
  withSum s n fun m => if m.body.ty = ty then g m else sumTrap s .sumtype (W n)

/-- Go on with a summary of a type that is not poisoned (R210, R243). -/
def withQuery (s : State) (n ty : Nat) (g : Summary → State) : State :=
  withType s n ty fun m => if m.poison then sumTrap s .sumpoison (W n) else g m

/-- The footprints of the other declared registers and this one exceed the share (R205). -/
def overShare (s : State) (n : Nat) (m : Summary) : Bool :=
  decide (shareBytes s < ((List.range 16).foldl (fun a i => if i = n then a else a + ((sumOf s i).map footprint).getD 0) (footprint m)))

/-! ### Updates (R211, R231, R232) -/

/-- An input of a type code: the value of element e of a register and its poison (R133, R211). -/
def sumInput (s : State) (t : BitVec 5) (va : BitVec 5) (e : Nat) : CvtVal × Bool :=
  cvtSrc s { fn := 0, l := false, ca := false, pred := 0, t := t, va := va, vd := 0 } e

/-- Is a type code with a given EW and descriptor well formed (R226, R232)? -/
def inputOk (t ew : Nat) (p : Snap) : Bool :=
  decide (t < 16) && (t < 12 || descValid p.fmt[t % 4]) && cvtSrcWidth p t == ew

/-- The types that a QH, and a MOM of the real domain, accept (R211). -/
def realType (t : Nat) : Bool := t == 0 || t == 1 || t == 4 || t == 5 || t == 8 || t == 9 || t == 10 || decide (12 ≤ t)

/-- Body elements, from `vstart` to `vl` − 1. -/
def bodyElems (s : State) : List Nat := (List.range s.hart.cur.vl).drop s.hart.cur.vstart

/-- One update round on register n: `f` absorbs element e in the body, `bad` says that something read for it is poisoned (R210, R231).
Nothing happens with `vl` at or below `vstart` (R227). DEDUCED: log entry 32. -/
def sumRound (s : State) (n pred : Nat) (m : Summary) (bad : Nat → Bool) (f : Nat → Body → Body) : State :=
  if s.hart.cur.vl ≤ s.hart.cur.vstart then s
  else
    let es := (bodyElems s).filter fun e => active s pred e
    if es.any bad || es.any (activeP s pred) then setSum s n (poisonSum m)
    else if m.poison then setSum s n m
    else setSum s n { m with body := endRound m.param (es.foldl (fun b e => f e b) m.body) }

/-- A key or payload: the pattern sign-extended to 64 bits (R211). -/
def sumKey (s : State) (v e : Nat) : Nat := sx64 (ew s) (el s v e (ew s))

/-- `supd.cms` (R231). -/
def memSupdCms (f : OpSM) : Member :=
  { check := needEw ewInt, whole := true, srcs := if f.b = 0 then [f.a.toNat] else [f.a.toNat, f.b.toNat], hurt := hurtSum f.sd.toNat,
    run := fun s =>
      withType s f.sd.toNat 1 fun m =>
        let w := ew s
        let weight (e : Nat) : Nat := if f.b = 0 then 1 else min (el s f.b.toNat e w) (2 ^ cmsCW m.param - 1)
        sumRound s f.sd.toNat f.pred.toNat m (fun e => elP s f.a.toNat e w || f.b != 0 && elP s f.b.toNat e w) fun e b =>
          match b with
          | .cms total t =>
            let r := cmsAdd m.param m.seed (total, t) (sumKey s f.a.toNat e) (weight e)
            .cms r.1 r.2
          | b => b }

/-- `supd.bks` (R231). -/
def memSupdBks (f : OpSM) : Member :=
  { check := needEw ewInt, whole := true, srcs := if f.b = 0 then [f.a.toNat] else [f.a.toNat, f.b.toNat], hurt := hurtSum f.sd.toNat,
    run := fun s =>
      withType s f.sd.toNat 2 fun m =>
        let w := ew s
        sumRound s f.sd.toNat f.pred.toNat m (fun e => elP s f.a.toNat e w || f.b != 0 && elP s f.b.toNat e w) fun e b =>
          match b with
          | .bks l => .bks (bksAdd m.param m.seed l (sumKey s f.a.toNat e) (if f.b = 0 then 0 else sumKey s f.b.toNat e))
          | b => b }

/-- The decode check of a typed update (R226). -/
def typedCheck (f : OpSM) (d : DCtx) : Option Cause := if inputOk f.b.toNat d.ew d.snap then none else some .illegal

/-- `supd.qh` (R231). -/
def memSupdQh (f : OpSM) : Member :=
  { check := typedCheck f, whole := true, srcs := [f.a.toNat], hurt := hurtSum f.sd.toNat,
    run := fun s =>
      withType s f.sd.toNat 3 fun m =>
        if !realType f.b.toNat then sumTrap s .sumtype (W f.sd.toNat)
        else
          sumRound s f.sd.toNat f.pred.toNat m (fun e => (sumInput s f.b f.a e).2) fun e b =>
            qhCount m.param b (Fmt.f32.round 0 (sumInput s f.b f.a e).1.toF) }

/-- `supd.mom` (R231). -/
def memSupdMom (f : OpSM) : Member :=
  { check := typedCheck f, whole := true, srcs := [f.a.toNat], hurt := hurtSum f.sd.toNat,
    run := fun s =>
      withType s f.sd.toNat 4 fun m =>
        if !(if momDom m.param = 1 then decide (f.b.toNat < 8) else realType f.b.toNat) then sumTrap s .sumtype (W f.sd.toNat)
        else
          sumRound s f.sd.toNat f.pred.toNat m (fun e => (sumInput s f.b f.a e).2) fun e b =>
            match (sumInput s f.b f.a e).1 with
            | .int x => if momDom m.param = 1 then momInt b x else momReal b (Fmt.f32.round 0 (FVal.ofInt x))
            | .flt x => momReal b (Fmt.f32.round 0 x) }

/-- `supd.wes` (R232). -/
def memSupdWes (f : OpSM) : Member :=
  { check := needEw ewAny, whole := true, srcs := [f.a.toNat], hurt := hurtSum f.sd.toNat,
    run := fun s =>
      withType s f.sd.toNat 5 fun m =>
        let xb := (srcX s f.b).toNat
        let t := bitsN xb 16 5
        let off := bitsN xb 0 16
        if !inputOk t (ew s) s.hart.cur.snap || (bodyElems s).any fun e => active s f.pred.toNat e && decide (wesN m.param ≤ off + e) then
          sumTrap s .sumtype (W f.sd.toNat)
        else
          let ty := BitVec.ofNat 5 t
          sumRound s f.sd.toNat f.pred.toNat m (fun e => (sumInput s ty f.a e).2) fun e b =>
            wesAdd m.param b (off + e) (sumInput s ty f.a e).1.toF }

/-! ### Declaring, clearing, merging (R229, R230, R233) -/

/-- `sclr` (R230). -/
def memSclr (f : OpSM) : Member :=
  { check := fun _ => none, whole := true, hurt := hurtSum f.sd.toNat,
    run := fun s => withSum s f.sd.toNat fun m => setSum s f.sd.toNat (emptySum m.body.ty m.param m.seed) }

/-- `smerge` (R233): of two registers that are not declared, sd is reported (R227). DEDUCED: log entry 113. -/
def memSmerge (f : OpSM) : Member :=
  { check := fun _ => none, whole := true, hurt := hurtSum f.sd.toNat,
    run := fun s =>
      withSum s f.sd.toNat fun m =>
        withSum s f.a.toNat fun a =>
          match mergeSum m a with
          | some r => setSum s f.sd.toNat r
          | none => sumTrap s .sumtype (W f.a.toNat) }

/-- Read `n` bytes at an address as vector loads; the trap conditions of R228. -/
def sumRead (s : State) (va : Word) (n : Nat) (g : State → Nat → Bool → State) : State :=
  match hartSpan s va n .load with
  | (_, .trap t) => sumTrap s t.cause t.tval
  | (u, .stall) => mustWait u none
  | (u, .ok l) =>
    let u := flushSpan u l
    g u (spanRead u l) (spanPoison u l)

/-- `sdecl` (R229). -/
def memSdecl (f : OpSM) : Member :=
  { check := fun _ => none, whole := true, hurt := hurtSum f.sd.toNat,
    run := fun s =>
      let va := srcX s f.a
      if va.toNat % 64 ≠ 0 then sumTrap s .misalign va
      else
        sumRead s va 64 fun u d pois =>
          if pois then sumTrap u .poison va
          else
            match descriptorSum d with
            | none => sumTrap u .sumtype va
            | some m => if overShare u f.sd.toNat m then sumTrap u .sumspace (W f.sd.toNat) else setSum u f.sd.toNat m }

/-- Read an image and go on with the summary that R236 accepts, when its header is one that `ok` accepts (R234): the header before the body, and a
poisoned body byte gives a poisoned summary. -/
def readImageIf (ok : Summary → Bool) (s : State) (va : Word) (g : State → Summary → State) : State :=
  if va.toNat % 64 ≠ 0 then sumTrap s .misalign va
  else
    sumRead s va 64 fun u h pois =>
      match (if pois then none else (headerSum h).filter ok) with
      | none => sumTrap u .sumtype va
      | some m =>
        sumRead u (va + 64) (bodyBytes m.body.ty m.param) fun u b pois =>
          if pois then g u (poisonSum m)
          else
            match imageSum m (h % 2 ^ 512 + b * 2 ^ 512) with
            | none => sumTrap u .sumtype va
            | some r => g u r

/-- Read an image (R236). -/
def readImage (s : State) (va : Word) (g : State → Summary → State) : State := readImageIf (fun _ => true) s va g

/-- Two summaries have the same TYPE, PARAM and SEED (R210). -/
def sameKindSum (a b : Summary) : Bool := a.body.ty == b.body.ty && a.param == b.param && a.seed == b.seed

/-- `sld` (R237). -/
def memSld (f : OpSM) : Member :=
  { check := fun _ => none, whole := true, hurt := hurtSum f.sd.toNat,
    run := fun s =>
      readImage s (srcX s f.a) fun u m =>
        if overShare u f.sd.toNat m then sumTrap u .sumspace (W f.sd.toNat) else setSum u f.sd.toNat m }

/-- `smerge.m` (R234): the declaration is asked before the address (R227, R228). DEDUCED: log entry 112. -/
def memSmergeM (f : OpSM) : Member :=
  { check := fun _ => none, whole := true, hurt := hurtSum f.sd.toNat,
    run := fun s =>
      withSum s f.sd.toNat fun m =>
        readImageIf (sameKindSum m) s (srcX s f.a) fun u a =>
          match mergeSum m a with
          | some r => setSum u f.sd.toNat r
          | none => sumTrap u .sumtype (srcX s f.a) }

/-! ### Saving (R238) -/

/-- Store `n` bytes of a number at an address in ascending order: 16-byte stores, and a final one of 8 bytes (R290). -/
def putImage (s : State) (va : Word) (v n : Nat) : State :=
  markWhole s.hart.storeQ.length <| forUp (ceilDiv n 16) 0 s fun i t =>
    if t.hart.cur.fault == s.hart.cur.fault && t.hart.cur.wait.isNone then
      let w := min 16 (n - 16 * i)
      let foot : Foot := { va := va + W (16 * i), bit := 0, wm := 8 * w }
      match reach t foot .store with
      | (u, .ok l) => footStore u foot l (v / 256 ^ (16 * i)) false .vector s.hart.cur.epoch
      | (_, .trap tr) => sumTrap t tr.cause tr.tval
      | (u, _) => mustWait u none
    else t

/-- The watermark raised (R238, R298). -/
def raiseMark (s : State) (n : Nat) (m : Summary) (w : Word) : State × Summary :=
  if m.wmark < w.toNat then
    let m := { m with wmark := w.toNat }
    (setSum s n m, m)
  else (s, m)

/-- `sst` (R238): the declaration is asked before the address (R227, R228). DEDUCED: log entry 112. -/
def memSst (f : OpSM) : Member :=
  { check := fun _ => none, whole := true,
    run := fun s =>
      withSum s f.sd.toNat fun m =>
        let va := srcX s f.a
        if va.toNat % 64 ≠ 0 then sumTrap s .misalign va
        else
          let r := raiseMark s f.sd.toNat m (srcX s f.b)
          putImage r.1 va (sumImage r.2) (footprint r.2) }

/-! ### Queries (R239 to R243) -/

/-- `sq.cms` (R239). -/
def memSqCms (f : OpSM) : Member :=
  { check := needEw ewInt, whole := true, srcs := [f.a.toNat], dsts := [f.b.toNat],
    run := fun s =>
      withQuery s f.sd.toNat 1 fun m =>
        let w := ew s
        writeVec s f.b.toNat w f.pred.toNat fun e =>
          match m.body with
          | .cms _ t => (min (cmsPoint m.param m.seed t (sumKey s f.a.toNat e)) (2 ^ w - 1), elP s f.a.toNat e w)
          | _ => (0, false) }

/-- `sq.bks.est` (R240). -/
def memSqBksEst (f : OpSM) : Member :=
  { check := fun _ => none, whole := true, hurt := hurtScalar,
    run := fun s =>
      withQuery s f.sd.toNat 2 fun m =>
        match m.body with
        | .bks l => writeX s f.b (W (bksEstimate m.param l))
        | _ => s }

/-- `sq.bks.items` (R240). -/
def memSqBksItems (f : OpSM) : Member :=
  { check := needEw [64], whole := true, dsts := [f.b.toNat, f.b.toNat + 1],
    run := fun s =>
      withQuery s f.sd.toNat 2 fun m =>
        match m.body with
        | .bks l =>
          let item (e : Nat) : Nat × Nat × Nat := (l[(srcX s f.a).toNat + e]?).getD (0, 0, 0)
          let t := writeVec s f.b.toNat 64 f.pred.toNat fun e => ((item e).2.1, false)
          writeVec t (f.b.toNat + 1) 64 f.pred.toNat fun e => ((item e).2.2, false)
        | _ => s }

/-- `sq.qnt` (R241). -/
def memSqQnt (f : OpSM) : Member :=
  { check := fun _ => none, whole := true, hurt := hurtScalar,
    run := fun s =>
      withQuery s f.sd.toNat 3 fun m => writeX s f.b (W (qhQuantile m.param m.body (srcX s f.a).toNat)) }

/-- `sq.mom` (R242). -/
def memSqMomQuery (f : OpSM) : Member :=
  { check := fun _ => none, whole := true, hurt := hurtScalar,
    run := fun s =>
      withQuery s f.sd.toNat 4 fun m => writeX s f.b (W (momQuery m.param m.body f.a.toNat (rmodeOf s))) }

/-- `sq.wes` (R243). -/
def memSqWes (f : OpSM) : Member :=
  { check := needEw [16, 32], whole := true, dsts := [f.b.toNat],
    run := fun s =>
      withQuery s f.sd.toNat 5 fun m =>
        let base := (srcX s f.a).toNat
        if (bodyElems s).any fun e => active s f.pred.toNat e && decide (wesN m.param ≤ base + e) then
          sumTrap s .sumtype (W f.sd.toNat)
        else
          match m.body with
          | .wes _ _ _ sums =>
            writeVec s f.b.toNat (ew s) f.pred.toNat fun e => (wesQuery m.param (vfmt (ew s)) sums (base + e), false)
          | _ => s }

/-! ### Commits and the persist barrier (R292 to R300) -/

/-- Some of `n` bytes from an address of the hart's PASID lie in the Loft, page by page, or in a page in migration, which may be one of the Loft. -/
def toLoft (s : State) : Nat → Word → Nat → Bool
  | 0, _, _ => false
  | fuel + 1, va, n =>
    if n = 0 then false
    else
      match locate s s.hart.pasid va .store with
      | .ok h => isLoftKey h.key || decide (h.left < n) && toLoft s fuel (va + W h.left) (n - h.left)
      | .stall => true
      | _ => toLoft s fuel (va + W (4096 - va.toNat % 4096)) (n - (4096 - va.toNat % 4096))

/-- A scalar source of an entry. -/
def xOf (e : AqEntry) (n : BitVec 5) : Word := if n = 0 then 0 else e.xs[n.toNat]

/-- What a record will have written to by its handle: whether it is an out-stream, and the bytes of its destination that are left. -/
abbrev Dest := Nat × Bool × Word × Nat

/-- The records that are open once an entry has been done, by handle, from those before it: an `ast.open` that has not started opens the record that
memory holds now, under the lowest free handle (R248, R250, R251). -/
def destAfter (s : State) (l : List Dest) (e : AqEntry) : List Dest :=
  match e.instr, e.progress with
  | .astOpen f, .fresh =>
    match peekRead s (xOf e f.a) 64, ((List.range 9).drop 1).find? fun h => l.all fun d => d.1 != h with
    | some v, some h => (h, bitsN v 8 8 == 1, W (bitsN v 64 64), bitsN v 128 64) :: l
    | _, _ => l
  | .astClose f, .fresh => l.filter fun d => d.1 != (xOf e f.a).toNat
  | _, _ => l

/-- The records that are open when the entries of a list have been done. -/
def destsAfter (s : State) (l : List AqEntry) : List Dest :=
  l.foldl (destAfter s) (s.hart.streams.map fun r => (r.handle, r.out, r.addr + W r.pos, r.len - r.pos))

/-- An access entry that may still write the Loft (R293), `before` being the entries ahead of it: one that is done has written what it writes, and one
that has not started writes what its record or table names as memory holds it now. -/
def entryLoft (s : State) (before : List AqEntry) (e : AqEntry) : Bool :=
  let loft (va : Word) (n : Nat) : Bool := toLoft s (spanFuel n) va n
  let coll (op ch nslot : Nat) (slots dest status : Word) : Bool := loft status 64 || op == 2 && (loft dest ch || loft slots (nslot * ch))
  match e.instr, e.progress with
  | _, .done _ _ _ => false
  | .astRun f, .fresh => (destsAfter s before).any fun d => d.1 == (xOf e f.a).toNat && d.2.1 && loft d.2.2.1 d.2.2.2
  | .astRun f, _ => s.hart.streams.any fun r => r.handle == (xOf e f.a).toNat && r.out && loft (r.addr + W r.pos) (r.len - r.pos)
  | .acol _, .coll c => coll c.op c.ch c.nslot c.slotsAt c.destAt c.statusAt
  | .acol f, _ =>
    ((peekRead s (xOf e f.a) 128).map fun h =>
      coll (bitsN h 8 8) (bitsN h 96 32) (bitsN h 48 16) (W (bitsN h 320 64)) (W (bitsN h 448 64)) (W (bitsN h 512 64))).getD false
  | .arecv _, .transfer t => loft (t.addr + W t.pos) (t.len - t.pos)
  | .arecv f, _ => ((peekRead s (xOf e f.a) 32).map fun v => loft (W (bitsN v 0 64)) (bitsN v 64 64)).getD false
  | _, _ => false

/-- Some entry of a list may still write the Loft. -/
def anyLoft (s : State) (l : List AqEntry) : Bool := l.zipIdx.any fun p => entryLoft s (l.take p.2) p.1

/-- Every Loft store of the hart of epoch n or below is durable, and no entry posted before the convoy can still make one. -/
def persisted (s : State) (n : Nat) : Bool := durableUpTo s n && !anyLoft s (s.hart.aq.take s.hart.cur.aqAhead)

/-- `dpb`: retires when every Loft store of epoch n or below is durable (R293). -/
def memDpb (_ : OpDS) : Member :=
  { check := fun _ => none,
    run := fun s => if persisted s s.hart.cur.epoch then s else mustWait s none }

/-- The lowest byte of a cell that cannot be read, written, or lies outside the Loft (R299). -/
def cellFault (s : State) : Nat → Word → Nat → State × Except (Option Trap) Unit
  | 0, _, _ => (s, .ok ())
  | fuel + 1, va, n =>
    match resolve s va 1 .load with
    | (u, .trap t) => (u, .error (some t))
    | (u, .stall) => (u, .error none)
    | (u, .ok _) =>
      match resolve u va 1 .store with
      | (v, .trap t) => (v, .error (some t))
      | (v, .stall) => (v, .error none)
      | (v, .ok h) =>
        if !isLoftKey h.key then (v, .error (some ⟨.perm, va⟩))
        else if n ≤ h.left then (v, .ok ())
        else cellFault v fuel (va + W h.left) (n - h.left)

/-- SEQ and ISIZE of a seal that is seal-valid (R296). -/
def sealValid (v : Nat) (pois : Bool) : Option (Nat × Nat) :=
  if !pois && bitsN v 0 64 != 0 && bitsN v 480 32 == crc32c (v % 2 ^ 480) 60 then some (bitsN v 0 64, bitsN v 128 32) else none

/-- The newer seal: its number and its SEQ and ISIZE; seal 0 on equal SEQ (R296). -/
def newerSeal (a b : Option (Nat × Nat)) : Option (Nat × Nat × Nat) :=
  match a, b with
  | some x, some y => if x.1 < y.1 then some (1, y) else some (0, x)
  | some x, none => some (0, x)
  | none, some y => some (1, y)
  | none, none => none

/-- A seal as a number of 64 bytes (R296, R298). -/
def sealNum (seq wmark isize icrc : Nat) : Nat :=
  let v := seq + wmark * 2 ^ 64 + isize * 2 ^ 128 + icrc * 2 ^ 160
  v + crc32c v 60 * 2 ^ 480

/-- The phase of the commit that is performed, and the slot and sequence number it has chosen. -/
def setPhase (s : State) (p : Nat) (c : Nat × Nat) : State :=
  { s with hart := { s.hart with cur := { s.hart.cur with phase := p, commit := c } } }

/-- The image that a commit writes: the summary with its watermark raised (R298). -/
def commitSum (s : State) (f : OpSM) (m : Summary) : Summary := { m with wmark := max m.wmark (srcX s f.b).toNat }

/-- Phase 2: the image and its padding are released, and the commit waits (R298); it begins when no page is in migration (R279). -/
def commitImage (f : OpSM) (m : Summary) (c : Nat × Nat) (s : State) : State :=
  let z := footprint m
  let n := ceilTo z 128
  let r := putImage s (srcX s f.a + W (0x80 + c.1 * n)) (sumImage (commitSum s f m)) n
  if r.hart.cur.wait.isSome then mustWait s none else mustWait (setPhase r 1 c) none

/-- Phase 3: the seal is released, and the commit waits (R298); it begins when no page is in migration (R279). -/
def commitSeal (f : OpSM) (m : Summary) (s : State) : State :=
  let c := s.hart.cur.commit
  let m := commitSum s f m
  let v := sealNum (c.2 + 1) m.wmark (footprint m) (bitsN (sumImage m) 480 32)
  let r := putImage s (srcX s f.a + W (0x40 * c.1)) v 64
  if r.hart.cur.wait.isSome then mustWait s none else mustWait (setPhase r 2 c) none

/-- The phases of a commit that has passed its checks: 0 waits for the earlier epochs, and for the stores of a run of this commit that was
stopped (R300), 1 for the image, 2 for the seal; then the
watermark stands and the convoy retires (R298). DEDUCED: log entry 38. DESIGN CHOICE: log entry 114. -/
def commitPhase (f : OpSM) (m : Summary) (c : Nat × Nat) (s : State) : State :=
  match s.hart.cur.phase with
  | 0 => if persisted s s.hart.cur.epoch then commitImage f m c s else mustWait s none
  | 1 => if durableUpTo s s.hart.cur.epoch then commitSeal f m s else mustWait s none
  | _ => if durableUpTo s s.hart.cur.epoch then (raiseMark s f.sd.toNat m (srcX s f.b)).1 else mustWait s none

/-- `scmt` (R297 to R300). -/
def memScmt (f : OpSM) : Member :=
  { check := fun _ => none, whole := true,
    run := fun s =>
      withSum s f.sd.toNat fun m =>
        if m.poison then sumTrap s .sumpoison (W f.sd.toNat)
        else
          let c := srcX s f.a
          if s.hart.cur.phase ≠ 0 then commitPhase f m (0, 0) s
          else if c.toNat % 128 ≠ 0 then sumTrap s .misalign c
          else
            let n := 0x80 + 2 * ceilTo (footprint m) 128
            match cellFault s (spanFuel n) c n with
            | (_, .error (some t)) => sumTrap s t.cause t.tval
            | (u, .error none) => mustWait u none
            | (u, .ok ()) =>
              sumRead u c 64 fun u s0 p0 =>
                sumRead u (c + 64) 64 fun u s1 p1 =>
                  match newerSeal (sealValid s0 p0) (sealValid s1 p1) with
                  | none => commitPhase f m (0, 0) u
                  | some (j, q, isize) =>
                    if isize ≠ footprint m ∨ q = 2 ^ 64 - 1 then sumTrap u .sumtype c else commitPhase f m (1 - j, q) u }

noncomputable section

/-- `supdCms` as a convoy of its own (R19, R20). -/
def execSupdCms (f : OpSM) (s : State) : Out := solo (.supdCms f) (memSupdCms f) s

/-- `supdBks` as a convoy of its own (R19, R20). -/
def execSupdBks (f : OpSM) (s : State) : Out := solo (.supdBks f) (memSupdBks f) s

/-- `supdQh` as a convoy of its own (R19, R20). -/
def execSupdQh (f : OpSM) (s : State) : Out := solo (.supdQh f) (memSupdQh f) s

/-- `supdMom` as a convoy of its own (R19, R20). -/
def execSupdMom (f : OpSM) (s : State) : Out := solo (.supdMom f) (memSupdMom f) s

/-- `supdWes` as a convoy of its own (R19, R20). -/
def execSupdWes (f : OpSM) (s : State) : Out := solo (.supdWes f) (memSupdWes f) s

/-- `smerge` as a convoy of its own (R19, R20). -/
def execSmerge (f : OpSM) (s : State) : Out := solo (.smerge f) (memSmerge f) s

/-- `sclr` as a convoy of its own (R19, R20). -/
def execSclr (f : OpSM) (s : State) : Out := solo (.sclr f) (memSclr f) s

/-- `sdecl` as a convoy of its own (R19, R20). -/
def execSdecl (f : OpSM) (s : State) : Out := solo (.sdecl f) (memSdecl f) s

/-- `sqCms` as a convoy of its own (R19, R20). -/
def execSqCms (f : OpSM) (s : State) : Out := solo (.sqCms f) (memSqCms f) s

/-- `sqBksEst` as a convoy of its own (R19, R20). -/
def execSqBksEst (f : OpSM) (s : State) : Out := solo (.sqBksEst f) (memSqBksEst f) s

/-- `sqBksItems` as a convoy of its own (R19, R20). -/
def execSqBksItems (f : OpSM) (s : State) : Out := solo (.sqBksItems f) (memSqBksItems f) s

/-- `sqQnt` as a convoy of its own (R19, R20). -/
def execSqQnt (f : OpSM) (s : State) : Out := solo (.sqQnt f) (memSqQnt f) s

/-- `sqMomQuery` as a convoy of its own (R19, R20). -/
def execSqMomQuery (f : OpSM) (s : State) : Out := solo (.sqMomQuery f) (memSqMomQuery f) s

/-- `sqWes` as a convoy of its own (R19, R20). -/
def execSqWes (f : OpSM) (s : State) : Out := solo (.sqWes f) (memSqWes f) s

/-- `sst` as a convoy of its own (R19, R20). -/
def execSst (f : OpSM) (s : State) : Out := solo (.sst f) (memSst f) s

/-- `sld` as a convoy of its own (R19, R20). -/
def execSld (f : OpSM) (s : State) : Out := solo (.sld f) (memSld f) s

/-- `smergeM` as a convoy of its own (R19, R20). -/
def execSmergeM (f : OpSM) (s : State) : Out := solo (.smergeM f) (memSmergeM f) s

/-- `scmt` as a convoy of its own (R19, R20). -/
def execScmt (f : OpSM) (s : State) : Out := solo (.scmt f) (memScmt f) s

/-- `dpb` as a convoy of its own (R19, R20). -/
def execDpb (f : OpDS) (s : State) : Out := solo (.dpb f) (memDpb f) s

/-- The step in which the image of the commit at the head of the vector queue is written: every Loft store of the earlier epochs is
durable (R298). Nothing happens when no commit stands at that point (log entry 7). -/
def execScmtImageWrite (s : State) : Out :=
  match s.hart.vq with
  | c :: _ =>
    match c.members with
    | .scmt f :: _ => if c.phase = 0 && s.hart.run == .running then .next (runConvoy [memScmt f] (roleFor s c.addr)) else .next s
    | _ => .next s
  | [] => .next s

/-- The step in which the seal of the commit at the head of the vector queue is written: its image is durable (R298). -/
def execScmtSealWrite (s : State) : Out :=
  match s.hart.vq with
  | c :: _ =>
    match c.members with
    | .scmt f :: _ => if c.phase = 1 && s.hart.run == .running then .next (runConvoy [memScmt f] (roleFor s c.addr)) else .next s
    | _ => .next s
  | [] => .next s

end

end Sys2Proof.Machine
end

