-- ==== Sys2Proof/Machine/Sheds.lean ====
section
/-! DEFINITION. Sheds in the fabric switches: allocation instructions, quotas, failure and return of a switch (R305 to R315). -/

namespace Sys2Proof.Machine

/-- The tenant of a PASID (R305); tenant 0 when the fabric manager has assigned none (log entry 2). -/
def tenantOf (s : State) (pasid : Nat) : Nat := ((s.tenants.find? fun t => t.1 == pasid).map fun t => t.2).getD 0

/-- A tenant's quota on a switch (R305); 0 when the fabric manager has set none (log entry 2). -/
def quotaOf (s : State) (plane tenant : Nat) : Nat :=
  ((s.sheds.quotas.find? fun q => q.1 == plane && q.2.1 == tenant).map fun q => q.2.2).getD 0

/-- A block that a tenant holds on a switch: not one that a failure lost whose switch has returned (R310, R314). -/
def holdsBlock (s : State) (plane tenant : Nat) (b : ShedBlock) : Bool :=
  b.plane == plane && b.tenant == tenant && !(b.lost && !s.sheds.failed.contains plane)

/-- Blocks that a tenant holds on a switch, mirror halves included (R310). -/
def heldOf (s : State) (plane tenant : Nat) : Nat := s.sheds.blocks.countP (holdsBlock s plane tenant)

/-- The arena of the focused hart's launch: base address and extents on each plane (R306). -/
def arenaOf (s : State) : Word × List Nat :=
  match gangOf s s.hart with
  | some g => if g.lid2 == some s.hart.gangid then (g.ava2, g.ng2) else (g.ava, g.ng)
  | none => (0, [])

/-- Blocks of the arena on a plane: 512 in each extent. -/
def arenaBlocks (s : State) (plane : Nat) : Nat := 512 * ((arenaOf s).2[plane]?).getD 0

/-- The block of the switch that is block `n` of the arena on a plane: the launch's extents in ascending order (R306). -/
def arenaBlock (s : State) (plane n : Nat) : Option Nat :=
  ((s.sheds.extents.filter fun e => e.1 == plane && e.2.2 == s.hart.gangid)[n / 512]?).map fun e => e.2.1 * 512 + n % 512

/-- The plane and block number of an address in the arena (R306). -/
def arenaPlace (s : State) (va : Word) : Option (Nat × Nat) :=
  let a := arenaOf s
  let o := va.toNat - a.1.toNat
  let plane := o / 2 ^ 37
  if a.1 ≠ 0 ∧ a.1.toNat ≤ va.toNat ∧ plane < 16 ∧ o % 2 ^ 37 / 2 ^ 21 < arenaBlocks s plane then some (plane, o % 2 ^ 37 / 2 ^ 21)
  else none

/-- Block `n` of the arena on a plane is free. -/
def arenaFree (s : State) (plane n : Nat) : Bool :=
  match arenaBlock s plane n with
  | some b => (shedBlock s plane b).isNone
  | none => false

/-- Zero a block (R308). -/
def zeroShed (s : State) (plane block : Nat) : State :=
  let k := shedKey plane block
  { s with mem := Memory.clear s.mem k (2 ^ 21),
           poison := s.poison.filter fun g => !(decide (k / 64 ≤ g) && decide (g < k / 64 + 2 ^ 15)) }

/-- The return code that forbids an allocation on a plane: 4, 3 or 2 (R308). -/
def shedCode (s : State) (plane : Nat) : Option Nat :=
  if 16 ≤ plane then some 4
  else if s.sheds.failed.contains plane then some 3
  else if quotaOf s plane (tenantOf s s.hart.pasid) ≤ heldOf s plane (tenantOf s s.hart.pasid) then some 2
  else none

/-- Record an allocation. -/
def takeShed (s : State) (plane block : Nat) (partner : Option (Nat × Nat)) (mirror : Bool) : State :=
  let b : ShedBlock := {
    plane := plane, block := block, tenant := tenantOf s s.hart.pasid, gang := s.hart.gangid,
    partner := partner, mirror := mirror, lost := false, overQ := false, seq := s.sheds.seq }
  zeroShed { s with sheds := { s.sheds with blocks := s.sheds.blocks ++ [b], seq := s.sheds.seq + 1 } } plane block

/-- The address of block `n` of a plane of the arena. -/
def arenaAddr (s : State) (plane n : Nat) : Word := (arenaOf s).1 + W (plane * 2 ^ 37 + n * 2 ^ 21)

/-- The lowest of `n` numbers from 0 that satisfies `p`. -/
def lowest (n : Nat) (p : Nat → Bool) : Option Nat := (List.range n).find? p

/-- `shalloc` (R308). DEDUCED: log entry 40. -/
def memShalloc (f : OpDS) : Member :=
  { check := fun _ => none, whole := true,
    run := fun s =>
      let p := (srcX s f.a).toNat
      match shedCode s p with
      | some c => writeX s f.d (W c)
      | none =>
        match lowest (arenaBlocks s p) (arenaFree s p) with
        | none => writeX s f.d 1
        | some n => writeX (takeShed s p ((arenaBlock s p n).getD 0) none false) f.d (arenaAddr s p n) }

/-- The greater of the codes that forbid a pair (R308). -/
def pairCode (s : State) (p q : Nat) : Option Nat :=
  if p = q then some 4
  else
    match shedCode s p, shedCode s q with
    | some a, some b => some (max a b)
    | some a, none => some a
    | none, b => b

/-- `shalloc.m` (R308): the lowest block free on both planes. -/
def memShallocM (f : OpDS) : Member :=
  { check := fun _ => none, whole := true,
    run := fun s =>
      let p := (srcX s f.a).toNat
      let q := (srcX s f.b).toNat
      match pairCode s p q with
      | some c => writeX s f.d (W c)
      | none =>
        match lowest (min (arenaBlocks s p) (arenaBlocks s q)) fun n => arenaFree s p n && arenaFree s q n with
        | none => writeX s f.d 1
        | some n =>
          let bp := (arenaBlock s p n).getD 0
          let bq := (arenaBlock s q n).getD 0
          writeX (takeShed (takeShed s p bp (some (q, bq)) false) q bq (some (p, bp)) true) f.d (arenaAddr s p n) }

/-- A key lies in a block or in the other half of its pair. -/
def inBlock (b : ShedBlock) (k : Nat) : Bool :=
  let on (p n : Nat) : Bool := decide (shedKey p n ≤ k) && decide (k < shedKey p n + 2 ^ 21)
  on b.plane b.block || (b.partner.map fun p => on p.1 p.2).getD false

/-- The hart's queued stores that satisfy `p` are performed, and the others wait on, each target in its order (R169). -/
def drainWhere (p : Nat → Bool) (s : State) : State :=
  let targets := ((s.hart.storeQ.filter fun st => p st.key).map fun st => targetIn s st.key).eraseDups
  targets.foldl drainTarget s

/-- Free a block and the other half of its pair, in the order of its locations: the stores that its switch has been sent are performed first, and
their effects are discarded with the block (R309). -/
def freeShed (s : State) (b : ShedBlock) : State :=
  let s := eachHart s (drainWhere (inBlock b))
  let gone (c : ShedBlock) : Bool := c.plane == b.plane && c.block == b.block || b.partner == some (c.plane, c.block)
  { s with sheds := { s.sheds with blocks := s.sheds.blocks.filter fun c => !gone c } }

/-- The allocated block at an address in the arena, if any. -/
def blockAt (s : State) (va : Word) : Option (Option ShedBlock) :=
  (arenaPlace s va).map fun p => (arenaBlock s p.1 p.2).bind fun b => (shedBlock s p.1 b).filter fun r => r.gang == s.hart.gangid

/-- `shfree` (R309). -/
def memShfree (f : OpDS) : Member :=
  { check := fun _ => none, whole := true,
    run := fun s =>
      let va := srcX s f.a
      let k := s.hart.cur.vstart
      if va.toNat % 2 ^ 21 ≠ 0 then raise s k ⟨.misalign, va⟩
      else
        match blockAt s va with
        | none => raise s k ⟨.tfault, va⟩
        | some none => raise s k ⟨.shedUnalloc, va⟩
        | some (some b) =>
          if b.mirror && b.partner.isSome then raise s k ⟨.shedUnalloc, va⟩ else freeShed s b }

/-- The primary half of a pair, or the block itself. -/
def primaryOf (s : State) (b : ShedBlock) : ShedBlock :=
  if b.mirror then (shedPartner s b).getD b else b

/-- The word of `shstat` for an allocated block (R310). -/
def shedWord (s : State) (b : ShedBlock) : Nat :=
  let b := primaryOf s b
  let c := shedPartner s b
  -- The mirror serves when the primary's switch has failed (R312).
  let gone := b.lost && (c.map fun c => !c.lost).getD false
  let pplane := if gone then (c.map fun c => c.plane).getD b.plane else b.plane
  let mplane := if c.isSome then (if gone then b.plane else (c.map fun c => c.plane).getD 0) else 0
  let degr := c.isSome && (b.lost || (c.map fun c => c.lost).getD false)
  let t := tenantOf s s.hart.pasid
  quotaOf s pplane t * 2 ^ 48 + heldOf s pplane t * 2 ^ 32 + mplane * 2 ^ 12 + pplane * 2 ^ 8 +
  (if shedOver s b then 16 else 0) + (if shedLost s b then 8 else 0) + (if degr then 4 else 0) + (if c.isSome then 2 else 0) + 1

/-- `shstat` (R310). -/
def memShstat (f : OpDS) : Member :=
  { check := fun _ => none, whole := true,
    run := fun s =>
      let va := srcX s f.a
      match blockAt s va, arenaPlace s va with
      | some (some b), _ => writeX s f.d (W (shedWord s b))
      | _, some (p, _) =>
        let t := tenantOf s s.hart.pasid
        writeX s f.d (W (quotaOf s p t * 2 ^ 48 + heldOf s p t * 2 ^ 32 + p * 2 ^ 8))
      | _, none => raise s s.hart.cur.vstart ⟨.tfault, va⟩ }

/-! ### The fabric manager (R311, R314) -/

/-- Mark the excess blocks of a tenant on a switch, the most recent allocations first (R311): the blocks are kept in the order of their allocation. -/
def markExcess (s : State) (plane tenant : Nat) : State :=
  let q := quotaOf s plane tenant
  let r := s.sheds.blocks.foldl (fun (a : List ShedBlock × Nat) b =>
    if holdsBlock s plane tenant b then (a.1 ++ [{ b with overQ := b.overQ || decide (q ≤ a.2) }], a.2 + 1) else (a.1 ++ [b], a.2)) ([], 0)
  { s with sheds := { s.sheds with blocks := r.1 } }

/-- A raised quota removes marks from the oldest allocation onwards, as far as it allows (R311). -/
def unmark (s : State) (plane tenant : Nat) : State :=
  let mine (b : ShedBlock) : Bool := holdsBlock s plane tenant b
  let r := s.sheds.blocks.foldl (fun (a : List ShedBlock × Nat) b =>
    if mine b && b.overQ && decide (a.2 < quotaOf s plane tenant) then (a.1 ++ [{ b with overQ := false }], a.2 + 1) else (a.1 ++ [b], a.2))
    ([], s.sheds.blocks.countP fun b => mine b && !b.overQ)
  { s with sheds := { s.sheds with blocks := r.1 } }

/-- The fabric manager changes a quota (R311): what the switch has been sent before is performed before. DESIGN CHOICE: log entry 101. -/
def execQuotaChange (plane : BitVec 4) (tenant quota : Nat) (s : State) : Out :=
  let p := plane.toNat
  let s := eachHart s (drainWhere fun k => isShedKey k && (k - 0x00C0000000000000) / 2 ^ 37 == p)
  let old := quotaOf s p tenant
  let qs := (p, tenant, min quota 49152) :: s.sheds.quotas.filter fun q => !(q.1 == p && q.2.1 == tenant)
  let t := { s with sheds := { s.sheds with quotas := qs } }
  .next (if old < min quota 49152 then unmark t p tenant else markExcess t p tenant)

/-- The address in the arena of the focused hart's launch at which a shed key lies (R306). -/
def arenaVa (s : State) (k : Nat) : Word :=
  let plane := (k - 0x00C0000000000000) / 2 ^ 37
  let o := (k - 0x00C0000000000000) % 2 ^ 37
  let n := ((s.sheds.extents.filter fun e => e.1 == plane && e.2.2 == s.hart.gangid).findIdx? fun e => e.2.1 == o / 2 ^ 30).getD 0
  (arenaOf s).1 + W (plane * 2 ^ 37 + n * 2 ^ 30 + o % 2 ^ 30)

/-- A queued store cannot be performed: its block is lost (R314). -/
def lostStore (s : State) (st : PStore) : Bool :=
  isShedKey st.key &&
    ((shedBlock s ((st.key - 0x00C0000000000000) / 2 ^ 37) ((st.key - 0x00C0000000000000) % 2 ^ 37 / 2 ^ 21)).map (shedLost s)).getD false

/-- The trap of a hart whose stores in flight to a lost block have been dropped (R314). DESIGN CHOICE: log entry 101. -/
def takeLost (s : State) (va : Word) : State := takeStop s .sequencer ⟨.shedLost, va⟩ s.hart.pc s.hart.pc 0 s.hart.vstart 0 0

/-- The hart's stores that were in flight to a lost block are dropped, and the hart traps SHED_LOST at the first of them; one that is stopped traps when
it is restored (R314). DESIGN CHOICE: log entry 101. -/
def dropLost (s : State) : State :=
  match s.hart.storeQ.find? (lostStore s) with
  | none => s
  | some st =>
    let t := { s with hart := { s.hart with storeQ := s.hart.storeQ.filter fun q => !lostStore s q } }
    if t.hart.run = .running then takeLost t (arenaVa s st.key)
    else if t.hart.run = .stopped then { t with hart := { t.hart with lostAt := some (t.hart.lostAt.getD (arenaVa s st.key)) } }
    else t

/-- The fabric manager declares a switch failed: its blocks are lost with the stores in flight to them, and pairs with a surviving half fail over
(R312, R314). -/
def execSwitchFailure (plane : BitVec 4) (s : State) : Out :=
  let p := plane.toNat
  let blocks := s.sheds.blocks.map fun b => if b.plane = p then { b with lost := true } else b
  .next (eachHart { logError s 0x09 7 p 0 0 0 with sheds := { s.sheds with failed := insertN p s.sheds.failed, blocks := blocks } } dropLost)

/-- A switch returns to service with no allocation and zeroed memory; a lost block stays lost until it is freed (R314). -/
def execSwitchReturn (plane : BitVec 4) (s : State) : Out :=
  let p := plane.toNat
  if s.sheds.failed.contains p then
    let k := shedKey p 0
    .next { s with
      sheds := { s.sheds with failed := removeN p s.sheds.failed },
      mem := Memory.clear s.mem k (2 ^ 37),
      poison := s.poison.filter fun g => !(decide (k / 64 ≤ g) && decide (g < k / 64 + 2 ^ 31)) }
  else .next s

noncomputable section

/-- `shalloc` as a convoy of its own (R19, R20). -/
def execShalloc (f : OpDS) (s : State) : Out := solo (.shalloc f) (memShalloc f) s

/-- `shallocM` as a convoy of its own (R19, R20). -/
def execShallocM (f : OpDS) (s : State) : Out := solo (.shallocM f) (memShallocM f) s

/-- `shfree` as a convoy of its own (R19, R20). -/
def execShfree (f : OpDS) (s : State) : Out := solo (.shfree f) (memShfree f) s

/-- `shstat` as a convoy of its own (R19, R20). -/
def execShstat (f : OpDS) (s : State) : Out := solo (.shstat f) (memShstat f) s

end

end Sys2Proof.Machine
end

