-- ==== Sys2Proof/Machine/VecOps.lean ====
section
/-! DEFINITION. The instructions of majors 0x20 to 0x29 (R124 to R142): each as a convoy member, and its meaning as a convoy of its own. -/

namespace Sys2Proof.Machine

noncomputable section

/-- `vadd` (R124): integer EW. -/
def memVadd (f : OpV) : Member := memVV f ewInt iAdd

/-- `vadd` as a convoy of its own (R19, R20). -/
def execVadd (f : OpV) (s : State) : Out := solo (.vadd f) (memVadd f) s

/-- `vsub` (R124): integer EW. -/
def memVsub (f : OpV) : Member := memVV f ewInt iSub

/-- `vsub` as a convoy of its own (R19, R20). -/
def execVsub (f : OpV) (s : State) : Out := solo (.vsub f) (memVsub f) s

/-- `vmul` (R124): integer EW. -/
def memVmul (f : OpV) : Member := memVV f ewInt iMul

/-- `vmul` as a convoy of its own (R19, R20). -/
def execVmul (f : OpV) (s : State) : Out := solo (.vmul f) (memVmul f) s

/-- `vmulh` (R124): integer EW. -/
def memVmulh (f : OpV) : Member := memVV f ewInt iMulh

/-- `vmulh` as a convoy of its own (R19, R20). -/
def execVmulh (f : OpV) (s : State) : Out := solo (.vmulh f) (memVmulh f) s

/-- `vmulhn` (R124): integer EW. -/
def memVmulhn (f : OpV) : Member := memVV f ewInt iMulhn

/-- `vmulhn` as a convoy of its own (R19, R20). -/
def execVmulhn (f : OpV) (s : State) : Out := solo (.vmulhn f) (memVmulhn f) s

/-- `vand` (R124). -/
def memVand (f : OpV) : Member := memVV f ewInt iAnd

/-- `vand` as a convoy of its own (R19, R20). -/
def execVand (f : OpV) (s : State) : Out := solo (.vand f) (memVand f) s

/-- `vor` (R124). -/
def memVor (f : OpV) : Member := memVV f ewInt iOr

/-- `vor` as a convoy of its own (R19, R20). -/
def execVor (f : OpV) (s : State) : Out := solo (.vor f) (memVor f) s

/-- `vxor` (R124). -/
def memVxor (f : OpV) : Member := memVV f ewInt iXor

/-- `vxor` as a convoy of its own (R19, R20). -/
def execVxor (f : OpV) (s : State) : Out := solo (.vxor f) (memVxor f) s

/-- `vsll` (R124): integer EW. -/
def memVsll (f : OpV) : Member := memVV f ewInt iSll

/-- `vsll` as a convoy of its own (R19, R20). -/
def execVsll (f : OpV) (s : State) : Out := solo (.vsll f) (memVsll f) s

/-- `vsrl` (R124): integer EW. -/
def memVsrl (f : OpV) : Member := memVV f ewInt iSrl

/-- `vsrl` as a convoy of its own (R19, R20). -/
def execVsrl (f : OpV) (s : State) : Out := solo (.vsrl f) (memVsrl f) s

/-- `vsra` (R124): integer EW. -/
def memVsra (f : OpV) : Member := memVV f ewInt iSra

/-- `vsra` as a convoy of its own (R19, R20). -/
def execVsra (f : OpV) (s : State) : Out := solo (.vsra f) (memVsra f) s

/-- `vmin` (R124): integer EW. -/
def memVmin (f : OpV) : Member := memVV f ewInt iMin

/-- `vmin` as a convoy of its own (R19, R20). -/
def execVmin (f : OpV) (s : State) : Out := solo (.vmin f) (memVmin f) s

/-- `vmax` (R124): integer EW. -/
def memVmax (f : OpV) : Member := memVV f ewInt iMax

/-- `vmax` as a convoy of its own (R19, R20). -/
def execVmax (f : OpV) (s : State) : Out := solo (.vmax f) (memVmax f) s

/-- `vminn` (R124): integer EW. -/
def memVminn (f : OpV) : Member := memVV f ewInt iMinn

/-- `vminn` as a convoy of its own (R19, R20). -/
def execVminn (f : OpV) (s : State) : Out := solo (.vminn f) (memVminn f) s

/-- `vmaxn` (R124): integer EW. -/
def memVmaxn (f : OpV) : Member := memVV f ewInt iMaxn

/-- `vmaxn` as a convoy of its own (R19, R20). -/
def execVmaxn (f : OpV) (s : State) : Out := solo (.vmaxn f) (memVmaxn f) s

/-- `vsel` (R125). -/
def memVsel (f : OpV) : Member := selMember f

/-- `vsel` as a convoy of its own (R19, R20). -/
def execVsel (f : OpV) (s : State) : Out := solo (.vsel f) (memVsel f) s

/-- `vfadd` (R126). -/
def memVfadd (f : OpV) : Member := memF2 f fAdd

/-- `vfadd` as a convoy of its own (R19, R20). -/
def execVfadd (f : OpV) (s : State) : Out := solo (.vfadd f) (memVfadd f) s

/-- `vfsub` (R126). -/
def memVfsub (f : OpV) : Member := memF2 f fSub

/-- `vfsub` as a convoy of its own (R19, R20). -/
def execVfsub (f : OpV) (s : State) : Out := solo (.vfsub f) (memVfsub f) s

/-- `vfmul` (R126). -/
def memVfmul (f : OpV) : Member := memF2 f fMul

/-- `vfmul` as a convoy of its own (R19, R20). -/
def execVfmul (f : OpV) (s : State) : Out := solo (.vfmul f) (memVfmul f) s

/-- `vfdiv` (R126). -/
def memVfdiv (f : OpV) : Member := memF2 f fDiv

/-- `vfdiv` as a convoy of its own (R19, R20). -/
def execVfdiv (f : OpV) (s : State) : Out := solo (.vfdiv f) (memVfdiv f) s

/-- `vfmin` (R126). -/
def memVfmin (f : OpV) : Member := memVV f ewFp fMin

/-- `vfmin` as a convoy of its own (R19, R20). -/
def execVfmin (f : OpV) (s : State) : Out := solo (.vfmin f) (memVfmin f) s

/-- `vfmax` (R126). -/
def memVfmax (f : OpV) : Member := memVV f ewFp fMax

/-- `vfmax` as a convoy of its own (R19, R20). -/
def execVfmax (f : OpV) (s : State) : Out := solo (.vfmax f) (memVfmax f) s

/-- `vfsqrt` (R126). -/
def memVfsqrt (f : OpV) : Member := memSqrt f

/-- `vfsqrt` as a convoy of its own (R19, R20). -/
def execVfsqrt (f : OpV) (s : State) : Out := solo (.vfsqrt f) (memVfsqrt f) s

/-- `vfabs` (R126, R127). -/
def memVfabs (f : OpV) : Member := memV1 f ewFp fAbs

/-- `vfabs` as a convoy of its own (R19, R20). -/
def execVfabs (f : OpV) (s : State) : Out := solo (.vfabs f) (memVfabs f) s

/-- `vfneg` (R126, R127). -/
def memVfneg (f : OpV) : Member := memV1 f ewFp fNeg

/-- `vfneg` as a convoy of its own (R19, R20). -/
def execVfneg (f : OpV) (s : State) : Out := solo (.vfneg f) (memVfneg f) s

/-- `vfclass` (R126, R127). -/
def memVfclass (f : OpV) : Member := memV1 f ewFp fClass

/-- `vfclass` as a convoy of its own (R19, R20). -/
def execVfclass (f : OpV) (s : State) : Out := solo (.vfclass f) (memVfclass f) s

/-- `vfsgnj` (R126). -/
def memVfsgnj (f : OpV) : Member := memVV f ewFp fSgnj

/-- `vfsgnj` as a convoy of its own (R19, R20). -/
def execVfsgnj (f : OpV) (s : State) : Out := solo (.vfsgnj f) (memVfsgnj f) s

/-- `vfma` (R128). -/
def memVfma (f : OpV) : Member := memFma f false false

/-- `vfma` as a convoy of its own (R19, R20). -/
def execVfma (f : OpV) (s : State) : Out := solo (.vfma f) (memVfma f) s

/-- `vfms` (R128). -/
def memVfms (f : OpV) : Member := memFma f false true

/-- `vfms` as a convoy of its own (R19, R20). -/
def execVfms (f : OpV) (s : State) : Out := solo (.vfms f) (memVfms f) s

/-- `vfnma` (R128). -/
def memVfnma (f : OpV) : Member := memFma f true false

/-- `vfnma` as a convoy of its own (R19, R20). -/
def execVfnma (f : OpV) (s : State) : Out := solo (.vfnma f) (memVfnma f) s

/-- `vfnms` (R128). -/
def memVfnms (f : OpV) : Member := memFma f true true

/-- `vfnms` as a convoy of its own (R19, R20). -/
def execVfnms (f : OpV) (s : State) : Out := solo (.vfnms f) (memVfnms f) s

/-- `vfaerr` (R129). -/
def memVfaerr (f : OpV) : Member := memVV f ewFp fAerr

/-- `vfaerr` as a convoy of its own (R19, R20). -/
def execVfaerr (f : OpV) (s : State) : Out := solo (.vfaerr f) (memVfaerr f) s

/-- `vfmerr` (R129). -/
def memVfmerr (f : OpV) : Member := memVV f ewFp fMerr

/-- `vfmerr` as a convoy of its own (R19, R20). -/
def execVfmerr (f : OpV) (s : State) : Out := solo (.vfmerr f) (memVfmerr f) s

/-- `vfrecip.est` (R130). -/
def memVfrecipEst (f : OpV) : Member := memV1 f ewFp fRecip

/-- `vfrecipEst` as a convoy of its own (R19, R20). -/
def execVfrecipEst (f : OpV) (s : State) : Out := solo (.vfrecipEst f) (memVfrecipEst f) s

/-- `vfrsqrt.est` (R131). -/
def memVfrsqrtEst (f : OpV) : Member := memV1 f ewFp fRsqrt

/-- `vfrsqrtEst` as a convoy of its own (R19, R20). -/
def execVfrsqrtEst (f : OpV) (s : State) : Out := solo (.vfrsqrtEst f) (memVfrsqrtEst f) s

/-- `vceq` (R132). -/
def memVceq (f : OpV) : Member := memCmp f ewInt cEq

/-- `vceq` as a convoy of its own (R19, R20). -/
def execVceq (f : OpV) (s : State) : Out := solo (.vceq f) (memVceq f) s

/-- `vclt` (R132). -/
def memVclt (f : OpV) : Member := memCmp f ewInt cLt

/-- `vclt` as a convoy of its own (R19, R20). -/
def execVclt (f : OpV) (s : State) : Out := solo (.vclt f) (memVclt f) s

/-- `vcle` (R132). -/
def memVcle (f : OpV) : Member := memCmp f ewInt cLe

/-- `vcle` as a convoy of its own (R19, R20). -/
def execVcle (f : OpV) (s : State) : Out := solo (.vcle f) (memVcle f) s

/-- `vcltn` (R132). -/
def memVcltn (f : OpV) : Member := memCmp f ewInt cLtn

/-- `vcltn` as a convoy of its own (R19, R20). -/
def execVcltn (f : OpV) (s : State) : Out := solo (.vcltn f) (memVcltn f) s

/-- `vclen` (R132). -/
def memVclen (f : OpV) : Member := memCmp f ewInt cLen

/-- `vclen` as a convoy of its own (R19, R20). -/
def execVclen (f : OpV) (s : State) : Out := solo (.vclen f) (memVclen f) s

/-- `vfceq` (R132). -/
def memVfceq (f : OpV) : Member := memCmp f ewFp cFeq

/-- `vfceq` as a convoy of its own (R19, R20). -/
def execVfceq (f : OpV) (s : State) : Out := solo (.vfceq f) (memVfceq f) s

/-- `vfclt` (R132). -/
def memVfclt (f : OpV) : Member := memCmp f ewFp cFlt

/-- `vfclt` as a convoy of its own (R19, R20). -/
def execVfclt (f : OpV) (s : State) : Out := solo (.vfclt f) (memVfclt f) s

/-- `vfcle` (R132). -/
def memVfcle (f : OpV) : Member := memCmp f ewFp cFle

/-- `vfcle` as a convoy of its own (R19, R20). -/
def execVfcle (f : OpV) (s : State) : Out := solo (.vfcle f) (memVfcle f) s

/-- `vcvt` (R133 to R136). -/
def memVcvt (f : OpCv) : Member := memCvt f

/-- `vcvt` as a convoy of its own (R19, R20). -/
def execVcvt (f : OpCv) (s : State) : Out := solo (.vcvt f) (memVcvt f) s

/-- `vperm` (R137, R138). -/
def memVperm (f : OpV) : Member := memPermute f ewInt [f.va.toNat, f.vb.toNat] (pkPerm f)

/-- `vperm` as a convoy of its own (R19, R20). -/
def execVperm (f : OpV) (s : State) : Out := solo (.vperm f) (memVperm f) s

/-- `vslideup` (R137, R138). -/
def memVslideup (f : OpV) : Member := memPermute f ewAny [f.va.toNat] (pkUp f)

/-- `vslideup` as a convoy of its own (R19, R20). -/
def execVslideup (f : OpV) (s : State) : Out := solo (.vslideup f) (memVslideup f) s

/-- `vslidedown` (R137, R138). -/
def memVslidedown (f : OpV) : Member := memPermute f ewAny [f.va.toNat] (pkDown f)

/-- `vslidedown` as a convoy of its own (R19, R20). -/
def execVslidedown (f : OpV) (s : State) : Out := solo (.vslidedown f) (memVslidedown f) s

/-- `vcompress` (R138). -/
def memVcompress (f : OpV) : Member := memCompress f

/-- `vcompress` as a convoy of its own (R19, R20). -/
def execVcompress (f : OpV) (s : State) : Out := solo (.vcompress f) (memVcompress f) s

/-- `vexpand` (R137, R138). -/
def memVexpand (f : OpV) : Member := memPermute f ewInt [f.va.toNat] (pkExpand f)

/-- `vexpand` as a convoy of its own (R19, R20). -/
def execVexpand (f : OpV) (s : State) : Out := solo (.vexpand f) (memVexpand f) s

/-- `vmv` (R137, R138). -/
def memVmv (f : OpV) : Member := memPermute f ewAny [f.va.toNat] (pkMv f)

/-- `vmv` as a convoy of its own (R19, R20). -/
def execVmv (f : OpV) (s : State) : Out := solo (.vmv f) (memVmv f) s

/-- `vzip` (R137, R138). -/
def memVzip (f : OpV) : Member := memPermute f ewAny [f.va.toNat, f.vb.toNat] (pkZip f)

/-- `vzip` as a convoy of its own (R19, R20). -/
def execVzip (f : OpV) (s : State) : Out := solo (.vzip f) (memVzip f) s

/-- `vunzip` (R137, R138). -/
def memVunzip (f : OpV) : Member := memPermute f ewAny [f.va.toNat, f.vb.toNat] (pkUnzip f)

/-- `vunzip` as a convoy of its own (R19, R20). -/
def execVunzip (f : OpV) (s : State) : Out := solo (.vunzip f) (memVunzip f) s

/-- `vfold.add` (R140). -/
def memVfoldAdd (f : OpV) : Member := memFold f ewInt sx64 (fun _ _ a b => (a + b) % 2 ^ 64) (fun _ => 0) (fun _ r => r)

/-- `vfoldAdd` as a convoy of its own (R19, R20). -/
def execVfoldAdd (f : OpV) (s : State) : Out := solo (.vfoldAdd f) (memVfoldAdd f) s

/-- `vfold.min` (R140). -/
def memVfoldMin (f : OpV) : Member := memFold f ewInt (fun _ a => a) (fun _ w a b => iMin w a b) (fun w => sx64 w (2 ^ (w - 1) - 1)) sx64

/-- `vfoldMin` as a convoy of its own (R19, R20). -/
def execVfoldMin (f : OpV) (s : State) : Out := solo (.vfoldMin f) (memVfoldMin f) s

/-- `vfold.max` (R140). -/
def memVfoldMax (f : OpV) : Member := memFold f ewInt (fun _ a => a) (fun _ w a b => iMax w a b) (fun w => sx64 w (2 ^ (w - 1))) sx64

/-- `vfoldMax` as a convoy of its own (R19, R20). -/
def execVfoldMax (f : OpV) (s : State) : Out := solo (.vfoldMax f) (memVfoldMax f) s

/-- `vfold.minn` (R140). -/
def memVfoldMinn (f : OpV) : Member := memFold f ewInt (fun _ a => a) (fun _ w a b => iMinn w a b) (fun w => 2 ^ w - 1) (fun _ r => r)

/-- `vfoldMinn` as a convoy of its own (R19, R20). -/
def execVfoldMinn (f : OpV) (s : State) : Out := solo (.vfoldMinn f) (memVfoldMinn f) s

/-- `vfold.maxn` (R140). -/
def memVfoldMaxn (f : OpV) : Member := memFold f ewInt (fun _ a => a) (fun _ w a b => iMaxn w a b) (fun _ => 0) (fun _ r => r)

/-- `vfoldMaxn` as a convoy of its own (R19, R20). -/
def execVfoldMaxn (f : OpV) (s : State) : Out := solo (.vfoldMaxn f) (memVfoldMaxn f) s

/-- `vfold.fadd` (R140). -/
def memVfoldFadd (f : OpV) : Member := memFold f ewFp (fun _ a => a) fAdd (fun _ => 0) canonNan

/-- `vfoldFadd` as a convoy of its own (R19, R20). -/
def execVfoldFadd (f : OpV) (s : State) : Out := solo (.vfoldFadd f) (memVfoldFadd f) s

/-- `vfold.fmin` (R140). -/
def memVfoldFmin (f : OpV) : Member := memFold f ewFp (fun _ a => a) (fun _ w a b => fMin w a b) (fun w => (vfmt w).inf false) canonNan

/-- `vfoldFmin` as a convoy of its own (R19, R20). -/
def execVfoldFmin (f : OpV) (s : State) : Out := solo (.vfoldFmin f) (memVfoldFmin f) s

/-- `vfold.fmax` (R140). -/
def memVfoldFmax (f : OpV) : Member := memFold f ewFp (fun _ a => a) (fun _ w a b => fMax w a b) (fun w => (vfmt w).inf true) canonNan

/-- `vfoldFmax` as a convoy of its own (R19, R20). -/
def execVfoldFmax (f : OpV) (s : State) : Out := solo (.vfoldFmax f) (memVfoldFmax f) s

/-- `pand` (R141). -/
def memPand (f : OpV) : Member := memPred2 f (fun a b => a && b)

/-- `pand` as a convoy of its own (R19, R20). -/
def execPand (f : OpV) (s : State) : Out := solo (.pand f) (memPand f) s

/-- `por` (R141). -/
def memPor (f : OpV) : Member := memPred2 f (fun a b => a || b)

/-- `por` as a convoy of its own (R19, R20). -/
def execPor (f : OpV) (s : State) : Out := solo (.por f) (memPor f) s

/-- `pxor` (R141). -/
def memPxor (f : OpV) : Member := memPred2 f (fun a b => a != b)

/-- `pxor` as a convoy of its own (R19, R20). -/
def execPxor (f : OpV) (s : State) : Out := solo (.pxor f) (memPxor f) s

/-- `pandn` (R141). -/
def memPandn (f : OpV) : Member := memPred2 f (fun a b => a && !b)

/-- `pandn` as a convoy of its own (R19, R20). -/
def execPandn (f : OpV) (s : State) : Out := solo (.pandn f) (memPandn f) s

/-- `plt` (R141). -/
def memPlt (f : OpV) : Member := pltMember f

/-- `plt` as a convoy of its own (R19, R20). -/
def execPlt (f : OpV) (s : State) : Out := solo (.plt f) (memPlt f) s

/-- `pgetsm` (R141). -/
def memPgetsm (f : OpV) : Member := getsmMember f

/-- `pgetsm` as a convoy of its own (R19, R20). -/
def execPgetsm (f : OpV) (s : State) : Out := solo (.pgetsm f) (memPgetsm f) s

/-- `pcount` (R141). -/
def memPcount (f : OpV) : Member := countMember f

/-- `pcount` as a convoy of its own (R19, R20). -/
def execPcount (f : OpV) (s : State) : Out := solo (.pcount f) (memPcount f) s

/-- `pfirst` (R141). -/
def memPfirst (f : OpV) : Member := firstMember f

/-- `pfirst` as a convoy of its own (R19, R20). -/
def execPfirst (f : OpV) (s : State) : Out := solo (.pfirst f) (memPfirst f) s

/-- `vadd.vx` (R142). -/
def memVaddVx (f : OpVS) : Member := memVX f ewInt iAdd

/-- `vaddVx` as a convoy of its own (R19, R20). -/
def execVaddVx (f : OpVS) (s : State) : Out := solo (.vaddVx f) (memVaddVx f) s

/-- `vsub.vx` (R142). -/
def memVsubVx (f : OpVS) : Member := memVX f ewInt iSub

/-- `vsubVx` as a convoy of its own (R19, R20). -/
def execVsubVx (f : OpVS) (s : State) : Out := solo (.vsubVx f) (memVsubVx f) s

/-- `vrsub.vx` (R142). -/
def memVrsubVx (f : OpVS) : Member := memVX f ewInt iRsub

/-- `vrsubVx` as a convoy of its own (R19, R20). -/
def execVrsubVx (f : OpVS) (s : State) : Out := solo (.vrsubVx f) (memVrsubVx f) s

/-- `vmul.vx` (R142). -/
def memVmulVx (f : OpVS) : Member := memVX f ewInt iMul

/-- `vmulVx` as a convoy of its own (R19, R20). -/
def execVmulVx (f : OpVS) (s : State) : Out := solo (.vmulVx f) (memVmulVx f) s

/-- `vand.vx` (R142). -/
def memVandVx (f : OpVS) : Member := memVX f ewInt iAnd

/-- `vandVx` as a convoy of its own (R19, R20). -/
def execVandVx (f : OpVS) (s : State) : Out := solo (.vandVx f) (memVandVx f) s

/-- `vor.vx` (R142). -/
def memVorVx (f : OpVS) : Member := memVX f ewInt iOr

/-- `vorVx` as a convoy of its own (R19, R20). -/
def execVorVx (f : OpVS) (s : State) : Out := solo (.vorVx f) (memVorVx f) s

/-- `vxor.vx` (R142). -/
def memVxorVx (f : OpVS) : Member := memVX f ewInt iXor

/-- `vxorVx` as a convoy of its own (R19, R20). -/
def execVxorVx (f : OpVS) (s : State) : Out := solo (.vxorVx f) (memVxorVx f) s

/-- `vsll.vx` (R142). -/
def memVsllVx (f : OpVS) : Member := memVX f ewInt iSll

/-- `vsllVx` as a convoy of its own (R19, R20). -/
def execVsllVx (f : OpVS) (s : State) : Out := solo (.vsllVx f) (memVsllVx f) s

/-- `vsrl.vx` (R142). -/
def memVsrlVx (f : OpVS) : Member := memVX f ewInt iSrl

/-- `vsrlVx` as a convoy of its own (R19, R20). -/
def execVsrlVx (f : OpVS) (s : State) : Out := solo (.vsrlVx f) (memVsrlVx f) s

/-- `vsra.vx` (R142). -/
def memVsraVx (f : OpVS) : Member := memVX f ewInt iSra

/-- `vsraVx` as a convoy of its own (R19, R20). -/
def execVsraVx (f : OpVS) (s : State) : Out := solo (.vsraVx f) (memVsraVx f) s

/-- `vmin.vx` (R142). -/
def memVminVx (f : OpVS) : Member := memVX f ewInt iMin

/-- `vminVx` as a convoy of its own (R19, R20). -/
def execVminVx (f : OpVS) (s : State) : Out := solo (.vminVx f) (memVminVx f) s

/-- `vmax.vx` (R142). -/
def memVmaxVx (f : OpVS) : Member := memVX f ewInt iMax

/-- `vmaxVx` as a convoy of its own (R19, R20). -/
def execVmaxVx (f : OpVS) (s : State) : Out := solo (.vmaxVx f) (memVmaxVx f) s

/-- `vfadd.vx` (R142). -/
def memVfaddVx (f : OpVS) : Member := memFX f fAdd

/-- `vfaddVx` as a convoy of its own (R19, R20). -/
def execVfaddVx (f : OpVS) (s : State) : Out := solo (.vfaddVx f) (memVfaddVx f) s

/-- `vfmul.vx` (R142). -/
def memVfmulVx (f : OpVS) : Member := memFX f fMul

/-- `vfmulVx` as a convoy of its own (R19, R20). -/
def execVfmulVx (f : OpVS) (s : State) : Out := solo (.vfmulVx f) (memVfmulVx f) s

/-- `vfma.vx` (R142). -/
def memVfmaVx (f : OpVS) : Member := memFmaX f

/-- `vfmaVx` as a convoy of its own (R19, R20). -/
def execVfmaVx (f : OpVS) (s : State) : Out := solo (.vfmaVx f) (memVfmaVx f) s

/-- `vbcast` (R142). -/
def memVbcast (f : OpVS) : Member := memBcast f

/-- `vbcast` as a convoy of its own (R19, R20). -/
def execVbcast (f : OpVS) (s : State) : Out := solo (.vbcast f) (memVbcast f) s

end

end Sys2Proof.Machine
end

