-- ==== Sys2Proof/Machine/Members.lean ====
section
/-! DEFINITION. The convoy at the program counter: fetching and decoding its members, the conditions of R49, posting, and performing the
convoy at the head of the vector queue (R19, R20, R33, R39, R49). -/

namespace Sys2Proof.Machine

noncomputable section

/-- The member that a vector-class instruction is. -/
def memberOf : Instr → Option Member
  | .vadd f => some (memVadd f)
  | .vsub f => some (memVsub f)
  | .vmul f => some (memVmul f)
  | .vmulh f => some (memVmulh f)
  | .vmulhn f => some (memVmulhn f)
  | .vand f => some (memVand f)
  | .vor f => some (memVor f)
  | .vxor f => some (memVxor f)
  | .vsll f => some (memVsll f)
  | .vsrl f => some (memVsrl f)
  | .vsra f => some (memVsra f)
  | .vmin f => some (memVmin f)
  | .vmax f => some (memVmax f)
  | .vminn f => some (memVminn f)
  | .vmaxn f => some (memVmaxn f)
  | .vsel f => some (memVsel f)
  | .vfadd f => some (memVfadd f)
  | .vfsub f => some (memVfsub f)
  | .vfmul f => some (memVfmul f)
  | .vfdiv f => some (memVfdiv f)
  | .vfmin f => some (memVfmin f)
  | .vfmax f => some (memVfmax f)
  | .vfsqrt f => some (memVfsqrt f)
  | .vfabs f => some (memVfabs f)
  | .vfneg f => some (memVfneg f)
  | .vfclass f => some (memVfclass f)
  | .vfsgnj f => some (memVfsgnj f)
  | .vfma f => some (memVfma f)
  | .vfms f => some (memVfms f)
  | .vfnma f => some (memVfnma f)
  | .vfnms f => some (memVfnms f)
  | .vfaerr f => some (memVfaerr f)
  | .vfmerr f => some (memVfmerr f)
  | .vfrecipEst f => some (memVfrecipEst f)
  | .vfrsqrtEst f => some (memVfrsqrtEst f)
  | .vceq f => some (memVceq f)
  | .vclt f => some (memVclt f)
  | .vcle f => some (memVcle f)
  | .vcltn f => some (memVcltn f)
  | .vclen f => some (memVclen f)
  | .vfceq f => some (memVfceq f)
  | .vfclt f => some (memVfclt f)
  | .vfcle f => some (memVfcle f)
  | .vcvt f => some (memVcvt f)
  | .vperm f => some (memVperm f)
  | .vslideup f => some (memVslideup f)
  | .vslidedown f => some (memVslidedown f)
  | .vcompress f => some (memVcompress f)
  | .vexpand f => some (memVexpand f)
  | .vmv f => some (memVmv f)
  | .vzip f => some (memVzip f)
  | .vunzip f => some (memVunzip f)
  | .vfoldAdd f => some (memVfoldAdd f)
  | .vfoldMin f => some (memVfoldMin f)
  | .vfoldMax f => some (memVfoldMax f)
  | .vfoldMinn f => some (memVfoldMinn f)
  | .vfoldMaxn f => some (memVfoldMaxn f)
  | .vfoldFadd f => some (memVfoldFadd f)
  | .vfoldFmin f => some (memVfoldFmin f)
  | .vfoldFmax f => some (memVfoldFmax f)
  | .pand f => some (memPand f)
  | .por f => some (memPor f)
  | .pxor f => some (memPxor f)
  | .pandn f => some (memPandn f)
  | .plt f => some (memPlt f)
  | .pgetsm f => some (memPgetsm f)
  | .pcount f => some (memPcount f)
  | .pfirst f => some (memPfirst f)
  | .vaddVx f => some (memVaddVx f)
  | .vsubVx f => some (memVsubVx f)
  | .vrsubVx f => some (memVrsubVx f)
  | .vmulVx f => some (memVmulVx f)
  | .vandVx f => some (memVandVx f)
  | .vorVx f => some (memVorVx f)
  | .vxorVx f => some (memVxorVx f)
  | .vsllVx f => some (memVsllVx f)
  | .vsrlVx f => some (memVsrlVx f)
  | .vsraVx f => some (memVsraVx f)
  | .vminVx f => some (memVminVx f)
  | .vmaxVx f => some (memVmaxVx f)
  | .vfaddVx f => some (memVfaddVx f)
  | .vfmulVx f => some (memVfmulVx f)
  | .vfmaVx f => some (memVfmaVx f)
  | .vbcast f => some (memVbcast f)
  | .vld f => some (memVld f)
  | .vlds f => some (memVlds f)
  | .vldFf f => some (memVldFf f)
  | .vldc f => some (memVldc f)
  | .vfill f => some (memVfill f)
  | .vldXn f => some (memVldXn f)
  | .vldXtn f => some (memVldXtn f)
  | .vldx f => some (memVldx f)
  | .vst f => some (memVst f)
  | .vsts f => some (memVsts f)
  | .vcopy f => some (memVcopy f)
  | .vstc f => some (memVstc f)
  | .vspill f => some (memVspill f)
  | .vstXn f => some (memVstXn f)
  | .vstXtn f => some (memVstXtn f)
  | .vstx f => some (memVstx f)
  | .vamoSwap f => some (memVamoSwap f)
  | .vamoAdd f => some (memVamoAdd f)
  | .vamoAnd f => some (memVamoAnd f)
  | .vamoOr f => some (memVamoOr f)
  | .vamoXor f => some (memVamoXor f)
  | .vamoMin f => some (memVamoMin f)
  | .vamoMax f => some (memVamoMax f)
  | .vamoMinn f => some (memVamoMinn f)
  | .vamoMaxn f => some (memVamoMaxn f)
  | .vamoCas f => some (memVamoCas f)
  | .vamoAddCb f => some (memVamoAddCb f)
  | .vamoAndCb f => some (memVamoAndCb f)
  | .vamoOrCb f => some (memVamoOrCb f)
  | .vamoXorCb f => some (memVamoXorCb f)
  | .vamoMinCb f => some (memVamoMinCb f)
  | .vamoMaxCb f => some (memVamoMaxCb f)
  | .vamoMinnCb f => some (memVamoMinnCb f)
  | .vamoMaxnCb f => some (memVamoMaxnCb f)
  | .vamoFadd f => some (memVamoFadd f)
  | .vamoFmin f => some (memVamoFmin f)
  | .vamoFmax f => some (memVamoFmax f)
  | .vwaitEq f => some (memVwaitEq f)
  | .vwaitNe f => some (memVwaitNe f)
  | .vwaitGe f => some (memVwaitGe f)
  | .vwaitLt f => some (memVwaitLt f)
  | .vwaitGen f => some (memVwaitGen f)
  | .vwaitLtn f => some (memVwaitLtn f)
  | .vamoFaddCb f => some (memVamoFaddCb f)
  | .vamoFminCb f => some (memVamoFminCb f)
  | .vamoFmaxCb f => some (memVamoFmaxCb f)
  | .vfence sc => some (memVfence sc)
  | .awinDecl f => some (memAwinDecl f)
  | .awinUpd f => some (memAwinUpd f)
  | .awinMerge f => some (memAwinMerge f)
  | .pnTake _ c => some (memPnTake c)
  | .pnPost c => some (memPnPost c)
  | .pnPostVl c => some (memPnPostVl c)
  | .supdCms f => some (memSupdCms f)
  | .supdBks f => some (memSupdBks f)
  | .supdQh f => some (memSupdQh f)
  | .supdMom f => some (memSupdMom f)
  | .supdWes f => some (memSupdWes f)
  | .smerge f => some (memSmerge f)
  | .sclr f => some (memSclr f)
  | .sdecl f => some (memSdecl f)
  | .sqCms f => some (memSqCms f)
  | .sqBksEst f => some (memSqBksEst f)
  | .sqBksItems f => some (memSqBksItems f)
  | .sqQnt f => some (memSqQnt f)
  | .sqMomQuery f => some (memSqMomQuery f)
  | .sqWes f => some (memSqWes f)
  | .sst f => some (memSst f)
  | .sld f => some (memSld f)
  | .smergeM f => some (memSmergeM f)
  | .scmt f => some (memScmt f)
  | .dpb f => some (memDpb f)
  | .shalloc f => some (memShalloc f)
  | .shallocM f => some (memShallocM f)
  | .shfree f => some (memShfree f)
  | .shstat f => some (memShstat f)
  | .mopa f => some (memMopa f)
  | .mops f => some (memMops f)
  | .mopi f => some (memMopi f)
  | .mopn f => some (memMopn f)
  | .mopl f => some (memMopl f)
  | .mgrow f => some (memMgrow f)
  | .mrowGet f => some (memMrowGet f)
  | .mrowPut f => some (memMrowPut f)
  | .mcolGet f => some (memMcolGet f)
  | .mcolPut f => some (memMcolPut f)
  | .mld f => some (memMld f)
  | .mst f => some (memMst f)
  | .mzero f => some (memMzero f)
  | _ => none

/-! ### Gathering (R19, R33) -/

/-- One instruction as it was fetched: decoded, with its word and the link bit; bytes that do not decode; or a fetch fault. -/
inductive Got where
  | ok (i : Instr) (linked : Bool) (word len : Nat)
  | bad (word : Nat)
  | fault (t : Trap)
  | stall

/-- Decode fetched bits. A `vfence` with its L bit set is read as one, so that R49 can charge the member after it (log entry 33). -/
def gotOf (v : Nat) : Got :=
  match decodeBits v with
  | .ok i => .ok i i.linked v (i.bits / 8)
  | .error _ =>
    match decodeBits (v - 2 ^ 28) with
    | .ok (.vfence sc) => if bitN v 28 then .ok (.vfence sc) true v 4 else .bad v
    | _ => .bad v

/-- The instruction at an address, or, in spliced code, at its place there (R33, R339). -/
def gotAt (s : State) (va : Word) : State × Got :=
  match s.hart.splice with
  | some sp =>
    match sp.code[spliceIndex va]? with
    | some i =>
      (s, match i.instr with
        | .illegalInstruction enc _ =>
          match gotOf enc.toNat with
          | .ok j linked w _ => .ok j linked w 8
          | g => g
        | j => .ok j j.linked (encode j) 8)
    | none => (s, .fault ⟨.tfault, va⟩)
  | none =>
    match fetchBits s va with
    | (t, .bits v) => (t, gotOf v)
    | (t, .trap tr) => (t, .fault tr)
    | (t, .stall) => (t, .stall)

/-- The members of the convoy at an address, at most `n`, and whether an instruction of another class follows a linked member. A pattern behind a
linked member that is no instruction is charged itself, as the next member. DESIGN CHOICE: log entry 88. -/
def gather (s : State) (va : Word) : Nat → State × List Got × Bool
  | 0 => (s, [], false)
  | n + 1 =>
    match gotAt s va with
    | (t, .ok i linked w len) =>
      if i.cls ≠ .vector then (t, [], true)
      else if linked then
        match gather t (va + W len) n with
        | (u, l, b) => (u, .ok i linked w len :: l, b)
      else (t, [.ok i linked w len], false)
    | (t, x) => (t, [x], false)

/-! ### Conditions at decode (R19, R39, R49) -/

/-- Members that must stand first, with at most a `pn.post` after them (R173, R293, R297, R307); `pn.take` must stand first (R39). -/
def standsFirst : Instr → Bool
  | .vfence _ | .dpb _ | .scmt _ | .shalloc _ | .shallocM _ | .shfree _ | .shstat _ | .pnTake _ _ => true
  | _ => false

/-- The member that may follow a first member, by the first member's own rule. -/
def mayFollow (a b : Instr) : Bool :=
  match a with
  | .vfence _ => false
  | .pnTake _ _ => true
  | _ =>
    match b with
    | .pnPost _ | .pnPostVl _ => true
    | _ => !standsFirst a

/-- The condition of member `j` that has been decoded (R49): arrangement and field conditions, then those of its entry. -/
def memberCondition (d : DCtx) (first : Option Instr) (j : Nat) (i : Instr) (linked next : Bool) : Option Cause :=
  let misplaced := j != 0 && (standsFirst i || (j == 1 && (first.map fun a => !mayFollow a i).getD false))
  if linked && (j == 3 || next) || misplaced then some .illegal
  else
    match memberOf i with
    | some m => m.check d
    | none => some .illegal

/-- The first condition of a gathered convoy: its cause, value and member (R49); `other` says that an instruction of another class
follows the last member. -/
def firstCondition (d : DCtx) (first : Option Instr) (other : Bool) : Nat → List Got → Option (Trap × Nat)
  | _, [] => none
  | j, .ok i linked w _ :: l =>
    match memberCondition d first j i linked (l.isEmpty && other) with
    | some c => some (⟨c, W w⟩, j)
    | none => firstCondition d first other (j + 1) l
  | j, .bad w :: _ => some (⟨.illegal, W w⟩, j)
  | j, .fault t :: _ => some (t, j)
  | _, .stall :: _ => none

/-- The decoded members of a gathered convoy. -/
def gotInstrs (l : List Got) : List Instr :=
  l.filterMap fun g => match g with
    | .ok i _ _ _ => some i
    | _ => none

/-- The bytes of a gathered convoy. -/
def gotBytes (l : List Got) : Nat :=
  (l.map fun g => match g with
    | .ok _ _ _ n => n
    | _ => 0).sum

/-- Some member waits for a page in migration. -/
def gotStall (l : List Got) : Bool :=
  l.any fun g => match g with
    | .stall => true
    | _ => false

/-! ### Posting and performing -/

/-- Perform the convoy at the head of the vector queue, in its role (R53, R338). -/
def headTurn (s : State) : State :=
  match s.hart.vq with
  | c :: _ => runConvoy (c.members.filterMap memberOf) (roleFor s c.addr)
  | [] => s

/-- A precise trap of a member of a convoy at the program counter (R49). -/
def memberTrap (s : State) (t : Trap) (member : Nat) : State :=
  takeStop s .sequencer t s.hart.pc s.hart.pc member s.hart.vstart 0 0

/-- The sequencer decodes the whole convoy at the program counter and posts it (R19, R20, R49); the convoy is performed at once when
nothing is queued before it. -/
def execConvoyPost (s : State) : Out :=
  if s.hart.run ≠ .running then .next s
  else
    match gather s s.hart.pc 4 with
    | (t, l, other) =>
      let is := gotInstrs l
      match firstCondition (dctx s) is.head? other 0 l with
      | some (tr, j) => .next (memberTrap s tr j)
      | none =>
        if gotStall l then .next (wait s .migration)
        else if is.isEmpty then .next s
        else
          match postWait s is with
          | some why => .next (wait s why)
          | none =>
            let u := postConvoy t is (gotBytes l)
            .next (if s.hart.vq.isEmpty then headTurn u else u)

/-- A pattern that is not an instruction (R47): ILLEGAL, precise, with the encoding. -/
def execIllegalInstruction (enc : Word) (member : BitVec 2) (s : State) : Out :=
  if s.hart.run ≠ .running then .next s else .next (memberTrap s ⟨.illegal, enc⟩ member.toNat)

/-- The vector registers that a member names under a decode context (R251). -/
def namesOf (d : DCtx) (m : Member) : List Nat :=
  m.srcs ++ m.dsts ++ m.groups ++ (m.sized d).flatMap fun g => (List.range g.2).map (g.1 + ·)

end

end Sys2Proof.Machine
end

