-- ==== Sys2Proof/Machine/Streams.lean ====
section
/-! DEFINITION. The access queue: posting and retiring entries, stream records, delivery and out-streams, bindings (R246 to R259). -/

namespace Sys2Proof.Machine

/-- What a try to move an entry gives: a new state, nothing for now, or a condition. -/
inductive Try where
  | go (s : State)
  | blocked
  | trap (t : Trap)

/-! ### Entries (R39, R246, R247) -/

/-- The fields of an access-class instruction. -/
def acOf : Instr → Option OpAC
  | .astOpen f | .astClose f | .astRun f | .arBind f | .arUnbind f | .acol f | .asend f | .arecv f | .aflip f => some f
  | _ => none

/-- A scalar source of an entry, as it stood at posting (R121, R247). -/
def entryX (e : AqEntry) (n : BitVec 5) : Word := if n = 0 then 0 else e.xs[n.toNat]

/-- The channel that an entry takes from (R39). -/
def takeOf (e : AqEntry) : Option Nat :=
  match acOf e.instr with
  | some f => if f.tk = 1 then some 1 else if f.tk = 2 then some 3 else none
  | none => none

/-- The channel that an entry posts to (R39). -/
def postOf (e : AqEntry) : Option Nat :=
  match acOf e.instr with
  | some f => if f.po = 1 then some 4 else if f.po = 2 then some 5 else none
  | none => none

/-- Replace an entry of the queue. -/
def setEntry (s : State) (i : Nat) (e : AqEntry) : State := { s with hart := { s.hart with aq := s.hart.aq.set i e } }

/-- The work of an entry is done. -/
def finish (s : State) (i : Nat) (e : AqEntry) (result : Word) (payload : Nat) (durable : Bool) : Try :=
  .go (setEntry s i { e with progress := .done result (BitVec.ofNat 32 payload) durable })

/-- `n` bytes as a plain load of the access queue, at an alignment; poison traps with the address (R247). None when a page is in
migration. -/
def aqRead (s : State) (va : Word) (n align : Nat) : State × Except (Option Trap) Nat :=
  if va.toNat % align ≠ 0 then (s, .error (some ⟨.misalign, va⟩))
  else
    match hartSpan s va n .load with
    | (t, .ok l) =>
      if l.any fun p => memPois t p.1.key p.2 then
        (t, .error (some ⟨.poison, va⟩))
      else (t, .ok (spanReadMem t l))
    | (t, .trap tr) => (t, .error (some tr))
    | (t, .stall) => (t, .error none)

/-- Go on with what a read gave. -/
def onRead {α : Type} (r : State × Except (Option Trap) α) (g : State → α → Try) : Try :=
  match r with
  | (t, .ok v) => g t v
  | (_, .error (some tr)) => .trap tr
  | (_, .error none) => .blocked

/-! ### Retirement (R247, R256, R258, R291) -/

/-- Loft stores of the hart's access queue of epoch n or below that are not yet durable (R291). -/
def accessUndurable (s : State) (n : Nat) : Bool :=
  s.loftPend.any fun l => owns s s.hart l.gang l.hart && l.queue == .access && decide (l.epoch ≤ n)

/-- The head entry retires: it writes its scalar and posts its pennant; a full channel stalls it (R27, R39, R247). -/
def retireEntry (s : State) : Try :=
  match s.hart.aq with
  | [] => .blocked
  | e :: rest =>
    match e.progress, acOf e.instr with
    | .done result payload durable, some f =>
      if durable && accessUndurable s e.epoch then .blocked
      else
        let drop (s : State) : State :=
          { s with hart := { s.hart with
              aq := rest, vq := s.hart.vq.map fun c => { c with aqAhead := c.aqAhead - 1 },
              await := none, vwait := none, park := none, instret := s.hart.instret + 1,
              pins := s.hart.pins.filter fun p => p.queue != .access } }
        let writes := (holdsOf e.instr).contains f.d.toNat
        let t := if writes then writeX s f.d result else s
        match postOf e with
        | none => .go (drop t)
        | some c => if 64 ≤ (pnList s.hart c).length then .blocked else .go (drop (pnPush t c payload))
    | _, _ => .blocked

/-! ### Stream records (R248 to R251) -/

/-- Two byte ranges overlap. -/
def rangesMeet (a n b m : Nat) : Bool := decide (a < b + m) && decide (b < a + n)

/-- A record read at `va`, when it is valid (R248, R249). -/
def recordOf (s : State) (va : Word) (v : Nat) : Option Stream :=
  let dir := bitsN v 8 8
  let comp := bitsN v 16 8
  let ewc := bitsN v 24 8
  let scope := bitsN v 32 8
  let srck := bitsN v 40 8
  let len := bitsN v 128 64
  let ch := bitsN v 192 32
  let rbase := bitsN v 224 32
  let rbytes := bitsN v 256 32
  let permits := bitsN v 288 16
  let w := widthOf ewc
  let fields := bitsN v 0 8 == 1 && bitsN v 48 16 == 0 && bitsN v 304 208 == 0 && decide (dir ≤ 1) && decide (comp ≤ 2) &&
    decide (srck ≤ 4) && decide (2 ≤ scope) && decide (scope ≤ 6) && !(dir == 1 && comp == 2) &&
    decide (ewc < (if comp = 0 then 6 else 4)) && (comp == 1 || permits == 0)
  let shape :=
    if comp = 2 then rbytes % 64 == 0 && decide (4 + 4 * w ≤ rbytes) && decide (len ≤ 2 ^ 28)
    else ch % 64 == 0 && decide (64 ≤ ch) && decide (ch ≤ vrlen s) && (comp == 0 || ch % (4 * w) == 0) &&
      rbytes != 0 && rbytes % ch == 0
  let place := rbase % 64 == 0 && decide (rbase + rbytes ≤ partBytes s) &&
    !((reservedRanges s s.hart.core).any fun r => rangesMeet (partKey s + rbase) rbytes r.1 r.2)
  if fields && shape && place then
    some {
      handle := 0, recAddr := va, out := dir == 1, comp := comp, ew := w, scope := scope, srck := srck, addr := W (bitsN v 64 64),
      len := len, ch := ch, rbase := rbase, rbytes := rbytes, permits := permits, pos := 0, ring := [], staged := [], eaten := 0,
      exhausted := dir == 0 && (if comp = 0 then len * 8 / w == 0 else len == 0), failed := false }
  else none

/-- The lowest free handle (R250). -/
def freeHandle (s : State) : Option Nat := ((List.range 9).drop 1).find? fun h => (streamOf s h).isNone

/-- `ast.open` starts: the record is read and opened (R250). -/
def startOpen (f : OpAC) (s : State) (i : Nat) (e : AqEntry) : Try :=
  let va := entryX e f.a
  onRead (aqRead s va 64 64) fun t v =>
    match recordOf t va v, freeHandle t with
    | some r, some h =>
      finish { t with hart := { t.hart with streams := t.hart.streams ++ [{ r with handle := h }] } } i e (W h) 0 false
    | _, _ => .trap ⟨.stream, va⟩

/-- A convoy posted before the entry names a register that it carries as bound to a record (R251). -/
noncomputable def convoyNames (s : State) (h : Nat) (c : Convoy) : Bool :=
  let p := c.setVl.getD (s.hart.vl, s.hart.vtype)
  let d : DCtx := { ew := ewOf p.2, snap := c.snap, vrlen := vrlen s, tiles := tilesPerStall s }
  c.binds.any fun b => b.2 == .stream h &&
    c.members.any fun i => ((memberOf i).map fun m => (namesOf d m).contains b.1).getD false

/-- `ast.close` starts: it waits for the convoys that use the record, and stops the runs of the record; stores and combining updates that were on
their way to the ring range before it was held are performed, and the range reads zero (R144, R178, R251). -/
noncomputable def startClose (f : OpAC) (s : State) (i : Nat) (e : AqEntry) : Try :=
  let h := (entryX e f.a).toNat
  match streamOf s h with
  | none => .trap ⟨.stream, 0⟩
  | some r =>
    if e.early then .trap ⟨.stream, r.recAddr⟩
    else if (s.hart.vq.take e.vqAhead).any (convoyNames s h) then .blocked
    else
      let stop (q : AqEntry) : AqEntry :=
        match q.instr, q.progress with
        | .astRun g, .run _ count err =>
          if (entryX q g.a).toNat = h then
            { q with progress := .done 0 (BitVec.ofNat 32 ((if err then 2 ^ 31 else 0) + min count (2 ^ 31 - 1))) (r.out && r.scope == 6) }
          else q
        | _, _ => q
      let k := partKey s + r.rbase
      let s := eachHart s (drainWhere fun a => decide (k ≤ a) && decide (a < k + r.rbytes))
      let s := retireWhere s fun c => decide (k ≤ c.key) && decide (c.key < k + r.rbytes)
      let t := { s with
        hart := { s.hart with streams := s.hart.streams.filter (fun q => q.handle != h), aq := s.hart.aq.map stop },
        mem := Memory.clear s.mem k r.rbytes,
        poison := s.poison.filter fun g => !(decide (granule k ≤ g) && decide (g < granule k + r.rbytes / 8)) }
      finish t i e 0 0 false

/-- `ar.bind` checks its binding at the head of the queue (R252). -/
def startBind (f : OpAC) (s : State) (i : Nat) (e : AqEntry) : Try :=
  let h := (entryX e f.a).toNat
  if i ≠ 0 then .blocked
  else
    match streamOf s h with
    | none => .trap ⟨.stream, 0⟩
    | some r =>
      if s.hart.bound.any fun b => b.1 == f.d.toNat || b.2 == .stream h then .trap ⟨.stream, r.recAddr⟩
      else finish { s with hart := { s.hart with bound := (f.d.toNat, .stream h) :: s.hart.bound } } i e 0 0 false

/-- `ar.unbind` (R252, R262). -/
def startUnbind (f : OpAC) (s : State) (i : Nat) (e : AqEntry) : Try :=
  if e.early then
    .trap ⟨.stream, match s.hart.bound.find? fun b => b.1 == f.d.toNat with
      | some (_, .window t) => t
      | _ => 0⟩
  else finish { s with hart := { s.hart with bound := s.hart.bound.filter fun b => b.1 != f.d.toNat } } i e 0 0 false

/-! ### Runs (R256 to R259) -/

/-- SRCK of a place (R248). -/
def srckOf : Place → Option Nat
  | .dram => some 0
  | .loft _ => some 1
  | .peer _ => some 2
  | .shed _ _ => some 3
  | .host => some 4
  | .spad _ => none

/-- `ast.run` starts: place and reach are checked (R249, R258). -/
def startRun (f : OpAC) (s : State) (i : Nat) (e : AqEntry) : Try :=
  match streamOf s (entryX e f.a).toNat with
  | none => .trap ⟨.stream, 0⟩
  | some r =>
    if r.failed then finish s i e 0 (2 ^ 31) false
    else
      match findPlace s r.addr 1 (if r.out then .engineStore else .load) with
      | .trap t => .trap t
      | .stall => .blocked
      | .ok h =>
        if (placeOf s h.key).bind srckOf ≠ some r.srck ∨ !inReach s r.addr h.key r.scope then .trap ⟨.stream, r.recAddr⟩
        else if (entryX e f.b) = 0 then finish s i e 0 0 false
        else .go (setEntry s i { e with progress := .run 0 0 false })

/-- The first `n` bytes of a range with their poison. -/
def spanBytes (s : State) (l : List (Hit × Nat)) (n : Nat) : List (Byte × Bool) :=
  (List.range n).map fun o =>
    match spanAt l o with
    | some h => (memByte s (servedKey s h.key), memPois s h.key 1)
    | none => (0, false)

/-- Read bytes of a source as loads of the access queue (R256, R268). -/
def sourceRead (s : State) (va : Word) (n : Nat) : State × Except (Option Trap) (List (Byte × Bool)) :=
  match hartSpan s va n .load with
  | (t, .ok l) => (t, .ok (spanBytes t l n))
  | (t, .trap tr) => (t, .error (some tr))
  | (t, .stall) => (t, .error none)

/-- Bytes as a little-endian number. -/
def bytesNum (l : List (Byte × Bool)) : Nat := l.foldr (fun b a => b.1.toNat + 256 * a) 0

/-- The poison of bytes as register cells: four cells in each byte. -/
def bytesCells (l : List (Byte × Bool)) : Nat := l.foldr (fun b a => (if b.2 then 15 else 0) + 16 * a) 0

/-- Split a number and its cells into `n` bytes. -/
def numBytes (v cells : Nat) : Nat → List (Byte × Bool)
  | 0 => []
  | n + 1 => (BitVec.ofNat 8 v, cells % 16 != 0) :: numBytes (v / 256) (cells / 16) n

/-- Write bytes as stores of an engine, visible at once: a store to a granule is poisoned when one of its bytes is (R184, R185). -/
def putPoisoned (s : State) (l : List (Hit × Nat)) (bs : List (Byte × Bool)) (epoch : Nat) : State :=
  (l.foldl (fun (a : State × List (Byte × Bool)) p =>
    let g := granuleBytes p.1.key
    ((granuleParts p.1.key g (p.2 / g + 2) 0 p.2).foldl (fun s c =>
        let part := (a.2.drop c.1).take c.2
        applyStore s { mkStore s { p.1 with key := p.1.key + c.1 } c.2 (bytesNum part) (256 ^ c.2 - 1) (part.any fun b => b.2)
          .access epoch with whole := decide (c.2 = g) && !(part.any fun b => b.2) }) a.1,
      a.2.drop p.2)) (s, bs)).1

/-- Write bytes at an address of the hart as an engine does; the conditions are those of the entry (R247). -/
def engineStore (s : State) (va : Word) (bs : List (Byte × Bool)) (epoch : Nat) (g : State → Try) : Try :=
  match hartSpan s va bs.length .engineStore with
  | (t, .ok l) => g (putPoisoned t l bs epoch)
  | (_, .trap tr) => .trap tr
  | (_, .stall) => .blocked

/-- What the next compressed block of a source is (R159, R256). -/
inductive Block where
  /-- Every byte within LEN has been read. -/
  | ended
  /-- A decode error: cut off by LEN, or a poisoned mask. -/
  | bad (cut : Bool)
  | ok (bytes : List (Byte × Bool))

/-- The block at a position of the source. DEDUCED: log entry 49. -/
def blockAtPos (s : State) (r : Stream) (pos : Nat) : State × Except (Option Trap) Block :=
  let rem := r.len - pos
  if rem = 0 then (s, .ok .ended)
  else if rem < 4 then (s, .ok (.bad true))
  else
    match sourceRead s (r.addr + W pos) 4 with
    | (t, .ok m) =>
      if m.any fun b => b.2 then (t, .ok (.bad false))
      else
        let size := 4 + r.ew / 8 * popN 32 (bytesNum m)
        if rem < size then (t, .ok (.bad true))
        else
          match sourceRead t (r.addr + W (pos + 4)) (size - 4) with
          | (u, .ok body) => (u, .ok (.ok (m ++ body)))
          | (u, .error x) => (u, .error x)
    | (t, .error x) => (t, .error x)

/-- The 32 elements of a block at a width, with their cells. -/
def expandBlock (w : Nat) (bs : List (Byte × Bool)) : Nat × Nat :=
  let mask := bytesNum (bs.take 4)
  let body := bytesNum (bs.drop 4)
  let cells := bytesCells (bs.drop 4)
  (forUp 32 0 0 fun i a => a + zbElem mask body w i * 2 ^ (w * i),
   forUp 32 0 0 fun i a => a + zbElem mask cells (w / 2) i * 2 ^ (w / 2 * i))

/-- Blocks of one chunk decoded so far. -/
structure Decoded where
  val : Nat
  cells : Nat
  blocks : Nat
  pos : Nat
  last : Option Block

/-- Decode up to `fuel` blocks of a chunk. -/
def decodeChunk (r : Stream) : Nat → State → Decoded → State × Except (Option Trap) Decoded
  | 0, s, d => (s, .ok d)
  | fuel + 1, s, d =>
    match blockAtPos s r d.pos with
    | (t, .ok (.ok bs)) =>
      let x := expandBlock r.ew bs
      decodeChunk r fuel t {
        val := d.val + x.1 * 2 ^ (32 * r.ew * d.blocks), cells := d.cells + x.2 * 2 ^ (16 * r.ew * d.blocks),
        blocks := d.blocks + 1, pos := d.pos + bs.length, last := none }
    | (t, .ok b) => (t, .ok { d with last := some b })
    | (t, .error x) => (t, .error x)

/-- The most chunks that stand in the ring of an in-stream or are being fetched (R256, R257). -/
def ringLimit (r : Stream) : Nat :=
  let slots := r.rbytes / r.ch
  if r.comp = 1 ∧ r.permits ≠ 0 then min r.permits slots else slots

/-- The payload of a run (R256). -/
def runPayload (count : Nat) (err : Bool) : Nat := (if err then 2 ^ 31 else 0) + min count (2 ^ 31 - 1)

/-- A unit of a run has ended: count it, and finish when the run has no more units or has to stop. -/
def unitDone (f : OpAC) (r : Stream) (s : State) (i : Nat) (e : AqEntry) (units count : Nat) (err stop : Bool) : Try :=
  if stop || decide ((entryX e f.b).toNat ≤ units) then finish s i e 0 (runPayload count err) (r.out && r.scope == 6)
  else .go (setEntry s i { e with progress := .run units count err })

/-- One unit of an in-stream (R256 to R258). -/
def unitIn (f : OpAC) (s : State) (i : Nat) (e : AqEntry) (r : Stream) (units count : Nat) : Try :=
  if r.exhausted || r.failed then unitDone f r s i e units count r.failed true
  else if r.comp = 0 then
    if ringLimit r ≤ r.ring.length then .blocked
    else
      let k := min (r.ch * 8 / r.ew) (r.len * 8 / r.ew - r.pos * 8 / r.ew)
      let n := ceilDiv (k * r.ew) 8
      onRead (sourceRead s (r.addr + W r.pos) n) fun t bs =>
        let c : Chunk := { val := bytesNum bs % 2 ^ (k * r.ew), cells := bytesCells bs % 2 ^ (k * r.ew / 2) }
        let done := decide (r.len * 8 / r.ew ≤ r.pos * 8 / r.ew + k)
        unitDone f r (setStream t { r with ring := r.ring ++ [c], pos := r.pos + n, exhausted := done }) i e (units + 1) (count + k)
          false false
  else if r.comp = 1 then
    if ringLimit r ≤ r.ring.length then .blocked
    else
      onRead (decodeChunk r (r.ch * 8 / (32 * r.ew)) s { val := 0, cells := 0, blocks := 0, pos := r.pos, last := none }) fun t d =>
        let ring := if d.blocks = 0 then r.ring else r.ring ++ [{ val := d.val, cells := d.cells }]
        let ended := decide (r.len ≤ d.pos) || (match d.last with
          | some (.bad cut) => cut
          | some .ended => true
          | _ => false)
        let bad := match d.last with
          | some (.bad _) => true
          | _ => false
        unitDone f r (setStream t { r with ring := ring, pos := d.pos, exhausted := ended, failed := bad }) i e (units + 1)
          (count + 32 * d.blocks) bad bad
  else
    if r.rbytes < r.staged.length + 4 + 4 * r.ew then .blocked
    else
      onRead (blockAtPos s r r.pos) fun t b =>
        match b with
        | .ok bs =>
          let q := { r with staged := r.staged ++ bs, pos := r.pos + bs.length, exhausted := decide (r.len ≤ r.pos + bs.length) }
          unitDone f r (setStream t q) i e (units + 1) (count + 32) false false
        | .bad cut => unitDone f r (setStream t { r with failed := true, exhausted := cut }) i e units count true true
        | .ended => unitDone f r (setStream t { r with exhausted := true }) i e units count false true

/-- The bytes of one ZB32 block of 32 elements with their cells (R159, R161). -/
def packBlock (w val cells : Nat) : List (Byte × Bool) :=
  let es := (List.range 32).map fun i => (bitsN val (w * i) w, bitsN cells (w / 2 * i) (w / 2))
  let on (x : Nat × Nat) : Bool := x.1 != 0 || x.2 != 0
  let mask := es.foldr (fun x m => 2 * m + (if on x then 1 else 0)) 0
  let pois := es.any fun x => x.2 != 0
  numBytes mask (if pois then 0xFFFF else 0) 4 ++ (es.filter on).flatMap fun x => numBytes x.1 x.2 (w / 8)

/-- The bytes that an out-stream writes for a chunk (R256). -/
def chunkBytes (r : Stream) (c : Chunk) : List (Byte × Bool) :=
  if r.comp = 0 then numBytes c.val c.cells r.ch
  else
    (List.range (r.ch * 8 / (32 * r.ew))).flatMap fun b =>
      packBlock r.ew (bitsN c.val (32 * r.ew * b) (32 * r.ew)) (bitsN c.cells (16 * r.ew * b) (16 * r.ew))

/-- One unit of an out-stream: the chunk is written whole, or discarded when it does not fit (R256). -/
def unitOut (f : OpAC) (s : State) (i : Nat) (e : AqEntry) (r : Stream) (units count : Nat) : Try :=
  match r.ring with
  | [] => .blocked
  | c :: rest =>
    let bs := chunkBytes r c
    if r.len < r.pos + bs.length then unitDone f r (setStream s { r with ring := rest }) i e units count true true
    else
      engineStore s (r.addr + W r.pos) bs e.epoch fun t =>
        unitDone f r (setStream t { r with ring := rest, pos := r.pos + bs.length }) i e (units + 1) (count + r.ch * 8 / r.ew) false false

/-- The next unit of a run. -/
def unitRun (s : State) (i : Nat) (e : AqEntry) : Try :=
  match e.instr, e.progress with
  | .astRun f, .run units count _ =>
    match streamOf s (entryX e f.a).toNat with
    | some r => if r.out then unitOut f s i e r units count else unitIn f s i e r units count
    | none => finish s i e 0 (runPayload count false) false
  | _, _ => .blocked

/-- The oldest unfinished run of a record (R256). -/
def runOf (s : State) (h : Nat) : Option Nat :=
  s.hart.aq.findIdx? fun e => match e.instr, e.progress with
    | .astRun f, .run _ _ _ => (entryX e f.a).toNat == h
    | _, _ => false

end Sys2Proof.Machine
end

