-- ==== Sys2Proof/Machine/Collect.lean ====
section
/-! DEFINITION. Collectives from route tables: the table, the steps, timeouts, late images and the status record (R260 to R264). -/

namespace Sys2Proof.Machine

/-! ### Messages of the fabric -/

/-- A message for the focused hart. -/
def isMine (s : State) (m : Message) : Bool := m.toModule == s.module && m.toHart == s.hart.hartid

/-- A message leaves: it goes to a port of this module, or to the fabric; a failed peer gets nothing. -/
def sendMessage (s : State) (m : Message) : State :=
  let m := { m with came := s.time }
  if s.peersFailed.contains (m.toModule, m.toHart) then s
  else if m.toModule = s.module then { s with inbox := s.inbox ++ [m] }
  else { s with outbox := s.outbox ++ [m] }

/-- Remove the oldest message that satisfies `p`. -/
def takeMessage (s : State) (p : Message → Bool) : Option (Message × State) :=
  (s.inbox.find? p).map fun m => (m, { s with inbox := s.inbox.eraseP p })

/-! ### The route table (R260) -/

/-- The header of a route table, when it keeps the rules of R260; `window` is the window field of the `acol`. The steps and the
participants are still to be read. DEDUCED: log entry 44. DEDUCED: log entry 45. -/
def collHeader (h window : Nat) : Option (Coll × Nat × Word) :=
  let op := bitsN h 8 8
  let ewc := bitsN h 16 8
  let etype := bitsN h 24 8
  let npart := bitsN h 32 8
  let self := bitsN h 40 8
  let nslot := bitsN h 48 16
  let nstep := bitsN h 64 32
  let ch := bitsN h 96 32
  let merge := op == 2
  let kinds :=
    if merge then ewc == 0 && etype == 0 && window == 0
    else decide (ewc ≤ 3) && decide (etype ≤ 2) && (etype != 2 || ewc != 0) && (op != 1 || etype == 2) && (op != 0 || etype != 2) &&
      bitsN h 320 192 == 0
  let sizes := decide (2 ≤ npart) && decide (npart ≤ 64) && decide (self < npart) && decide (1 ≤ nslot) && decide (nslot ≤ 64) &&
    decide (1 ≤ nstep) && decide (nstep ≤ 65536) && ch % 64 == 0
  if bitsN h 0 8 == 1 && decide (op ≤ 4) && kinds && sizes && bitsN h 224 32 == 0 && bitsN h 576 448 == 0 then
    let c : Coll := {
      op := op, ewc := ewc, etype := etype, npart := npart, self := self, nslot := nslot, ch := ch, cid := bitsN h 128 64,
      timeout := bitsN h 192 32, parts := [], slotsAt := W (bitsN h 320 64), localAt := W (bitsN h 384 64),
      destAt := W (bitsN h 448 64), statusAt := W (bitsN h 512 64), steps := [], stepNo := 0, since := 0,
      slots := List.replicate nslot { data := { val := 0, cells := 0 }, mask := 0, late := 0 }, inq := [], outq := [],
      mask := 2 ^ 64 - 1, flushed := 0, lost := 0, awaiting := [], destSet := false, merged := false, failed := false }
    some (c, nstep, W (bitsN h 256 64))
  else none

/-- A step of 16 bytes, when it keeps the rules of R260. -/
def stepRead (c : Coll) (v : Nat) : Option RouteStep :=
  let st : RouteStep := { kind := bitsN v 0 8, peer := bitsN v 8 8, sa := bitsN v 16 8, sb := bitsN v 24 8, tag := bitsN v 32 32 }
  let talk := st.kind == 1 || st.kind == 2
  let two := st.kind == 3 || st.kind == 4
  if 1 ≤ st.kind ∧ st.kind ≤ 6 ∧ (if talk then st.peer < c.npart else st.peer = 0) ∧ st.sa < c.nslot ∧
      (if two then st.sb < c.nslot else st.sb = 0) ∧ bitsN v 64 64 = 0 then some st
  else none

/-- An entry of the participant list: module and hartid. -/
def partRead (v : Nat) : Option (Nat × Nat) :=
  if bitsN v 0 8 < 64 ∧ bitsN v 8 8 = 0 ∧ bitsN v 32 32 = 0 then some (bitsN v 0 8, bitsN v 16 16) else none

/-- Cut a number into `n` fields of `w` bits. -/
def fieldsOf (v w n : Nat) : List Nat := (List.range n).map fun i => bitsN v (w * i) w

/-- All values of a list of options, when every one is there. -/
def allSome {α : Type} : List (Option α) → Option (List α)
  | [] => some []
  | none :: _ => none
  | some a :: l => (allSome l).map (a :: ·)

/-- The table's sizes fit its slots (R260): 4 KiB of fabric buffer and `vrlen`, or the image at LOCAL for SMERGE. -/
def slotsFit (s : State) (c : Coll) : Bool :=
  if c.op = 2 then
    match sourceRead s c.localAt 64 with
    | (_, .ok h) => ((headerSum (bytesNum h)).map fun m => decide (footprint m ≤ c.ch)).getD true
    | _ => true
  else decide (c.nslot * c.ch ≤ 4096) && decide (c.ch ≤ vrlen s)

/-- `acol` starts: the route table and the participant list are read and checked, and the window must not be bound otherwise
(R247, R260, R262). -/
def startColl (f : OpAC) (s : State) (i : Nat) (e : AqEntry) : Try :=
  let va := entryX e f.a
  onRead (aqRead s va 128 64) fun s h =>
    match collHeader h f.b.toNat with
    | none => .trap ⟨.stream, va⟩
    | some (c, nstep, parts) =>
      onRead (aqRead s va (128 + 16 * nstep) 64) fun s v =>
        match allSome ((fieldsOf (v / 2 ^ 1024) 128 nstep).map (stepRead c)) with
        | none => .trap ⟨.stream, va⟩
        | some steps =>
          onRead (aqRead s parts (8 * c.npart) 64) fun s p =>
            match allSome ((fieldsOf p 64 c.npart).map partRead) with
            | none => .trap ⟨.stream, va⟩
            | some ps =>
              if !slotsFit s c || (c.op != 2 && s.hart.bound.any fun b => b.1 == f.b.toNat) then .trap ⟨.stream, va⟩
              else
                let s := if c.op = 2 then s else { s with hart := { s.hart with
                  bound := (f.b.toNat, .window va) :: s.hart.bound, winFailed := s.hart.winFailed.filter fun t => t != va } }
                .go (setEntry s i { e with progress := .coll { c with steps := steps, parts := ps, since := s.time } })

/-! ### Slots (R261) -/

/-- A slot that is empty. -/
def Slot.empty : Slot := { data := { val := 0, cells := 0 }, mask := 0, late := 0 }

/-- Slot `a`. -/
def slotOf (c : Coll) (a : Nat) : Slot := c.slots.getD a Slot.empty

/-- Replace slot `a`. -/
def setSlot (c : Coll) (a : Nat) (x : Slot) : Coll := { c with slots := c.slots.set a x }

/-- The address of slot `a` of an SMERGE collective. -/
def slotAddr (c : Coll) (a : Nat) : Word := c.slotsAt + W (a * c.ch)

/-- The floating format of a reduction by its width (R260). -/
def collFmt (w : Nat) : Fmt := if w = 16 then Fmt.bf16 else if w = 32 then Fmt.f32 else Fmt.f64

/-- `Reduce` of two elements (R261). -/
def reduceEl (c : Coll) (rm w a b : Nat) : Nat :=
  let f := collFmt w
  match c.op, c.etype with
  | 0, _ => iAdd w a b
  | 1, _ => f.round rm (FVal.add rm (f.decode a) (f.decode b))
  | 3, 0 => iMin w a b
  | 3, 1 => iMinn w a b
  | 3, _ => fminIn f a b
  | _, 0 => iMax w a b
  | _, 1 => iMaxn w a b
  | _, _ => fmaxIn f a b

/-- `Reduce` of two chunks; a poisoned element of either gives a poisoned element. -/
def reduceChunk (c : Coll) (rm : Nat) (a b : Chunk) : Chunk :=
  let w := widthOf c.ewc
  let n := c.ch * 8 / w
  { val := forUp n 0 0 fun i v => v + reduceEl c rm w (bitsN a.val (w * i) w) (bitsN b.val (w * i) w) * 2 ^ (w * i),
    cells := forUp n 0 0 fun i v =>
      v + (if bitsN a.cells (w / 2 * i) (w / 2) ≠ 0 ∨ bitsN b.cells (w / 2 * i) (w / 2) ≠ 0 then (2 ^ (w / 2) - 1) * 2 ^ (w / 2 * i) else 0) }

/-- The summary in the bytes of an image: a poisoned header, or one that R236 refuses, gives none; a poisoned body a poisoned
summary. -/
def bytesSum (bs : List (Byte × Bool)) : Option Summary :=
  let h := bs.take 64
  if h.any fun b => b.2 then none
  else
    match headerSum (bytesNum h) with
    | none => none
    | some m =>
      let n := footprint m
      if bs.length < n then none
      else if ((bs.take n).drop 64).any fun b => b.2 then some (poisonSum m)
      else imageSum m (bytesNum (bs.take n))

/-- The bytes of an image; that of a poisoned summary is clean data: the POISON flag and an all-zero body (R210, R235, R238). -/
def sumBytes (m : Summary) : List (Byte × Bool) := numBytes (sumImage m) 0 (footprint m)

/-! ### Steps (R261) -/

/-- The entry's collective has changed. -/
def putColl (s : State) (i : Nat) (e : AqEntry) (c : Coll) : Try := .go (setEntry s i { e with progress := .coll c })

/-- A step is done: the next one is reached now. -/
def stepDone (s : State) (i : Nat) (e : AqEntry) (c : Coll) : Try := putColl s i e { c with stepNo := c.stepNo + 1, since := s.time }

/-- The message that sends a slot. -/
def slotMessage (s : State) (c : Coll) (st : RouteStep) (bs : List (Byte × Bool)) : Message :=
  let p := c.parts.getD st.peer (0, 0)
  let x := slotOf c st.sa
  { toModule := p.1, toHart := p.2, fromModule := s.module, fromHart := s.hart.hartid, cid := some c.cid, part := c.self,
    tag := st.tag, data := x.data, bytes := bs, mask := x.mask, late := x.late, lateOf := none, total := 0, offset := 0, came := 0 }

/-- SEND. -/
def stepSend (s : State) (i : Nat) (e : AqEntry) (c : Coll) (st : RouteStep) : Try :=
  if c.op = 2 ∧ (slotOf c st.sa).mask ≠ 0 then
    onRead (sourceRead s (slotAddr c st.sa) c.ch) fun t bs => stepDone (sendMessage t (slotMessage t c st bs)) i e c
  else stepDone (sendMessage s (slotMessage s c st [])) i e c

/-- The flush of a RECV step (R263): the slot becomes empty; under `repro.EN` a timeout fails the collective, and SMERGE awaits the
late image. -/
def flushRecv (s : State) (i : Nat) (e : AqEntry) (c : Coll) (st : RouteStep) (lost : Bool) : Try :=
  let c := setSlot c st.sa (if c.op = 2 ∧ !lost then { Slot.empty with late := 2 ^ st.peer } else Slot.empty)
  if lost then stepDone s i e { c with lost := c.lost ||| 2 ^ st.peer }
  else
    let c := { c with flushed := c.flushed ||| 2 ^ st.peer }
    if c.op = 2 then stepDone s i e { c with awaiting := c.awaiting ++ [(c.stepNo, st.peer)] }
    else if bitN e.snap.repro.toNat 0 then putColl s i e { c with failed := true }
    else
      let t := { s with hart := { s.hart with flushed := s.hart.flushed ++ [(c.cid, st.peer, st.tag)] } }
      stepDone t i e c

/-- A message that a RECV step of a collective takes (R261): not one that a flush has given up, nor one that came when the TIMEOUT had expired
(R263). -/
def recvMatches (s : State) (c : Coll) (st : RouteStep) (m : Message) : Bool :=
  isMine s m && m.cid == some c.cid && m.part == st.peer && m.tag == st.tag && m.lateOf.isNone &&
  !s.hart.flushed.contains (c.cid, st.peer, st.tag) && (c.timeout == 0 || decide (m.came < c.since + c.timeout))

/-- The participants of a mask. -/
def maskParts (v : Nat) : List Nat := (List.range 64).filter fun p => bitN v p

/-- RECV (R261, R263). -/
def stepRecv (s : State) (i : Nat) (e : AqEntry) (c : Coll) (st : RouteStep) : Try :=
  match takeMessage s (recvMatches s c st) with
  | some (m, t) =>
    let c' := setSlot c st.sa { data := m.data, mask := m.mask, late := m.late }
    let c' := { c' with awaiting := c'.awaiting ++ (maskParts m.late).map fun p => (c.stepNo, p) }
    if c.op = 2 ∧ m.mask ≠ 0 then engineStore t (slotAddr c st.sa) m.bytes e.epoch fun u => stepDone u i e c' else stepDone t i e c'
  | none =>
    if s.peersFailed.contains (c.parts.getD st.peer (0, 0)) then flushRecv s i e c st true
    else if c.timeout ≠ 0 ∧ c.since + c.timeout ≤ s.time then flushRecv s i e c st false
    else .blocked

/-- Merge two slots of an SMERGE collective in memory (R235, R261). DEDUCED: log entry 43. -/
def mergeSlots (s : State) (e : AqEntry) (c : Coll) (st : RouteStep) (g : State → Try) : Try :=
  onRead (sourceRead s (slotAddr c st.sa) c.ch) fun t a =>
    onRead (sourceRead t (slotAddr c st.sb) c.ch) fun u b =>
      match bytesSum a, bytesSum b with
      | none, _ => .trap ⟨.sumtype, slotAddr c st.sa⟩
      | _, none => .trap ⟨.sumtype, slotAddr c st.sb⟩
      | some x, some y =>
        match mergeSum x y with
        | none => .trap ⟨.sumtype, slotAddr c st.sb⟩
        | some r => engineStore u (slotAddr c st.sa) (sumBytes r) e.epoch g

/-- Copy a slot of an SMERGE collective in memory. -/
def copySlots (s : State) (e : AqEntry) (c : Coll) (st : RouteStep) (g : State → Try) : Try :=
  onRead (sourceRead s (slotAddr c st.sb) c.ch) fun t b => engineStore t (slotAddr c st.sa) b e.epoch g

/-- RED (R261): an empty operand yields the other unchanged. -/
def stepRed (s : State) (i : Nat) (e : AqEntry) (c : Coll) (st : RouteStep) : Try :=
  let a := slotOf c st.sa
  let b := slotOf c st.sb
  let both (d : Chunk) : Coll := setSlot c st.sa { data := d, mask := a.mask ||| b.mask, late := a.late ||| b.late }
  if b.mask = 0 then stepDone s i e (both a.data)
  else if a.mask = 0 then
    if c.op = 2 then copySlots s e c st fun t => stepDone t i e (both b.data) else stepDone s i e (both b.data)
  else if c.op = 2 then mergeSlots s e c st fun t => stepDone t i e (both a.data)
  else stepDone s i e (both (reduceChunk c e.snap.rmode.toNat a.data b.data))

/-- COPY (R261). -/
def stepCopy (s : State) (i : Nat) (e : AqEntry) (c : Coll) (st : RouteStep) : Try :=
  let b := slotOf c st.sb
  if c.op = 2 ∧ b.mask ≠ 0 then copySlots s e c st fun t => stepDone t i e (setSlot c st.sa b)
  else stepDone s i e (setSlot c st.sa b)

/-- COPY-IN (R261, R262). -/
def stepCopyIn (s : State) (i : Nat) (e : AqEntry) (c : Coll) (st : RouteStep) : Try :=
  if c.op = 2 then
    onRead (sourceRead s c.localAt 64) fun t h =>
      match (if h.any fun b => b.2 then none else headerSum (bytesNum h)) with
      | none => .trap ⟨.sumtype, c.localAt⟩
      | some m =>
        onRead (sourceRead t c.localAt (footprint m)) fun u bs =>
          if c.ch < footprint m ∨ (bytesSum bs).isNone then .trap ⟨.sumtype, c.localAt⟩
          else engineStore u (slotAddr c st.sa) bs e.epoch fun v =>
            stepDone v i e (setSlot c st.sa { data := { val := 0, cells := 0 }, mask := 2 ^ c.self, late := 0 })
  else
    match c.inq with
    | [] => .blocked
    | x :: rest => stepDone s i e (setSlot { c with inq := rest } st.sa { data := x, mask := 2 ^ c.self, late := 0 })

/-- Write MASK, as a release at `.dm`: every store of the queue before it is visible already (R264). -/
def putMask (s : State) (e : AqEntry) (c : Coll) (g : State → Try) : Try :=
  engineStore s c.statusAt (numBytes c.mask 0 8) e.epoch g

/-- COPY-OUT (R261, R264). -/
def stepCopyOut (s : State) (i : Nat) (e : AqEntry) (c : Coll) (st : RouteStep) : Try :=
  let x := slotOf c st.sa
  let c := { c with mask := c.mask &&& x.mask }
  if c.op = 2 then
    if x.mask = 0 then stepDone s i e c
    else
      onRead (sourceRead s (slotAddr c st.sa) c.ch) fun t bs =>
        match bytesSum bs with
        | none => .trap ⟨.sumtype, slotAddr c st.sa⟩
        | some m => engineStore t c.destAt (sumBytes m) e.epoch fun u => putMask u e c fun v => stepDone v i e { c with destSet := true }
  else
    let d : Chunk := if x.mask = 0 then { val := 0, cells := 0 } else x.data
    stepDone s i e { c with outq := c.outq ++ [d] }

/-- One step of the table, by its kind (R261). -/
def collStep (s : State) (i : Nat) (e : AqEntry) (c : Coll) (st : RouteStep) : Try :=
  match st.kind with
  | 1 => stepSend s i e c st
  | 2 => stepRecv s i e c st
  | 3 => stepRed s i e c st
  | 4 => stepCopy s i e c st
  | 5 => stepCopyIn s i e c st
  | _ => stepCopyOut s i e c st

/-! ### Late images (R263) -/

/-- Merge a late image in DEST and rewrite MASK (R263, R264). -/
def mergeDest (s : State) (e : AqEntry) (c : Coll) (m : Message) (g : State → Coll → Try) : Try :=
  match bytesSum m.bytes with
  | none => .trap ⟨.sumtype, c.destAt⟩
  | some y =>
    let c' := { c with mask := c.mask ||| m.mask, destSet := true }
    let write (t : State) (r : Summary) : Try := engineStore t c.destAt (sumBytes r) e.epoch fun u => putMask u e c' fun v => g v c'
    if c.destSet then
      onRead (sourceRead s c.destAt (footprint y)) fun t bs =>
        match (bytesSum bs).bind fun x => mergeSum x y with
        | some r => write t r
        | none => .trap ⟨.sumtype, c.destAt⟩
    else write s y

/-- Replay the steps after a flushed RECV for a late image alone: `p` lists the slots it has reached (R263). -/
def replay (e : AqEntry) (m : Message) (who : Nat) : List RouteStep → List Nat → State → Coll → (State → Coll → Try) → Try
  | [], _, s, c, g => g s c
  | st :: l, p, s, c, g =>
    let here := p.contains st.sa
    match st.kind with
    | 1 =>
      let q := c.parts.getD st.peer (0, 0)
      let fwd : Message := { m with
        toModule := q.1, toHart := q.2, fromModule := s.module, fromHart := s.hart.hartid, part := c.self, tag := st.tag,
        lateOf := some who }
      replay e m who l p (if here then sendMessage s fwd else s) c g
    | 3 => replay e m who l (if p.contains st.sb then st.sa :: p else p) s c g
    | 4 => replay e m who l (if p.contains st.sb then st.sa :: p else p.filter (· != st.sa)) s c g
    | 6 => if here then mergeDest s e c m fun t d => replay e m who l p t d g else replay e m who l p s c g
    | _ => replay e m who l (p.filter (· != st.sa)) s c g

/-- A late image that a flushed RECV step awaits, with the step and the participant. -/
def awaited (s : State) (c : Coll) (m : Message) : Option (Nat × Nat) :=
  c.awaiting.find? fun a =>
    match c.steps[a.1]? with
    | some st => isMine s m && m.cid == some c.cid && m.part == st.peer && m.tag == st.tag && m.lateOf.getD st.peer == a.2
    | none => false

/-- Merge the oldest late image that has arrived (R263). DEDUCED: log entry 48. -/
def mergeLate (s : State) (i : Nat) (e : AqEntry) (c : Coll) : Try :=
  match takeMessage s fun m => (awaited s c m).isSome with
  | none => .blocked
  | some (m, t) =>
    match awaited s c m with
    | none => .blocked
    | some (k, who) =>
      let c' := { c with awaiting := c.awaiting.erase (k, who) ++ (maskParts m.late).map (fun p => (k, p)), merged := c.merged || m.mask != 0 }
      if m.mask = 0 then putColl t i e c'
      else replay e m who (c.steps.drop (k + 1)) [((c.steps[k]?).map fun st => st.sa).getD 0] t c' fun u d => putColl u i e d

/-! ### The outcome (R264) -/

/-- Bits 7:0 of x[d]: an SMERGE that is complete after late merges, of images that its own RECV steps awaited or that came through a relay,
reports 0x02 (R264). -/
def collCode (c : Coll) : Nat :=
  if c.failed then 4 else if c.lost ≠ 0 then 3 else if c.op = 2 ∧ (c.flushed ≠ 0 ∨ c.merged) then 2 else if c.flushed ≠ 0 then 1 else 0

/-- x[d]. -/
def collResult (c : Coll) : Nat := collCode c + 256 * (((maskParts (c.flushed ||| c.lost)).head?).getD 0)

/-- The status record as a number of 64 bytes. -/
def statusNum (c : Coll) : Nat := c.mask + c.flushed * 2 ^ 64 + c.lost * 2 ^ 128 + collResult c * 2 ^ 192

/-- The collective is over: when it is the oldest entry it retires, and the status record is written before x[d]; a failed one fails its window, and
one that a timeout has flushed while EN = 0 sets `repro.SEEN` (R29, R31, R262, R263). -/
def collEnd (s : State) (i : Nat) (e : AqEntry) (table : Word) (c : Coll) : Try :=
  if i ≠ 0 then .blocked else
  let s := if c.flushed ≠ 0 ∧ c.op ≠ 2 ∧ !reproEn e.snap then setSeen s else s
  engineStore s c.statusAt (numBytes (statusNum c) 0 64) e.epoch fun t =>
    let t := if c.failed then { t with hart := { t.hart with winFailed := table :: t.hart.winFailed } } else t
    finish t i e (W (collResult c)) 0 false

/-- The next move of a collective. DEDUCED: log entry 47. -/
def unitColl (s : State) (i : Nat) (e : AqEntry) : Try :=
  match e.instr, e.progress with
  | .acol f, .coll c =>
    if c.failed then collEnd s i e (entryX e f.a) c
    else
      match c.steps[c.stepNo]? with
      | some st => collStep s i e c st
      | none =>
        match mergeLate s i e c with
        | .blocked =>
          let dead (a : Nat × Nat) : Bool := s.peersFailed.contains (c.parts.getD a.2 (0, 0))
          if c.awaiting.any dead then
            let gone := (c.awaiting.filter dead).foldl (fun v a => v ||| 2 ^ a.2) c.lost
            putColl s i e { c with awaiting := c.awaiting.filter fun a => !dead a, lost := gone }
          else if c.awaiting.isEmpty && c.outq.isEmpty then collEnd s i e (entryX e f.a) c
          else .blocked
        | r => r
  | _, _ => .blocked

/-- Late data of a flushed step is discarded, and `repro.SEEN` is set (R263). -/
def discardLate (s : State) (m : Message) : Option State :=
  match m.cid with
  | some cid =>
    if isMine s m && s.hart.flushed.contains (cid, m.part, m.tag) then
      some { s with
        inbox := s.inbox.erase m,
        hart := { s.hart with flushed := s.hart.flushed.erase (cid, m.part, m.tag), repro := s.hart.repro ||| 2 } }
    else none
  | none => none

end Sys2Proof.Machine
end

