-- ==== Sys2Proof/Machine/Entries.lean ====
section
/-! DEFINITION. Entries of the access queue: posting, starting, their units, retirement and traps; transfers and the flip of a shadow
buffer (R23, R39, R92, R185, R247, R252, R262 to R267). -/

namespace Sys2Proof.Machine

/-! ### Transfers (R265, R266) -/

/-- A transfer descriptor: ADDR, LEN, peer module, peer hartid, TAG; none when a zero field is not zero or a field is out of range. DEDUCED: log entry 42. -/
def descRead (v : Nat) : Option Transfer :=
  if bitsN v 64 64 ≤ 2 ^ 32 ∧ bitsN v 128 8 < 64 ∧ bitsN v 136 8 = 0 ∧ bitsN v 192 64 = 0 then
    some { addr := W (bitsN v 0 64), len := bitsN v 64 64, peerModule := bitsN v 128 8, peerHart := bitsN v 144 16, tag := bitsN v 160 32,
           pos := 0, total := none }
  else none

/-- Bytes that this module's fabric port still holds in its retry store (R266). Which of the sixteen ports a transfer goes through is not told (R11): all
transfers of the module count against one store. DESIGN CHOICE: log entry 115. -/
def retryBytes (s : State) : Nat :=
  ((s.outbox.map fun m => m.bytes.length).sum) +
  ((s.inbox.map fun m => if m.fromModule = s.module ∧ m.cid.isNone then m.bytes.length else 0).sum)

/-- Bytes of a packet (R92, R266). -/
def packetBytes : Nat := 256

/-- The peers of two transfers and their TAG agree. -/
def samePeer (t r : Transfer) : Bool := r.peerModule == t.peerModule && r.peerHart == t.peerHart && r.tag == t.tag

/-- `asend` starts (R265): an `asend` to a failed peer moves nothing. -/
def startSend (f : OpAC) (s : State) (i : Nat) (e : AqEntry) : Try :=
  let va := entryX e f.a
  onRead (aqRead s va 32 32) fun s v =>
    match descRead v with
    | none => .trap ⟨.stream, va⟩
    | some t =>
      if s.peersFailed.contains (t.peerModule, t.peerHart) then finish s i e 3 0 false
      else .go (setEntry s i { e with progress := .send t })

/-- `arecv` starts: it waits for its sender (R265). -/
def startRecv (f : OpAC) (s : State) (i : Nat) (e : AqEntry) : Try :=
  let va := entryX e f.a
  onRead (aqRead s va 32 32) fun s v =>
    match descRead v with
    | none => .trap ⟨.stream, va⟩
    | some t => .go (setEntry s i { e with progress := .transfer t })

/-- The LENs of the unfinished receives of a hart of this module that name the focused hart and a TAG, oldest first. -/
def recvLens (s : State) (t : Transfer) : List Nat :=
  ((harts s).filter fun h => h.hartid == t.peerHart).flatMap fun h =>
    h.aq.filterMap fun e =>
      match e.progress with
      | .transfer r => if r.peerModule = s.module ∧ r.peerHart = s.hart.hartid ∧ r.tag = t.tag then some r.len else none
      | _ => none

/-- Transfers of the focused hart to a peer with a TAG whose last packet waits in a port of this module: each matches a receive before a
later transfer does. -/
def sentBefore (s : State) (t : Transfer) : Nat :=
  s.inbox.countP fun m => m.fromModule == s.module && m.fromHart == s.hart.hartid && m.toModule == t.peerModule && m.toHart == t.peerHart &&
    m.tag == t.tag && m.cid.isNone && m.offset + m.bytes.length == m.total

/-- The LEN of the `arecv` that matches a transfer, when one has been posted (R265); a transfer to another module, or a receive posted there,
is matched in the order of posting. -/
def matchRecv (s : State) (t : Transfer) : State × Option Nat :=
  if t.peerModule = s.module then (s, (recvLens s t)[sentBefore s t]?)
  else
    let mine (r : Nat × Nat × Nat × Nat × Option Nat) : Bool :=
      r.1 == t.peerModule && r.2.1 == t.peerHart && r.2.2.1 == s.hart.hartid && r.2.2.2.1 == t.tag
    match s.remote.find? fun r => mine r && r.2.2.2.2.isSome with
    | some r => ({ s with remote := s.remote.erase r }, r.2.2.2.2)
    | none => ({ s with remote := s.remote ++ [(t.peerModule, t.peerHart, s.hart.hartid, t.tag, none)] }, none)

/-- A hart of another module posts an `arecv`: it is that of the oldest transfer that has matched none, or waits for one (R265). -/
def remoteRecv (s : State) (fromModule fromHart toHart tag len : Nat) : State :=
  if s.remote.contains (fromModule, fromHart, toHart, tag, none) then { s with remote := s.remote.erase (fromModule, fromHart, toHart, tag, none) }
  else { s with remote := s.remote ++ [(fromModule, fromHart, toHart, tag, some len)] }

/-- x[d] of an `asend` that has sent every byte (R265): what the matching receive can take. Until one is posted, the local completion counts every
byte. DEDUCED: log entry 41. -/
def sendResult (t : Transfer) (most : Option Nat) : Word :=
  let m := most.getD t.len
  W (min t.len m * 256 + (if m < t.len then 1 else 0))

/-- An older transfer of the queue goes to the same peer under the same TAG. -/
def olderSend (s : State) (i : Nat) (t : Transfer) : Bool :=
  (s.hart.aq.take i).any fun q =>
    match q.progress with
    | .send r => samePeer t r
    | _ => false

/-- The next packet of an `asend` is read into the fabric port, which is its local completion when it is the last; it waits while the retry
store is full (R92, R265, R266). -/
def unitSend (s : State) (i : Nat) (e : AqEntry) : Try :=
  match e.progress with
  | .send t =>
    let n := min packetBytes (t.len - t.pos)
    if s.peersFailed.contains (t.peerModule, t.peerHart) then finish s i e (W (t.pos * 256 + 3)) 0 false
    else if olderSend s i t || decide (8 * 2 ^ 20 < retryBytes s + n) then .blocked
    else
      onRead (sourceRead s (t.addr + W t.pos) n) fun u bs =>
        let m : Message := {
          toModule := t.peerModule, toHart := t.peerHart, fromModule := s.module, fromHart := s.hart.hartid, cid := none, part := 0,
          tag := t.tag, data := { val := 0, cells := 0 }, bytes := bs, mask := 0, late := 0, lateOf := none, total := t.len, offset := t.pos,
          came := 0 }
        if t.pos + n < t.len then .go (setEntry (sendMessage u m) i { e with progress := .send { t with pos := t.pos + n } })
        else
          let r := matchRecv u t
          finish (sendMessage r.1 m) i e (sendResult t r.2) 0 false
  | _ => .blocked

/-- The message that a receive takes (R265). -/
def transferMatches (s : State) (t : Transfer) (m : Message) : Bool :=
  isMine s m && m.cid.isNone && m.fromModule == t.peerModule && m.fromHart == t.peerHart && m.tag == t.tag

/-- An older receive of the queue waits for the same sender and TAG. -/
def olderRecv (s : State) (i : Nat) (t : Transfer) : Bool :=
  (s.hart.aq.take i).any fun q =>
    match q.progress with
    | .transfer r => samePeer t r
    | _ => false

/-- A receive whose sender has failed ends with what it has received (R265). -/
def lostSender (s : State) (i : Nat) (e : AqEntry) (t : Transfer) : Try := finish s i e (W (min t.pos t.len * 256 + 3)) 0 false

/-- The next packet of a receive is written, as far as its LEN goes, or its sender has failed (R92, R265). -/
def unitRecv (s : State) (i : Nat) (e : AqEntry) : Try :=
  match e.progress with
  | .transfer t =>
    if olderRecv s i t then .blocked
    else
      match takeMessage s (transferMatches s t) with
      | some (m, u) =>
        let pos := m.offset + m.bytes.length
        engineStore u (t.addr + W m.offset) (m.bytes.take (t.len - m.offset)) e.epoch fun w =>
          if pos < m.total then .go (setEntry w i { e with progress := .transfer { t with pos := pos, total := some m.total } })
          else finish w i e (W (min m.total t.len * 256 + (if t.len < m.total then 1 else 0))) 0 false
      | none => if s.peersFailed.contains (t.peerModule, t.peerHart) then lostSender s i e t else .blocked
  | _ => .blocked

/-! ### Shadow publish (R185, R267) -/

/-- The leaves of the pages of a range; the lowest page that lacks SHD, or that cannot be found, is reported; none when a page before it is in
migration (R279). -/
def shadowPages (s : State) (pasid : Nat) : Nat → Word → Except (Option Trap) (List Hit)
  | 0, _ => .ok []
  | n + 1, va =>
    match locate s pasid va .load with
    | .trap t => .error (some t)
    | .stall => .error none
    | .ok h =>
      if !bitN h.pte 60 then .error (some ⟨.perm, va⟩)
      else
        match shadowPages s pasid n (va + 4096) with
        | .ok l => .ok (h :: l)
        | .error t => .error t

/-- Every queued store of every hart becomes visible: accesses that were translated before a flip have been performed (R185). -/
def drainHarts (s : State) : State := eachHart s drainAll

/-- An entry of a hart that has begun reads or writes a range: a run that has moved a unit, a transfer that has moved a packet, or a collective (R185). -/
def entryHolds (h : Hart) (e : AqEntry) (base len : Nat) : Bool :=
  let on (a : Word) (n : Nat) : Bool := rangesMeet a.toNat n base len
  match e.instr, e.progress with
  | .astRun f, .run units _ _ => units != 0 && h.streams.any fun r => r.handle == (entryX e f.a).toNat && on r.addr r.len
  | _, .send t => t.pos != 0 && on t.addr t.len
  | _, .transfer t => t.total.isSome && on t.addr t.len
  | _, .coll c => on c.statusAt 64 || c.op == 2 && (on c.localAt c.ch || on c.destAt c.ch || on c.slotsAt (c.nslot * c.ch))
  | _, _ => false

/-- Some instruction holds a translation of the pages of a buffer that was made before: a pinned one, that of a `vwait` which waits, that of a linked store
whose release is held, or that of an access entry in progress over them (R98, R185, R342). -/
def flipHeld (s : State) (pasid : Nat) (base : Word) (len : Nat) (l : List Hit) : Bool :=
  let on (a : Nat) : Bool := l.any fun h => h.pteAt == a
  (harts s).any fun h =>
    (h.pins.any fun p => on p.pteAt && livePin h p) || (h.vq.any fun c => c.held.any on) ||
    h.pasid == pasid && ((h.aq.any fun e => entryHolds h e base.toNat len) ||
      (h.splice.map fun sp => sp.linked.any fun k =>
        !k.placed.isEmpty && rangesMeet k.base.toNat (ceilDiv (k.hi * memWidth k.snap k.ew) 8) base.toNat len).getD false)

/-- Exchange the two backings of the pages at one instant, and drop the translations made before; the accesses and the combining updates that were
translated before have been performed (R178, R185). -/
def exchange (s : State) (l : List Hit) : State :=
  let s := retireWhere (drainHarts s) fun c => l.any fun h => c.key / 8192 == h.key / 8192
  let mem := l.foldl (fun m h => Memory.write m (h.pteAt + 1) (Memory.read m (h.pteAt + 1) ^^^ 1)) s.mem
  { s with mem := mem, tlb := s.tlb.filter fun e => !(l.any fun h => h.pteAt == e.pteAt) }

/-- `aflip` at the head of the queue (R267). DEDUCED: log entry 50. -/
def startFlip (f : OpAC) (s : State) (i : Nat) (e : AqEntry) : Try :=
  let a := entryX e f.a
  let n := entryX e f.b
  if i ≠ 0 then .blocked
  else if a.toNat % 4096 ≠ 0 then .trap ⟨.misalign, a⟩
  else if n.toNat % 4096 ≠ 0 then .trap ⟨.misalign, n⟩
  else if n = 0 then finish s i e 0 0 false
  else
    match findPlace s a 1 .load with
    | .trap t => .trap t
    | .stall => .blocked
    | .ok h =>
      if !inReach s a h.key (f.d.toNat % 8) then .trap ⟨.scope, a⟩
      else if isSpadKey h.key then .trap ⟨.perm, a⟩
      else
        match shadowPages s s.hart.pasid (n.toNat / 4096) a with
        | .error (some t) => .trap t
        | .error none => .blocked
        | .ok l => if flipHeld s s.hart.pasid a n.toNat l then .blocked else finish (exchange s l) i e 0 0 false

/-! ### Moving the queue (R23, R92, R247) -/

noncomputable section

/-- A fresh entry starts (R23). -/
def startEntry (s : State) (i : Nat) (e : AqEntry) : Try :=
  match e.instr with
  | .astOpen f => startOpen f s i e
  | .astClose f => startClose f s i e
  | .astRun f => startRun f s i e
  | .arBind f => startBind f s i e
  | .arUnbind f => startUnbind f s i e
  | .acol f => startColl f s i e
  | .asend f => startSend f s i e
  | .arecv f => startRecv f s i e
  | .aflip f => startFlip f s i e
  | _ => .blocked

/-- Entry `i` stops the queue when it is the oldest (R92): what has been delivered stands. The pins of the oldest entry end with its unit (R98). -/
def settleTry (s : State) (i : Nat) (e : AqEntry) (r : Try) : Option State :=
  match r with
  | .go t => some (if i = 0 then { t with hart := { t.hart with pins := t.hart.pins.filter fun p => p.queue != .access } } else t)
  | .blocked => none
  | .trap t => if i = 0 then some (takeStop s .access t e.addr s.hart.pc 0 s.hart.vstart 0 0) else none

/-- The oldest entry retires, if it can. -/
def moveRetire (s : State) : Option State :=
  match retireEntry (match s.hart.aq with
    | e :: _ => roleFor s e.addr
    | [] => s) with
  | .go t => some t
  | _ => none

/-- An entry has not started. -/
def isFresh (e : AqEntry) : Bool := e.progress == .fresh

/-- The next entry in program order starts, once it has taken its pennant (R23, R39), and after every acquire of a convoy posted before it (R172). -/
def moveStart (s : State) : Option State :=
  match s.hart.aq.findIdx? isFresh with
  | none => none
  | some i =>
    match s.hart.aq[i]? with
    | none => none
    | some e =>
      let s := roleFor s e.addr
      if acquireIn (s.hart.vq.take e.vqAhead) then none else
      match takeOf e, e.taken with
      | some c, none =>
        match pnList s.hart c with
        | [] => none
        | p :: l =>
          let t := setEntry (pnSet s c l) i { e with taken := some p }
          some ((settleTry t i { e with taken := some p } (startEntry t i { e with taken := some p })).getD t)
      | _, _ => settleTry s i e (startEntry s i e)

/-- One unit of the entry at `i` (R92). -/
def moveUnit (s : State) (i : Nat) : Option State :=
  match s.hart.aq[i]? with
  | none => none
  | some e =>
    let s := roleFor s e.addr
    match e.progress with
    | .run _ _ _ => if runOf s (match e.instr with
        | .astRun f => (entryX e f.a).toNat
        | _ => 0) = some i then settleTry s i e (unitRun s i e) else none
    | .coll _ => settleTry s i e (unitColl s i e)
    | .transfer _ => settleTry s i e (unitRecv s i e)
    | .send _ => settleTry s i e (unitSend s i e)
    | _ => none

/-- Late data that has arrived for a flushed step. -/
def moveLate (s : State) : Option State := s.inbox.findSome? (discardLate s)

/-- One move of the access queue of the focused hart: retire the oldest entry, start the next one, or do one unit of an entry in
progress, the oldest first. -/
def accessTurn (s : State) : Option State :=
  if s.hart.run ≠ .running then none
  else
    match moveLate s with
    | some t => some t
    | none =>
      match moveRetire s with
      | some t => some t
      | none =>
        match moveStart s with
        | some t => some t
        | none => (List.range s.hart.aq.length).findSome? (moveUnit s)

end

/-- What the oldest entry of the queue waits for, when the wait counts for the deadlock rule: its trap value (R27, R255). -/
def headReason (s : State) : Option Word :=
  match s.hart.aq with
  | [] => none
  | e :: _ =>
    match e.progress with
    | .fresh =>
      match takeOf e, e.taken with
      | some c, none => if (pnList s.hart c).isEmpty then some (W c) else none
      | _, _ => none
    | .run _ _ _ =>
      match e.instr with
      | .astRun f =>
        (streamOf s (entryX e f.a).toNat).bind fun r =>
          let full := if r.comp = 2 then decide (r.rbytes < r.staged.length + 4 + 4 * r.ew) else decide (ringLimit r ≤ r.ring.length)
          if (if r.out then r.ring.isEmpty else full) then some r.recAddr else none
      | _ => none
    | .coll c =>
      match c.steps[c.stepNo]? with
      | some st => if st.kind = 5 ∧ c.op ≠ 2 ∧ c.inq.isEmpty then some (match e.instr with
          | .acol f => entryX e f.a
          | _ => 0) else none
      | none => if c.outq.isEmpty then none else some (match e.instr with
          | .acol f => entryX e f.a
          | _ => 0)
    | .transfer _ => none
    | .send _ => none
    | .done _ _ _ => (postOf e).bind fun c => if 64 ≤ (pnList s.hart c).length then some (W c) else none

/-! ### Posting (R20, R247, R252, R262) -/

/-- The entry that posting makes. -/
def mkEntry (s : State) (i : Instr) (early : Bool) : AqEntry :=
  { addr := s.hart.pc, instr := i, snap := curSnap s.hart, xs := s.hart.x, epoch := s.hart.epoch, taken := none, progress := .fresh,
    vqAhead := s.hart.vq.length, early := early }

/-- OP of a route table as memory holds it at posting, in migration or not: an `acol` of SMERGE binds no window (R262, R280). DEDUCED: log entry 46. -/
def peekOp (s : State) (table : Word) : Option Nat := peekRead s (table + 1) 1

/-- The bindings that later convoys carry after an instruction is posted (R252, R262). -/
def bindsAfter (s : State) (i : Instr) : List (Nat × Bind) :=
  let without (d : Nat) := s.hart.binds.filter fun b => b.1 != d
  match i with
  | .arBind f => (f.d.toNat, .stream (readX s f.a).toNat) :: without f.d.toNat
  | .arUnbind f => without f.d.toNat
  | .acol f =>
    if f.b = 0 ∧ peekOp s (readX s f.a) = some 2 then s.hart.binds
    else (f.b.toNat, .window (readX s f.a)) :: without f.b.toNat
  | _ => s.hart.binds

/-- At posting, an `ast.close` finds a register still bound to its record, or an `ar.unbind` a window whose collective has not retired
(R251, R262). -/
def earlyOf (s : State) (i : Instr) : Bool :=
  match i with
  | .astClose f => s.hart.binds.any fun b => b.2 == .stream (readX s f.a).toNat
  | .arUnbind f => s.hart.binds.any fun b => b.1 == f.d.toNat && (match b.2 with
      | .window t => collQueued s t
      | .stream _ => false)
  | _ => false

/-- A register whose binding ends reads zero for the convoys that follow (R252). -/
def endBinding (s : State) (i : Instr) : State :=
  match i with
  | .arUnbind f =>
    if s.hart.binds.any fun b => b.1 == f.d.toNat then
      if s.hart.vq.isEmpty then zeroRegs s [f.d.toNat]
      else { s with hart := { s.hart with unbound := s.hart.unbound ++ [f.d.toNat] } }
    else s
  | _ => s

/-- The entry enters the access queue, and the sequencer goes on (R20, R247). -/
def enqueue (s : State) (i : Instr) : State :=
  let t := endBinding s i
  { t with hart := { t.hart with
      aq := t.hart.aq ++ [mkEntry s i (earlyOf s i)], binds := bindsAfter s i, pc := t.hart.pc + W (stepBytes t.hart 4), park := none,
      await := none } }

/-- An access-class instruction is posted: it waits for a hold on its scalar sources and for a free slot of the queue (R20, R247). -/
def postEntry (i : Instr) (s : State) : Out :=
  if anyHeld s (xsrcOf i) then .next (wait s .held)
  else if 128 ≤ s.hart.aq.length then .next (wait s .full)
  else .next (enqueue s i)

noncomputable section

/-- `ast.open` (R250). -/
def execAstOpen (f : OpAC) (s : State) : Out := postEntry (.astOpen f) s

/-- `ast.close` (R251). -/
def execAstClose (f : OpAC) (s : State) : Out := postEntry (.astClose f) s

/-- `ast.run` (R256). -/
def execAstRun (f : OpAC) (s : State) : Out := postEntry (.astRun f) s

/-- `ar.bind` (R252). -/
def execArBind (f : OpAC) (s : State) : Out := postEntry (.arBind f) s

/-- `ar.unbind` (R252). -/
def execArUnbind (f : OpAC) (s : State) : Out := postEntry (.arUnbind f) s

/-- `acol` (R262). -/
def execAcol (f : OpAC) (s : State) : Out := postEntry (.acol f) s

/-- `asend` (R265). -/
def execAsend (f : OpAC) (s : State) : Out := postEntry (.asend f) s

/-- `arecv` (R265). -/
def execArecv (f : OpAC) (s : State) : Out := postEntry (.arecv f) s

/-- `aflip` (R267). -/
def execAflip (f : OpAC) (s : State) : Out := postEntry (.aflip f) s

/-! ### The steps of the queue, one by one -/

/-- The next entry in program order starts (R23, R39, R247). -/
def execAccessEntryIssue (s : State) : Out :=
  if s.hart.run ≠ .running then .next s else .next ((moveStart s).getD s)

/-- One unit of the oldest unfinished run of a record. -/
def deliver (h : Nat) (out : Bool) (s : State) : Out :=
  if s.hart.run ≠ .running then .next s
  else
    match runOf s h, streamOf s h with
    | some i, some r => if r.out = out then .next ((moveUnit s i).getD s) else .next s
    | _, _ => .next s

/-- An in-stream delivers a chunk to its ring (R256 to R258). -/
def execChunkDelivery (h : BitVec 4) (s : State) : Out := deliver h.toNat false s

/-- An out-stream writes a pushed chunk to memory (R256). -/
def execOutChunkWrite (h : BitVec 4) (s : State) : Out := deliver h.toNat true s

/-- A step of the collective at entry `n`, when the step it has reached is of this kind (R261). -/
def collMove (kind n : Nat) (s : State) : Out :=
  if s.hart.run ≠ .running then .next s
  else
    match s.hart.aq[n]? with
    | some e =>
      match e.progress with
      | .coll c =>
        match c.steps[c.stepNo]? with
        | some st => if st.kind = kind ∧ !c.failed then .next ((moveUnit s n).getD s) else .next s
        | none => .next s
      | _ => .next s
    | none => .next s

/-- SEND (R261). -/
def execColSend (n : Nat) (s : State) : Out := collMove 1 n s

/-- RECV (R261). -/
def execColRecv (n : Nat) (s : State) : Out := collMove 2 n s

/-- RED (R261). -/
def execColRed (n : Nat) (s : State) : Out := collMove 3 n s

/-- COPY (R261). -/
def execColCopy (n : Nat) (s : State) : Out := collMove 4 n s

/-- COPY-IN (R261, R262). -/
def execColCopyIn (n : Nat) (s : State) : Out := collMove 5 n s

/-- COPY-OUT (R261, R262, R264). -/
def execColCopyOut (n : Nat) (s : State) : Out := collMove 6 n s

/-- The TIMEOUT of the RECV step that entry `n` has reached expires: the step is flushed (R263). Nothing happens before the time, or
when the data has arrived. -/
def execRecvTimeout (n : Nat) (s : State) : Out :=
  match s.hart.aq[n]? with
  | some e =>
    match e.progress with
    | .coll c =>
      match c.steps[c.stepNo]? with
      | some st =>
        if st.kind = 2 ∧ c.timeout ≠ 0 ∧ c.since + c.timeout ≤ s.time ∧ !c.failed ∧ s.hart.run = .running then
          .next ((moveUnit s n).getD s)
        else .next s
      | none => .next s
    | _ => .next s
  | none => .next s

/-- A late image of entry `n` that has arrived is merged (R263). -/
def execLateImageMerge (n : Nat) (s : State) : Out :=
  match s.hart.aq[n]? with
  | some e =>
    match e.progress with
    | .coll c =>
      if (c.steps[c.stepNo]?).isNone ∧ !c.failed ∧ s.hart.run = .running then .next ((settleTry s n e (mergeLate s n e c)).getD s)
      else .next s
    | _ => .next s
  | none => .next s

/-- Message `n` of the ports is late data of a flushed step: it is discarded (R263); nothing of a stopped hart moves (R86). -/
def execLateDataDiscard (n : Nat) (s : State) : Out :=
  match s.inbox[n]? with
  | some m => if s.hart.run = .running then .next ((discardLate s m).getD s) else .next s
  | none => .next s

/-- The receive at entry `n` matches its sender: a packet is delivered (R265). -/
def execTransferMatch (n : Nat) (s : State) : Out :=
  match s.hart.aq[n]? with
  | some e =>
    match e.progress with
    | .transfer _ => if s.hart.run = .running then .next ((moveUnit s n).getD s) else .next s
    | _ => .next s
  | none => .next s

/-- Flush the RECV steps of a hart's collectives that wait for failed participants, and end its receives from them. -/
def flushFailed (s : State) : State :=
  (List.range s.hart.aq.length).foldl (fun s i =>
    match s.hart.aq[i]? with
    | some e =>
      match e.progress with
      | .coll c =>
        match c.steps[c.stepNo]? with
        | some st =>
          if st.kind = 2 ∧ !c.failed ∧ s.peersFailed.contains (c.parts.getD st.peer (0, 0)) ∧
              (s.inbox.any (recvMatches s c st)) = false then
            match flushRecv s i e c st true with
            | .go t => t
            | _ => s
          else s
        | none => s
      | .transfer t =>
        if s.peersFailed.contains (t.peerModule, t.peerHart) ∧ (s.inbox.any (transferMatches s t)) = false then
          match lostSender s i e t with
          | .go u => u
          | _ => s
        else s
      | _ => s
    | none => s) s

/-- The fabric manager declares a participant failed (R263, R265); a stopped hart meets it when it runs again (R86). -/
def execParticipantFailed (m : BitVec 6) (hart : BitVec 16) (s : State) : Out :=
  let s := { s with peersFailed := (m.toNat, hart.toNat) :: s.peersFailed.filter fun p => p != (m.toNat, hart.toNat) }
  .next (eachHart s fun s => if s.hart.run = .running then flushFailed s else s)

/-- The exchange of the backings of a buffer at one instant (R185, R267): a range that is not whole SHD pages is left alone
(log entry 7). -/
def execBackingExchange (pasid : BitVec 20) (base len : Word) (s : State) : Out :=
  if base.toNat % 4096 ≠ 0 ∨ len.toNat % 4096 ≠ 0 then .next s
  else
    match shadowPages s pasid.toNat (len.toNat / 4096) base with
    | .ok l => if flipHeld s pasid.toNat base len.toNat l then .next s else .next (exchange s l)
    | .error _ => .next s

end

end Sys2Proof.Machine
end

