-- ==== Sys2Proof/Machine/Uses.lean ====
section
/-! DEFINITION. The registers that an instruction names, class by class (R337). Classes: 0 scalar, 1 vector, 2 predicate, 3 scale,
4 summary, 5 tile. -/

namespace Sys2Proof.Machine

/-- The registers of a group, ending at register 31 at most. -/
def grp (cls r n : Nat) : List (Nat × Nat) := ((List.range n).map fun i => (cls, r + i)).filter fun p => decide (p.2 < 32)

/-- The largest source group that a conversion may have: its widest source over its narrowest destination (R337). -/
def cvtGroup (f : OpCv) : Nat :=
  let dst := if f.fn.toNat < 2 then 8 else if f.fn.toNat < 4 then 16 else 2
  let src := if f.t.toNat < 8 then 8 * 2 ^ (f.t.toNat % 4) else if f.t.toNat < 10 then 16 else if f.t.toNat = 10 then 32
    else if f.t.toNat = 11 then 64 else 8
  max 1 (min 8 (src / dst))

/-- Every register that an instruction names, with groups and implied registers (R337). -/
def usesOf : Instr → List (Nat × Nat)
  | .add f => [(0, f.a.toNat), (0, f.b.toNat), (0, f.d.toNat)]
  | .sub f => [(0, f.a.toNat), (0, f.b.toNat), (0, f.d.toNat)]
  | .and f => [(0, f.a.toNat), (0, f.b.toNat), (0, f.d.toNat)]
  | .or f => [(0, f.a.toNat), (0, f.b.toNat), (0, f.d.toNat)]
  | .xor f => [(0, f.a.toNat), (0, f.b.toNat), (0, f.d.toNat)]
  | .sll f => [(0, f.a.toNat), (0, f.b.toNat), (0, f.d.toNat)]
  | .srl f => [(0, f.a.toNat), (0, f.b.toNat), (0, f.d.toNat)]
  | .sra f => [(0, f.a.toNat), (0, f.b.toNat), (0, f.d.toNat)]
  | .slt f => [(0, f.a.toNat), (0, f.b.toNat), (0, f.d.toNat)]
  | .sltn f => [(0, f.a.toNat), (0, f.b.toNat), (0, f.d.toNat)]
  | .min f => [(0, f.a.toNat), (0, f.b.toNat), (0, f.d.toNat)]
  | .max f => [(0, f.a.toNat), (0, f.b.toNat), (0, f.d.toNat)]
  | .minn f => [(0, f.a.toNat), (0, f.b.toNat), (0, f.d.toNat)]
  | .maxn f => [(0, f.a.toNat), (0, f.b.toNat), (0, f.d.toNat)]
  | .mul f => [(0, f.a.toNat), (0, f.b.toNat), (0, f.d.toNat)]
  | .mulh f => [(0, f.a.toNat), (0, f.b.toNat), (0, f.d.toNat)]
  | .mulhn f => [(0, f.a.toNat), (0, f.b.toNat), (0, f.d.toNat)]
  | .div f => [(0, f.a.toNat), (0, f.b.toNat), (0, f.d.toNat)]
  | .divn f => [(0, f.a.toNat), (0, f.b.toNat), (0, f.d.toNat)]
  | .rem f => [(0, f.a.toNat), (0, f.b.toNat), (0, f.d.toNat)]
  | .remn f => [(0, f.a.toNat), (0, f.b.toNat), (0, f.d.toNat)]
  | .addw f => [(0, f.a.toNat), (0, f.b.toNat), (0, f.d.toNat)]
  | .subw f => [(0, f.a.toNat), (0, f.b.toNat), (0, f.d.toNat)]
  | .clz f => [(0, f.a.toNat), (0, f.d.toNat)]
  | .ctz f => [(0, f.a.toNat), (0, f.d.toNat)]
  | .popc f => [(0, f.a.toNat), (0, f.d.toNat)]
  | .addi f => [(0, f.a.toNat), (0, f.d.toNat)]
  | .andi f => [(0, f.a.toNat), (0, f.d.toNat)]
  | .ori f => [(0, f.a.toNat), (0, f.d.toNat)]
  | .xori f => [(0, f.a.toNat), (0, f.d.toNat)]
  | .slli f => [(0, f.a.toNat), (0, f.d.toNat)]
  | .srli f => [(0, f.a.toNat), (0, f.d.toNat)]
  | .srai f => [(0, f.a.toNat), (0, f.d.toNat)]
  | .slti f => [(0, f.a.toNat), (0, f.d.toNat)]
  | .sltni f => [(0, f.a.toNat), (0, f.d.toNat)]
  | .ldI8 f => [(0, f.a.toNat), (0, f.d.toNat)]
  | .ldI16 f => [(0, f.a.toNat), (0, f.d.toNat)]
  | .ldI32 f => [(0, f.a.toNat), (0, f.d.toNat)]
  | .ldI64 f => [(0, f.a.toNat), (0, f.d.toNat)]
  | .ldN8 f => [(0, f.a.toNat), (0, f.d.toNat)]
  | .ldN16 f => [(0, f.a.toNat), (0, f.d.toNat)]
  | .ldN32 f => [(0, f.a.toNat), (0, f.d.toNat)]
  | .ldPr f => [(0, f.a.toNat)] ++ grp 0 f.d.toNat 2
  | .stI8 f => [(0, f.a.toNat), (0, f.d.toNat)]
  | .stI16 f => [(0, f.a.toNat), (0, f.d.toNat)]
  | .stI32 f => [(0, f.a.toNat), (0, f.d.toNat)]
  | .stI64 f => [(0, f.a.toNat), (0, f.d.toNat)]
  | .stPr f => [(0, f.a.toNat)] ++ grp 0 f.d.toNat 2
  | .amoSwap f => [(0, f.a.toNat), (0, f.b.toNat), (0, f.d.toNat)]
  | .amoAdd f => [(0, f.a.toNat), (0, f.b.toNat), (0, f.d.toNat)]
  | .amoAnd f => [(0, f.a.toNat), (0, f.b.toNat), (0, f.d.toNat)]
  | .amoOr f => [(0, f.a.toNat), (0, f.b.toNat), (0, f.d.toNat)]
  | .amoXor f => [(0, f.a.toNat), (0, f.b.toNat), (0, f.d.toNat)]
  | .amoMin f => [(0, f.a.toNat), (0, f.b.toNat), (0, f.d.toNat)]
  | .amoMax f => [(0, f.a.toNat), (0, f.b.toNat), (0, f.d.toNat)]
  | .amoMinn f => [(0, f.a.toNat), (0, f.b.toNat), (0, f.d.toNat)]
  | .amoMaxn f => [(0, f.a.toNat), (0, f.b.toNat), (0, f.d.toNat)]
  | .amoCas f => [(0, f.a.toNat), (0, f.b.toNat), (0, f.d.toNat)]
  | .amoLd f => [(0, f.a.toNat), (0, f.d.toNat)]
  | .amoSt f => [(0, f.a.toNat), (0, f.b.toNat)]
  | .ldh f => [(0, f.d.toNat)]
  | .pcadd f => [(0, f.d.toNat)]
  | .beq f => [(0, f.a.toNat), (0, f.b.toNat)]
  | .bne f => [(0, f.a.toNat), (0, f.b.toNat)]
  | .blt f => [(0, f.a.toNat), (0, f.b.toNat)]
  | .bge f => [(0, f.a.toNat), (0, f.b.toNat)]
  | .bltn f => [(0, f.a.toNat), (0, f.b.toNat)]
  | .bgen f => [(0, f.a.toNat), (0, f.b.toNat)]
  | .jal f => [(0, f.d.toNat)]
  | .jalr f => [(0, f.a.toNat), (0, f.d.toNat)]
  | .crRd f => [(0, f.d.toNat)]
  | .crWr f => [(0, f.a.toNat), (0, f.d.toNat)]
  | .crSet f => [(0, f.a.toNat), (0, f.d.toNat)]
  | .crClr f => [(0, f.a.toNat), (0, f.d.toNat)]
  | .vsl f => [(0, f.a.toNat), (0, f.d.toNat)]
  | .swtrap f => [(0, f.a.toNat)]
  | .gbar f => [(0, f.d.toNat)]
  | .wmPub _ f => [(0, f.a.toNat), (0, f.b.toNat)]
  | .wmWait _ f => [(0, f.a.toNat), (0, f.b.toNat), (0, f.d.toNat)]
  | .pnSend _ f => [(0, f.a.toNat)]
  | .pnRecvCh2 f => [(0, f.d.toNat)]
  | .pnRecvCh4 f => [(0, f.d.toNat)]
  | .pnCnt _ f => [(0, f.d.toNat)]
  | .jl f => [(0, f.a.toNat), (0, f.b.toNat), (0, f.d.toNat)]
  | .jwait f => [(0, f.a.toNat), (0, f.d.toNat)]
  | .vadd f => [(1, f.va.toNat), (1, f.vb.toNat), (1, f.vd.toNat), (2, f.pred.toNat)]
  | .vsub f => [(1, f.va.toNat), (1, f.vb.toNat), (1, f.vd.toNat), (2, f.pred.toNat)]
  | .vmul f => [(1, f.va.toNat), (1, f.vb.toNat), (1, f.vd.toNat), (2, f.pred.toNat)]
  | .vmulh f => [(1, f.va.toNat), (1, f.vb.toNat), (1, f.vd.toNat), (2, f.pred.toNat)]
  | .vmulhn f => [(1, f.va.toNat), (1, f.vb.toNat), (1, f.vd.toNat), (2, f.pred.toNat)]
  | .vand f => [(1, f.va.toNat), (1, f.vb.toNat), (1, f.vd.toNat), (2, f.pred.toNat)]
  | .vor f => [(1, f.va.toNat), (1, f.vb.toNat), (1, f.vd.toNat), (2, f.pred.toNat)]
  | .vxor f => [(1, f.va.toNat), (1, f.vb.toNat), (1, f.vd.toNat), (2, f.pred.toNat)]
  | .vsll f => [(1, f.va.toNat), (1, f.vb.toNat), (1, f.vd.toNat), (2, f.pred.toNat)]
  | .vsrl f => [(1, f.va.toNat), (1, f.vb.toNat), (1, f.vd.toNat), (2, f.pred.toNat)]
  | .vsra f => [(1, f.va.toNat), (1, f.vb.toNat), (1, f.vd.toNat), (2, f.pred.toNat)]
  | .vmin f => [(1, f.va.toNat), (1, f.vb.toNat), (1, f.vd.toNat), (2, f.pred.toNat)]
  | .vmax f => [(1, f.va.toNat), (1, f.vb.toNat), (1, f.vd.toNat), (2, f.pred.toNat)]
  | .vminn f => [(1, f.va.toNat), (1, f.vb.toNat), (1, f.vd.toNat), (2, f.pred.toNat)]
  | .vmaxn f => [(1, f.va.toNat), (1, f.vb.toNat), (1, f.vd.toNat), (2, f.pred.toNat)]
  | .vsel f => [(1, f.va.toNat), (1, f.vb.toNat), (1, f.vd.toNat), (2, f.pred.toNat)]
  | .vfadd f => [(1, f.va.toNat), (1, f.vb.toNat), (1, f.vd.toNat), (2, f.pred.toNat)]
  | .vfsub f => [(1, f.va.toNat), (1, f.vb.toNat), (1, f.vd.toNat), (2, f.pred.toNat)]
  | .vfmul f => [(1, f.va.toNat), (1, f.vb.toNat), (1, f.vd.toNat), (2, f.pred.toNat)]
  | .vfdiv f => [(1, f.va.toNat), (1, f.vb.toNat), (1, f.vd.toNat), (2, f.pred.toNat)]
  | .vfmin f => [(1, f.va.toNat), (1, f.vb.toNat), (1, f.vd.toNat), (2, f.pred.toNat)]
  | .vfmax f => [(1, f.va.toNat), (1, f.vb.toNat), (1, f.vd.toNat), (2, f.pred.toNat)]
  | .vfsqrt f => [(1, f.va.toNat), (1, f.vd.toNat), (2, f.pred.toNat)]
  | .vfabs f => [(1, f.va.toNat), (1, f.vd.toNat), (2, f.pred.toNat)]
  | .vfneg f => [(1, f.va.toNat), (1, f.vd.toNat), (2, f.pred.toNat)]
  | .vfclass f => [(1, f.va.toNat), (1, f.vd.toNat), (2, f.pred.toNat)]
  | .vfsgnj f => [(1, f.va.toNat), (1, f.vb.toNat), (1, f.vd.toNat), (2, f.pred.toNat)]
  | .vfma f => [(1, f.va.toNat), (1, f.vb.toNat), (1, f.vd.toNat), (2, f.pred.toNat)]
  | .vfms f => [(1, f.va.toNat), (1, f.vb.toNat), (1, f.vd.toNat), (2, f.pred.toNat)]
  | .vfnma f => [(1, f.va.toNat), (1, f.vb.toNat), (1, f.vd.toNat), (2, f.pred.toNat)]
  | .vfnms f => [(1, f.va.toNat), (1, f.vb.toNat), (1, f.vd.toNat), (2, f.pred.toNat)]
  | .vfaerr f => [(1, f.va.toNat), (1, f.vb.toNat), (1, f.vd.toNat), (2, f.pred.toNat)]
  | .vfmerr f => [(1, f.va.toNat), (1, f.vb.toNat), (1, f.vd.toNat), (2, f.pred.toNat)]
  | .vfrecipEst f => [(1, f.va.toNat), (1, f.vd.toNat), (2, f.pred.toNat)]
  | .vfrsqrtEst f => [(1, f.va.toNat), (1, f.vd.toNat), (2, f.pred.toNat)]
  | .vceq f => [(1, f.va.toNat), (1, f.vb.toNat), (2, f.vd.toNat), (2, f.pred.toNat)]
  | .vclt f => [(1, f.va.toNat), (1, f.vb.toNat), (2, f.vd.toNat), (2, f.pred.toNat)]
  | .vcle f => [(1, f.va.toNat), (1, f.vb.toNat), (2, f.vd.toNat), (2, f.pred.toNat)]
  | .vcltn f => [(1, f.va.toNat), (1, f.vb.toNat), (2, f.vd.toNat), (2, f.pred.toNat)]
  | .vclen f => [(1, f.va.toNat), (1, f.vb.toNat), (2, f.vd.toNat), (2, f.pred.toNat)]
  | .vfceq f => [(1, f.va.toNat), (1, f.vb.toNat), (2, f.vd.toNat), (2, f.pred.toNat)]
  | .vfclt f => [(1, f.va.toNat), (1, f.vb.toNat), (2, f.vd.toNat), (2, f.pred.toNat)]
  | .vfcle f => [(1, f.va.toNat), (1, f.vb.toNat), (2, f.vd.toNat), (2, f.pred.toNat)]
  | .vcvt f => grp 1 f.va.toNat (cvtGroup f) ++ [(1, f.vd.toNat), (2, f.pred.toNat)]
  | .vperm f => [(1, f.va.toNat), (1, f.vb.toNat), (1, f.vd.toNat), (2, f.pred.toNat)]
  | .vslideup f => [(1, f.va.toNat), (0, f.vb.toNat), (1, f.vd.toNat), (2, f.pred.toNat)]
  | .vslidedown f => [(1, f.va.toNat), (0, f.vb.toNat), (1, f.vd.toNat), (2, f.pred.toNat)]
  | .vcompress f => [(1, f.va.toNat), (1, f.vd.toNat), (2, f.pred.toNat)]
  | .vexpand f => [(1, f.va.toNat), (1, f.vd.toNat), (2, f.pred.toNat)]
  | .vmv f => [(1, f.va.toNat), (1, f.vd.toNat), (2, f.pred.toNat)]
  | .vzip f => [(1, f.va.toNat), (1, f.vb.toNat), (1, f.vd.toNat), (2, f.pred.toNat)]
  | .vunzip f => [(1, f.va.toNat), (1, f.vb.toNat), (1, f.vd.toNat), (2, f.pred.toNat)]
  | .vfoldAdd f => [(1, f.va.toNat), (0, f.vd.toNat), (2, f.pred.toNat)]
  | .vfoldMin f => [(1, f.va.toNat), (0, f.vd.toNat), (2, f.pred.toNat)]
  | .vfoldMax f => [(1, f.va.toNat), (0, f.vd.toNat), (2, f.pred.toNat)]
  | .vfoldMinn f => [(1, f.va.toNat), (0, f.vd.toNat), (2, f.pred.toNat)]
  | .vfoldMaxn f => [(1, f.va.toNat), (0, f.vd.toNat), (2, f.pred.toNat)]
  | .vfoldFadd f => [(1, f.va.toNat), (0, f.vd.toNat), (2, f.pred.toNat)]
  | .vfoldFmin f => [(1, f.va.toNat), (0, f.vd.toNat), (2, f.pred.toNat)]
  | .vfoldFmax f => [(1, f.va.toNat), (0, f.vd.toNat), (2, f.pred.toNat)]
  | .pand f => [(2, f.va.toNat), (2, f.vb.toNat), (2, f.vd.toNat), (2, f.pred.toNat)]
  | .por f => [(2, f.va.toNat), (2, f.vb.toNat), (2, f.vd.toNat), (2, f.pred.toNat)]
  | .pxor f => [(2, f.va.toNat), (2, f.vb.toNat), (2, f.vd.toNat), (2, f.pred.toNat)]
  | .pandn f => [(2, f.va.toNat), (2, f.vb.toNat), (2, f.vd.toNat), (2, f.pred.toNat)]
  | .plt f => [(0, f.va.toNat), (2, f.vd.toNat), (2, f.pred.toNat)]
  | .pgetsm f => [(2, f.vd.toNat)]
  | .pcount f => [(0, f.vd.toNat), (2, f.va.toNat)]
  | .pfirst f => [(0, f.vd.toNat), (2, f.va.toNat)]
  | .vaddVx f => [(0, f.xb.toNat), (1, f.va.toNat), (1, f.vd.toNat), (2, f.pred.toNat)]
  | .vsubVx f => [(0, f.xb.toNat), (1, f.va.toNat), (1, f.vd.toNat), (2, f.pred.toNat)]
  | .vrsubVx f => [(0, f.xb.toNat), (1, f.va.toNat), (1, f.vd.toNat), (2, f.pred.toNat)]
  | .vmulVx f => [(0, f.xb.toNat), (1, f.va.toNat), (1, f.vd.toNat), (2, f.pred.toNat)]
  | .vandVx f => [(0, f.xb.toNat), (1, f.va.toNat), (1, f.vd.toNat), (2, f.pred.toNat)]
  | .vorVx f => [(0, f.xb.toNat), (1, f.va.toNat), (1, f.vd.toNat), (2, f.pred.toNat)]
  | .vxorVx f => [(0, f.xb.toNat), (1, f.va.toNat), (1, f.vd.toNat), (2, f.pred.toNat)]
  | .vsllVx f => [(0, f.xb.toNat), (1, f.va.toNat), (1, f.vd.toNat), (2, f.pred.toNat)]
  | .vsrlVx f => [(0, f.xb.toNat), (1, f.va.toNat), (1, f.vd.toNat), (2, f.pred.toNat)]
  | .vsraVx f => [(0, f.xb.toNat), (1, f.va.toNat), (1, f.vd.toNat), (2, f.pred.toNat)]
  | .vminVx f => [(0, f.xb.toNat), (1, f.va.toNat), (1, f.vd.toNat), (2, f.pred.toNat)]
  | .vmaxVx f => [(0, f.xb.toNat), (1, f.va.toNat), (1, f.vd.toNat), (2, f.pred.toNat)]
  | .vfaddVx f => [(0, f.xb.toNat), (1, f.va.toNat), (1, f.vd.toNat), (2, f.pred.toNat)]
  | .vfmulVx f => [(0, f.xb.toNat), (1, f.va.toNat), (1, f.vd.toNat), (2, f.pred.toNat)]
  | .vfmaVx f => [(0, f.xb.toNat), (1, f.va.toNat), (1, f.vd.toNat), (2, f.pred.toNat)]
  | .vbcast f => [(0, f.xb.toNat), (1, f.vd.toNat), (2, f.pred.toNat)]
  | .vld f => [(0, f.a.toNat), (1, f.vd.toNat), (2, f.pred.toNat)]
  | .vlds f => [(0, f.a.toNat), (1, f.vd.toNat), (0, f.b.toNat), (2, f.pred.toNat)]
  | .vldFf f => [(0, f.a.toNat), (1, f.vd.toNat), (2, f.pred.toNat)]
  | .vldc f => grp 0 f.a.toNat 2 ++ [(1, f.vd.toNat)]
  | .vfill f => [(0, f.a.toNat), (1, f.vd.toNat)]
  | .vldXn f => [(0, f.a.toNat), (1, f.vd.toNat)]
  | .vldXtn f => [(0, f.a.toNat), (1, f.vd.toNat)]
  | .vldx f => [(0, f.a.toNat)] ++ grp 1 f.vb.toNat 8 ++ [(1, f.vd.toNat), (2, f.pred.toNat)]
  | .vst f => [(0, f.a.toNat), (1, f.vd.toNat), (2, f.pred.toNat)]
  | .vsts f => [(0, f.a.toNat), (1, f.vd.toNat), (0, f.b.toNat), (2, f.pred.toNat)]
  | .vcopy f => [(0, f.a.toNat), (0, f.vd.toNat), (2, f.pred.toNat)]
  | .vstc f => grp 0 f.a.toNat 2 ++ [(1, f.vd.toNat), (2, f.pred.toNat)]
  | .vspill f => [(0, f.a.toNat), (1, f.vd.toNat)]
  | .vstXn f => [(0, f.a.toNat), (1, f.vd.toNat)]
  | .vstXtn f => [(0, f.a.toNat), (1, f.vd.toNat)]
  | .vstx f => [(0, f.a.toNat)] ++ grp 1 f.vb.toNat 8 ++ [(1, f.vd.toNat), (2, f.pred.toNat)]
  | .vamoSwap f => grp 1 f.vb.toNat 2 ++ [(1, f.vd.toNat), (2, f.pred.toNat)]
  | .vamoAdd f => grp 1 f.vb.toNat 2 ++ [(1, f.vd.toNat), (2, f.pred.toNat)]
  | .vamoAnd f => grp 1 f.vb.toNat 2 ++ [(1, f.vd.toNat), (2, f.pred.toNat)]
  | .vamoOr f => grp 1 f.vb.toNat 2 ++ [(1, f.vd.toNat), (2, f.pred.toNat)]
  | .vamoXor f => grp 1 f.vb.toNat 2 ++ [(1, f.vd.toNat), (2, f.pred.toNat)]
  | .vamoMin f => grp 1 f.vb.toNat 2 ++ [(1, f.vd.toNat), (2, f.pred.toNat)]
  | .vamoMax f => grp 1 f.vb.toNat 2 ++ [(1, f.vd.toNat), (2, f.pred.toNat)]
  | .vamoMinn f => grp 1 f.vb.toNat 2 ++ [(1, f.vd.toNat), (2, f.pred.toNat)]
  | .vamoMaxn f => grp 1 f.vb.toNat 2 ++ [(1, f.vd.toNat), (2, f.pred.toNat)]
  | .vamoCas f => grp 1 f.vb.toNat 2 ++ grp 1 f.vd.toNat 2 ++ [(2, f.pred.toNat)]
  | .vamoAddCb f => grp 1 f.vb.toNat 2 ++ [(1, f.vd.toNat), (2, f.pred.toNat)]
  | .vamoAndCb f => grp 1 f.vb.toNat 2 ++ [(1, f.vd.toNat), (2, f.pred.toNat)]
  | .vamoOrCb f => grp 1 f.vb.toNat 2 ++ [(1, f.vd.toNat), (2, f.pred.toNat)]
  | .vamoXorCb f => grp 1 f.vb.toNat 2 ++ [(1, f.vd.toNat), (2, f.pred.toNat)]
  | .vamoMinCb f => grp 1 f.vb.toNat 2 ++ [(1, f.vd.toNat), (2, f.pred.toNat)]
  | .vamoMaxCb f => grp 1 f.vb.toNat 2 ++ [(1, f.vd.toNat), (2, f.pred.toNat)]
  | .vamoMinnCb f => grp 1 f.vb.toNat 2 ++ [(1, f.vd.toNat), (2, f.pred.toNat)]
  | .vamoMaxnCb f => grp 1 f.vb.toNat 2 ++ [(1, f.vd.toNat), (2, f.pred.toNat)]
  | .vamoFadd f => grp 1 f.vb.toNat 2 ++ [(1, f.vd.toNat), (2, f.pred.toNat)]
  | .vamoFmin f => grp 1 f.vb.toNat 2 ++ [(1, f.vd.toNat), (2, f.pred.toNat)]
  | .vamoFmax f => grp 1 f.vb.toNat 2 ++ [(1, f.vd.toNat), (2, f.pred.toNat)]
  | .vwaitEq f => grp 1 f.vb.toNat 2 ++ [(1, f.vd.toNat), (2, f.pred.toNat)]
  | .vwaitNe f => grp 1 f.vb.toNat 2 ++ [(1, f.vd.toNat), (2, f.pred.toNat)]
  | .vwaitGe f => grp 1 f.vb.toNat 2 ++ [(1, f.vd.toNat), (2, f.pred.toNat)]
  | .vwaitLt f => grp 1 f.vb.toNat 2 ++ [(1, f.vd.toNat), (2, f.pred.toNat)]
  | .vwaitGen f => grp 1 f.vb.toNat 2 ++ [(1, f.vd.toNat), (2, f.pred.toNat)]
  | .vwaitLtn f => grp 1 f.vb.toNat 2 ++ [(1, f.vd.toNat), (2, f.pred.toNat)]
  | .vamoFaddCb f => grp 1 f.vb.toNat 2 ++ [(1, f.vd.toNat), (2, f.pred.toNat)]
  | .vamoFminCb f => grp 1 f.vb.toNat 2 ++ [(1, f.vd.toNat), (2, f.pred.toNat)]
  | .vamoFmaxCb f => grp 1 f.vb.toNat 2 ++ [(1, f.vd.toNat), (2, f.pred.toNat)]
  | .awinDecl f => [(0, f.a.toNat), (0, f.b.toNat)]
  | .awinUpd f => [(1, f.a.toNat), (1, f.b.toNat), (2, f.pred.toNat)]
  | .supdCms f => [(4, f.sd.toNat), (1, f.a.toNat)] ++ (if f.b = 0 then [] else [(1, f.b.toNat)]) ++ [(2, f.pred.toNat)]
  | .supdBks f => [(4, f.sd.toNat), (1, f.a.toNat)] ++ (if f.b = 0 then [] else [(1, f.b.toNat)]) ++ [(2, f.pred.toNat)]
  | .supdQh f => [(4, f.sd.toNat), (1, f.a.toNat), (2, f.pred.toNat)]
  | .supdMom f => [(4, f.sd.toNat), (1, f.a.toNat), (2, f.pred.toNat)]
  | .supdWes f => [(4, f.sd.toNat), (1, f.a.toNat), (0, f.b.toNat), (2, f.pred.toNat)]
  | .smerge f => [(4, f.sd.toNat), (4, f.a.toNat)]
  | .sclr f => [(4, f.sd.toNat)]
  | .sdecl f => [(4, f.sd.toNat), (0, f.a.toNat)]
  | .sqCms f => [(4, f.sd.toNat), (1, f.a.toNat), (1, f.b.toNat), (2, f.pred.toNat)]
  | .sqBksEst f => [(4, f.sd.toNat), (0, f.b.toNat)]
  | .sqBksItems f => [(4, f.sd.toNat), (0, f.a.toNat)] ++ grp 1 f.b.toNat 2 ++ [(2, f.pred.toNat)]
  | .sqQnt f => [(4, f.sd.toNat), (0, f.a.toNat), (0, f.b.toNat)]
  | .sqMomQuery f => [(4, f.sd.toNat), (0, f.b.toNat)]
  | .sqWes f => [(4, f.sd.toNat), (0, f.a.toNat), (1, f.b.toNat), (2, f.pred.toNat)]
  | .sst f => [(4, f.sd.toNat), (0, f.a.toNat), (0, f.b.toNat)]
  | .sld f => [(4, f.sd.toNat), (0, f.a.toNat)]
  | .smergeM f => [(4, f.sd.toNat), (0, f.a.toNat)]
  | .scmt f => [(4, f.sd.toNat), (0, f.a.toNat), (0, f.b.toNat)]
  | .astOpen f => [(0, f.d.toNat), (0, f.a.toNat)]
  | .astClose f => [(0, f.a.toNat)]
  | .astRun f => [(0, f.a.toNat), (0, f.b.toNat)]
  | .arBind f => [(1, f.d.toNat), (0, f.a.toNat)]
  | .arUnbind f => [(1, f.d.toNat)]
  | .acol f => [(0, f.d.toNat), (1, f.b.toNat), (0, f.a.toNat)]
  | .asend f => [(0, f.d.toNat), (0, f.a.toNat)]
  | .arecv f => [(0, f.d.toNat), (0, f.a.toNat)]
  | .aflip f => [(0, f.a.toNat), (0, f.b.toNat)]
  | .shalloc f => [(0, f.d.toNat), (0, f.a.toNat)]
  | .shallocM f => [(0, f.d.toNat), (0, f.a.toNat), (0, f.b.toNat)]
  | .shfree f => [(0, f.a.toNat)]
  | .shstat f => [(0, f.d.toNat), (0, f.a.toNat)]
  | .cAddi _ d => [(0, d.toNat)]
  | .cLi _ d => [(0, d.toNat)]
  | .cMv a d => [(0, a.toNat), (0, d.toNat)]
  | .cAdd a d => [(0, a.toNat), (0, d.toNat)]
  | .cSub a d => [(0, a.toNat), (0, d.toNat)]
  | .cAnd a d => [(0, a.toNat), (0, d.toNat)]
  | .cSlli _ d => [(0, d.toNat)]
  | .cSrai _ d => [(0, d.toNat)]
  | .cLd a d => [(0, a.toNat), (0, d.toNat)]
  | .cSd a d => [(0, a.toNat), (0, d.toNat)]
  | .cBeqz _ d => [(0, d.toNat)]
  | .cBnez _ d => [(0, d.toNat)]
  | .cJr a => [(0, a.toNat)]
  | .mopa f => [(5, f.t.toNat), (2, f.rp.toNat), (2, f.cp.toNat), (1, f.va.toNat), (1, f.vb.toNat), (2, f.pred.toNat)] ++ (if f.us then grp 3 f.ks.toNat 2 else [])
  | .mops f => [(5, f.t.toNat), (2, f.rp.toNat), (2, f.cp.toNat), (1, f.va.toNat), (1, f.vb.toNat), (2, f.pred.toNat)] ++ (if f.us then grp 3 f.ks.toNat 2 else [])
  | .mopi f => [(5, f.t.toNat), (2, f.rp.toNat), (2, f.cp.toNat), (1, f.va.toNat), (1, f.vb.toNat), (2, f.pred.toNat)] ++ (if f.us then grp 3 f.ks.toNat 2 else [])
  | .mopn f => [(5, f.t.toNat), (2, f.rp.toNat), (2, f.cp.toNat), (1, f.va.toNat), (1, f.vb.toNat), (2, f.pred.toNat)] ++ (if f.us then grp 3 f.ks.toNat 2 else [])
  | .mopl f => [(5, f.t.toNat), (2, f.rp.toNat), (2, f.cp.toNat), (1, f.vb.toNat), (2, f.pred.toNat)] ++ (if f.us then grp 3 f.ks.toNat 2 else [])
  | .mgrow f => [(5, f.t.toNat), (2, f.rp.toNat), (1, f.va.toNat), (0, f.vb.toNat), (0, f.vd.toNat), (2, f.pred.toNat)]
  | .mrowGet f => [(5, f.t.toNat), (1, f.vd.toNat), (0, f.vb.toNat), (2, f.pred.toNat)]
  | .mrowPut f => [(5, f.t.toNat), (1, f.va.toNat), (0, f.vb.toNat), (2, f.pred.toNat)]
  | .mcolGet f => [(5, f.t.toNat), (1, f.vd.toNat), (0, f.vb.toNat), (2, f.pred.toNat)]
  | .mcolPut f => [(5, f.t.toNat), (1, f.va.toNat), (0, f.vb.toNat), (2, f.pred.toNat)]
  | .mld f => [(5, f.t.toNat), (2, f.rp.toNat), (2, f.cp.toNat), (0, f.va.toNat), (0, f.vb.toNat)]
  | .mst f => [(5, f.t.toNat), (2, f.rp.toNat), (2, f.cp.toNat), (0, f.va.toNat), (0, f.vb.toNat)]
  | .mzero f => [(5, f.t.toNat)]
  | _ => []

/-- The narrow descriptors through which an instruction reads: the source of a `vcvt`, and updates with a narrow type; `supd.wes` names its type in
a register, so all four. -/
def narrowReads : Instr → List Nat
  | .vcvt f => if 12 ≤ f.t.toNat then [f.t.toNat % 4] else []
  | .supdQh f | .supdMom f => if 12 ≤ f.b.toNat ∧ f.b.toNat < 16 then [f.b.toNat % 4] else []
  | .supdWes _ => [0, 1, 2, 3]
  | _ => []

/-- The narrow descriptor through which a `vcvt` writes. -/
def narrowWrites : Instr → List Nat
  | .vcvt f => if 4 ≤ f.fn.toNat then [f.fn.toNat % 4] else []
  | _ => []

/-- The narrow descriptors whose operands an instruction may use. -/
def narrowOf (i : Instr) : List Nat := narrowReads i ++ narrowWrites i

end Sys2Proof.Machine
end

