-- ==== Sys2Proof/Machine/Window.lean ====
section
/-! DEFINITION. The steps inside the vector queue and the store queues: micro-operations, retirement, pennants taken, stores and
combining entries that become visible (R21, R39, R53, R169, R178, R203, R227, R347). -/

namespace Sys2Proof.Machine

noncomputable section

/-- A micro-operation: its member, its element group, and the first element that it covers (R53). -/
structure Uop where
  member : Nat
  group : Nat
  elem : Nat
  deriving DecidableEq, Repr

/-- The rows that `mgrow` or `mld` accesses: the active ones of those that its translation finds (R197, R203). -/
def rowsRead (s : State) (on : Nat → Bool) (r : RowScan) : Nat :=
  match r with
  | .upTo n => (List.range n).countP on
  | _ => (List.range (grantOf s)).countP on

/-- The element groups of a member, first and end, under the context of its convoy; vector members by R53, tile members by R203, summary
members by R227. -/
def groupRange (s : State) (i : Instr) (m : Member) : Nat × Nat :=
  let d := curDctx s
  let w := widest d m
  let bits := 8 * groupBytes s
  let body (n : Nat) : Nat × Nat := (0, max 1 (ceilDiv (((sumOf s n).map footprint).getD 0) 4096))
  match i with
  | .mopa f | .mops f | .mopi f | .mopn f | .mopl f => (0, ceilDiv (kSteps s) (tileGroup f d.snap))
  | .mgrow f =>
    let tw := tileWidth f d.snap
    (0, rowsRead s (lineOn s f.rp) (scanRows s f.ff (lineOn s f.rp) (growRow f s tw (ceilDiv (kSteps s * tw) 8)) (grantOf s) 0).2)
  | .mld f => (0, rowsRead s (lineOn s f.rp) (scanRows s f.ff (lineOn s f.rp) (mldRow f s) (grantOf s) 0).2)
  | .mst f => (0, (List.range 128).countP (lineOn s f.rp))
  | .mrowGet _ | .mrowPut _ | .mcolGet _ | .mcolPut _ | .mzero _ => (0, 1)
  | .smerge f | .sclr f | .sdecl f | .sqCms f | .sqBksEst f | .sqBksItems f | .sqQnt f | .sqMomQuery f | .sqWes f | .sst f | .sld f
  | .smergeM f | .scmt f => body f.sd.toNat
  | .vfence _ | .pnTake _ _ | .pnPost _ | .pnPostVl _ => (0, 0)
  | .dpb _ | .shalloc _ | .shallocM _ | .shfree _ | .shstat _ | .awinDecl _ | .awinMerge _ => (0, 1)
  | _ => if s.hart.cur.vl ≤ s.hart.cur.vstart then (0, 0) else (s.hart.cur.vstart * w / bits, ceilDiv (s.hart.cur.vl * w) bits)

/-- A tile member of which there is a micro-operation for each row that it accesses (R203). -/
def countsRows : Instr → Bool
  | .mgrow _ | .mld _ | .mst _ => true
  | _ => false

/-- A summary member whose split is by the body that it reads or writes (R227). -/
def countsBody : Instr → Bool
  | .smerge _ | .sclr _ | .sdecl _ | .sqCms _ | .sqBksEst _ | .sqBksItems _ | .sqQnt _ | .sqMomQuery _ | .sqWes _ | .sst _ | .sld _
  | .smergeM _ | .scmt _ => true
  | _ => false

/-- The state in which member `j` of a convoy that has begun is split: the earlier members have written the predicates, the indices, `tgrant` and the
summaries by which it is counted, and `sdecl` and `sld` have declared the body that they write (R203, R227). -/
def splitState (b : State) (c : Convoy) (j : Nat) (i : Instr) : State :=
  let after (n : Nat) : State := runMembers b ((c.members.take n).filterMap memberOf)
  match i with
  | .sdecl _ | .sld _ => after (j + 1)
  | _ => if countsRows i || countsBody i then after j else b

/-- The micro-operations of a convoy that has begun, in the order in which they are renamed (R53). -/
def uopsIn (b : State) (c : Convoy) : List Uop :=
  (List.range c.members.length).flatMap fun j =>
    match c.members[j]? with
    | some i =>
      match memberOf i with
      | some m =>
        let r := groupRange (splitState b c j i) i m
        (List.range (r.2 - r.1)).map fun n =>
          { member := j, group := r.1 + n, elem := if m.whole then 0 else groupStart b m (r.1 + n) }
      | none => []
    | none => []

/-- The micro-operations of the convoy at the head. -/
def uopsOf (s : State) (c : Convoy) : List Uop := uopsIn (beginConvoy (roleFor s c.addr) c) c

/-- A member that changes `vl` when it completes: the convoys behind it are not split before (R53). -/
def changesVl : Instr → Bool
  | .vldFf _ | .vldc _ | .vstc _ => true
  | _ => false

/-- The convoy at a place of the queue with the context in which its members will run; none while an earlier one is still to change `vl`, or to
write that by which a member of it is split (R53, R203, R227). -/
def convoyAt (s : State) (p : Nat) : Option (State × Convoy) :=
  (s.hart.vq[p]?).bind fun c =>
    let s := roleFor s c.addr
    match (s.hart.vq.take p).filter fun b => ofRole s.hart b.addr with
    | [] => some (beginConvoy s c, c)
    | before =>
      if (before.any fun b => b.members.any changesVl) || c.members.any fun i => countsRows i || countsBody i then none
      else
        let v := ((before.filterMap fun b => b.setVl).getLast?).getD (s.hart.vl, s.hart.vtype)
        some (beginConvoy { s with hart := { s.hart with vl := v.1, vtype := v.2, vstart := 0 } } c, c)

/-- The micro-operations of the convoy at a place of the queue. -/
def uopsAt (s : State) (p : Nat) : List Uop := ((convoyAt s p).map fun x => uopsIn x.1 x.2).getD []

/-- Every micro-operation that has been renamed, in order: the place of its convoy and its own in it. -/
def renamedUops (s : State) : List (Nat × Nat) :=
  s.hart.renamed.zipIdx.flatMap fun x => (List.range x.1).map fun n => (x.2, n)

/-- Window entries that a hart holds. -/
def windowHeld (h : Hart) : Nat := h.renamed.sum - h.complete.length

/-- A stall finds a free entry of the core's window: within its reserve always, beyond it up to its bound while the free entries cover
the unused reserves of the other stalls (R53). -/
def windowRoom (s : State) : Bool :=
  let n := 2 ^ modeOf s
  let reserve := 512 / n
  let most := if modeOf s = 0 then 512 else if modeOf s = 1 then 384 else 256
  let mates := s.others.filter fun h => h.core == s.hart.core
  let used := (mates.map windowHeld).sum + windowHeld s.hart
  let owed := (n - 1) * reserve - (mates.map fun h => min reserve (windowHeld h)).sum
  decide (windowHeld s.hart < reserve) || decide (windowHeld s.hart < most) && decide (used + owed < 512)

/-- Rename micro-operations in order while the window has room: `l` lists what each convoy has, from the head (R53). -/
def renameIn (s : State) : List Nat → Nat → State
  | [], _ => s
  | n :: l, p =>
    let have' := (s.hart.renamed[p]?).getD 0
    let s := forUp (n - have') 0 s fun _ t =>
      if windowRoom t then
        { t with hart := { t.hart with renamed := t.hart.renamed.take p ++ [(t.hart.renamed[p]?).getD 0 + 1] } }
      else t
    if (s.hart.renamed[p]?).getD 0 < n then s
    else renameIn { s with hart := { s.hart with renamed := s.hart.renamed.take p ++ [n] } } l (p + 1)

/-- Renaming goes on as far as the window lets it; it stops at a convoy whose `vl` is not known yet. -/
def rename (s : State) : State :=
  let known := (List.range s.hart.vq.length).takeWhile fun p => (convoyAt s p).isSome
  renameIn s (known.map fun p => (uopsAt s p).length) 0

/-- A member that waits for its convoy's pennant before anything of the convoy issues (R39). -/
def needsPennant (c : Convoy) : Bool :=
  c.taken.isNone && c.members.any fun i => match i with
    | .pnTake _ _ => true
    | _ => false

/-- The base word of an instruction: that of a prefixed one follows its prefix (R37, R42). -/
def baseWord (i : Instr) : Nat := encode i / 2 ^ (i.bits - 32)

/-- The chain bit of a vector source register of a member (R24, R37, R38): in a memory form one bit chains every vector source, in the other forms ca
chains va and cb chains vb; a vector atomic has none. -/
def chained (i : Instr) (r : Nat) : Bool :=
  let w := baseWord i
  let major := bitsN w 2 6
  if 0x2C ≤ major ∧ major < 0x2E then false
  else if 0x2A ≤ major ∧ major < 0x2C then bitN w 26
  else bitN w 26 && bitsN w 13 5 == r || major != 0x29 && bitN w 27 && bitsN w 18 5 == r

/-- A tile member, or a summary member that is split by its body: its micro-operations are not element groups of registers (R203, R227). -/
def ownSplit (i : Instr) : Bool :=
  countsBody i || countsRows i ||
    (match i with
      | .mopa _ | .mops _ | .mopi _ | .mopn _ | .mopl _ | .mrowGet _ | .mrowPut _ | .mcolGet _ | .mcolPut _ | .mzero _ => true
      | _ => false)

/-- The members ahead of one in the queue, the nearest first: the place of the convoy, the number of the member, and the instruction. -/
def membersBefore (s : State) (p j : Nat) : List (Nat × Nat × Instr) :=
  let at' (q : Nat) (l : List Instr) : List (Nat × Nat × Instr) := l.zipIdx.map fun x => (q, x.2, x.1)
  ((List.range (p + 1)).flatMap fun q =>
    match s.hart.vq[q]? with
    | some c => at' q (if q = p then c.members.take j else c.members)
    | none => []).reverse

/-- Every micro-operation of member `j` of the convoy at place `p` for which `f` holds is complete. -/
def doneBy (s : State) (p j : Nat) (f : Uop → Bool) : Bool :=
  (uopsAt s p).zipIdx.all fun v => v.1.member != j || !f v.1 || s.hart.complete.contains (p, v.2)

/-- The group of registers in which a member reads a vector register: its first register and how many it has. -/
def groupOf (d : DCtx) (m : Member) (r : Nat) : Nat × Nat :=
  ((m.sized d).find? fun g => decide (g.1 ≤ r) && decide (r < g.1 + g.2)).getD (r, 1)

/-- The bits, from the first of register `r` on, that element group `g` of a member has in a group of `n` registers from `base` (R24, R53):
first and end, each with the bits of the registers before `r` added. -/
def groupBits (s : State) (m : Member) (n g : Nat) : Nat × Nat :=
  let w := (curDctx s).ew * n
  (groupStart s m g * w, groupStart s m (g + 1) * w)

/-- What a micro-operation reads from a vector register is there (R24): every micro-operation of its producer is complete or, for a chained source, those
that write any byte of what the element group reads. -/
def sourceReady (s : State) (b : State) (p : Nat) (u : Uop) (i : Instr) (m : Member) (r : Nat) : Bool :=
  match (membersBefore s p u.member).find? fun x => ((memberOf x.2.2).map fun k => k.dsts.contains r).getD false with
  | none => true
  | some x =>
    match memberOf x.2.2, convoyAt s x.1 with
    | some k, some (a, _) =>
      let g := groupOf (curDctx b) m r
      let mine := groupBits b m g.2 u.group
      let before := (r - g.1) * 8 * vrlen b
      let meets (v : Uop) : Bool :=
        let its := groupBits a k 1 v.group
        decide (before + its.1 < mine.2) && decide (mine.1 < before + its.2)
      let bit := chained i g.1 && !(m.readsDst && m.dsts.contains r) || (bindOf b r).isSome
      doneBy s x.1 x.2.1 fun v => !bit || ownSplit i || ownSplit x.2.2 || meets v
    | _, _ => true

/-- The predicates, scale registers, summaries and tiles that a member reads, in the classes of `usesOf`; the latch is (6, 0) and `psm` (7, 0). -/
def readsOther (snap : Snap) (i : Instr) (m : Member) : List (Nat × Nat) :=
  ((((usesOf i).filter fun r => decide (2 ≤ r.1) && r != (2, 0)).diff (m.pdsts.map fun r => (2, r))).diff (fresh i)) ++
    ((narrowReads i).filter fun n => descScl (snap.fmt[n % 4]'(Nat.mod_lt _ (by decide))) != 0).map (fun n => (3, n)) ++
    (match i with
      | .mopl _ => [(6, 0)]
      | .pgetsm _ => [(7, 0)]
      | _ => [])
where
  /-- Tiles and summaries of which the member reads nothing. -/
  fresh : Instr → List (Nat × Nat)
    | .mzero f | .mld f => [(5, f.t.toNat)]
    | .mgrow f => [(5, f.t.toNat)]
    | .mrowPut f | .mcolPut f => [(5, f.t.toNat)]
    | .sdecl f => [(4, f.sd.toNat)]
    | .sld f => [(4, f.sd.toNat)]
    | _ => []

/-- The predicates, scale registers, summaries and tiles that a member writes, in the classes of `readsOther`. -/
def writesOther (i : Instr) (m : Member) : List (Nat × Nat) :=
  m.pdsts.map (fun r => (2, r)) ++ (narrowWrites i).map (fun n => (3, n)) ++
    (match i with
      | .mopa f | .mops f | .mopi f | .mopn f | .mopl f => [(5, f.t.toNat)]
      | .mrowPut f | .mcolPut f => [(5, f.t.toNat)]
      | .mld f | .mzero f => [(5, f.t.toNat)]
      | .mgrow _ => [(6, 0)]
      | .supdCms f | .supdBks f | .supdQh f | .supdMom f | .supdWes f | .smerge f | .sclr f | .sdecl f | .sst f | .sld f | .smergeM f
      | .scmt f => [(4, f.sd.toNat)]
      | _ => []) ++
    (if 0x2A ≤ bitsN (baseWord i) 2 6 ∧ bitsN (baseWord i) 2 6 < 0x2E then [(7, 0)] else [])

/-- What a micro-operation reads besides vector registers is there: every micro-operation of its producer is complete (R21). -/
def otherReady (s : State) (p : Nat) (u : Uop) (r : Nat × Nat) : Bool :=
  match (membersBefore s p u.member).find? fun x => ((memberOf x.2.2).map fun k => (writesOther x.2.2 k).contains r).getD false with
  | some x => doneBy s x.1 x.2.1 fun _ => true
  | none => true

/-- A micro-operation can issue: its convoy holds its pennant, and its operands are there (R21, R24, R39). -/
def uopReady (s : State) (a : Nat × Nat) : Bool :=
  match convoyAt s a.1, (uopsAt s a.1)[a.2]? with
  | some (b, c), some u =>
    !needsPennant c &&
      (match (c.members[u.member]?).bind fun i => (memberOf i).map fun m => (i, m) with
        | some (i, m) =>
          (readsOf (curDctx b) m).all (sourceReady s b a.1 u i m) && (readsOther b.hart.cur.snap i m).all (otherReady s a.1 u)
        | none => false)
  | _, _ => false

/-- The oldest ready micro-operation that a stall offers (R21, R53). -/
def offer (s : State) : Option (Nat × Nat) :=
  if s.hart.run ≠ .running then none
  else (renamedUops s).find? fun a => !s.hart.issued.contains a && uopReady s a

/-- A stall of the focused hart's core has a micro-operation to offer. -/
def stallOffers (s : State) (t : Nat) : Bool :=
  s.others.any fun h => h.core == s.hart.core && h.stall == t && (offer (rename { s with hart := h, others := s.hart :: s.others })).isSome

/-- The issue slot is the focused hart's: the stalls that have an offer take turns, from the one that the pointer names (R21). -/
def hasSlot (s : State) : Bool :=
  let n := 2 ^ modeOf s
  ((List.range n).map fun k => ((coreOf s s.hart.core).rr + k) % n).find? (fun t => t == s.hart.stall || stallOffers s t) == some s.hart.stall

/-- The oldest ready micro-operation of the stall issues, when the slot is its own; the round-robin pointer of the core moves on (R21, R53). -/
def execMicroOperationIssue (s : State) : Out :=
  let t := rename s
  match offer t with
  | some a =>
    if hasSlot t then
      let r := coreOf t t.hart.core
      let u := setCore t { r with rr := (t.hart.stall + 1) % 2 ^ modeOf t }
      .next { u with hart := { u.hart with issued := u.hart.issued ++ [a] } }
    else .next s
  | none => .next s

/-- Micro-operation `n` of those renamed completes; its result waits in a rename register (R53). -/
def execMicroOperationComplete (n : Nat) (s : State) : Out :=
  match (renamedUops s)[n]? with
  | some a =>
    if s.hart.run = .running ∧ s.hart.issued.contains a ∧ !s.hart.complete.contains a then
      .next { s with hart := { s.hart with complete := s.hart.complete ++ [a] } }
    else .next s
  | none => .next s

/-- The result group of a micro-operation of a convoy is poison when the convoy is performed (R123, R347). -/
def hurtUop (s : State) (p member group : Nat) : State :=
  match s.hart.vq[p]? with
  | some c => { s with hart := { s.hart with vq := s.hart.vq.set p { c with hurt := c.hurt ++ [(member, group)] } } }
  | none => s

/-- One more re-execution on a lane of the focused hart's stall, in this scrub interval: a core has 32 lanes, which its stalls share (R14, R353). -/
def countLane (s : State) (lane : Nat) : State :=
  let r := coreOf s s.hart.core
  let n := 32 / 2 ^ modeOf s
  let l := s.hart.stall * n + lane % n
  let had := ((r.reexec.find? fun q => q.1 == l).map fun q => q.2).getD 0
  setCore s { r with reexec := (l, had + 1) :: r.reexec.filter fun q => q.1 != l }

/-- Lane `n.2` of the stall re-executes micro-operation `n.1` of those renamed: masked when the re-execution passes, and a poisoned result group when it
fails again; the event is logged (R347, R348, R353). DEDUCED: log entry 55. -/
def execLaneReExecution (n : Nat × Nat) (again : Bool) (s : State) : Out :=
  match ((renamedUops s)[n.1]?).bind fun a => ((uopsAt s a.1)[a.2]?).map fun u => (a, u) with
  | some (a, u) =>
    if s.hart.run = .running ∧ s.hart.issued.contains a then
      let t := if again then hurtUop s a.1 u.member u.group else s
      .next (logError (countLane t n.2) (if again then 0x02 else 0x04) (dieOf s.hart.core) s.hart.core s.hart.pasid 0 0)
    else .next s
  | none => .next s

/-- The head convoy, whose micro-operations are all complete, retires: its results are written, its holds end, and its post and pushes
follow (R53). -/
def execConvoyRetire (s : State) : Out :=
  match s.hart.vq with
  | c :: _ => if s.hart.run = .running ∧ (List.range (uopsOf s c).length).all (fun n => s.hart.complete.contains (0, n)) then .next (headTurn s) else .next s
  | [] => .next s

/-- A pennant is taken from channel `c` (R26, R39, R79): by the head convoy, by the next access entry, or by the parked `pn.recv`. -/
def execPennantTake (c : BitVec 3) (s : State) : Out :=
  let ch := c.toNat
  match pnList s.hart ch with
  | [] => .next s
  | p :: l =>
    if s.hart.run ≠ .running then .next s
    else if ch = 0 ∨ ch = 5 then
      match s.hart.vq with
      | v :: rest =>
        if v.taken.isNone && (match v.members.head? with
            | some (.pnTake _ n) => n.toNat == ch
            | _ => false) then
          let t := pnSet s ch l
          .next { t with hart := { t.hart with vq := { v with taken := some p } :: rest } }
        else .next s
      | [] => .next s
    else if ch = 1 ∨ ch = 3 then
      match s.hart.aq.findIdx? isFresh with
      | some i =>
        match s.hart.aq[i]? with
        | some e => if takeOf e = some ch ∧ e.taken = none then .next (setEntry (pnSet s ch l) i { e with taken := some p }) else .next s
        | none => .next s
      | none => .next s
    else
      match s.hart.park, instrHere s with
      | some .pennant, some (.pnRecvCh2 f) => if ch = 2 then execPnRecvCh2 f s else .next s
      | some .pennant, some (.pnRecvCh4 f) => if ch = 4 then execPnRecvCh4 f s else .next s
      | _, _ => .next s

/-- Queued store `n` of the hart becomes visible: the oldest one of the target that serves it (R169, R312); none while the hart waits for the write-back of
a block that it wrote (R283). -/
def drainNth (s : State) (n : Nat) : State :=
  match s.hart.storeQ[n]? with
  | some st =>
    if writerStalls s s.hart || (s.hart.storeQ.take n).any fun q => targetIn s q.key == targetIn s st.key then s
    else applyStore { s with hart := { s.hart with storeQ := s.hart.storeQ.eraseIdx n } } st
  | none => s

/-- A store at the head of a store queue becomes visible at its target (R168, R169, R352). -/
def execStoreQueueDrain (n : Nat) (s : State) : Out := .next (drainNth s n)

/-- Entry `n` of the combining buffers retires: its value is applied to memory as one atomic step (R178). -/
def execCombiningEntryRetire (n : Nat) (s : State) : Out :=
  match s.combining[n]? with
  | some c => .next (retireCombine { s with combining := s.combining.eraseIdx n } c)
  | none => .next s

end

end Sys2Proof.Machine
end

