-- ==== Sys2Proof/Machine/Stops.lean ====
section
/-! DEFINITION. Stops that a leaf orders or an agent delivers, partition saves, `restore`, and the change of a core's stall mode
(R58, R59, R86 to R98). -/

namespace Sys2Proof.Machine

/-- The cause with a code (R87). -/
def causeOf (code : Nat) : Option Cause :=
  [Cause.illegal, .misalign, .tfault, .perm, .scope, .tileOff, .nonrepro, .poison, .mismatch, .sumtype, .sumpoison, .sumspace,
    .shedLost, .shedUnalloc, .quota, .pennant, .brk, .swtrap, .stream, .pasidGone, .preempt, .halt, .repartition].find?
    fun c => c.code == code

noncomputable section

/-- The boundary of the element groups of all members at or below element `e` (R93). -/
def groupFloor (b : State) (ms : List Member) (e : Nat) : Nat :=
  let n := ms.foldl (fun n m => max n (8 * groupBytes b / widest (curDctx b) m)) 1
  e / n * n

/-- Where a convoy can be cut at or below element `e`: at a boundary of the element groups and of the scaled blocks of all members (R93, R136). -/
def cutPlace (b : State) (ms : List Member) (e : Nat) : Nat := stopBoundary (curDctx b) ms b.hart.cur.vstart (groupFloor b ms e)

/-- The operands of a `vwait`. -/
def waitOp : Instr → Option OpVA
  | .vwaitEq f | .vwaitNe f | .vwaitGe f | .vwaitLt f | .vwaitGen f | .vwaitLtn f => some f
  | _ => none

/-- The lowest active element whose location a `vwait` of the convoy has not observed to satisfy its condition; an element outside the scope is not
performed (R174, R179). -/
def waitedTo (b : State) (c : Convoy) : Nat :=
  c.members.zipIdx.foldl (fun k x =>
    match waitOp x.1 with
    | some f =>
      let t := runMembers b ((c.members.take x.2).filterMap memberOf)
      let waits (e : Nat) : Bool :=
        decide (b.hart.cur.vstart ≤ e) && active t f.pred.toNat e && !c.waited.contains (x.2 * 65536 + e) &&
          (match atomReach t t f .load e with
            | (_, .missed, _) => false
            | _ => true)
      (((List.range k).find? waits).getD k)
    | none => k) b.hart.cur.vl

/-- The lowest element whose micro-operation is not complete (R93); of a convoy whose `vwait` has been waiting at the head of the queue, the
lowest that it has not observed to satisfy its condition (R179). When all are complete and the convoy has not retired, no element is named, and the
convoy is done again from `vstart`. DESIGN CHOICE: log entry 92. -/
def preemptIndex (s : State) (c : Convoy) : Nat :=
  let us := uopsOf s c
  let left := (List.range us.length).filter fun n => !s.hart.complete.contains (0, n)
  let k := match left with
    | [] => s.hart.vstart
    | _ => left.foldl (fun k n => min k (((us[n]?).map fun u => u.elem).getD k)) (c.setVl.getD (s.hart.vl, s.hart.vtype)).1
  if c.waited.isEmpty then k
  else
    let b := beginConvoy s c
    max k (groupFloor b (c.members.filterMap memberOf) (waitedTo b c))

/-- What performing the members of a convoy below an element gives: their results up to the element that could be reached, or a condition. -/
inductive CutRun where
  | upTo (r : State) (k : Nat)
  | fault (r : State) (k j : Nat) (t : Trap)

/-- Perform the members below element `k`; where one of them waits, below the element at which it waits (R93). -/
def cutRun (b : State) (ms : List Member) : Nat → Nat → CutRun
  | 0, _ => .upTo b b.hart.cur.vstart
  | fuel + 1, k =>
    if k ≤ b.hart.cur.vstart then .upTo b b.hart.cur.vstart
    else
      let r := runMembers { b with hart := { b.hart with cur := { b.hart.cur with stop := some k } } } ms
      if r.hart.cur.wait.isSome then cutRun b ms fuel (min (k - 1) (cutPlace b ms r.hart.cur.waitAt))
      else
        match r.hart.cur.fault with
        | some (e, j, t) => .fault r e j t
        | none => .upTo r k

/-- The head convoy has been stopped at element `k` with no member at fault: what its members have done below it stands, and it keeps its posted
`vl` and `vtype`; a whole convoy is discarded, but for the checks of linked loads that its issued micro-operations have made (R90, R91, R93, R345). -/
def cutAt (s : State) (c : Convoy) (ms : List Member) (b r : State) (k : Nat) : State :=
  let whole := ms.any fun m => m.whole
  let none' := whole || decide (k ≤ s.hart.vstart)
  let p := if whole && s.hart.issued.any (fun a => a.1 == 0) then ms.foldl keepRelease (b, s) else (if none' then b else r, s)
  let c' := stoppedConvoy c none' (b.hart.cur.vl, b.hart.cur.vtype) r.hart.cur.parts p.1.hart.cur.passed c.taken
  let r := if none' then p.2 else r
  { r with hart := { uncommit r.hart with
      vq := c' :: s.hart.vq.drop 1, streams := s.hart.streams, aq := s.hart.aq, pennants := s.hart.pennants, cur := s.hart.cur,
      pins := if whole then s.hart.pins else dropPins k s.hart.pins } }

/-- How far a stop cuts the head convoy (R93): its members, the state in which they begin, and what performing them gives. -/
def cutHead (s : State) (c : Convoy) : List Member × State × CutRun :=
  let b := beginConvoy s c
  let ms := c.members.filterMap memberOf
  let k := if ms.any fun m => m.whole then 0 else stopBoundary (curDctx b) ms s.hart.vstart (preemptIndex s c)
  (ms, b, cutRun b ms (ms.length + 2) k)

/-- The stores and the combining updates of every hart to the focused hart's scratchpad have been performed: its partition holds them (R93, R96). -/
def settlePartition (s : State) : State :=
  let mine (k : Nat) : Bool := isSpadKey k && (k - 2 ^ 57) / 2 ^ 21 == s.hart.core
  retireWhere (eachHart s (drainWhere mine)) fun c => mine c.key

/-- The sequencer is parked in `gbar`, `wm.wait`, `pn.recv` or `jwait` (R80). -/
def parkedHere (s : State) : Bool :=
  s.hart.park.isSome &&
    (match instrHere s with
      | some (.gbar _) | some (.wmWait _ _) | some (.pnRecvCh2 _) | some (.pnRecvCh4 _) | some (.jwait _) => true
      | _ => false)

/-- A hart is stopped with PREEMPT, REPARTITION or PASID_GONE, charged to no instruction (R86, R93). A pre-emption that meets a trap condition of
the convoy that it cuts gives way to it, and the request stays pending with the leaf (R88). `epc` is the parked instruction when the sequencer is
parked (R80), and otherwise the oldest convoy. DEDUCED: log entry 99. -/
def stopHart (s : State) (t : Trap) : State :=
  match s.hart.vq with
  | [] =>
    let s := roleFor s s.hart.pc
    takeStop (settlePartition s) .none t s.hart.pc s.hart.pc 0 s.hart.vstart 0 0
  | c :: _ =>
    let s := roleFor s c.addr
    let epc := if parkedHere s then s.hart.pc else c.addr
    match cutHead s c with
    | (ms, b, .fault r e j tr) =>
      if t.cause = .preempt then
        let u := stopConvoy s c ms e j tr r.hart.cur.taken r.hart.pennants r.hart.cur.blame
        { u with leaf := u.leaf ++ [.preemptPending s.hart.gangid s.hart.hartid] }
      else takeStop (settlePartition (cutAt s c ms b b s.hart.vstart)) .none t epc s.hart.pc 0 s.hart.vstart 0 0
    | (ms, b, .upTo r k) =>
      let k := if ms.any fun m => m.whole then 0 else k
      takeStop (settlePartition (cutAt s c ms b r k)) .none t epc s.hart.pc 0 k 0 0

/-- The leaf pre-empts the hart (R93). DEDUCED: log entry 54. -/
def execPreempt (s : State) : Out :=
  if s.hart.run = .running then
    .next (stopHart { s with leaf := s.leaf.erase (.preemptPending s.hart.gangid s.hart.hartid) } ⟨.preempt, 0⟩)
  else .next s

/-- The head convoy of a hart that the sequencer or the access queue has stopped is cut as for a pre-emption; a condition that it meets arises again
after `restore` (R60, R88, R92). -/
def cutLate (s : State) : State × Nat :=
  match s.hart.vq with
  | [] => (s, s.hart.vstart)
  | c :: _ =>
    let s := roleFor s c.addr
    match cutHead s c with
    | (ms, b, .upTo r k) => (cutAt s c ms b r k, if ms.any fun m => m.whole then 0 else k)
    | (ms, b, .fault _ e _ _) =>
      match cutRun b ms (ms.length + 2) (cutPlace b ms e) with
      | .upTo r k => (cutAt s c ms b r k, k)
      | .fault _ _ _ _ => (cutAt s c ms b b s.hart.vstart, s.hart.vstart)

/-- A stopped hart whose save has waited goes on with it: its head convoy is cut when that is still to be done, and the frame is saved (R60, R86, R94, R279). -/
def finishStop (s : State) : State :=
  match s.hart.stop with
  | some p =>
    if s.hart.run ≠ .stopped ∨ !p.unsaved then s
    else
      let r := if s.hart.complete.any fun u => u.1 == 0 then cutLate s else (s, s.hart.vstart)
      let t := if p.spad then settlePartition r.1 else r.1
      let t := { t with hart := { t.hart with vstart := r.2 } }
      saveFrame t { p with
        vstart := if p.queue = .access then 0 else r.2, stands := r.2, vdirty := t.hart.vdirty, sdirty := t.hart.sdirty, mdirty := t.hart.mdirty }
  | none => s

/-- A trap or stop is delivered (R86, R88): to the convoy at the head of the vector queue or to the oldest access entry when `epc` names
it, and otherwise to the sequencer's instruction. MISMATCH stops at element `tval` and poisons the summaries that the convoy updates
(R351). A code that R87 does not list is never delivered (log entry 7). -/
def execTrapDelivery (cause : BitVec 8) (tval epc : Word) (member : BitVec 2) (s : State) : Out :=
  match causeOf cause.toNat with
  | none => .next s
  | some c =>
    let t : Trap := ⟨c, tval⟩
    if s.hart.run ≠ .running then .next s
    else if c = .preempt ∨ c = .repartition then .next (stopHart s ⟨c, 0⟩)
    else if c = .pasidGone then .next (stopHart s t)
    else
      match s.hart.vq, s.hart.aq with
      | v :: _, _ =>
        if v.addr = epc then
          let s := roleFor s v.addr
          let k := if c = .mismatch then max s.hart.vstart tval.toNat else s.hart.vstart
          .next (stopConvoy s v (v.members.filterMap memberOf) k member.toNat t v.taken s.hart.pennants none)
        else .next (takeStop (logMismatch s t) .sequencer t epc s.hart.pc member.toNat s.hart.vstart 0 0)
      | [], e :: _ =>
        if e.addr = epc then .next (takeStop (logMismatch s t) .access t epc s.hart.pc 0 s.hart.vstart 0 0)
        else .next (takeStop (logMismatch s t) .sequencer t epc s.hart.pc member.toNat s.hart.vstart 0 0)
      | [], [] => .next (takeStop (logMismatch s t) .sequencer t epc s.hart.pc member.toNat s.hart.vstart 0 0)

/-- What the twins' compare of queued store `n` leaves when it fails again: that store and the later ones of its convoy are not performed, and both twins
trap MISMATCH with the element, or with 0 for a scalar store (R351, R352). The convoy has retired, so the head convoy stays as it is. DEDUCED:
log entry 116. -/
def squashStore (s : State) (n : Nat) : State :=
  match s.hart.storeQ[n]? with
  | none => s
  | some st =>
    let vec := st.queue == .vector
    let rest := s.hart.storeQ.drop (n + 1)
    let t : Trap := ⟨.mismatch, W (if vec then st.elem else 0)⟩
    let sums := if vec then (gotInstrs (gather s st.conv 4).2.1).filterMap updatedSum else []
    let s := { s with hart := { s.hart with
      storeQ := s.hart.storeQ.take n ++ if vec then rest.dropWhile fun q => q.queue == .vector && q.conv == st.conv else rest } }
    let s := sums.foldl (fun s m =>
      dirtyS { s with hart := { s.hart with
        sums := s.hart.sums.set (m % 16) ((s.hart.sums[m % 16]'(Nat.mod_lt _ (by decide))).map poisonSum) (Nat.mod_lt _ (by decide)) } } m) (logMismatch s t)
    takeStop s (if vec then .vector else .sequencer) t (if vec then st.conv else s.hart.pc) s.hart.pc 0 s.hart.vstart 0 0

/-! ### Partition save and restore (R96, R97) -/

/-- The stopped hart writes its scratchpad partition into its frame, and sets SPAD in the header (R96); nothing is written when a page
of the frame faults (R94), or while one is in migration (R279). -/
def execPartitionSave (s : State) : Out :=
  match s.hart.stop with
  | none => .next s
  | some p =>
    if p.spad ∨ p.unsaved ∨ p.faulted.isSome ∨ s.hart.run ≠ .stopped ∨ s.hart.cause.toNat = 0x14 then .next s
    else
      match frameWalk (settlePartition s) 2048 p.frame (framesz s) with
      | (_, some .stall) => .next s
      | (t, some (.fault tr)) =>
        .next { t with hart := { t.hart with stop := some { p with faulted := some tr } },
                       leaf := t.leaf ++ [.frameFault t.hart.gangid t.hart.hartid tr] }
      | (t, none) =>
        let q := { p with spad := true }
        let copy := partitionCopy t
        let t := frameWrite t (p.frame + 0x2F) 1 ((if q.spad then 1 else 0) + (if q.arrived then 2 else 0) + (if t.hart.prot then 4 else 0))
        .next { t with hart := { t.hart with stop := some q, spad := some copy },
                       leaf := t.leaf ++ [.partitionSaved t.hart.gangid t.hart.hartid] }

/-- FRAMESZ of a frame from its VRLEN: 0x440 bytes for each byte of the stall's register length (R94). -/
def frameszOf (h : Hart) (p : Stop) : Nat := p.vrl * (if h.prot then 2 else 1) * 0x440

/-- The frame's header as memory holds it: none inside when it cannot be read, and none while its page is in migration. -/
def headerBytes (s : State) (p : Stop) : Option (Option Nat) :=
  match hartSpan s p.frame 256 .load with
  | (t, .ok l) => some (some (spanReadMem t l))
  | (_, .trap _) => some none
  | (_, .stall) => none

/-- The header differs from what the save wrote in nothing but RPC, and in RPC only for QUEUE = 0 (R97). -/
def headerKept (h : Hart) (p : Stop) (v : Nat) : Bool :=
  v == headerOf h { p with rpc := if p.queue = .sequencer then W (bitsN v 128 64) else p.rpc } p.vrl (frameszOf h p)

/-- A frame that no stall can restore: a header field other than those that may change has changed, the opaque part fails its check, or the PASID has
been torn down (R97). -/
def frameBroken (s : State) (p : Stop) (v : Option Nat) : Bool :=
  !((v.map (headerKept s.hart p)).getD false) || opaqueCells s p.frame (frameszOf s.hart p) != p.opaquePart ||
    (contextOf s s.hart.pasid).state != 1

/-- A window's table moves with the partition that holds it (R96, R183). -/
def moveWindow (s : State) (p : Stop) (core stall : Nat) (w : Window) : Window :=
  let n := 2 ^ 21 / 2 ^ (coreOf s core).cur
  { w with table := W (w.table.toNat + stall * n - p.stall * n) }

/-- Reload the scratchpad partition into the target's stall (R96, R97). -/
def loadPartition (s : State) (c : SpadCopy) : State :=
  let k := partKey s
  { s with
    mem := c.cells.foldl (fun m x => Memory.write m (k + x.1) x.2) (Memory.clear s.mem k (partBytes s)),
    poison := c.poison.foldl (fun l g => insertN (granule k + g) l)
      (s.poison.filter fun g => !(decide (granule k ≤ g) && decide (g < granule k + partBytes s / 8))) }

/-- The translation that faulted is pinned when a hart resumes after TFAULT or PERM (R98): until the element of the member that the stop
names completes; for a whole convoy until it retires; for an entry until its unit has been delivered; for an instruction of the sequencer until it has
completed. DEDUCED: log entry 53. -/
def pinFault (s : State) (p : Stop) : State :=
  if s.hart.cause.toNat = 3 ∨ s.hart.cause.toNat = 4 then
    match locate s s.hart.pasid (W (s.hart.tval.toNat / 4096 * 4096)) .load with
    | .ok h =>
      let whole := ((s.hart.vq.head?).map fun c => (c.members.filterMap memberOf).any fun m => m.whole).getD true
      let pin : Pin := {
        page := s.hart.tval.toNat / 4096, queue := p.queue, pte := h.pte, pteAt := h.pteAt, level := h.level,
        until' := if p.queue ≠ .vector ∨ whole then none else some (s.hart.member.toNat, p.vstart),
        past := if p.queue = .sequencer then some s.hart.instret else none }
      { s with hart := { s.hart with pins := pin :: s.hart.pins } }
    | _ => s
  else s

/-- A hart takes a stall: it has started and its gang has not ended; a stopped hart whose frame holds its partition does not need it. DEDUCED: log entry 56. DEDUCED: log entry 63. -/
def takesStall (h : Hart) (c t : Nat) : Bool :=
  h.stall == t && (h.core == c || h.duplex && h.core + 1 == c) &&
  (match h.run with
    | .idle => false
    | .ended => false
    | .stopped => !((h.stop.map fun p => p.spad).getD false)
    | _ => true)

/-- A stall of a core is free. -/
def stallFree (s : State) (c t : Nat) : Bool := !((harts s).any fun h => takesStall h c t)

/-- A core has no hart. -/
def coreIdle (s : State) (c : Nat) : Bool := (List.range 4).all fun t => stallFree s c t

/-- A selected launch is bound to a stall of a core (R326). -/
def boundStall (s : State) (c st : Nat) : Bool := s.launches.any fun l => l.phase == .selected && l.places.contains (c, st)

/-- A selected launch is bound to a core. -/
def boundCore (s : State) (c : Nat) : Bool := (List.range 4).any (boundStall s c)

/-- Another hart takes the stall that a hart is to be restored into, or its twin's place, or a launch is bound to it (R96, R326, R352). -/
def stallTaken (s : State) (c st : Nat) : Bool :=
  (s.others.any fun h => takesStall h c st || s.hart.duplex && takesStall h (c + 1) st) || boundStall s c st || s.hart.duplex && boundStall s (c + 1) st

/-- `restore` of the focused hart into a stall (R97); `rpc` is what the leaf writes to RPC of the frame before. A refusal leaves the frame as it was,
and the leaf is told. A hart whose frame was not saved, a stall that another hart takes, a
compute die without power, or a frame page in migration, changes nothing (log entry 7). DEDUCED: log entry 84. -/
def execRestore (core : BitVec 8) (stall : BitVec 2) (rpc : Option Word) (s : State) : Out :=
  match s.hart.stop with
  | none => .next s
  | some p =>
    let c := core.toNat
    let st := stall.toNat
    if s.hart.run ≠ .stopped ∨ p.unsaved ∨ p.faulted.isSome ∨ s.hart.cause.toNat = 0x14 ∨ stallTaken s c st = true ∨
        2 ^ (coreOf s c).cur ≤ st ∨ 192 ≤ c ∨ !s.dev.computeOn then .next s
    else
      match headerBytes s p with
      | none => .next s
      | some v =>
        if frameBroken s p v = true ∨ p.vrl ≠ vrlenIn (coreOf s c).cur s.hart.prot ∨ (!p.spad ∧ ¬(p.core = c ∧ p.stall = st)) ∨
            (rpc.isSome ∧ p.queue ≠ .sequencer) then
          .next { s with leaf := s.leaf ++ [.refused s.hart.gangid s.hart.hartid] }
        else
          let h := (pinFault s p).hart
          let h := { h with win := Vector.ofFn fun i => (h.win[i]).map (moveWindow s p c st) }
          let t := match rpc with
            | none => s
            | some r => frameWrite s (p.frame + 0x10) 8 r.toNat
          let t := { t with hart := { resumeHart h p (rpc.getD (W (bitsN (v.getD 0) 128 64))) with core := c, stall := st } }
          let t := match s.hart.spad with
            | some copy => loadPartition t copy
            | none => t
          .next (match s.hart.lostAt with
            | some va => takeLost { t with hart := { t.hart with lostAt := none } } va
            | none => t)

/-! ### The stall mode (R58, R59) -/

/-- A stopped hart whose save waits for a page in migration. -/
def saveWaits (h : Hart) : Bool := h.run == .stopped && (h.stop.map fun p => p.unsaved).getD false

/-- A hart has given its stall up: an absorbed one, or one whose partition its frame holds (R59, R96). -/
def gaveUp (h : Hart) : Bool :=
  partitionMoved h || h.run == .stopped && h.cause.toNat == 0x22 && !saveWaits h || h.run == .halted && decide (4 ≤ h.stall)

/-- A hart runs on a core: on its own, or as the twin of a duplex hart (R352). -/
def runsOn (h : Hart) (c : Nat) : Bool := h.core == c || h.duplex && h.core + 1 == c

/-- Harts that serve a stall of a core. -/
def coreHarts (s : State) (c : Nat) : List Hart := (harts s).filter fun h => runsOn h c && h.run != .idle && h.run != .ended && !gaveUp h

/-- A gang permits repartition (R322). -/
def mayRepartition (s : State) (h : Hart) : Bool := ((gangOf s h).map fun g => g.repart).getD false

/-- The leaf sets a pending mode for the core of the focused hart (R58): never the current one, and only when every running hart of the
core permits it, and not while a launch is bound to the core (R326). A request replaces a mode that is pending. DESIGN CHOICE: log entry 89. -/
def execStallModeRequest (mode : BitVec 2) (s : State) : Out :=
  let r := coreOf s s.hart.core
  if mode.toNat = 3 ∨ mode.toNat = r.cur ∨ boundCore s s.hart.core = true ∨ ((coreHarts s s.hart.core).all fun h => h.run != .running || mayRepartition s h) = false then .next s
  else .next (setCore s { r with pend := some mode.toNat })

/-- A hart that has decoded a `vsl` under a pending mode and whose queues are empty has arrived (R58). -/
def execArrival (s : State) : Out :=
  match instrHere s with
  | some (.vsl f) =>
    if s.hart.run = .running ∧ (coreOf s s.hart.core).pend.isSome ∧ queuesEmpty s.hart ∧ !anyHeld s [f.a, f.d] then .next (wait s .vsl)
    else .next s
  | _ => .next s

/-- Harts of a core that wait at a `vsl` execute it. -/
def freeVsl (s : State) (c : Nat) : State :=
  mapHarts s fun h => if runsOn h c ∧ (h.park = some .vsl ∨ h.park = some .drain) then { h with park := none, again := false } else h

/-- The leaf withdraws the pending mode of the core (R58). -/
def execPendingModeWithdraw (s : State) : Out :=
  .next (freeVsl (setCore s { coreOf s s.hart.core with pend := none }) s.hart.core)

/-- A hart has arrived at its core's switch: a pre-empted one has also saved its frame (R58, R93). -/
def hasArrived (h : Hart) : Bool :=
  match h.run with
  | .running => h.park == some .vsl
  | .halted => true
  | .stopped => h.cause.toNat == 0x20 && !saveWaits h
  | _ => true

/-- The stall on which a hart continues after a switch; none when it is absorbed (R59). -/
def stallAfter (old new stall : Nat) : Option Nat :=
  if old ≤ new then some (stall * 2 ^ (new - old))
  else if stall % 2 ^ (old - new) = 0 then some (stall / 2 ^ (old - new)) else none

/-- Keep the low `n` bits. -/
def keepBits {w : Nat} (v : BitVec w) (n : Nat) : BitVec w := v &&& BitVec.ofNat w (2 ^ n - 1)

/-- Summary registers are kept in order while their footprints fit a share (R59). -/
def keepSums (share : Nat) (l : List (Option Summary)) : List (Option Summary) :=
  (l.foldl (fun (a : List (Option Summary) × Nat) x =>
    match x with
    | some m => if a.2 + footprint m ≤ share then (a.1 ++ [some m], a.2 + footprint m) else (a.1 ++ [none], a.2)
    | none => (a.1 ++ [none], a.2)) ([], 0)).1

/-- The open stream records that a switch closes: those whose ring does not lie in the new partition (R59). -/
def closedRings (new : Nat) (h : Hart) : List Stream := h.streams.filter fun r => decide (2 ^ 21 / 2 ^ new < r.rbase + r.rbytes)

/-- A continuing hart after the switch (R59, R186). The class-Q registers that the rule does not name (`ffidx`, `tgrant`, `mflags`, `vtype`) are kept,
and so are the bytes of copies that are lost. DESIGN CHOICE: log entry 90. DESIGN CHOICE: log entry 118. -/
def continueHart (old new : Nat) (h : Hart) : Hart :=
  let l := min (vrlenIn old h.prot) (vrlenIn new h.prot)
  let part := 2 ^ 21 / 2 ^ new
  let tiles := 4 / 2 ^ new
  let keep (r : Stream) : Bool := decide (r.rbase + r.rbytes ≤ part)
  let closed := (closedRings new h).map fun r => r.handle
  let gone (b : Nat × Bind) : Bool := match b.2 with
    | .stream n => closed.contains n
    | .window _ => false
  let dead := (h.binds.filter gone).map fun b => b.1
  let zero (n : Nat) : Bool := dead.contains n
  let sums := keepSums (1572864 / 2 ^ new) h.sums.toList
  { h with
    stall := (stallAfter old new h.stall).getD h.stall,
    v := Vector.ofFn fun i => if zero i then 0 else keepBits h.v[i] (8 * l),
    vp := Vector.ofFn fun i => if zero i then 0 else keepBits h.vp[i] (4 * l),
    p := Vector.ofFn fun i => if i.val = 0 then h.p[i] else keepBits h.p[i] (4 * l),
    pp := Vector.ofFn fun i => keepBits h.pp[i] (4 * l),
    psm := keepBits h.psm (4 * l),
    k := Vector.ofFn fun i => keepBits h.k[i] (2 * l),
    kp := Vector.ofFn fun i => keepBits h.kp[i] (l / 4),
    latch := { val := 0, cells := 0 }, lr := 0,
    tile := Vector.ofFn fun i => if i.val < min (4 / 2 ^ old) tiles then h.tile[i] else Tile.zero,
    tilen := h.tilen &&& W (2 ^ tiles - 1),
    sums := Vector.ofFn fun i => (sums[i.val]?).getD none,
    win := Vector.replicate 4 none,
    streams := h.streams.filter keep,
    binds := h.binds.filter fun b => !gone b,
    bound := h.bound.filter fun b => !gone b,
    vl := 0, vstart := 0, pend := none, vdirty := 0xFFFFFFFF, sdirty := 0xFFFF, mdirty := 0xF,
    splice := h.splice.map fun sp => { sp with other := { sp.other with vl := 0, vstart := 0, pend := none } },
    park := none, again := false }

/-- The scratchpad ranges that survive a switch: what lies in the old and the new share of each continuing hart (R59). -/
def keptRanges (s : State) (c old new : Nat) : List (Nat × Nat) :=
  (coreHarts s c).filterMap fun h => (stallAfter old new h.stall).map fun n =>
    (spadKey c + n * (2 ^ 21 / 2 ^ new), min (2 ^ 21 / 2 ^ old) (2 ^ 21 / 2 ^ new))

/-- The rings of the records that a switch closes, as scratchpad ranges: they read zero (R59, R251). -/
def closedRanges (s : State) (c old new : Nat) : List (Nat × Nat) :=
  (coreHarts s c).flatMap fun h => (closedRings new h).map fun r => (spadKey c + h.stall * (2 ^ 21 / 2 ^ old) + r.rbase, r.rbytes)

/-- Every other byte of the core's scratchpad reads zero. -/
def clearLost (s : State) (c old new : Nat) : State :=
  let within (l : List (Nat × Nat)) (k : Nat) : Bool := l.any fun r => decide (r.1 ≤ k) && decide (k < r.1 + r.2)
  let inKept (k : Nat) : Bool := within (keptRanges s c old new) k && !within (closedRanges s c old new) k
  let mine (k : Nat) : Bool := decide (spadKey c ≤ k) && decide (k < spadKey c + 2 ^ 21)
  { s with mem := s.mem.filter fun x => !mine x.1 || inKept x.1,
           poison := s.poison.filter fun g => !(decide (granule (spadKey c) ≤ g) && decide (g < granule (spadKey c) + 2 ^ 18)) ||
             inKept (8 * (g - 2 ^ 60)) }

/-- A halted hart gives up its stall (R59). -/
def leaveStall (h : Hart) : Hart := { h with stall := 4, streams := [], win := Vector.replicate 4 none }

/-- One hart of the core at the switch: an absorbed one that runs stops with REPARTITION, and one that has halted gives up its stall (R59). -/
def absorbOne (c old new : Nat) (s : State) : State :=
  if runsOn s.hart c ∧ s.hart.run = .running ∧ stallAfter old new s.hart.stall = none then
    stopHart { s with hart := { s.hart with park := none } } ⟨.repartition, 0⟩
  else if runsOn s.hart c ∧ s.hart.run = .halted ∧ stallAfter old new s.hart.stall = none then { s with hart := leaveStall s.hart }
  else s

/-- The core switches modes in one step once every hart of it has arrived (R58, R59): absorbed harts stop, continuing harts keep what R59
lists, and the mode is the new one. The switch waits while the frame of an absorbed hart cannot be saved for a page in migration. A duplex hart
counts at both of its cores, and each core switches by itself. DEDUCED: log entry 57. DEDUCED: log entry 58. DESIGN CHOICE: log entry 117. -/
def switchMode (s : State) : State :=
  let c := s.hart.core
  let r := coreOf s c
  match r.pend with
  | some new =>
    if (coreHarts s c).all hasArrived then
      let t := asHart s (fun h => h.core == c) settlePartition
      let t := eachHart t (absorbOne c r.cur new)
      if (harts t).any fun h => runsOn h c && saveWaits h then s
      else
        let t := clearLost t c r.cur new
        let t := mapHarts t fun h => if runsOn h c ∧ (h.run = .running ∨ h.run = .halted) ∧ !gaveUp h then continueHart r.cur new h else h
        setCore t { r with cur := new, pend := none }
    else s
  | none => s

end

end Sys2Proof.Machine
end

