-- ==== Sys2Proof/Machine/Rename.lean ====
section
/-! DEFINITION. The renumbering of the registers of an instruction in a splice, class by class (R337). -/

namespace Sys2Proof.Machine

noncomputable section

/-- The registers that must be even where an instruction names them: the first of a pair (R36, R149, R188, R240). -/
def evenOf : Instr → List (Nat × Nat)
  | .ldPr f => [(0, f.d.toNat)]
  | .stPr f => [(0, f.d.toNat)]
  | .vldc f => [(0, f.a.toNat)]
  | .vstc f => [(0, f.a.toNat)]
  | .sqBksItems f => [(1, f.b.toNat)]
  | .mopa f | .mops f | .mopi f | .mopn f => if f.us then [(3, f.ks.toNat)] else []
  | .mopl f => if f.us then [(3, f.ks.toNat)] else []
  | _ => []

/-- Rewrite every register field of an instruction through a mapping (R337). -/
def renameInstr (mp : Nat → Nat → Nat) : Instr → Instr
  | .add f => .add { f with a := .ofNat 5 (mp 0 f.a.toNat), b := .ofNat 5 (mp 0 f.b.toNat), d := .ofNat 5 (mp 0 f.d.toNat) }
  | .sub f => .sub { f with a := .ofNat 5 (mp 0 f.a.toNat), b := .ofNat 5 (mp 0 f.b.toNat), d := .ofNat 5 (mp 0 f.d.toNat) }
  | .and f => .and { f with a := .ofNat 5 (mp 0 f.a.toNat), b := .ofNat 5 (mp 0 f.b.toNat), d := .ofNat 5 (mp 0 f.d.toNat) }
  | .or f => .or { f with a := .ofNat 5 (mp 0 f.a.toNat), b := .ofNat 5 (mp 0 f.b.toNat), d := .ofNat 5 (mp 0 f.d.toNat) }
  | .xor f => .xor { f with a := .ofNat 5 (mp 0 f.a.toNat), b := .ofNat 5 (mp 0 f.b.toNat), d := .ofNat 5 (mp 0 f.d.toNat) }
  | .sll f => .sll { f with a := .ofNat 5 (mp 0 f.a.toNat), b := .ofNat 5 (mp 0 f.b.toNat), d := .ofNat 5 (mp 0 f.d.toNat) }
  | .srl f => .srl { f with a := .ofNat 5 (mp 0 f.a.toNat), b := .ofNat 5 (mp 0 f.b.toNat), d := .ofNat 5 (mp 0 f.d.toNat) }
  | .sra f => .sra { f with a := .ofNat 5 (mp 0 f.a.toNat), b := .ofNat 5 (mp 0 f.b.toNat), d := .ofNat 5 (mp 0 f.d.toNat) }
  | .slt f => .slt { f with a := .ofNat 5 (mp 0 f.a.toNat), b := .ofNat 5 (mp 0 f.b.toNat), d := .ofNat 5 (mp 0 f.d.toNat) }
  | .sltn f => .sltn { f with a := .ofNat 5 (mp 0 f.a.toNat), b := .ofNat 5 (mp 0 f.b.toNat), d := .ofNat 5 (mp 0 f.d.toNat) }
  | .min f => .min { f with a := .ofNat 5 (mp 0 f.a.toNat), b := .ofNat 5 (mp 0 f.b.toNat), d := .ofNat 5 (mp 0 f.d.toNat) }
  | .max f => .max { f with a := .ofNat 5 (mp 0 f.a.toNat), b := .ofNat 5 (mp 0 f.b.toNat), d := .ofNat 5 (mp 0 f.d.toNat) }
  | .minn f => .minn { f with a := .ofNat 5 (mp 0 f.a.toNat), b := .ofNat 5 (mp 0 f.b.toNat), d := .ofNat 5 (mp 0 f.d.toNat) }
  | .maxn f => .maxn { f with a := .ofNat 5 (mp 0 f.a.toNat), b := .ofNat 5 (mp 0 f.b.toNat), d := .ofNat 5 (mp 0 f.d.toNat) }
  | .mul f => .mul { f with a := .ofNat 5 (mp 0 f.a.toNat), b := .ofNat 5 (mp 0 f.b.toNat), d := .ofNat 5 (mp 0 f.d.toNat) }
  | .mulh f => .mulh { f with a := .ofNat 5 (mp 0 f.a.toNat), b := .ofNat 5 (mp 0 f.b.toNat), d := .ofNat 5 (mp 0 f.d.toNat) }
  | .mulhn f => .mulhn { f with a := .ofNat 5 (mp 0 f.a.toNat), b := .ofNat 5 (mp 0 f.b.toNat), d := .ofNat 5 (mp 0 f.d.toNat) }
  | .div f => .div { f with a := .ofNat 5 (mp 0 f.a.toNat), b := .ofNat 5 (mp 0 f.b.toNat), d := .ofNat 5 (mp 0 f.d.toNat) }
  | .divn f => .divn { f with a := .ofNat 5 (mp 0 f.a.toNat), b := .ofNat 5 (mp 0 f.b.toNat), d := .ofNat 5 (mp 0 f.d.toNat) }
  | .rem f => .rem { f with a := .ofNat 5 (mp 0 f.a.toNat), b := .ofNat 5 (mp 0 f.b.toNat), d := .ofNat 5 (mp 0 f.d.toNat) }
  | .remn f => .remn { f with a := .ofNat 5 (mp 0 f.a.toNat), b := .ofNat 5 (mp 0 f.b.toNat), d := .ofNat 5 (mp 0 f.d.toNat) }
  | .addw f => .addw { f with a := .ofNat 5 (mp 0 f.a.toNat), b := .ofNat 5 (mp 0 f.b.toNat), d := .ofNat 5 (mp 0 f.d.toNat) }
  | .subw f => .subw { f with a := .ofNat 5 (mp 0 f.a.toNat), b := .ofNat 5 (mp 0 f.b.toNat), d := .ofNat 5 (mp 0 f.d.toNat) }
  | .clz f => .clz { f with a := .ofNat 5 (mp 0 f.a.toNat), d := .ofNat 5 (mp 0 f.d.toNat) }
  | .ctz f => .ctz { f with a := .ofNat 5 (mp 0 f.a.toNat), d := .ofNat 5 (mp 0 f.d.toNat) }
  | .popc f => .popc { f with a := .ofNat 5 (mp 0 f.a.toNat), d := .ofNat 5 (mp 0 f.d.toNat) }
  | .addi f => .addi { f with a := .ofNat 5 (mp 0 f.a.toNat), d := .ofNat 5 (mp 0 f.d.toNat) }
  | .andi f => .andi { f with a := .ofNat 5 (mp 0 f.a.toNat), d := .ofNat 5 (mp 0 f.d.toNat) }
  | .ori f => .ori { f with a := .ofNat 5 (mp 0 f.a.toNat), d := .ofNat 5 (mp 0 f.d.toNat) }
  | .xori f => .xori { f with a := .ofNat 5 (mp 0 f.a.toNat), d := .ofNat 5 (mp 0 f.d.toNat) }
  | .slli f => .slli { f with a := .ofNat 5 (mp 0 f.a.toNat), d := .ofNat 5 (mp 0 f.d.toNat) }
  | .srli f => .srli { f with a := .ofNat 5 (mp 0 f.a.toNat), d := .ofNat 5 (mp 0 f.d.toNat) }
  | .srai f => .srai { f with a := .ofNat 5 (mp 0 f.a.toNat), d := .ofNat 5 (mp 0 f.d.toNat) }
  | .slti f => .slti { f with a := .ofNat 5 (mp 0 f.a.toNat), d := .ofNat 5 (mp 0 f.d.toNat) }
  | .sltni f => .sltni { f with a := .ofNat 5 (mp 0 f.a.toNat), d := .ofNat 5 (mp 0 f.d.toNat) }
  | .ldI8 f => .ldI8 { f with a := .ofNat 5 (mp 0 f.a.toNat), d := .ofNat 5 (mp 0 f.d.toNat) }
  | .ldI16 f => .ldI16 { f with a := .ofNat 5 (mp 0 f.a.toNat), d := .ofNat 5 (mp 0 f.d.toNat) }
  | .ldI32 f => .ldI32 { f with a := .ofNat 5 (mp 0 f.a.toNat), d := .ofNat 5 (mp 0 f.d.toNat) }
  | .ldI64 f => .ldI64 { f with a := .ofNat 5 (mp 0 f.a.toNat), d := .ofNat 5 (mp 0 f.d.toNat) }
  | .ldN8 f => .ldN8 { f with a := .ofNat 5 (mp 0 f.a.toNat), d := .ofNat 5 (mp 0 f.d.toNat) }
  | .ldN16 f => .ldN16 { f with a := .ofNat 5 (mp 0 f.a.toNat), d := .ofNat 5 (mp 0 f.d.toNat) }
  | .ldN32 f => .ldN32 { f with a := .ofNat 5 (mp 0 f.a.toNat), d := .ofNat 5 (mp 0 f.d.toNat) }
  | .ldPr f => .ldPr { f with a := .ofNat 5 (mp 0 f.a.toNat), d := .ofNat 5 (mp 0 f.d.toNat) }
  | .stI8 f => .stI8 { f with a := .ofNat 5 (mp 0 f.a.toNat), d := .ofNat 5 (mp 0 f.d.toNat) }
  | .stI16 f => .stI16 { f with a := .ofNat 5 (mp 0 f.a.toNat), d := .ofNat 5 (mp 0 f.d.toNat) }
  | .stI32 f => .stI32 { f with a := .ofNat 5 (mp 0 f.a.toNat), d := .ofNat 5 (mp 0 f.d.toNat) }
  | .stI64 f => .stI64 { f with a := .ofNat 5 (mp 0 f.a.toNat), d := .ofNat 5 (mp 0 f.d.toNat) }
  | .stPr f => .stPr { f with a := .ofNat 5 (mp 0 f.a.toNat), d := .ofNat 5 (mp 0 f.d.toNat) }
  | .amoSwap f => .amoSwap { f with a := .ofNat 5 (mp 0 f.a.toNat), b := .ofNat 5 (mp 0 f.b.toNat), d := .ofNat 5 (mp 0 f.d.toNat) }
  | .amoAdd f => .amoAdd { f with a := .ofNat 5 (mp 0 f.a.toNat), b := .ofNat 5 (mp 0 f.b.toNat), d := .ofNat 5 (mp 0 f.d.toNat) }
  | .amoAnd f => .amoAnd { f with a := .ofNat 5 (mp 0 f.a.toNat), b := .ofNat 5 (mp 0 f.b.toNat), d := .ofNat 5 (mp 0 f.d.toNat) }
  | .amoOr f => .amoOr { f with a := .ofNat 5 (mp 0 f.a.toNat), b := .ofNat 5 (mp 0 f.b.toNat), d := .ofNat 5 (mp 0 f.d.toNat) }
  | .amoXor f => .amoXor { f with a := .ofNat 5 (mp 0 f.a.toNat), b := .ofNat 5 (mp 0 f.b.toNat), d := .ofNat 5 (mp 0 f.d.toNat) }
  | .amoMin f => .amoMin { f with a := .ofNat 5 (mp 0 f.a.toNat), b := .ofNat 5 (mp 0 f.b.toNat), d := .ofNat 5 (mp 0 f.d.toNat) }
  | .amoMax f => .amoMax { f with a := .ofNat 5 (mp 0 f.a.toNat), b := .ofNat 5 (mp 0 f.b.toNat), d := .ofNat 5 (mp 0 f.d.toNat) }
  | .amoMinn f => .amoMinn { f with a := .ofNat 5 (mp 0 f.a.toNat), b := .ofNat 5 (mp 0 f.b.toNat), d := .ofNat 5 (mp 0 f.d.toNat) }
  | .amoMaxn f => .amoMaxn { f with a := .ofNat 5 (mp 0 f.a.toNat), b := .ofNat 5 (mp 0 f.b.toNat), d := .ofNat 5 (mp 0 f.d.toNat) }
  | .amoCas f => .amoCas { f with a := .ofNat 5 (mp 0 f.a.toNat), b := .ofNat 5 (mp 0 f.b.toNat), d := .ofNat 5 (mp 0 f.d.toNat) }
  | .amoLd f => .amoLd { f with a := .ofNat 5 (mp 0 f.a.toNat), d := .ofNat 5 (mp 0 f.d.toNat) }
  | .amoSt f => .amoSt { f with a := .ofNat 5 (mp 0 f.a.toNat), b := .ofNat 5 (mp 0 f.b.toNat) }
  | .ldh f => .ldh { f with d := .ofNat 5 (mp 0 f.d.toNat) }
  | .pcadd f => .pcadd { f with d := .ofNat 5 (mp 0 f.d.toNat) }
  | .beq f => .beq { f with a := .ofNat 5 (mp 0 f.a.toNat), b := .ofNat 5 (mp 0 f.b.toNat) }
  | .bne f => .bne { f with a := .ofNat 5 (mp 0 f.a.toNat), b := .ofNat 5 (mp 0 f.b.toNat) }
  | .blt f => .blt { f with a := .ofNat 5 (mp 0 f.a.toNat), b := .ofNat 5 (mp 0 f.b.toNat) }
  | .bge f => .bge { f with a := .ofNat 5 (mp 0 f.a.toNat), b := .ofNat 5 (mp 0 f.b.toNat) }
  | .bltn f => .bltn { f with a := .ofNat 5 (mp 0 f.a.toNat), b := .ofNat 5 (mp 0 f.b.toNat) }
  | .bgen f => .bgen { f with a := .ofNat 5 (mp 0 f.a.toNat), b := .ofNat 5 (mp 0 f.b.toNat) }
  | .jal f => .jal { f with d := .ofNat 5 (mp 0 f.d.toNat) }
  | .jalr f => .jalr { f with a := .ofNat 5 (mp 0 f.a.toNat), d := .ofNat 5 (mp 0 f.d.toNat) }
  | .crRd f => .crRd { f with d := .ofNat 5 (mp 0 f.d.toNat) }
  | .crWr f => .crWr { f with a := .ofNat 5 (mp 0 f.a.toNat), d := .ofNat 5 (mp 0 f.d.toNat) }
  | .crSet f => .crSet { f with a := .ofNat 5 (mp 0 f.a.toNat), d := .ofNat 5 (mp 0 f.d.toNat) }
  | .crClr f => .crClr { f with a := .ofNat 5 (mp 0 f.a.toNat), d := .ofNat 5 (mp 0 f.d.toNat) }
  | .vsl f => .vsl { f with a := .ofNat 5 (mp 0 f.a.toNat), d := .ofNat 5 (mp 0 f.d.toNat) }
  | .swtrap f => .swtrap { f with a := .ofNat 5 (mp 0 f.a.toNat) }
  | .gbar f => .gbar { f with d := .ofNat 5 (mp 0 f.d.toNat) }
  | .wmPub sc f => .wmPub sc { f with a := .ofNat 5 (mp 0 f.a.toNat), b := .ofNat 5 (mp 0 f.b.toNat) }
  | .wmWait sc f => .wmWait sc { f with a := .ofNat 5 (mp 0 f.a.toNat), b := .ofNat 5 (mp 0 f.b.toNat), d := .ofNat 5 (mp 0 f.d.toNat) }
  | .pnSend c f => .pnSend c { f with a := .ofNat 5 (mp 0 f.a.toNat) }
  | .pnRecvCh2 f => .pnRecvCh2 { f with d := .ofNat 5 (mp 0 f.d.toNat) }
  | .pnRecvCh4 f => .pnRecvCh4 { f with d := .ofNat 5 (mp 0 f.d.toNat) }
  | .pnCnt c f => .pnCnt c { f with d := .ofNat 5 (mp 0 f.d.toNat) }
  | .jl f => .jl { f with a := .ofNat 5 (mp 0 f.a.toNat), b := .ofNat 5 (mp 0 f.b.toNat), d := .ofNat 5 (mp 0 f.d.toNat) }
  | .jwait f => .jwait { f with a := .ofNat 5 (mp 0 f.a.toNat), d := .ofNat 5 (mp 0 f.d.toNat) }
  | .vadd f => .vadd { f with va := .ofNat 5 (mp 1 f.va.toNat), vb := .ofNat 5 (mp 1 f.vb.toNat), vd := .ofNat 5 (mp 1 f.vd.toNat), pred := .ofNat 3 (mp 2 f.pred.toNat) }
  | .vsub f => .vsub { f with va := .ofNat 5 (mp 1 f.va.toNat), vb := .ofNat 5 (mp 1 f.vb.toNat), vd := .ofNat 5 (mp 1 f.vd.toNat), pred := .ofNat 3 (mp 2 f.pred.toNat) }
  | .vmul f => .vmul { f with va := .ofNat 5 (mp 1 f.va.toNat), vb := .ofNat 5 (mp 1 f.vb.toNat), vd := .ofNat 5 (mp 1 f.vd.toNat), pred := .ofNat 3 (mp 2 f.pred.toNat) }
  | .vmulh f => .vmulh { f with va := .ofNat 5 (mp 1 f.va.toNat), vb := .ofNat 5 (mp 1 f.vb.toNat), vd := .ofNat 5 (mp 1 f.vd.toNat), pred := .ofNat 3 (mp 2 f.pred.toNat) }
  | .vmulhn f => .vmulhn { f with va := .ofNat 5 (mp 1 f.va.toNat), vb := .ofNat 5 (mp 1 f.vb.toNat), vd := .ofNat 5 (mp 1 f.vd.toNat), pred := .ofNat 3 (mp 2 f.pred.toNat) }
  | .vand f => .vand { f with va := .ofNat 5 (mp 1 f.va.toNat), vb := .ofNat 5 (mp 1 f.vb.toNat), vd := .ofNat 5 (mp 1 f.vd.toNat), pred := .ofNat 3 (mp 2 f.pred.toNat) }
  | .vor f => .vor { f with va := .ofNat 5 (mp 1 f.va.toNat), vb := .ofNat 5 (mp 1 f.vb.toNat), vd := .ofNat 5 (mp 1 f.vd.toNat), pred := .ofNat 3 (mp 2 f.pred.toNat) }
  | .vxor f => .vxor { f with va := .ofNat 5 (mp 1 f.va.toNat), vb := .ofNat 5 (mp 1 f.vb.toNat), vd := .ofNat 5 (mp 1 f.vd.toNat), pred := .ofNat 3 (mp 2 f.pred.toNat) }
  | .vsll f => .vsll { f with va := .ofNat 5 (mp 1 f.va.toNat), vb := .ofNat 5 (mp 1 f.vb.toNat), vd := .ofNat 5 (mp 1 f.vd.toNat), pred := .ofNat 3 (mp 2 f.pred.toNat) }
  | .vsrl f => .vsrl { f with va := .ofNat 5 (mp 1 f.va.toNat), vb := .ofNat 5 (mp 1 f.vb.toNat), vd := .ofNat 5 (mp 1 f.vd.toNat), pred := .ofNat 3 (mp 2 f.pred.toNat) }
  | .vsra f => .vsra { f with va := .ofNat 5 (mp 1 f.va.toNat), vb := .ofNat 5 (mp 1 f.vb.toNat), vd := .ofNat 5 (mp 1 f.vd.toNat), pred := .ofNat 3 (mp 2 f.pred.toNat) }
  | .vmin f => .vmin { f with va := .ofNat 5 (mp 1 f.va.toNat), vb := .ofNat 5 (mp 1 f.vb.toNat), vd := .ofNat 5 (mp 1 f.vd.toNat), pred := .ofNat 3 (mp 2 f.pred.toNat) }
  | .vmax f => .vmax { f with va := .ofNat 5 (mp 1 f.va.toNat), vb := .ofNat 5 (mp 1 f.vb.toNat), vd := .ofNat 5 (mp 1 f.vd.toNat), pred := .ofNat 3 (mp 2 f.pred.toNat) }
  | .vminn f => .vminn { f with va := .ofNat 5 (mp 1 f.va.toNat), vb := .ofNat 5 (mp 1 f.vb.toNat), vd := .ofNat 5 (mp 1 f.vd.toNat), pred := .ofNat 3 (mp 2 f.pred.toNat) }
  | .vmaxn f => .vmaxn { f with va := .ofNat 5 (mp 1 f.va.toNat), vb := .ofNat 5 (mp 1 f.vb.toNat), vd := .ofNat 5 (mp 1 f.vd.toNat), pred := .ofNat 3 (mp 2 f.pred.toNat) }
  | .vsel f => .vsel { f with va := .ofNat 5 (mp 1 f.va.toNat), vb := .ofNat 5 (mp 1 f.vb.toNat), vd := .ofNat 5 (mp 1 f.vd.toNat), pred := .ofNat 3 (mp 2 f.pred.toNat) }
  | .vfadd f => .vfadd { f with va := .ofNat 5 (mp 1 f.va.toNat), vb := .ofNat 5 (mp 1 f.vb.toNat), vd := .ofNat 5 (mp 1 f.vd.toNat), pred := .ofNat 3 (mp 2 f.pred.toNat) }
  | .vfsub f => .vfsub { f with va := .ofNat 5 (mp 1 f.va.toNat), vb := .ofNat 5 (mp 1 f.vb.toNat), vd := .ofNat 5 (mp 1 f.vd.toNat), pred := .ofNat 3 (mp 2 f.pred.toNat) }
  | .vfmul f => .vfmul { f with va := .ofNat 5 (mp 1 f.va.toNat), vb := .ofNat 5 (mp 1 f.vb.toNat), vd := .ofNat 5 (mp 1 f.vd.toNat), pred := .ofNat 3 (mp 2 f.pred.toNat) }
  | .vfdiv f => .vfdiv { f with va := .ofNat 5 (mp 1 f.va.toNat), vb := .ofNat 5 (mp 1 f.vb.toNat), vd := .ofNat 5 (mp 1 f.vd.toNat), pred := .ofNat 3 (mp 2 f.pred.toNat) }
  | .vfmin f => .vfmin { f with va := .ofNat 5 (mp 1 f.va.toNat), vb := .ofNat 5 (mp 1 f.vb.toNat), vd := .ofNat 5 (mp 1 f.vd.toNat), pred := .ofNat 3 (mp 2 f.pred.toNat) }
  | .vfmax f => .vfmax { f with va := .ofNat 5 (mp 1 f.va.toNat), vb := .ofNat 5 (mp 1 f.vb.toNat), vd := .ofNat 5 (mp 1 f.vd.toNat), pred := .ofNat 3 (mp 2 f.pred.toNat) }
  | .vfsqrt f => .vfsqrt { f with va := .ofNat 5 (mp 1 f.va.toNat), vd := .ofNat 5 (mp 1 f.vd.toNat), pred := .ofNat 3 (mp 2 f.pred.toNat) }
  | .vfabs f => .vfabs { f with va := .ofNat 5 (mp 1 f.va.toNat), vd := .ofNat 5 (mp 1 f.vd.toNat), pred := .ofNat 3 (mp 2 f.pred.toNat) }
  | .vfneg f => .vfneg { f with va := .ofNat 5 (mp 1 f.va.toNat), vd := .ofNat 5 (mp 1 f.vd.toNat), pred := .ofNat 3 (mp 2 f.pred.toNat) }
  | .vfclass f => .vfclass { f with va := .ofNat 5 (mp 1 f.va.toNat), vd := .ofNat 5 (mp 1 f.vd.toNat), pred := .ofNat 3 (mp 2 f.pred.toNat) }
  | .vfsgnj f => .vfsgnj { f with va := .ofNat 5 (mp 1 f.va.toNat), vb := .ofNat 5 (mp 1 f.vb.toNat), vd := .ofNat 5 (mp 1 f.vd.toNat), pred := .ofNat 3 (mp 2 f.pred.toNat) }
  | .vfma f => .vfma { f with va := .ofNat 5 (mp 1 f.va.toNat), vb := .ofNat 5 (mp 1 f.vb.toNat), vd := .ofNat 5 (mp 1 f.vd.toNat), pred := .ofNat 3 (mp 2 f.pred.toNat) }
  | .vfms f => .vfms { f with va := .ofNat 5 (mp 1 f.va.toNat), vb := .ofNat 5 (mp 1 f.vb.toNat), vd := .ofNat 5 (mp 1 f.vd.toNat), pred := .ofNat 3 (mp 2 f.pred.toNat) }
  | .vfnma f => .vfnma { f with va := .ofNat 5 (mp 1 f.va.toNat), vb := .ofNat 5 (mp 1 f.vb.toNat), vd := .ofNat 5 (mp 1 f.vd.toNat), pred := .ofNat 3 (mp 2 f.pred.toNat) }
  | .vfnms f => .vfnms { f with va := .ofNat 5 (mp 1 f.va.toNat), vb := .ofNat 5 (mp 1 f.vb.toNat), vd := .ofNat 5 (mp 1 f.vd.toNat), pred := .ofNat 3 (mp 2 f.pred.toNat) }
  | .vfaerr f => .vfaerr { f with va := .ofNat 5 (mp 1 f.va.toNat), vb := .ofNat 5 (mp 1 f.vb.toNat), vd := .ofNat 5 (mp 1 f.vd.toNat), pred := .ofNat 3 (mp 2 f.pred.toNat) }
  | .vfmerr f => .vfmerr { f with va := .ofNat 5 (mp 1 f.va.toNat), vb := .ofNat 5 (mp 1 f.vb.toNat), vd := .ofNat 5 (mp 1 f.vd.toNat), pred := .ofNat 3 (mp 2 f.pred.toNat) }
  | .vfrecipEst f => .vfrecipEst { f with va := .ofNat 5 (mp 1 f.va.toNat), vd := .ofNat 5 (mp 1 f.vd.toNat), pred := .ofNat 3 (mp 2 f.pred.toNat) }
  | .vfrsqrtEst f => .vfrsqrtEst { f with va := .ofNat 5 (mp 1 f.va.toNat), vd := .ofNat 5 (mp 1 f.vd.toNat), pred := .ofNat 3 (mp 2 f.pred.toNat) }
  | .vceq f => .vceq { f with va := .ofNat 5 (mp 1 f.va.toNat), vb := .ofNat 5 (mp 1 f.vb.toNat), vd := .ofNat 5 (mp 2 f.vd.toNat), pred := .ofNat 3 (mp 2 f.pred.toNat) }
  | .vclt f => .vclt { f with va := .ofNat 5 (mp 1 f.va.toNat), vb := .ofNat 5 (mp 1 f.vb.toNat), vd := .ofNat 5 (mp 2 f.vd.toNat), pred := .ofNat 3 (mp 2 f.pred.toNat) }
  | .vcle f => .vcle { f with va := .ofNat 5 (mp 1 f.va.toNat), vb := .ofNat 5 (mp 1 f.vb.toNat), vd := .ofNat 5 (mp 2 f.vd.toNat), pred := .ofNat 3 (mp 2 f.pred.toNat) }
  | .vcltn f => .vcltn { f with va := .ofNat 5 (mp 1 f.va.toNat), vb := .ofNat 5 (mp 1 f.vb.toNat), vd := .ofNat 5 (mp 2 f.vd.toNat), pred := .ofNat 3 (mp 2 f.pred.toNat) }
  | .vclen f => .vclen { f with va := .ofNat 5 (mp 1 f.va.toNat), vb := .ofNat 5 (mp 1 f.vb.toNat), vd := .ofNat 5 (mp 2 f.vd.toNat), pred := .ofNat 3 (mp 2 f.pred.toNat) }
  | .vfceq f => .vfceq { f with va := .ofNat 5 (mp 1 f.va.toNat), vb := .ofNat 5 (mp 1 f.vb.toNat), vd := .ofNat 5 (mp 2 f.vd.toNat), pred := .ofNat 3 (mp 2 f.pred.toNat) }
  | .vfclt f => .vfclt { f with va := .ofNat 5 (mp 1 f.va.toNat), vb := .ofNat 5 (mp 1 f.vb.toNat), vd := .ofNat 5 (mp 2 f.vd.toNat), pred := .ofNat 3 (mp 2 f.pred.toNat) }
  | .vfcle f => .vfcle { f with va := .ofNat 5 (mp 1 f.va.toNat), vb := .ofNat 5 (mp 1 f.vb.toNat), vd := .ofNat 5 (mp 2 f.vd.toNat), pred := .ofNat 3 (mp 2 f.pred.toNat) }
  | .vcvt f => .vcvt { f with va := .ofNat 5 (mp 1 f.va.toNat), vd := .ofNat 5 (mp 1 f.vd.toNat), pred := .ofNat 3 (mp 2 f.pred.toNat) }
  | .vperm f => .vperm { f with va := .ofNat 5 (mp 1 f.va.toNat), vb := .ofNat 5 (mp 1 f.vb.toNat), vd := .ofNat 5 (mp 1 f.vd.toNat), pred := .ofNat 3 (mp 2 f.pred.toNat) }
  | .vslideup f => .vslideup { f with va := .ofNat 5 (mp 1 f.va.toNat), vb := .ofNat 5 (mp 0 f.vb.toNat), vd := .ofNat 5 (mp 1 f.vd.toNat), pred := .ofNat 3 (mp 2 f.pred.toNat) }
  | .vslidedown f => .vslidedown { f with va := .ofNat 5 (mp 1 f.va.toNat), vb := .ofNat 5 (mp 0 f.vb.toNat), vd := .ofNat 5 (mp 1 f.vd.toNat), pred := .ofNat 3 (mp 2 f.pred.toNat) }
  | .vcompress f => .vcompress { f with va := .ofNat 5 (mp 1 f.va.toNat), vd := .ofNat 5 (mp 1 f.vd.toNat), pred := .ofNat 3 (mp 2 f.pred.toNat) }
  | .vexpand f => .vexpand { f with va := .ofNat 5 (mp 1 f.va.toNat), vd := .ofNat 5 (mp 1 f.vd.toNat), pred := .ofNat 3 (mp 2 f.pred.toNat) }
  | .vmv f => .vmv { f with va := .ofNat 5 (mp 1 f.va.toNat), vd := .ofNat 5 (mp 1 f.vd.toNat), pred := .ofNat 3 (mp 2 f.pred.toNat) }
  | .vzip f => .vzip { f with va := .ofNat 5 (mp 1 f.va.toNat), vb := .ofNat 5 (mp 1 f.vb.toNat), vd := .ofNat 5 (mp 1 f.vd.toNat), pred := .ofNat 3 (mp 2 f.pred.toNat) }
  | .vunzip f => .vunzip { f with va := .ofNat 5 (mp 1 f.va.toNat), vb := .ofNat 5 (mp 1 f.vb.toNat), vd := .ofNat 5 (mp 1 f.vd.toNat), pred := .ofNat 3 (mp 2 f.pred.toNat) }
  | .vfoldAdd f => .vfoldAdd { f with va := .ofNat 5 (mp 1 f.va.toNat), vd := .ofNat 5 (mp 0 f.vd.toNat), pred := .ofNat 3 (mp 2 f.pred.toNat) }
  | .vfoldMin f => .vfoldMin { f with va := .ofNat 5 (mp 1 f.va.toNat), vd := .ofNat 5 (mp 0 f.vd.toNat), pred := .ofNat 3 (mp 2 f.pred.toNat) }
  | .vfoldMax f => .vfoldMax { f with va := .ofNat 5 (mp 1 f.va.toNat), vd := .ofNat 5 (mp 0 f.vd.toNat), pred := .ofNat 3 (mp 2 f.pred.toNat) }
  | .vfoldMinn f => .vfoldMinn { f with va := .ofNat 5 (mp 1 f.va.toNat), vd := .ofNat 5 (mp 0 f.vd.toNat), pred := .ofNat 3 (mp 2 f.pred.toNat) }
  | .vfoldMaxn f => .vfoldMaxn { f with va := .ofNat 5 (mp 1 f.va.toNat), vd := .ofNat 5 (mp 0 f.vd.toNat), pred := .ofNat 3 (mp 2 f.pred.toNat) }
  | .vfoldFadd f => .vfoldFadd { f with va := .ofNat 5 (mp 1 f.va.toNat), vd := .ofNat 5 (mp 0 f.vd.toNat), pred := .ofNat 3 (mp 2 f.pred.toNat) }
  | .vfoldFmin f => .vfoldFmin { f with va := .ofNat 5 (mp 1 f.va.toNat), vd := .ofNat 5 (mp 0 f.vd.toNat), pred := .ofNat 3 (mp 2 f.pred.toNat) }
  | .vfoldFmax f => .vfoldFmax { f with va := .ofNat 5 (mp 1 f.va.toNat), vd := .ofNat 5 (mp 0 f.vd.toNat), pred := .ofNat 3 (mp 2 f.pred.toNat) }
  | .pand f => .pand { f with va := .ofNat 5 (mp 2 f.va.toNat), vb := .ofNat 5 (mp 2 f.vb.toNat), vd := .ofNat 5 (mp 2 f.vd.toNat), pred := .ofNat 3 (mp 2 f.pred.toNat) }
  | .por f => .por { f with va := .ofNat 5 (mp 2 f.va.toNat), vb := .ofNat 5 (mp 2 f.vb.toNat), vd := .ofNat 5 (mp 2 f.vd.toNat), pred := .ofNat 3 (mp 2 f.pred.toNat) }
  | .pxor f => .pxor { f with va := .ofNat 5 (mp 2 f.va.toNat), vb := .ofNat 5 (mp 2 f.vb.toNat), vd := .ofNat 5 (mp 2 f.vd.toNat), pred := .ofNat 3 (mp 2 f.pred.toNat) }
  | .pandn f => .pandn { f with va := .ofNat 5 (mp 2 f.va.toNat), vb := .ofNat 5 (mp 2 f.vb.toNat), vd := .ofNat 5 (mp 2 f.vd.toNat), pred := .ofNat 3 (mp 2 f.pred.toNat) }
  | .plt f => .plt { f with va := .ofNat 5 (mp 0 f.va.toNat), vd := .ofNat 5 (mp 2 f.vd.toNat), pred := .ofNat 3 (mp 2 f.pred.toNat) }
  | .pgetsm f => .pgetsm { f with vd := .ofNat 5 (mp 2 f.vd.toNat) }
  | .pcount f => .pcount { f with vd := .ofNat 5 (mp 0 f.vd.toNat), va := .ofNat 5 (mp 2 f.va.toNat) }
  | .pfirst f => .pfirst { f with vd := .ofNat 5 (mp 0 f.vd.toNat), va := .ofNat 5 (mp 2 f.va.toNat) }
  | .vaddVx f => .vaddVx { f with xb := .ofNat 5 (mp 0 f.xb.toNat), va := .ofNat 5 (mp 1 f.va.toNat), vd := .ofNat 5 (mp 1 f.vd.toNat), pred := .ofNat 3 (mp 2 f.pred.toNat) }
  | .vsubVx f => .vsubVx { f with xb := .ofNat 5 (mp 0 f.xb.toNat), va := .ofNat 5 (mp 1 f.va.toNat), vd := .ofNat 5 (mp 1 f.vd.toNat), pred := .ofNat 3 (mp 2 f.pred.toNat) }
  | .vrsubVx f => .vrsubVx { f with xb := .ofNat 5 (mp 0 f.xb.toNat), va := .ofNat 5 (mp 1 f.va.toNat), vd := .ofNat 5 (mp 1 f.vd.toNat), pred := .ofNat 3 (mp 2 f.pred.toNat) }
  | .vmulVx f => .vmulVx { f with xb := .ofNat 5 (mp 0 f.xb.toNat), va := .ofNat 5 (mp 1 f.va.toNat), vd := .ofNat 5 (mp 1 f.vd.toNat), pred := .ofNat 3 (mp 2 f.pred.toNat) }
  | .vandVx f => .vandVx { f with xb := .ofNat 5 (mp 0 f.xb.toNat), va := .ofNat 5 (mp 1 f.va.toNat), vd := .ofNat 5 (mp 1 f.vd.toNat), pred := .ofNat 3 (mp 2 f.pred.toNat) }
  | .vorVx f => .vorVx { f with xb := .ofNat 5 (mp 0 f.xb.toNat), va := .ofNat 5 (mp 1 f.va.toNat), vd := .ofNat 5 (mp 1 f.vd.toNat), pred := .ofNat 3 (mp 2 f.pred.toNat) }
  | .vxorVx f => .vxorVx { f with xb := .ofNat 5 (mp 0 f.xb.toNat), va := .ofNat 5 (mp 1 f.va.toNat), vd := .ofNat 5 (mp 1 f.vd.toNat), pred := .ofNat 3 (mp 2 f.pred.toNat) }
  | .vsllVx f => .vsllVx { f with xb := .ofNat 5 (mp 0 f.xb.toNat), va := .ofNat 5 (mp 1 f.va.toNat), vd := .ofNat 5 (mp 1 f.vd.toNat), pred := .ofNat 3 (mp 2 f.pred.toNat) }
  | .vsrlVx f => .vsrlVx { f with xb := .ofNat 5 (mp 0 f.xb.toNat), va := .ofNat 5 (mp 1 f.va.toNat), vd := .ofNat 5 (mp 1 f.vd.toNat), pred := .ofNat 3 (mp 2 f.pred.toNat) }
  | .vsraVx f => .vsraVx { f with xb := .ofNat 5 (mp 0 f.xb.toNat), va := .ofNat 5 (mp 1 f.va.toNat), vd := .ofNat 5 (mp 1 f.vd.toNat), pred := .ofNat 3 (mp 2 f.pred.toNat) }
  | .vminVx f => .vminVx { f with xb := .ofNat 5 (mp 0 f.xb.toNat), va := .ofNat 5 (mp 1 f.va.toNat), vd := .ofNat 5 (mp 1 f.vd.toNat), pred := .ofNat 3 (mp 2 f.pred.toNat) }
  | .vmaxVx f => .vmaxVx { f with xb := .ofNat 5 (mp 0 f.xb.toNat), va := .ofNat 5 (mp 1 f.va.toNat), vd := .ofNat 5 (mp 1 f.vd.toNat), pred := .ofNat 3 (mp 2 f.pred.toNat) }
  | .vfaddVx f => .vfaddVx { f with xb := .ofNat 5 (mp 0 f.xb.toNat), va := .ofNat 5 (mp 1 f.va.toNat), vd := .ofNat 5 (mp 1 f.vd.toNat), pred := .ofNat 3 (mp 2 f.pred.toNat) }
  | .vfmulVx f => .vfmulVx { f with xb := .ofNat 5 (mp 0 f.xb.toNat), va := .ofNat 5 (mp 1 f.va.toNat), vd := .ofNat 5 (mp 1 f.vd.toNat), pred := .ofNat 3 (mp 2 f.pred.toNat) }
  | .vfmaVx f => .vfmaVx { f with xb := .ofNat 5 (mp 0 f.xb.toNat), va := .ofNat 5 (mp 1 f.va.toNat), vd := .ofNat 5 (mp 1 f.vd.toNat), pred := .ofNat 3 (mp 2 f.pred.toNat) }
  | .vbcast f => .vbcast { f with xb := .ofNat 5 (mp 0 f.xb.toNat), vd := .ofNat 5 (mp 1 f.vd.toNat), pred := .ofNat 3 (mp 2 f.pred.toNat) }
  | .vld f => .vld { f with a := .ofNat 5 (mp 0 f.a.toNat), vd := .ofNat 5 (mp 1 f.vd.toNat), pred := .ofNat 3 (mp 2 f.pred.toNat) }
  | .vlds f => .vlds { f with a := .ofNat 5 (mp 0 f.a.toNat), vd := .ofNat 5 (mp 1 f.vd.toNat), b := .ofNat 5 (mp 0 f.b.toNat), pred := .ofNat 3 (mp 2 f.pred.toNat) }
  | .vldFf f => .vldFf { f with a := .ofNat 5 (mp 0 f.a.toNat), vd := .ofNat 5 (mp 1 f.vd.toNat), pred := .ofNat 3 (mp 2 f.pred.toNat) }
  | .vldc f => .vldc { f with a := .ofNat 5 (mp 0 f.a.toNat), vd := .ofNat 5 (mp 1 f.vd.toNat) }
  | .vfill f => .vfill { f with a := .ofNat 5 (mp 0 f.a.toNat), vd := .ofNat 5 (mp 1 f.vd.toNat) }
  | .vldXn f => .vldXn { f with a := .ofNat 5 (mp 0 f.a.toNat), vd := .ofNat 5 (mp 1 f.vd.toNat) }
  | .vldXtn f => .vldXtn { f with a := .ofNat 5 (mp 0 f.a.toNat), vd := .ofNat 5 (mp 1 f.vd.toNat) }
  | .vldx f => .vldx { f with a := .ofNat 5 (mp 0 f.a.toNat), vb := .ofNat 5 (mp 1 f.vb.toNat), vd := .ofNat 5 (mp 1 f.vd.toNat), pred := .ofNat 3 (mp 2 f.pred.toNat) }
  | .vst f => .vst { f with a := .ofNat 5 (mp 0 f.a.toNat), vd := .ofNat 5 (mp 1 f.vd.toNat), pred := .ofNat 3 (mp 2 f.pred.toNat) }
  | .vsts f => .vsts { f with a := .ofNat 5 (mp 0 f.a.toNat), vd := .ofNat 5 (mp 1 f.vd.toNat), b := .ofNat 5 (mp 0 f.b.toNat), pred := .ofNat 3 (mp 2 f.pred.toNat) }
  | .vcopy f => .vcopy { f with a := .ofNat 5 (mp 0 f.a.toNat), vd := .ofNat 5 (mp 0 f.vd.toNat), pred := .ofNat 3 (mp 2 f.pred.toNat) }
  | .vstc f => .vstc { f with a := .ofNat 5 (mp 0 f.a.toNat), vd := .ofNat 5 (mp 1 f.vd.toNat), pred := .ofNat 3 (mp 2 f.pred.toNat) }
  | .vspill f => .vspill { f with a := .ofNat 5 (mp 0 f.a.toNat), vd := .ofNat 5 (mp 1 f.vd.toNat) }
  | .vstXn f => .vstXn { f with a := .ofNat 5 (mp 0 f.a.toNat), vd := .ofNat 5 (mp 1 f.vd.toNat) }
  | .vstXtn f => .vstXtn { f with a := .ofNat 5 (mp 0 f.a.toNat), vd := .ofNat 5 (mp 1 f.vd.toNat) }
  | .vstx f => .vstx { f with a := .ofNat 5 (mp 0 f.a.toNat), vb := .ofNat 5 (mp 1 f.vb.toNat), vd := .ofNat 5 (mp 1 f.vd.toNat), pred := .ofNat 3 (mp 2 f.pred.toNat) }
  | .vamoSwap f => .vamoSwap { f with vb := .ofNat 5 (mp 1 f.vb.toNat), vd := .ofNat 5 (mp 1 f.vd.toNat), pred := .ofNat 3 (mp 2 f.pred.toNat) }
  | .vamoAdd f => .vamoAdd { f with vb := .ofNat 5 (mp 1 f.vb.toNat), vd := .ofNat 5 (mp 1 f.vd.toNat), pred := .ofNat 3 (mp 2 f.pred.toNat) }
  | .vamoAnd f => .vamoAnd { f with vb := .ofNat 5 (mp 1 f.vb.toNat), vd := .ofNat 5 (mp 1 f.vd.toNat), pred := .ofNat 3 (mp 2 f.pred.toNat) }
  | .vamoOr f => .vamoOr { f with vb := .ofNat 5 (mp 1 f.vb.toNat), vd := .ofNat 5 (mp 1 f.vd.toNat), pred := .ofNat 3 (mp 2 f.pred.toNat) }
  | .vamoXor f => .vamoXor { f with vb := .ofNat 5 (mp 1 f.vb.toNat), vd := .ofNat 5 (mp 1 f.vd.toNat), pred := .ofNat 3 (mp 2 f.pred.toNat) }
  | .vamoMin f => .vamoMin { f with vb := .ofNat 5 (mp 1 f.vb.toNat), vd := .ofNat 5 (mp 1 f.vd.toNat), pred := .ofNat 3 (mp 2 f.pred.toNat) }
  | .vamoMax f => .vamoMax { f with vb := .ofNat 5 (mp 1 f.vb.toNat), vd := .ofNat 5 (mp 1 f.vd.toNat), pred := .ofNat 3 (mp 2 f.pred.toNat) }
  | .vamoMinn f => .vamoMinn { f with vb := .ofNat 5 (mp 1 f.vb.toNat), vd := .ofNat 5 (mp 1 f.vd.toNat), pred := .ofNat 3 (mp 2 f.pred.toNat) }
  | .vamoMaxn f => .vamoMaxn { f with vb := .ofNat 5 (mp 1 f.vb.toNat), vd := .ofNat 5 (mp 1 f.vd.toNat), pred := .ofNat 3 (mp 2 f.pred.toNat) }
  | .vamoCas f => .vamoCas { f with vb := .ofNat 5 (mp 1 f.vb.toNat), vd := .ofNat 5 (mp 1 f.vd.toNat), pred := .ofNat 3 (mp 2 f.pred.toNat) }
  | .vamoAddCb f => .vamoAddCb { f with vb := .ofNat 5 (mp 1 f.vb.toNat), vd := .ofNat 5 (mp 1 f.vd.toNat), pred := .ofNat 3 (mp 2 f.pred.toNat) }
  | .vamoAndCb f => .vamoAndCb { f with vb := .ofNat 5 (mp 1 f.vb.toNat), vd := .ofNat 5 (mp 1 f.vd.toNat), pred := .ofNat 3 (mp 2 f.pred.toNat) }
  | .vamoOrCb f => .vamoOrCb { f with vb := .ofNat 5 (mp 1 f.vb.toNat), vd := .ofNat 5 (mp 1 f.vd.toNat), pred := .ofNat 3 (mp 2 f.pred.toNat) }
  | .vamoXorCb f => .vamoXorCb { f with vb := .ofNat 5 (mp 1 f.vb.toNat), vd := .ofNat 5 (mp 1 f.vd.toNat), pred := .ofNat 3 (mp 2 f.pred.toNat) }
  | .vamoMinCb f => .vamoMinCb { f with vb := .ofNat 5 (mp 1 f.vb.toNat), vd := .ofNat 5 (mp 1 f.vd.toNat), pred := .ofNat 3 (mp 2 f.pred.toNat) }
  | .vamoMaxCb f => .vamoMaxCb { f with vb := .ofNat 5 (mp 1 f.vb.toNat), vd := .ofNat 5 (mp 1 f.vd.toNat), pred := .ofNat 3 (mp 2 f.pred.toNat) }
  | .vamoMinnCb f => .vamoMinnCb { f with vb := .ofNat 5 (mp 1 f.vb.toNat), vd := .ofNat 5 (mp 1 f.vd.toNat), pred := .ofNat 3 (mp 2 f.pred.toNat) }
  | .vamoMaxnCb f => .vamoMaxnCb { f with vb := .ofNat 5 (mp 1 f.vb.toNat), vd := .ofNat 5 (mp 1 f.vd.toNat), pred := .ofNat 3 (mp 2 f.pred.toNat) }
  | .vamoFadd f => .vamoFadd { f with vb := .ofNat 5 (mp 1 f.vb.toNat), vd := .ofNat 5 (mp 1 f.vd.toNat), pred := .ofNat 3 (mp 2 f.pred.toNat) }
  | .vamoFmin f => .vamoFmin { f with vb := .ofNat 5 (mp 1 f.vb.toNat), vd := .ofNat 5 (mp 1 f.vd.toNat), pred := .ofNat 3 (mp 2 f.pred.toNat) }
  | .vamoFmax f => .vamoFmax { f with vb := .ofNat 5 (mp 1 f.vb.toNat), vd := .ofNat 5 (mp 1 f.vd.toNat), pred := .ofNat 3 (mp 2 f.pred.toNat) }
  | .vwaitEq f => .vwaitEq { f with vb := .ofNat 5 (mp 1 f.vb.toNat), vd := .ofNat 5 (mp 1 f.vd.toNat), pred := .ofNat 3 (mp 2 f.pred.toNat) }
  | .vwaitNe f => .vwaitNe { f with vb := .ofNat 5 (mp 1 f.vb.toNat), vd := .ofNat 5 (mp 1 f.vd.toNat), pred := .ofNat 3 (mp 2 f.pred.toNat) }
  | .vwaitGe f => .vwaitGe { f with vb := .ofNat 5 (mp 1 f.vb.toNat), vd := .ofNat 5 (mp 1 f.vd.toNat), pred := .ofNat 3 (mp 2 f.pred.toNat) }
  | .vwaitLt f => .vwaitLt { f with vb := .ofNat 5 (mp 1 f.vb.toNat), vd := .ofNat 5 (mp 1 f.vd.toNat), pred := .ofNat 3 (mp 2 f.pred.toNat) }
  | .vwaitGen f => .vwaitGen { f with vb := .ofNat 5 (mp 1 f.vb.toNat), vd := .ofNat 5 (mp 1 f.vd.toNat), pred := .ofNat 3 (mp 2 f.pred.toNat) }
  | .vwaitLtn f => .vwaitLtn { f with vb := .ofNat 5 (mp 1 f.vb.toNat), vd := .ofNat 5 (mp 1 f.vd.toNat), pred := .ofNat 3 (mp 2 f.pred.toNat) }
  | .vamoFaddCb f => .vamoFaddCb { f with vb := .ofNat 5 (mp 1 f.vb.toNat), vd := .ofNat 5 (mp 1 f.vd.toNat), pred := .ofNat 3 (mp 2 f.pred.toNat) }
  | .vamoFminCb f => .vamoFminCb { f with vb := .ofNat 5 (mp 1 f.vb.toNat), vd := .ofNat 5 (mp 1 f.vd.toNat), pred := .ofNat 3 (mp 2 f.pred.toNat) }
  | .vamoFmaxCb f => .vamoFmaxCb { f with vb := .ofNat 5 (mp 1 f.vb.toNat), vd := .ofNat 5 (mp 1 f.vd.toNat), pred := .ofNat 3 (mp 2 f.pred.toNat) }
  | .awinDecl f => .awinDecl { f with a := .ofNat 5 (mp 0 f.a.toNat), b := .ofNat 5 (mp 0 f.b.toNat) }
  | .awinUpd f => .awinUpd { f with a := .ofNat 5 (mp 1 f.a.toNat), b := .ofNat 5 (mp 1 f.b.toNat), pred := .ofNat 3 (mp 2 f.pred.toNat) }
  | .supdCms f => .supdCms { f with sd := .ofNat 4 (mp 4 f.sd.toNat), a := .ofNat 5 (mp 1 f.a.toNat), b := if f.b = 0 then 0 else .ofNat 5 (mp 1 f.b.toNat), pred := .ofNat 3 (mp 2 f.pred.toNat) }
  | .supdBks f => .supdBks { f with sd := .ofNat 4 (mp 4 f.sd.toNat), a := .ofNat 5 (mp 1 f.a.toNat), b := if f.b = 0 then 0 else .ofNat 5 (mp 1 f.b.toNat), pred := .ofNat 3 (mp 2 f.pred.toNat) }
  | .supdQh f => .supdQh { f with sd := .ofNat 4 (mp 4 f.sd.toNat), a := .ofNat 5 (mp 1 f.a.toNat), pred := .ofNat 3 (mp 2 f.pred.toNat) }
  | .supdMom f => .supdMom { f with sd := .ofNat 4 (mp 4 f.sd.toNat), a := .ofNat 5 (mp 1 f.a.toNat), pred := .ofNat 3 (mp 2 f.pred.toNat) }
  | .supdWes f => .supdWes { f with sd := .ofNat 4 (mp 4 f.sd.toNat), a := .ofNat 5 (mp 1 f.a.toNat), b := .ofNat 5 (mp 0 f.b.toNat), pred := .ofNat 3 (mp 2 f.pred.toNat) }
  | .smerge f => .smerge { f with sd := .ofNat 4 (mp 4 f.sd.toNat), a := .ofNat 5 (mp 4 f.a.toNat) }
  | .sclr f => .sclr { f with sd := .ofNat 4 (mp 4 f.sd.toNat) }
  | .sdecl f => .sdecl { f with sd := .ofNat 4 (mp 4 f.sd.toNat), a := .ofNat 5 (mp 0 f.a.toNat) }
  | .sqCms f => .sqCms { f with sd := .ofNat 4 (mp 4 f.sd.toNat), a := .ofNat 5 (mp 1 f.a.toNat), b := .ofNat 5 (mp 1 f.b.toNat), pred := .ofNat 3 (mp 2 f.pred.toNat) }
  | .sqBksEst f => .sqBksEst { f with sd := .ofNat 4 (mp 4 f.sd.toNat), b := .ofNat 5 (mp 0 f.b.toNat) }
  | .sqBksItems f => .sqBksItems { f with sd := .ofNat 4 (mp 4 f.sd.toNat), a := .ofNat 5 (mp 0 f.a.toNat), b := .ofNat 5 (mp 1 f.b.toNat), pred := .ofNat 3 (mp 2 f.pred.toNat) }
  | .sqQnt f => .sqQnt { f with sd := .ofNat 4 (mp 4 f.sd.toNat), a := .ofNat 5 (mp 0 f.a.toNat), b := .ofNat 5 (mp 0 f.b.toNat) }
  | .sqMomQuery f => .sqMomQuery { f with sd := .ofNat 4 (mp 4 f.sd.toNat), b := .ofNat 5 (mp 0 f.b.toNat) }
  | .sqWes f => .sqWes { f with sd := .ofNat 4 (mp 4 f.sd.toNat), a := .ofNat 5 (mp 0 f.a.toNat), b := .ofNat 5 (mp 1 f.b.toNat), pred := .ofNat 3 (mp 2 f.pred.toNat) }
  | .sst f => .sst { f with sd := .ofNat 4 (mp 4 f.sd.toNat), a := .ofNat 5 (mp 0 f.a.toNat), b := .ofNat 5 (mp 0 f.b.toNat) }
  | .sld f => .sld { f with sd := .ofNat 4 (mp 4 f.sd.toNat), a := .ofNat 5 (mp 0 f.a.toNat) }
  | .smergeM f => .smergeM { f with sd := .ofNat 4 (mp 4 f.sd.toNat), a := .ofNat 5 (mp 0 f.a.toNat) }
  | .scmt f => .scmt { f with sd := .ofNat 4 (mp 4 f.sd.toNat), a := .ofNat 5 (mp 0 f.a.toNat), b := .ofNat 5 (mp 0 f.b.toNat) }
  | .astOpen f => .astOpen { f with d := .ofNat 5 (mp 0 f.d.toNat), a := .ofNat 5 (mp 0 f.a.toNat) }
  | .astClose f => .astClose { f with a := .ofNat 5 (mp 0 f.a.toNat) }
  | .astRun f => .astRun { f with a := .ofNat 5 (mp 0 f.a.toNat), b := .ofNat 5 (mp 0 f.b.toNat) }
  | .arBind f => .arBind { f with d := .ofNat 5 (mp 1 f.d.toNat), a := .ofNat 5 (mp 0 f.a.toNat) }
  | .arUnbind f => .arUnbind { f with d := .ofNat 5 (mp 1 f.d.toNat) }
  | .acol f => .acol { f with d := .ofNat 5 (mp 0 f.d.toNat), b := .ofNat 5 (mp 1 f.b.toNat), a := .ofNat 5 (mp 0 f.a.toNat) }
  | .asend f => .asend { f with d := .ofNat 5 (mp 0 f.d.toNat), a := .ofNat 5 (mp 0 f.a.toNat) }
  | .arecv f => .arecv { f with d := .ofNat 5 (mp 0 f.d.toNat), a := .ofNat 5 (mp 0 f.a.toNat) }
  | .aflip f => .aflip { f with a := .ofNat 5 (mp 0 f.a.toNat), b := .ofNat 5 (mp 0 f.b.toNat) }
  | .shalloc f => .shalloc { f with d := .ofNat 5 (mp 0 f.d.toNat), a := .ofNat 5 (mp 0 f.a.toNat) }
  | .shallocM f => .shallocM { f with d := .ofNat 5 (mp 0 f.d.toNat), a := .ofNat 5 (mp 0 f.a.toNat), b := .ofNat 5 (mp 0 f.b.toNat) }
  | .shfree f => .shfree { f with a := .ofNat 5 (mp 0 f.a.toNat) }
  | .shstat f => .shstat { f with d := .ofNat 5 (mp 0 f.d.toNat), a := .ofNat 5 (mp 0 f.a.toNat) }
  | .cAddi imm d => .cAddi imm (.ofNat 5 (mp 0 d.toNat))
  | .cLi imm d => .cLi imm (.ofNat 5 (mp 0 d.toNat))
  | .cMv a d => .cMv (.ofNat 5 (mp 0 a.toNat)) (.ofNat 5 (mp 0 d.toNat))
  | .cAdd a d => .cAdd (.ofNat 5 (mp 0 a.toNat)) (.ofNat 5 (mp 0 d.toNat))
  | .cSub a d => .cSub (.ofNat 5 (mp 0 a.toNat)) (.ofNat 5 (mp 0 d.toNat))
  | .cAnd a d => .cAnd (.ofNat 5 (mp 0 a.toNat)) (.ofNat 5 (mp 0 d.toNat))
  | .cSlli imm d => .cSlli imm (.ofNat 5 (mp 0 d.toNat))
  | .cSrai imm d => .cSrai imm (.ofNat 5 (mp 0 d.toNat))
  | .cLd a d => .cLd (.ofNat 5 (mp 0 a.toNat)) (.ofNat 5 (mp 0 d.toNat))
  | .cSd a d => .cSd (.ofNat 5 (mp 0 a.toNat)) (.ofNat 5 (mp 0 d.toNat))
  | .cBeqz imm d => .cBeqz imm (.ofNat 5 (mp 0 d.toNat))
  | .cBnez imm d => .cBnez imm (.ofNat 5 (mp 0 d.toNat))
  | .cJr a => .cJr (.ofNat 5 (mp 0 a.toNat))
  | .mopa f => .mopa { f with t := .ofNat 2 (mp 5 f.t.toNat), rp := .ofNat 4 (mp 2 f.rp.toNat), cp := .ofNat 4 (mp 2 f.cp.toNat), va := .ofNat 5 (mp 1 f.va.toNat), vb := .ofNat 5 (mp 1 f.vb.toNat), pred := .ofNat 3 (mp 2 f.pred.toNat), ks := if f.us then .ofNat 3 (mp 3 f.ks.toNat) else f.ks }
  | .mops f => .mops { f with t := .ofNat 2 (mp 5 f.t.toNat), rp := .ofNat 4 (mp 2 f.rp.toNat), cp := .ofNat 4 (mp 2 f.cp.toNat), va := .ofNat 5 (mp 1 f.va.toNat), vb := .ofNat 5 (mp 1 f.vb.toNat), pred := .ofNat 3 (mp 2 f.pred.toNat), ks := if f.us then .ofNat 3 (mp 3 f.ks.toNat) else f.ks }
  | .mopi f => .mopi { f with t := .ofNat 2 (mp 5 f.t.toNat), rp := .ofNat 4 (mp 2 f.rp.toNat), cp := .ofNat 4 (mp 2 f.cp.toNat), va := .ofNat 5 (mp 1 f.va.toNat), vb := .ofNat 5 (mp 1 f.vb.toNat), pred := .ofNat 3 (mp 2 f.pred.toNat), ks := if f.us then .ofNat 3 (mp 3 f.ks.toNat) else f.ks }
  | .mopn f => .mopn { f with t := .ofNat 2 (mp 5 f.t.toNat), rp := .ofNat 4 (mp 2 f.rp.toNat), cp := .ofNat 4 (mp 2 f.cp.toNat), va := .ofNat 5 (mp 1 f.va.toNat), vb := .ofNat 5 (mp 1 f.vb.toNat), pred := .ofNat 3 (mp 2 f.pred.toNat), ks := if f.us then .ofNat 3 (mp 3 f.ks.toNat) else f.ks }
  | .mopl f => .mopl { f with t := .ofNat 2 (mp 5 f.t.toNat), rp := .ofNat 4 (mp 2 f.rp.toNat), cp := .ofNat 4 (mp 2 f.cp.toNat), vb := .ofNat 5 (mp 1 f.vb.toNat), pred := .ofNat 3 (mp 2 f.pred.toNat), ks := if f.us then .ofNat 3 (mp 3 f.ks.toNat) else f.ks }
  | .mgrow f => .mgrow { f with t := .ofNat 2 (mp 5 f.t.toNat), rp := .ofNat 4 (mp 2 f.rp.toNat), va := .ofNat 5 (mp 1 f.va.toNat), vb := .ofNat 5 (mp 0 f.vb.toNat), vd := .ofNat 5 (mp 0 f.vd.toNat), pred := .ofNat 3 (mp 2 f.pred.toNat) }
  | .mrowGet f => .mrowGet { f with t := .ofNat 2 (mp 5 f.t.toNat), vd := .ofNat 5 (mp 1 f.vd.toNat), vb := .ofNat 5 (mp 0 f.vb.toNat), pred := .ofNat 3 (mp 2 f.pred.toNat) }
  | .mrowPut f => .mrowPut { f with t := .ofNat 2 (mp 5 f.t.toNat), va := .ofNat 5 (mp 1 f.va.toNat), vb := .ofNat 5 (mp 0 f.vb.toNat), pred := .ofNat 3 (mp 2 f.pred.toNat) }
  | .mcolGet f => .mcolGet { f with t := .ofNat 2 (mp 5 f.t.toNat), vd := .ofNat 5 (mp 1 f.vd.toNat), vb := .ofNat 5 (mp 0 f.vb.toNat), pred := .ofNat 3 (mp 2 f.pred.toNat) }
  | .mcolPut f => .mcolPut { f with t := .ofNat 2 (mp 5 f.t.toNat), va := .ofNat 5 (mp 1 f.va.toNat), vb := .ofNat 5 (mp 0 f.vb.toNat), pred := .ofNat 3 (mp 2 f.pred.toNat) }
  | .mld f => .mld { f with t := .ofNat 2 (mp 5 f.t.toNat), rp := .ofNat 4 (mp 2 f.rp.toNat), cp := .ofNat 4 (mp 2 f.cp.toNat), va := .ofNat 5 (mp 0 f.va.toNat), vb := .ofNat 5 (mp 0 f.vb.toNat) }
  | .mst f => .mst { f with t := .ofNat 2 (mp 5 f.t.toNat), rp := .ofNat 4 (mp 2 f.rp.toNat), cp := .ofNat 4 (mp 2 f.cp.toNat), va := .ofNat 5 (mp 0 f.va.toNat), vb := .ofNat 5 (mp 0 f.vb.toNat) }
  | .mzero f => .mzero { f with t := .ofNat 2 (mp 5 f.t.toNat) }
  | i => i

end

end Sys2Proof.Machine
end

