-- ==== Sys2Proof/Machine/Image.lean ====
section
/-! DEFINITION. Job images: the header, the register, summary and spill sections, and the state with which a hart starts (R322 to R325,
R337, R338). -/

namespace Sys2Proof.Machine

/-- A register of an image's register section: its kind (1 x, 2 v, 3 p, 4 k), its number and its value (R323). -/
structure ImageReg where
  kind : Nat
  reg : Nat
  val : Nat
  deriving DecidableEq, Repr

/-- A job image that has been checked (R322, R323). -/
structure Image where
  mode : Nat
  flags : Nat
  size : Nat
  entry : Word
  frame : Word
  vl : Nat
  vtype : BitVec 14
  memfmt : Word
  fmt : Vector Word 4
  rmode : Word
  tilen : Nat
  dglim : Nat
  stride : Word
  stab : Word
  nstrip : Nat
  ava : Word
  ng : List Nat
  regs : List ImageReg
  sums : List (Nat × Summary)
  spills : List (Nat × Nat × Nat)
  deriving DecidableEq, Repr

/-- What reading a part of an image gives: its content, an offending address (R324), or a page in migration to wait for (R279). -/
inductive ImagePart (α : Type) where
  | ok (a : α)
  | bad (a : Word)
  | stall
  deriving DecidableEq, Repr

/-- JFLAGS.REPRO. -/
def Image.repro (i : Image) : Bool := bitN i.flags 0
/-- JFLAGS.PROT. -/
def Image.prot (i : Image) : Bool := bitN i.flags 1
/-- JFLAGS.DUPLEX. -/
def Image.duplex (i : Image) : Bool := bitN i.flags 2

/-- Read `n` bytes of an image: unreadable or poisoned bytes are offending (R324). -/
def imageBytes (s : State) (pasid : Nat) (va : Word) (n : Nat) : State × ImagePart Nat :=
  match engineRead s pasid va n with
  | (t, .ok (v, pois)) => (t, if pois then .bad va else .ok v)
  | (t, .error (some tr)) => (t, .bad tr.tval)
  | (t, .error none) => (t, .stall)

/-- Byte `o` of `n` bytes of a header, as a number. -/
def hdr (h o n : Nat) : Nat := bitsN h (8 * o) (8 * n)

/-- The header keeps R322 and the arena conditions of R324. A FRAME that is not aligned is accepted, and frames lie where it says (R94).
DESIGN CHOICE: log entry 119. -/
def headerOk (h : Nat) : Bool :=
  let mode := hdr h 0x02 1
  let flags := hdr h 0x03 1
  let size := hdr h 0x04 2
  let most := (if bitN flags 2 then 96 else 192) * 2 ^ mode
  let ava := hdr h 0x88 8
  hdr h 0x00 2 == 1 && decide (mode ≤ 2) && decide (flags < 32) && decide (1 ≤ size ∧ size ≤ most) && hdr h 0x06 2 == 0 &&
  hdr h 0x08 8 % 2 == 0 && decide (hdr h 0x20 2 < 2 ^ 14) && vtypeDefined (BitVec.ofNat 14 (hdr h 0x20 2)) && hdr h 0x22 6 == 0 &&
  hdr h 0x53 5 == 0 && hdr h 0xA0 96 == 0 && hdr h 0x78 8 % 64 == 0 && decide (hdr h 0x80 8 ≤ 2 ^ 31) &&
  (List.range 16).all (fun p => decide (hdr h (0x90 + p) 1 ≤ 96)) && ava % 2 ^ 41 == 0 && ((ava == 0) == (hdr h 0x90 16 == 0))

/-- The register section from `va` (R323): every entry up to the end entry. DEDUCED: log entry 62. -/
def readRegs (s : State) (pasid vrl : Nat) : Nat → Word → State × ImagePart (List ImageReg)
  | 0, va => (s, .bad va)
  | fuel + 1, va =>
    match imageBytes s pasid va 8 with
    | (t, .ok e) =>
      let kind := hdr e 0 1
      let reg := hdr e 1 1
      let len := hdr e 4 4
      let room := match kind with
        | 1 => 8
        | 2 => vrl
        | 3 => vrl / 2
        | _ => vrl / 4
      let regs := match kind with
        | 1 => 32
        | 2 => 32
        | 3 => 16
        | 4 => 8
        | _ => 0
      if hdr e 2 2 ≠ 0 then (t, .bad va)
      else if kind = 0 then (t, .ok [])
      else if regs ≤ reg ∨ room < len ∨ (kind = 1 ∧ len ≠ 8) ∨ (reg = 0 ∧ (kind = 1 ∨ kind = 3)) then (t, .bad va)
      else
        match imageBytes t pasid (va + 8) (ceilTo len 8) with
        | (t, .ok v) =>
          if v / 256 ^ len ≠ 0 then (t, .bad va)
          else
            match readRegs t pasid vrl fuel (va + 8 + W (ceilTo len 8)) with
            | (t, .ok l) => (t, .ok ({ kind := kind, reg := reg, val := v } :: l))
            | r => r
        | (t, .bad a) => (t, .bad a)
        | (t, .stall) => (t, .stall)
    | (t, .bad a) => (t, .bad a)
    | (t, .stall) => (t, .stall)

/-- A descriptor, or an image, at an address of a summary section: the summary and the bytes it takes (R208, R229, R236, R237). A poisoned
byte of the section is offending (R324). -/
def readSummary (s : State) (pasid form : Nat) (va : Word) : State × ImagePart (Summary × Nat) :=
  match imageBytes s pasid va 64 with
  | (t, .bad a) => (t, .bad a)
  | (t, .stall) => (t, .stall)
  | (t, .ok d) =>
    if form = 1 then
      match descriptorSum d with
      | some m => (t, .ok (m, 64))
      | none => (t, .bad va)
    else
      match headerSum d with
      | none => (t, .bad va)
      | some m =>
        let n := bodyBytes m.body.ty m.param
        match imageBytes t pasid (va + 64) n with
        | (t, .bad a) => (t, .bad a)
        | (t, .stall) => (t, .stall)
        | (t, .ok b) =>
          match imageSum m (d + b * 2 ^ 512) with
          | some r => (t, .ok (r, 64 + n))
          | none => (t, .bad va)

/-- The summary section from `va` (R323): entries on 64-byte boundaries. -/
def readSums (s : State) (pasid : Nat) : Nat → Word → State × ImagePart (List (Nat × Summary))
  | 0, va => (s, .bad va)
  | fuel + 1, va =>
    if va.toNat % 64 ≠ 0 then (s, .bad va)
    else
      match imageBytes s pasid va 64 with
      | (t, .ok e) =>
        let reg := hdr e 0 1
        let form := hdr e 1 1
        if hdr e 2 62 ≠ 0 then (t, .bad va)
        else if reg = 0xFF then (t, .ok [])
        else if 16 ≤ reg ∨ (form ≠ 1 ∧ form ≠ 2) then (t, .bad va)
        else
          match readSummary t pasid form (va + 64) with
          | (t, .ok (m, n)) =>
            match readSums t pasid fuel (va + 64 + W (ceilTo n 64)) with
            | (t, .ok l) => (t, .ok ((reg, m) :: l))
            | r => r
          | (t, .bad a) => (t, .bad a)
          | (t, .stall) => (t, .stall)
      | (t, .bad a) => (t, .bad a)
      | (t, .stall) => (t, .stall)

/-- The spill list from `va` (R323): kind, register, offset. -/
def readSpills (s : State) (pasid : Nat) : Nat → Word → State × ImagePart (List (Nat × Nat × Nat))
  | 0, va => (s, .bad va)
  | fuel + 1, va =>
    match imageBytes s pasid va 8 with
    | (t, .ok e) =>
      let kind := hdr e 0 1
      let reg := hdr e 1 1
      if hdr e 2 2 ≠ 0 then (t, .bad va)
      else if kind = 0 then (t, .ok [])
      else if (kind ≠ 1 ∧ kind ≠ 2 ∧ kind ≠ 5) ∨ (if kind = 5 then 16 else 32) ≤ reg ∨ (kind = 1 ∧ reg = 0) then (t, .bad va)
      else
        match readSpills t pasid fuel (va + 8) with
        | (t, .ok l) => (t, .ok ((kind, reg, hdr e 4 4) :: l))
        | r => r
    | (t, .bad a) => (t, .bad a)
    | (t, .stall) => (t, .stall)

/-- The summaries that a section leaves declared: a later entry for a register replaces an earlier one (R205). -/
def lastSums (l : List (Nat × Summary)) : List (Nat × Summary) :=
  l.foldl (fun a e => a.filter (fun x => x.1 != e.1) ++ [e]) []

/-- The bytes of the summary store that summaries take (R205). -/
def sumsBytes (l : List (Nat × Summary)) : Nat := (l.map fun e => footprint e.2).sum

/-- Entries that a section can hold before it leaves the address space. -/
def sectionFuel : Nat := 2 ^ 57

/-- A section, or an empty one when its offset is 0 (R322). -/
def sectionAt {α : Type} (s : State) (va : Word) (off : Nat) (f : State → Word → State × ImagePart (List α)) : State × ImagePart (List α) :=
  if off = 0 then (s, .ok []) else f s (va + W off)

/-- The job image at an address, checked (R322 to R324). DEDUCED: log entry 61. -/
def readJob (s : State) (pasid : Nat) (va : Word) : State × ImagePart Image :=
  match imageBytes s pasid va 256 with
  | (t, .bad a) => (t, .bad a)
  | (t, .stall) => (t, .stall)
  | (t, .ok h) =>
    if !headerOk h then (t, .bad va)
    else
      let mode := hdr h 0x02 1
      let vrl := vrlenIn mode (bitN (hdr h 0x03 1) 1)
      match sectionAt t va (hdr h 0x58 8) (fun s a => readRegs s pasid vrl sectionFuel a) with
      | (t, .bad a) => (t, .bad a)
      | (t, .stall) => (t, .stall)
      | (t, .ok regs) =>
        match sectionAt t va (hdr h 0x60 8) (fun s a => readSums s pasid sectionFuel a) with
        | (t, .bad a) => (t, .bad a)
        | (t, .stall) => (t, .stall)
        | (t, .ok sums) =>
          let sums := lastSums sums
          if 1572864 / 2 ^ mode < sumsBytes sums then (t, .bad (va + 0x60))
          else
            match sectionAt t va (hdr h 0x68 8) (fun s a => readSpills s pasid sectionFuel a) with
            | (t, .bad a) => (t, .bad a)
            | (t, .stall) => (t, .stall)
            | (t, .ok spills) =>
              (t, .ok {
                mode := mode, flags := hdr h 0x03 1, size := hdr h 0x04 2, entry := W (hdr h 0x08 8), frame := W (hdr h 0x10 8),
                vl := hdr h 0x18 8, vtype := BitVec.ofNat 14 (hdr h 0x20 2), memfmt := W (hdr h 0x28 8),
                fmt := Vector.ofFn fun i => W (hdr h (0x30 + 8 * i.val) 8), rmode := W (hdr h 0x50 1), tilen := hdr h 0x51 1,
                dglim := hdr h 0x52 1, stride := W (hdr h 0x70 8), stab := W (hdr h 0x78 8), nstrip := hdr h 0x80 8,
                ava := W (hdr h 0x88 8), ng := (List.range 16).map fun p => hdr h (0x90 + p) 1,
                regs := regs, sums := sums, spills := spills })

/-! ### The state a hart starts with (R325, R338) -/

/-- Put a register section into a hart, through a renumbering by class (R323, R337). -/
def loadRegs (mp : Nat → Nat → Nat) (l : List ImageReg) (h : Hart) : Hart :=
  l.foldl (fun h e =>
    match e.kind with
    | 1 => { h with x := h.x.set (mp 0 e.reg % 32) (W e.val) (Nat.mod_lt _ (by decide)) }
    | 2 => { h with v := h.v.set (mp 1 e.reg % 32) (BitVec.ofNat 32768 e.val) (Nat.mod_lt _ (by decide)) }
    | 3 => { h with p := h.p.set (mp 2 e.reg % 16) (BitVec.ofNat 16384 e.val) (Nat.mod_lt _ (by decide)) }
    | _ => { h with k := h.k.set (mp 3 e.reg % 8) (BitVec.ofNat 8192 e.val) (Nat.mod_lt _ (by decide)) }) h

/-- Declare a summary section in a hart, through a renumbering. -/
def loadSums (mp : Nat → Nat → Nat) (l : List (Nat × Summary)) (h : Hart) : Hart :=
  l.foldl (fun h e => { h with sums := h.sums.set (mp 4 e.1 % 16) (some e.2) (Nat.mod_lt _ (by decide)) }) h

/-- Tile enables of an image, through a renumbering, within the stall's share. -/
def imageTiles (mp : Nat → Nat → Nat) (i : Image) : Nat :=
  (List.range 4).foldl (fun a t => if bitN i.tilen t then a ||| 2 ^ mp 5 t else a) 0 % 2 ^ (4 / 2 ^ i.mode)

/-- The control registers of a role as its header sets them: written as `cr.wr` would write them (R322, R338). -/
def imageCtx (lid : Word) (i : Image) : RoleCtx :=
  { vl := min i.vl (vrlenIn i.mode i.prot * 8 / ewOf i.vtype), vtype := i.vtype, pend := none, vstart := 0, ffidx := 0, memfmt := i.memfmt &&& 0x3C1F,
    fmt := i.fmt.map fun v => v &&& 0x0FFF1FFF, rmode := i.rmode &&& 3, repro := if i.repro then 1 else 0, mflags := 0, tgrant := 128,
    psm := 0, gangid := lid }

/-- DGLIM of a header: 0 means 16, other values are clamped as `cr.wr` clamps them (R56, R322). -/
def imageDglim (i : Image) : Word := if i.dglim = 0 then 16 else W (max 1 (min (i.dglim % 32) 16))

/-- The mapping of a producer's and of an unspliced job's registers. -/
def noRename (_ n : Nat) : Nat := n

/-- A hart of a gang as the image starts it (R51, R325). -/
def startHart (lid : Word) (pasid core stall hartid : Nat) (i : Image) : Hart :=
  let h := Hart.reset core stall
  let h := setRole { h with
    run := .running, hartid := hartid, gangsize := i.size, pasid := pasid, frame := i.frame, prot := i.prot, duplex := i.duplex,
    pc := i.entry, dglim := imageDglim i, tilen := W (imageTiles noRename i), mdirty := BitVec.ofNat 4 (imageTiles noRename i) }
    (imageCtx lid i)
  loadSums noRename i.sums (loadRegs noRename i.regs h)

end Sys2Proof.Machine
end

