-- ==== Sys2Proof/Machine/Extent.lean ====
section
/-! DEFINITION. The harness: code extents, the decision on a pair, renumbering, and the spliced code (R333 to R339). -/

namespace Sys2Proof.Machine

noncomputable section

/-! ### Code extents (R334) -/

/-- The halfword at an even address, as a fetch of a PASID (R33, R334). -/
def fetchHalfAs (s : State) (pasid : Nat) (va : Word) : State × ImagePart Nat :=
  match translate s pasid va .fetch with
  | (t, .ok h) => (t, .ok (memRead t h.key 2))
  | (t, .trap _) => (t, .bad va)
  | (t, .stall) => (t, .stall)

/-- `n` halfwords. -/
def fetchHalvesAs (s : State) (pasid : Nat) (va : Word) : Nat → State × ImagePart Nat
  | 0 => (s, .ok 0)
  | n + 1 =>
    match fetchHalfAs s pasid va with
    | (t, .ok v) =>
      match fetchHalvesAs t pasid (va + 2) n with
      | (u, .ok w) => (u, .ok (v + 65536 * w))
      | r => r
    | r => r

/-- The instruction at an address with its bytes; a pattern that is no instruction keeps its place in the extent and traps there (R32, R47, R334). -/
def fetchAs (s : State) (pasid : Nat) (va : Word) : State × ImagePart (Instr × Nat) :=
  match fetchHalfAs s pasid va with
  | (t, .ok v) =>
    match fetchHalvesAs t pasid (va + 2) (lengthOf v / 2 - 1) with
    | (u, .ok w) =>
      match decodeBits (v + 65536 * w) with
      | .ok i => (u, .ok (i, lengthOf v))
      | .error _ => (u, .ok (.illegalInstruction (W (v + 65536 * w)) 0, lengthOf v))
    | (u, .bad a) => (u, .bad a)
    | (u, .stall) => (u, .stall)
  | (t, .bad a) => (t, .bad a)
  | (t, .stall) => (t, .stall)

/-- An instruction of an extent with its address. -/
abbrev Placed := Word × Instr

/-- A well-formed extent (R334): prologue, body, back branch and epilogue, and the address of its `hm.body`. -/
structure Extent where
  pro : List Placed
  body : List Placed
  back : Placed
  epi : List Placed
  bodyAt : Word
  deriving DecidableEq, Repr

/-- The code from an address up to the first `halt` after an `hm.end`; no more than one of each mark, and no earlier `halt` (R334). -/
def scanExtent (s : State) (pasid : Nat) : Nat → Word → Bool → Bool → State × ImagePart (List Placed)
  | 0, va, _, _ => (s, .bad va)
  | fuel + 1, va, body, fin =>
    match fetchAs s pasid va with
    | (t, .bad a) => (t, .bad a)
    | (t, .stall) => (t, .stall)
    | (t, .ok (i, n)) =>
      let more (b e : Bool) : State × ImagePart (List Placed) :=
        match scanExtent t pasid fuel (va + W n) b e with
        | (u, .ok l) => (u, .ok ((va, i) :: l))
        | r => r
      match i with
      | .hmBody => if body || fin then (t, .bad va) else more true fin
      | .hmEnd => if !body || fin then (t, .bad va) else more body true
      | .halt => if fin then (t, .ok [(va, i)]) else (t, .bad va)
      | _ => more body fin

/-- The target of a branch or jump whose target does not depend on a register (R71, R72, R45). -/
def targetAt (p : Placed) : Option Word :=
  match p.2 with
  | .beq f | .bne f | .blt f | .bge f | .bltn f | .bgen f => some (p.1 + brOff f)
  | .jal f => some (p.1 + offS f.imm)
  | .cBeqz imm _ | .cBnez imm _ => some (p.1 + offS imm)
  | .cJ imm => some (p.1 + offS imm)
  | _ => none

/-- A conditional branch (R334). -/
def isBranch : Instr → Bool
  | .beq _ | .bne _ | .blt _ | .bge _ | .bltn _ | .bgen _ | .cBeqz _ _ | .cBnez _ _ => true
  | _ => false

/-- An instruction is a mark of the body's start. -/
def isBodyMark (p : Placed) : Bool :=
  match p.2 with
  | .hmBody => true
  | _ => false

/-- An instruction is a mark of the body's end. -/
def isEndMark (p : Placed) : Bool :=
  match p.2 with
  | .hmEnd => true
  | _ => false

/-- Cut the code of an extent into its regions, when the back branch is as R334 asks. -/
def cutExtent (l : List Placed) : Option Extent :=
  let pro := l.takeWhile fun p => !isBodyMark p
  match l.drop pro.length with
  | m :: rest =>
    let body := rest.takeWhile fun p => !isEndMark p
    match rest.drop body.length with
    | _ :: b :: epi =>
      if isBranch b.2 ∧ targetAt b = some m.1 ∧ epi ≠ [] then some { pro := pro, body := body, back := b, epi := epi, bodyAt := m.1 } else none
    | _ => none
  | [] => none

/-- The extent of a job. -/
def readExtent (s : State) (pasid : Nat) (entry : Word) : State × ImagePart Extent :=
  match scanExtent s pasid (2 ^ 57) entry false false with
  | (t, .ok l) =>
    match cutExtent l with
    | some e => (t, .ok e)
    | none => (t, .bad entry)
  | (t, .bad a) => (t, .bad a)
  | (t, .stall) => (t, .stall)

/-- Every instruction of an extent. -/
def Extent.all (e : Extent) : List Placed := e.pro ++ e.body ++ e.back :: e.epi

/-- The addresses of a region's instructions; the prologue reaches to the `hm.body` (R334). -/
def regionAddrs (l : List Placed) (fin : List Word) : List Word := (l.map fun p => p.1) ++ fin

/-- No indirect jump, and every branch of a region targets an instruction of that region (R334). DEDUCED: log entry 67. -/
def branchesOk (e : Extent) : Bool :=
  let inside (l : List Placed) (fin : List Word) : Bool := l.all fun p =>
    match targetAt p with
    | some a => (regionAddrs l fin).contains a
    | none => true
  let direct := e.all.all fun p => match p.2 with
    | .jalr _ | .cJr _ => false
    | _ => true
  direct && inside e.pro [e.bodyAt] && inside e.body [] && inside e.epi []

/-! ### Renumbering (R337) -/

/-- The scalar registers whose values are known to the harness: those of the register section at first (R323, R337). -/
abbrev Known := List (Nat × Word)

/-- The value of a scalar register, when it is known. -/
def Known.val (k : Known) (r : Nat) : Option Word := if r = 0 then some 0 else (k.find? fun p => p.1 == r).map fun p => p.2

/-- What is known after an instruction: `ldh`, `addi`, `c.li` and `c.addi` give constants, and what another one names is not known after it. -/
def Known.after (k : Known) (i : Instr) : Known :=
  let put (d : Nat) (v : Option Word) : Known := (v.map fun w => [(d, w)]).getD [] ++ k.filter fun p => p.1 != d
  match i with
  | .ldh f => put f.d.toNat (some (immU f.imm))
  | .addi f => put f.d.toNat ((k.val f.a.toNat).map fun v => v + immS f.imm)
  | .cLi imm d => put d.toNat (some (immS imm))
  | .cAddi imm d => put d.toNat ((k.val d.toNat).map fun v => v + immS imm)
  | i => k.filter fun p => !(usesOf i).contains (0, p.1)

/-- An instruction may give descriptor `n` a scale: it writes the descriptor's control register with a value that is not known, or whose SCL is
not 00. -/
def mayScale (k : Known) (n : Nat) : Instr → Bool
  | .crWr f | .crSet f => f.idx.toNat == 8 + n && ((k.val f.a.toNat).map fun v => bitsN v.toNat 26 2 != 0).getD true
  | _ => false

/-- The code may give descriptor `n` a scale. What is known is forgotten where a branch arrives. -/
def codeScales (regs : Known) (l : List Placed) (n : Nat) : Bool :=
  let targets := l.filterMap targetAt
  (l.foldl (fun (a : Known × Bool) (p : Placed) =>
    let k := if targets.contains p.1 then [] else a.1
    (Known.after k p.2, a.2 || mayScale k n p.2)) (regs, false)).2

/-- The scale registers that a job's narrow operands imply (R136, R337): those of descriptors that the image scales or that the code may give a
scale. A descriptor that is never scaled implies none, so that the two jobs of chapter 23 can be spliced. DEDUCED: log entry 66. -/
def impliedScales (i : Image) (l : List Placed) : List Nat :=
  let regs : Known := i.regs.filterMap fun (r : ImageReg) => if r.kind = 1 then some (r.reg, W r.val) else none
  (List.range 4).filter fun n =>
    (l.any fun x => (narrowOf x.2).contains n) && (bitsN ((i.fmt[n]?).getD 0).toNat 26 2 != 0 || codeScales regs l n)

/-- The class of a section entry's kind. -/
def kindClass (kind : Nat) : Nat := if kind = 5 then 4 else kind - 1

/-- Every register that a job uses (R337). -/
def jobUses (i : Image) (l : List Placed) : List (Nat × Nat) :=
  ((l.map fun (p : Placed) => p.2).flatMap usesOf ++ (impliedScales i l).map (fun n => (3, n)) ++ i.regs.map (fun (r : ImageReg) => (kindClass r.kind, r.reg)) ++
    i.sums.map (fun (m : Nat × Summary) => (4, m.1)) ++ i.spills.map (fun (p : Nat × Nat × Nat) => (kindClass p.1, p.2.1)) ++
    ((List.range (4 / 2 ^ i.mode)).filter fun t => bitN i.tilen t).map fun t => (5, t)).eraseDups

/-- The registers of a class that a job uses, in ascending order. -/
def usedIn (u : List (Nat × Nat)) (cls : Nat) : List Nat := (List.range 32).filter fun n => u.contains (cls, n)

/-- How many registers a class has. -/
def classSize (mode cls : Nat) : Nat :=
  match cls with
  | 0 => 32
  | 1 => 32
  | 2 => 16
  | 3 => 8
  | 4 => 16
  | _ => 4 / 2 ^ mode

/-- Place the consumer's registers of a class that the producer uses too: each gets the lowest number that neither job uses and that no
earlier one received; `x0`, `p0` and `v0` are not given (R337). -/
def placeClass (cls lim : Nat) (pu cu : List Nat) : Option (List (Nat × Nat)) :=
  let moved := cu.filter fun r => pu.contains r && !(r == 0 && (cls == 0 || cls == 2))
  moved.foldl (fun a r =>
    a.bind fun m =>
      match (List.range lim).find? fun n =>
          !pu.contains n && !cu.contains n && !(m.any fun x => x.2 == n) && !(n == 0 && decide (cls ≤ 2)) with
      | some n => some (m ++ [(r, n)])
      | none => none) (some [])

/-- The mapping of the consumer's registers, or the refusal 0x14 or 0x15 (R336, R337). DEDUCED: log entry 66. -/
def placeAll (mode : Nat) (pu cu : List (Nat × Nat)) : Except Nat (List (List (Nat × Nat))) :=
  (List.range 6).foldl (fun a cls =>
    match a with
    | .error e => .error e
    | .ok l =>
      let p := usedIn pu cls
      let c := usedIn cu cls
      if cls = 5 ∧ classSize mode 5 < p.length + c.length then .error 0x15
      else
        match placeClass cls (classSize mode cls) p c with
        | some m => .ok (l ++ [m])
        | none => .error (if cls = 5 then 0x15 else 0x14)) (.ok [])

/-- A renumbering as a function. -/
def mapReg (l : List (List (Nat × Nat))) (cls n : Nat) : Nat :=
  (((l[cls]?).getD []).find? fun p => p.1 == n).map (fun p => p.2) |>.getD n

/-- The renumbering can be written into the consumer's fields: each rewritten instruction names the images of the registers that it named, groups
and implied registers among them; a register that must be even stays so; and a scale register that a narrow operand may imply is not moved.
DEDUCED: log entry 66. -/
def canRename (mp : Nat → Nat → Nat) (i : Image) (l : List Placed) : Bool :=
  (l.all fun x => usesOf (renameInstr mp x.2) == (usesOf x.2).map (fun r => (r.1, mp r.1 r.2)) &&
    (evenOf x.2).all fun r => mp r.1 r.2 % 2 == r.2 % 2) && (impliedScales i l).all fun n => mp 3 n == n

/-- An instruction uses a pennant channel (R336). -/
def usesPennant (i : Instr) : Bool :=
  match i with
  | .pnTake _ _ | .pnPost _ | .pnPostVl _ | .pnSend _ _ | .pnRecvCh2 _ | .pnRecvCh4 _ | .pnCnt _ _ => true
  | i => ((acOf i).map fun f => f.tk != 0 || f.po != 0).getD false

/-- An instruction uses an accumulation window (R336). -/
def usesWindow : Instr → Bool
  | .awinDecl _ | .awinUpd _ | .awinMerge _ => true
  | _ => false

/-! ### Linked pairs and the spliced code (R339, R340) -/

/-- The tag of a linked store, and whether it is transient. -/
def linkedStoreTag : Instr → Option (Nat × Bool)
  | .vstXn f => some (f.pred.toNat, false)
  | .vstXtn f => some (f.pred.toNat, true)
  | _ => none

/-- The tag of a linked load, and whether it is transient. -/
def linkedLoadTag : Instr → Option (Nat × Bool)
  | .vldXn f => some (f.pred.toNat, false)
  | .vldXtn f => some (f.pred.toNat, true)
  | _ => none

/-- The linked forms of a body with a tag. -/
def linkedOf (l : List Instr) (tag : Nat) : List Instr :=
  l.filter fun i => (linkedStoreTag i).map (fun t => t.1) == some tag || (linkedLoadTag i).map (fun t => t.1) == some tag

/-- A tag forms a linked pair: a producer store and a consumer load, the only linked form with that tag in each body (R340); and both
forms are transient. -/
def pairTag (p c : List Instr) (tag : Nat) : Option Bool :=
  match linkedOf p tag, linkedOf c tag with
  | [a], [b] =>
    match linkedStoreTag a, linkedLoadTag b with
    | some x, some y => some (x.2 && y.2)
    | _, _ => none
  | _, _ => none

/-- One region of a role in the spliced code: the targets of its branches are spliced indices, the region starting at `base`; a branch to the
`hm.body` ends the prologue. -/
def placeRegion (consumer : Bool) (region base : Nat) (mp : Nat → Nat → Nat) (fin : List Word) (l : List Placed) : List SpInstr :=
  l.map fun p =>
    { consumer := consumer, orig := p.1, region := region, instr := renameInstr mp p.2,
      target := base + ((targetAt p).bind fun a => (regionAddrs l fin).findIdx? fun q => q == a).getD 0 }

/-- The spliced code (R339): prologues, bodies, back branches, epilogues, the producer's first. -/
def spliceCode (p c : Extent) (mp : Nat → Nat → Nat) : List SpInstr :=
  [(false, 0, p.pro), (true, 0, c.pro), (false, 1, p.body), (true, 1, c.body), (false, 2, [p.back]), (true, 2, [c.back]),
    (false, 3, p.epi), (true, 3, c.epi)].foldl (fun a (r : Bool × Nat × List Placed) =>
      a ++ placeRegion r.1 r.2.1 a.length (if r.1 then mp else noRename)
        (if r.2.1 = 0 then [if r.1 then c.bodyAt else p.bodyAt] else []) r.2.2) []

/-- Decide on two images and their extents: the refusals 0x14 to 0x17 of R336 in the order of their codes, or the plan. -/
def planSplice (pi ci : Image) (pe ce : Extent) : Except Nat Plan :=
  let pl := pe.all.map fun p => p.2
  let cl := ce.all.map fun p => p.2
  let pu := jobUses pi pe.all
  let cu := jobUses ci ce.all
  match placeAll pi.mode pu cu with
  | .error e => .error e
  | .ok maps =>
    let mp := mapReg maps
    if !canRename mp ci ce.all then .error 0x14
    else if 1572864 / 2 ^ pi.mode < sumsBytes pi.sums + sumsBytes ci.sums then .error 0x16
    else if (pl.any usesPennant && cl.any usesPennant) || (pl.any usesWindow && cl.any usesWindow) then .error 0x17
    else
      let pb := pe.body.map fun p => p.2
      let cb := ce.body.map fun p => p.2
      let tags := (List.range 8).filter fun t => (pairTag pb cb t).isSome
      .ok {
        maps := maps, code := spliceCode pe ce mp, tags := tags, both := tags.filter fun t => (pairTag pb cb t).getD false,
        tilesP := usedIn pu 5, tilesC := (usedIn cu 5).map fun t => (t, mp 5 t) }

/-- Read both extents and decide (R334, R336): a refusal code or the plan; none while a page is in migration. -/
def planPair (s : State) (pasid : Nat) (pi ci : Image) : State × Option (Except Nat Plan) :=
  if pi.mode ≠ ci.mode ∨ pi.size ≠ ci.size ∨ pi.flags ≠ ci.flags ∨ ci.stab ≠ 0 ∨ (ci.ng.any fun n => n != 0) then (s, some (.error 0x11))
  else
    match readExtent s pasid pi.entry with
    | (t, .stall) => (t, none)
    | (t, .bad _) => (t, some (.error 0x12))
    | (t, .ok pe) =>
      match readExtent t pasid ci.entry with
      | (u, .stall) => (u, none)
      | (u, .bad _) => (u, some (.error 0x12))
      | (u, .ok ce) => (u, some (if branchesOk pe && branchesOk ce then planSplice pi ci pe ce else .error 0x13))

/-- A hart of a spliced gang (R338, R339): the producer's image, then the consumer's sections through the renumbering; each role has its
own context, and the code is the spliced code. -/
def startSpliced (lid lid2 : Word) (pasid core stall hartid : Nat) (pi ci : Image) (p : Plan) : Hart :=
  let mp := mapReg p.maps
  let h := loadSums mp ci.sums (loadRegs mp ci.regs (startHart lid pasid core stall hartid pi))
  let tiles := h.tilen.toNat ||| imageTiles mp ci
  { h with
    pc := spliceAddr 0, tilen := W tiles, mdirty := BitVec.ofNat 4 tiles,
    splice := some {
      code := p.code, consumer := false, other := imageCtx lid2 ci, taken := none, unzipped := none, linked := [], tags := p.tags,
      both := p.both, tilesP := p.tilesP, tilesC := p.tilesC } }

end

end Sys2Proof.Machine
end

