-- ==== Sys2Proof/Machine/Launch.lean ====
section
/-! DEFINITION. The launch engine: fetching records, readiness, the pair decision, selection, placement and start, strips, halting, the end of
a gang and completion records (R81, R83, R99, R318 to R332, R336, R342, R344, R345). -/

namespace Sys2Proof.Machine

/-! ### Launches and queues -/

/-- A command queue (R318). -/
def queueOf (s : State) (q : BitVec 6) : CQueue := s.queues[q.toNat]

/-- Replace a command queue. -/
def setQueue (s : State) (q : BitVec 6) (c : CQueue) : State := { s with queues := s.queues.set q.toNat c }

/-- The launch with an id. -/
def launchOf (s : State) (lid : Word) : Option Launch := s.launches.find? fun l => l.lid == lid

/-- Replace a launch. -/
def setLaunch (s : State) (l : Launch) : State := { s with launches := s.launches.map fun k => if k.lid = l.lid then l else k }

/-- A result with nothing set (R331). -/
def Result.blank : Result := { code := 0, cause := 0, epc := 0, tval := 0, hart := 0, energy := 0, origin := 0 }

/-- A result with a code and a trap value. -/
def refusal (code : Nat) (tval : Word) : Result := { Result.blank with code := code, tval := tval }

/-- A launch ends with a result, and awaits its completion record (R331). -/
def endLaunch (s : State) (l : Launch) (r : Result) : State := setLaunch s { l with phase := .ended, result := r }

/-- A launch has been fetched and has not started (R319). -/
def waiting (l : Launch) : Bool := l.phase == .fetched || l.phase == .ready || l.phase == .selected

/-- How many records of a queue wait (R319). -/
def waitingIn (s : State) (q : Nat) : Nat := s.launches.countP fun l => l.queue == q && waiting l

/-- The launch id of sequence number `n` of a queue (R318). -/
def lidOf (q n : Nat) : Word := W (q * 2 ^ 56 + (n + 1))

/-- The launch-ring or completion-ring slot of sequence number `n` (R318). -/
def slotAt (base : Word) (log2 n : Nat) : Word := base + W (n % 2 ^ log2 * 64)

/-- Dependence `i` of a record (R320). -/
def recordDep (r i : Nat) : Dep := { kind := bitsN r (8 * 0x0B + 2 * i) 2, a := W (hdr r (0x10 + 16 * i) 8), b := W (hdr r (0x18 + 16 * i) 8) }

/-- A dependence keeps R320: none is all zero, a launch dependence has a zero second half, a watermark is aligned. -/
def depOk (d : Dep) : Bool :=
  match d.kind with
  | 0 => d.a == 0 && d.b == 0
  | 1 => d.b == 0
  | 2 => d.a.toNat % 8 == 0
  | _ => false

/-- A record keeps R320. -/
def recordOk (r : Nat) : Bool :=
  hdr r 0 8 % 256 == 0 && decide (hdr r 8 1 < 8) && decide (hdr r 9 1 < 4) && decide (hdr r 0x0A 1 < 2) && decide (hdr r 0x0B 1 < 64) &&
  decide (hdr r 0x0C 4 < 2 ^ 20) && (List.range 3).all fun i => depOk (recordDep r i)

/-- The launch of a record (R320); a marked launch carries 0x10 until the harness decides (R331). -/
def launchFrom (q : BitVec 6) (n r : Nat) : Launch :=
  let mark := bitN (hdr r 0x0A 1) 0
  { lid := lidOf q.toNat n, queue := q.toNat, seq := n, image := W (hdr r 0 8), prio := hdr r 8 1, eclass := hdr r 9 1, splice := mark,
    deps := (List.range 3).map (recordDep r), met := [], pasid := hdr r 0x0C 4, phase := .fetched, readyAt := 0, readyNo := 0, places := [],
    hreason := if mark then 0x10 else 0, pair := none, plan := none, consumer := false, decided := !mark, result := Result.blank }

/-- The next record of a queue is fetched (R319): copied and counted in HEAD. A record of a queue whose PASID is not active, or of another PASID,
completes with PASIDGONE; one that cannot be read or reads as poison with BADREC and its slot's address, a malformed one with BADREC, and one
whose image is refused with BADIMAGE (R276, R320, R324). A record that had been appended when its PASID was torn down completes with PASIDGONE (R278). Nothing happens while the queue is disabled, empty or full of waiting records, its function is not in
RUN, or a page is in migration (R319, R354; log entry 7). DEDUCED: log entry 60. -/
def execRecordFetch (q : BitVec 6) (s : State) : Out :=
  let c := queueOf s q
  if c.head < c.goneTo then
    .next { setQueue s q { c with head := c.head + 1 } with
      launches := s.launches ++ [{ launchFrom q c.head 0 with phase := .ended, result := refusal 3 0 }] }
  else if !c.en ∨ c.tail ≤ c.head ∨ 16 ≤ waitingIn s q.toNat ∨ s.dev.tdisp[q.toNat / 32] ≠ .run ∨ (contextOf s c.pasid).state = 2 then .next s
  else
    let slot := slotAt c.base c.log2 c.head
    let add (t : State) (l : Launch) : Out :=
      .next { setQueue t q { c with head := c.head + 1 } with launches := t.launches ++ [l] }
    let done (t : State) (l : Launch) (r : Result) : Out := add t { l with phase := .ended, result := r }
    if (contextOf s c.pasid).state ≠ 1 then done s (launchFrom q c.head 0) (refusal 3 0)
    else
      match engineRead s c.pasid slot 64 with
      | (_, .error none) => .next s
      | (t, .error (some _)) => done t (launchFrom q c.head 0) (refusal 6 slot)
      | (t, .ok (r, pois)) =>
        let l := launchFrom q c.head r
        if pois then done t (launchFrom q c.head 0) (refusal 6 slot)
        else if !recordOk r then done t l (refusal 6 0)
        else if l.pasid ≠ c.pasid then done t l (refusal 3 0)
        else
          match readJob t l.pasid l.image with
          | (_, .stall) => .next s
          | (u, .bad a) => done u l (refusal 4 a)
          | (u, .ok _) => add u l

/-! ### Readiness (R321) -/

/-- How a dependence stands. -/
inductive DepState where
  | met
  | waits
  | fails (tval : Word)
  deriving DecidableEq, Repr

/-- The state of one dependence (R321). -/
def depState (s : State) (pasid : Nat) (d : Dep) : State × DepState :=
  match d.kind with
  | 1 =>
    match standing s d.a with
    | .pending => (s, .waits)
    | .held v => (s, if v.toNat % 256 = 0 then .met else .fails d.a)
    | .unknown => (s, .met)
  | 2 =>
    match engineRead s pasid d.a 8 with
    | (t, .ok (v, pois)) => (t, if pois then .fails d.a else if d.b.toNat ≤ v then .met else .waits)
    | (t, .error (some _)) => (t, .fails d.a)
    | (t, .error none) => (t, .waits)
  | _ => (s, .met)

/-- The dependences of a launch that have not been met, one after the other: those met now, whether one still waits, and the first that
fails. -/
def depsState (s : State) (l : Launch) : State × List Nat × Bool × Option Word :=
  (List.range l.deps.length).foldl (fun a i =>
    match l.deps[i]? with
    | none => a
    | some d =>
      if l.met.contains i then a
      else
        match depState a.1 l.pasid d with
        | (t, .met) => (t, a.2.1 ++ [i], a.2.2)
        | (t, .waits) => (t, a.2.1, true, a.2.2.2)
        | (t, .fails v) => (t, a.2.1, a.2.2.1, some (a.2.2.2.getD v))) (s, [], false, none)

/-- The record after this one has been appended, and fetched or not held back by a pause in fetching (R336). -/
def nextComes (s : State) (l : Launch) : Bool :=
  (s.launches.any fun k => k.queue == l.queue && k.seq == l.seq + 1) ||
    (match s.queues[l.queue]? with
      | some c => decide (l.seq + 1 < c.tail) && decide (waitingIn s l.queue < 16)
      | none => false)

/-- The number that the next launch to become ready gets (R326). -/
def nextReady (s : State) : Nat := s.launches.foldl (fun n l => max n (l.readyNo + 1)) 1

/-- A fetched launch becomes ready once its dependences are met, and completes with DEPFAIL when one fails (R321). A marked launch with no
record after it has no partner (R336). A consumer that has been spliced becomes ready with its producer. -/
def execLaunchReady (lid : Word) (s : State) : Out :=
  match launchOf s lid with
  | none => .next s
  | some l =>
    if l.phase ≠ .fetched ∨ l.consumer then .next s
    else
      match depsState s l with
      | (t, met, waits, fails) =>
        let l := { l with met := l.met ++ met }
        match fails with
        | some v => .next (endLaunch t l (refusal 5 v))
        | none =>
          if waits then .next (setLaunch t l)
          else .next (setLaunch t { l with phase := .ready, readyAt := t.time, readyNo := nextReady t, decided := l.decided || !nextComes t l })

/-! ### The pair decision (R335, R336) -/

/-- C may be the consumer of P's pair as far as marks, dependences and progress go (R335). -/
def mayPair (p c : Launch) : Bool :=
  p.splice && c.splice && c.pair.isNone && (c.phase == .fetched || c.phase == .ready) &&
  (c.deps.any fun d => d.kind == 2) && c.deps.all fun d => d.kind != 1 || d.a == p.lid

/-- A refused pair: both launches run as ordinary ones, with the code; a consumer that decides later as a producer takes that code
(R336). DEDUCED: log entry 68. -/
def refusePair (s : State) (p : Launch) (c : Option Launch) (code : Nat) : State :=
  let t := setLaunch s { p with decided := true, hreason := code }
  match c with
  | some c => if c.splice ∧ waiting c ∧ c.pair.isNone then setLaunch t { c with hreason := if c.decided then c.hreason else code } else t
  | none => t

/-- A spliced pair. -/
def joinPair (s : State) (p c : Launch) (n : Plan) : State :=
  let t := setLaunch s { p with decided := true, hreason := 1, pair := some c.lid, plan := some n }
  setLaunch t { c with decided := true, hreason := 1, pair := some p.lid, consumer := true }

/-- The harness decides on the pair of a ready marked launch, once the record after it has been fetched (R336); a launch whose image is refused
by then completes with BADIMAGE (R324). DEDUCED: log entry 60. -/
noncomputable def execPairDecision (lid : Word) (s : State) : Out :=
  match launchOf s lid with
  | none => .next s
  | some p =>
    if p.phase ≠ .ready ∨ p.decided ∨ p.pair.isSome then .next s
    else
      match s.launches.find? fun k => k.queue == p.queue && k.seq == p.seq + 1 with
      | none => .next s
      | some c =>
        if !mayPair p c then .next (refusePair s p (some c) 0x10)
        else
          match readJob s p.pasid p.image, readJob s c.pasid c.image with
          | (_, .ok pi), (_, .ok ci) =>
            match planPair s p.pasid pi ci with
            | (_, none) => .next s
            | (t, some (.error code)) => .next (refusePair t p (some c) code)
            | (t, some (.ok n)) => .next (joinPair t p c n)
          | (t, .bad a), _ => .next (endLaunch t p (refusal 4 a))
          | _, (t, .bad a) => .next (endLaunch t c (refusal 4 a))
          | _, _ => .next s

/-! ### Selection (R326, R327) -/

/-- A core that has power may hold harts of a job in a mode (R325, R353, R360): it runs in the mode with no other pending, or is idle; an ordinary job does not
use a core that is quarantined for good. -/
def coreServes (s : State) (c mode : Nat) (checked : Bool) : Bool :=
  let r := coreOf s c
  s.dev.computeOn && (!r.gone || checked) && (coreIdle s c || r.cur == mode && r.pend.isNone)

/-- The cores of the module for a job, in ascending order: a core whose number its spare has taken serves protected jobs as well (R353).
DESIGN CHOICE: log entry 105. -/
def coreNumbers (s : State) (i : Image) : List Nat :=
  List.range 192 ++
    if i.prot && !i.duplex then (List.range 24).filterMap fun k => if s.cores.any fun r => r.spare && clusterOf r.id == k then some (192 + k) else none
    else []

/-- The free places for a job, in ascending order: core and stall. A duplex hart takes the same stall of an even core and the next one
(R352). DESIGN CHOICE: log entry 35. -/
def freePlaces (s : State) (i : Image) : List (Nat × Nat) :=
  let checked := i.prot || i.duplex
  (coreNumbers s i).flatMap fun c =>
    if !coreServes s c i.mode checked || i.duplex && (c % 2 == 1 || !coreServes s (c + 1) i.mode checked) then []
    else ((List.range (2 ^ i.mode)).filter fun t => stallFree s c t && (!i.duplex || stallFree s (c + 1) t)).map fun t => (c, t)

/-- W of an energy class in watts (R327). -/
def classWatts (e : Nat) : Nat := (([6, 9, 12, 16] : List Nat)[e]?).getD 16

/-- The energy class that a launch draws with: the larger of the two of a splice (R336). -/
def drawClass (s : State) (l : Launch) : Nat :=
  match l.pair.bind (launchOf s) with
  | some c => max l.eclass c.eclass
  | none => l.eclass

/-- The cores of a gang's places. -/
def coresOf (l : List (Nat × Nat)) : List Nat := (l.map fun p => p.1).eraseDups

/-- The cores that the gang of a launch needs (R327). DEDUCED: log entry 82. -/
def coresNeeded (s : State) (l : Launch) : Nat :=
  match readJob s l.pasid l.image with
  | (_, .ok i) => ceilDiv i.size (2 ^ i.mode)
  | _ => 0

/-- The projected draw of a launch on cores in sixteenths of a watt (R327): as many as its gang needs, each at its cluster's clock. -/
def projected (s : State) (l : Launch) (cores : List Nat) : Nat :=
  ((cores.take (coresNeeded s l)).map fun c => classWatts (drawClass s l) * (s.dev.clocks[clusterOf c]?).getD 16).sum

/-- Effective priority (R326): time is in microseconds. -/
def effective (s : State) (l : Launch) : Nat := min 7 (l.prio + (s.time - l.readyAt) / 2000)

/-- One candidate goes before another: higher effective priority, ready first, lower queue (R326). -/
def before (s : State) (a b : Launch) : Bool :=
  decide (effective s b < effective s a) || effective s a == effective s b &&
    (decide (a.readyNo < b.readyNo) || a.readyNo == b.readyNo && decide (a.queue < b.queue))

/-- The best of a list of candidates. -/
def best (s : State) (l : List (Launch × List Nat)) : Option (Launch × List Nat) :=
  l.foldl (fun a c => match a with
    | some b => if before s c.1 b.1 then some c else some b
    | none => some c) none

/-- The places that a ready launch would take now; none when free cores cannot place it (R326). -/
def placesFor (s : State) (l : Launch) : Option (List (Nat × Nat)) :=
  match readJob s l.pasid l.image with
  | (_, .ok i) =>
    let p := (freePlaces s i).take i.size
    if p.length = i.size then some p else none
  | _ => none

/-- The stalls that a launch is bound to when it takes places: a duplex hart takes its twin's as well (R352). -/
def stallsFor (s : State) (l : Launch) : List (Nat × Nat) :=
  match readJob s l.pasid l.image with
  | (_, .ok i) =>
    let p := (placesFor s l).getD []
    if i.duplex then p ++ p.map fun x => (x.1 + 1, x.2) else p
  | _ => []

/-- A ready launch whose image is refused when the scheduler looks at it, with what is offending (R324). -/
def badImage (s : State) (l : Launch) : Option (Launch × Word) :=
  if l.phase = .ready ∧ l.decided ∧ !l.consumer then
    match readJob s l.pasid l.image with
    | (_, .bad a) => some (l, a)
    | _ => none
  else none

/-- Both launches of a pair, or the one launch, end with a result. -/
def endBoth (s : State) (l : Launch) (r : Result) : State :=
  let s := endLaunch s l r
  match l.pair.bind (launchOf s) with
  | some c => endLaunch s c r
  | none => s

/-- The candidates of a selection with the cores that each would take. -/
def candidates (s : State) : List (Launch × List Nat) :=
  s.launches.filterMap fun l =>
    if l.phase = .ready ∧ l.decided ∧ !l.consumer then (placesFor s l).map fun p => (l, coresOf p) else none

/-- Lower the clocks of a launch's clusters step by step until its projection fits; never below one sixteenth. -/
def lowerClocks (l : Launch) (cores : List Nat) (room : Nat) : Nat → State → State
  | 0, s => s
  | n + 1, s =>
    if projected s l cores ≤ room then s
    else
      let hit (k : Nat) : Bool := cores.any fun c => clusterOf c == k
      lowerClocks l cores room n
        { s with dev := { s.dev with clocks := Vector.ofFn fun k => if hit k.val then max 1 (s.dev.clocks[k] - 1) else s.dev.clocks[k] } }

/-- The draw over the last 1 ms is measured, and PWRNOW shows it: what is drawn is free (R327, R358; log entry 5). -/
def measured (s : State) : State :=
  let f := takeFree s
  { f.2 with dev := { f.2.dev with pwrnow := (Config.power f.1).toNat % 65536 } }

/-- The global scheduler selects a launch (R326): the candidate of highest effective priority that fits the headroom, or, when none fits, the
one of highest effective priority at lower clocks; it is bound to the places that were free. A ready launch whose image is refused by then completes
with BADIMAGE (R324). One launch at a time is bound. The measured draw is free (R327, R358; log entry 5). DESIGN CHOICE: log entry 36. -/
def execSchedulerSelection (s : State) : Out :=
  if s.launches.any fun l => l.phase == .selected then .next s
  else
    match s.launches.findSome? (badImage s) with
    | some x => .next (endBoth s x.1 (refusal 4 x.2))
    | none =>
      let n := measured s
      let room := 16 * (n.dev.pwrlim - n.dev.pwrnow)
      let cs := candidates s
      let bind (l : Launch) : Launch := { l with phase := .selected, places := stallsFor s l }
      match best s (cs.filter fun c => decide (projected s c.1 c.2 ≤ room)) with
      | some c => .next (setLaunch n (bind c.1))
      | none =>
        match best s cs with
        | some c => .next (setLaunch (lowerClocks c.1 c.2 room 16 n) (bind c.1))
        | none => .next s

/-- The watts that a step of 1/16 of a cluster's clock adds, in sixteenths: W of the class of the launch that each of its cores serves or is bound
to (R327). -/
def raiseWatts (s : State) (cluster : Nat) : Nat :=
  (((192 + cluster) :: (List.range 8).map (8 * cluster + ·)).map fun c =>
    let serves (l : Launch) : Bool := l.phase == .running && ((harts s).any fun h => runsOn h c && h.run == .running && ownerGang s h == l.lid) ||
      l.phase == .selected && l.places.any fun p => p.1 == c
    ((s.launches.find? serves).map fun l => classWatts (drawClass s l)).getD 0).sum

/-- A lowered clock is raised a step when the headroom allows what the step adds (R327). The measured draw is free (log entry 5).
DEDUCED: log entry 102. -/
def execClockRaise (cluster : BitVec 5) (s : State) : Out :=
  let n := measured s
  let k := cluster.toNat
  if 16 ≤ (s.dev.clocks[k]?).getD 16 ∨ 16 * (n.dev.pwrlim - n.dev.pwrnow) < raiseWatts s k then .next s
  else
    .next { n with dev := { n.dev with clocks := Vector.ofFn fun i => if i.val = k then s.dev.clocks[i] + 1 else s.dev.clocks[i] } }

/-! ### Sheds of a job (R306) -/

/-- The first `n` free extents of a plane; none when there are not so many, or its switch has failed. -/
def freeExtents (s : State) (plane n : Nat) : Option (List Nat) :=
  if n = 0 then some []
  else if s.sheds.failed.contains plane then none
  else
    let l := ((List.range 96).filter fun e => !(s.sheds.extents.any fun x => x.1 == plane && x.2.1 == e)).take n
    if l.length = n then some l else none

/-- The extents that a job is given, plane by plane. -/
def pickExtents (s : State) (ng : List Nat) : Option (List (Nat × Nat)) :=
  (List.range ng.length).foldl (fun a p =>
    a.bind fun l => (freeExtents s p ((ng[p]?).getD 0)).map fun e => l ++ e.map fun x => (p, x)) (some [])

/-- The address of the leaf entry at a level of a PASID's table, when the tables above it are there. -/
def leafSlot (m : List Host.Cell) (va level : Nat) : Nat → Nat → Option Nat
  | 0, _ => none
  | l + 1, table =>
    let pa := table + 8 * (va / 2 ^ (12 + 9 * l) % 512)
    if l = level then some pa
    else
      let pte := Memory.readN m pa 8
      if bitN pte 0 && !bitN pte 1 && !bitN pte 2 && !bitN pte 3 then leafSlot m va level l (bitsN pte 10 44 * 4096) else none

/-- The address of the leaf entry at a level, the tables above it built where they are missing, in pages of DRAM that the management cores take
(R306). -/
def buildSlot (va level : Nat) : Nat → Nat → State → State × Option Nat
  | 0, _, s => (s, none)
  | l + 1, table, s =>
    let pa := table + 8 * (va / 2 ^ (12 + 9 * l) % 512)
    if l = level then (s, some pa)
    else
      let pte := Memory.readN s.mem pa 8
      if bitN pte 0 then
        if !bitN pte 1 && !bitN pte 2 && !bitN pte 3 then buildSlot va level l (bitsN pte 10 44 * 4096) s else (s, none)
      else
        let n := takeFree s
        let page := (Config.tablePage n.1).toNat % (s.drams * 2 ^ 26) * 4096
        buildSlot va level l page
          { n.2 with mem := Memory.writeN (Memory.clear n.2.mem page 4096) pa 8 (1 + page / 4096 * 1024),
                     poison := n.2.poison.filter fun g => !(decide (granule page ≤ g) && decide (g < granule page + 64)) }

/-- Write a leaf of 1 GiB for an arena extent, or remove it: the management cores map and unmap the arena (R306). The page that they take for a
missing table is a free value. DEDUCED: log entry 64. -/
def mapExtent (s : State) (pasid : Nat) (ava : Word) (plane n : Nat) (pte : Nat) : State :=
  let va := ava.toNat + plane * 2 ^ 37 + n * 2 ^ 30
  let r := if pte = 0 then (s, leafSlot s.mem va 2 5 (contextOf s pasid).root) else buildSlot va 2 5 (contextOf s pasid).root s
  match r with
  | (s, some pa) =>
    { s with mem := Memory.writeN s.mem pa 8 pte, tlb := s.tlb.filter fun e => !(e.pasid == pasid && decide (e.base ≤ va) && decide (va < e.base + e.size)) }
  | (s, none) => s

/-- A leaf of an extent: valid, readable, writable, for the user (R270). -/
def extentLeaf (plane e : Nat) : Nat := 0x17 + (shedKey plane (512 * e)) / 4096 * 1024

/-- Reserve and map the extents of a job. -/
def giveArena (s : State) (pasid : Nat) (lid ava : Word) (l : List (Nat × Nat)) : State :=
  let s := { s with sheds := { s.sheds with extents := s.sheds.extents ++ l.map fun p => (p.1, p.2, lid) } }
  (l.foldl (fun (a : State × List Nat) p =>
    (mapExtent a.1 pasid ava p.1 (a.2.countP fun q => q == p.1) (extentLeaf p.1 p.2), a.2 ++ [p.1])) (s, [])).1

/-- Free every block of a job's arena, release its extents and unmap them (R306). -/
def dropArena (s : State) (pasid : Nat) (lid ava : Word) (ng : List Nat) : State :=
  let gone := s.sheds.blocks.filter fun b => b.gang == lid
  let s := gone.foldl (fun s b => zeroShed s b.plane b.block) s
  let s := (List.range ng.length).foldl (fun s p =>
    (List.range ((ng[p]?).getD 0)).foldl (fun s n => mapExtent s pasid ava p n 0) s) s
  { s with sheds := { s.sheds with
      blocks := s.sheds.blocks.filter fun b => b.gang != lid,
      extents := s.sheds.extents.filter fun e => e.2.2 != lid } }

/-! ### Start (R325, R328) -/

/-- The scratchpad partition of a stall is zeroed for a new hart (R51, R59). -/
def clearPartition (s : State) (core stall mode : Nat) : State :=
  let n := 2 ^ 21 / 2 ^ mode
  let k := spadKey core + stall * n
  { s with mem := Memory.clear s.mem k n,
           poison := s.poison.filter fun g => !(decide (granule k ≤ g) && decide (g < granule k + n / 8)) }

/-- Harts that are no longer needed leave, and new ones join: when the focused hart is one that leaves, the first new one is focused. -/
def enroll (s : State) (new : List Hart) : State :=
  let dead (h : Hart) : Bool := h.run == .idle || h.run == .ended && h.storeQ.isEmpty
  let rest := s.others.filter fun h => !dead h
  if dead s.hart then
    match rest ++ new with
    | h :: t => { s with hart := h, others := t }
    | [] => { s with others := [] }
  else { s with others := rest ++ new }

/-- The strip table (R328): each die's share by the harts that it holds. -/
def stripTable (nstrip : Nat) (cores : List Nat) : Nat :=
  let on (d : Nat) : Nat := cores.countP fun c => dieOf c == d
  let total := cores.length
  let upTo (d : Nat) : Nat := ((List.range d).map on).sum
  let ent (d : Nat) : Nat := nstrip * upTo d / total + 2 ^ 32 * (nstrip * (upTo d + on d) / total)
  nstrip * 2 ^ 64 + ((List.range 4).map fun d => ent d * 2 ^ (128 + 64 * d)).sum

/-- The strip table of a gang is written before any hart starts (R328); none while its page is in migration. DEDUCED: log entry 65. -/
def writeStrips (s : State) (pasid : Nat) (i : Image) (places : List (Nat × Nat)) : Option State :=
  if i.stab = 0 then some s
  else
    match engineWrite s pasid i.stab 64 (stripTable i.nstrip (places.map fun p => p.1)) with
    | (_, .error none) => none
    | (t, _) => some t

/-- Idle cores of the places are switched to the mode, and the partitions are zeroed. -/
def preparePlaces (s : State) (i : Image) (places : List (Nat × Nat)) : State :=
  let cores := coresOf places
  let cores := if i.duplex then cores ++ cores.map (· + 1) else cores
  let s := cores.foldl (fun s c => if coreIdle s c then setCore s { coreOf s c with cur := i.mode, pend := none } else s) s
  places.foldl (fun s p =>
    let s := clearPartition s p.1 p.2 i.mode
    if i.duplex then clearPartition s (p.1 + 1) p.2 i.mode else s) s

/-- The gang of a launch (R325). -/
def gangFrom (l : Launch) (i : Image) (pair : Option (Launch × Image × Plan)) : Gang :=
  let mapped (n : Plan) (l : List (Nat × Nat × Nat)) : List (Nat × Nat × Nat) :=
    l.map fun p => (p.1, mapReg n.maps (kindClass p.1) p.2.1, p.2.2)
  { lid := l.lid, lid2 := pair.map fun c => c.1.lid, pasid := l.pasid, size := i.size, mode := i.mode, repart := bitN i.flags 3,
    debug := bitN i.flags 4, image := l.image, image2 := (pair.map fun c => c.1.image).getD 0, spills := i.spills,
    spills2 := (pair.map fun c => mapped c.2.2 c.2.1.spills).getD [], stride := i.stride,
    stride2 := (pair.map fun c => c.2.1.stride).getD 0, gen := 0, stab := i.stab, nstrip := i.nstrip, ava := i.ava, ng := i.ng,
    ava2 := 0, ng2 := [] }

/-- The launches of a gang. -/
def gangLaunches (s : State) (g : Gang) : List Launch := s.launches.filter fun l => l.lid == g.lid || g.lid2 == some l.lid

/-- The hart of a gang that takes a place. -/
noncomputable def newHart (g : Gang) (i : Image) (pair : Option (Launch × Image × Plan)) (place : Nat × Nat) (hartid : Nat) : Hart :=
  match pair with
  | some c => startSpliced g.lid c.1.lid g.pasid place.1 place.2 hartid i c.2.1 c.2.2
  | none => startHart g.lid g.pasid place.1 place.2 hartid i

/-- The consumer of a spliced launch with its image and the plan, when the launch has one: what is offending in its image, or a page in migration
to wait for (R279, R324). -/
def partnerOf (s : State) (l : Launch) : ImagePart (Option (Launch × Image × Plan)) :=
  match l.plan, l.pair.bind (launchOf s) with
  | some n, some c =>
    match readJob s c.pasid c.image with
    | (_, .ok i) => .ok (some (c, i, n))
    | (_, .bad a) => .bad a
    | (_, .stall) => .stall
  | _, _ => .ok none

/-- The places that a selected launch is bound to, when all of them still serve it. -/
def boundPlaces (s : State) (l : Launch) (i : Image) : Option (List (Nat × Nat)) :=
  let p := l.places.take i.size
  let free := freePlaces s i
  if p.length = i.size ∧ p.all (free.contains ·) then some p else none

/-- The leaves place and start the gang of a selected launch (R325): extents are reserved, the strip table is written, idle cores take
the mode, and every hart starts from the image. A launch whose image is refused or whose extents cannot be reserved completes with BADIMAGE
(R324), the start waits for a page in migration, and a launch whose places have been lost is ready again. DESIGN CHOICE: log entry 36. -/
noncomputable def execGangStart (lid : Word) (s : State) : Out :=
  match launchOf s lid with
  | none => .next s
  | some l =>
    if l.phase ≠ .selected then .next s
    else
      match readJob s l.pasid l.image with
      | (_, .stall) => .next s
      | (t, .bad a) => .next (endBoth t l (refusal 4 a))
      | (t, .ok i) =>
        match pickExtents t i.ng with
        | none => .next (endBoth t l (refusal 4 (l.image + 0x90)))
        | some ext =>
          match boundPlaces t l i with
          | none => .next (setLaunch t { l with phase := .ready, places := [] })
          | some places =>
            match partnerOf t l with
            | .stall => .next s
            | .bad a => .next (endBoth t l (refusal 4 a))
            | .ok pair =>
              let g := gangFrom l i pair
              match writeStrips (giveArena t l.pasid l.lid i.ava ext) l.pasid i places with
              | none => .next s
              | some t =>
                let t := preparePlaces t i places
                let t := { t with gangs := t.gangs ++ [g] }
                let t := (gangLaunches t g).foldl (fun t k => setLaunch t { k with phase := .running, places := [] }) t
                .next (enroll t ((List.range places.length).map fun n => newHart g i pair ((places[n]?).getD (0, 0)) n))

/-- The hartids of a gang that have not started. -/
def unplaced (s : State) (g : Gang) : List Nat :=
  (List.range g.size).filter fun n => !((harts s).any fun h => sameGang g h && h.hartid == n)

/-- The core of the focused hart switches modes once every hart of it has arrived (R58, R59); its new stalls start harts of the gang that the
leaf names, as far as that gang has harts to start. -/
noncomputable def execStallModeSwitch (gang : Word) (s : State) : Out :=
  let c := s.hart.core
  let t := switchMode s
  if (coreOf s c).pend.isNone ∨ (coreOf t c).pend.isSome ∨ !s.dev.computeOn then .next s
  else
    match t.gangs.find? (fun g => g.lid == gang), launchOf t gang with
    | some g, some l =>
      match readJob t l.pasid l.image with
      | (t, .ok i) =>
        let free := ((List.range (2 ^ i.mode)).filter fun n => stallFree t c n).map fun n => (c, n)
        if i.mode ≠ (coreOf t c).cur ∨ i.duplex then .next t
        else
          let ids := unplaced t g
          let n := min ids.length free.length
          match partnerOf t l with
          | .stall => .next s
          | .bad _ => .next t
          | .ok pair =>
            let u := preparePlaces t i (free.take n)
            .next (enroll u ((List.range n).map fun k => newHart g i pair ((free[k]?).getD (0, 0)) ((ids[k]?).getD 0)))
      | _ => .next t
    | _, _ => .next t

/-! ### Strips (R330) -/

/-- The entries of a strip table. -/
def stripEntries (v : Nat) : List (Nat × Nat) := (List.range 4).map fun d => (bitsN v (128 + 64 * d) 32, bitsN v (160 + 64 * d) 32)

/-- The victim of a steal: the die with the most strips left, at least 2, the lower one on a tie (R330). -/
def stripVictim (l : List (Nat × Nat)) : Option Nat :=
  ((List.range l.length).foldl (fun (a : Option (Nat × Nat)) d =>
    match l[d]? with
    | some e =>
      let left := e.2 - e.1
      match a with
      | some b => if b.2 < left then some (d, left) else a
      | none => if 2 ≤ left then some (d, left) else none
    | none => a) none).map fun x => x.1

/-- One steal of the gang of a launch (R330): a die with harts and no strips takes half of the largest share, or bit 63 of SIG is set when
every share is used up. -/
def execStripSteal (lid : Word) (s : State) : Out :=
  match s.gangs.find? fun g => g.lid == lid with
  | none => .next s
  | some g =>
    if g.stab = 0 then .next s
    else
      match engineRead s g.pasid g.stab 64 with
      | (t, .ok (v, _)) =>
        let es := stripEntries v
        let sig := hdr v 0 8
        let hungry := (List.range 4).find? fun d =>
          ((es[d]?).map fun e => decide (e.2 ≤ e.1)).getD false &&
            (harts t).any fun h => sameGang g h && h.run == .running && dieOf h.core == d
        match hungry, stripVictim es with
        | some d, some v =>
          let e := (es[v]?).getD (0, 0)
          let k := (e.2 - e.1) / 2
          match engineWrite t g.pasid (g.stab + W (0x10 + 8 * v)) 8 (e.1 + 2 ^ 32 * (e.2 - k)) with
          | (_, .error none) => .next s
          | (u, _) =>
            let u := (engineWrite u g.pasid (g.stab + W (0x10 + 8 * d)) 8 (e.2 - k + 2 ^ 32 * e.2)).1
            .next (engineWrite u g.pasid g.stab 8 (sig + 1)).1
        | _, _ =>
          if es.all (fun e => decide (e.2 ≤ e.1)) && !bitN sig 63 then
            match engineWrite t g.pasid g.stab 8 (sig + 2 ^ 63) with
            | (_, .error none) => .next s
            | (u, _) => .next u
          else .next t
      | (t, _) => .next t

/-! ### The end of a gang (R99, R331, R344, R345) -/

/-- The energy of every hart of a gang in microjoules: what their counters have shown, and a free amount since (R331; log entry 5). -/
def gangEnergy (s : State) (g : Gang) : Word × State :=
  let n := takeFree s
  (((harts s).filter (sameGang g)).foldl (fun a h => a + h.energy) (Config.energy n.1), n.2)

/-- The held linked stores of a hart are released in the order of their producers, but for those that are never performed (R342, R345); and whether
one waits for a page in migration. -/
def releaseHeld (s : State) : State × Bool :=
  match s.hart.splice with
  | none => (s, false)
  | some sp =>
    let r := (sp.linked.filter fun k => !(sp.both.contains k.tag && k.forwarded)).foldl (fun (a : State × Bool) k =>
      let t := releaseLinked a.1 k
      (t.1, a.2 || t.2 == some none)) (s, false)
    (setLinked r.1 [], r.2)

/-- A held store of a gang's hart waits for a page in migration: the gang cannot end yet (R279, R345). -/
def heldWaits (s : State) (g : Gang) : Bool := (harts s).any fun h => sameGang g h && (releaseHeld { s with hart := h }).2

/-- Every store and combining update that the focused hart has released is performed (R81, R178). -/
def settleHart (s : State) : State :=
  let t := drainAll s
  retireWhere t fun c => owns t t.hart c.gang c.hart

/-- One hart of a gang that ends: it stops with PREEMPT when it still runs, its released stores stand, what is queued is discarded, and its pins drop
(R98, R99). -/
noncomputable def endHart (g : Gang) (s : State) : State :=
  if !sameGang g s.hart then s
  else
    let s := if s.hart.run = .running then stopHart s ⟨.preempt, 0⟩ else s
    let s := settleHart (releaseHeld s).1
    { s with hart := { s.hart with run := .ended, park := none, again := false, arrived := none, vq := [], aq := [], vwait := none,
                                   await := none, pins := [] },
             leaf := s.leaf.erase (.preemptPending s.hart.gangid s.hart.hartid) }

/-- A gang ends: every hart of it ends, its sheds are freed, and its launches end with a result (R99, R306, R331). -/
noncomputable def closeGang (s : State) (g : Gang) (r : Result) : State :=
  let s := eachHart s (endHart g)
  let s := dropArena s g.pasid g.lid g.ava g.ng
  let s := { s with gangs := s.gangs.filter fun k => k.lid != g.lid }
  (gangLaunches s g).foldl (fun s l => if l.phase = .running then endLaunch s l r else s) s

/-- The report of a stopped hart (R331, R344): EPC is the original address for a spliced gang. -/
def stopResult (h : Hart) (energy : Word) : Result :=
  { code := 1, cause := h.cause.toNat, epc := if bitN h.origin.toNat 63 then W (h.origin.toNat % 2 ^ 57) else h.epc, tval := h.tval,
    hart := h.hartid, energy := energy, origin := h.origin }

/-- The leaf ends the gang of the focused hart, which a trap with this cause, or a frame or spill fault, has stopped (R94, R99, R331). -/
noncomputable def execGangEnd (cause : BitVec 8) (s : State) : Out :=
  match gangOf s s.hart, s.hart.stop with
  | some g, some p =>
    if s.hart.run ≠ .stopped ∨ p.unsaved ∨ heldWaits s g then .next s
    else
      match p.faulted with
      | some t =>
        if t.cause.code = cause.toNat then
          .next (closeGang s g { Result.blank with code := 2, cause := t.cause.code, tval := t.tval, hart := s.hart.hartid })
        else .next s
      | none =>
        if s.hart.cause ≠ cause then .next s
        else if cause.toNat = 0x14 then .next (closeGang s g (refusal 3 0))
        else
          let e := gangEnergy s g
          .next (closeGang e.2 g (stopResult s.hart e.1))
  | _, _ => .next s

/-- Every hart of a gang has halted: its launches end with DONE (R331). -/
noncomputable def finishGang (s : State) : State :=
  match gangOf s s.hart with
  | some g =>
    if (unplaced s g).isEmpty && (harts s).all (fun h => !sameGang g h || h.run == .halted) then
      let e := gangEnergy s g
      closeGang e.2 g { Result.blank with energy := e.1 }
    else s
  | none => s

/-! ### `halt` (R81, R325, R339) -/

/-- What a spill entry writes: pieces of value and poison, 64 bytes each at most (R323). -/
def spillPieces (s : State) (kind reg : Nat) : List (Nat × Nat × Bool) :=
  let cut (v cells n : Nat) : List (Nat × Nat × Bool) :=
    (List.range (ceilDiv n 64)).map fun i =>
      let m := min 64 (n - 64 * i)
      (m, v / 256 ^ (64 * i) % 256 ^ m, bitsN cells (256 * i) (4 * m) != 0)
  match kind with
  | 1 => [(8, (s.hart.x[reg % 32]'(Nat.mod_lt _ (by decide))).toNat, false)]
  | 2 => cut (s.hart.v[reg % 32]'(Nat.mod_lt _ (by decide))).toNat (s.hart.vp[reg % 32]'(Nat.mod_lt _ (by decide))).toNat (vrlen s)
  | _ =>
    match sumOf s reg with
    | some m => cut (sumImage m) 0 (footprint m)
    | none => [(64, 0, false)]

/-- Write pieces from an address on; the first condition, or a page in migration, stops the write. -/
def writePieces (s : State) (va : Word) : List (Nat × Nat × Bool) → State × Option (Option Trap)
  | [] => (s, none)
  | p :: l =>
    match hartSpan s va p.1 .store with
    | (t, .ok sp) => writePieces (spanApply t sp p.2.1 p.2.2 .none t.hart.epoch) (va + W p.1) l
    | (t, .trap tr) => (t, some (some tr))
    | (t, .stall) => (t, some none)

/-- Write a spill list (R325). -/
def writeSpills (s : State) (image stride : Word) (l : List (Nat × Nat × Nat)) : State × Option (Option Trap) :=
  l.foldl (fun a e =>
    if a.2.isSome then a
    else writePieces a.1 (image + W e.2.2 + W s.hart.hartid * stride) (spillPieces a.1 e.1 e.2.1)) (s, none)

/-- Both spill lists of a hart that halts, the producer's first (R325, R339). DEDUCED: log entry 69. -/
def allSpills (s : State) : State × Option (Option Trap) :=
  match gangOf s s.hart with
  | none => (s, none)
  | some g =>
    match writeSpills s g.image g.stride g.spills with
    | (t, none) => writeSpills t g.image2 g.stride2 g.spills2
    | r => r

/-- A spill write faulted: the hart stays stopped, and the leaf is to end the gang as for a frame fault (R94, R325). -/
def spillFault (s : State) (t : Trap) : State :=
  let h := s.hart
  let p : Stop := {
    queue := .none, rpc := h.pc, vstart := h.vstart, stands := h.vstart, vl := 0, vtype := 0, vdirty := h.vdirty, sdirty := h.sdirty, mdirty := h.mdirty,
    arrived := (awaitedGen s h).isSome, gbgen := (awaitedGen s h).getD 0, spad := false, frame := h.frame + W (h.hartid * framesz s), vrl := vrlen s,
    core := h.core, stall := h.stall, faulted := some t, unsaved := false, opaquePart := [] }
  { s with hart := { h with run := .stopped, park := none, stop := some p },
           leaf := s.leaf ++ [.frameFault h.gangid h.hartid t] }

/-- The hart halts: its spill lists are written, it stops with HALT, and its gang is done when every hart has halted (R81, R325). -/
noncomputable def haltHart (s : State) : State :=
  match allSpills (settleHart s) with
  | (t, none) => finishGang (takeStop t .none ⟨.halt, 0⟩ t.hart.pc t.hart.pc 0 t.hart.vstart 0 0)
  | (t, some (some tr)) => spillFault t tr
  | (_, some none) => wait s .migration

/-- `halt` (R81): it waits until every posted convoy and access entry has retired. The producer's `halt` of a spliced program ends its role
and has no other effect, so that it waits for nothing (R339). -/
noncomputable def execHalt (s : State) : Out :=
  let last : Out := if !queuesEmpty s.hart then .next (wait s .drain) else .next (haltHart s)
  match s.hart.splice, spliceAt s.hart with
  | some sp, some i =>
    if i.consumer then last
    else .next (jumpTo s (if sp.unzipped = some true then spliceAddr (startOf sp true 1) else s.hart.pc + 8))
  | _, _ => last

/-! ### `jl` (R83, R319) -/

/-- `jl`: the waits of `lsync.pk`, the record's read traps, and the append as one step (R83, R319). The traps of the record come before the cases in which
`jl` fails. DESIGN CHOICE: log entry 91. -/
def execJl (f : OpA) (s : State) : Out :=
  if anyHeld s [f.a, f.b, f.d] then .next (wait s .held)
  else if storesPending s 3 then .next (wait s .stores)
  else
    let ea := readX s f.a
    match checkAccess s ea 64 64 .load with
    | (_, .trap t) => .next (takeTrap s t.cause (if t.cause = .perm then ea else t.tval))
    | (t, .stall) => .next (wait t .migration)
    | (t, .ok h) =>
      if readsPoison t h.key 64 then .next (takeTrap s .poison ea)
      else
        let fails (t : State) : Out := .next (advance (writeX t f.d 0) 4)
        let n := (readX s f.b).toNat
        if n ≥ 64 then fails t
        else
          let q := BitVec.ofNat 6 n
          let c := queueOf t q
          if !c.isOpen ∨ c.pasid ≠ s.hart.pasid ∨ 2 ^ c.log2 ≤ c.tail - c.head then fails t
          else
            let r := setBits (hartRead t h.key 64) (8 * 0x0C) 32 s.hart.pasid
            match engineWrite t c.pasid (slotAt c.base c.log2 c.tail) 64 r with
            | (_, .error none) => .next (wait t .migration)
            | (_, .error (some _)) => fails t
            | (u, .ok ()) => .next (advance (writeX (setQueue u q { c with tail := c.tail + 1 }) f.d (lidOf n c.tail)) 4)

/-! ### Linked stores (R342) -/

/-- Release the held stores of pairs, the producers' order; elided ones are dropped. A condition is charged to the producer (R342, R343), and the
release waits for a page in migration (R279). -/
def releaseAll (s : State) : List Linked → State
  | [] => setLinked s []
  | k :: l =>
    match s.hart.splice with
    | none => s
    | some sp =>
      if sp.both.contains k.tag && k.forwarded then releaseAll s l
      else
        match releaseLinked s k with
        | (t, none) => releaseAll t l
        | (_, some none) => wait (setLinked s (k :: l)) .migration
        | (t, some (some tr)) => takeStop (setLinked t (k :: l)) .vector tr k.addr t.hart.pc k.index k.lo k.vl t.hart.vtype

/-- At the end of the iteration's consumer body, the stores of forwarded pairs that are performed are released (R342): the vector queue has
drained, and the next instruction is a back branch. DEDUCED: log entry 27. -/
def execLinkedStoreRelease (s : State) : Out :=
  match s.hart.splice, spliceAt s.hart with
  | some sp, some i =>
    if s.hart.run = .running ∧ s.hart.vq.isEmpty ∧ i.region = 2 then .next (releaseAll s sp.linked) else .next s
  | _, _ => .next s

/-! ### Completion (R331, R332) -/

/-- The completion record of a launch as a number (R331). -/
def recordNum (l : Launch) : Nat :=
  l.lid.toNat + (statusOf l).toNat * 2 ^ 64 + l.result.epc.toNat * 2 ^ 128 + l.result.tval.toNat * 2 ^ 192 + l.result.hart % 2 ^ 16 * 2 ^ 256 +
  l.result.energy.toNat * 2 ^ 320 + l.result.origin.toNat * 2 ^ 384

/-- Every store of the harts of a launch, and every combining entry, is visible (R332). -/
def settleGang (s : State) (lid : Word) : State :=
  let s := eachHart s fun s => if s.hart.gangid = lid ∨ s.hart.run = .ended then drainAll s else s
  retireWhere s fun _ => true

/-- The completion record of the oldest launch of a queue that has none is posted, when that launch has ended (R332): stores first, the
record, then DONE and the interrupt. A record that cannot be written is lost, counted and logged; the posting waits for a page in migration
(R279). -/
def execCompletionRecord (q : BitVec 6) (s : State) : Out :=
  let c := queueOf s q
  match s.launches.find? fun l => l.queue == q.toNat && l.seq == c.done with
  | none => .next s
  | some l =>
    if l.phase ≠ .ended then .next s
    else
      let slot := slotAt c.cbase c.log2 c.done
      let s := settleGang s l.lid
      let post (s : State) : State :=
        let s := setLaunch s { l with phase := .posted }
        let s := setQueue s q { queueOf s q with done := c.done + 1 }
        let s := { s with launches := s.launches.filter fun k => !(k.queue == q.toNat && k.phase == .posted && decide (k.seq + 2 ^ c.log2 < c.done + 1)) }
        if c.irq then { s with dev := { s.dev with msi := s.dev.msi ++ [(q.toNat / 32, q.toNat % 32)] } } else s
      match engineWrite s c.pasid slot 64 (recordNum l) with
      | (_, .error none) => .next s
      | (t, .ok ()) => .next (post t)
      | (t, .error (some _)) => .next (post (logError t 0x0E 4 0 c.pasid l.lid.toNat slot.toNat))

end Sys2Proof.Machine
end

