-- ==== Sys2Proof/Machine/Links.lean ====
section
/-! DEFINITION. Page tables, walks, shootdowns, migration, compressed pages, module links, and the life of a PASID (R269 to R287, R350). -/

namespace Sys2Proof.Machine

/-! ### Walks and shootdowns (R273 to R275) -/

/-- A walker translates a page for a load or a store (R273): a walk that ends in a fault, in a page in migration, or in a leaf without the
permission or the key leaves nothing; otherwise A, and D for a write, are set (R274) and a TLB entry is made. -/
def execPageWalk (pasid : BitVec 20) (va : Word) (write : Bool) (s : State) : Out :=
  let acc : Acc := if write then .store else .load
  let a := va.toNat
  let fits (pte level : Nat) : Bool :=
    ((leafPlace s pte (leafKey pte level a acc)).map fun p => attrOk p pte level).getD false && !bitN pte 54 && permitted pte acc &&
      !(bitN pte 57 && (contextOf s pasid.toNat).key == 0)
  if !canonical a ∨ inWindow a ∨ (contextOf s pasid.toNat).state ≠ 1 then .next s
  else
    match walkFor s pasid.toNat a with
    | none => .next s
    | some (pteAt, pte, level) =>
      if !fits pte level then .next s
      else
        let t := setAD s pteAt acc
        let size := leafSize pte level
        let e : TlbEntry := {
          pasid := pasid.toNat, base := a / size * size, size := size, pte := Memory.readN t.mem pteAt 8, pteAt := pteAt, level := level }
        .next { t with tlb := e :: t.tlb.filter fun x => !(x.pasid == e.pasid && x.base == e.base) }

/-- An entry covers part of a range. -/
def tlbIn (pasid lo hi : Nat) (e : TlbEntry) : Bool := e.pasid == pasid && decide (e.base < hi) && decide (lo < e.base + e.size)

/-- A pin lies in a range. -/
def pinIn (lo hi : Nat) (p : Pin) : Bool := decide (p.page * 4096 < hi) && decide (lo < p.page * 4096 + 4096)

/-- A pin under the leaf that its page has now; none when the leaf is gone (R281). -/
def newPin (s : State) (pasid : Nat) (p : Pin) : Option Pin :=
  match walkFor s pasid (p.page * 4096) with
  | some (pteAt, pte, level) =>
    some { p with pte := pte, pteAt := pteAt, level := level }
  | none => none

/-- What the harts of a PASID have released is performed and visible at `.sy`: their stores, and their combining updates (R178, R275). -/
def settlePasid (s : State) (pasid : Nat) : State := eachHart s fun s => if s.hart.pasid = pasid then settleHart s else s

/-- A store to the page of an address can be translated under the table as it is; one to a page in migration is translated when the move is over. -/
def storable (s : State) (pasid a : Nat) : Bool :=
  match locate { s with tlb := [] } pasid (W a) .store with
  | .ok h => permitted h.pte .store
  | .stall => true
  | .trap _ => false

/-- A held linked store that the checks of its own place have passed lies in a range, and its page has been taken away (R275, R342). -/
def linkedGone (s : State) (h : Hart) (lo hi : Nat) : Bool :=
  (heldStores { s with hart := h }).any fun k => !k.placed.isEmpty &&
    (List.range (k.hi - k.lo)).any fun i =>
      let f := unitFoot k.base (memWidth k.snap k.ew) (k.lo + i)
      [f.va.toNat, f.va.toNat + f.bytes - 1].any fun a => decide (lo ≤ a) && decide (a < hi) && !storable s h.pasid a

/-- A shootdown of a range (R275): it waits for a pin whose leaf is gone (R281), and for a held linked store whose page is; otherwise no TLB holds an
entry of the range, what was translated under one has been performed and is visible, and pins are replaced. None while it waits. -/
def shootdown (s : State) (pasid lo hi : Nat) : Option State :=
  let held (h : Hart) : Bool := h.pasid == pasid &&
    ((h.pins.any fun p => livePin h p && pinIn lo hi p && (newPin s pasid p).isNone) || linkedGone s h lo hi)
  if (harts s).any held then none
  else
    let t := settlePasid s pasid
    let t := { t with tlb := t.tlb.filter fun e => !tlbIn pasid lo hi e }
    some (mapHarts t fun h =>
      if h.pasid = pasid then { h with pins := h.pins.map fun p => if pinIn lo hi p then (newPin t pasid p).getD p else p } else h)

/-- SHOOTDOWN of the virtual pages from `lo` up to, not including, `hi` (R275). -/
def execShootdown (pasid : BitVec 20) (lo hi : Word) (s : State) : Out := .next ((shootdown s pasid.toNat lo.toNat hi.toNat).getD s)

/-- The management cores write a page-table entry (R273); a write to a failed module is dropped (R350). -/
def execPageTableChange (pa : BitVec 56) (pte : Word) (s : State) : Out :=
  if pa.toNat % 8 ≠ 0 ∨ placeOf s pa.toNat ≠ some .dram ∨ moduleFailed s pa.toNat then .next s
  else .next { s with mem := Memory.writeN s.mem pa.toNat 8 pte.toNat }

/-! ### Ownership (R358, R359) -/

/-- OWNSTAT (R358). -/
def ownstat (d : Device) : Nat := 16 * d.nextOwner + d.owner

/-- The owner changes: logged with the new OWNSTAT (R359). -/
def setOwner (s : State) (owner next : Nat) : State :=
  let t := { s with dev := { s.dev with owner := owner, nextOwner := next } }
  logError t 0x0C 4 0 0 0 (ownstat t.dev)

/-- A master is the owner: 0xF is no master's id (R358, R359). -/
def isOwner (s : State) (id : Nat) : Bool := decide (id < 4) && id == s.dev.owner

/-- A named successor that has not claimed within 1 s is one no longer (R359). -/
def endHandover (s : State) : State :=
  if s.dev.nextOwner ≠ 0xF ∧ s.dev.nextAt + 1000000 ≤ s.time then { s with dev := { s.dev with nextOwner := 0xF } } else s

/-- An owner that has shown no sign of life for 2 s is one no longer (R359). -/
def endOwnership (s : State) : State := if s.dev.owner ≠ 0xF ∧ s.dev.beatAt + 2000000 ≤ s.time then setOwner s 0xF 0xF else s

/-- Ownership as it stands when an access arrives (R359). -/
def settleOwner (s : State) : State := endOwnership (endHandover s)

/-! ### PASIDs (R276, R278) -/

/-- The management cores assign a PASID that is free (R276, R278). -/
def execPasidAssign (pasid : BitVec 20) (root : Word) (key : BitVec 16) (s : State) : Out :=
  if (contextOf s pasid.toNat).state ≠ 0 ∨ root.toNat % 4096 ≠ 0 then .next s
  else .next (setContext s pasid.toNat { root := root.toNat, state := 1, key := key.toNat })

/-- A hart of a PASID that is torn down stops with PASID_GONE; what it has released is performed, and what it holds back is discarded (R278). -/
noncomputable def goneHart (pasid : Nat) (s : State) : State :=
  if s.hart.pasid ≠ pasid then s
  else settleHart (setLinked (if s.hart.run = .running then stopHart s ⟨.pasidGone, W pasid⟩ else s) [])

/-- The teardown of a PASID (R278): draining, its launches complete with PASIDGONE, as the records do that have been appended and not fetched, its harts stop, its TLB entries go, and the moves of its pages
end. -/
noncomputable def tearDown (s : State) (pasid : Nat) : State :=
  let s := setContext s pasid { contextOf s pasid with state := 2 }
  let s := eachHart s (goneHart pasid)
  let s := (s.gangs.filter fun g => g.pasid == pasid).foldl (fun s g => closeGang s g (refusal 3 0)) s
  let s := { s with launches := s.launches.map fun (l : Launch) =>
    if l.pasid = pasid ∧ waiting l then { l with phase := .ended, result := refusal 3 0 } else l }
  let s := { s with queues := s.queues.map fun (c : CQueue) => if c.pasid = pasid ∧ c.isOpen then { c with goneTo := c.tail } else c }
  { s with tlb := s.tlb.filter fun e => e.pasid != pasid, migrations := s.migrations.filter fun m => m.pasid != pasid }

/-- The owner starts a PASID's teardown (R278, R359). -/
noncomputable def execPasidTeardown (id : BitVec 4) (pasid : BitVec 20) (s : State) : Out :=
  let s := settleOwner s
  if !isOwner s id.toNat ∨ (contextOf s pasid.toNat).state ≠ 1 then .next s else .next (tearDown s pasid.toNat)

/-- Every request of a draining PASID has been performed or dropped: it is free (R278). -/
def execPasidDrain (pasid : BitVec 20) (s : State) : Out :=
  if (contextOf s pasid.toNat).state ≠ 2 then .next s
  else
    let t := settlePasid s pasid.toNat
    .next (setContext t pasid.toNat { root := 0, state := 0, key := 0 })

/-! ### Compressed pages (R282, R283) -/

/-- The allotment of a compressed leaf: where it starts and its bytes. -/
def allotment (pte : Nat) : Nat × Nat :=
  if bitsN pte 58 2 = 1 then (bitsN pte 10 44 * 4096 + (if bitN pte 9 then 2048 else 0), 2048)
  else (bitsN pte 10 44 * 4096 + 1024 * bitsN pte 8 2, 1024)

/-- First key of the expanded bytes of an allotment. -/
def expandedKey (b : Nat) : Nat := 2 ^ 58 + 4 * b

/-- One ZB32 block of 32 words: its bytes and how many there are (R159, R282). -/
def zPack (v : Nat) : Nat × Nat :=
  let words := (List.range 32).map fun i => bitsN v (32 * i) 32
  let mask := ((List.range 32).map fun i => if bitsN v (32 * i) 32 = 0 then 0 else 2 ^ i).sum
  let full := words.filter fun w => w != 0
  (mask + 2 ^ 32 * full.foldr (fun w a => w + 2 ^ 32 * a) 0, 4 + 4 * full.length)

/-- Lay out blocks from an offset: the descriptor's halfwords, the bytes, and the end. A block that is not given is held elsewhere. -/
def zLayout (l : List (Option Nat)) : Nat × Nat × Nat :=
  l.zipIdx.foldl (fun a p =>
    match p.1 with
    | some v =>
      let z := zPack v
      (a.1 + a.2.2 * 2 ^ (16 * p.2), a.2.1 + z.1 * 256 ^ a.2.2, a.2.2 + z.2)
    | none => (a.1 + 0xFFFF * 2 ^ (16 * p.2), a.2.1, a.2.2)) (0, 0, 64)

/-- The 32 blocks as the allotment at `b` is to hold them: those in the overflow buffer and those not yet stored are absent; block `i` is given by
`f`. -/
def zBlocks (s : State) (b : Nat) (f : Nat → Option Nat) : List (Option Nat) :=
  (List.range 32).map fun i =>
    match f i with
    | some v => some v
    | none => if s.overflow.contains (expandedKey b / 128 + i) || Memory.readN s.mem (b + 2 * i) 2 == 0xFFFF then none else some (zStored s.mem b i)

/-- The key slot under which the expanded bytes of an allotment have been written, when they are sealed (R277). -/
def zSlot (s : State) (b : Nat) : Option Nat :=
  if (List.range 64).any fun i => s.sealed.contains (expandedKey b / 64 + i) then
    some (((s.sealKeys.find? fun q => decide (expandedKey b / 64 ≤ q.1) && decide (q.1 < expandedKey b / 64 + 64)).map fun q => q.2).getD 0)
  else none

/-- The granules from `g` on are sealed under a key slot (R277, R357). -/
def tagSealed (s : State) (g n slot : Nat) : State :=
  (List.range n).foldl (fun s i =>
    { s with sealed := insertN (g + i) s.sealed, sealKeys := (g + i, slot) :: s.sealKeys.filter fun q => q.1 != g + i }) s

/-- Write the packed blocks into an allotment; the poison of the stored blocks stays with their expanded granules (R282), and the allotment of a sealed
page is sealed (R277). -/
def zStore (s : State) (b size : Nat) (l : List (Option Nat)) : State :=
  let z := zLayout l
  let k := expandedKey b / 128
  let bad := (List.range 32).filter fun i => !zHeld s (128 * (k + i)) && Memory.readN s.mem (b + 2 * i) 2 != 0xFFFF && zStoredPois s b i
  let kept := s.poison.filter fun g => !(decide (b / 64 ≤ g) && decide (g < (b + size) / 64))
  let t := match zSlot s b with
    | some slot => tagSealed s (b / 64) (size / 64) slot
    | none => s
  { t with mem := Memory.writeN s.mem b size (z.1 + z.2.1),
           poison := bad.foldl (fun l i => insertN (2 * (k + i)) (insertN (2 * (k + i) + 1) l)) kept }

/-- The entries of the overflow buffer that have moved with the page of an allotment are written into it as far as it has room (R283, R284). -/
def applyMoved (s : State) (b size : Nat) : State :=
  (List.range 32).foldl (fun s i =>
    let k := expandedKey b / 128 + i
    let l := zBlocks s b fun j => if j = i then some (Memory.readN s.mem (128 * k) 128) else none
    if s.overflowMoved.contains k && decide ((zLayout l).2.2 ≤ size) then
      let t := zStore s b size l
      { t with overflow := removeN k t.overflow, overflowMoved := removeN k t.overflowMoved, mem := Memory.clear t.mem (128 * k) 128 }
    else s) s

/-- Hold a block of an allotment in the overflow buffer, with a driver event: the others are packed without it (R283). -/
def holdBlock (s : State) (b size k : Nat) : State :=
  let t := zTouch s (128 * k)
  let u := { t with zcache := removeN k t.zcache, overflow := insertN k t.overflow, driverEvents := t.driverEvents + 1 }
  zStore { u with wbWait := u.wbWait.filter fun q => q.1 != k } b size (zBlocks u b fun _ => none)

/-- A dirty block of a compressed page is written back (R283): packed with the others when the allotment has room, otherwise held in the
overflow buffer with a driver event; while the buffer is full it waits, and so does the hart that wrote the block. -/
def writeBackIn (s : State) (a : Nat × Nat) (block : Nat) : State :=
  let k := expandedKey a.1 / 128 + block
  if !s.zcache.contains k || s.overflow.contains k then s
  else
    let v := Memory.readN s.mem (128 * k) 128
    let l := zBlocks s a.1 fun i => if i = block then some v else none
    if (zLayout l).2.2 ≤ a.2 then
      let t := zStore s a.1 a.2 l
      applyMoved { t with zcache := removeN k t.zcache, wbWait := t.wbWait.filter fun q => q.1 != k, mem := Memory.clear t.mem (128 * k) 128 } a.1 a.2
    else if s.overflow.length < 256 then holdBlock s a.1 a.2 k
    else { s with wbWait := (k, a.2) :: s.wbWait.filter fun q => q.1 != k }

/-- The write-back of a block of the page of a compressed leaf (R283). -/
def writeBack (s : State) (pte block : Nat) : State := writeBackIn s (allotment pte) block

/-- A write-back that has waited is made once the overflow buffer has room (R283). -/
def retryWriteBack (s : State) : State :=
  match s.wbWait.getLast? with
  | some q =>
    if !s.zcache.contains q.1 then { s with wbWait := s.wbWait.filter fun x => x.1 != q.1 }
    else if s.overflow.length < 256 then writeBackIn s ((q.1 / 32 * 4096 - 2 ^ 58) / 4, q.2) (q.1 % 32) else s
  | none => s

/-- WRITE_BACK of a block of the compressed page at an address (R283). -/
def execWriteBack (pasid : BitVec 20) (va : Word) (block : BitVec 5) (s : State) : Out :=
  match walkFor s pasid.toNat va.toNat with
  | some (_, pte, _) => if bitsN pte 58 2 = 1 ∨ bitsN pte 58 2 = 2 then .next (writeBack s pte block.toNat) else .next s
  | none => .next s

/-! ### Durability at the base dies (R289 to R294) -/

/-- A vector-class instruction that writes memory. -/
def writesMemory : Instr → Bool
  | .vst _ | .vsts _ | .vstx _ | .vcopy _ | .vstc _ | .vspill _ | .vstXn _ | .vstXtn _ | .mst _ | .sst _ | .scmt _ => true
  | .vamoAdd _ | .vamoAddCb _ | .vamoAnd _ | .vamoAndCb _ | .vamoCas _ | .vamoFadd _ | .vamoFaddCb _ | .vamoFmax _ | .vamoFmaxCb _ |
  .vamoFmin _ | .vamoFminCb _ | .vamoMax _ | .vamoMaxCb _ | .vamoMaxn _ | .vamoMaxnCb _ | .vamoMin _ | .vamoMinCb _ | .vamoMinn _ |
  .vamoMinnCb _ | .vamoOr _ | .vamoOrCb _ | .vamoSwap _ | .vamoXor _ | .vamoXorCb _ => true
  | _ => false

/-- The operands of a vector atomic that writes. -/
def atomOpers : Instr → Option OpVA
  | .vamoAdd f | .vamoAddCb f | .vamoAnd f | .vamoAndCb f | .vamoCas f | .vamoFadd f | .vamoFaddCb f | .vamoFmax f | .vamoFmaxCb f
  | .vamoFmin f | .vamoFminCb f | .vamoMax f | .vamoMaxCb f | .vamoMaxn f | .vamoMaxnCb f | .vamoMin f | .vamoMinCb f | .vamoMinn f
  | .vamoMinnCb f | .vamoOr f | .vamoOrCb f | .vamoSwap f | .vamoXor f | .vamoXorCb f => some f
  | _ => none

/-- The vector registers from which a member takes its addresses. -/
def addressRegs (d : DCtx) (i : Instr) : List Nat :=
  match i, atomOpers i with
  | .vstx f, _ => (List.range (indexRegs d)).map (f.vb.toNat + ·)
  | _, some f => (List.range (addrRegs d)).map (f.vb.toNat + ·)
  | _, none => []

/-- The bytes that a member may store to, by its scalar sources and the registers as they stand: first address and count of each range. -/
def storesAt (b : State) (i : Instr) : List (Word × Nat) :=
  let n := b.hart.cur.vl
  let each (f : Nat → Word) : List (Word × Nat) := (List.range n).map fun e => (f e, max (curWm b) (ew b) / 8 + 1)
  match i, atomOpers i with
  | .vst f, _ | .vstXn f, _ | .vstXtn f, _ => [(srcX b f.a, ceilDiv (n * curWm b) 8)]
  | .vcopy f, _ => [(srcX b f.vd, ceilDiv (n * ew b) 8)]
  | .vsts f, _ => each fun e => srcX b f.a + W e * srcX b f.b
  | .vstx f, _ => each fun e => match footIndex b f.a f.vb e with
    | .ok g => g.va
    | .error _ => srcX b f.a
  | .vstc f, _ => [(srcX b f.a, min (srcX b (f.a + 1)).toNat (ceilDiv n 32 * (4 + 4 * ew b)))]
  | .vspill f, _ => [(srcX b f.a, 64 + ceilDiv (n * max 8 (ew b)) 8)]
  | .mst f, _ => (List.range 128).map fun r => (tileAddr f b r 0, 512)
  | .sst f, _ => [(srcX b f.a, ((sumOf b f.sd.toNat).map footprint).getD 1572864)]
  | _, some f => each fun e => W (elG b f.vb.toNat e 64)
  | _, none => []

/-- Member `j` of the convoy at place `p` may still store to the Loft (R292): a commit does; the others may when a place that they can store to lies
there, or when what they store to is not known yet, because `vl` is not, or because a queued member makes their addresses or their summary. -/
def memberLoft (s : State) (p j : Nat) (i : Instr) : Bool :=
  writesMemory i &&
    (match i, convoyAt s p with
      | .scmt _, _ => true
      | _, none => true
      | _, some (b, _) =>
        let made (x : Nat × Nat × Instr) : Bool := ((memberOf x.2.2).map fun k =>
          (addressRegs (curDctx b) i).any (k.dsts.contains ·) || (match i with
            | .sst f => (writesOther x.2.2 k).contains (4, f.sd.toNat)
            | _ => false)).getD false
        (membersBefore s p j).any made || (storesAt b i).any fun r => toLoft b (spanFuel r.2) r.1 r.2)

/-- Some queued convoy of the focused hart with an earlier epoch than `n` may still store to the Loft. -/
def convoysLoft (s : State) (n : Nat) : Bool :=
  s.hart.vq.zipIdx.any fun c => decide (c.1.epoch < n) && c.1.members.zipIdx.any fun m => memberLoft s c.2 m.2 m.1

/-- A Loft store of the hart with an earlier epoch than `n` is still to be performed or queued: by a posted convoy, an access entry, its store
queues, or a combining entry (R292). DEDUCED: log entry 86. -/
def owesEarlier (s : State) (gang : Word) (hart n : Nat) : Bool :=
  (s.combining.any fun c => c.gang == gang && c.hart == hart && isLoftKey c.key && decide (c.epoch < n)) ||
  (harts s).any fun h => owns s h gang hart && (h.run == .running || h.run == .stopped) &&
    ((h.storeQ.any fun q => isLoftKey q.key && decide (q.epoch < n)) || convoysLoft { s with hart := h } n ||
      h.aq.zipIdx.any fun e => decide (e.1.epoch < n) && entryLoft { s with hart := h } (h.aq.take e.2) e.1)

/-- A persist-ordered store of the same hart and queue that entered the store queues earlier is still in them (R294). -/
def orderedQueued (s : State) (l : LoftStore) : Bool :=
  (harts s).any fun h => owns s h l.gang l.hart && h.storeQ.any fun q => q.po && isLoftKey q.key && q.queue == l.queue && decide (q.seq < l.seq)

/-- The Loft store `i` may become durable next: it is the oldest of its granule (R290), no Loft store of its hart's earlier epochs is pending
or still to come (R292), and, when it is persist-ordered, no such store of its queue that entered the
store queues earlier, or has been performed earlier without being queued, is pending or queued (R294). -/
def mayAccept (s : State) (i : Nat) : Bool :=
  match s.loftPend[i]? with
  | none => false
  | some l =>
    let same (x : LoftStore) : Bool := x.gang == l.gang && x.hart == l.hart
    !((s.loftPend.take i).any fun x => x.key / 128 == l.key / 128) &&
    !(l.po && (s.loftPend.any fun x => x.po && same x && x.queue == l.queue && decide (x.seq < l.seq)) ||
      l.po && (s.loftPend.take i).any fun x => x.po && same x && x.queue == l.queue && x.seq == l.seq) &&
    !(s.loftPend.any fun x => same x && decide (x.epoch < l.epoch)) && !owesEarlier s l.gang l.hart l.epoch && !(l.po && orderedQueued s l)

/-- The base die accepts a Loft store: it is durable (R289). -/
def acceptAt (s : State) (i : Nat) : State :=
  match s.loftPend[i]? with
  | none => s
  | some l =>
    let t := { s with loftPend := s.loftPend.eraseIdx i }
    if moduleFailed s l.key then t
    else { t with durable := Memory.writeMasked t.durable l.key l.n l.val l.mask,
                  durablePoison := poisonAfter t.durablePoison (granulesOf l.key l.n) l.poison l.whole,
                  durableClean := if l.poison || !l.whole then t.durableClean else (granulesOf l.key l.n).foldl (fun l g => insertN g l) t.durableClean }

/-! ### Migration (R279 to R281, R283, R284) -/

/-- Cells from one key on at another, over what was there. -/
def moveCells (m : List Host.Cell) (src dst n : Nat) : List Host.Cell :=
  ((m.filter fun c => decide (src ≤ c.1) && decide (c.1 < src + n)).map fun c => (c.1 - src + dst, c.2)).foldl
    (fun m c => Memory.write m c.1 c.2) (Memory.clear m dst n)

/-- Granules from one key on at another, over what was there. -/
def moveGranules (l : List Nat) (src dst n : Nat) : List Nat :=
  ((l.filter fun g => decide (src / 64 ≤ g) && decide (g < (src + n) / 64)).map fun g => g - src / 64 + dst / 64).foldl
    (fun l g => insertN g l) (l.filter fun g => !(decide (dst / 64 ≤ g) && decide (g < (dst + n) / 64)))

/-- The granules of a range that read as poison without being marked: those of a lost Loft module or of a failed module (R304, R350). -/
def lostGranules (s : State) (src n : Nat) : List Nat :=
  if s.linkFailed.isEmpty && s.loftLost.isEmpty then []
  else ((List.range (n / 64)).map (src / 64 + ·)).filter fun g => granulePois s g || moduleFailed s (64 * g)

/-- The key slots of granules from one key on at another, over what was there. -/
def moveSlots (l : List (Nat × Nat)) (src dst n : Nat) : List (Nat × Nat) :=
  (l.filterMap fun q => if src / 64 ≤ q.1 ∧ q.1 < (src + n) / 64 then some (q.1 - src / 64 + dst / 64, q.2) else none) ++
    l.filter fun q => !(decide (dst / 64 ≤ q.1) && decide (q.1 < (dst + n) / 64))

/-- The bytes of a page from one key on, its poisoned granules, its sealed ones with their key slots, and what its lost granules read as; a copied granule is written
whole (R184, R279, R304). -/
def copyBytes (s : State) (src dst n : Nat) : State :=
  let lost := (lostGranules s src n).map fun g => g - src / 64 + dst / 64
  let poison := lost.foldl (fun l g => insertN g l) (moveGranules s.poison src dst n)
  { s with mem := moveCells s.mem src dst n, poison := poison, sealed := moveGranules s.sealed src dst n, sealKeys := moveSlots s.sealKeys src dst n,
           loftClean := if s.loftLost.isEmpty || !isLoftKey dst then s.loftClean else
             (((List.range (n / 64)).map (dst / 64 + ·)).filter fun g => !poison.contains g).foldl (fun l g => insertN g l) s.loftClean }

/-- A Loft page is copied until the new copy is as durable as the old one: what the old copy holds durably, and the stores that cannot become durable
yet, because an access that stalls on the move comes before them, in their order (R279, R292). -/
def copyDurable (s : State) (src dst n : Nat) : State :=
  let lost := (lostGranules s src n).map fun g => g - src / 64 + dst / 64
  let poison := lost.foldl (fun l g => insertN g l) (moveGranules s.durablePoison src dst n)
  { s with durable := moveCells s.durable src dst n, durablePoison := poison,
           durableClean := if s.loftLost.isEmpty then s.durableClean else
             (((List.range (n / 64)).map (dst / 64 + ·)).filter fun g => !poison.contains g).foldl (fun l g => insertN g l) s.durableClean,
           loftPend := s.loftPend.map fun l => if src ≤ l.key ∧ l.key < src + n then { l with key := l.key - src + dst } else l }

/-- Every dirty block of a compressed page is written back (R284). -/
def writeBackAll (s : State) (pte : Nat) : State := forUp 32 0 s fun i s => writeBack s pte i

/-- Blocks of an allotment, the last first, are held in the overflow buffer until the others fit into fewer bytes; none while the buffer is full. -/
def shrinkTo (s : State) (b size room : Nat) : Option State :=
  (List.range 32).reverse.foldl (fun a i => a.bind fun s =>
    if (zLayout (zBlocks s b fun _ => none)).2.2 ≤ room ∨ s.overflow.contains (expandedKey b / 128 + i) then some s
    else if s.overflow.length < 256 then some (holdBlock s b size (expandedKey b / 128 + i))
    else none) (some s)

/-- The overflow buffer's entries of an allotment belong to the new copy (R283, R284). -/
def moveOverflow (s : State) (a b : Nat) : State :=
  (List.range 32).foldl (fun s i =>
    let k := expandedKey a / 128 + i
    let d := expandedKey b / 128 + i
    if s.overflow.contains k then
      let t := copyBytes s (128 * k) (128 * d) 128
      { t with overflow := insertN d (removeN k t.overflow), overflowMoved := insertN d (removeN k t.overflowMoved),
               mem := Memory.clear t.mem (128 * k) 128 }
    else s) s

/-- Copy a page to the backing of its new leaf: plain bytes, the expanded bytes of a compressed page, the allotment verbatim between
allotments, or a packed copy; a shadow page moves with both halves (R271, R279, R283, R284). The entries of the overflow buffer are applied to
the new copy as far as it has room. None while dirty blocks wait for a full overflow buffer, or a store to a Loft page can still become durable in the old
copy. -/
def copyPage (s : State) (old new level : Nat) : Option State :=
  let co := bitsN old 58 2
  let cn := bitsN new 58 2
  let o := allotment old
  let n := allotment new
  let ppn (p : Nat) : Nat := bitsN p 10 44 * 4096
  if co = 0 ∧ cn = 0 then
    let size := if bitN old 60 then 8192 else leafSize old level
    let src := ppn old / size * size
    let dst := ppn new / size * size
    let owed (i : Nat) : Bool := ((s.loftPend[i]?).map fun l => decide (src ≤ l.key) && decide (l.key < src + size)).getD false && mayAccept s i
    if isLoftKey dst && (List.range s.loftPend.length).any owed then none
    else
      let t := copyBytes s src dst size
      some (if isLoftKey dst then copyDurable t src dst size else t)
  else if cn = 0 then
    let t := (List.range 32).foldl (fun s i => zTouch s (expandedKey o.1 + 128 * i)) s
    let u := copyBytes t (expandedKey o.1) (ppn new) 4096
    let out (l : List Nat) : List Nat := l.filter fun k => !(decide (expandedKey o.1 / 128 ≤ k) && decide (k < expandedKey o.1 / 128 + 32))
    some { u with mem := Memory.clear u.mem (expandedKey o.1) 4096, zcache := out u.zcache, overflow := out u.overflow,
                  overflowMoved := out u.overflowMoved, wbWait := u.wbWait.filter fun q => !(decide (expandedKey o.1 / 128 ≤ q.1) && decide (q.1 < expandedKey o.1 / 128 + 32)),
                  poison := u.poison.filter fun g => !(decide (expandedKey o.1 / 64 ≤ g) && decide (g < expandedKey o.1 / 64 + 64)) }
  else if co = 0 then
    let t := copyBytes s (ppn old) (expandedKey n.1) 4096
    let t := { t with zcache := (List.range 32).foldl (fun l i => insertN (expandedKey n.1 / 128 + i) l) t.zcache,
                      mem := Memory.writeN t.mem n.1 64 (2 ^ 512 - 1) }
    some (writeBackAll t new)
  else
    let t := writeBackAll s old
    if (List.range 32).any fun i => t.zcache.contains (expandedKey o.1 / 128 + i) && !t.overflow.contains (expandedKey o.1 / 128 + i) then none
    else
      (shrinkTo t o.1 o.2 n.2).map fun t =>
        let u := moveOverflow (copyBytes t o.1 n.1 (min o.2 n.2)) o.1 n.1
        applyMoved { u with poison := moveGranules u.poison (expandedKey o.1) (expandedKey n.1) 4096,
                            sealed := moveGranules u.sealed (expandedKey o.1) (expandedKey n.1) 4096,
                            sealKeys := moveSlots u.sealKeys (expandedKey o.1) (expandedKey n.1) 4096 } n.1 n.2

/-- The two backings lie in the same kind of place (R279). -/
def sameKind (s : State) (a b : Nat) : Bool :=
  match placeOf s a, placeOf s b with
  | some .dram, some .dram => true
  | some (.loft _), some (.loft _) => true
  | some (.peer _), some (.peer _) => true
  | some (.shed _ _), some (.shed _ _) => true
  | some .host, some .host => true
  | _, _ => false

/-- Write the leaf entry of a page, each of the sixteen entries of a 64 KiB page (R270): as `f` makes it from the entry. -/
def putLeaf (s : State) (pteAt old : Nat) (f : Nat → Nat) : State :=
  let l := if bitN old 63 then (List.range 16).map fun j => pteAt / 128 * 128 + 8 * j else [pteAt]
  { s with mem := l.foldl (fun m a => if moduleFailed s a then m else Memory.writeN m a 8 (f (Memory.readN m a 8))) s.mem }

/-- PAGE_MIGRATION of the page at an address to the backing that `pte` names by PPN, CMP and SEL (R279): each turn is one of the steps 1,
3 and 4: MIG and a shootdown; the copy; the new leaf and the second shootdown. The halves of a shadow page move together, and SEL stays what flips of the
page make it (R271, R280). A move to another kind of place, or one that R271 forbids, does
not begin. DEDUCED: log entry 72. -/
def execPageMigration (pasid : BitVec 20) (va pte : Word) (s : State) : Out :=
  let p := pasid.toNat
  let a := va.toNat
  match walkFor s p a with
  | none => .next s
  | some (pteAt, old, level) =>
    let size := leafSize old level
    let base := a / size * size
    let half := if bitN old 60 then 3 * 2 ^ 8 else 0
    let fields := 3 * 2 ^ 58 + (2 ^ 44 - 1) * 2 ^ 10 + (3 * 2 ^ 8 - half)
    let stays := 64 + 128 + half
    match s.migrations.find? fun m => m.pasid == p && m.va == base with
    | none =>
      let new := old - (old &&& fields) + (pte.toNat &&& fields)
      let ok := leafOk new level && !bitN old 54 && sameKind s (bitsN old 10 44 * 4096) (bitsN new 10 44 * 4096) &&
        ((placeOf s (bitsN new 10 44 * 4096)).map fun q => attrOk q new level).getD false
      if !ok then .next s
      else
        match shootdown (putLeaf s pteAt old fun e => e ||| 2 ^ 54) p base (base + size) with
        | some t => .next { t with migrations := t.migrations ++ [{ pasid := p, va := base, pte := new, phase := 0 }] }
        | none => .next s
    | some m =>
      if m.phase = 0 then
        match copyPage s old m.pte level with
        | some t => .next { t with migrations := t.migrations.map fun x => if x.pasid = p ∧ x.va = base then { x with phase := 1 } else x }
        | none => .next s
      else
        match shootdown (putLeaf s pteAt old fun e => m.pte - (m.pte &&& stays) + (e &&& stays)) p base (base + size) with
        | some t => .next { t with migrations := t.migrations.filter fun x => !(x.pasid == p && x.va == base) }
        | none => .next s

/-! ### What the links carry (R277, R357) -/

/-- The key under which a sealed granule was written: that in the key slot of its PASID (R277). -/
def granuleKey (s : State) (g : Nat) : BitVec 512 :=
  ((s.sealKeys.find? fun q => q.1 == g).bind fun q => (s.dev.keys.find? fun k => k.1 == q.2).map fun k => k.2).getD 0

/-- A byte of a memory as the module links carry it: a sealed granule is encrypted (R277, R357). DESIGN CHOICE: log entry 121. -/
def linkByte (s : State) (m : List Host.Cell) (k : Nat) : Byte :=
  if s.sealed.contains (k / 64) then
    BitVec.ofNat 8 (sealGranule (granuleKey s (k / 64)) (k / 64) (Memory.readN m (k / 64 * 64) 64) / 256 ^ (k % 64))
  else Memory.read m k

/-- `n` bytes of a memory as the module links carry them. -/
def linkBytes (s : State) (m : List Host.Cell) (k n : Nat) : Nat := leNat ((List.range n).map fun i => linkByte s m (k + i))

/-- The bytes from `k` that a byte mask enables are `data` where the module links carry them. -/
def holdsBytes (s : State) (m : List Host.Cell) (k n mask data : Nat) : Bool :=
  (List.range n).all fun i => !bitN mask i || (linkByte s m (k + i)).toNat == bitsN data (8 * i) 8

/-- Accept the Loft stores that a packet carries, one at least, in the order that R290, R292 and R294 allow, until the durable bytes are the
packet's; none when the packet is not such a write-through. -/
def acceptUntil (s : State) (k n mask data : Nat) : Nat → Option State
  | 0 => none
  | fuel + 1 =>
    match (List.range s.loftPend.length).find? fun i => mayAccept s i && ((s.loftPend[i]?).map fun l =>
        decide (k ≤ l.key) && decide (l.key + l.n ≤ k + n)).getD false with
    | some i =>
      let t := acceptAt s i
      if holdsBytes t t.durable k n mask data then some t else acceptUntil t k n mask data fuel
    | none => none

/-- The stores that a write-through packet makes durable: it carries POISON when one of them is poison (R287, R289). -/
def loftWrite (s : State) (k n mask data : Nat) (pois : Bool) : Option State :=
  (acceptUntil s k n mask data (s.loftPend.length + 1)).bind fun t =>
    if (s.loftPend.countP fun l => l.poison) != (t.loftPend.countP fun l => l.poison) && !pois ||
      (s.loftPend.countP fun l => l.poison) == (t.loftPend.countP fun l => l.poison) && pois then none
    else some t

/-! ### Module links (R285 to R287, R350) -/

/-- The 16-byte header of a request (R285). -/
def Packet.header (p : Packet) : Nat :=
  p.cmd + (p.sc + 32 * p.tag) * 2 ^ 8 + p.len * 2 ^ 16 + (if p.pois then 1 else 0) * 2 ^ 24 + p.addr * 2 ^ 32

/-- The 16-byte header of a reply (R285). -/
def Reply.header (r : Reply) : Nat :=
  r.cmd + (r.sc + 32 * r.tag) * 2 ^ 8 + r.len * 2 ^ 16 +
    ((if r.pois then 1 else 0) + (if r.ce then 2 else 0) + (if r.err then 4 else 0)) * 2 ^ 24 + r.addr * 2 ^ 32

/-- The physical address of a module offset: DRAM modules are interleaved by 4 KiB, a Loft module is one range (R272). -/
def linkKey (s : State) (m off : Nat) : Option Nat :=
  if m < s.drams then (if off < 2 ^ 38 then some ((off / 4096 * s.drams + m) * 4096 + off % 4096) else none)
  else if m < s.drams + s.lofts then (if off < 2 ^ 39 then some (0x0010000000000000 + (m - s.drams) * 2 ^ 39 + off) else none)
  else none

/-- A packet's bytes lie within one 128-byte block, in 1 to 4 beats (R285). -/
def packetOk (addr len : Nat) : Bool := addr % 32 == 0 && decide (1 ≤ len ∧ len ≤ 4) && decide (addr % 128 + 32 * len ≤ 128)

/-- The lowest free tag of a sub-channel (R286). -/
def freeTag (s : State) (m sc : Nat) : Option Nat :=
  (List.range 8).find? fun t => !(s.packets.any fun p => p.module == m && p.sc == sc && p.tag == t)

/-- Send a request; it is held back while no tag is free (R286). -/
def sendPacket (s : State) (m cmd addr len mask data : Nat) (pois : Bool) : State :=
  let sc := addr / 128 % 32
  match freeTag s m sc with
  | some t =>
    { s with packets := s.packets ++ [{ module := m, cmd := cmd, sc := sc, tag := t, len := len, addr := addr, mask := mask, data := data, pois := pois }] }
  | none => s

/-- The last reply of a module. -/
def reply (s : State) (r : Reply) : State := { s with replies := r :: s.replies.filter fun x => x.module != r.module }

/-- RD (R285); a read of a failed module returns poison (R350). DEDUCED: log entry 70. -/
def execLinkRd (m : BitVec 6) (addr : BitVec 40) (len : BitVec 3) (s : State) : Out :=
  if !packetOk addr.toNat len.toNat ∨ linkKey s m.toNat addr.toNat = none then .next s
  else if s.linkFailed.contains m.toNat then
    let sc := addr.toNat / 128 % 32
    .next (reply s {
      module := m.toNat, cmd := 0x81, sc := sc, tag := (freeTag s m.toNat sc).getD 0, len := len.toNat, data := 0, pois := true, ce := false,
      err := false, addr := addr.toNat })
  else .next (sendPacket s m.toNat 1 addr.toNat len.toNat 0 0 false)

/-- A request with a reserved CMD is answered with ERR, and its requester handles the answer as an uncorrectable read or write: it is logged, and no
memory changes (R287). DESIGN CHOICE: log entry 103. -/
def strangePacket (s : State) (m cmd addr len : Nat) : State :=
  let sc := addr / 128 % 32
  if [1, 2, 3, 0x81, 0x82].contains cmd || 256 ≤ cmd || !packetOk addr len || linkKey s m addr == none || s.linkFailed.contains m then s
  else
    match freeTag s m sc with
    | none => s
    | some t =>
      logError (reply s {
        module := m, cmd := 0x82, sc := sc, tag := t, len := len, data := 0, pois := true, ce := false, err := true, addr := addr })
        0x02 6 m 0 addr 0

/-- The bytes of a list as a number of `n` bytes. -/
def beats (l : List Byte) (n : Nat) : Nat := leNat (l.take n) % 256 ^ n

/-- A write request: dropped on a failed link (R350); to a Loft module only as a write-through of stores that may become durable. -/
def linkWrite (m addr len cmd mask data : Nat) (pois : Bool) (s : State) : State :=
  match linkKey s m addr with
  | none => s
  | some k =>
    if !packetOk addr len || s.linkFailed.contains m then s
    else if isLoftKey k && (loftWrite s k (32 * len) mask data pois).isNone then s
    else sendPacket s m cmd addr len mask data pois

/-- WR (R285). -/
def execLinkWr (m : BitVec 6) (addr : BitVec 40) (len : BitVec 3) (data : List Byte) (pois : Bool) (s : State) : Out :=
  let n := 32 * len.toNat
  .next (linkWrite m.toNat addr.toNat len.toNat 2 (2 ^ n - 1) (beats data n) pois s)

/-- WRM (R285): mask bits at or above the data are zero. -/
def execLinkWrm (m : BitVec 6) (addr : BitVec 40) (len : BitVec 3) (mask : BitVec 128) (data : List Byte) (pois : Bool) (s : State) : Out :=
  let n := 32 * len.toNat
  if 2 ^ n ≤ mask.toNat then .next s else .next (linkWrite m.toNat addr.toNat len.toNat 3 mask.toNat (beats data n) pois s)

/-- Requests to overlapping bytes of a sub-channel. -/
def clash (p q : Packet) : Bool :=
  p.module == q.module && p.sc == q.sc && decide (p.addr < q.addr + 32 * q.len) && decide (q.addr < p.addr + 32 * p.len)

/-- The index of the request that a reply answers. -/
def answered (s : State) (m : BitVec 6) (sc : BitVec 5) (tag : BitVec 3) : Option Nat :=
  s.packets.findIdx? fun p => p.module == m.toNat && p.sc == sc.toNat && p.tag == tag.toNat

/-- Corrected errors of a unit, counted under a number of its own, with at most one record in a second (R348). -/
def countUnit (s : State) (n die unit : Nat) : State :=
  let old := ((s.dev.corrected.find? fun c => c.1 == n).map fun c => c.2).getD (0, 0)
  let put (s : State) (k at' : Nat) : State := { s with dev := { s.dev with corrected := (n, k, at') :: s.dev.corrected.filter fun c => c.1 != n } }
  if old.2 = 0 ∨ old.2 + 1000000 ≤ s.time + 1 then put (logError s 0x01 die unit 0 0 (old.1 + 1)) 0 (s.time + 1) else put s (old.1 + 1) old.2

/-- Corrected errors of a module position. -/
def countCorrected (s : State) (m : Nat) : State := countUnit s m 6 m

/-- What the ECC of the base die found in the granules that it read (R287): 0 nothing, 1 a corrected error, 2 one that it cannot correct in the first
of them, 3 in the last. The granule in error is poison, and it is logged (R349). -/
def eccPoison (s : State) (gs : List Nat) (m : Nat) (ecc : Nat) : State :=
  if ecc = 0 ∨ gs.isEmpty then s
  else if ecc = 1 then countCorrected s m
  else
    match (if ecc = 2 then gs.head? else gs.getLast?) with
    | none => s
    | some g =>
      let t := if isLoftKey (64 * g) then { s with durablePoison := insertN g s.durablePoison } else s
      logError { t with poison := insertN g t.poison } 0x02 6 m 0 (64 * g) 0

/-- A granule of a Loft module reads as poison at its base die: it is marked, or it lies in a lost module and no clean write to it is durable
(R287, R304). -/
def durablePois (s : State) (g : Nat) : Bool :=
  s.durablePoison.contains g || s.loftLost.contains ((g - 0x0010000000000000 / 64) / 2 ^ 33) && !s.durableClean.contains g

/-- A granule reads as poison at its base die. -/
def dieHolds (s : State) (g : Nat) : Bool := if isLoftKey (64 * g) then durablePois s g else granulePois s g

/-- RDR (R286, R287): the bytes of every earlier write to them, as the link carries them, with CE or POISON; an uncorrectable error poisons its
granule, and is logged (R349). A read waits for earlier writes to its bytes. -/
def execLinkRdr (m : BitVec 6) (sc : BitVec 5) (tag : BitVec 3) (ecc : BitVec 2) (s : State) : Out :=
  match answered s m sc tag with
  | none => .next s
  | some i =>
    match s.packets[i]? with
    | none => .next s
    | some p =>
      match linkKey s p.module p.addr with
      | none => .next s
      | some k =>
        if p.cmd ≠ 1 ∨ (s.packets.take i).any (fun q => clash p q && q.cmd != 1) then .next s
        else
          let n := 32 * p.len
          let t := eccPoison { s with packets := s.packets.eraseIdx i } (granulesOf k n) p.module ecc.toNat
          .next (reply t {
            module := p.module, cmd := 0x81, sc := p.sc, tag := p.tag, len := p.len,
            data := linkBytes t (if isLoftKey k then t.durable else t.mem) k n, pois := (granulesOf k n).any (dieHolds t),
            ce := ecc.toNat == 1, err := false, addr := p.addr })

/-- A write writes a byte of a granule. -/
def writesGranule (p : Packet) (k g : Nat) : Bool :=
  (List.range 64).any fun i => decide (k ≤ 64 * g + i) && decide (64 * g + i < k + 32 * p.len) && bitN p.mask (64 * g + i - k)

/-- The granules that a write writes in part, and those that it covers whole (R287): only WR covers granules whole, and a granule without a written byte
is neither. -/
def rmwGranules (p : Packet) (k : Nat) : List Nat × List Nat :=
  let gs := granulesOf k (32 * p.len)
  let covers (g : Nat) : Bool := p.cmd == 2 && decide (k ≤ 64 * g) && decide (64 * g + 64 ≤ k + 32 * p.len)
  (gs.filter fun g => !covers g && writesGranule p k g, gs.filter covers)

/-- The bytes of a write that fall into a granule are merged into it as the link carries it: a sealed granule is decrypted with them (R277, R357). -/
def mergeSealed (s : State) (p : Packet) (k g : Nat) : Nat :=
  let byte (i : Nat) : Nat :=
    let o := 64 * g + i - k
    if k ≤ 64 * g + i ∧ o < 32 * p.len ∧ bitN p.mask o then bitsN p.data (8 * o) 8 else (linkByte s s.mem (64 * g + i)).toNat
  unsealGranule (granuleKey s g) g (leNat ((List.range 64).map fun i => BitVec.ofNat 8 (byte i)))

/-- The poisoned granules of a base die after a write: granules that it covers whole take the packet's poison, others are merged (R287). -/
def diePoison (l : List Nat) (p : Packet) (k : Nat) : List Nat :=
  let parts := rmwGranules p k
  let l := poisonAfter l parts.2 p.pois true
  if p.pois then poisonAfter l parts.1 true false else l

/-- A write is performed in a DRAM base die (R287). -/
def performWrite (s : State) (p : Packet) (k : Nat) : State × Bool :=
  let n := 32 * p.len
  let merged := (rmwGranules p k).1.any (granulePois s)
  let bits := ((List.range n).map fun i => if bitN p.mask i then 255 * 256 ^ i else 0).sum
  let l := diePoison s.poison p k
  let shut := (granulesOf k n).filter (s.sealed.contains ·)
  let t := { s with mem := Memory.writeMasked s.mem k n p.data bits, poison := l }
  let t := { t with mem := shut.foldl (fun m g => Memory.writeN m (64 * g) 64 (mergeSealed s p k g)) t.mem }
  (if merged then logError t 0x03 6 p.module 0 k 0 else t, merged)

/-- WRA (R286, R287, R289): the write is performed, after earlier requests to its bytes; a Loft module acknowledges once it is durable, and not
before. ECC reads only what is merged. -/
def execLinkWra (m : BitVec 6) (sc : BitVec 5) (tag : BitVec 3) (ecc : BitVec 2) (s : State) : Out :=
  match answered s m sc tag with
  | none => .next s
  | some i =>
    match s.packets[i]? with
    | none => .next s
    | some p =>
      match linkKey s p.module p.addr with
      | none => .next s
      | some k =>
        if p.cmd = 1 ∨ (s.packets.take i).any (clash p) then .next s
        else
          let n := 32 * p.len
          let read := (rmwGranules p k).1
          let t := eccPoison { s with packets := s.packets.eraseIdx i } read p.module ecc.toNat
          let done (t : State) (pois : Bool) : Out := .next (reply t {
            module := p.module, cmd := 0x82, sc := p.sc, tag := p.tag, len := p.len, data := 0, pois := pois,
            ce := ecc.toNat == 1 && !read.isEmpty, err := false, addr := p.addr })
          if isLoftKey k then
            match loftWrite t k n p.mask p.data p.pois with
            | none => .next s
            | some u =>
              let merged := read.any (durablePois t)
              let u := { u with durablePoison := diePoison t.durablePoison p k,
                                durableClean := if p.pois then t.durableClean else (rmwGranules p k).2.foldl (fun l g => insertN g l) t.durableClean }
              done (if merged then logError u 0x03 6 p.module 0 k 0 else u) merged
          else
            let r := performWrite t p k
            done r.1 r.2

/-- A Loft module is reported lost: its granules read as poison until they are written clean (R304). -/
def loseLoft (s : State) (n : Nat) : State :=
  let first := (0x0010000000000000 + n * 2 ^ 39) / 64
  let out (l : List Nat) : List Nat := l.filter fun g => !(decide (first ≤ g) && decide (g < first + 2 ^ 33))
  let t := { s with loftLost := insertN n s.loftLost, loftClean := out s.loftClean, durableClean := out s.durableClean }
  logError t 0x08 6 (s.drams + n) 0 0 0

/-- MODULE_LINK_FAILURE (R350): outstanding reads complete with poison, outstanding writes are lost and counted, the module is offline; a
Loft module is also reported lost (R304). DEDUCED: log entry 83. -/
def execModuleLinkFailure (m : BitVec 6) (s : State) : Out :=
  let n := m.toNat
  if s.drams + s.lofts ≤ n ∨ s.linkFailed.contains n then .next s
  else
    let mine (p : Packet) : Bool := p.module == n
    let onModule (l : LoftStore) : Bool := decide (s.drams ≤ n) && (l.key - 0x0010000000000000) / 2 ^ 39 == n - s.drams
    let carried (l : LoftStore) : Bool := s.packets.any fun p => mine p && p.cmd != 1 &&
      ((linkKey s n p.addr).map fun k => decide (k ≤ l.key) && decide (l.key + l.n ≤ k + 32 * p.len)).getD false
    let lost := (s.packets.countP fun p => mine p && p.cmd != 1) + s.loftPend.countP fun l => onModule l && !carried l
    let t := ((s.packets.filter fun p => mine p && p.cmd == 1).foldl (fun s p =>
      reply s {
        module := n, cmd := 0x81, sc := p.sc, tag := p.tag, len := p.len, data := 0, pois := true, ce := false, err := false, addr := p.addr }) s)
    let t := { t with packets := t.packets.filter fun p => !mine p, linkFailed := insertN n t.linkFailed,
                      loftPend := t.loftPend.filter fun l => !onModule l }
    let t := logError t 0x07 6 n 0 0 lost
    .next (if s.drams ≤ n then loseLoft t (n - s.drams) else t)

end Sys2Proof.Machine
end

