-- ==== Sys2Proof/Machine/Manage.lean ====
section
/-! DEFINITION. The management interface: queue and device registers, ownership, power and heat, attestation, keys, the apertures, quarantine,
and the loss and return of power (R301 to R304, R318, R326, R346, R348, R353 to R361). -/

namespace Sys2Proof.Machine

/-! ### Queue registers (R318, R319, R326, R355) -/

/-- A function may write the registers of a queue: it owns the queue, and bring-up is complete (R355, R361). -/
def ownsQueue (s : State) (fn : BitVec 1) (q : BitVec 6) : Bool := q.toNat / 32 == fn.toNat && s.dev.ready

/-- A host write of QTAIL: ignored while the queue is open to `jl`, below TAIL, or above HEAD + 2^LOG2 (R319). -/
def writeTail (s : State) (q : BitVec 6) (v : Nat) : State :=
  let c := queueOf s q
  if c.isOpen || decide (v < c.tail) || decide (c.head + 2 ^ c.log2 < v) then s else setQueue s q { c with tail := v }

/-- QTAIL_WRITE (R319). -/
def execQtailWrite (fn : BitVec 1) (q : BitVec 6) (v : Word) (s : State) : Out :=
  if ownsQueue s fn q then .next (writeTail s q v.toNat) else .next s

/-- A write of QREPRIO: a fetched launch that has not been selected takes the priority from the next selection on; the consumer of a splice
stands for its producer (R326, R336). -/
def writeReprio (s : State) (q : BitVec 6) (v : Word) : State :=
  let t := setQueue s q { queueOf s q with reprio := v &&& 0xFFFFFFFFFFFFFF07 }
  match t.launches.find? fun l => l.queue == q.toNat && l.seq == v.toNat / 256 with
  | none => t
  | some l =>
    let p := if l.consumer then ((l.pair.bind (launchOf t)).getD l) else l
    if p.phase == .fetched || p.phase == .ready then setLaunch t { p with prio := v.toNat % 8 } else t

/-- QREPRIO_WRITE (R326). -/
def execQreprioWrite (fn : BitVec 1) (q : BitVec 6) (v : Word) (s : State) : Out :=
  if ownsQueue s fn q then .next (writeReprio s q v) else .next s

/-- A write to a queue register that has no behaviour of its own (R318): QBASE, QCBASE, QSIZE and QPASID change only while EN = 0 and
HEAD = TAIL = DONE. -/
def writeQueue (s : State) (q : BitVec 6) (reg : Nat) (v : Word) : State :=
  let c := queueOf s q
  let rest (d : CQueue) : State := if c.en || !(c.head == c.tail && c.tail == c.done) then s else setQueue s q d
  match reg with
  | 0x00 => setQueue s q { c with en := bitN v.toNat 0, irq := bitN v.toNat 1 }
  | 0x08 => rest { c with base := v &&& 0xFFFFFFFFFFFFF000 }
  | 0x10 => rest { c with cbase := v &&& 0xFFFFFFFFFFFFF000 }
  | 0x18 => rest { c with log2 := if 4 ≤ v.toNat % 32 ∧ v.toNat % 32 ≤ 16 then v.toNat % 32 else 4 }
  | 0x20 => rest { c with isOpen := bitN v.toNat 20, pasid := v.toNat % 2 ^ 20 }
  | 0x30 => writeTail s q v.toNat
  | 0x40 => writeReprio s q v
  | _ => s

/-! ### Ownership (R358, R359) -/

/-- A claim (R359): accepted while the device is unowned, or from the named successor; one by the owner is a sign of life. -/
def claim (s : State) (id : Nat) (nonce : Word) : State :=
  if 4 ≤ id then s
  else if s.dev.owner = 0xF ∨ s.dev.nextOwner = id then
    let t := setOwner s id 0xF
    { t with dev := { t.dev with ownnonce := nonce, beatAt := t.time } }
  else if s.dev.owner = id then { s with dev := { s.dev with beatAt := s.time } }
  else s

/-- OWNCLAIM (R359). -/
def execOwnclaim (id : BitVec 4) (nonce : Word) (s : State) : Out := .next (claim (settleOwner s) id.toNat nonce)

/-- The owner names its successor; a value that is neither 0 to 3 nor 0xF is ignored (R358, R359). -/
def writeNext (s : State) (id : Nat) (v : Nat) : State :=
  let m := v / 16 % 16
  if !isOwner s id ∨ (4 ≤ m ∧ m ≠ 0xF) then s else { s with dev := { s.dev with nextOwner := m, nextAt := s.time } }

/-- A write of NEXT in OWNSTAT (R359). -/
def execOwnstatNextWrite (id : BitVec 4) (v : Word) (s : State) : Out := .next (writeNext (settleOwner s) id.toNat v.toNat)

/-- The named successor has not claimed within 1 s (R359). -/
def execHandoverTimeout (s : State) : Out := .next (endHandover s)

/-- A heartbeat of the owner (R359). -/
def beat (s : State) (id : Nat) : State := if isOwner s id then { s with dev := { s.dev with beatAt := s.time } } else s

/-- A write of OWNBEAT: by the owner it is a heartbeat, and the register holds what was written (R358, R359). -/
def writeBeat (s : State) (id : Nat) (v : Word) : State :=
  if isOwner s id then { beat s id with dev := { (beat s id).dev with ownbeat := v } } else s

/-- OWNBEAT (R359). -/
def execOwnbeat (id : BitVec 4) (s : State) : Out := .next (beat (settleOwner s) id.toNat)

/-- 2 s have passed without a claim or heartbeat by the owner: the device is unowned (R359). -/
def execHeartbeatTimeout (s : State) : Out := .next (endOwnership s)

/-- The owner sets the power limit, clamped (R358, R359). -/
def writePwrlim (s : State) (id v : Nat) : State :=
  if isOwner s id then { s with dev := { s.dev with pwrlim := max 1600 (min (v % 65536) 3200) } } else s

/-- PWRLIM (R358). -/
def execPwrlim (id : BitVec 4) (v : Word) (s : State) : Out := .next (writePwrlim (settleOwner s) id.toNat v.toNat)

/-! ### The error log (R348, R358) -/

/-- Records up to TAIL are consumed, and stay in the ring until others take their places; a value below TAIL or above HEAD is ignored. -/
def writeElogTail (s : State) (v : Nat) : State :=
  if v < s.dev.elogTail ∨ s.dev.elogHead < v then s
  else { s with dev := { s.dev with elogTail := v } }

/-- ELOGTAIL (R358). -/
def execElogtail (v : Word) (s : State) : Out := .next (writeElogTail s v.toNat)

/-- Bits of the count that are written 1 are cleared. -/
def clearElogLost (s : State) (v : Word) : State :=
  { s with dev := { s.dev with elogLost := (W s.dev.elogLost &&& ~~~v).toNat } }

/-- ELOGLOST (R358). -/
def execEloglost (v : Word) (s : State) : Out := .next (clearElogLost s v)

/-- A write to a management register (R318, R358): the queue registers, and the device registers whose writes act as their own steps do.
Read-only registers and reserved offsets are not changed. -/
def execManagementRegisterWrite (fn : BitVec 1) (off : BitVec 25) (v : Word) (s : State) : Out :=
  let o := off.toNat
  let s := settleOwner s
  if 0x100000 ≤ o ∧ o < 0x102000 then
    let q := BitVec.ofNat 6 ((o - 0x100000) / 0x80)
    if ownsQueue s fn q then .next (writeQueue s q (o % 0x80) v) else .next s
  else
    match o with
    | 0x08 => .next (claim s fn.toNat v)
    | 0x18 => .next (writeNext s fn.toNat v.toNat)
    | 0x20 => .next (writeBeat s fn.toNat v)
    | 0x40 => .next (writePwrlim s fn.toNat v.toNat)
    | 0x88 => .next (writeElogTail s v.toNat)
    | 0x90 => .next (clearElogLost s v)
    | _ => .next s

/-! ### Reading the management BAR (R318, R348, R354, R355, R358) -/

/-- What a read of a queue register returns (R318). -/
def queueReg (c : CQueue) (reg : Nat) : Word :=
  match reg with
  | 0x00 => W ((if c.en then 1 else 0) + (if c.irq then 2 else 0))
  | 0x08 => c.base
  | 0x10 => c.cbase
  | 0x18 => W c.log2
  | 0x20 => W (c.pasid + (if c.isOpen then 2 ^ 20 else 0))
  | 0x28 => W c.head
  | 0x30 => W c.tail
  | 0x38 => W c.done
  | 0x40 => c.reprio
  | _ => 0

/-- What a read of a device register returns: reads of OWNCLAIM return 0 (R358). -/
def deviceReg (d : Device) (reg : Nat) : Word :=
  match reg with
  | 0x00 => if d.ready then 1 else 0
  | 0x10 => d.ownnonce
  | 0x18 => W (ownstat d)
  | 0x20 => d.ownbeat
  | 0x40 => W d.pwrlim
  | 0x48 => W d.pwrnow
  | 0x50 => W d.temp
  | 0x80 => W d.elogHead
  | 0x88 => W d.elogTail
  | 0x90 => W d.elogLost
  | _ => 0

/-- Doubleword `w` of slot `n` of the error log's ring (R348): that of the newest record whose number falls on the slot. -/
def logWord (d : Device) (n w : Nat) : Word :=
  if d.elogHead ≤ n then 0
  else
    let back := (d.elogHead - 1 - n) % 4096
    ((d.log.reverse[back]?).map fun r => W (bitsN r.bytes (64 * w) 64)).getD 0

/-- A doubleword of the management BAR: the device registers from 0, the registers of the 64 queues from 0x10_0000, through either function, and the error
log from 0x20_0000 (R318, R348, R354, R355, R358). Reserved offsets read 0. -/
def mgmtValue (s : State) (off : Nat) : Word :=
  let o := off / 8 * 8
  if o < 0x100000 then deviceReg s.dev o
  else if o < 0x102000 then queueReg (queueOf s (BitVec.ofNat 6 ((o - 0x100000) / 0x80))) (o % 0x80)
  else if 0x200000 ≤ o ∧ o < 0x220000 then logWord s.dev ((o - 0x200000) / 32) (o % 32 / 8)
  else 0

/-- A read of the management BAR (R354, R355, R358). -/
def mgmtRead (s : State) (off : Nat) : State :=
  let t := settleOwner s
  { t with dev := { t.dev with readBack := mgmtValue t off } }

/-- PWRNOW and TEMP are measured: what is drawn and how hot the hottest die is are free (R358; log entry 5). -/
def measure (s : State) : State :=
  let t := measured s
  let f := takeFree t
  { f.2 with dev := { f.2.dev with temp := (Config.temperature f.1).toNat % 256 } }

/-- An IDE stream is set up or torn down: Link IDE, or a selective one, of which a function has eight at most (R354). -/
def setIde (s : State) (fn : Nat) (stream : Option Nat) (on : Bool) : State :=
  match stream with
  | none => { s with dev := { s.dev with linkIde := on } }
  | some n =>
    let l := ((s.dev.ide[fn]?).getD []).filter (· != n)
    if on && decide (8 ≤ l.length) then s
    else { s with dev := { s.dev with ide := s.dev.ide.setIfInBounds fn (if on then n :: l else l) } }

/-! ### Attestation and keys (R356, R357) -/

/-- `n` free bytes of a responder. -/
def freeBytes (s : State) : Nat → State × List Byte
  | 0 => (s, [])
  | n + 1 =>
    let f := takeFree s
    match freeBytes f.2 n with
    | (t, l) => (t, (Config.spdm f.1).truncate 8 :: l)

/-- The mailbox of a function holds a response. -/
def respond (s : State) (fn : BitVec 1) (l : List Byte) : State := { s with dev := { s.dev with spdm := s.dev.spdm.set fn.toNat l } }

/-- What a measurement block measures (R356): nothing that changes for blocks 1 to 4, the quarantine and spare map for block 5, PWRLIM and the key slots that
hold a key for block 6. -/
def measuredBy (s : State) (block : Nat) : List Nat :=
  match block with
  | 5 => 24 :: (s.cores.filter fun r => r.spare).foldl (fun l r => insertN r.id l) [] ++ (s.cores.filter fun r => r.gone).foldl (fun l r => insertN r.id l) []
  | 6 => s.dev.pwrlim :: s.dev.keys.foldl (fun l k => insertN k.1 l) []
  | _ => []

/-- GET_MEASUREMENTS: six blocks, each its number and a SHA-384 digest of what it measures at that time; the spec does not give how that is laid out, so
that the digest is a free function of it (R356; log entry 5). DESIGN CHOICE: log entry 123. -/
def execGetMeasurements (fn : BitVec 1) (s : State) : Out :=
  .next (respond s fn ((List.range 6).flatMap fun b =>
    let d := (Config.measurement (b + 1) (measuredBy s (b + 1))).toNat
    BitVec.ofNat 8 (b + 1) :: (List.range 48).map fun i => BitVec.ofNat 8 (d / 256 ^ i)))

/-- KEY_EXCHANGE: a secured session with the function, with the responder's key and signature, 96 bytes each, whose values the spec does not
give (R356; log entry 5). -/
def execKeyExchange (fn : BitVec 1) (s : State) : Out :=
  match freeBytes s 192 with
  | (t, l) =>
    let u := respond t fn l
    .next { u with dev := { u.dev with session := u.dev.session.set fn.toNat true } }

/-- A key slot may be changed: by the owner, over a secured session, after bring-up, never slot 0 and no slot that an active PASID names
(R357, R361). -/
def mayChangeKey (s : State) (id : BitVec 4) (slot : BitVec 12) : Bool :=
  isOwner s id.toNat && s.dev.ready && (s.dev.session[id.toNat]?).getD false && slot != 0 && !slotInUse s slot.toNat

/-- KEY_SLOT_WRITE (R357). DEDUCED: log entry 74. -/
def execKeySlotWrite (id : BitVec 4) (slot : BitVec 12) (key : BitVec 512) (s : State) : Out :=
  let s := settleOwner s
  if mayChangeKey s id slot then
    .next { s with dev := { s.dev with keys := (slot.toNat, key) :: s.dev.keys.filter fun k => k.1 != slot.toNat } }
  else .next s

/-- KEY_SLOT_ERASE (R357). -/
def execKeySlotErase (id : BitVec 4) (slot : BitVec 12) (s : State) : Out :=
  let s := settleOwner s
  if mayChangeKey s id slot then .next { s with dev := { s.dev with keys := s.dev.keys.filter fun k => k.1 != slot.toNat } } else .next s

/-- A function's device interface enters a state; entering ERROR tears down the PASIDs of its queues (R354, R355). -/
noncomputable def setTdisp (s : State) (fn : BitVec 1) (st : TdispState) : State :=
  let was := s.dev.tdisp[fn.toNat]
  let t := { s with dev := { s.dev with tdisp := s.dev.tdisp.set fn.toNat st } }
  if st = .error ∧ was ≠ .error then
    let ps := ((List.range 32).map fun i => (queueOf t (BitVec.ofNat 6 (32 * fn.toNat + i))).pasid).eraseDups
    ps.foldl (fun t p => if (contextOf t p).state = 1 then tearDown t p else t) t
  else t

/-- TDISP_ERROR (R354). DEDUCED: log entry 75. -/
noncomputable def execTdispError (fn : BitVec 1) (s : State) : Out := .next (setTdisp s fn .error)

/-- TDISP_INTERFACE_STATE_CHANGE (R354). -/
noncomputable def execTdispInterfaceStateChange (fn : BitVec 1) (st : TdispState) (s : State) : Out := .next (setTdisp s fn st)

/-! ### The aperture (R354, R357) -/

/-- BAR2_READ of a doubleword of device DRAM: all ones, and a record, for a sealed granule; a poisoned granule's bytes are free (R354,
R357). -/
def execBar2Read (off : BitVec 36) (s : State) : Out :=
  let k := off.toNat / 8 * 8
  let put (s : State) (v : Word) : State := { s with dev := { s.dev with readBack := v } }
  if placeOf s k ≠ some .dram then .next s
  else if s.sealed.contains (k / 64) then .next (put (logError s 0x0B 4 0 0 k 0) (BitVec.allOnes 64))
  else if granulePois s (k / 64) || moduleFailed s k then
    let f := takeFree s
    .next (put f.2 (Config.hidden f.1))
  else .next (put s (W (memRead s k 8)))

/-- BAR2_WRITE of a doubleword: dropped, with a record, for a sealed granule (R357). -/
def execBar2Write (off : BitVec 36) (v : Word) (s : State) : Out :=
  let k := off.toNat / 8 * 8
  if placeOf s k ≠ some .dram then .next s
  else if s.sealed.contains (k / 64) then .next (logError s 0x0B 4 0 0 k 0)
  else
    .next (applyAt s k { key := k, n := 8, val := v.toNat, mask := 2 ^ 64 - 1, poison := false, epoch := 0, queue := .none, po := false,
                         sealing := false, whole := false, seq := 0 })

/-! ### Power and heat (R327, R360) -/

/-- Set the clocks of the clusters for which `p` holds. -/
def setClocks (s : State) (p : Nat → Bool) (f : Nat → Nat) : State :=
  { s with dev := { s.dev with clocks := Vector.ofFn fun k => if p k.val then f s.dev.clocks[k] else s.dev.clocks[k] } }

/-- The draw has exceeded the limit for 10 ms: every cluster clock goes down a step, and it is logged (R360). -/
def execPowerLimitExceeded (s : State) : Out := .next (logError (setClocks s (fun _ => true) fun c => max 1 (c - 1)) 0x0D 4 0 0 0 0)

/-- A die at 105 °C: its six clusters go to a quarter of nominal (R360). -/
def execDieTemperature105 (die : BitVec 2) (s : State) : Out :=
  .next (logError (setClocks s (fun k => k / 6 == die.toNat) fun c => min c 4) 0x0D die.toNat 0 0 0 105)

/-- A running hart stops with PREEMPT. -/
noncomputable def preemptHart (s : State) : State := if s.hart.run = .running then stopHart s ⟨.preempt, 0⟩ else s

/-- A die at 115 °C: every hart stops with PREEMPT, its frame is written, and the compute dies power down (R360). DEDUCED: log entry 77. -/
noncomputable def execDieTemperature115 (s : State) : Out :=
  let t := eachHart s fun s => preemptHart (drainAll s)
  .next (logError { t with dev := { t.dev with computeOn := false } } 0x0D 4 0 0 0 115)

/-- A supply sag on a die: each hart that runs on it counts it in `stretch` (R360). -/
def execSupplySag (die : BitVec 2) (s : State) : Out :=
  .next (mapHarts s fun h => if h.run = .running ∧ dieOf h.core = die.toNat then { h with stretch := h.stretch + 1 } else h)

/-! ### Reliability (R346, R353) -/

/-- A key of the module's own memory or scratchpads. -/
def isOwn (k : Nat) : Bool := isSpadKey k || isZKey k || decide (k < 0x0040000000000000)

/-- The compute die whose array holds a key: that of the core for a scratchpad, that of the slice for a die cache (R11, R12). -/
def dieOfArray (k : Nat) : Nat := if isSpadKey k then dieOf ((k - 2 ^ 57) / 2 ^ 21) else dieOfSlice k

/-- A scrub pass (R346, R349): what it corrects has the bytes it had; a granule of a die cache or of a scratchpad with an error that it cannot correct
becomes poison and is logged; poisoned granules stay poisoned. What it corrects, and what it finds in the arrays of a stall, comes as an upset. The counts of
re-executions start again (R353). DESIGN CHOICE: log entry 71. -/
def execScrubPass (hit : Option Nat) (s : State) : Out :=
  let s := { s with cores := s.cores.map fun r => { r with reexec := [] } }
  match hit with
  | none => .next s
  | some k =>
    if isOwn k then
      .next (logError { s with poison := insertN (granule k) s.poison } 0x02 (dieOfArray k) (if isSpadKey k then (k - 2 ^ 57) / 2 ^ 21 else 0) 0 k 0)
    else .next s

/-- Cells of poison: `n` from cell `n * g` on. -/
def groupCells (w n g : Nat) : BitVec w := BitVec.ofNat w ((2 ^ n - 1) * 2 ^ (n * g))

/-- Change a tile of the focused hart. -/
def mapTile (s : State) (t : Nat) (f : Tile → Tile) : State :=
  { s with hart := { s.hart with tile := s.hart.tile.setIfInBounds t (f ((s.hart.tile[t]?).getD Tile.zero)) } }

/-- Change the convoy at a place of the focused hart's vector queue. -/
def mapConvoy (s : State) (p : Nat) (f : Convoy → Convoy) : State := { s with hart := { s.hart with vq := s.hart.vq.modify p f } }

/-- What a fault that its unit cannot mask does to the values of the focused hart (R346): poison on the element group, on the 64-byte granule, on the
store, or on the summary; POISON for a scalar register and for an access entry, whose operands are scalars; copies that differ, where copies are compared
(R204, R351, R352). -/
noncomputable def upsetValue (s : State) : Upset → State
  | .tileCopy t i j => if s.hart.prot then mapTile s t fun c => { c with differs := (i, j) :: c.differs.filter (· != (i, j)) } else s
  | .groupCopy p m g => if s.hart.prot then mapConvoy s p fun c => { c with differs := c.differs ++ [(m, g)] } else s
  | .storeCopy n => if s.hart.duplex then squashStore s n else s
  | .vector r g => { s with hart := { s.hart with vp := s.hart.vp.setIfInBounds r ((s.hart.vp[r]?).getD 0 ||| groupCells 16384 (4 * groupBytes s) g) } }
  | .predicate r g =>
    if r = 0 then s
    else { s with hart := { s.hart with pp := s.hart.pp.setIfInBounds r ((s.hart.pp[r]?).getD 0 ||| groupCells 16384 (4 * groupBytes s) g) } }
  | .scale r g => { s with hart := { s.hart with kp := s.hart.kp.setIfInBounds r ((s.hart.kp[r]?).getD 0 ||| groupCells 1024 (groupBytes s / 8) g) } }
  | .scalar => takeTrap s .poison 0
  | .rename p m g => hurtUop s p m g
  | .storeEntry n => { s with hart := { s.hart with storeQ := s.hart.storeQ.modify n fun st => { st with poison := true, whole := false } } }
  | .accessEntry n =>
    match s.hart.aq[n]? with
    | some e => takeStop s .access ⟨.poison, 0⟩ e.addr s.hart.pc 0 s.hart.vstart 0 0
    | none => s
  | .tile t i g => mapTile s t fun c => { c with poison := c.poison.setIfInBounds i ((c.poison[i]?).getD 0 ||| groupCells 128 16 g) }
  | .latch g => { s with hart := { s.hart with latch := { s.hart.latch with cells := s.hart.latch.cells ||| (groupCells 16384 256 g).toNat } } }
  | .ring h c g =>
    let hit (k : Chunk) : Chunk := { k with cells := k.cells ||| (groupCells 16384 256 g).toNat }
    { s with hart := { s.hart with streams := s.hart.streams.map fun r => if r.handle = h then { r with ring := r.ring.modify c hit } else r } }
  | .summary n => { s with hart := { s.hart with sums := s.hart.sums.setIfInBounds n (((s.hart.sums[n]?).getD none).map poisonSum) } }
  | .corrected | .retried => s

/-- A fault in the focused hart's stall (R346): a corrected one is counted, and a compare whose retry passes is logged (R348); another is logged before
what it does is seen; copies that differ are found when they are compared (R204, R351, R352). DESIGN CHOICE: log entry 104. -/
noncomputable def applyUpset (s : State) (u : Upset) : State :=
  let core := s.hart.core
  if s.hart.run ≠ .running then s
  else
    match u with
    | .corrected => countUnit s (256 + core) (dieOf core) core
    | .retried => if s.hart.prot || s.hart.duplex then logError s 0x05 (dieOf core) core s.hart.pasid 0 0 else s
    | .tileCopy _ _ _ | .groupCopy _ _ _ | .storeCopy _ => upsetValue s u
    | _ => upsetValue (logError s 0x02 (dieOf core) core s.hart.pasid 0 0) u

/-- The link of a fabric port has failed. R348 has no record for it; messages go by the other ports (R11, R346). DESIGN CHOICE: log entry 122. -/
def failPort (s : State) (port : Nat) : State :=
  if port < 16 then { s with dev := { s.dev with portsFailed := insertN port s.dev.portsFailed } } else s

/-- The populated DRAM modules of a peer (R272). -/
def setPeerDrams (s : State) (m n : Nat) : State := { s with peerDrams := (m, n) :: s.peerDrams.filter fun p => p.1 != m }

/-- The fabric manager assigns a PASID to a tenant (R305). -/
def assignTenant (s : State) (pasid tenant : Nat) : State := { s with tenants := (pasid, tenant) :: s.tenants.filter fun t => t.1 != pasid }

/-- The host side of PCI Express reports an error for a page of host memory from now on, or no longer (R272). -/
def setHostPage (s : State) (pasid page : Nat) (fails : Bool) : State :=
  let l := s.hostFaults.filter (· != (pasid, page))
  { s with hostFaults := if fails then (pasid, page) :: l else l }

/-- The owner requests the quarantine of a core; another master's request is ignored (R359). -/
def askQuarantine (s : State) (id core : Nat) : State :=
  let s := settleOwner s
  if isOwner s id then { s with dev := { s.dev with asked := insertN core s.dev.asked } } else s

/-- A core is to be quarantined (R353, R359): MISMATCH has occurred again at it, one lane has re-executed more than 16 times in this scrub interval, or the
owner has requested it. -/
def quarantineDue (s : State) (c : Nat) : Bool :=
  let r := coreOf s c
  decide (2 ≤ r.mismatches) || (r.reexec.any fun q => decide (16 < q.2)) || s.dev.asked.contains c

/-- CORE_QUARANTINE (R353): when it is due, the core's harts stop with PREEMPT, the spare of its cluster takes its number with a clean scratchpad, and it is
logged; with the spare in use the number is lost to ordinary jobs until reset. DEDUCED: log entry 76. -/
noncomputable def execCoreQuarantine (core : BitVec 8) (s : State) : Out :=
  let c := core.toNat
  if 192 ≤ c ∨ (coreOf s c).gone ∨ !quarantineDue s c then .next s
  else
    let t := eachHart s fun s => if runsOn s.hart c then preemptHart s else s
    let used := t.cores.any fun r => clusterOf r.id == clusterOf c && r.spare
    let r := { coreOf t c with mismatches := 0, reexec := [] }
    let t := setCore t (if used then { r with gone := true } else { r with spare := true })
    let t := { t with dev := { t.dev with asked := removeN c t.dev.asked } }
    let t := if used then t else
      { t with mem := Memory.clear t.mem (spadKey c) (2 ^ 21),
               poison := t.poison.filter fun g => !(decide (granule (spadKey c) ≤ g) && decide (g < granule (spadKey c) + 2 ^ 18)) }
    .next (logError t 0x0A (dieOf c) c 0 0 0)

/-! ### Losing and regaining power (R301 to R304, R361) -/

/-- Memory that is not the module's: peers, sheds and the host (R272). -/
def isForeign (k : Nat) : Bool := decide (0x0040000000000000 ≤ k) && !isSpadKey k && !isZKey k

/-- Nothing of the module survives but what its Loft modules hold durably (R301): the machine is as at reset, before bring-up. Sheds lose
their blocks and extents, since their jobs are gone. DEDUCED: log entry 73. -/
def loseAll (s : State) : State :=
  { State.reset with
    mem := s.mem.filter fun c => isForeign c.1 && !isShedKey c.1,
    poison := s.poison.filter fun g => isForeign (64 * g) && !isShedKey (64 * g) && decide (g < 2 ^ 51),
    durable := s.durable, durablePoison := s.durablePoison, drams := s.drams, lofts := s.lofts, loftLost := s.loftLost,
    loftClean := s.durableClean, durableClean := s.durableClean, peerDrams := s.peerDrams, ctxBase := s.ctxBase, hostFaults := s.hostFaults, sheds := { Sheds.reset with failed := s.sheds.failed, quotas := s.sheds.quotas },
    tenants := s.tenants, module := s.module, agenda := s.agenda, free := s.free }

/-- POWER_LOSS (R301). -/
def execPowerLoss (s : State) : Out := .next (loseAll s)

/-- DEVICE_RESET with power held acts in the same way (R301). -/
def execDeviceReset (s : State) : Out := .next (loseAll s)

/-- Each Loft module restores what it holds durably (R302). -/
def restoreLoft (s : State) : State :=
  { s with mem := s.durable.foldl (fun m c => Memory.write m c.1 c.2) (Memory.clear s.mem 0x0010000000000000 (2 ^ 43)),
           poison := s.durablePoison.foldl (fun l g => insertN g l) s.poison }

/-- The module's own memories are initialised to clean zeros, but for the Loft, and so are the register files: nothing that was written before is left
(R361). -/
def clearOwn (s : State) : State :=
  { s with hart := Hart.reset 0 0, others := [], cores := [], gangs := [], launches := [],
           mem := s.mem.filter fun c => isForeign c.1 || isLoftKey c.1,
           poison := s.poison.filter fun g => decide (g < 2 ^ 51) && (isForeign (64 * g) || isLoftKey (64 * g)),
           sealed := s.sealed.filter fun g => isLoftKey (64 * g), sealKeys := s.sealKeys.filter fun q => isLoftKey (64 * q.1),
           combining := [], zcache := [], overflow := [], overflowMoved := [], zWriters := [], wbWait := [], tlb := [], migrations := [] }

/-- POWER_ON: bring-up (R361): the module's memories other than the Loft are cleared, the log holds the records of this bring-up alone, Loft modules restore their contents from flash, those that could not drain are reported
lost, granules whose flash copy is bad read as poison and are logged (R304), and READY is set last. -/
def execPowerOn (lost bad : List Nat) (s : State) : Out :=
  if s.dev.ready then .next s
  else
    let s := clearOwn (restoreLoft s)
    let s := lost.foldl (fun s n => if n < s.lofts then loseLoft s n else s) s
    let s := bad.foldl (fun s k =>
      if isLoftKey k then
        logError { s with poison := insertN (granule k) s.poison, durablePoison := insertN (granule k) s.durablePoison } 0x08 6
          (s.drams + (k - 0x0010000000000000) / 2 ^ 39) 0 k 0
      else s) s
    .next { s with dev := { s.dev with ready := true } }

end Sys2Proof.Machine
end

