-- ==== Sys2Proof/Machine/ScalarMem.lean ====
section
/-! DEFINITION. Scalar loads, stores and atomics, with their compressed forms (R45, R65 to R70). -/

namespace Sys2Proof.Machine

/-- The address of a format M access (R65). -/
def eaM (f : OpM11) (s : State) : Word := readX s f.a + immS f.imm

/-- A scalar load of one register: width in bytes and extension (R36, R65). -/
def loadM (f : OpM11) (n : Nat) (ext : Nat → Word) (s : State) : Out :=
  if anyHeld s [f.a, f.d] then .next (wait s .held)
  else scalarLoad s (eaM f s) n 4 (fun t v => writeX t f.d (ext v))

/-- A scalar store of one register (R36, R65). -/
def storeM (f : OpM11) (n : Nat) (s : State) : Out :=
  if anyHeld s [f.a, f.d] then .next (wait s .held)
  else scalarStore s (eaM f s) n ((readX s f.d).toNat % 256 ^ n) 4


/-- `ld.i8` (R36, R65). -/
def execLdI8 (f : OpM11) (s : State) : Out := loadM f 1 (fun v => W (wrapN (signExt v 8) 64)) s

/-- `ld.i16` (R36, R65). -/
def execLdI16 (f : OpM11) (s : State) : Out := loadM f 2 (fun v => W (wrapN (signExt v 16) 64)) s

/-- `ld.i32` (R36, R65). -/
def execLdI32 (f : OpM11) (s : State) : Out := loadM f 4 (fun v => W (wrapN (signExt v 32) 64)) s

/-- `ld.i64` (R36, R65). -/
def execLdI64 (f : OpM11) (s : State) : Out := loadM f 8 (fun v => W v) s

/-- `ld.n8` (R36, R65). -/
def execLdN8 (f : OpM11) (s : State) : Out := loadM f 1 (fun v => W v) s

/-- `ld.n16` (R36, R65). -/
def execLdN16 (f : OpM11) (s : State) : Out := loadM f 2 (fun v => W v) s

/-- `ld.n32` (R36, R65). -/
def execLdN32 (f : OpM11) (s : State) : Out := loadM f 4 (fun v => W v) s

/-- `ld.pr` into x(d) and x(d+1) (R36, R65). -/
def execLdPr (f : OpM11) (s : State) : Out :=
  if anyHeld s [f.a, f.d, f.d + 1] then .next (wait s .held)
  else scalarLoad s (eaM f s) 16 4 (fun t v => writeX (writeX t f.d (W v)) (f.d + 1) (W (v / 2 ^ 64)))

/-- `st.i8` (R36, R65). -/
def execStI8 (f : OpM11) (s : State) : Out := storeM f 1 s

/-- `st.i16` (R36, R65). -/
def execStI16 (f : OpM11) (s : State) : Out := storeM f 2 s

/-- `st.i32` (R36, R65). -/
def execStI32 (f : OpM11) (s : State) : Out := storeM f 4 s

/-- `st.i64` (R36, R65). -/
def execStI64 (f : OpM11) (s : State) : Out := storeM f 8 s

/-- `st.pr` from x(d) and x(d+1) (R36, R65). -/
def execStPr (f : OpM11) (s : State) : Out :=
  if anyHeld s [f.a, f.d, f.d + 1] then .next (wait s .held)
  else scalarStore s (eaM f s) 16 ((readX s f.d).toNat + 2 ^ 64 * (readX s (f.d + 1)).toNat) 4

/-- `c.ld` (R45). -/
def execCLd (a d : BitVec 5) (s : State) : Out :=
  if anyHeld s [a, d] then .next (wait s .held)
  else scalarLoad s (readX s a) 8 2 (fun t v => writeX t d (W v))

/-- `c.sd` (R45). -/
def execCSd (a d : BitVec 5) (s : State) : Out :=
  if anyHeld s [a, d] then .next (wait s .held)
  else scalarStore s (readX s a) 8 (readX s d).toNat 2

/-- A read-modify-write atomic whose new value is `g old x[b]` (R69). -/
def amoM (f : OpSA) (g : Word → Word → Word) (s : State) : Out :=
  scalarAmo f true true [f.a, f.b, f.d] (fun old => some (g old (readX s f.b))) s

/-- `amo.swap` (R69, R70). -/
def execAmoSwap (f : OpSA) (s : State) : Out := amoM f (fun _ v => v) s

/-- `amo.add` (R69, R70). -/
def execAmoAdd (f : OpSA) (s : State) : Out := amoM f (fun old v => old + v) s

/-- `amo.and` (R69, R70). -/
def execAmoAnd (f : OpSA) (s : State) : Out := amoM f (fun old v => old &&& v) s

/-- `amo.or` (R69, R70). -/
def execAmoOr (f : OpSA) (s : State) : Out := amoM f (fun old v => old ||| v) s

/-- `amo.xor` (R69, R70). -/
def execAmoXor (f : OpSA) (s : State) : Out := amoM f (fun old v => old ^^^ v) s

/-- `amo.min` (R69, R70). -/
def execAmoMin (f : OpSA) (s : State) : Out := amoM f (fun old v => if old.slt v then old else v) s

/-- `amo.max` (R69, R70). -/
def execAmoMax (f : OpSA) (s : State) : Out := amoM f (fun old v => if old.slt v then v else old) s

/-- `amo.minn` (R69, R70). -/
def execAmoMinn (f : OpSA) (s : State) : Out := amoM f (fun old v => if old.ult v then old else v) s

/-- `amo.maxn` (R69, R70). -/
def execAmoMaxn (f : OpSA) (s : State) : Out := amoM f (fun old v => if old.ult v then v else old) s

/-- `amo.cas`: x[d] is the compare value before it receives old (R69, R70). -/
def execAmoCas (f : OpSA) (s : State) : Out := 
  scalarAmo f true true [f.a, f.b, f.d] (fun old => if old = readX s f.d then some (readX s f.b) else none) s

/-- `amo.ld`: needs read permission alone (R69, R70). -/
def execAmoLd (f : OpSA) (s : State) : Out := scalarAmo f false true [f.a, f.d] (fun _ => none) s

/-- `amo.st`: writes no register (R69, R70). -/
def execAmoSt (f : OpSA) (s : State) : Out := scalarAmo f true false [f.a, f.b] (fun _ => some (readX s f.b)) s

end Sys2Proof.Machine
end

