-- ==== Sys2Proof/Machine/Turns.lean ====
section
/-! DEFINITION. Whose turn comes next: the agenda, and the policy when the agenda is empty (R11, R20, R23, R27, R169, R178, R289; log
entry 1). -/

namespace Sys2Proof.Machine

noncomputable section

/-! ### What is due (log entry 1) -/

/-- A step of an agent changes something. -/
def acts (f : State → Out) (s : State) : Bool :=
  match f s with
  | .next t => t != s
  | _ => false

/-- An event when its step changes something. -/
def whenActs (i : Instr) (f : State → Out) (s : State) : Option Instr := if acts f s then some i else none

/-- The reply to the oldest packet of a link (R286). -/
def replyDue (s : State) : Option Instr :=
  s.packets.head?.map fun p =>
    if p.cmd = 1 then .linkRdr (BitVec.ofNat 6 p.module) (BitVec.ofNat 5 p.sc) (BitVec.ofNat 3 p.tag) 0
    else .linkWra (BitVec.ofNat 6 p.module) (BitVec.ofNat 5 p.sc) (BitVec.ofNat 3 p.tag) 0

/-- The module and the offset in it of a Loft address (R272). -/
def loftOffset (s : State) (k : Nat) : Nat × Nat := (s.drams + (k - 0x0010000000000000) / 2 ^ 39, (k - 0x0010000000000000) % 2 ^ 39)

/-- The bytes of a 128-byte block that a store writes, as a mask of bytes. -/
def blockMask (l : LoftStore) : Nat :=
  ((List.range 128).map fun i =>
    let k := l.key / 128 * 128 + i
    if decide (l.key ≤ k) && decide (k < l.key + l.n) && l.mask / 256 ^ (k - l.key) % 256 != 0 then 2 ^ i else 0).sum

/-- The write-through of the first Loft store that may become durable: its 128-byte block as it will be, as the link carries it (R289). -/
def writeThroughDue (s : State) : Option Instr :=
  ((List.range s.loftPend.length).find? (mayAccept s)).bind fun i =>
    (s.loftPend[i]?).map fun l =>
      let b := l.key / 128 * 128
      let o := loftOffset s b
      let t := acceptAt s i
      .linkWrm (BitVec.ofNat 6 o.1) (BitVec.ofNat 40 o.2) 4 (BitVec.ofNat 128 (blockMask l)) ((List.range 128).map fun j => linkByte t t.durable (b + j))
        l.poison

/-- Causes for which the leaf ends the gang of a stopped hart: its default action of R87; a page that stays unmapped is not restored. -/
def endsGang (c debug : Nat) : Bool := decide (1 ≤ c ∧ c ≤ 0x14) && !(debug == 1 && (c == 0x11 || c == 0x12))

/-- `restore` of a stopped hart has been refused, and would be in every stall: its frame is broken (R97). -/
noncomputable def refusedForGood (s : State) (p : Stop) : Bool :=
  s.leaf.contains (.refused s.hart.gangid s.hart.hartid) &&
    (match headerBytes s p with
      | some v => frameBroken s p v
      | none => false)

/-- The leaf acts on the focused hart: it orders a pending pre-emption again (R88), and ends the gang of a hart that has stopped for a cause of its
default action or that no stall can restore (R87, R94, R97, R99). -/
noncomputable def leafDue (s : State) : Option Instr :=
  let stop (c : BitVec 8) : Option Instr := whenActs (.gangEnd c) (execGangEnd c) s
  match gangOf s s.hart, s.hart.stop with
  | some g, some p =>
    if s.hart.run ≠ .stopped then none
    else
      match p.faulted with
      | some t => stop (BitVec.ofNat 8 t.cause.code)
      | none =>
        if endsGang s.hart.cause.toNat (if g.debug then 1 else 0) || refusedForGood s p then stop s.hart.cause else none
  | _, _ =>
    if s.hart.run = .running ∧ s.leaf.contains (.preemptPending s.hart.gangid s.hart.hartid) then whenActs .preempt execPreempt s else none

/-- The core of the focused hart may switch modes (R58). -/
noncomputable def switchDue (s : State) : Option Instr := whenActs (.stallModeSwitch s.hart.gangid) (execStallModeSwitch s.hart.gangid) s

/-- The next step of the launch engine: fetching, readiness, pairs, selection, starts, steals, completion (R318 to R332). -/
noncomputable def engineDue (s : State) : Option Instr :=
  let q := (List.range 64).findSome? fun n =>
    let q := BitVec.ofNat 6 n
    if (queueOf s q).en then whenActs (.recordFetch q) (execRecordFetch q) s else none
  let each (f : Launch → Option Instr) : Option Instr := s.launches.findSome? f
  let ready := each fun l => whenActs (.launchReady l.lid) (execLaunchReady l.lid) s
  let pairs := each fun l => whenActs (.pairDecision l.lid) (execPairDecision l.lid) s
  let start := each fun l => whenActs (.gangStart l.lid) (execGangStart l.lid) s
  let steal := s.gangs.findSome? fun g => whenActs (.stripSteal g.lid) (execStripSteal g.lid) s
  let posts := each fun l =>
    if l.phase = .ended then whenActs (.completionRecord (BitVec.ofNat 6 l.queue)) (execCompletionRecord (BitVec.ofNat 6 l.queue)) s else none
  q.orElse fun _ => ready.orElse fun _ => pairs.orElse fun _ => start.orElse fun _ => steal.orElse fun _ => posts.orElse fun _ =>
    (if s.launches.isEmpty then none else whenActs .schedulerSelection execSchedulerSelection s).orElse fun _ =>
      (List.range 24).findSome? fun k => whenActs (.clockRaise (BitVec.ofNat 5 k)) (execClockRaise (BitVec.ofNat 5 k)) s

/-- The first step that some agent other than a sequencer can take: stores become visible and durable, links reply, the leaf and the launch
engine act. -/
noncomputable def due (s : State) : Option Instr :=
  if !s.hart.storeQ.isEmpty then some (.storeQueueDrain 0)
  else if !s.combining.isEmpty then some (.combiningEntryRetire 0)
  else (replyDue s).orElse fun _ => (writeThroughDue s).orElse fun _ => (leafDue s).orElse fun _ => (switchDue s).orElse fun _ => engineDue s

/-! ### The turns of a hart -/

/-- An instruction as the sequencer takes it: one linked to the next is posted with its convoy (R19). -/
def asPosted (i : Instr) (linked : Bool) : Instr := if i.cls = .vector ∧ linked then .convoyPost else i

/-- The instruction that fetched bits give (R32, R47). DEDUCED: log entry 12. -/
def instrOf (v : Nat) : Instr :=
  match gotOf v with
  | .ok i linked _ _ => asPosted i linked
  | .bad w => .illegalInstruction (W w) 0
  | _ => .illegalInstruction (W v) 0

/-- The turn of a sequencer in spliced code (R338, R339, R342): the instruction, in its role; or, before the first back branch, the release of the
iteration's linked stores, once the convoys before it have retired. -/
def spliceTurn (s : State) (sp : Splice) : State × Option Instr :=
  let k := spliceNext sp (spliceIndex s.hart.pc)
  match sp.code[k]? with
  | none => (takeTrap s .tfault s.hart.pc, none)
  | some i =>
    let s := { s with hart := { s.hart with pc := spliceAddr k } }
    let s := if i.consumer = sp.consumer then s else swapRole s
    if !i.consumer && i.region == 2 && !sp.linked.isEmpty then
      if s.hart.vq.isEmpty then (s, some .linkedStoreRelease) else (wait s .drain, none)
    else
      (s, some (match i.instr with
        | .illegalInstruction enc _ => instrOf enc.toNat
        | j => asPosted j j.linked))

/-- The queues are to be tried again: what they waited for may have come. -/
def retryQueues (s : State) : State :=
  if s.hart.vwait.isNone && s.hart.await.isNone then s else { s with hart := { s.hart with vwait := none, await := none } }

/-- The turn of a sequencer that does not wait: it fetches and decodes at the program counter (R32, R33, R47). -/
def fetchTurn (s : State) : State × Option Instr :=
  match s.hart.splice with
  | some sp => spliceTurn s sp
  | none =>
    match fetchBits s s.hart.pc with
    | (t, .bits v) => (t, some (instrOf v))
    | (_, .trap t) => (takeTrap s t.cause t.tval, none)
    | (_, .stall) => (wait s .migration, none)

/-- One turn of the vector queue's head (R20, R53). -/
def vectorTurn (s : State) : State :=
  let t := headTurn s
  if t.hart.pennants = s.hart.pennants then t else { t with hart := { t.hart with await := none } }

/-- A step of the access queue lets the vector queue and the sequencer try again. -/
def wake (s : State) : State := { s with hart := { s.hart with vwait := none, again := true } }

/-- A wait of the sequencer that only the hart's own queues can end (R27). -/
def ownWait (p : Park) : Bool := p == .held || p == .qclass || p == .stores || p == .acquire || p == .pennant || p == .drain || p == .full

/-- The member at which the head convoy waits. -/
def waitingMember (s : State) (c : Convoy) : Nat :=
  (runMembers (beginConvoy s c) (c.members.filterMap memberOf)).hart.cur.index - 1

/-- PENNANT at the oldest waiting instruction, when no queue of the hart can proceed (R27). -/
def deadlock (s : State) (p : Park) : Option State :=
  if !ownWait p then none
  else
    match s.hart.vq, s.hart.aq with
    | [], [] => none
    | [], e :: _ =>
      match s.hart.await with
      | some (some v) => some (takeStop s .access ⟨.pennant, v⟩ e.addr s.hart.pc 0 s.hart.vstart 0 0)
      | _ => none
    | c :: _, aq =>
      let s := roleFor s c.addr
      match s.hart.vwait with
      | some (some v) =>
        if aq.isEmpty || (s.hart.await.getD none).isSome then
          some (stopConvoy s c (c.members.filterMap memberOf) s.hart.vstart (waitingMember s c) ⟨.pennant, v⟩ c.taken s.hart.pennants none)
        else none
      | _ => none

/-- Time passes, and the next hart in rotation has its turn; packets that have left the fabric port are gone. DESIGN CHOICE: log entry 79. -/
def passTurn (s : State) : State :=
  rotate { s with hart := { s.hart with kept := s.hart.instret.toNat / 256 }, time := s.time + 1, outbox := [] }

/-- Other agents act while the focused hart cannot; when nothing is due the turn passes. -/
def idleTurn (s : State) (pass : State) : State × Option Instr :=
  match due s with
  | some i => (s, some i)
  | none => (passTurn pass, none)

/-- The turn of a sequencer that waits: others act, a deadlock traps, and otherwise every wait is tried again at the hart's next turn; until then the hart
stays parked where it is (R58, R80). -/
def parkedTurn (s : State) (p : Park) : State × Option Instr :=
  match due s with
  | some i => (s, some i)
  | none =>
    match deadlock s p with
    | some t => (t, none)
    | none => (passTurn { s with hart := { s.hart with again := true, vwait := none, await := none } }, none)

/-- The turn of a hart that runs: its vector queue, its access queue, then its sequencer; after 256 instructions the others have a turn, and so they have
while a write-back of what the hart wrote waits (R283). -/
def runTurn (s : State) : State × Option Instr :=
  if s.hart.instret.toNat / 256 ≠ s.hart.kept || writerStalls s s.hart then idleTurn s s
  else if !s.hart.vq.isEmpty && s.hart.vwait.isNone then (vectorTurn s, none)
  else if !s.hart.aq.isEmpty && s.hart.await.isNone then
    match accessTurn s with
    | some t => (wake t, none)
    | none => ({ s with hart := { s.hart with await := some (headReason s) } }, none)
  else
    match s.hart.park with
    | some p =>
      if s.hart.again then fetchTurn (retryQueues { s with hart := { s.hart with park := none, again := false } }) else parkedTurn s p
    | none => fetchTurn (retryQueues s)

/-- The policy when the agenda is empty: bring-up first, then the focused hart if it runs, and otherwise whatever is due. -/
def policyTurn (s : State) : State × Option Instr :=
  if !s.dev.ready then (s, some (.powerOn [] []))
  else if retryWriteBack s != s then (retryWriteBack s, none)
  else if s.hart.run = .running then
    -- the leaf orders a pending pre-emption again before the hart goes on (R88)
    match (if s.leaf.contains (.preemptPending s.hart.gangid s.hart.hartid) then leafDue s else none) with
    | some i => (s, some i)
    | none => runTurn s
  else
    let t := finishStop s
    if t = s then idleTurn s s else (t, none)

/-- The agenda's first turn: its events are steps of the table that no program encodes. -/
def agendaTurn (s : State) (a : Turn) : State × Option Instr :=
  match a with
  | .event i => (s, if i.cls = .event then some i else none)
  | .focus n => ((List.range n).foldl (fun s _ => rotate s) s, none)
  | .tick us => ({ s with time := s.time + us }, none)
  | .arrive m => ({ s with inbox := s.inbox ++ [{ m with came := s.time }] }, none)
  | .hostPage pasid page fails => (setHostPage s pasid page fails, none)
  | .upset u => (applyUpset s u, none)
  | .tenant pasid tenant => (assignTenant s pasid tenant, none)
  | .recvPosted m h here tag len => (remoteRecv s m h here tag len, none)
  | .strangePacket m cmd addr len => (strangePacket s m cmd addr len, none)
  | .mgmtRead off => (mgmtRead s off, none)
  | .measure => (measure s, none)
  | .ide fn stream on => (setIde s fn stream on, none)
  | .askQuarantine id core => (askQuarantine s id core, none)
  | .portFails port => (failPort s port, none)
  | .peerDrams m n => (setPeerDrams s m n, none)

/-- The next turn: the state when it starts, and the instruction or event that it performs, if any (log entry 1). -/
def chosen (s : State) : State × Option Instr :=
  match s.agenda with
  | a :: rest => agendaTurn { s with agenda := rest } a
  | [] => policyTurn s

end

end Sys2Proof.Machine
end

