-- ==== Sys2Proof/Machine/Dispatch.lean ====
section
/-! DEFINITION. The one dispatch of the machine: each constructor of Instr calls its own meaning. -/

namespace Sys2Proof.Machine

open Host in noncomputable
def exec (i : Instr) (s : State) : Host.Outcome State Fault Refusal :=
  match i with
  | .add f => Sys2Proof.Machine.execAdd f s
  | .sub f => Sys2Proof.Machine.execSub f s
  | .and f => Sys2Proof.Machine.execAnd f s
  | .or f => Sys2Proof.Machine.execOr f s
  | .xor f => Sys2Proof.Machine.execXor f s
  | .sll f => Sys2Proof.Machine.execSll f s
  | .srl f => Sys2Proof.Machine.execSrl f s
  | .sra f => Sys2Proof.Machine.execSra f s
  | .slt f => Sys2Proof.Machine.execSlt f s
  | .sltn f => Sys2Proof.Machine.execSltn f s
  | .min f => Sys2Proof.Machine.execMin f s
  | .max f => Sys2Proof.Machine.execMax f s
  | .minn f => Sys2Proof.Machine.execMinn f s
  | .maxn f => Sys2Proof.Machine.execMaxn f s
  | .mul f => Sys2Proof.Machine.execMul f s
  | .mulh f => Sys2Proof.Machine.execMulh f s
  | .mulhn f => Sys2Proof.Machine.execMulhn f s
  | .div f => Sys2Proof.Machine.execDiv f s
  | .divn f => Sys2Proof.Machine.execDivn f s
  | .rem f => Sys2Proof.Machine.execRem f s
  | .remn f => Sys2Proof.Machine.execRemn f s
  | .addw f => Sys2Proof.Machine.execAddw f s
  | .subw f => Sys2Proof.Machine.execSubw f s
  | .clz f => Sys2Proof.Machine.execClz f s
  | .ctz f => Sys2Proof.Machine.execCtz f s
  | .popc f => Sys2Proof.Machine.execPopc f s
  | .addi f => Sys2Proof.Machine.execAddi f s
  | .andi f => Sys2Proof.Machine.execAndi f s
  | .ori f => Sys2Proof.Machine.execOri f s
  | .xori f => Sys2Proof.Machine.execXori f s
  | .slli f => Sys2Proof.Machine.execSlli f s
  | .srli f => Sys2Proof.Machine.execSrli f s
  | .srai f => Sys2Proof.Machine.execSrai f s
  | .slti f => Sys2Proof.Machine.execSlti f s
  | .sltni f => Sys2Proof.Machine.execSltni f s
  | .ldI8 f => Sys2Proof.Machine.execLdI8 f s
  | .ldI16 f => Sys2Proof.Machine.execLdI16 f s
  | .ldI32 f => Sys2Proof.Machine.execLdI32 f s
  | .ldI64 f => Sys2Proof.Machine.execLdI64 f s
  | .ldN8 f => Sys2Proof.Machine.execLdN8 f s
  | .ldN16 f => Sys2Proof.Machine.execLdN16 f s
  | .ldN32 f => Sys2Proof.Machine.execLdN32 f s
  | .ldPr f => Sys2Proof.Machine.execLdPr f s
  | .stI8 f => Sys2Proof.Machine.execStI8 f s
  | .stI16 f => Sys2Proof.Machine.execStI16 f s
  | .stI32 f => Sys2Proof.Machine.execStI32 f s
  | .stI64 f => Sys2Proof.Machine.execStI64 f s
  | .stPr f => Sys2Proof.Machine.execStPr f s
  | .amoSwap f => Sys2Proof.Machine.execAmoSwap f s
  | .amoAdd f => Sys2Proof.Machine.execAmoAdd f s
  | .amoAnd f => Sys2Proof.Machine.execAmoAnd f s
  | .amoOr f => Sys2Proof.Machine.execAmoOr f s
  | .amoXor f => Sys2Proof.Machine.execAmoXor f s
  | .amoMin f => Sys2Proof.Machine.execAmoMin f s
  | .amoMax f => Sys2Proof.Machine.execAmoMax f s
  | .amoMinn f => Sys2Proof.Machine.execAmoMinn f s
  | .amoMaxn f => Sys2Proof.Machine.execAmoMaxn f s
  | .amoCas f => Sys2Proof.Machine.execAmoCas f s
  | .amoLd f => Sys2Proof.Machine.execAmoLd f s
  | .amoSt f => Sys2Proof.Machine.execAmoSt f s
  | .ldh f => Sys2Proof.Machine.execLdh f s
  | .pcadd f => Sys2Proof.Machine.execPcadd f s
  | .beq f => Sys2Proof.Machine.execBeq f s
  | .bne f => Sys2Proof.Machine.execBne f s
  | .blt f => Sys2Proof.Machine.execBlt f s
  | .bge f => Sys2Proof.Machine.execBge f s
  | .bltn f => Sys2Proof.Machine.execBltn f s
  | .bgen f => Sys2Proof.Machine.execBgen f s
  | .jal f => Sys2Proof.Machine.execJal f s
  | .jalr f => Sys2Proof.Machine.execJalr f s
  | .crRd f => Sys2Proof.Machine.execCrRd f s
  | .crWr f => Sys2Proof.Machine.execCrWr f s
  | .crSet f => Sys2Proof.Machine.execCrSet f s
  | .crClr f => Sys2Proof.Machine.execCrClr f s
  | .tilenWrite v => Sys2Proof.Machine.execTilenWrite v s
  | .psmMirrorClear => Sys2Proof.Machine.execPsmMirrorClear s
  | .vsl f => Sys2Proof.Machine.execVsl f s
  | .brk => Sys2Proof.Machine.execBrk s
  | .swtrap f => Sys2Proof.Machine.execSwtrap f s
  | .halt => Sys2Proof.Machine.execHalt s
  | .lsync sc => Sys2Proof.Machine.execLsync sc s
  | .gbar f => Sys2Proof.Machine.execGbar f s
  | .wmPub sc f => Sys2Proof.Machine.execWmPub sc f s
  | .wmWait sc f => Sys2Proof.Machine.execWmWait sc f s
  | .pnSend c f => Sys2Proof.Machine.execPnSend c f s
  | .pnRecvCh2 f => Sys2Proof.Machine.execPnRecvCh2 f s
  | .pnRecvCh4 f => Sys2Proof.Machine.execPnRecvCh4 f s
  | .pnCnt c f => Sys2Proof.Machine.execPnCnt c f s
  | .jl f => Sys2Proof.Machine.execJl f s
  | .jwait f => Sys2Proof.Machine.execJwait f s
  | .hmBody => Sys2Proof.Machine.execHmBody s
  | .hmEnd => Sys2Proof.Machine.execHmEnd s
  | .cAddi imm d => Sys2Proof.Machine.execCAddi imm d s
  | .cLi imm d => Sys2Proof.Machine.execCLi imm d s
  | .cMv a d => Sys2Proof.Machine.execCMv a d s
  | .cAdd a d => Sys2Proof.Machine.execCAdd a d s
  | .cSub a d => Sys2Proof.Machine.execCSub a d s
  | .cAnd a d => Sys2Proof.Machine.execCAnd a d s
  | .cSlli imm d => Sys2Proof.Machine.execCSlli imm d s
  | .cSrai imm d => Sys2Proof.Machine.execCSrai imm d s
  | .cLd a d => Sys2Proof.Machine.execCLd a d s
  | .cSd a d => Sys2Proof.Machine.execCSd a d s
  | .cBeqz imm d => Sys2Proof.Machine.execCBeqz imm d s
  | .cBnez imm d => Sys2Proof.Machine.execCBnez imm d s
  | .cJ imm => Sys2Proof.Machine.execCJ imm s
  | .cJr a => Sys2Proof.Machine.execCJr a s
  | .cNop => Sys2Proof.Machine.execCNop s
  | .cBrk => Sys2Proof.Machine.execCBrk s
  | .illegalInstruction enc member => Sys2Proof.Machine.execIllegalInstruction enc member s
  | .vadd f => Sys2Proof.Machine.execVadd f s
  | .vsub f => Sys2Proof.Machine.execVsub f s
  | .vmul f => Sys2Proof.Machine.execVmul f s
  | .vmulh f => Sys2Proof.Machine.execVmulh f s
  | .vmulhn f => Sys2Proof.Machine.execVmulhn f s
  | .vand f => Sys2Proof.Machine.execVand f s
  | .vor f => Sys2Proof.Machine.execVor f s
  | .vxor f => Sys2Proof.Machine.execVxor f s
  | .vsll f => Sys2Proof.Machine.execVsll f s
  | .vsrl f => Sys2Proof.Machine.execVsrl f s
  | .vsra f => Sys2Proof.Machine.execVsra f s
  | .vmin f => Sys2Proof.Machine.execVmin f s
  | .vmax f => Sys2Proof.Machine.execVmax f s
  | .vminn f => Sys2Proof.Machine.execVminn f s
  | .vmaxn f => Sys2Proof.Machine.execVmaxn f s
  | .vsel f => Sys2Proof.Machine.execVsel f s
  | .vfadd f => Sys2Proof.Machine.execVfadd f s
  | .vfsub f => Sys2Proof.Machine.execVfsub f s
  | .vfmul f => Sys2Proof.Machine.execVfmul f s
  | .vfdiv f => Sys2Proof.Machine.execVfdiv f s
  | .vfmin f => Sys2Proof.Machine.execVfmin f s
  | .vfmax f => Sys2Proof.Machine.execVfmax f s
  | .vfsqrt f => Sys2Proof.Machine.execVfsqrt f s
  | .vfabs f => Sys2Proof.Machine.execVfabs f s
  | .vfneg f => Sys2Proof.Machine.execVfneg f s
  | .vfclass f => Sys2Proof.Machine.execVfclass f s
  | .vfsgnj f => Sys2Proof.Machine.execVfsgnj f s
  | .vfma f => Sys2Proof.Machine.execVfma f s
  | .vfms f => Sys2Proof.Machine.execVfms f s
  | .vfnma f => Sys2Proof.Machine.execVfnma f s
  | .vfnms f => Sys2Proof.Machine.execVfnms f s
  | .vfaerr f => Sys2Proof.Machine.execVfaerr f s
  | .vfmerr f => Sys2Proof.Machine.execVfmerr f s
  | .vfrecipEst f => Sys2Proof.Machine.execVfrecipEst f s
  | .vfrsqrtEst f => Sys2Proof.Machine.execVfrsqrtEst f s
  | .vceq f => Sys2Proof.Machine.execVceq f s
  | .vclt f => Sys2Proof.Machine.execVclt f s
  | .vcle f => Sys2Proof.Machine.execVcle f s
  | .vcltn f => Sys2Proof.Machine.execVcltn f s
  | .vclen f => Sys2Proof.Machine.execVclen f s
  | .vfceq f => Sys2Proof.Machine.execVfceq f s
  | .vfclt f => Sys2Proof.Machine.execVfclt f s
  | .vfcle f => Sys2Proof.Machine.execVfcle f s
  | .vcvt f => Sys2Proof.Machine.execVcvt f s
  | .vperm f => Sys2Proof.Machine.execVperm f s
  | .vslideup f => Sys2Proof.Machine.execVslideup f s
  | .vslidedown f => Sys2Proof.Machine.execVslidedown f s
  | .vcompress f => Sys2Proof.Machine.execVcompress f s
  | .vexpand f => Sys2Proof.Machine.execVexpand f s
  | .vmv f => Sys2Proof.Machine.execVmv f s
  | .vzip f => Sys2Proof.Machine.execVzip f s
  | .vunzip f => Sys2Proof.Machine.execVunzip f s
  | .vfoldAdd f => Sys2Proof.Machine.execVfoldAdd f s
  | .vfoldMin f => Sys2Proof.Machine.execVfoldMin f s
  | .vfoldMax f => Sys2Proof.Machine.execVfoldMax f s
  | .vfoldMinn f => Sys2Proof.Machine.execVfoldMinn f s
  | .vfoldMaxn f => Sys2Proof.Machine.execVfoldMaxn f s
  | .vfoldFadd f => Sys2Proof.Machine.execVfoldFadd f s
  | .vfoldFmin f => Sys2Proof.Machine.execVfoldFmin f s
  | .vfoldFmax f => Sys2Proof.Machine.execVfoldFmax f s
  | .pand f => Sys2Proof.Machine.execPand f s
  | .por f => Sys2Proof.Machine.execPor f s
  | .pxor f => Sys2Proof.Machine.execPxor f s
  | .pandn f => Sys2Proof.Machine.execPandn f s
  | .plt f => Sys2Proof.Machine.execPlt f s
  | .pgetsm f => Sys2Proof.Machine.execPgetsm f s
  | .pcount f => Sys2Proof.Machine.execPcount f s
  | .pfirst f => Sys2Proof.Machine.execPfirst f s
  | .vaddVx f => Sys2Proof.Machine.execVaddVx f s
  | .vsubVx f => Sys2Proof.Machine.execVsubVx f s
  | .vrsubVx f => Sys2Proof.Machine.execVrsubVx f s
  | .vmulVx f => Sys2Proof.Machine.execVmulVx f s
  | .vandVx f => Sys2Proof.Machine.execVandVx f s
  | .vorVx f => Sys2Proof.Machine.execVorVx f s
  | .vxorVx f => Sys2Proof.Machine.execVxorVx f s
  | .vsllVx f => Sys2Proof.Machine.execVsllVx f s
  | .vsrlVx f => Sys2Proof.Machine.execVsrlVx f s
  | .vsraVx f => Sys2Proof.Machine.execVsraVx f s
  | .vminVx f => Sys2Proof.Machine.execVminVx f s
  | .vmaxVx f => Sys2Proof.Machine.execVmaxVx f s
  | .vfaddVx f => Sys2Proof.Machine.execVfaddVx f s
  | .vfmulVx f => Sys2Proof.Machine.execVfmulVx f s
  | .vfmaVx f => Sys2Proof.Machine.execVfmaVx f s
  | .vbcast f => Sys2Proof.Machine.execVbcast f s
  | .vld f => Sys2Proof.Machine.execVld f s
  | .vlds f => Sys2Proof.Machine.execVlds f s
  | .vldFf f => Sys2Proof.Machine.execVldFf f s
  | .vldc f => Sys2Proof.Machine.execVldc f s
  | .vfill f => Sys2Proof.Machine.execVfill f s
  | .vldXn f => Sys2Proof.Machine.execVldXn f s
  | .vldXtn f => Sys2Proof.Machine.execVldXtn f s
  | .vldx f => Sys2Proof.Machine.execVldx f s
  | .vst f => Sys2Proof.Machine.execVst f s
  | .vsts f => Sys2Proof.Machine.execVsts f s
  | .vcopy f => Sys2Proof.Machine.execVcopy f s
  | .vstc f => Sys2Proof.Machine.execVstc f s
  | .vspill f => Sys2Proof.Machine.execVspill f s
  | .vstXn f => Sys2Proof.Machine.execVstXn f s
  | .vstXtn f => Sys2Proof.Machine.execVstXtn f s
  | .vstx f => Sys2Proof.Machine.execVstx f s
  | .vamoSwap f => Sys2Proof.Machine.execVamoSwap f s
  | .vamoAdd f => Sys2Proof.Machine.execVamoAdd f s
  | .vamoAnd f => Sys2Proof.Machine.execVamoAnd f s
  | .vamoOr f => Sys2Proof.Machine.execVamoOr f s
  | .vamoXor f => Sys2Proof.Machine.execVamoXor f s
  | .vamoMin f => Sys2Proof.Machine.execVamoMin f s
  | .vamoMax f => Sys2Proof.Machine.execVamoMax f s
  | .vamoMinn f => Sys2Proof.Machine.execVamoMinn f s
  | .vamoMaxn f => Sys2Proof.Machine.execVamoMaxn f s
  | .vamoCas f => Sys2Proof.Machine.execVamoCas f s
  | .vamoAddCb f => Sys2Proof.Machine.execVamoAddCb f s
  | .vamoAndCb f => Sys2Proof.Machine.execVamoAndCb f s
  | .vamoOrCb f => Sys2Proof.Machine.execVamoOrCb f s
  | .vamoXorCb f => Sys2Proof.Machine.execVamoXorCb f s
  | .vamoMinCb f => Sys2Proof.Machine.execVamoMinCb f s
  | .vamoMaxCb f => Sys2Proof.Machine.execVamoMaxCb f s
  | .vamoMinnCb f => Sys2Proof.Machine.execVamoMinnCb f s
  | .vamoMaxnCb f => Sys2Proof.Machine.execVamoMaxnCb f s
  | .vamoFadd f => Sys2Proof.Machine.execVamoFadd f s
  | .vamoFmin f => Sys2Proof.Machine.execVamoFmin f s
  | .vamoFmax f => Sys2Proof.Machine.execVamoFmax f s
  | .vwaitEq f => Sys2Proof.Machine.execVwaitEq f s
  | .vwaitNe f => Sys2Proof.Machine.execVwaitNe f s
  | .vwaitGe f => Sys2Proof.Machine.execVwaitGe f s
  | .vwaitLt f => Sys2Proof.Machine.execVwaitLt f s
  | .vwaitGen f => Sys2Proof.Machine.execVwaitGen f s
  | .vwaitLtn f => Sys2Proof.Machine.execVwaitLtn f s
  | .vamoFaddCb f => Sys2Proof.Machine.execVamoFaddCb f s
  | .vamoFminCb f => Sys2Proof.Machine.execVamoFminCb f s
  | .vamoFmaxCb f => Sys2Proof.Machine.execVamoFmaxCb f s
  | .vfence sc => Sys2Proof.Machine.execVfence sc s
  | .awinDecl f => Sys2Proof.Machine.execAwinDecl f s
  | .awinUpd f => Sys2Proof.Machine.execAwinUpd f s
  | .awinMerge f => Sys2Proof.Machine.execAwinMerge f s
  | .pnTake l c => Sys2Proof.Machine.execPnTake l c s
  | .pnPost c => Sys2Proof.Machine.execPnPost c s
  | .pnPostVl c => Sys2Proof.Machine.execPnPostVl c s
  | .supdCms f => Sys2Proof.Machine.execSupdCms f s
  | .supdBks f => Sys2Proof.Machine.execSupdBks f s
  | .supdQh f => Sys2Proof.Machine.execSupdQh f s
  | .supdMom f => Sys2Proof.Machine.execSupdMom f s
  | .supdWes f => Sys2Proof.Machine.execSupdWes f s
  | .smerge f => Sys2Proof.Machine.execSmerge f s
  | .sclr f => Sys2Proof.Machine.execSclr f s
  | .sdecl f => Sys2Proof.Machine.execSdecl f s
  | .sqCms f => Sys2Proof.Machine.execSqCms f s
  | .sqBksEst f => Sys2Proof.Machine.execSqBksEst f s
  | .sqBksItems f => Sys2Proof.Machine.execSqBksItems f s
  | .sqQnt f => Sys2Proof.Machine.execSqQnt f s
  | .sqMomQuery f => Sys2Proof.Machine.execSqMomQuery f s
  | .sqWes f => Sys2Proof.Machine.execSqWes f s
  | .sst f => Sys2Proof.Machine.execSst f s
  | .sld f => Sys2Proof.Machine.execSld f s
  | .smergeM f => Sys2Proof.Machine.execSmergeM f s
  | .scmt f => Sys2Proof.Machine.execScmt f s
  | .scmtImageWrite => Sys2Proof.Machine.execScmtImageWrite s
  | .scmtSealWrite => Sys2Proof.Machine.execScmtSealWrite s
  | .astOpen f => Sys2Proof.Machine.execAstOpen f s
  | .astClose f => Sys2Proof.Machine.execAstClose f s
  | .astRun f => Sys2Proof.Machine.execAstRun f s
  | .arBind f => Sys2Proof.Machine.execArBind f s
  | .arUnbind f => Sys2Proof.Machine.execArUnbind f s
  | .acol f => Sys2Proof.Machine.execAcol f s
  | .asend f => Sys2Proof.Machine.execAsend f s
  | .arecv f => Sys2Proof.Machine.execArecv f s
  | .aflip f => Sys2Proof.Machine.execAflip f s
  | .dpb f => Sys2Proof.Machine.execDpb f s
  | .shalloc f => Sys2Proof.Machine.execShalloc f s
  | .shallocM f => Sys2Proof.Machine.execShallocM f s
  | .shfree f => Sys2Proof.Machine.execShfree f s
  | .shstat f => Sys2Proof.Machine.execShstat f s
  | .mopa f => Sys2Proof.Machine.execMopa f s
  | .mops f => Sys2Proof.Machine.execMops f s
  | .mopi f => Sys2Proof.Machine.execMopi f s
  | .mopn f => Sys2Proof.Machine.execMopn f s
  | .mopl f => Sys2Proof.Machine.execMopl f s
  | .mgrow f => Sys2Proof.Machine.execMgrow f s
  | .mrowGet f => Sys2Proof.Machine.execMrowGet f s
  | .mrowPut f => Sys2Proof.Machine.execMrowPut f s
  | .mcolGet f => Sys2Proof.Machine.execMcolGet f s
  | .mcolPut f => Sys2Proof.Machine.execMcolPut f s
  | .mld f => Sys2Proof.Machine.execMld f s
  | .mst f => Sys2Proof.Machine.execMst f s
  | .mzero f => Sys2Proof.Machine.execMzero f s
  | .convoyPost => Sys2Proof.Machine.execConvoyPost s
  | .microOperationIssue => Sys2Proof.Machine.execMicroOperationIssue s
  | .microOperationComplete n => Sys2Proof.Machine.execMicroOperationComplete n s
  | .laneReExecution n again => Sys2Proof.Machine.execLaneReExecution n again s
  | .convoyRetire => Sys2Proof.Machine.execConvoyRetire s
  | .pennantTake c => Sys2Proof.Machine.execPennantTake c s
  | .storeQueueDrain n => Sys2Proof.Machine.execStoreQueueDrain n s
  | .combiningEntryRetire n => Sys2Proof.Machine.execCombiningEntryRetire n s
  | .gangBarrierComplete => Sys2Proof.Machine.execGangBarrierComplete s
  | .wmWaitSatisfied => Sys2Proof.Machine.execWmWaitSatisfied s
  | .trapDelivery cause tval epc member => Sys2Proof.Machine.execTrapDelivery cause tval epc member s
  | .preempt => Sys2Proof.Machine.execPreempt s
  | .partitionSave => Sys2Proof.Machine.execPartitionSave s
  | .restore core stall rpc => Sys2Proof.Machine.execRestore core stall rpc s
  | .gangEnd cause => Sys2Proof.Machine.execGangEnd cause s
  | .stallModeRequest mode => Sys2Proof.Machine.execStallModeRequest mode s
  | .arrival => Sys2Proof.Machine.execArrival s
  | .pendingModeWithdraw => Sys2Proof.Machine.execPendingModeWithdraw s
  | .stallModeSwitch gang => Sys2Proof.Machine.execStallModeSwitch gang s
  | .pageWalk pasid va write => Sys2Proof.Machine.execPageWalk pasid va write s
  | .shootdown pasid lo hi => Sys2Proof.Machine.execShootdown pasid lo hi s
  | .pageMigration pasid va pte => Sys2Proof.Machine.execPageMigration pasid va pte s
  | .backingExchange pasid base len => Sys2Proof.Machine.execBackingExchange pasid base len s
  | .writeBack pasid va block => Sys2Proof.Machine.execWriteBack pasid va block s
  | .linkRd m addr len => Sys2Proof.Machine.execLinkRd m addr len s
  | .linkWr m addr len data pois => Sys2Proof.Machine.execLinkWr m addr len data pois s
  | .linkWrm m addr len mask data pois => Sys2Proof.Machine.execLinkWrm m addr len mask data pois s
  | .linkRdr m sc tag ecc => Sys2Proof.Machine.execLinkRdr m sc tag ecc s
  | .linkWra m sc tag ecc => Sys2Proof.Machine.execLinkWra m sc tag ecc s
  | .moduleLinkFailure m => Sys2Proof.Machine.execModuleLinkFailure m s
  | .pasidTeardown id pasid => Sys2Proof.Machine.execPasidTeardown id pasid s
  | .pasidDrain pasid => Sys2Proof.Machine.execPasidDrain pasid s
  | .powerLoss => Sys2Proof.Machine.execPowerLoss s
  | .deviceReset => Sys2Proof.Machine.execDeviceReset s
  | .powerOn lost bad => Sys2Proof.Machine.execPowerOn lost bad s
  | .scrubPass hit => Sys2Proof.Machine.execScrubPass hit s
  | .coreQuarantine core => Sys2Proof.Machine.execCoreQuarantine core s
  | .quotaChange plane tenant quota => Sys2Proof.Machine.execQuotaChange plane tenant quota s
  | .switchFailure plane => Sys2Proof.Machine.execSwitchFailure plane s
  | .switchReturn plane => Sys2Proof.Machine.execSwitchReturn plane s
  | .chunkDelivery h => Sys2Proof.Machine.execChunkDelivery h s
  | .outChunkWrite h => Sys2Proof.Machine.execOutChunkWrite h s
  | .colSend n => Sys2Proof.Machine.execColSend n s
  | .colRecv n => Sys2Proof.Machine.execColRecv n s
  | .colRed n => Sys2Proof.Machine.execColRed n s
  | .colCopy n => Sys2Proof.Machine.execColCopy n s
  | .colCopyIn n => Sys2Proof.Machine.execColCopyIn n s
  | .colCopyOut n => Sys2Proof.Machine.execColCopyOut n s
  | .recvTimeout n => Sys2Proof.Machine.execRecvTimeout n s
  | .lateImageMerge n => Sys2Proof.Machine.execLateImageMerge n s
  | .participantFailed m hart => Sys2Proof.Machine.execParticipantFailed m hart s
  | .transferMatch n => Sys2Proof.Machine.execTransferMatch n s
  | .qtailWrite fn q v => Sys2Proof.Machine.execQtailWrite fn q v s
  | .qreprioWrite fn q v => Sys2Proof.Machine.execQreprioWrite fn q v s
  | .managementRegisterWrite fn off v => Sys2Proof.Machine.execManagementRegisterWrite fn off v s
  | .recordFetch q => Sys2Proof.Machine.execRecordFetch q s
  | .launchReady lid => Sys2Proof.Machine.execLaunchReady lid s
  | .pairDecision lid => Sys2Proof.Machine.execPairDecision lid s
  | .schedulerSelection => Sys2Proof.Machine.execSchedulerSelection s
  | .gangStart lid => Sys2Proof.Machine.execGangStart lid s
  | .stripSteal lid => Sys2Proof.Machine.execStripSteal lid s
  | .linkedStoreRelease => Sys2Proof.Machine.execLinkedStoreRelease s
  | .completionRecord q => Sys2Proof.Machine.execCompletionRecord q s
  | .ownclaim id nonce => Sys2Proof.Machine.execOwnclaim id nonce s
  | .ownstatNextWrite id v => Sys2Proof.Machine.execOwnstatNextWrite id v s
  | .handoverTimeout => Sys2Proof.Machine.execHandoverTimeout s
  | .ownbeat id => Sys2Proof.Machine.execOwnbeat id s
  | .heartbeatTimeout => Sys2Proof.Machine.execHeartbeatTimeout s
  | .pwrlim id v => Sys2Proof.Machine.execPwrlim id v s
  | .elogtail v => Sys2Proof.Machine.execElogtail v s
  | .eloglost v => Sys2Proof.Machine.execEloglost v s
  | .getMeasurements fn => Sys2Proof.Machine.execGetMeasurements fn s
  | .keyExchange fn => Sys2Proof.Machine.execKeyExchange fn s
  | .keySlotWrite id slot key => Sys2Proof.Machine.execKeySlotWrite id slot key s
  | .keySlotErase id slot => Sys2Proof.Machine.execKeySlotErase id slot s
  | .tdispError fn => Sys2Proof.Machine.execTdispError fn s
  | .bar2Read off => Sys2Proof.Machine.execBar2Read off s
  | .bar2Write off v => Sys2Proof.Machine.execBar2Write off v s
  | .powerLimitExceeded => Sys2Proof.Machine.execPowerLimitExceeded s
  | .clockRaise cluster => Sys2Proof.Machine.execClockRaise cluster s
  | .dieTemperature105 die => Sys2Proof.Machine.execDieTemperature105 die s
  | .dieTemperature115 => Sys2Proof.Machine.execDieTemperature115 s
  | .supplySag die => Sys2Proof.Machine.execSupplySag die s
  | .pasidAssign pasid root key => Sys2Proof.Machine.execPasidAssign pasid root key s
  | .pageTableChange pa pte => Sys2Proof.Machine.execPageTableChange pa pte s
  | .tdispInterfaceStateChange fn st => Sys2Proof.Machine.execTdispInterfaceStateChange fn st s
  | .lateDataDiscard n => Sys2Proof.Machine.execLateDataDiscard n s
  | .accessEntryIssue => Sys2Proof.Machine.execAccessEntryIssue s

end Sys2Proof.Machine
end

