-- ==== Sys2Proof/Machine/Step.lean ====
section
/-! DEFINITION. One step of the machine, and the state in which a given instruction is the next to be fetched. -/

namespace Sys2Proof.Machine

/-- One step: the turn that comes next is chosen, and its instruction or event, if it has one, is performed (log entry 1). -/
noncomputable def step (s : State) : Host.Outcome State Fault Refusal :=
  match chosen s with
  | (t, some i) => exec i t
  | (t, none) => .next t

/-- Memory as a job finds it: the context-table entry of PASID 1 at `ctx` (R276), page tables that map the lowest 512 GiB of DRAM to itself,
and eight bytes of code. -/
def jobMemory (m : List Host.Cell) (ctx code : Nat) : List Host.Cell :=
  Memory.writeN (Memory.writeN (Memory.writeN (Memory.writeN m ctx 16 (Context.bytes { root := 0x10000, state := 1, key := 0 }))
    0x10000 8 0x4401) 0x11000 8 0xDF) 0x8000 8 code

/-- The state with an instruction placed where the focused hart fetches next (log entry 34): bring-up is complete, the focused hart runs a
job of PASID 1, whose table maps the lowest addresses to DRAM, with its program counter at the instruction and nothing queued. It stands for
the launch that would bring the job there. -/
def State.withFetchWord (s : State) (nbits w : Nat) : State :=
  { s with
    agenda := [],
    dev := { s.dev with ready := true },
    tlb := s.tlb.filter fun e => e.pasid != 1,
    mem := jobMemory s.mem (s.ctxBase + 16) (w % 2 ^ nbits),
    hart := { s.hart with
      run := .running, pasid := 1, frame := 0x1000000, pc := 0x8000, park := none, lostAt := none, vq := [], aq := [], vwait := none, await := none,
      pins := [], stop := none, splice := none, kept := s.hart.instret.toNat / 256 },
    leaf := s.leaf.filter fun n => n != .preemptPending s.hart.gangid s.hart.hartid }

end Sys2Proof.Machine
end

