-- ==== Sys2Proof/Safety.lean ====
section
/-! DEFINITION. What claims are stated in: the state after an instruction has completed, written out field by field, the conditions under which
instructions run, and the invariants. -/

namespace Sys2Proof.Machine

/-! ### Scalar instructions -/

/-- The scalar registers with `v` in register d; `x0` discards it (R5, R60). -/
def setX (x : Vector Word 32) (d : BitVec 5) (v : Word) : Vector Word 32 := if d = 0 then x else x.set d.toNat v

/-- What every scalar instruction of `n` bytes does when it completes beside its own effect: the program counter moves past it, it is counted, and
the sequencer does not wait. An instruction of spliced code takes eight bytes; R339 gives it no address: that is the model's choice, log entry 6. -/
def past (s : State) (n : Nat) : State :=
  { s with hart := { s.hart with
      pc := s.hart.pc + W (if s.hart.splice.isSome then 8 else n), park := none, instret := s.hart.instret + 1 } }

/-- A scalar instruction of `n` bytes has completed: register d holds `v`, and nothing else changes. The eight bytes of an instruction of spliced
code are log entry 6. -/
def completed (s : State) (d : BitVec 5) (v : Word) (n : Nat) : State :=
  { past s n with hart := { (past s n).hart with x := setX s.hart.x d v } }

/-- Control has been transferred to `target`, with `v` in the link register d. -/
def transferred (s : State) (d : BitVec 5) (v target : Word) : State :=
  { s with hart := { s.hart with x := setX s.hart.x d v, pc := target, park := none, instret := s.hart.instret + 1 } }

/-- The convoy-start check passes for a target, and `t` is the machine after it (R48): the word below the target does not mark a convoy, or
it cannot be fetched, which changes nothing. -/
def Lands (s : State) (target : Word) (t : State) : Prop :=
  (∃ v, fetchHalves s (target - 4) 2 = (t, .bits v) ∧ insideConvoy v = false) ∨
    (∃ u tr, fetchHalves s (target - 4) 2 = (u, .trap tr) ∧ t = s)

/-- The convoy-start check trips for a target (R48). -/
def Trips (s : State) (target : Word) : Prop := ∃ t v, fetchHalves s (target - 4) 2 = (t, .bits v) ∧ insideConvoy v = true

/-- Where a transfer to `target` goes: in spliced code, to the spliced place of the original target (R339). -/
def placeOfTarget (s : State) (target : Word) : Word :=
  match spliceAt s.hart with
  | some i => spliceAddr i.target
  | none => target

/-- The sequencer waits, and nothing else changes. -/
def parked (s : State) (why : Park) : State := { s with hart := { s.hart with park := some why } }

/-- No register of the list is held by a posted convoy or entry (R22, R247). -/
def NoHold (s : State) (l : List (BitVec 5)) : Prop := anyHeld s l = false

/-! ### Control registers -/

/-- The control registers of class Q, by index (R54). -/
def classQ : List Nat := [0x000, 0x001, 0x002, 0x004, 0x005, 0x00E, 0x011, 0x020, 0x021, 0x022, 0x070]

/-- The readable control registers whose value stands still while the hart runs, as R54 lists them: index and value. -/
def crTable (s : State) : List (Nat × Word) :=
  let h := s.hart
  let next := h.pend.getD (h.vl, h.vtype)
  [(0x000, W next.1), (0x001, W next.2.toNat), (0x002, W h.vstart), (0x003, W (vrlen s)), (0x004, W (vrlen s * 8 / ewOf next.2)),
    (0x005, W h.ffidx), (0x006, h.memfmt), (0x008, h.fmt[0]), (0x009, h.fmt[1]), (0x00A, h.fmt[2]), (0x00B, h.fmt[3]),
    (0x00C, h.rmode), (0x00D, h.repro), (0x00E, W h.mflags.toNat), (0x010, 128), (0x011, W h.tgrant),
    (0x012, W (roleTiles h h.tilen.toNat)), (0x013, h.dglim), (0x020, W h.vdirty.toNat), (0x021, W h.sdirty.toNat),
    (0x022, W (roleTiles h h.mdirty.toNat)), (0x053, match (coreOf s h.core).pend with
      | some m => W (64 + 16 * m + (coreOf s h.core).cur)
      | none => W (coreOf s h.core).cur), (0x070, psmMirror h.psm), (0x030, W h.cause.toNat), (0x031, h.epc), (0x032, h.tval),
    (0x033, W h.member.toNat), (0x034, W (framesz s)), (0x041, h.instret), (0x044, h.stretch), (0x050, W h.hartid), (0x051, h.gangid), (0x052, W h.gangsize),
    (0x054, W (256 * h.stall + h.core)), (0x055, W h.pasid), (0x060, h.origin)]

/-- The control registers that a write stores bit by bit (R54, R56): index, RW bits, value before, and the machine with a new value. -/
def crPlain (s : State) : List (Nat × Nat × Word × (Nat → State)) :=
  let h := s.hart
  let put (g : Hart) : State := { s with hart := g }
  [(0x002, 0x7FFF, W h.vstart, fun v => put { h with vstart := v }), (0x006, 0x3C1F, h.memfmt, fun v => put { h with memfmt := W v }),
    (0x008, 0x0FFF1FFF, h.fmt[0], fun v => put { h with fmt := h.fmt.set 0 (W v) }),
    (0x009, 0x0FFF1FFF, h.fmt[1], fun v => put { h with fmt := h.fmt.set 1 (W v) }),
    (0x00A, 0x0FFF1FFF, h.fmt[2], fun v => put { h with fmt := h.fmt.set 2 (W v) }),
    (0x00B, 0x0FFF1FFF, h.fmt[3], fun v => put { h with fmt := h.fmt.set 3 (W v) }),
    (0x00C, 3, h.rmode, fun v => put { h with rmode := W v }), (0x011, 0xFF, W h.tgrant, fun v => put { h with tgrant := min v 128 }),
    (0x013, 0x1F, h.dglim, fun v => put { h with dglim := W (max 1 (min v 16)) })]

/-! ### Vector-class instructions as convoys of their own -/

/-- The vector length and type with which the next convoy runs (R52, R74). -/
def nextLen (s : State) : Nat := (s.hart.pend.getD (s.hart.vl, s.hart.vtype)).1

/-- The `vtype` of the next convoy. -/
def nextType (s : State) : BitVec 14 := (s.hart.pend.getD (s.hart.vl, s.hart.vtype)).2

/-- The element width of the next convoy, in bits. -/
def nextWidth (s : State) : Nat := ewOf (nextType s)

/-- The hart can post the instruction as a convoy of its own and perform it at once (R19, R20, R49): the vector queue is empty, nothing keeps the
sequencer from posting, no register is bound to a stream or window or has just lost its binding, no row of a tile awaits its compare (R204), and the instruction passes its
decode check; a whole member is not resumed at an element (R91). -/
def Ready (i : Instr) (m : Member) (s : State) : Prop :=
  s.hart.vq = [] ∧ postWait s [i] = none ∧ s.hart.binds = [] ∧ s.hart.unbound = [] ∧ s.hart.unverified = [] ∧ m.check (dctx s) = none ∧
    (m.whole = true → s.hart.vstart = 0)

/-- The machine with the instruction posted as a convoy of its own. -/
def posted (s : State) (i : Instr) : State := postConvoy s [i] (i.bits / 8)

/-- The machine when that convoy begins: the stores of earlier convoys are visible when its retirement can be observed by a scalar instruction (R170). -/
def settled (s : State) (i : Instr) : State := settleEarlier (posted s i) (mkConvoy s [i])

/-- The state in which the member of that convoy runs. -/
def begun (s : State) (i : Instr) : State := beginConvoy (settled s i) (mkConvoy s [i])

/-- What the retirement of that convoy leaves in the hart beside the member's own results: the program counter is past the instruction, which is
counted; `vl` and `vtype` are those it ran with, `vstart` is 0, no `vsl` is pending, and no queue waits (R52, R53, R55). That an instruction of spliced code takes
eight bytes is the model's choice, log entry 6; that a convoy of its own is performed in the turn that posts it, log entry 78. -/
def convoyEnd (s : State) (i : Instr) : Hart :=
  { s.hart with
    pc := s.hart.pc + W (if s.hart.splice.isSome then 8 else i.bits / 8), park := none, pend := none, vl := nextLen s, vtype := nextType s,
    vstart := 0, vwait := none, await := none, renamed := s.hart.renamed.drop 1, issued := nextUops s.hart.issued,
    complete := nextUops s.hart.complete, instret := s.hart.instret + 1,
    epoch := s.hart.epoch + (epochTotal [i]).1, aq := s.hart.aq.map fun e => { e with vqAhead := e.vqAhead - 1 },
    vq := [], unbound := [], pins := s.hart.pins.filter fun p => p.queue != .vector }

/-- The state that the member of the convoy leaves, ready to retire. -/
def ranOne (s : State) (i : Instr) (m : Member) : State := nextMember (m.run (begun s i)) m

/-- An element lies in the body of the next convoy (R106). -/
def inBody (s : State) (e : Nat) : Prop := s.hart.vstart ≤ e ∧ e < nextLen s

/-- An element lies in the tail, and the tail is zeroed (R104, R106). -/
def zeroedTail (s : State) (e : Nat) : Prop := nextLen s ≤ e ∧ s.hart.vstart < nextLen s ∧ bitN (nextType s).toNat 3 = true

/-- An element of a vector register lies in a tail that has bytes and is zeroed (R56, R106). -/
def zeroedBytes (s : State) (e : Nat) : Prop := zeroedTail s e ∧ nextLen s * nextWidth s < 8 * vrlen s

/-- MZ of the next convoy (R104). -/
def nextMz (s : State) : Bool := bitN (nextType s).toNat 4

/-- The instruction has been performed and its only result is vector register d; `D` says what its elements are. -/
def VectorResult (i : Instr) (s : State) (d : Nat) (D : State → Prop) : Prop :=
  ∃ t, exec i s = .next t ∧
    t = { s with hart := { convoyEnd s i with v := t.hart.v, vp := t.hart.vp, vdirty := t.hart.vdirty } } ∧
    (∀ r : Fin 32, r.val ≠ d → t.hart.v[r] = s.hart.v[r] ∧ t.hart.vp[r] = s.hart.vp[r] ∧ t.hart.vdirty.getLsbD r = s.hart.vdirty.getLsbD r) ∧
    (t.hart.vdirty.getLsbD d = false → t.hart.v = s.hart.v ∧ t.hart.vp = s.hart.vp) ∧ D t

/-- R106, R123: what an element-wise result leaves in every element of register d at width w under predicate p, and which elements are poison: the value
and poison at an active body element; at an inactive one the old element, or zero under MZ, and poison where the predicate bit is poison; zero in the
tail under TZ; the old element elsewhere. -/
def ElementsWritten (s : State) (d p : Nat) (val : Nat → Nat) (pois : Nat → Bool) (t : State) : Prop :=
  let w := nextWidth s
  ∀ e, e < 32768 / w →
    (inBody s e → active s p e = true → el t d e w = val e % 2 ^ w ∧ elP t d e w = (pois e || activeP s p e)) ∧
    (inBody s e → active s p e = false →
      el t d e w = (if nextMz s then 0 else el s d e w) ∧ (activeP s p e = true → elP t d e w = true) ∧
      (activeP s p e = false → elP t d e w = (!nextMz s && elP s d e w))) ∧
    (zeroedBytes s e → el t d e w = 0 ∧ elP t d e w = false) ∧
    (¬inBody s e → ¬zeroedBytes s e → el t d e w = el s d e w ∧ elP t d e w = elP s d e w)

/-- An element-wise vector result. -/
def Elementwise (i : Instr) (s : State) (d p : Nat) (val : Nat → Nat) (pois : Nat → Bool) : Prop :=
  VectorResult i s d (ElementsWritten s d p val pois)

/-- The instruction has been performed and its only result is predicate register d; `D` says what its bits are. -/
def PredicateResult (i : Instr) (s : State) (d : Nat) (D : State → Prop) : Prop :=
  ∃ t, exec i s = .next t ∧ t = { s with hart := { convoyEnd s i with p := t.hart.p, pp := t.hart.pp } } ∧
    (∀ r : Fin 16, r.val ≠ d → t.hart.p[r] = s.hart.p[r] ∧ t.hart.pp[r] = s.hart.pp[r]) ∧ D t

/-- R106, R123: what a result leaves in every bit of predicate d under predicate p. -/
def BitsWritten (s : State) (d p : Nat) (val pois : Nat → Bool) (t : State) : Prop :=
  let bit (u : State) (e : Nat) : Bool := bitN (u.hart.p[d % 16].toNat) e
  let poi (u : State) (e : Nat) : Bool := bitN (u.hart.pp[d % 16].toNat) e
  ∀ e, e < 16384 →
    (inBody s e → active s p e = true → bit t e = val e ∧ poi t e = (pois e || activeP s p e)) ∧
    (inBody s e → active s p e = false →
      bit t e = (!nextMz s && bit s e) ∧ (activeP s p e = true → poi t e = true) ∧
      (activeP s p e = false → poi t e = (!nextMz s && poi s e))) ∧
    (zeroedTail s e → bit t e = false ∧ poi t e = false) ∧
    (¬inBody s e → ¬zeroedTail s e → bit t e = bit s e ∧ poi t e = poi s e)

/-- A result in a predicate. -/
def Bitwise (i : Instr) (s : State) (d p : Nat) (val pois : Nat → Bool) : Prop := PredicateResult i s d (BitsWritten s d p val pois)

/-- What the retirement of that convoy leaves in the hart when the stores of earlier convoys have become visible before it. -/
def settledEnd (s : State) (i : Instr) : Hart := { convoyEnd s i with storeQ := (settled s i).hart.storeQ }

/-- The instruction has been performed and its only result is scalar register d; the stores of earlier convoys are visible (R170). -/
def ScalarResult (i : Instr) (s : State) (d : BitVec 5) (v : Word) : Prop :=
  exec i s = .next { settled s i with hart := { settledEnd s i with x := setX s.hart.x d v } }

/-- The instruction can be posted as a convoy of its own and performed at once, as a member of the table. -/
def Runs (i : Instr) (s : State) : Prop := ∃ m, memberOf i = some m ∧ Ready i m s

/-- The number of active elements below e (R137, R138). -/
def rank (s : State) (p e : Nat) : Nat := (List.range e).countP fun j => active s p j

/-- A reduction of n elements of register r reads poison: an active element is poison, or a predicate bit is (R123). -/
def readsPoisonBelow (s : State) (p r n w : Nat) : Prop := ∃ e, e < n ∧ (activeP s p e = true ∨ active s p e = true ∧ elP s r e w = true)

/-- R139: node e of level j of the pairwise tree over the elements `t`: an absent partner passes its sibling up. -/
def treeNode (g : Nat → Nat → Nat) (t : Nat → Option Nat) : Nat → Nat → Option Nat
  | 0, e => t e
  | j + 1, e =>
    match treeNode g t j e, treeNode g t j (e + 2 ^ j) with
    | some a, some b => some (g a b)
    | some a, none => some a
    | none, b => b

/-! ### Vector memory -/

/-- Every active body element of a load is reached, in order, without a condition, and nothing of the machine changes by it: no combining update is
outstanding, and the leaf entries already carry their accessed bits. -/
def LoadsReach (i : Instr) (s : State) (p : Nat) (go : State → Foot → Acc → State × Found) (foot : Nat → Except Trap Foot) : Prop :=
  s.combining = [] ∧ ∀ e, inBody s e → active s p e = true → ∃ f l, foot e = .ok f ∧ go (begun s i) f .load = (begun s i, .ok l)

/-- The pattern and poison that an element of a load receives: the bytes as the hart reads them there, converted (R147). -/
def loaded (i : Instr) (s : State) (go : State → Foot → Acc → State × Found) (foot : Nat → Except Trap Foot) (e : Nat) : Nat × Bool :=
  match foot e with
  | .ok f =>
    match go (begun s i) f .load with
    | (_, .ok l) =>
      let x := footRead (begun s i) f l
      (loadConv (curSnap s.hart) (nextWidth s) f.wm x.1, x.2)
    | _ => (0, false)
  | .error _ => (0, false)

/-- What a scoped load has done when some of its active body elements miss their scope, and the others are reached (R174): a missed element sets its bit of
`psm` and keeps its old value; each other one receives what it loads. -/
def LoadedOrMissed (i : Instr) (s : State) (d p : Nat) (go : State → Foot → Acc → State × Found) (foot : Nat → Except Trap Foot) (miss : Nat → Bool) : Prop :=
  (s.combining = [] ∧ ∀ e, inBody s e → active s p e = true → ∃ f, foot e = .ok f ∧
    if miss e then go (begun s i) f .load = (begun s i, .missed) else ∃ l, go (begun s i) f .load = (begun s i, .ok l)) →
  ∃ t, exec i s = .next t ∧
    t = { s with hart := { convoyEnd s i with v := t.hart.v, vp := t.hart.vp, vdirty := t.hart.vdirty, psm := t.hart.psm } } ∧
    (∀ r : Fin 32, r.val ≠ d → t.hart.v[r] = s.hart.v[r] ∧ t.hart.vp[r] = s.hart.vp[r]) ∧
    (∀ e, e < 16384 → (t.hart.psm.getLsbD e = true ↔ s.hart.psm.getLsbD e = true ∨ inBody s e ∧ active s p e = true ∧ miss e = true)) ∧
    ∀ e, e < 32768 / nextWidth s → inBody s e → active s p e = true →
      (miss e = true → el t d e (nextWidth s) = el s d e (nextWidth s) ∧ elP t d e (nextWidth s) = elP s d e (nextWidth s)) ∧
      (miss e = false → el t d e (nextWidth s) = (loaded i s go foot e).1 % 2 ^ nextWidth s ∧
        elP t d e (nextWidth s) = ((loaded i s go foot e).2 || activeP s p e))

/-- The active body elements of the next convoy, in ascending order. -/
def activeBody (s : State) (p : Nat) : List Nat := (List.range (nextLen s)).filter fun e => decide (s.hart.vstart ≤ e) && active s p e

/-- Every active body element of a store has one place of whole bytes, `at'`, or misses its scope (`miss`), and nothing of the machine changes by reaching it. -/
def StoresReach (i : Instr) (s : State) (p : Nat) (go : State → Foot → Acc → State × Found) (foot : Nat → Except Trap Foot)
    (at' : Nat → Hit × Foot) (miss : Nat → Bool) : Prop :=
  s.combining = [] ∧ ∀ e ∈ activeBody s p, foot e = .ok (at' e).2 ∧ (at' e).2.bit = 0 ∧ 8 ∣ (at' e).2.wm ∧ 0 < (at' e).2.wm ∧
    go (begun s i) (at' e).2 .store = (begun s i, if miss e then .missed else .ok [((at' e).1, (at' e).2.wm / 8)])

/-- A store has been performed: one queued store for each active body element that does not miss its scope, in element order, holding the converted element
of register d; an element that misses sets its bit of `psm` and stores nothing (R174). Whether such a store completes a granule (`whole`, R184) is not said here.
A poisoned predicate bit poisons the stored element: log entry 14. -/
def Stored (i : Instr) (s : State) (d p : Nat) (at' : Nat → Hit × Foot) (miss : Nat → Bool) : Prop :=
  let w := nextWidth s
  ∃ l q, exec i s = .next { s with hart := { convoyEnd s i with storeQ := s.hart.storeQ ++ l, entered := s.hart.entered + l.length, psm := q } } ∧
    (∀ e, e < 16384 → (q.getLsbD e = true ↔ s.hart.psm.getLsbD e = true ∨ e ∈ activeBody s p ∧ miss e = true)) ∧
    l.map (fun st => { st with whole := false }) = ((activeBody s p).filter fun e => !miss e).zipIdx.map fun x =>
      let e := x.1
      let wm := (at' e).2.wm
      { mkStore s (at' e).1 (wm / 8) (storeConv (curSnap s.hart) w wm (el s d e w) % 2 ^ wm) (2 ^ wm - 1) (elP s d e w || activeP s p e) .vector
          s.hart.epoch with whole := false, elem := e, conv := s.hart.pc, seq := s.hart.entered + 1 + x.2 }

/-- A vector atomic on one active body element at a place that is reached (R175 to R177): register d receives the old value, and `g` of it, if any, is stored
as one visible step, once what a release waits for has been drained. `fresh` says that poison in the old value does not reach the new one. `pv` and the poison
that the element receives count the predicate bit's: log entries 14 and 95. -/
def AtomDone (i : Instr) (s : State) (f : OpVA) (h : Hit) (va : Word) (fp fresh pv : Bool) (g : Nat → Option Nat) : Prop :=
  let w := nextWidth s
  let n := w / 8
  let b := if f.rl then releaseWait (begun s i) (releaseScope (begun s i) f) else begun s i
  let b' := if fp then setSeen b else b
  b.hart.cur.wait = none → atomReach (begun s i) b' f .store 0 = (b', .ok [(h, n)], va) →
    let u := drainTarget b (targetIn b h.key)
    let old := hartRead u h.key n
    let po := readsPoison u h.key n
    let after (t z : State) : Prop := t.mem = z.mem ∧ t.poison = z.poison ∧ t.loftPend = z.loftPend
    ∃ t, exec i s = .next t ∧ el t f.vd.toNat 0 w = old ∧ elP t f.vd.toNat 0 w = (po || activeP s f.pred.toNat 0) ∧
      t.hart.repro = (if fp then s.hart.repro ||| 2 else s.hart.repro) ∧
      match g old with
      | some v => after t (applyStore u
          (atomStore h.key n v (pv || po && !fresh) (bitN h.pte 56) (bitN h.pte 57) (keySlot s h.pte) (s.hart.epoch + (epochTotal [i]).2) .vector))
      | none => after t u

/-- A vector atomic, returning or combining, whose one active body element misses its scope (R174): its bit of `psm` is set, its element and memory keep
what they have, but for the stores that a release has waited for. -/
def AtomMissed (i : Instr) (s : State) (f : OpVA) (fp rl : Bool) (va : Word) : Prop :=
  let w := nextWidth s
  let b := if rl then releaseWait (begun s i) (releaseScope (begun s i) f) else begun s i
  let b' := if fp then setSeen b else b
  b.hart.cur.wait = none → atomReach (begun s i) b' f .store 0 = (b', .missed, va) →
    ∃ t, exec i s = .next t ∧ t.hart.psm = s.hart.psm ||| 1 ∧ el t f.vd.toNat 0 w = el s f.vd.toNat 0 w ∧ elP t f.vd.toNat 0 w = elP s f.vd.toNat 0 w ∧
      t.mem = b.mem ∧ t.combining = b.combining ∧ t.hart.storeQ = b.hart.storeQ

/-- A combining form on one active body element (R178): at a location with an update unit a buffer entry is made, elsewhere the update is performed at once;
no register is written. -/
def CombineDone (i : Instr) (s : State) (f : OpVA) (h : Hit) (va : Word) (fp : Bool) (op : Nat) (pv : Bool) (v : Nat) : Prop :=
  let w := nextWidth s
  let n := w / 8
  let m := s.hart.rmode.toNat % 4
  let b := if fp then setSeen (begun s i) else begun s i
  atomReach (begun s i) b f .store 0 = (b, .ok [(h, n)], va) →
    let u := drainTarget (begun s i) (targetIn (begun s i) h.key)
    ∃ t, exec i s = .next t ∧ t.hart.v = s.hart.v ∧ t.hart.vp = s.hart.vp ∧
      (combines h.key = true → t.mem = u.mem ∧ t.combining = [
        { key := h.key, w := w, op := op, fp := fp, val := v, poison := pv, rm := m, epoch := s.hart.epoch, po := bitN h.pte 56,
          sealing := bitN h.pte 57, slot := keySlot s h.pte, gang := ownerGang s s.hart, hart := s.hart.hartid }]) ∧
      (combines h.key = false → t.combining = [] ∧
        t.mem = (applyStore u (atomStore h.key n (combineOp fp op m w (hartRead u h.key n) v) (pv || readsPoison u h.key n) (bitN h.pte 56)
          (bitN h.pte 57) (keySlot s h.pte) s.hart.epoch .vector)).mem)

/-- The instruction has been performed and has changed nothing but what every retirement changes. -/
def OnlyRetires (i : Instr) (s : State) : Prop := exec i s = .next { s with hart := convoyEnd s i }

/-- The hart waits at the head of its vector queue with the convoy it has just posted, and nothing that the convoy would write has changed. -/
def WaitsAtHead (i : Instr) (s : State) (why : Option Word) : Prop :=
  ∃ t, exec i s = .next t ∧ t.hart.vwait = some why ∧ (∃ c, t.hart.vq = [c] ∧ c.members = [i]) ∧ t.hart.v = s.hart.v ∧ t.hart.vp = s.hart.vp ∧
    t.hart.x = s.hart.x ∧ t.hart.pennants = s.hart.pennants ∧ t.hart.storeQ = s.hart.storeQ ∧ t.mem = s.mem

/-! ### Tiles and summaries -/

/-- An outer product has been performed (R190, R192, R194): each element of an active row and column is accumulated over the groups of K steps; the flags of active
lines that read a NaN, an infinity or a poisoned scale are set; the overflow flag is set when an accumulation saturates; everything else is as it was. -/
def OuterDone (i : Instr) (s : State) (f : OpTile) (int neg : Bool) (rowOn : Nat → Bool) (a b : Nat → Lane) : Prop :=
  let u := begun s i
  let n := tileGroup f (curSnap s.hart)
  let groups := ceilDiv (kSteps u) n
  let colOn (j : Nat) : Bool := active s f.cp.toNat j
  let T := s.hart.tile[f.t.toNat]
  let r (x y : Nat) := outerEl int neg (s.hart.rmode.toNat % 4) n groups (a x) (b y) (tileEl T x y)
  (nextLen s = 0 → OnlyRetires i s) ∧
  (0 < nextLen s → ∃ t, exec i s = .next t ∧ t.hart.v = s.hart.v ∧ t.hart.x = s.hart.x ∧ t.mem = s.mem ∧
    (∀ k : Fin 4, k.val ≠ f.t.toNat → t.hart.tile[k] = s.hart.tile[k]) ∧
    (let T' := t.hart.tile[f.t.toNat]
    (∀ x y, x < 128 → y < 128 →
      (rowOn x = true → colOn y = true → tileEl T' x y = (r x y).1 % 2 ^ 32 ∧ tileP T' x y = (tileP T x y || (a x).pois || (b y).pois)) ∧
      ((rowOn x && colOn y) = false → tileEl T' x y = tileEl T x y ∧ tileP T' x y = tileP T x y)) ∧
    (∀ x, x < 128 → T'.rowFlag.getLsbD x = (T.rowFlag.getLsbD x || rowOn x && (a x).flag)) ∧
    (∀ y, y < 128 → T'.colFlag.getLsbD y = (T.colFlag.getLsbD y || colOn y && (b y).flag))) ∧
    (t.hart.mflags = 1 ↔ s.hart.mflags = 1 ∨ ∃ x y, x < 128 ∧ y < 128 ∧ rowOn x = true ∧ colOn y = true ∧ (r x y).2 = true))

/-- The instruction has been performed and its only result is summary register n, which becomes dirty. -/
def SummaryResult (i : Instr) (s : State) (n : BitVec 4) (m : Summary) : Prop :=
  exec i s = .next { s with hart := { convoyEnd s i with
    sums := s.hart.sums.set n.toNat (some m), sdirty := s.hart.sdirty ||| BitVec.ofNat 16 (2 ^ n.toNat) } }

/-- An update round on a summary (R210, R231): nothing without a body; a poisoned input of an active body element, or a poisoned predicate bit of one, poisons the
summary; a poisoned summary stays as it is; otherwise the active body elements are absorbed in ascending order, and the round ends. -/
def RoundDone (i : Instr) (s : State) (f : OpSM) (m : Summary) (bad : Nat → Bool) (g : Nat → Body → Body) : Prop :=
  let es := activeBody s f.pred.toNat
  let hurt := ∃ e ∈ es, bad e = true ∨ activeP s f.pred.toNat e = true
  (nextLen s ≤ s.hart.vstart → OnlyRetires i s) ∧
  (s.hart.vstart < nextLen s → hurt → SummaryResult i s f.sd (poisonSum m)) ∧
  (s.hart.vstart < nextLen s → ¬hurt → m.poison = true → SummaryResult i s f.sd m) ∧
  (s.hart.vstart < nextLen s → ¬hurt → m.poison = false →
    SummaryResult i s f.sd { m with body := endRound m.param (es.foldl (fun b e => g e b) m.body) })

/-! ### Bound registers -/

/-- The hart can post the instruction as a convoy of its own and perform it at once, as `Ready` says, but register r is bound as `b`, and is in no group of
registers of the member (R255). -/
def ReadyBound (i : Instr) (m : Member) (s : State) (r : Fin 32) (b : Bind) : Prop :=
  s.hart.vq = [] ∧ postWait s [i] = none ∧ s.hart.binds = [(r.val, b)] ∧ s.hart.unbound = [] ∧ s.hart.unverified = [] ∧ m.check (dctx s) = none ∧
    (m.whole = true → s.hart.vstart = 0) ∧ r.val ∉ m.groups ∧ ∀ g ∈ m.sized (curDctx (begun s i)), g.2 ≠ 1 → r.val < g.1 ∨ g.1 + g.2 ≤ r.val

/-- The member reads register r as a source of its own. -/
def readsBound (i : Instr) (m : Member) (s : State) (r : Fin 32) : Prop := r.val ∈ m.srcs ∨ (r.val, 1) ∈ m.sized (curDctx (begun s i))

/-- The machine x, but for vector register r, which keeps what it held before: a bound register is not changed itself (R253, R254). -/
def keepsReg (s x : State) (r : Fin 32) : State :=
  { x with hart := { x.hart with
      v := x.hart.v.set r s.hart.v[r], vp := x.hart.vp.set r s.hart.vp[r],
      vdirty := (x.hart.vdirty &&& ~~~(BitVec.ofNat 32 (2 ^ r.val))) ||| (s.hart.vdirty &&& BitVec.ofNat 32 (2 ^ r.val)) } }

/-- The member of the convoy has run in the state u, with x as its effect and neither a condition nor a wait. -/
def RanIn (m : Member) (u x : State) : Prop :=
  x = m.run u ∧ x.hart.cur.fault = none ∧ x.hart.cur.wait = none ∧ x.hart.cur.binds = u.hart.cur.binds

/-- The convoy of the instruction has retired with x as its effect, and the bound register r is as it was. -/
def RetiresBound (i : Instr) (s x : State) (r : Fin 32) : Prop := exec i s = .next (retire (settled s i) (keepsReg (begun s i) x r) 1)

/-- The chunk of `n` bytes that stands in register r. -/
def chunkOf (x : State) (r : Fin 32) (n : Nat) : Chunk :=
  { val := x.hart.v[r].toNat % 2 ^ (8 * n), cells := x.hart.vp[r].toNat % 2 ^ (4 * n) }

/-! ### Micro-operations -/

/-- The nearest member ahead of member `j` of the convoy at place `p` that writes vector register r: place, number and instruction (R24). -/
def producerOf (s : State) (p j r : Nat) : Option (Nat × Nat × Instr) :=
  (membersBefore s p j).find? fun x => ((memberOf x.2.2).map fun k => k.dsts.contains r).getD false

/-- The nearest member ahead that writes a predicate, scale register, summary, tile or other operand r (R21). -/
def otherProducer (s : State) (p j : Nat) (r : Nat × Nat) : Option (Nat × Nat × Instr) :=
  (membersBefore s p j).find? fun x => ((memberOf x.2.2).map fun k => (writesOther x.2.2 k).contains r).getD false

/-- A micro-operation of the producer x is not complete. -/
def Unfinished (s : State) (x : Nat × Nat × Instr) : Prop :=
  ∃ (n : Nat) (y : Uop), (uopsAt s x.1)[n]? = some y ∧ y.member = x.2.1 ∧ (x.1, n) ∉ s.hart.complete

/-! ### Access entries -/

/-- What the convoys that follow carry as the binding of a register. -/
def boundTo (h : Hart) (r : Nat) : Option Bind := (h.binds.find? fun b => b.1 == r).map fun b => b.2

/-- Entry i is the next one to start: it is the oldest that has not started, and it waits for no pennant and for no acquire that was posted before it
(R23, R39, R172); in a splice the hart is in the entry's role. -/
def NextEntry (s : State) (i : Nat) (e : AqEntry) : Prop :=
  s.hart.run = .running ∧ s.hart.aq.findIdx? isFresh = some i ∧ s.hart.aq[i]? = some e ∧ (takeOf e = none ∨ e.taken.isSome = true) ∧
  ofRole s.hart e.addr = true ∧ acquireIn (s.hart.vq.take e.vqAhead) = false

/-- Entry i has started or done a unit, with `t` as its effect: the pins of the oldest entry end with its unit (R98). -/
def unitEnds (i : Nat) (t : State) : State :=
  if i = 0 then { t with hart := { t.hart with pins := t.hart.pins.filter fun p => p.queue != .access } } else t

/-- The work of entry i is done: its result and payload wait for its retirement. -/
def entryDone (s : State) (i : Nat) (e : AqEntry) (result : Word) (payload : Nat) (durable : Bool) : State :=
  setEntry s i { e with progress := .done result (BitVec.ofNat 32 payload) durable }

/-- The collective of entry n of a running hart has reached step `st` and has not failed; it is no SMERGE. -/
def AtStep (s : State) (n : Nat) (e : AqEntry) (c : Coll) (st : RouteStep) : Prop :=
  s.hart.run = .running ∧ s.hart.aq[n]? = some e ∧ (∃ f, e.instr = .acol f) ∧ ofRole s.hart e.addr = true ∧ e.progress = .coll c ∧ c.failed = false ∧
  c.op ≠ 2 ∧
  c.steps[c.stepNo]? = some st

/-- The step of entry n is done, with what it has made of the collective: the next one is reached now. -/
def stepped (s : State) (n : Nat) (e : AqEntry) (c : Coll) : State :=
  setEntry s n { e with progress := .coll { c with stepNo := c.stepNo + 1, since := s.time } }

/-- Entry i is a run in progress, the oldest of its record. -/
def RunsRecord (s : State) (i : Nat) (e : AqEntry) (r : Stream) : Prop :=
  s.hart.run = .running ∧ runOf s r.handle = some i ∧ s.hart.aq[i]? = some e ∧ (∃ f, e.instr = .astRun f ∧ (entryX e f.a).toNat = r.handle) ∧
  (∃ units count err, e.progress = .run units count err) ∧ ofRole s.hart e.addr = true ∧ streamOf s r.handle = some r

/-! ### Stops -/

/-- The hart has stopped, and class F holds the cause, the address charged, the value and the member (R56, R86). -/
def StoppedWith (t : State) (cause : Nat) (epc tval : Word) (member : Nat) : Prop :=
  t.hart.run = .stopped ∧ t.hart.cause = BitVec.ofNat 8 cause ∧ t.hart.epc = epc ∧ t.hart.tval = tval ∧ t.hart.member = BitVec.ofNat 2 member ∧
  t.hart.stop.isSome = true

/-! ### Memory -/

/-- What an atomic step leaves: the hart's queued stores to the same target are visible, then the new value is written at the place, under
the epoch that a durable release begins when it is an epoch boundary (R68, R69, R292). -/
def atomicStep (u : State) (h : Hit) (boundary : Bool) (v : Option Word) : State :=
  let t := drainTarget u (targetIn u h.key)
  let t := if boundary then nextEpoch t 1 else t
  match v with
  | some v => applyStore t (atomStore h.key 8 v.toNat false (bitN h.pte 56) (bitN h.pte 57) (keySlot t h.pte) t.hart.epoch .sequencer)
  | none => t


/-- The canonical form of memory and of what the Loft modules hold durably. -/
def MemoryOk (s : State) : Prop := Memory.wf s.mem = true ∧ Memory.wf s.durable = true

/-- Every byte of memory and of durable memory reads as before. -/
def SameMemory (s t : State) : Prop :=
  ∀ k, Memory.read t.mem k = Memory.read s.mem k ∧ Memory.read t.durable k = Memory.read s.durable k

end Sys2Proof.Machine
end

