-- ==== Sys2Proof/Certificates/Slice0/Obligations.lean ====
section
/-! DEFINITION. The statements about the machine. -/

open Sys2Proof Sys2Proof.Machine

/-! ### Scalar arithmetic -/

/-- R61: the results of the scalar register operations, for every register and every operand value.
R61: leading zeros, trailing zeros and set bits; each of clz and ctz gives 64 for zero. The operand b is ignored. -/
def Obligations.ScalarRegisterResults : Prop :=
  (∀ (f : OpA) (s : State), NoHold s [f.a, f.b, f.d] →
     let a := readX s f.a
     let b := readX s f.b
     let gives (i : Instr) (v : Word) : Prop := exec i s = .next (completed s f.d v 4)
     gives (.add f) (a + b) ∧ gives (.sub f) (a - b) ∧ gives (.and f) (a &&& b) ∧ gives (.or f) (a ||| b) ∧ gives (.xor f) (a ^^^ b) ∧
     gives (.sll f) (BitVec.ofNat 64 (a.toNat * 2 ^ (b.toNat % 64))) ∧ gives (.srl f) (BitVec.ofNat 64 (a.toNat / 2 ^ (b.toNat % 64))) ∧
     gives (.sra f) (BitVec.ofInt 64 (a.toInt / 2 ^ (b.toNat % 64))) ∧
     gives (.slt f) (if a.toInt < b.toInt then 1 else 0) ∧ gives (.sltn f) (if a.toNat < b.toNat then 1 else 0) ∧
     gives (.min f) (if a.toInt ≤ b.toInt then a else b) ∧ gives (.max f) (if a.toInt ≤ b.toInt then b else a) ∧
     gives (.minn f) (if a.toNat ≤ b.toNat then a else b) ∧ gives (.maxn f) (if a.toNat ≤ b.toNat then b else a) ∧
     gives (.mul f) (BitVec.ofNat 64 (a.toNat * b.toNat)) ∧ gives (.mulh f) (BitVec.ofInt 64 (a.toInt * b.toInt / 2 ^ 64)) ∧
     gives (.mulhn f) (BitVec.ofNat 64 (a.toNat * b.toNat / 2 ^ 64)) ∧
     gives (.addw f) (BitVec.ofInt 64 ((a.toInt + b.toInt).bmod (2 ^ 32))) ∧
     gives (.subw f) (BitVec.ofInt 64 ((a.toInt - b.toInt).bmod (2 ^ 32)))) ∧
  (∀ (f : OpA) (s : State), NoHold s [f.a, f.d] →
     let a := readX s f.a
     let gives (i : Instr) (v : Nat) : Prop := exec i s = .next (completed s f.d (BitVec.ofNat 64 v) 4)
     gives (.clz f) ((List.range 64).countP fun i => decide (a.toNat < 2 ^ i)) ∧
     gives (.ctz f) ((List.range 64).countP fun i => decide (2 ^ (i + 1) ∣ a.toNat)) ∧
     gives (.popc f) ((List.range 64).countP fun i => a.getLsbD i))

/-- R61, R62: quotients and remainders, with a zero divisor and with the one overflow; none of them traps. -/
def Obligations.ScalarDivision : Prop :=
  ∀ (f : OpA) (s : State), NoHold s [f.a, f.b, f.d] →
    let a := readX s f.a
    let b := readX s f.b
    let gives (i : Instr) (v : Word) : Prop := exec i s = .next (completed s f.d v 4)
    (b = 0 → gives (.div f) (BitVec.allOnes 64) ∧ gives (.divn f) (BitVec.allOnes 64) ∧ gives (.rem f) a ∧ gives (.remn f) a) ∧
    (b ≠ 0 → gives (.divn f) (BitVec.ofNat 64 (a.toNat / b.toNat)) ∧ gives (.remn f) (BitVec.ofNat 64 (a.toNat % b.toNat)) ∧
      gives (.div f) (BitVec.ofInt 64 (a.toInt.tdiv b.toInt)) ∧ gives (.rem f) (BitVec.ofInt 64 (a.toInt.tmod b.toInt))) ∧
    (a = BitVec.intMin 64 ∧ b = BitVec.allOnes 64 → gives (.div f) a ∧ gives (.rem f) 0)

/-- R35, R63, R64: the immediate forms; `ldh` and `pcadd` shift their immediate by 14, and `pcadd` adds it to the instruction's own (original)
address. -/
def Obligations.ScalarImmediateResults : Prop :=
  ∀ s : State,
    let gives (i : Instr) (d : BitVec 5) (v : Word) : Prop := exec i s = .next (completed s d v 4)
    (∀ f : OpI14, NoHold s [f.a, f.d] →
      let a := readX s f.a
      let m := f.imm.signExtend 64
      gives (.addi f) f.d (a + m) ∧ gives (.andi f) f.d (a &&& m) ∧ gives (.ori f) f.d (a ||| m) ∧ gives (.xori f) f.d (a ^^^ m)) ∧
    (∀ f : OpSh6, NoHold s [f.a, f.d] →
      let a := readX s f.a
      gives (.slli f) f.d (BitVec.ofNat 64 (a.toNat * 2 ^ f.sh.toNat)) ∧ gives (.srli f) f.d (BitVec.ofNat 64 (a.toNat / 2 ^ f.sh.toNat)) ∧
      gives (.srai f) f.d (BitVec.ofInt 64 (a.toInt / 2 ^ f.sh.toNat))) ∧
    (∀ f : OpI13, NoHold s [f.a, f.d] →
      let a := readX s f.a
      let m := f.imm.signExtend 64
      gives (.slti f) f.d (if a.toInt < m.toInt then 1 else 0) ∧ gives (.sltni f) f.d (if a.toNat < m.toNat then 1 else 0)) ∧
    (∀ f : OpU19, NoHold s [f.d] →
      let m := BitVec.ofInt 64 (f.imm.toInt * 2 ^ 14)
      gives (.ldh f) f.d m ∧ gives (.pcadd f) f.d (origAddr s.hart s.hart.pc + m))

/-- R45: the compressed arithmetic forms, two bytes each. -/
def Obligations.CompressedResults : Prop :=
  ∀ s : State,
    let gives (i : Instr) (d : BitVec 5) (v : Word) : Prop := exec i s = .next (completed s d v 2)
    (∀ (imm : BitVec 6) (d : BitVec 5), NoHold s [d] →
      let x := readX s d
      gives (.cAddi imm d) d (x + imm.signExtend 64) ∧ gives (.cLi imm d) d (imm.signExtend 64) ∧
      gives (.cSlli imm d) d (BitVec.ofNat 64 (x.toNat * 2 ^ imm.toNat)) ∧
      gives (.cSrai imm d) d (BitVec.ofInt 64 (x.toInt / 2 ^ imm.toNat))) ∧
    (∀ a d : BitVec 5, NoHold s [a, d] →
      let x := readX s d
      let y := readX s a
      gives (.cMv a d) d y ∧ gives (.cAdd a d) d (x + y) ∧ gives (.cSub a d) d (x - y) ∧ gives (.cAnd a d) d (x &&& y)) ∧
    exec .cNop s = .next (past s 2)

/-! ### Scalar memory -/

/-- R36, R65, R66: a load of n bytes at a naturally aligned address whose checks pass and whose data is not poison completes with the bytes
that the hart reads there, little-endian, extended as its type says; it changes nothing but its destination and the accessed bit that the
translation sets (`u`). `ld.pr` loads sixteen bytes into two registers, `c.ld` takes no offset and two bytes.
R172: every load form waits, with no effect, for every acquire that was posted before it. -/
def Obligations.ScalarLoadResults : Prop :=
  (∀ (s : State) (f : OpM11), NoHold s [f.a, f.d] → acquireIn s.hart.vq = true →
    (∀ i ∈ [Instr.ldI8 f, .ldI16 f, .ldI32 f, .ldI64 f, .ldN8 f, .ldN16 f, .ldN32 f, .cLd f.a f.d], exec i s = .next (parked s .acquire)) ∧
    (NoHold s [f.d + 1] → exec (.ldPr f) s = .next (parked s .acquire))) ∧
  ∀ (s u : State) (h : Hit) (f : OpM11) (n : Nat), NoHold s [f.a, f.d] → acquireIn s.hart.vq = false →
    let ea := readX s f.a + f.imm.signExtend 64
    let v := hartRead u h.key n
    checkAccess s ea n n .load = (u, .ok h) → readsPoison u h.key n = false →
    let gives (i : Instr) (w : Word) : Prop := exec i s = .next (completed u f.d w 4)
    (n = 1 → gives (.ldN8 f) (BitVec.ofNat 64 v) ∧ gives (.ldI8 f) ((BitVec.ofNat 8 v).signExtend 64)) ∧
    (n = 2 → gives (.ldN16 f) (BitVec.ofNat 64 v) ∧ gives (.ldI16 f) ((BitVec.ofNat 16 v).signExtend 64)) ∧
    (n = 4 → gives (.ldN32 f) (BitVec.ofNat 64 v) ∧ gives (.ldI32 f) ((BitVec.ofNat 32 v).signExtend 64)) ∧
    (n = 8 → gives (.ldI64 f) (BitVec.ofNat 64 v) ∧ (f.imm = 0 → exec (.cLd f.a f.d) s = .next (completed u f.d (BitVec.ofNat 64 v) 2))) ∧
    (n = 16 → NoHold s [f.d + 1] →
      exec (.ldPr f) s = .next (past { u with hart := { u.hart with
        x := setX (setX u.hart.x f.d (BitVec.ofNat 64 v)) (f.d + 1) (BitVec.ofNat 64 (v / 2 ^ 64)) } } 4))

/-- R65 to R67, R169: a store of n bytes at a naturally aligned address whose checks pass enters the hart's store queue behind the earlier
ones, with the address's key, its n bytes and the hart's persist epoch; no byte of memory has changed for other harts.
R65, R66: a scalar load or store at an address that is not naturally aligned traps MISALIGN with that address, and has no other effect.
R172: each of these is about a hart with no acquire posted; every store form waits, with no effect, for one that was posted before it. -/
def Obligations.ScalarStoresAndAlignment : Prop :=
  (∀ (s : State) (f : OpM11), NoHold s [f.a, f.d] → acquireIn s.hart.vq = true →
     (∀ i ∈ [Instr.stI8 f, .stI16 f, .stI32 f, .stI64 f, .cSd f.a f.d], exec i s = .next (parked s .acquire)) ∧
     (NoHold s [f.d + 1] → exec (.stPr f) s = .next (parked s .acquire))) ∧
  (∀ (s u : State) (h : Hit) (f : OpM11) (n : Nat), NoHold s [f.a, f.d] → acquireIn s.hart.vq = false →
     let ea := readX s f.a + f.imm.signExtend 64
     checkAccess s ea n n .store = (u, .ok h) →
     let queued (v : Nat) : State := { u with hart := { u.hart with
       storeQ := u.hart.storeQ ++ [{ mkStore u h n v (256 ^ n - 1) false .sequencer u.hart.epoch with seq := u.hart.entered + 1 }],
       entered := u.hart.entered + 1 } }
     let gives (i : Instr) : Prop := exec i s = .next (past (queued (readX s f.d).toNat) 4)
     (n = 1 → gives (.stI8 f)) ∧ (n = 2 → gives (.stI16 f)) ∧ (n = 4 → gives (.stI32 f)) ∧
     (n = 8 → gives (.stI64 f) ∧ (f.imm = 0 → exec (.cSd f.a f.d) s = .next (past (queued (readX s f.d).toNat) 2))) ∧
     (n = 16 → NoHold s [f.d + 1] →
       exec (.stPr f) s = .next (past (queued ((readX s f.d).toNat + 2 ^ 64 * (readX s (f.d + 1)).toNat)) 4)) ∧
     (∀ k, Memory.read (queued (readX s f.d).toNat).mem k = Memory.read u.mem k)) ∧
  (∀ (s : State) (f : OpM11), NoHold s [f.a, f.d, f.d + 1] → acquireIn s.hart.vq = false →
     let ea := readX s f.a + f.imm.signExtend 64
     let traps (i : Instr) : Prop := exec i s = .next (takeTrap s .misalign ea)
     (ea.toNat % 2 ≠ 0 → traps (.ldI16 f) ∧ traps (.ldN16 f) ∧ traps (.stI16 f)) ∧
     (ea.toNat % 4 ≠ 0 → traps (.ldI32 f) ∧ traps (.ldN32 f) ∧ traps (.stI32 f)) ∧
     (ea.toNat % 8 ≠ 0 → traps (.ldI64 f) ∧ traps (.stI64 f)) ∧
     (ea.toNat % 16 ≠ 0 → traps (.ldPr f) ∧ traps (.stPr f)))

/-- R69, R70: an atomic on an aligned doubleword within its scope whose checks pass returns the old value and writes the new one in one step;
`amo.ld` writes nothing and asks for read permission, `amo.st` returns nothing. With rl it runs once the hart's earlier stores are done; a release
of scope `.du` on shed memory is one of scope `.sy` (R313). -/
def Obligations.ScalarAtomicResults : Prop :=
  ∀ (s : State) (f : OpSA), NoHold s [f.a, f.b, f.d] → acquireIn s.hart.vq = false →
    let ea := readX s f.a
    let b := readX s f.b
    let sc := scopeAt s ea f.sc.toNat
    (f.rl = true → storesPending s sc = false) →
    (∀ (u : State) (h : Hit), checkScoped s ea 8 f.sc.toNat .store = (u, some (.ok h)) →
      let old := BitVec.ofNat 64 (hartRead (drainTarget u (targetIn u h.key)) h.key 8)
      let t (v : Option Word) := atomicStep u h (f.rl && sc == 6) v
      (readsPoison u h.key 8 = false →
        let gives (i : Instr) (v : Option Word) : Prop := exec i s = .next (completed (t v) f.d old 4)
        gives (.amoSwap f) (some b) ∧ gives (.amoAdd f) (some (old + b)) ∧ gives (.amoAnd f) (some (old &&& b)) ∧
        gives (.amoOr f) (some (old ||| b)) ∧ gives (.amoXor f) (some (old ^^^ b)) ∧
        gives (.amoMin f) (some (if old.toInt ≤ b.toInt then old else b)) ∧ gives (.amoMax f) (some (if old.toInt ≤ b.toInt then b else old)) ∧
        gives (.amoMinn f) (some (if old.toNat ≤ b.toNat then old else b)) ∧ gives (.amoMaxn f) (some (if old.toNat ≤ b.toNat then b else old)) ∧
        gives (.amoCas f) (if old = readX s f.d then some b else none)) ∧
      exec (.amoSt f) s = .next (past (t (some b)) 4)) ∧
    (∀ (u : State) (h : Hit), checkScoped s ea 8 f.sc.toNat .load = (u, some (.ok h)) → readsPoison u h.key 8 = false →
      exec (.amoLd f) s =
        .next (completed (atomicStep u h (f.rl && sc == 6) none) f.d (BitVec.ofNat 64 (hartRead (drainTarget u (targetIn u h.key)) h.key 8)) 4))

/-! ### Branches and jumps -/

/-- R48, R71: a conditional branch that is not the back branch of a spliced body. Not taken, it goes on behind itself; taken, it goes to its
own (original) address plus twice its offset when the convoy-start check passes, and traps ILLEGAL with the target, without any effect, when it
trips. The condition of each branch is R71's.
R339: the two back branches of a spliced iteration, whichever branch instruction each is. One that is taken makes the convoy-start check of its
original target first (R48). After an unzip the branch of the role that is left decides alone. The producer's only records its outcome; after the consumer's, both taken begin the next iteration, neither ends the
loop, and a disagreement unzips the splice: the role whose branch was taken goes on alone, after the producer's epilogue when that is the consumer. -/
def Obligations.BranchResults : Prop :=
  (∀ s : State, (s.hart.splice = none ∨ ∃ i, spliceAt s.hart = some i ∧ i.region ≠ 2) →
     let rule (i : Instr) (n : Nat) (off : Word) (cond : Bool) : Prop :=
       let target := origAddr s.hart s.hart.pc + off
       (cond = false → exec i s = .next (past s n)) ∧
       (cond = true → (∀ t, Lands s target t → exec i s = .next (transferred t 0 0 (placeOfTarget t target))) ∧
         (Trips s target → exec i s = .next (takeTrap s .illegal target)))
     (∀ f : OpBr, NoHold s [f.a, f.b] →
       let a := readX s f.a
       let b := readX s f.b
       let off := (f.hi ++ f.lo).signExtend 64 * 2
       rule (.beq f) 4 off (decide (a = b)) ∧ rule (.bne f) 4 off (decide (a ≠ b)) ∧ rule (.blt f) 4 off (decide (a.toInt < b.toInt)) ∧
       rule (.bge f) 4 off (decide (b.toInt ≤ a.toInt)) ∧ rule (.bltn f) 4 off (decide (a.toNat < b.toNat)) ∧
       rule (.bgen f) 4 off (decide (b.toNat ≤ a.toNat))) ∧
     (∀ (imm : BitVec 6) (d : BitVec 5), NoHold s [d, 0] →
       rule (.cBeqz imm d) 2 (imm.signExtend 64 * 2) (decide (readX s d = 0)) ∧
       rule (.cBnez imm d) 2 (imm.signExtend 64 * 2) (decide (readX s d ≠ 0)))) ∧
  (∀ (s : State) (sp : Splice) (i : SpInstr), s.hart.splice = some sp → spliceAt s.hart = some i → i.region = 2 →
     let rule (b : Instr) (off : Word) (p : Bool) : Prop :=
       let done (u t : State) : Prop := exec b s = .next t ∧ t.hart.x = u.hart.x ∧ t.hart.v = u.hart.v ∧ t.mem = u.mem ∧
         (∀ c, sp.unzipped = some c → t.hart.pc = spliceAddr (startOf sp c (if p then 1 else 3)) ∧ t.hart.splice = some sp) ∧
         (sp.unzipped = none → i.consumer = false → t.hart.pc = spliceAddr (spliceIndex u.hart.pc + 1) ∧ t.hart.splice = some { sp with taken := some p }) ∧
         (sp.unzipped = none → i.consumer = true →
           (sp.taken = some p → t.hart.pc = spliceAddr (startOf sp false (if p then 1 else 3)) ∧ t.hart.splice = some { sp with taken := none }) ∧
           (sp.taken = some (!p) → t.hart.pc = spliceAddr (startOf sp false (if p then 3 else 1)) ∧
             t.hart.splice = some { sp with taken := none, unzipped := some p }))
       (p = true → (∀ u, Lands s (i.orig + off) u → ∃ t, done u t) ∧
         (Trips s (i.orig + off) → exec b s = .next (takeTrap s .illegal (i.orig + off)))) ∧
       (p = false → ∃ t, done s t)
     (∀ f : OpBr, NoHold s [f.a, f.b] →
       let a := readX s f.a
       let b := readX s f.b
       let off := (f.hi ++ f.lo).signExtend 64 * 2
       rule (.beq f) off (decide (a = b)) ∧ rule (.bne f) off (decide (a ≠ b)) ∧ rule (.blt f) off (decide (a.toInt < b.toInt)) ∧
       rule (.bge f) off (decide (b.toInt ≤ a.toInt)) ∧ rule (.bltn f) off (decide (a.toNat < b.toNat)) ∧
       rule (.bgen f) off (decide (b.toNat ≤ a.toNat))) ∧
     (∀ (imm : BitVec 6) (d : BitVec 5), NoHold s [d, 0] →
       rule (.cBeqz imm d) (imm.signExtend 64 * 2) (decide (readX s d = 0)) ∧
       rule (.cBnez imm d) (imm.signExtend 64 * 2) (decide (readX s d ≠ 0))))

/-- R33, R48, R72: the jumps. `jal` and `jalr` write the (original) address of the instruction plus 4 to their link register once the target has passed
its checks; `jalr` uses x[a] as it was before; an odd target traps MISALIGN, and one inside a convoy ILLEGAL, with the target and no other
effect. The compressed jumps do not link. -/
def Obligations.JumpResults : Prop :=
  ∀ s : State,
    let here := origAddr s.hart s.hart.pc
    let rule (i : Instr) (d : BitVec 5) (target : Word) : Prop :=
      (∀ t, Lands s target t → exec i s = .next (transferred t d (here + 4) (placeOfTarget t target))) ∧
      (Trips s target → exec i s = .next (takeTrap s .illegal target))
    let odd (i : Instr) (target : Word) : Prop := exec i s = .next (takeTrap s .misalign target)
    (∀ f : OpU19, NoHold s [f.d] → rule (.jal f) f.d (here + f.imm.signExtend 64 * 2)) ∧
    (∀ f : OpI14, NoHold s [f.a, f.d] →
      let target := readX s f.a + f.imm.signExtend 64
      (target.toNat % 2 = 0 → rule (.jalr f) f.d target) ∧ (target.toNat % 2 = 1 → odd (.jalr f) target)) ∧
    (∀ imm : BitVec 11, rule (.cJ imm) 0 (here + imm.signExtend 64 * 2)) ∧
    (∀ a : BitVec 5, NoHold s [a] →
      let target := readX s a
      (target.toNat % 2 = 0 → rule (.cJr a) 0 target) ∧ (target.toNat % 2 = 1 → odd (.cJr a) target))

/-! ### Control registers and the vector length -/

/-- R54, R55, R73: `cr.rd` returns the register at its index. A class Q register waits until every posted convoy has retired and its stores are visible (R170), but
for `vl`, `vtype` and `vlmax` behind a `vsl` with no convoy since; the other classes do not wait for the vector queue. The free-running counters move on by an
amount that the model leaves free (log entry 5), and the value that is read is the one they then hold.
R56, R337: `tilen` and `mdirty` have a bit for each tile; to a role of a splice they show the role's own tiles, in its own numbering. -/
def Obligations.ControlRegisterReads : Prop :=
  (∀ (h : Hart) (v : Nat),
    (h.splice = none → roleTiles h v = v) ∧
    (∀ sp n, h.splice = some sp → sp.consumer = false → bitN (roleTiles h v) n = (decide (n ∈ sp.tilesP) && bitN v n)) ∧
    (∀ sp n, h.splice = some sp → sp.consumer = true → (bitN (roleTiles h v) n = true ↔ ∃ m ∈ sp.tilesC, m.1 = n ∧ bitN v m.2 = true))) ∧
  ∀ (f : OpC) (s : State), NoHold s [f.d] →
    let free := f.idx.toNat ∉ classQ ∨ vectorBusy s.hart = false ∨ (f.idx.toNat ∈ [0x000, 0x001, 0x004] ∧ s.hart.pend.isSome = true)
    (¬free → exec (.crRd f) s = .next (parked s .qclass)) ∧
    (free → ∀ r ∈ crTable s, f.idx.toNat = r.1 → exec (.crRd f) s = .next (completed s f.d r.2 4)) ∧
    (f.idx.toNat = 0x040 → let v := s.hart.cycle + Config.cycles s.free
      exec (.crRd f) s = .next (completed { s with free := s.free + 1, hart := { s.hart with cycle := v } } f.d v 4)) ∧
    (f.idx.toNat = 0x042 → let v := s.hart.dgbub + Config.bubbles s.free
      exec (.crRd f) s = .next (completed { s with free := s.free + 1, hart := { s.hart with dgbub := v } } f.d v 4)) ∧
    (f.idx.toNat = 0x043 → let v := s.hart.energy + Config.energy s.free
      exec (.crRd f) s = .next (completed { s with free := s.free + 1, hart := { s.hart with energy := v } } f.d v 4))

/-- R56, R73: `cr.wr`, `cr.set` and `cr.clr` return the old value and change the RW bits: a write takes x[a], a set adds its ones, a clear removes
them; the clamps of `tgrant` and `dglim` apply to the value that results, and other bits ignore the write.
R56, R73: `cr.wr` and `cr.set` with a 1 in a W1C bit clear it: `mflags.OF`, `repro.SEEN`, and `psm` as a whole through the mirror's ANY; `cr.clr` leaves W1C
bits as they are, and `repro.EN` takes the three forms as every RW bit does.
R55: a class Q register, and `tilen` when its value changes, waits for the posted convoys and their stores; the others do not.
R56, R73: each form on `tilen` of an unspliced hart, once every posted convoy has retired: bits at or beyond the stall's share stay 0; a tile that
becomes enabled is all zero and dirty, one that becomes disabled is lost and clean, and the others are as they were. The event TILEN_WRITE is that
step by itself, of a running hart.
R56: PSM_MIRROR_CLEAR leaves every bit of `psm` of a running hart 0, once every posted convoy has retired. -/
def Obligations.ControlRegisterWrites : Prop :=
  (∀ (f : OpC) (s : State), NoHold s [f.a, f.d] → f.idx.toNat ∈ classQ → vectorBusy s.hart = true →
     ∀ i ∈ [Instr.crWr f, .crSet f, .crClr f], exec i s = .next (parked s .qclass)) ∧
  (∀ (f : OpC) (s : State), NoHold s [f.a, f.d] → (f.idx.toNat ∈ classQ → vectorBusy s.hart = false) →
     let a := (readX s f.a).toNat
     ∀ r ∈ crPlain s, f.idx.toNat = r.1 →
       let old := r.2.2.1.toNat &&& r.2.1
       exec (.crWr f) s = .next (completed (r.2.2.2 (a &&& r.2.1)) f.d r.2.2.1 4) ∧
       exec (.crSet f) s = .next (completed (r.2.2.2 ((old ||| a) &&& r.2.1)) f.d r.2.2.1 4) ∧
       exec (.crClr f) s = .next (completed (r.2.2.2 ((old - (old &&& a)) &&& r.2.1)) f.d r.2.2.1 4)) ∧
  (∀ (f : OpC) (s : State), NoHold s [f.a, f.d] → (f.idx.toNat ∈ classQ → vectorBusy s.hart = false) →
     let a := (readX s f.a).toNat
     let h := s.hart
     let EN := h.repro.toNat % 2
     let seen (w1c : Bool) : Nat := if !w1c && bitN h.repro.toNat 1 then 2 else 0
     (f.idx.toNat = 0x00E →
       (∀ i ∈ [Instr.crWr f, .crSet f],
         exec i s = .next (completed { s with hart := { h with mflags := if bitN a 0 then 0 else h.mflags } } f.d (W h.mflags.toNat) 4)) ∧
       exec (.crClr f) s = .next (completed s f.d (W h.mflags.toNat) 4)) ∧
     (f.idx.toNat = 0x00D →
       let gives (i : Instr) (v : Nat) : Prop := exec i s = .next (completed { s with hart := { h with repro := W v } } f.d h.repro 4)
       gives (.crWr f) (a % 2 + seen (bitN a 1)) ∧ gives (.crSet f) (max EN (a % 2) + seen (bitN a 1)) ∧ gives (.crClr f) (EN - min EN (a % 2) + seen false)) ∧
     (f.idx.toNat = 0x070 →
       (∀ i ∈ [Instr.crWr f, .crSet f],
         exec i s = .next (completed { s with hart := { h with psm := if bitN a 63 then 0 else h.psm } } f.d (psmMirror h.psm) 4)) ∧
       exec (.crClr f) s = .next (completed s f.d (psmMirror h.psm) 4))) ∧
  (∀ (f : OpC) (s : State), NoHold s [f.a, f.d] → s.hart.splice = none → f.idx.toNat = 0x012 →
     let share := 2 ^ tilesPerStall s - 1
     let a := (readX s f.a).toNat
     let old := s.hart.tilen.toNat &&& share
     ∀ x ∈ [(Instr.crWr f, a &&& share), (.crSet f, (old ||| a) &&& share), (.crClr f, (old - (old &&& a)) &&& share)],
     let v := x.2
     (vectorBusy s.hart = true → v ≠ s.hart.tilen.toNat → exec x.1 s = .next (parked s .qclass)) ∧
     (vectorBusy s.hart = false →
     ∃ t, exec x.1 s = .next (completed t f.d s.hart.tilen 4) ∧ (s.hart.run = .running → exec (.tilenWrite (W v)) s = .next t) ∧
       t.hart.tilen = W v ∧ t = { s with hart := { s.hart with tilen := t.hart.tilen, tile := t.hart.tile, mdirty := t.hart.mdirty } } ∧
       ∀ n : Fin 4, (bitN v n = bitN s.hart.tilen.toNat n →
           t.hart.tile[n] = s.hart.tile[n] ∧ t.hart.mdirty.getLsbD n = s.hart.mdirty.getLsbD n) ∧
         (bitN v n ≠ bitN s.hart.tilen.toNat n → t.hart.tile[n] = Tile.zero ∧ t.hart.mdirty.getLsbD n = bitN v n))) ∧
  (∀ s : State, s.hart.run = .running → s.hart.vq = [] → exec .psmMirrorClear s = .next { s with hart := { s.hart with psm := 0 } })

/-- R52, R74: `vsl` with no pending stall mode: the requested length, or the largest when a = 0, is cut to `vlmax` of the new type and returned; the
pair travels with the next convoy, and the vector queue is not waited for. -/
def Obligations.SetVectorLength : Prop :=
  ∀ (f : OpI14) (s : State), NoHold s [f.a, f.d] → (coreOf s s.hart.core).pend = none →
    let most := vrlen s * 8 / ewOf f.imm
    let n := if f.a = 0 then most else min (readX s f.a).toNat most
    exec (.vsl f) s = .next (completed { s with hart := { s.hart with pend := some (n, f.imm) } } f.d (W n) 4)

/-! ### Taking a trap -/

/-- R60, R86, R89: a precise trap stops the hart with class F written: the cause's code, the address of the instruction, the trap value, member 0 and
the origin; the resume address is the instruction's own. Nothing that the instruction would have written has changed, posted work stays queued, with no
commit begun (R300), and the leaf is told: of the stop when the frame could be saved, which clears the dirty maps, and otherwise of the frame's fault. The
save waits only for a page of the frame in migration, or for the cut of a head convoy that micro-operations have completed (R60, R279). (PASID_GONE and HALT
save no frame and are stated by themselves.)
R45, R81: `break` and `c.break` trap BREAK with 0, `swtrap` traps SWTRAP with x[a]. -/
def Obligations.TrapEntry : Prop :=
  (∀ (s : State) (c : Cause) (v : Word), c ≠ .pasidGone → c ≠ .halt →
     let t := takeTrap s c v
     let h := s.hart
     let g := t.hart
     g.run = .stopped ∧ g.cause = BitVec.ofNat 8 c.code ∧ g.epc = h.pc ∧ g.tval = v ∧ g.member = 0 ∧ g.origin = originAt h h.pc ∧
     g.pc = h.pc ∧ g.x = h.x ∧ g.v = h.v ∧ g.vp = h.vp ∧ g.p = h.p ∧ g.pp = h.pp ∧ g.k = h.k ∧ g.kp = h.kp ∧ g.psm = h.psm ∧ g.tile = h.tile ∧
     g.sums = h.sums ∧ g.vl = h.vl ∧ g.vtype = h.vtype ∧ g.vstart = h.vstart ∧ g.memfmt = h.memfmt ∧ g.fmt = h.fmt ∧ g.rmode = h.rmode ∧
     g.repro = h.repro ∧ g.tilen = h.tilen ∧
     (g.vq.map fun c => { c with phase := 0, commit := (0, 0) }) = (h.vq.map fun c => { c with phase := 0, commit := (0, 0) }) ∧ g.aq = h.aq ∧ g.pennants = h.pennants ∧ g.storeQ = h.storeQ ∧ g.instret = h.instret ∧
     t.others = s.others ∧
     ((∃ p, g.stop = some p ∧ p.queue = .sequencer ∧ p.rpc = h.pc ∧ p.faulted = none ∧ t.leaf = s.leaf ++ [.stopped h.gangid h.hartid] ∧
         g.vdirty = 0 ∧ g.sdirty = 0 ∧ g.mdirty = 0) ∨
       (∃ p tr, g.stop = some p ∧ p.rpc = h.pc ∧ p.faulted = some tr ∧ t.leaf = s.leaf ++ [.frameFault h.gangid h.hartid tr] ∧
         g.vdirty = h.vdirty ∧ g.sdirty = h.sdirty ∧ g.mdirty = h.mdirty) ∨
       (((h.complete.any fun u => u.1 == 0) = true ∨
           (frameWalk s 2048 (h.frame + W (h.hartid * framesz s)) (framesz s)).2 = some .stall) ∧
         ∃ p, g.stop = some p ∧ p.queue = .sequencer ∧ p.rpc = h.pc ∧ p.unsaved = true ∧ t.leaf = s.leaf ∧
           g.vdirty = h.vdirty ∧ g.sdirty = h.sdirty ∧ g.mdirty = h.mdirty))) ∧
  (∀ (f : OpA) (s : State), exec .brk s = .next (takeTrap s .brk 0) ∧ exec .cBrk s = .next (takeTrap s .brk 0) ∧
     (NoHold s [f.a] → exec (.swtrap f) s = .next (takeTrap s .swtrap (readX s f.a))))

/-! ### Synchronisation -/

/-- R76, R85, R292: the harness marks retire with no effect; `lsync` completes once the hart's earlier stores are done, as an epoch boundary when its scope is
`.du`, and waits until then.
R78, R313: `wm.pub` stores x[b] as one visible doubleword after the hart's queued stores to its target, as a `.sy` release when a `.du` one reaches shed memory; `wm.wait` completes with the doubleword once it is at
least x[b] as a natural number, and parks without effect until then; WM_WAIT_SATISFIED is that completion of a parked one. -/
def Obligations.MarksSyncWatermarks : Prop :=
  (∀ (s : State) (sc : BitVec 3), exec .hmBody s = .next (past s 4) ∧ exec .hmEnd s = .next (past s 4) ∧
     (storesPending s sc.toNat = true → exec (.lsync sc) s = .next (parked s .stores)) ∧
     (storesPending s sc.toNat = false →
       exec (.lsync sc) s = .next (past { s with hart := { s.hart with epoch := s.hart.epoch + (if sc = 6 then 1 else 0) } } 4))) ∧
  (∀ (s u : State) (h : Hit) (sc : BitVec 3) (f : OpA), NoHold s [f.a, f.b, f.d] →
     let ea := readX s f.a
     let b := readX s f.b
     (storesPending s (scopeAt s ea sc.toNat) = false → checkScoped s ea 8 sc.toNat .store = (u, some (.ok h)) →
       let t := drainTarget u (targetIn u h.key)
       let t := { t with hart := { t.hart with epoch := t.hart.epoch + (if scopeAt s ea sc.toNat = 6 then 1 else 0) } }
       exec (.wmPub sc f) s = .next (past (applyStore t
         (atomStore h.key 8 b.toNat false (bitN h.pte 56) (bitN h.pte 57) (keySlot t h.pte) t.hart.epoch .sequencer)) 4)) ∧
     (acquireIn s.hart.vq = false → checkScoped s ea 8 sc.toNat .load = (u, some (.ok h)) → readsPoison u h.key 8 = false →
       let v := BitVec.ofNat 64 (hartRead u h.key 8)
       (b.toNat ≤ v.toNat → exec (.wmWait sc f) s = .next (completed u f.d v 4) ∧
         (s.hart.park = some .mark → instrHere s = some (.wmWait sc f) → exec .wmWaitSatisfied s = .next (completed u f.d v 4))) ∧
       (v.toNat < b.toNat → exec (.wmWait sc f) s = .next (parked u .mark))))

/-- R77: `gbar` of a hart whose earlier stores are done. When every other hart of the gang has arrived or halted, the barrier completes and x[d] receives the
new generation; otherwise the hart arrives for that generation and parks, and once the generation has completed its `gbar` completes with it. -/
def Obligations.GangBarrierResults : Prop :=
  ∀ (s : State) (f : OpA) (g : Gang), NoHold s [f.d] → gangOf s s.hart = some g →
    (s.hart.arrived = none → storesPending s 3 = false → othersArrived s g = true →
      exec (.gbar f) s = .next (completed (barrierDone s g) f.d (W (g.gen + 1)) 4)) ∧
    (s.hart.arrived = none → storesPending s 3 = false → othersArrived s g = false →
      exec (.gbar f) s = .next (parked { s with hart := { s.hart with arrived := some (g.gen + 1) } } .barrier)) ∧
    (∀ n, s.hart.arrived = some n → n ≤ g.gen →
      exec (.gbar f) s = .next (completed { s with hart := { s.hart with arrived := none } } f.d (W n) 4)) ∧
    (s.hart.arrived = some (g.gen + 1) → othersArrived s g = true → sameGang g s.hart = true →
      ∃ t, exec .gangBarrierComplete s = .next t ∧ (∀ k ∈ t.gangs, k.lid = g.lid → k.gen = g.gen + 1) ∧
        t.hart.park = (if s.hart.park = some .barrier then none else s.hart.park))

/-- R25, R79: `pn.send` posts the low 32 bits of x[a] behind the pennants of its channel, once earlier scalar stores are visible and a slot is free; `pn.recv`
takes the oldest pennant of its channel, zero-extended; `pn.cnt` counts them and does not wait.
R27, R79: with both queues empty a `pn.recv` of an empty channel and a `pn.send` on a full one trap PENNANT with the channel number. -/
def Obligations.PennantResults : Prop :=
  (∀ (s : State) (f : OpA), NoHold s [f.a, f.d] →
     let chan (c : Nat) (l : List (BitVec 32)) : State :=
       { s with hart := { s.hart with pennants := s.hart.pennants.set (c % 6) l (Nat.mod_lt _ (by decide)) } }
     (∀ c : BitVec 1, scalarPending s = false → (pnList s.hart c.toNat).length < 64 →
       exec (.pnSend c f) s = .next (past (chan c.toNat (pnList s.hart c.toNat ++ [(readX s f.a).truncate 32])) 4)) ∧
     (∀ v l, pnList s.hart 2 = v :: l → exec (.pnRecvCh2 f) s = .next (completed (chan 2 l) f.d (v.zeroExtend 64) 4)) ∧
     (∀ v l, pnList s.hart 4 = v :: l → exec (.pnRecvCh4 f) s = .next (completed (chan 4 l) f.d (v.zeroExtend 64) 4)) ∧
     (∀ c : BitVec 3, exec (.pnCnt c f) s = .next (completed s f.d (W (pnList s.hart c.toNat).length) 4))) ∧
  (∀ (s : State) (f : OpA), NoHold s [f.a, f.d] → queuesEmpty s.hart = true →
     (pnList s.hart 2 = [] → exec (.pnRecvCh2 f) s = .next (takeTrap s .pennant 2)) ∧
     (pnList s.hart 4 = [] → exec (.pnRecvCh4 f) s = .next (takeTrap s .pennant 4)) ∧
     (∀ c : BitVec 1, scalarPending s = false → 64 ≤ (pnList s.hart c.toNat).length →
       exec (.pnSend c f) s = .next (takeTrap s .pennant (W c.toNat))))

/-! ### Launches -/

/-- R84, R331, R332, R339: `jwait` returns STATUS of a completed launch whose record is held, all ones at once for the hart's own gang or for a launch that names no
held record, and parks while the launch is pending.
R83, R319: `jl` of a readable, aligned, clean record by a hart whose earlier stores are done. On an open queue of its PASID with a free slot that can be written, the
record enters the ring at TAIL with the hart's PASID in its PASID field, TAIL moves on, and x[d] is the new launch id; with no such queue, a full ring, or a slot that
cannot be written, x[d] is 0 and nothing is appended. R279: it waits for a slot in a page in migration. -/
def Obligations.LaunchInstructions : Prop :=
  (∀ (s : State) (f : OpA), NoHold s [f.a, f.d] →
     let lid := readX s f.a
     (ownLaunch s lid = true → exec (.jwait f) s = .next (completed s f.d (BitVec.allOnes 64) 4)) ∧
     (ownLaunch s lid = false → standing s lid = .unknown → exec (.jwait f) s = .next (completed s f.d (BitVec.allOnes 64) 4)) ∧
     (∀ v, ownLaunch s lid = false → standing s lid = .held v → exec (.jwait f) s = .next (completed s f.d v 4)) ∧
     (ownLaunch s lid = false → standing s lid = .pending → exec (.jwait f) s = .next (parked s .launch))) ∧
  (∀ (s u : State) (h : Hit) (f : OpA), NoHold s [f.a, f.b, f.d] → storesPending s 3 = false →
     checkAccess s (readX s f.a) 64 64 .load = (u, .ok h) → readsPoison u h.key 64 = false →
     let n := (readX s f.b).toNat
     (64 ≤ n → exec (.jl f) s = .next (completed u f.d 0 4)) ∧
     (n < 64 →
       let q := BitVec.ofNat 6 n
       let c := queueOf u q
       ((c.isOpen = false ∨ c.pasid ≠ s.hart.pasid ∨ 2 ^ c.log2 ≤ c.tail - c.head) → exec (.jl f) s = .next (completed u f.d 0 4)) ∧
       (∀ w r, c.isOpen = true → c.pasid = s.hart.pasid → c.tail - c.head < 2 ^ c.log2 →
         engineWrite u c.pasid (c.base + W (c.tail % 2 ^ c.log2 * 64)) 64 (setBits (hartRead u h.key 64) 96 32 s.hart.pasid) = (w, r) →
         (r = .ok () → exec (.jl f) s = .next (completed { w with queues := w.queues.set q.toNat { c with tail := c.tail + 1 } } f.d
           (W (n * 2 ^ 56 + (c.tail + 1))) 4)) ∧
         (∀ tr, r = .error (some tr) → exec (.jl f) s = .next (completed u f.d 0 4)) ∧
         (r = .error none → exec (.jl f) s = .next (parked u .migration)))))

/-- R81, R178, R325, R339: `halt` waits while posted work is queued; otherwise the hart's stores and combining updates are performed, its spill lists are written, and it
stops with HALT, code 0x21; the producer's `halt` of a spliced program waits for nothing and only goes on, to the consumer's own code when the consumer goes on alone. -/
def Obligations.HaltResults : Prop :=
  ∀ s : State,
    let ends : Prop := s.hart.splice = none ∨ ∃ i, spliceAt s.hart = some i ∧ i.consumer = true
    (ends → queuesEmpty s.hart = false → exec .halt s = .next (parked s .drain)) ∧
    (∀ u, ends → queuesEmpty s.hart = true → allSpills (settleHart s) = (u, none) →
      exec .halt s = .next (finishGang (takeStop u .none ⟨.halt, 0⟩ u.hart.pc u.hart.pc 0 u.hart.vstart 0 0)) ∧
      (takeStop u .none ⟨.halt, 0⟩ u.hart.pc u.hart.pc 0 u.hart.vstart 0 0).hart.run = .halted ∧
      (takeStop u .none ⟨.halt, 0⟩ u.hart.pc u.hart.pc 0 u.hart.vstart 0 0).hart.cause = 0x21) ∧
    (∀ sp i, s.hart.splice = some sp → spliceAt s.hart = some i → i.consumer = false →
      exec .halt s = .next (transferred s 0 0 (if sp.unzipped = some true then spliceAddr (startOf sp true 1) else s.hart.pc + 8)))

/-! ### Vector arithmetic

Each statement is about an instruction that runs as a convoy of its own (`Runs`); EW is `nextWidth s`. -/

/-- R106, R123, R124, R142: the results of the integer vector operations and of their scalar forms, and of `vbcast`. Signed values are read by SignExt; a result is cut to EW bits; a shift amount is taken mod EW. -/
def Obligations.VectorIntegerResults : Prop :=
  ∀ s : State,
    let w := nextWidth s
    let A (r : BitVec 5) (e : Nat) : Int := signExt (el s r.toNat e w) w
    let N (r : BitVec 5) (e : Nat) : Nat := el s r.toNat e w
    let cut (v : Int) : Nat := (v % (2 ^ w : Nat)).toNat
    (∀ f : OpV,
      let gives (i : Instr) (v : Nat → Nat) : Prop := Runs i s →
        Elementwise i s f.vd.toNat f.pred.toNat v fun e => elP s f.va.toNat e w || elP s f.vb.toNat e w
      gives (.vadd f) (fun e => cut (A f.va e + A f.vb e)) ∧ gives (.vsub f) (fun e => cut (A f.va e - A f.vb e)) ∧
      gives (.vmul f) (fun e => cut (A f.va e * A f.vb e)) ∧ gives (.vmulh f) (fun e => cut (A f.va e * A f.vb e / (2 ^ w : Nat))) ∧
      gives (.vmulhn f) (fun e => N f.va e * N f.vb e / 2 ^ w) ∧ gives (.vand f) (fun e => N f.va e &&& N f.vb e) ∧
      gives (.vor f) (fun e => N f.va e ||| N f.vb e) ∧ gives (.vxor f) (fun e => N f.va e ^^^ N f.vb e) ∧
      gives (.vsll f) (fun e => N f.va e * 2 ^ (N f.vb e % w)) ∧ gives (.vsrl f) (fun e => N f.va e / 2 ^ (N f.vb e % w)) ∧
      gives (.vsra f) (fun e => cut (A f.va e / (2 ^ (N f.vb e % w) : Nat))) ∧
      gives (.vmin f) (fun e => if A f.va e ≤ A f.vb e then N f.va e else N f.vb e) ∧
      gives (.vmax f) (fun e => if A f.va e ≤ A f.vb e then N f.vb e else N f.va e) ∧
      gives (.vminn f) (fun e => min (N f.va e) (N f.vb e)) ∧ gives (.vmaxn f) (fun e => max (N f.va e) (N f.vb e))) ∧
    (∀ f : OpVS,
      let n := (readX s f.xb).toNat % 2 ^ w
      let x : Int := signExt n w
      let gives (i : Instr) (v : Nat → Nat) : Prop := Runs i s → Elementwise i s f.vd.toNat f.pred.toNat v fun e => elP s f.va.toNat e w
      gives (.vaddVx f) (fun e => cut (A f.va e + x)) ∧ gives (.vsubVx f) (fun e => cut (A f.va e - x)) ∧
      gives (.vrsubVx f) (fun e => cut (x - A f.va e)) ∧ gives (.vmulVx f) (fun e => cut (A f.va e * x)) ∧
      gives (.vandVx f) (fun e => N f.va e &&& n) ∧ gives (.vorVx f) (fun e => N f.va e ||| n) ∧ gives (.vxorVx f) (fun e => N f.va e ^^^ n) ∧
      gives (.vsllVx f) (fun e => N f.va e * 2 ^ (n % w)) ∧ gives (.vsrlVx f) (fun e => N f.va e / 2 ^ (n % w)) ∧
      gives (.vsraVx f) (fun e => cut (A f.va e / (2 ^ (n % w) : Nat))) ∧ gives (.vminVx f) (fun e => if A f.va e ≤ x then N f.va e else n) ∧
      gives (.vmaxVx f) (fun e => if A f.va e ≤ x then n else N f.va e) ∧
      (Runs (.vbcast f) s → Elementwise (.vbcast f) s f.vd.toNat f.pred.toNat (fun _ => n) fun _ => false))

/-- R110, R111, R122, R126 to R129, R142: the floating-point operations round the exact result once, under the rounding mode as it stands at posting; minimum,
maximum and the sign operations give the canonical NaN for a NaN and rank −0 below +0; the exact-error members always round to nearest-even.
R110, R126: a quotient or square root is one `Round` of the exact one, with the special values of R126; the exact root of N is told from its neighbours by
the floor of the root of N × 2^256 and whether that is exact.
R129 to R131: the exact error of a sum or product; the estimates from the exponent E and the top seven fraction bits T of the normalised operand. -/
def Obligations.VectorFloatResults : Prop :=
  ∀ s : State,
    let w := nextWidth s
    let F := vfmt w
    let m := s.hart.rmode.toNat % 4
    let P (r : BitVec 5) (e : Nat) : Nat := el s r.toNat e w
    let V (r : BitVec 5) (e : Nat) : FVal := F.decode (P r e)
    let sign (v : Nat) : Nat := v / 2 ^ (w - 1) % 2
    let err (a b x : FVal) : Nat :=
      match a, b, F.decode (F.round 0 x) with
      | .fin _ _ _, .fin _ _ _, .fin n k e =>
        let r := x.add 0 (FVal.fin n k e).neg
        if r.isZero then 0 else F.round 0 r
      | _, _, _ => 0
    (∀ f : OpV,
      let two (i : Instr) (v : Nat → Nat) : Prop := Runs i s →
        Elementwise i s f.vd.toNat f.pred.toNat v fun e => elP s f.va.toNat e w || elP s f.vb.toNat e w
      let one (i : Instr) (v : Nat → Nat) : Prop := Runs i s → Elementwise i s f.vd.toNat f.pred.toNat v fun e => elP s f.va.toNat e w
      let fused (i : Instr) (v : Nat → FVal) : Prop := Runs i s → Elementwise i s f.vd.toNat f.pred.toNat (fun e => F.round m (v e))
        fun e => elP s f.va.toNat e w || elP s f.vb.toNat e w || elP s f.vd.toNat e w
      let nan (e : Nat) : Bool := (V f.va e).isNan || (V f.vb e).isNan
      two (.vfadd f) (fun e => F.round m ((V f.va e).add m (V f.vb e))) ∧ two (.vfsub f) (fun e => F.round m ((V f.va e).add m (V f.vb e).neg)) ∧
      two (.vfmul f) (fun e => F.round m ((V f.va e).mul (V f.vb e))) ∧ two (.vfdiv f) (fun e => divRound F m (V f.va e) (V f.vb e)) ∧
      two (.vfmin f) (fun e => if nan e then F.nan else if (V f.va e).lt (V f.vb e) then P f.va e else if (V f.vb e).lt (V f.va e) then P f.vb e
        else if (V f.va e).signOf then P f.va e else P f.vb e) ∧
      two (.vfmax f) (fun e => if nan e then F.nan else if (V f.va e).lt (V f.vb e) then P f.vb e else if (V f.vb e).lt (V f.va e) then P f.va e
        else if (V f.va e).signOf then P f.vb e else P f.va e) ∧
      two (.vfsgnj f) (fun e => if (V f.va e).isNan then F.nan else P f.va e % 2 ^ (w - 1) + sign (P f.vb e) * 2 ^ (w - 1)) ∧
      two (.vfaerr f) (fun e => err (V f.va e) (V f.vb e) ((V f.va e).add 0 (V f.vb e))) ∧
      two (.vfmerr f) (fun e => err (V f.va e) (V f.vb e) ((V f.va e).mul (V f.vb e))) ∧
      one (.vfsqrt f) (fun e => sqrtRound F m (V f.va e)) ∧
      one (.vfabs f) (fun e => if (V f.va e).isNan then F.nan else P f.va e % 2 ^ (w - 1)) ∧
      one (.vfneg f) (fun e => if (V f.va e).isNan then F.nan else P f.va e % 2 ^ (w - 1) + (1 - sign (P f.va e)) * 2 ^ (w - 1)) ∧
      one (.vfrecipEst f) (fun e => fRecip w (P f.va e)) ∧
      one (.vfrsqrtEst f) (fun e => fRsqrt w (P f.va e)) ∧
      (let prod (e : Nat) : FVal := (V f.va e).mul (V f.vb e)
      let c (e : Nat) : FVal := V f.vd e
      fused (.vfma f) (fun e => (prod e).add m (c e)) ∧ fused (.vfms f) (fun e => (prod e).add m (c e).neg) ∧
      fused (.vfnma f) (fun e => (prod e).neg.add m (c e)) ∧ fused (.vfnms f) (fun e => (prod e).neg.add m (c e).neg))) ∧
    (∀ f : OpVS,
      let x := F.decode ((readX s f.xb).toNat % 2 ^ w)
      (Runs (.vfaddVx f) s →
        Elementwise (.vfaddVx f) s f.vd.toNat f.pred.toNat (fun e => F.round m ((V f.va e).add m x)) fun e => elP s f.va.toNat e w) ∧
      (Runs (.vfmulVx f) s → Elementwise (.vfmulVx f) s f.vd.toNat f.pred.toNat (fun e => F.round m ((V f.va e).mul x)) fun e => elP s f.va.toNat e w) ∧
      (Runs (.vfmaVx f) s → Elementwise (.vfmaVx f) s f.vd.toNat f.pred.toNat (fun e => F.round m (((V f.va e).mul x).add m (V f.vd e)))
        fun e => elP s f.va.toNat e w || elP s f.vd.toNat e w)) ∧
    (let quot := divRound F m
    let root := sqrtRound F m
    (∀ x, quot .nan x = F.nan ∧ quot x .nan = F.nan) ∧
    (∀ a b k e, quot (.inf a) (.inf b) = F.nan ∧ quot (.inf a) (.fin b k e) = F.inf (a != b) ∧ quot (.fin b k e) (.inf a) = F.sign (b != a)) ∧
    (∀ (a b : Bool) (j k : Nat) (i e : Int), j ≠ 0 →
      quot (.fin a 0 i) (.fin b 0 e) = F.nan ∧ quot (.fin a j i) (.fin b 0 e) = F.inf (a != b) ∧ quot (.fin a 0 i) (.fin b j e) = F.sign (a != b) ∧
      (k ≠ 0 → quot (.fin a j i) (.fin b k e) = F.roundRat m (a != b) (j * 2 ^ (i - e).toNat) (k * 2 ^ (e - i).toNat))) ∧
    root .nan = F.nan ∧ root (.inf true) = F.nan ∧ root (.inf false) = F.inf false ∧ (∀ n e, root (.fin n 0 e) = F.sign n) ∧
    (∀ k e, k ≠ 0 → root (.fin true k e) = F.nan) ∧
    (∀ (k o r : Nat) (e : Int), k ≠ 0 → o < 2 → r * r ≤ k * 2 ^ o * 2 ^ 256 → k * 2 ^ o * 2 ^ 256 < (r + 1) * (r + 1) →
      root (.fin false k (2 * e + o)) =
        let q := 2 * r + (if r * r = k * 2 ^ o * 2 ^ 256 then 0 else 1)
        F.roundRat m false (q * 2 ^ (e - 129).toNat) (2 ^ (129 - e).toNat))) ∧
    (∀ a : Nat,
      let x := F.decode a
      (x = .nan → fRecip w a = F.nan ∧ fRsqrt w a = F.nan) ∧
      (∀ n, x = .inf n → fRecip w a = F.sign n ∧ fRsqrt w a = if n then F.nan else 0) ∧
      (∀ n e, x = .fin n 0 e → fRecip w a = F.inf n ∧ fRsqrt w a = F.inf n) ∧
      (∀ n k e, x = .fin n k e → k ≠ 0 →
        let E : Int := k.log2 + e
        let T := k * 128 / 2 ^ k.log2 - 128
        fRecip w a = F.round 0 (.fin n (65536 / (257 + 2 * T)) (-E - 8)) ∧ (n = true → fRsqrt w a = F.nan) ∧
        (∀ h o q : Nat, ∀ H : Int, E = 2 * H + o → o < 2 → h = (257 + 2 * T) * 2 ^ o → q * q * h ≤ 2 ^ 24 → 2 ^ 24 < (q + 1) * (q + 1) * h → n = false →
          fRsqrt w a = F.round 0 (.fin false q (-H - 8)))))

/-- R125: `vsel` takes va where its predicate is active and vb where it is not, in every body element, whatever MZ says; with predicate 0 it copies va. R127:
`vfclass` gives the one bit of the class that the sign, the exponent field and the fraction of the pattern say. -/
def Obligations.SelectAndClassify : Prop :=
  ∀ (f : OpV) (s : State),
    let w := nextWidth s
    (Runs (.vsel f) s → VectorResult (.vsel f) s f.vd.toNat fun t =>
      let d := f.vd.toNat
      ∀ e, e < 32768 / w →
        let r := if active s f.pred.toNat e then f.va.toNat else f.vb.toNat
        (inBody s e → el t d e w = el s r e w ∧ elP t d e w = (elP s r e w || activeP s f.pred.toNat e)) ∧
        (zeroedBytes s e → el t d e w = 0 ∧ elP t d e w = false) ∧
        (¬inBody s e → ¬zeroedBytes s e → el t d e w = el s d e w ∧ elP t d e w = elP s d e w)) ∧
    (f.pred = 0 → ∀ e, active s f.pred.toNat e = true) ∧
    (Runs (.vfclass f) s →
      let E := if w = 64 then 11 else 8
      let M := w - 1 - E
      let cls (a : Nat) : Nat :=
        let neg := a / 2 ^ (w - 1) % 2 = 1
        if a / 2 ^ M % 2 ^ E = 2 ^ E - 1 then (if a % 2 ^ M ≠ 0 then 8 else if neg then 0 else 7)
        else if a / 2 ^ M % 2 ^ E ≠ 0 then (if neg then 1 else 6)
        else if a % 2 ^ M ≠ 0 then (if neg then 2 else 5)
        else if neg then 3 else 4
      Elementwise (.vfclass f) s f.vd.toNat f.pred.toNat (fun e => 2 ^ cls (el s f.va.toNat e w)) fun e => elP s f.va.toNat e w)

/-- R111, R115: rounding a value that a format represents gives its own pattern, in every mode: the patterns of an IEEE format that are not NaN, and
those of a valid narrow descriptor. -/
def Obligations.RoundingKeepsRepresented : Prop :=
  (∀ (d : Word) (mode v : Nat), descValid d = true → v < 2 ^ descWid d → (descFmt d).decode v ≠ .nan →
    (descFmt d).round mode ((descFmt d).decode v) = v) ∧
  (∀ F ∈ [Fmt.bf16, Fmt.h16, Fmt.f32, Fmt.f64], ∀ mode u, u < 2 ^ F.wid → F.decode u ≠ .nan → F.round mode (F.decode u) = u)

/-- R106, R123, R132: the compares write predicate d (p1 to p15) bit by bit. -/
def Obligations.VectorCompareResults : Prop :=
  ∀ (f : OpV) (s : State), f.vd.toNat < 16 →
    let w := nextWidth s
    let A (r : BitVec 5) (e : Nat) : Int := signExt (el s r.toNat e w) w
    let N (r : BitVec 5) (e : Nat) : Nat := el s r.toNat e w
    let V (r : BitVec 5) (e : Nat) : FVal := (vfmt w).decode (N r e)
    let gives (i : Instr) (v : Nat → Bool) : Prop := Runs i s →
      Bitwise i s f.vd.toNat f.pred.toNat v fun e => elP s f.va.toNat e w || elP s f.vb.toNat e w
    gives (.vceq f) (fun e => decide (N f.va e = N f.vb e)) ∧ gives (.vclt f) (fun e => decide (A f.va e < A f.vb e)) ∧
    gives (.vcle f) (fun e => decide (A f.va e ≤ A f.vb e)) ∧ gives (.vcltn f) (fun e => decide (N f.va e < N f.vb e)) ∧
    gives (.vclen f) (fun e => decide (N f.va e ≤ N f.vb e)) ∧ gives (.vfceq f) (fun e => (V f.va e).eq (V f.vb e)) ∧
    gives (.vfclt f) (fun e => (V f.va e).lt (V f.vb e)) ∧ gives (.vfcle f) (fun e => (V f.va e).lt (V f.vb e) || (V f.va e).eq (V f.vb e))

/-- R133 to R136: a conversion to an integer, an IEEE format or an unscaled narrow format, from every source: an integer source saturates to an integer
destination; a floating source is rounded to an integer and saturated; every other conversion is one `Round`.
R117 to R119: a conversion to a scaled narrow format derives one scale for each block from its active body elements, writes its byte in the scale register, and rounds each
of those elements divided by it, saturating to MaxFin; a block with no such element keeps its byte. With an infinity or NaN among them the byte is the NaN byte of the scale
format and the elements are 0; with nothing but zeros the byte is 0. The blocks of the clause have no poisoned element and no poisoned predicate bit.
(With a MaxFin of zero the scale is a free value, log entry 93; the clauses on the scale leave that out.) -/
def Obligations.ConversionResults : Prop :=
  (∀ (f : OpCv) (s : State), Runs (.vcvt f) s → 4 ≤ f.fn.toNat → descScl s.hart.fmt[f.fn.toNat % 4] ≠ 0 →
    let u := begun s (.vcvt f)
    let w := nextWidth s
    let n := f.fn.toNat % 4
    let b := blockOf s.hart.fmt[n]
    let es (j : Nat) : List Nat := (activeBody s f.pred.toNat).filter fun e => e / b = j
    let scale (j : Nat) := deriveScale s.hart.fmt[n] (s.hart.rmode.toNat % 4) ((es j).map fun e => (cvtSrc u f e).1.toF)
    ∃ t, exec (.vcvt f) s = .next t ∧ t.hart.x = s.hart.x ∧ t.hart.p = s.hart.p ∧ t.mem = s.mem ∧ t.hart.vl = nextLen s ∧
      (∀ r : Fin 32, r.val ≠ f.vd.toNat → t.hart.v[r] = s.hart.v[r]) ∧
      ∀ j, j * b < nextLen s → j < 1024 →
        (es j = [] → scaleByte t n j = scaleByte s n j) ∧
        (es j ≠ [] → (∀ e ∈ es j, (cvtSrc u f e).2 = false ∧ activeP s f.pred.toNat e = false) →
          scaleByte t n j = (scale j).1 % 256 ∧ scaleP t n j = false ∧
          ∀ e ∈ es j, e < 32768 / w → el t f.vd.toNat e w = (scale j).2 (cvtSrc u f e).1.toF % 2 ^ w ∧ elP t f.vd.toNat e w = false)) ∧
  (∀ (d : Word) (m : Nat) (vals : List FVal),
    let F := descFmt d
    let scl := descScl d
    let r := deriveScale d m vals
    let top := (F.decode F.maxFin).mag
    ((∃ v ∈ vals, ∀ n k e, v ≠ .fin n k e) → r.1 = (if scl = 1 then 255 else 0x7F) ∧ ∀ v, r.2 v = 0) ∧
    ((∀ v ∈ vals, ∃ n e, v = .fin n 0 e) → r.1 = 0 ∧ ∀ v, r.2 v = F.round m v) ∧
    (∀ v ∈ vals, (∀ u ∈ vals, ∃ n k e, u = .fin n k e) → v.mag.1 ≠ 0 → top.1 ≠ 0 → (∀ u ∈ vals, u.mag.1 * v.mag.2 ≤ v.mag.1 * u.mag.2) →
      (scl = 1 → r.1 = (min (max (floorLog2 v.mag.1 v.mag.2 - floorLog2 top.1 top.2 + 127) 0) 254).toNat) ∧
      (scl = 2 → r.1 = min (Fmt.e4m3.roundRat 2 false (v.mag.1 * top.2) (v.mag.2 * top.1)) 0x7E) ∧
      (scl = 1 ∨ scl = 2 → let q := (scaleOf scl r.1).mag
        ∀ n k e, r.2 (.fin n k e) = if k = 0 then F.round m (.fin n k e)
          else F.roundRat m n (k * (pow2 e).1 * q.2) ((pow2 e).2 * q.1) true))) ∧
  ∀ (f : OpCv) (s : State), Runs (.vcvt f) s → ¬(4 ≤ f.fn.toNat ∧ descScl s.hart.fmt[f.fn.toNat % 4] ≠ 0) →
    let u := begun s (.vcvt f)
    let w := nextWidth s
    let m := s.hart.rmode.toNat % 4
    let src (e : Nat) : CvtVal := (cvtSrc u f e).1
    let gives (v : Nat → Nat) : Prop := Elementwise (.vcvt f) s f.vd.toNat f.pred.toNat v fun e => (cvtSrc u f e).2
    let cut (v : Int) : Nat := (v % (2 ^ w : Nat)).toNat
    (f.fn = 0 → gives fun e => cut ((src e).toInt m true w)) ∧ (f.fn = 1 → gives fun e => cut ((src e).toInt m false w)) ∧
    (f.fn = 2 → gives fun e => (if w = 16 then Fmt.h16 else if w = 32 then Fmt.f32 else Fmt.f64).round m (src e).toF) ∧
    (f.fn = 3 → gives fun e => Fmt.bf16.round m (src e).toF) ∧
    (4 ≤ f.fn.toNat → gives fun e => (descFmt s.hart.fmt[f.fn.toNat % 4]).round m (src e).toF) ∧
    (∀ x : Int, (CvtVal.int x).toInt m true w = satS x w ∧ (CvtVal.int x).toInt m false w = satN x w) ∧
    (CvtVal.flt .nan).toInt m true w = 0 ∧ (CvtVal.flt .nan).toInt m false w = 0 ∧
    (∀ (n : Bool) (k : Nat) (e : Int), (CvtVal.flt (.fin n k e)).toInt m true w = satS (roundInt m n k e) w)

/-- R106, R123, R137, R138: the permutes. Those that select by position take element by element; `vcompress` packs the active elements in order, and zeroes the
rest of the register when TZ is set. (Which elements a poisoned predicate bit poisons beside the one that it governs, those above it in `vexpand` and the packed ones from
it on in `vcompress`, is the model's reading, log entries 94 and 107.) -/
def Obligations.PermuteResults : Prop :=
  ∀ (f : OpV) (s : State),
    let w := nextWidth s
    let top := vrlen s * 8 / w
    let A (e : Nat) : Nat := el s f.va.toNat e w
    let B (e : Nat) : Nat := el s f.vb.toNat e w
    let pA (e : Nat) : Bool := elP s f.va.toNat e w
    let pB (e : Nat) : Bool := elP s f.vb.toNat e w
    let off := (readX s f.vb).toNat
    let p := f.pred.toNat
    let gives (i : Instr) (v : Nat → Nat) (q : Nat → Bool) : Prop := Runs i s → Elementwise i s f.vd.toNat p v q
    gives (.vperm f) (fun e => if B e < top then A (B e) else 0) (fun e => (decide (B e < top) && pA (B e)) || pB e) ∧
    gives (.vslideup f) (fun e => if off ≤ e then A (e - off) else el s f.vd.toNat e w)
      (fun e => if off ≤ e then pA (e - off) else elP s f.vd.toNat e w) ∧
    gives (.vslidedown f) (fun e => if e + off < top then A (e + off) else 0) (fun e => decide (e + off < top) && pA (e + off)) ∧
    gives (.vexpand f) (fun e => A (rank s p e)) (fun e => pA (rank s p e) || (List.range e).any fun j => activeP s p j) ∧
    gives (.vmv f) A pA ∧
    gives (.vzip f) (fun e => if e % 2 = 0 then A (e / 2) else B ((e - 1) / 2)) (fun e => if e % 2 = 0 then pA (e / 2) else pB ((e - 1) / 2)) ∧
    gives (.vunzip f) (fun e => if 2 * e < nextLen s then A (2 * e) else B (2 * e - nextLen s))
      (fun e => if 2 * e < nextLen s then pA (2 * e) else pB (2 * e - nextLen s)) ∧
    (Runs (.vcompress f) s → VectorResult (.vcompress f) s f.vd.toNat fun t =>
      let d := f.vd.toNat
      (∀ e, e < nextLen s → active s p e = true → rank s p e < 32768 / w →
        el t d (rank s p e) w = A e ∧ elP t d (rank s p e) w = (pA e || (List.range (e + 1)).any fun j => activeP s p j)) ∧
      (∀ k, k < 32768 / w → rank s p (nextLen s) ≤ k →
        (bitN (nextType s).toNat 3 = true → 0 < nextLen s → el t d k w = 0 ∧ elP t d k w = false) ∧
        (bitN (nextType s).toNat 3 = false ∨ nextLen s = 0 → el t d k w = el s d k w ∧ elP t d k w = elP s d k w)))

/-- R139, R140: a reduction that reads no poison writes its result to x[d]. `vfold.add` gives the sum of the signed elements mod 2^64 whatever the order; the
integer minima and maxima give the least or greatest active element; every floating-point reduction gives the root of R139's tree, a NaN as the canonical one;
each gives its empty value when no element is active. -/
def Obligations.FoldResults : Prop :=
  ∀ (f : OpV) (s : State),
    let w := nextWidth s
    let n := nextLen s
    let r := f.va.toNat
    let p := f.pred.toNat
    let es := (List.range n).filter fun e => active s p e
    let A (e : Nat) : Int := signExt (el s r e w) w
    let N (e : Nat) : Nat := el s r e w
    let some' (e : Nat) : Option Nat := if e < n && active s p e then some (el s r e w) else none
    let F := vfmt w
    let m := s.hart.rmode.toNat % 4
    let canon (v : Nat) : Nat := if (F.decode v).isNan then F.nan else v
    ¬readsPoisonBelow s p r n w →
      let gives (i : Instr) (v : Word) : Prop := ScalarResult i s f.vd v
      (Runs (.vfoldAdd f) s → gives (.vfoldAdd f) (BitVec.ofInt 64 (es.map A).sum)) ∧
      (Runs (.vfoldMin f) s → (es = [] → gives (.vfoldMin f) (BitVec.ofInt 64 (2 ^ (w - 1) - 1))) ∧
        (∀ e ∈ es, (∀ j ∈ es, A e ≤ A j) → gives (.vfoldMin f) (BitVec.ofInt 64 (A e)))) ∧
      (Runs (.vfoldMax f) s → (es = [] → gives (.vfoldMax f) (BitVec.ofInt 64 (-2 ^ (w - 1)))) ∧
        (∀ e ∈ es, (∀ j ∈ es, A j ≤ A e) → gives (.vfoldMax f) (BitVec.ofInt 64 (A e)))) ∧
      (Runs (.vfoldMinn f) s → (es = [] → gives (.vfoldMinn f) (W (2 ^ w - 1))) ∧
        (∀ e ∈ es, (∀ j ∈ es, N e ≤ N j) → gives (.vfoldMinn f) (W (N e)))) ∧
      (Runs (.vfoldMaxn f) s → (es = [] → gives (.vfoldMaxn f) 0) ∧ (∀ e ∈ es, (∀ j ∈ es, N j ≤ N e) → gives (.vfoldMaxn f) (W (N e)))) ∧
      (∀ j, n ≤ 2 ^ j →
        (Runs (.vfoldFadd f) s → gives (.vfoldFadd f)
          (W ((treeNode (fun a b => F.round m ((F.decode a).add m (F.decode b))) some' j 0).elim 0 canon))) ∧
        (Runs (.vfoldFmin f) s → gives (.vfoldFmin f) (W ((treeNode (fminIn F) some' j 0).elim (F.inf false) canon))) ∧
        (Runs (.vfoldFmax f) s → gives (.vfoldFmax f) (W ((treeNode (fmaxIn F) some' j 0).elim (F.inf true) canon))))

/-- R102, R123, R141: the predicate operations; `pcount` and `pfirst` read the bits below `vl` whatever `vstart` is, and need them free of poison. -/
def Obligations.PredicateResults : Prop :=
  ∀ (f : OpV) (s : State),
    let a (e : Nat) : Bool := active s f.va.toNat e
    let b (e : Nat) : Bool := active s f.vb.toNat e
    let pois (e : Nat) : Bool := activeP s f.va.toNat e || activeP s f.vb.toNat e
    (f.vd.toNat < 16 →
      let gives (i : Instr) (v q : Nat → Bool) : Prop := Runs i s → Bitwise i s f.vd.toNat f.pred.toNat v q
      gives (.pand f) (fun e => a e && b e) pois ∧ gives (.por f) (fun e => a e || b e) pois ∧ gives (.pxor f) (fun e => a e != b e) pois ∧
      gives (.pandn f) (fun e => a e && !b e) pois ∧ gives (.plt f) (fun e => decide (e < (readX s f.va).toNat)) (fun _ => false) ∧
      (f.pred = 0 → gives (.pgetsm f) (fun e => s.hart.psm.getLsbD e) fun _ => false)) ∧
    ((∀ e, e < nextLen s → activeP s f.va.toNat e = false) →
      (Runs (.pcount f) s → ScalarResult (.pcount f) s f.vd (W (rank s f.va.toNat (nextLen s)))) ∧
      (Runs (.pfirst f) s →
        ((∀ e, e < nextLen s → a e = false) → ScalarResult (.pfirst f) s f.vd (BitVec.allOnes 64)) ∧
        (∀ e, e < nextLen s → a e = true → (∀ j, j < e → a j = false) → ScalarResult (.pfirst f) s f.vd (W e))))

/-! ### Convoys -/

/-- R19, R20, R49, R53: every vector-class instruction that is ready runs as a convoy of its own when it executes: it retires with what its member has written,
it waits at the head of the vector queue, or it stops at an element. (That it is posted, performed and retired in the one turn, a linked instruction too, is the
model's reading: log entry 78.) -/
def Obligations.ConvoyOfOne : Prop :=
  ∀ (i : Instr) (m : Member) (s : State), memberOf i = some m → Ready i m s →
    let c := (m.run (begun s i)).hart.cur
    let u := settled s i
    (c.fault = none → c.wait = none → exec i s = .next (retire u (ranOne s i m) 1) ∧
      (retire u (ranOne s i m) 1).hart.vstart = 0 ∧ (retire u (ranOne s i m) 1).hart.vl = c.vl) ∧
    (c.wait ≠ none → (∀ k j t, c.fault = some (k, j, t) → s.hart.vstart < k) → faultBelow (begun s i) [m] (ranOne s i m) = none →
      exec i s = .next (keepHead u (ranOne s i m) (mkConvoy s [i]))) ∧
    (∀ k j t, c.fault = some (k, j, t) → c.wait = none →
      exec i s = .next (stopConvoy (keepWalked u (c.walked ++ c.walked)) (mkConvoy s [i]) [m] k j t c.taken (ranOne s i m).hart.pennants c.blame))

/-- R19, R49, R90, R105: a member that fails its decode check traps precisely, with the first word of the instruction, before anything is posted; the integer
members do so at EW 2 and 4, the floating-point members at EW 2, 4 and 8. A whole member that is reached with `vstart` ≠ 0 stops the queue with ILLEGAL. -/
def Obligations.MemberConditions : Prop :=
  ∀ s : State,
    (∀ i m c, memberOf i = some m → m.check (dctx s) = some c → exec i s = .next (takeTrap s c (W (encode i)))) ∧
    (∀ f : OpV, (dctx s).ew < 8 → ∀ i ∈ [Instr.vadd f, .vsub f, .vmul f, .vmulh f, .vmulhn f, .vand f, .vor f, .vxor f, .vsll f, .vsrl f, .vsra f, .vmin f, .vmax f, .vminn f, .vmaxn f,
        .vceq f, .vclt f, .vcle f, .vcltn f, .vclen f],
      exec i s = .next (takeTrap s .illegal (W (encode i)))) ∧
    (∀ f : OpV, (dctx s).ew < 16 → ∀ i ∈ [Instr.vfadd f, .vfsub f, .vfmul f, .vfdiv f, .vfmin f, .vfmax f, .vfsqrt f, .vfabs f, .vfneg f,
        .vfclass f, .vfsgnj f, .vfma f, .vfms f, .vfnma f, .vfnms f, .vfaerr f, .vfmerr f, .vfrecipEst f, .vfrsqrtEst f, .vfceq f, .vfclt f, .vfcle f],
      exec i s = .next (takeTrap s .illegal (W (encode i)))) ∧
    (∀ i m, memberOf i = some m → s.hart.vq = [] → postWait s [i] = none → m.check (dctx s) = none → m.whole = true → s.hart.vstart ≠ 0 →
      ∃ t, exec i s = .next t ∧ t.hart.run = .stopped ∧ t.hart.cause = 1 ∧ t.hart.epc = s.hart.pc ∧ t.hart.tval = W (encode i) ∧ t.hart.member = 0 ∧
        t.hart.vstart = s.hart.vstart ∧ t.hart.v = s.hart.v ∧ t.hart.x = s.hart.x)

/-- R90, R91, R95: a condition that a member finds stops the vector queue imprecisely: class F holds the cause, the convoy's address, the value and the member;
`vstart` is the element, 0 for a whole member, of which no result stands and, outside a splice, no store; the convoy keeps its place with the `vl` and `vtype` it was posted with, and the
sequencer will resume behind it. -/
def Obligations.ElementStops : Prop :=
  ∀ (i : Instr) (m : Member) (s : State) (k j : Nat) (tr : Trap), memberOf i = some m → Ready i m s → tr.cause ≠ .halt →
    (m.run (begun s i)).hart.cur.fault = some (k, j, tr) → (m.run (begun s i)).hart.cur.wait = none → (m.run (begun s i)).hart.cur.blame = none →
    ∃ t p c, exec i s = .next t ∧ t.hart.run = .stopped ∧ t.hart.cause = BitVec.ofNat 8 tr.cause.code ∧ t.hart.epc = s.hart.pc ∧ t.hart.tval = tr.tval ∧
      t.hart.member = BitVec.ofNat 2 j ∧ t.hart.vstart = (if m.whole then 0 else max (k / m.block (curDctx (begun s i)) * m.block (curDctx (begun s i))) s.hart.vstart) ∧
      t.hart.stop = some p ∧ p.queue = .vector ∧ p.rpc = s.hart.pc + W (if s.hart.splice.isSome then 8 else i.bits / 8) ∧ p.vl = nextLen s ∧ p.vtype = nextType s ∧
      t.hart.vq = [c] ∧ c.members = [i] ∧ c.setVl = some (nextLen s, nextType s) ∧ c.addr = s.hart.pc ∧
      (m.whole = true → t.hart.v = s.hart.v ∧ t.hart.vp = s.hart.vp ∧ t.hart.p = s.hart.p ∧ t.hart.x = s.hart.x ∧
        (s.hart.splice = none → t.hart.storeQ = (settled s i).hart.storeQ))

/-! ### Vector memory -/

/-- R147, R148, R150, R152, R153, R340: the loads whose active body elements are all reached: each element is what the hart reads at the element's address,
converted from its memory format. A first-fault load is then a plain one, and so is a linked load outside a splice, whose predicate field is a tag. The addresses of
the unit-stride, strided and indexed forms are written out; a poisoned index is a POISON condition. R174: a gather some of whose elements miss their scope sets their
bits of `psm` and loads the others. (That a poisoned predicate bit poisons the loaded element is the model's reading, log entry 95.) -/
def Obligations.VectorLoadResults : Prop :=
  ∀ s : State,
    let gives (i : Instr) (d p : Nat) (go : State → Foot → Acc → State × Found) (foot : Nat → Except Trap Foot) : Prop :=
      Runs i s → LoadsReach i s p go foot → Elementwise i s d p (fun e => (loaded i s go foot e).1) fun e => (loaded i s go foot e).2
    (∀ f : OpVM,
      let unit (i : Instr) := footUnit (begun s i) f.a
      gives (.vld f) f.vd.toNat f.pred.toNat reach (unit (.vld f)) ∧ gives (.vldFf f) f.vd.toNat f.pred.toNat reach (unit (.vldFf f)) ∧
      gives (.vlds f) f.vd.toNat f.pred.toNat reach (footStride (begun s (.vlds f)) f.a f.b) ∧
      (s.hart.splice = none →
        gives (.vldXn f) f.vd.toNat 0 reach (unit (.vldXn f)) ∧ gives (.vldXtn f) f.vd.toNat 0 reach (unit (.vldXtn f)))) ∧
    (∀ f : OpVMX, gives (.vldx f) f.vd.toNat f.pred.toNat (reachScoped f.sc.toNat) (footIndex (begun s (.vldx f)) f.a f.vb)) ∧
    (∀ (f : OpVMX) (miss : Nat → Bool), Runs (.vldx f) s →
      LoadedOrMissed (.vldx f) s f.vd.toNat f.pred.toNat (reachScoped f.sc.toNat) (footIndex (begun s (.vldx f)) f.a f.vb) miss) ∧
    (∀ (f : OpVMX) (e : Nat),
      let wi := match bitsN s.hart.memfmt.toNat 10 2 with
        | 0 => nextWidth s
        | 1 => 32
        | _ => 64
      let foot := footIndex (begun s (.vldx f)) f.a f.vb e
      (elGP s f.vb.toNat e wi = true → foot = .error ⟨.poison, 0⟩) ∧
      (elGP s f.vb.toNat e wi = false → foot = .ok
        { va := readX s f.a + W (elG s f.vb.toNat e wi * 2 ^ bitsN s.hart.memfmt.toNat 12 2), bit := 0, wm := memWidth (curSnap s.hart) (nextWidth s) })) ∧
    (∀ (f : OpVM) (e : Nat), footUnit (begun s (.vld f)) f.a e = .ok
      { va := readX s f.a + W (e * memWidth (curSnap s.hart) (nextWidth s) / 8), bit := e * memWidth (curSnap s.hart) (nextWidth s) % 8,
        wm := memWidth (curSnap s.hart) (nextWidth s) }) ∧
    (∀ (f : OpVM) (e : Nat), footStride (begun s (.vlds f)) f.a f.b e = .ok
      { va := readX s f.a + W e * readX s f.b, bit := 0, wm := memWidth (curSnap s.hart) (nextWidth s) })

/-- R147, R148, R151, R152, R169, R340: the stores whose active body elements each have one place: one queued store for each, in element order, and no register
or byte of memory changes. R174: elements of a scatter that miss their scope set their bits of `psm` and store nothing. (That a poisoned predicate bit poisons the stored
element is the model's reading, log entry 14.) -/
def Obligations.VectorStoreResults : Prop :=
  ∀ (s : State) (at' : Nat → Hit × Foot),
    let gives (i : Instr) (d p : Nat) (go : State → Foot → Acc → State × Found) (foot : Nat → Except Trap Foot) : Prop :=
      Runs i s → StoresReach i s p go foot at' (fun _ => false) → Stored i s d p at' fun _ => false
    (∀ f : OpVM,
      let unit (i : Instr) := footUnit (begun s i) f.a
      gives (.vst f) f.vd.toNat f.pred.toNat reach (unit (.vst f)) ∧
      gives (.vsts f) f.vd.toNat f.pred.toNat reach (footStride (begun s (.vsts f)) f.a f.b) ∧
      (s.hart.splice = none →
        gives (.vstXn f) f.vd.toNat 0 reach (unit (.vstXn f)) ∧ gives (.vstXtn f) f.vd.toNat 0 reach (unit (.vstXtn f)))) ∧
    (∀ f : OpVMX, gives (.vstx f) f.vd.toNat f.pred.toNat (reachScoped f.sc.toNat) (footIndex (begun s (.vstx f)) f.a f.vb)) ∧
    (∀ (f : OpVMX) (miss : Nat → Bool), Runs (.vstx f) s →
      StoresReach (.vstx f) s f.pred.toNat (reachScoped f.sc.toNat) (footIndex (begun s (.vstx f)) f.a f.vb) at' miss →
      Stored (.vstx f) s f.vd.toNat f.pred.toNat at' miss)

/-- R68, R175 to R178: the vector atomics and the combining forms on a convoy of one active element whose place is reached. (`cmp` is register d + 1.) The number and
the order of the elements of a longer convoy are ConvoyOfOne's. R174: one whose element misses its scope sets its bit of `psm` and updates nothing. (That a poisoned predicate bit
poisons what is stored and what is returned is the model's reading, log entries 14 and 95.) -/
def Obligations.VectorAtomicResults : Prop :=
  ∀ (f : OpVA) (s : State) (h : Hit) (va : Word), s.combining = [] → s.hart.vstart = 0 → nextLen s = 1 → active s f.pred.toNat 0 = true →
    let w := nextWidth s
    let F := vfmt w
    let m := s.hart.rmode.toNat % 4
    let v := el s f.vd.toNat 0 w
    let c := el s (f.vd.toNat + 1) 0 w
    let pv := elP s f.vd.toNat 0 w || activeP s f.pred.toNat 0
    let returns (i : Instr) (fp fresh : Bool) (g : Nat → Nat) : Prop := Runs i s →
      (AtomDone i s f h va fp fresh pv fun old => some (g old)) ∧ AtomMissed i s f fp f.rl va
    let combine (i : Instr) (fp : Bool) (op : Nat) : Prop := Runs i s → CombineDone i s f h va fp op pv v ∧ AtomMissed i s f fp false va
    returns (.vamoSwap f) false true (fun _ => v) ∧ returns (.vamoAdd f) false false (fun old => (old + v) % 2 ^ w) ∧
    returns (.vamoAnd f) false false (fun old => old &&& v) ∧ returns (.vamoOr f) false false (fun old => old ||| v) ∧
    returns (.vamoXor f) false false (fun old => old ^^^ v) ∧
    returns (.vamoMin f) false false (fun old => if signExt old w ≤ signExt v w then old else v) ∧
    returns (.vamoMax f) false false (fun old => if signExt old w ≤ signExt v w then v else old) ∧
    returns (.vamoMinn f) false false (fun old => min old v) ∧ returns (.vamoMaxn f) false false (fun old => max old v) ∧
    returns (.vamoFadd f) true false (fun old => F.round m ((F.decode old).add m (F.decode v))) ∧
    returns (.vamoFmin f) true false (fun old => fminIn F old v) ∧ returns (.vamoFmax f) true false (fun old => fmaxIn F old v) ∧
    (Runs (.vamoCas f) s →
      (AtomDone (.vamoCas f) s f h va false false (pv || elP s (f.vd.toNat + 1) 0 w) fun old => if old = c then some v else none) ∧
      AtomMissed (.vamoCas f) s f false f.rl va) ∧
    combine (.vamoAddCb f) false 1 ∧ combine (.vamoAndCb f) false 2 ∧ combine (.vamoOrCb f) false 3 ∧ combine (.vamoXorCb f) false 4 ∧
    combine (.vamoMinCb f) false 5 ∧ combine (.vamoMaxCb f) false 6 ∧ combine (.vamoMinnCb f) false 7 ∧ combine (.vamoMaxnCb f) false 8 ∧
    combine (.vamoFaddCb f) true 0 ∧ combine (.vamoFminCb f) true 1 ∧ combine (.vamoFmaxCb f) true 2

/-- R179: a `vwait` whose active body elements are all reached and not poisoned retires, with no result, when the condition of each holds, and waits at the head of
the vector queue when one does not.
R26, R39, R173, R291, R293: `vfence` retires with the hart's queued stores and all combining updates visible, and at `.du` waits until nothing of the vector queue
is pending for a Loft module; `dpb` waits for the durability of its epochs and ends one; the pennant members take the oldest pennant of their channel, or
post one once the stores are visible, and wait on an empty or full channel. That `vfence` and `pn.post` empty the whole store queue, scalar stores included, and every combining
entry is the model's choice (log entries 1 and 52): R173 asks less. -/
def Obligations.VectorWaitResults : Prop :=
  (∀ (f : OpVA) (s : State) (place : Nat → Hit) (va : Nat → Word), s.combining = [] →
     let w := nextWidth s
     let p := f.pred.toNat
     let rule (i : Instr) (c : Nat → Nat → Prop) : Prop := Runs i s →
       (∀ e ∈ activeBody s p, atomReach (begun s i) (begun s i) f .load e = (begun s i, .ok [(place e, w / 8)], va e) ∧
         readsPoison (begun s i) (place e).key (w / 8) = false) →
       let met (e : Nat) : Prop := c (hartRead (begun s i) (place e).key (w / 8)) (el s f.vd.toNat e w)
       ((∀ e ∈ activeBody s p, met e) → OnlyRetires i s) ∧ ((∃ e ∈ activeBody s p, ¬met e) → WaitsAtHead i s none)
     rule (.vwaitEq f) (fun x v => x = v) ∧ rule (.vwaitNe f) (fun x v => x ≠ v) ∧ rule (.vwaitGe f) (fun x v => signExt v w ≤ signExt x w) ∧
     rule (.vwaitLt f) (fun x v => signExt x w < signExt v w) ∧ rule (.vwaitGen f) (fun x v => v ≤ x) ∧ rule (.vwaitLtn f) (fun x v => x < v)) ∧
  (∀ s : State,
     let drained (t : State) : Prop := t.hart.storeQ = [] ∧ t.combining = [] ∧ t.mem = (retireWhere (drainAll s) fun _ => true).mem ∧ t.hart.v = s.hart.v ∧
       t.hart.x = s.hart.x ∧ t.hart.vq = []
     let chan (i : Instr) (c : BitVec 3) (l : List (BitVec 32)) : State :=
       { s with hart := { convoyEnd s i with pennants := s.hart.pennants.set (c.toNat % 6) l (Nat.mod_lt _ (by decide)) } }
     (∀ sc : BitVec 3, Runs (.vfence sc) s →
       (sc ≠ 6 ∨ vectorPending s = false → ∃ t, exec (.vfence sc) s = .next t ∧ drained t ∧ t.hart.pennants = s.hart.pennants) ∧
       (sc = 6 → vectorPending s = true → WaitsAtHead (.vfence sc) s none)) ∧
     (∀ f : OpDS, Runs (.dpb f) s →
       (persisted (begun s (.dpb f)) s.hart.epoch = true → OnlyRetires (.dpb f) s ∧ (convoyEnd s (.dpb f)).epoch = s.hart.epoch + 1) ∧
       (persisted (begun s (.dpb f)) s.hart.epoch = false → WaitsAtHead (.dpb f) s none)) ∧
     (∀ (b : Bool) (c : BitVec 3), Runs (.pnTake b c) s →
       (∀ x l, pnList s.hart c.toNat = x :: l → exec (.pnTake b c) s = .next (chan (.pnTake b c) c l)) ∧
       (pnList s.hart c.toNat = [] → WaitsAtHead (.pnTake b c) s (some (W c.toNat)))) ∧
     (∀ c : BitVec 3,
       let post (i : Instr) (v : BitVec 32) : Prop := Runs i s →
         ((pnList s.hart c.toNat).length < 64 → ∃ t, exec i s = .next t ∧ drained t ∧
           t.hart.pennants = s.hart.pennants.set (c.toNat % 6) (pnList s.hart c.toNat ++ [v]) (Nat.mod_lt _ (by decide))) ∧
         (64 ≤ (pnList s.hart c.toNat).length → WaitsAtHead i s (some (W c.toNat)))
       post (.pnPost c) 0 ∧ post (.pnPostVl c) (BitVec.ofNat 32 (nextLen s))))

/-- R180: `awin.decl` on bytes of the partition that nothing reserves declares the window, and every word of every copy is the identity of its operation. (Which of two conditions
is reported first, and that copies do not overlap rings or other copies, is log entry 111's.) -/
def Obligations.WindowDeclaration : Prop :=
  ∀ (f : OpAW) (s : State), MemoryOk s → Runs (.awinDecl f) s →
    let w := nextWidth s
    let n := w / 8
    let base := readX s f.a
    let len := (readX s f.b).toNat
    let lo := spBase + s.hart.stall * partBytes s
    let key := spadKey s.hart.core + (base.toNat + len * n - spBase)
    1 ≤ len → len ≤ 4096 → lo ≤ base.toNat → base.toNat + len * n + lanes s * len * n ≤ lo + partBytes s → base.toNat % n = 0 →
    reservedByte (dropWindow (begun s (.awinDecl f)) f.n.toNat) s.hart.core key (lanes s * len * n) = none →
    ∃ t, exec (.awinDecl f) s = .next t ∧ t.hart.win[f.n.toNat] = some { op := f.pred.toNat, w := w, table := base, len := len } ∧
      (∀ k, k < lanes s * len → Memory.readN t.mem (key + k * n) n = windowIdentity f.pred.toNat w) ∧ t.hart.v = s.hart.v ∧ t.hart.x = s.hart.x

/-! ### Tiles and summaries -/

/-- R186, R189 to R194, R196, R198: the outer products and the slice moves. A slice is read with flagged lines as NaN; a slice that is written is settled first;
a row or column number of 128 or more reads zeros and writes nothing. In protected mode a row whose copies differ is noted with the register that it went to, for the compare
(R204). The model's choices: an outer product with `vl` = 0 only retires (log entry 30), poison of the row and column predicates is not passed on (log entry 29), and what is
compared, and when, is log entry 100's. -/
def Obligations.MatrixResults : Prop :=
  ∀ (f : OpTile) (s : State),
    let T := s.hart.tile[f.t.toNat]
    let r := (readX s f.vb).toNat
    let sc (o : Nat) : Option Nat := if f.us then some (f.ks.toNat + o) else none
    let fsb := if f.kind = 1 then f.fsb else f.fsa
    let w := tileWidth f (curSnap s.hart)
    let rowOn (x : Nat) : Bool := active s f.rp.toNat x
    let A (i : Instr) (signed : Bool) := let b := begun s i
      laneOf b f.pred.toNat (regOperand b f.va.toNat w) (operandVal b f f.fsa signed) (sc 0)
    let B (i : Instr) (signed : Bool) := let b := begun s i
      laneOf b f.pred.toNat (regOperand b f.vb.toNat w) (operandVal b f fsb signed) (sc 1)
    let outer (i : Instr) (int signed neg : Bool) : Prop := Runs i s → OuterDone i s f int neg rowOn (A i signed) (B i signed)
    outer (.mopa f) false true false ∧ outer (.mops f) false true true ∧ outer (.mopi f) true true false ∧ outer (.mopn f) true false false ∧
    (Runs (.mopl f) s → let b := begun s (.mopl f)
      OuterDone (.mopl f) s f false false (fun x => rowOn x && decide (x < s.hart.lr))
        (laneOf b f.pred.toNat (latchOperand b w) (operandVal b f f.fsa true) (sc 0)) (B (.mopl f) true)) ∧
    (Runs (.mrowGet f) s → s.hart.prot = false ∨ T.differs = [] → Elementwise (.mrowGet f) s f.vd.toNat f.pred.toNat (fun e => if r < 128 ∧ e < 128 then tileRead T r e else 0)
      fun e => decide (r < 128 ∧ e < 128) && tileP T r e) ∧
    (∀ j, Runs (.mrowGet f) s → s.hart.prot = true → r < 128 → (r, j) ∈ T.differs → j < nextLen s → active s f.pred.toNat j = true →
      ∃ t, exec (.mrowGet f) s = .next t ∧ t.hart.unverified = [(f.vd.toNat, f.t.toNat, r)] ∧ t.hart.vq = [] ∧ t.hart.tile = s.hart.tile ∧ t.mem = s.mem) ∧
    (Runs (.mcolGet f) s → s.hart.prot = false ∨ T.differs = [] → Elementwise (.mcolGet f) s f.vd.toNat f.pred.toNat (fun e => if r < 128 ∧ e < 128 then tileRead T e r else 0)
      fun e => decide (r < 128 ∧ e < 128) && tileP T e r) ∧
    (let put (i : Instr) (col : Bool) : Prop := Runs i s →
      (128 ≤ r → OnlyRetires i s) ∧
      (r < 128 → ∃ t, exec i s = .next t ∧ t.hart.v = s.hart.v ∧ t.mem = s.mem ∧
        (let T0 := if col then settleCol T r else settleRow T r
        let T' := t.hart.tile[f.t.toNat]
        (∀ k : Fin 4, k.val ≠ f.t.toNat → t.hart.tile[k] = s.hart.tile[k]) ∧ T'.rowFlag = T0.rowFlag ∧ T'.colFlag = T0.colFlag ∧
        ∀ x y, x < 128 → y < 128 →
          let j := if col then x else y
          if (if col then y else x) = r ∧ j < nextLen s ∧ active s f.pred.toNat j = true then tileEl T' x y = elG s f.va.toNat j 32 % 2 ^ 32
          else tileEl T' x y = tileEl T0 x y))
    put (.mrowPut f) false ∧ put (.mcolPut f) true)

/-- R200: `mzero` leaves every element of its tile +0 and free of poison, all its flags clear and its dirty bit set, and changes nothing else. -/
def Obligations.TileZeroing : Prop :=
  ∀ (f : OpTile) (s : State), Runs (.mzero f) s → ∃ t, exec (.mzero f) s = .next t ∧
    t = { s with hart := { convoyEnd s (.mzero f) with tile := t.hart.tile, mdirty := s.hart.mdirty ||| BitVec.ofNat 4 (2 ^ f.t.toNat) } } ∧
    (∀ k : Fin 4, k.val ≠ f.t.toNat → t.hart.tile[k] = s.hart.tile[k]) ∧
    let T := t.hart.tile[f.t.toNat]
    T.rowFlag = 0 ∧ T.colFlag = 0 ∧ ∀ x y, x < 128 → y < 128 → tileEl T x y = 0 ∧ tileP T x y = false

/-- R209, R210, R211, R229 to R233: declaring, clearing, merging and updating a summary register of the type that the mnemonic names. -/
def Obligations.SummaryResults : Prop :=
  ∀ (f : OpSM) (s : State),
    let n := f.sd.toNat
    let w := nextWidth s
    let key (r : BitVec 5) (e : Nat) : Nat := (signExt (el s r.toNat e w) w % (2 ^ 64 : Nat)).toNat
    let input (i : Instr) (t : BitVec 5) (e : Nat) := sumInput (begun s i) t f.a e
    (∀ m l, Runs (.sdecl f) s → s.combining = [] → (readX s f.a).toNat % 64 = 0 →
      hartSpan (begun s (.sdecl f)) (readX s f.a) 64 .load = (begun s (.sdecl f), .ok l) → spanPoison (begun s (.sdecl f)) l = false →
      descriptorSum (spanRead (begun s (.sdecl f)) l) = some m → overShare s n m = false → SummaryResult (.sdecl f) s f.sd m) ∧
    (∀ m, sumOf s n = some m →
      (Runs (.sclr f) s → SummaryResult (.sclr f) s f.sd (emptySum m.body.ty m.param m.seed)) ∧
      (Runs (.smerge f) s → ∀ a r, sumOf s f.a.toNat = some a → mergeSum m a = some r → SummaryResult (.smerge f) s f.sd r) ∧
      (m.body.ty = 1 → Runs (.supdCms f) s →
        RoundDone (.supdCms f) s f m (fun e => elP s f.a.toNat e w || f.b != 0 && elP s f.b.toNat e w) fun e b =>
          match b with
          | .cms total t =>
            let r := cmsAdd m.param m.seed (total, t) (key f.a e) (if f.b = 0 then 1 else min (el s f.b.toNat e w) (2 ^ cmsCW m.param - 1))
            .cms r.1 r.2
          | b => b) ∧
      (m.body.ty = 2 → Runs (.supdBks f) s →
        RoundDone (.supdBks f) s f m (fun e => elP s f.a.toNat e w || f.b != 0 && elP s f.b.toNat e w) fun e b =>
          match b with
          | .bks l => .bks (bksAdd m.param m.seed l (key f.a e) (if f.b = 0 then 0 else key f.b e))
          | b => b) ∧
      (m.body.ty = 3 → realType f.b.toNat = true → Runs (.supdQh f) s →
        RoundDone (.supdQh f) s f m (fun e => (input (.supdQh f) f.b e).2) fun e b =>
          qhCount m.param b (Fmt.f32.round 0 (input (.supdQh f) f.b e).1.toF)) ∧
      (m.body.ty = 4 → (if momDom m.param = 1 then decide (f.b.toNat < 8) else realType f.b.toNat) = true → Runs (.supdMom f) s →
        RoundDone (.supdMom f) s f m (fun e => (input (.supdMom f) f.b e).2) fun e b =>
          match (input (.supdMom f) f.b e).1 with
          | .int x => if momDom m.param = 1 then momInt b x else momReal b (Fmt.f32.round 0 (FVal.ofInt x))
          | .flt x => momReal b (Fmt.f32.round 0 x)) ∧
      (let x := (readX s f.b).toNat
      let t := BitVec.ofNat 5 (bitsN x 16 5)
      m.body.ty = 5 → inputOk t.toNat w (curSnap s.hart) = true → (∀ e ∈ activeBody s f.pred.toNat, bitsN x 0 16 + e < wesN m.param) →
        Runs (.supdWes f) s → RoundDone (.supdWes f) s f m (fun e => (input (.supdWes f) t e).2) fun e b =>
          wesAdd m.param b (bitsN x 0 16 + e) (input (.supdWes f) t e).1.toF))

/-- R239 to R243: the queries of a summary that is of the type the mnemonic names and not poisoned; `sq.bks.items` gives the keys in register b and the payloads in the
next one. -/
def Obligations.SummaryQueries : Prop :=
  ∀ (f : OpSM) (s : State) (m : Summary), sumOf s f.sd.toNat = some m → m.poison = false →
    let w := nextWidth s
    let x := (readX s f.a).toNat
    let key (e : Nat) : Nat := (signExt (el s f.a.toNat e w) w % (2 ^ 64 : Nat)).toNat
    (∀ total t, m.body = .cms total t → Runs (.sqCms f) s →
      Elementwise (.sqCms f) s f.b.toNat f.pred.toNat (fun e => min (cmsPoint m.param m.seed t (key e)) (2 ^ w - 1)) fun e => elP s f.a.toNat e w) ∧
    (∀ l, m.body = .bks l → Runs (.sqBksEst f) s → ScalarResult (.sqBksEst f) s f.b (W (bksEstimate m.param l))) ∧
    (∀ l, m.body = .bks l → Runs (.sqBksItems f) s → f.b.toNat + 1 < 32 → ∃ t, exec (.sqBksItems f) s = .next t ∧
      ∀ e, e < nextLen s → e < 512 → active s f.pred.toNat e = true →
        el t f.b.toNat e 64 = ((l[x + e]?).getD (0, 0, 0)).2.1 % 2 ^ 64 ∧ el t (f.b.toNat + 1) e 64 = ((l[x + e]?).getD (0, 0, 0)).2.2 % 2 ^ 64) ∧
    (m.body.ty = 3 → Runs (.sqQnt f) s → ScalarResult (.sqQnt f) s f.b (W (qhQuantile m.param m.body x))) ∧
    (m.body.ty = 4 → Runs (.sqMomQuery f) s →
      ScalarResult (.sqMomQuery f) s f.b (W (momQuery m.param m.body f.a.toNat (s.hart.rmode.toNat % 4)))) ∧
    (∀ a b c sums, m.body = .wes a b c sums → (∀ e ∈ activeBody s f.pred.toNat, x + e < wesN m.param) → Runs (.sqWes f) s →
      Elementwise (.sqWes f) s f.b.toNat f.pred.toNat (fun e => wesQuery m.param (vfmt w) sums (x + e)) fun _ => false)

/-- R305, R306, R308 to R310: `shalloc` and `shalloc.m` return 4 for a plane that does not exist, or twice the same one, 3 for a failed switch, 2 at the quota and 1 when
no block is free, the greater of two codes for a pair; otherwise they allocate the lowest block free in the arena on the plane, or on both, zero it, and return its address.
`shfree` frees the block at an address, both halves of a pair, after the queued stores to it have been performed; `shstat` returns its status, and that of a free block. What the
codes, an allocation and the status word are is said in the clauses after those. That a scalar result waits for the stores of earlier convoys is R170; a tenant or a quota that
was never set is 0 by log entry 2. -/
def Obligations.ShedResults : Prop :=
  ∀ (f : OpDS) (s : State),
    let p := (readX s f.a).toNat
    let q := (readX s f.b).toNat
    let done (i : Instr) (n : Nat) : Hart := { settledEnd s i with x := setX s.hart.x f.d (arenaAddr s p n) }
    let me := tenantOf s s.hart.pasid
    let word (primary mirror : Nat) : Nat := quotaOf s primary me * 2 ^ 48 + heldOf s primary me * 2 ^ 32 + mirror * 2 ^ 12 + primary * 2 ^ 8
    (Runs (.shalloc f) s →
      (∀ c, shedCode s p = some c → ScalarResult (.shalloc f) s f.d (W c)) ∧
      (shedCode s p = none → lowest (arenaBlocks s p) (arenaFree s p) = none → ScalarResult (.shalloc f) s f.d 1) ∧
      (∀ n b, shedCode s p = none → lowest (arenaBlocks s p) (arenaFree s p) = some n → arenaBlock s p n = some b →
        exec (.shalloc f) s = .next { takeShed (settled s (.shalloc f)) p b none false with hart := done (.shalloc f) n })) ∧
    (Runs (.shallocM f) s →
      (∀ c, pairCode s p q = some c → ScalarResult (.shallocM f) s f.d (W c)) ∧
      (let free := lowest (min (arenaBlocks s p) (arenaBlocks s q)) fun n => arenaFree s p n && arenaFree s q n
      (pairCode s p q = none → free = none → ScalarResult (.shallocM f) s f.d 1) ∧
      (∀ n b c, pairCode s p q = none → free = some n → arenaBlock s p n = some b → arenaBlock s q n = some c →
        exec (.shallocM f) s = .next { takeShed (takeShed (settled s (.shallocM f)) p b (some (q, c)) false) q c (some (p, b)) true with
          hart := done (.shallocM f) n }))) ∧
    (Runs (.shfree f) s → ∀ b, (readX s f.a).toNat % 2 ^ 21 = 0 → blockAt s (readX s f.a) = some (some b) → (b.mirror && b.partner.isSome) = false →
      let t := freeShed (begun s (.shfree f)) b
      exec (.shfree f) s = .next { t with hart := { convoyEnd s (.shfree f) with storeQ := t.hart.storeQ } } ∧
      (∀ st ∈ t.hart.storeQ, inBlock b st.key = false)) ∧
    (Runs (.shstat f) s → (∀ b, blockAt s (readX s f.a) = some (some b) → ScalarResult (.shstat f) s f.d (W (shedWord s b))) ∧
      ∀ k n, blockAt s (readX s f.a) = some none → arenaPlace s (readX s f.a) = some (k, n) →
        ScalarResult (.shstat f) s f.d (W (quotaOf s k me * 2 ^ 48 + heldOf s k me * 2 ^ 32 + k * 2 ^ 8))) ∧
    (∀ b, b.partner = none → b.mirror = false →
      shedWord s b = word b.plane 0 + (if b.overQ then 16 else 0) + (if b.lost then 8 else 0) + 1) ∧
    (∀ b c, b.mirror = false → shedPartner s b = some c →
      let over' := b.lost && !c.lost
      shedWord s b = word (if over' then c.plane else b.plane) (if over' then b.plane else c.plane) + (if b.overQ || c.overQ then 16 else 0) +
        (if b.lost && c.lost then 8 else 0) + (if b.lost || c.lost then 4 else 0) + 3) ∧
    (∀ b c, b.mirror = true → shedPartner s b = some c → c.mirror = false → shedWord s b = shedWord s c) ∧
    (∀ k t, heldOf s k t = (s.sheds.blocks.filter fun b => b.plane == k && b.tenant == t && !(b.lost && !s.sheds.failed.contains k)).length) ∧
    (∀ (u : State) k b r mir, let t := takeShed u k b r mir
      t.sheds.blocks = u.sheds.blocks ++ [
        { plane := k, block := b, tenant := tenantOf u u.hart.pasid, gang := u.hart.gangid, partner := r, mirror := mir, lost := false, overQ := false,
          seq := u.sheds.seq }] ∧ t.sheds.seq = u.sheds.seq + 1 ∧ t.hart = u.hart ∧
      (∀ j, shedKey k b ≤ j → j < shedKey k b + 2 ^ 21 → Memory.read t.mem j = 0 ∧ j / 64 ∉ t.poison) ∧
      (MemoryOk u → ∀ j, j < shedKey k b ∨ shedKey k b + 2 ^ 21 ≤ j → Memory.read t.mem j = Memory.read u.mem j)) ∧
    (∀ k j, (k = j → pairCode s k j = some 4) ∧ ∀ x, k ≠ j → (pairCode s k j = some x ↔
      shedCode s k = some x ∧ (∀ y, shedCode s j = some y → y ≤ x) ∨ shedCode s j = some x ∧ ∀ y, shedCode s k = some y → y ≤ x)) ∧
    (∀ k, shedCode s k = if 16 ≤ k then some 4 else if k ∈ s.sheds.failed then some 3
      else if quotaOf s k (tenantOf s s.hart.pasid) ≤ heldOf s k (tenantOf s s.hart.pasid) then some 2 else none)

/-- R159 to R165, R195, R199: copies, spill frames, compressed blocks and tile memory, where every place is reached: `vcopy` stores each active element's bytes; `vspill` stores the
header and the elements behind it, `vfill` reads a header and the elements back; `vldc` expands one block and `vstc` packs one, and both move their scalar pair;
`mgrow` fills the operand latch by rows, `mld` and `mst` move the active rows and columns of a tile. No combining update is outstanding. The model's choices: `vstc` makes one store
for each byte (log entry 25), the header of `vspill` is four stores of 16 bytes (log entry 96), and `mld` and `mst` act whatever `vl` is (log entry 31). -/
def Obligations.BulkMemoryResults : Prop :=
  ∀ s : State, s.combining = [] →
    let w := nextWidth s
    let n := w / 8
    let new (i : Instr) (l : List (Nat × Nat × Nat)) : Prop :=
      ∃ q, exec i s = .next { s with hart := { convoyEnd s i with storeQ := s.hart.storeQ ++ q, entered := s.hart.entered + q.length } } ∧
      q.map (fun st => (st.key, st.n, st.val)) = l
    (∀ (f : OpVM) (src dst : Nat → Hit), Runs (.vcopy f) s →
      let b := begun s (.vcopy f)
      let es := activeBody s f.pred.toNat
      (∀ e ∈ es, reach b (unitFoot (readX s f.a) w e) .load = (b, .ok [(src e, n)]) ∧ reach b (unitFoot (readX s f.vd) w e) .store = (b, .ok [(dst e, n)])) →
      (∀ e ∈ es, ∀ d ∈ es, (src e).key + n ≤ (dst d).key ∨ (dst d).key + n ≤ (src e).key) →
      new (.vcopy f) (es.map fun e => ((dst e).key, n, hartRead s (src e).key n))) ∧
    (∀ (f : OpVM) (hd at' : Nat → Hit), Runs (.vspill f) s → 8 ≤ w → s.hart.vstart = 0 → 0 < nextLen s → (readX s f.a).toNat % 64 = 0 →
      let b := begun s (.vspill f)
      let header := nextLen s + 2 ^ 64 * (nextType s).toNat + 2 ^ 128 * vrlen s + 2 ^ 144 * f.vd.toNat + 2 ^ 152
      (∀ j, j < 4 → reach b { va := readX s f.a + W (16 * j), bit := 0, wm := 128 } .store = (b, .ok [(hd j, 16)])) →
      (∀ e, e < nextLen s → reach b { va := readX s f.a + W (64 + e * n), bit := 0, wm := w } .store = (b, .ok [(at' e, n)])) →
      (hartSpan b (readX s f.a) 64 .store).1 = b →
      new (.vspill f) (((List.range 4).map fun j => ((hd j).key, 16, header / 2 ^ (128 * j) % 2 ^ 128)) ++
        (List.range (nextLen s)).map fun e => ((at' e).key, n, el s f.vd.toNat e w))) ∧
    (∀ (f : OpVM) (l : List (Hit × Nat)) (L : Nat → List (Hit × Nat)), Runs (.vfill f) s → s.hart.vstart = 0 → (readX s f.a).toNat % 64 = 0 →
      let b := begun s (.vfill f)
      hartSpan b (readX s f.a) 64 .load = (b, .ok l) → spanPoison b l = false →
      let header := spanRead b l
      let most := vrlen s * 8 / w
      let held := min (ceilDiv (header % 2 ^ 64 * widthOf (header / 2 ^ 64 % 8)) 8) (vrlen s)
      header / 2 ^ 152 % 2 ^ 8 = 1 → header / 2 ^ 64 % 8 < 6 → (hartSpan b (readX s f.a + W 64) held .load).1 = b →
      (∀ e, e < most → e * w / 8 < held →
        hartSpan b (readX s f.a + W (64 + e * w / 8)) (min (max w 8 / 8) (held - e * w / 8)) .load = (b, .ok (L e))) →
      VectorResult (.vfill f) s f.vd.toNat fun t => ∀ e, e < most →
        (e * w / 8 < held → el t f.vd.toNat e w = spanRead b (L e) / 2 ^ (e * w % 8) % 2 ^ w ∧ elP t f.vd.toNat e w = spanPoison b (L e)) ∧
        (held ≤ e * w / 8 → el t f.vd.toNat e w = 0 ∧ elP t f.vd.toNat e w = false)) ∧
    (∀ (f : OpVM) (l : List (Hit × Nat)) (mask body : Nat), Runs (.vldc f) s → 32 ≤ nextLen s → nextLen s < 64 →
      let b := begun s (.vldc f)
      let base := readX s f.a
      let len := (readX s (f.a + 1)).toNat
      let size := 4 + n * popN 32 mask
      stagingOf b base = none → hartSpan b base len .load = (b, .ok l) → size ≤ len →
      srcRead b (.memory l) 0 4 = .ok mask → srcRead b (.memory l) 4 (size - 4) = .ok body →
      ∃ t, exec (.vldc f) s = .next t ∧ (∀ i, i < 32 → el t f.vd.toNat i w = zbElem mask body w i % 2 ^ w ∧ elP t f.vd.toNat i w = false) ∧ t.hart.vl = 32 ∧
        t.hart.x = setX (setX s.hart.x f.a (base + W size)) (f.a + 1) (W (len - size)) ∧ t.mem = (settled s (.vldc f)).mem) ∧
    (∀ (f : OpVM) (h : Hit), Runs (.vstc f) s → 0 < nextLen s → nextLen s ≤ 32 →
      let b := begun s (.vstc f)
      let base := readX s f.a
      let len := (readX s (f.a + 1)).toNat
      let val (e : Nat) : Nat := if e < nextLen s ∧ active s f.pred.toNat e then el s f.vd.toNat e w else 0
      let clean := ∀ e, e < nextLen s → active s f.pred.toNat e = true → elP s f.vd.toNat e w = false ∧ activeP s f.pred.toNat e = false
      let on := (List.range 32).filter fun e => val e != 0
      let mask := (on.map fun e => 2 ^ e).sum
      let size := 4 + n * on.length
      let bytes := mask + 2 ^ 32 * on.foldr (fun e a => val e + 2 ^ w * a) 0
      clean → size ≤ len → hartSpan b base (min len (4 + 4 * w)) .store = (b, .ok [(h, min len (4 + 4 * w))]) →
      let u := settled s (.vstc f)
      ∃ t q, exec (.vstc f) s = .next t ∧ t.hart.storeQ = u.hart.storeQ ++ q ∧ t.hart.v = s.hart.v ∧ t.mem = u.mem ∧ t.hart.vl = nextLen s ∧
        q.map (fun st => (st.key, st.n, st.val)) = (List.range size).map (fun i => (h.key + i, 1, bytes / 256 ^ i % 256)) ∧
        t.hart.x = setX (setX s.hart.x f.a (base + W size)) (f.a + 1) (W (len - size))) ∧
    (∀ (f : OpTile) (L : Nat → List (Hit × Nat)), Runs (.mgrow f) s →
      let b := begun s (.mgrow f)
      let w := tileWidth f (curSnap s.hart)
      let steps := ceilDiv (nextLen s) 128
      let g := min s.hart.tgrant 128
      let on (i : Nat) : Bool := decide (i < g) && active s f.rp.toNat i
      (∀ i, on i = true → growRow f b w (ceilDiv (steps * w) 8) b i = (b, .ok (L i))) →
      ∃ c, exec (.mgrow f) s = .next { s with hart := { convoyEnd s (.mgrow f) with latch := c, lr := g } } ∧
        ∀ i k, i < 128 → k < steps → bitsN c.val ((k * 128 + i) * w) w = if on i then spanRead b (L i) / 2 ^ (k * w) % 2 ^ w else 0) ∧
    (∀ (f : OpTile) (P : Nat → Nat → Hit), (readX s f.va).toNat % 4 = 0 → (readX s f.vb).toNat % 4 = 0 →
      let on (x y : Nat) : Bool := active s f.rp.toNat x && active s f.cp.toNat y
      let T := s.hart.tile[f.t.toNat]
      let g := min s.hart.tgrant 128
      let place (x y : Nat) : Word := readX s f.va + W x * readX s f.vb + W (4 * y)
      (Runs (.mld f) s →
        (∀ x y, x < g → y < 128 → on x y = true → hartSpan (begun s (.mld f)) (place x y) 4 .load = (begun s (.mld f), .ok [(P x y, 4)])) →
        ∃ t, exec (.mld f) s = .next t ∧ t.hart.v = s.hart.v ∧ t.mem = s.mem ∧ t.hart.tgrant = s.hart.tgrant ∧
          (∀ k : Fin 4, k.val ≠ f.t.toNat → t.hart.tile[k] = s.hart.tile[k]) ∧
          ∀ x y, x < 128 → y < 128 →
            (x < g → on x y = true → tileEl t.hart.tile[f.t.toNat] x y = hartRead s (P x y).key 4 ∧
              tileP t.hart.tile[f.t.toNat] x y = readsPoison s (P x y).key 4) ∧
            (g ≤ x ∨ active s f.rp.toNat x = false → tileEl t.hart.tile[f.t.toNat] x y = tileEl T x y)) ∧
      (Runs (.mst f) s → s.hart.prot = false ∨ T.differs = [] →
        (∀ x y, x < 128 → y < 128 → on x y = true → hartSpan (begun s (.mst f)) (place x y) 4 .store = (begun s (.mst f), .ok [(P x y, 4)])) →
        new (.mst f) ((List.range 128).flatMap fun x => ((List.range 128).filter (on x)).map fun y => ((P x y).key, 4, tileRead T x y))))

/-- R181, R182, R234, R236 to R238, R295 to R298: on a convoy of one active element `awin.upd` folds it into the copy of its lane; `awin.merge` folds every copy of each word into the
table and undeclares the window; `sst` stores the image of a summary with its watermark raised, `sld` and `smerge.m` read one, and a header of another kind stops `smerge.m` before its body is read; `scmt` on a cell without a valid seal
releases its image once the earlier epochs are durable, and waits. No combining update is outstanding. That a commit also waits for what a stopped run of it has left, which is of
its own epoch (`persisted`), is the model's choice (log entry 114); the order of the conditions of `sst` and `smerge.m` is log entry 112's. -/
def Obligations.SummaryMemoryResults : Prop :=
  ∀ s : State, s.combining = [] →
    let w := nextWidth s
    let n := w / 8
    (∀ (f : OpAW) (win : Window), s.hart.win[f.n.toNat] = some win →
      (Runs (.awinUpd f) s → MemoryOk s → win.w = w → 8 ≤ w → s.hart.vstart = 0 → nextLen s = 1 → active s f.pred.toNat 0 = true → elP s f.a.toNat 0 w = false →
        el s f.a.toNat 0 w < win.len →
        let k := copyKey s win + el s f.a.toNat 0 w * n
        ∃ t, exec (.awinUpd f) s = .next t ∧ t.hart.v = s.hart.v ∧
          Memory.readN t.mem k n = windowOp win.op w (Memory.readN s.mem k n) (el s f.b.toNat 0 w) % 256 ^ n ∧
          ∀ j, j < k ∨ k + n ≤ j → Memory.read t.mem j = Memory.read s.mem j) ∧
      (∀ P : Nat → Hit, Runs (.awinMerge f) s →
        let m := win.w / 8
        let b := begun s (.awinMerge f)
        (∀ i, i < win.len → checkAccess b (win.table + W (i * m)) m m .store = (b, .ok (P i))) →
        (∀ i j, i < win.len → j < win.len → i ≠ j → (P i).key + m ≤ (P j).key ∨ (P j).key + m ≤ (P i).key) →
        ∃ t q, exec (.awinMerge f) s = .next t ∧ t.hart.win[f.n.toNat] = none ∧ t.hart.storeQ = s.hart.storeQ ++ q ∧ t.hart.v = s.hart.v ∧
          q.map (fun st => (st.key, st.n, st.val)) = (List.range win.len).map fun i => ((P i).key, m,
            (List.range (lanes s)).foldl (fun a l => windowOp win.op win.w a (Memory.readN s.mem (copyKey s win + (l * win.len + i) * m) m))
              (hartRead s (P i).key m) % 256 ^ m))) ∧
    (∀ (f : OpSM), (readX s f.a).toNat % 64 = 0 →
      (∀ (m : Summary) (P : Nat → Hit), sumOf s f.sd.toNat = some m → Runs (.sst f) s →
        let r : Summary := { m with wmark := max m.wmark (readX s f.b).toNat }
        let size := footprint m
        let part (j : Nat) : Nat := min 16 (size - 16 * j)
        (∀ j, j < ceilDiv size 16 → reach (begun s (.sst f)) { va := readX s f.a + W (16 * j), bit := 0, wm := 8 * part j } .store =
          (begun s (.sst f), .ok [(P j, part j)])) →
        ∃ t q, exec (.sst f) s = .next t ∧ sumOf t f.sd.toNat = some r ∧ t.hart.storeQ = s.hart.storeQ ++ q ∧ t.mem = s.mem ∧
          q.map (fun st => (st.key, st.n, st.val)) = (List.range (ceilDiv size 16)).map fun j => ((P j).key, part j, sumImage r / 256 ^ (16 * j) % 256 ^ part j)) ∧
      (∀ (i : Instr) (h r : Summary) (l k : List (Hit × Nat)),
        let b := begun s i
        hartSpan b (readX s f.a) 64 .load = (b, .ok l) → spanPoison b l = false → headerSum (spanRead b l) = some h →
        (i = .smergeM f → Runs i s → ∀ m, sumOf s f.sd.toNat = some m → sameKindSum m h = false →
          ∃ t, exec i s = .next t ∧ StoppedWith t 0x0A s.hart.pc (readX s f.a) 0 ∧ t.hart.sums = s.hart.sums) ∧
        (hartSpan b (readX s f.a + 64) (bodyBytes h.body.ty h.param) .load = (b, .ok k) → spanPoison b k = false →
        imageSum h (spanRead b l % 2 ^ 512 + spanRead b k * 2 ^ 512) = some r →
        (i = .sld f → Runs i s → overShare s f.sd.toNat r = false → SummaryResult i s f.sd r) ∧
        (i = .smergeM f → Runs i s → ∀ m q, sumOf s f.sd.toNat = some m → sameKindSum m h = true → mergeSum m r = some q → SummaryResult i s f.sd q)))) ∧
    (∀ (f : OpSM) (m : Summary) (l k : List (Hit × Nat)), sumOf s f.sd.toNat = some m → m.poison = false → Runs (.scmt f) s →
      let b := begun s (.scmt f)
      let c := readX s f.a
      let size := 0x80 + 2 * ceilTo (footprint m) 128
      c.toNat % 128 = 0 → cellFault b (spanFuel size) c size = (b, .ok ()) → hartSpan b c 64 .load = (b, .ok l) → hartSpan b (c + 64) 64 .load = (b, .ok k) →
      newerSeal (sealValid (spanRead b l) (spanPoison b l)) (sealValid (spanRead b k) (spanPoison b k)) = none →
      (persisted b b.hart.cur.epoch = false → ∃ t v, exec (.scmt f) s = .next t ∧ t.hart.vq = [v] ∧ v.members = [.scmt f] ∧ v.phase = 0 ∧
        t.hart.vwait = some none ∧ t.hart.storeQ = s.hart.storeQ) ∧
      (persisted b b.hart.cur.epoch = true → (commitImage f m (0, 0) b).hart.cur.fault = none → (commitImage f m (0, 0) b).hart.cur.phase = 1 → ∃ t v, exec (.scmt f) s = .next t ∧
        t.hart.vq = [v] ∧ v.members = [.scmt f] ∧ v.phase = 1 ∧ v.commit = (0, 0) ∧ t.hart.vwait = some none ∧
        t.hart.storeQ = (commitImage f m (0, 0) b).hart.storeQ))

/-! ### The access queue -/

/-- R20, R247, R252 to R255, R262: an access-class instruction only enters the access queue, with the scalar registers of now, when none of its sources is held and a slot is
free; otherwise the sequencer waits. `ar.bind` and `acol` bind their register for the convoys that follow, `ar.unbind` ends its binding, after which the register
reads zero. A member reads the oldest chunk of the ring, or of the window, in a bound source register; the low bytes of its result, over an old value of zero, are pushed from a
bound destination; the register itself keeps what it holds. The convoy waits at an empty or a full ring, and STREAM stops it at an exhausted ring and where a stream runs the
other way. (A convoy of its own that is performed in the turn that posts it is log entry 78's; the eight bytes of an instruction of spliced code are log entry 6's.) -/
def Obligations.AccessPosting : Prop :=
  (∀ (i : Instr) (m : Member) (s : State) (r : Fin 32) (x : State), memberOf i = some m →
    (∀ h st, ReadyBound i m s r (.stream h) → streamOf s h = some st →
      let b := begun s i
      let waits : Prop := vectorStores s.hart = false → WaitsAtHead i s (some st.recAddr)
      let stops : Prop := ∃ t, exec i s = .next t ∧ StoppedWith t Cause.stream.code s.hart.pc st.recAddr 0
      (readsBound i m s r → r.val ∉ m.dsts →
        (∀ c rest, st.out = false → st.ring = c :: rest → RanIn m (setReg (setStream b { st with ring := rest }) r c.val c.cells) x → RetiresBound i s x r) ∧
        (st.out = false → st.ring = [] → st.exhausted = false → waits) ∧
        (st.out = true ∨ st.ring = [] ∧ st.exhausted = true → stops)) ∧
      (¬readsBound i m s r → r.val ∈ m.dsts →
        (st.out = true → m.readsDst = false → st.ring.length < st.rbytes / st.ch → RanIn m (setReg b r 0 0) x → x.hart.streams = s.hart.streams →
          RetiresBound i s (setStream x { st with ring := st.ring ++ [chunkOf x r st.ch] }) r) ∧
        (st.out = true → m.readsDst = false → st.rbytes / st.ch ≤ st.ring.length → waits) ∧
        (st.out = false → s.hart.vstart < nextLen s → stops) ∧ (st.out = true → m.readsDst = true → stops))) ∧
    (∀ t c, ReadyBound i m s r (.window t) → collOf s t = some c → c.failed = false → m.readsDst = false →
      let b := begun s i
      (readsBound i m s r → r.val ∉ m.dsts →
        (∀ q rest, c.outq = q :: rest → RanIn m (setReg (setColl b t { c with outq := rest }) r q.val q.cells) x → RetiresBound i s x r) ∧
        (c.outq = [] → vectorStores s.hart = false → WaitsAtHead i s (some t))) ∧
      (¬readsBound i m s r → r.val ∈ m.dsts → RanIn m (setReg b r 0 0) x → collOf x t = some c →
        RetiresBound i s (setColl x t { c with inq := c.inq ++ [chunkOf x r c.ch] }) r))) ∧
  ∀ (f : OpAC) (s : State), ∀ i ∈ [Instr.astOpen f, .astClose f, .astRun f, .arBind f, .arUnbind f, .acol f, .asend f, .arecv f, .aflip f],
    (anyHeld s (xsrcOf i) = true → exec i s = .next (parked s .held)) ∧
    (NoHold s (xsrcOf i) → 128 ≤ s.hart.aq.length → exec i s = .next (parked s .full)) ∧
    (NoHold s (xsrcOf i) → s.hart.aq.length < 128 → ∃ t e, exec i s = .next t ∧
      t = { s with hart := { s.hart with
        aq := s.hart.aq ++ [e], binds := t.hart.binds, pc := s.hart.pc + W (if s.hart.splice.isSome then 8 else 4), park := none, await := none,
        v := t.hart.v, vp := t.hart.vp, vdirty := t.hart.vdirty, unbound := t.hart.unbound } } ∧
      e.instr = i ∧ e.addr = s.hart.pc ∧ e.xs = s.hart.x ∧ e.progress = .fresh ∧ e.taken = none ∧
      ((∀ g, i ≠ .arUnbind g) → t.hart.v = s.hart.v ∧ t.hart.vp = s.hart.vp ∧ t.hart.vdirty = s.hart.vdirty) ∧
      (i = .arBind f → boundTo t.hart f.d.toNat = some (.stream (readX s f.a).toNat)) ∧
      (i = .acol f → f.b ≠ 0 → boundTo t.hart f.b.toNat = some (.window (readX s f.a))) ∧
      (i = .arUnbind f → boundTo t.hart f.d.toNat = none ∧
        (boundTo s.hart f.d.toNat ≠ none → s.hart.vq = [] → t.hart.v[f.d.toNat] = 0 ∧ t.hart.vp[f.d.toNat] = 0) ∧
        ∀ r : Fin 32, r.val ≠ f.d.toNat → boundTo t.hart r = boundTo s.hart r ∧ t.hart.v[r] = s.hart.v[r] ∧ t.hart.vp[r] = s.hart.vp[r]))

/-- R23, R39, R247, R250 to R252, R256, R258, R262, R265 to R267: ACCESS_ENTRY_ISSUE starts the next entry in program order, after it has taken its pennant: an
`ast.open` opens a record under the lowest free handle, an `ast.close` drops one and zeroes its ring, `ar.bind` and `ar.unbind` change the binding that the queue
checks, a run begins, a receive waits for its sender, a send begins or finds its peer failed, and a flip exchanges the backings of its pages.
R98: the pins of the oldest entry end with what it has done (`unitEnds`). What a route table must keep beyond R260's words is log entries 44 and 45. -/
def Obligations.AccessEntryStarts : Prop :=
  ∀ (s u : State) (i : Nat) (e : AqEntry) (f : OpAC),
    let starts (t : State) : Prop := exec .accessEntryIssue s = .next (unitEnds i t)
    let a := entryX e f.a
    let b := entryX e f.b
    (∀ c p l, s.hart.run = .running → s.hart.aq.findIdx? isFresh = some i → s.hart.aq[i]? = some e → takeOf e = some c → e.taken = none →
      pnList s.hart c = p :: l → ofRole s.hart e.addr = true → acquireIn (s.hart.vq.take e.vqAhead) = false →
      let t := setEntry (pnSet s c l) i { e with taken := some p }
      ∀ w, startEntry t i { e with taken := some p } = .go w → starts w) ∧
    (NextEntry s i e →
      (∀ v r h, e.instr = .astOpen f → aqRead s a 64 64 = (u, .ok v) → recordOf u a v = some r → freeHandle u = some h →
        starts (entryDone { u with hart := { u.hart with streams := u.hart.streams ++ [{ r with handle := h }] } } i e (W h) 0 false)) ∧
      (∀ r, e.instr = .astClose f → streamOf s a.toNat = some r → e.early = false → s.hart.vq = [] →
        s.combining = [] → (∀ h ∈ harts s, ∀ st ∈ h.storeQ, st.key < partKey s + r.rbase ∨ partKey s + r.rbase + r.rbytes ≤ st.key) → ∃ t e', starts t ∧
        t.hart.streams = s.hart.streams.filter (fun q => q.handle != a.toNat) ∧ t.hart.aq[i]? = some e' ∧ e'.progress = .done 0 0 false ∧
        (∀ k, partKey s + r.rbase ≤ k → k < partKey s + r.rbase + r.rbytes → Memory.read t.mem k = 0) ∧
        (MemoryOk s → ∀ k, k < partKey s + r.rbase ∨ partKey s + r.rbase + r.rbytes ≤ k → Memory.read t.mem k = Memory.read s.mem k)) ∧
      (∀ r, e.instr = .arBind f → i = 0 → streamOf s a.toNat = some r → (∀ x ∈ s.hart.bound, x.1 ≠ f.d.toNat ∧ x.2 ≠ .stream a.toNat) →
        starts (entryDone { s with hart := { s.hart with bound := (f.d.toNat, .stream a.toNat) :: s.hart.bound } } i e 0 0 false)) ∧
      (e.instr = .arUnbind f → e.early = false →
        starts (entryDone { s with hart := { s.hart with bound := s.hart.bound.filter fun x => x.1 != f.d.toNat } } i e 0 0 false)) ∧
      (∀ r h, e.instr = .astRun f → streamOf s a.toNat = some r → r.failed = false →
        findPlace s r.addr 1 (if r.out then .engineStore else .load) = .ok h → (placeOf s h.key).bind srckOf = some r.srck →
        inReach s r.addr h.key r.scope = true →
        (b = 0 → starts (entryDone s i e 0 0 false)) ∧ (b ≠ 0 → starts (setEntry s i { e with progress := .run 0 0 false }))) ∧
      (∀ h c nstep list u' v w steps p ps, e.instr = .acol f → aqRead s a 128 64 = (u, .ok h) → collHeader h f.b.toNat = some (c, nstep, list) →
        aqRead u a (128 + 16 * nstep) 64 = (u', .ok v) → allSome ((fieldsOf (v / 2 ^ 1024) 128 nstep).map (stepRead c)) = some steps →
        aqRead u' list (8 * c.npart) 64 = (w, .ok p) → allSome ((fieldsOf p 64 c.npart).map partRead) = some ps → slotsFit w c = true →
        let made (z : State) : State := setEntry z i { e with progress := .coll { c with steps := steps, parts := ps, since := w.time } }
        (c.op = 2 → starts (made w)) ∧
        (c.op ≠ 2 → (∀ x ∈ w.hart.bound, x.1 ≠ f.b.toNat) → starts (made { w with hart := { w.hart with
          bound := (f.b.toNat, .window a) :: w.hart.bound, winFailed := w.hart.winFailed.filter fun t => t != a } }))) ∧
      (∀ v t, e.instr = .arecv f → aqRead s a 32 32 = (u, .ok v) → descRead v = some t → starts (setEntry u i { e with progress := .transfer t })) ∧
      (∀ v t, e.instr = .asend f → aqRead s a 32 32 = (u, .ok v) → descRead v = some t →
        ((t.peerModule, t.peerHart) ∉ u.peersFailed → starts (setEntry u i { e with progress := .send t })) ∧
        ((t.peerModule, t.peerHart) ∈ u.peersFailed → starts (entryDone u i e 3 0 false))) ∧
      (e.instr = .aflip f → i = 0 → a.toNat % 4096 = 0 → b.toNat % 4096 = 0 →
        (b = 0 → starts (entryDone s i e 0 0 false)) ∧
        (∀ h l, b ≠ 0 → findPlace s a 1 .load = .ok h → inReach s a h.key (f.d.toNat % 8) = true → isSpadKey h.key = false →
          shadowPages s s.hart.pasid (b.toNat / 4096) a = .ok l → flipHeld s s.hart.pasid a b.toNat l = false → starts (entryDone (exchange s l) i e 0 0 false))))

/-- R256, R257, R259, R261, R263, R265: the units of runs and collectives: an in-stream reads the next chunk of its source into its ring, an out-stream writes the oldest
chunk of its ring; the six kinds of route step, with the flush of a RECV step at its timeout or when its participant has failed; late data that is discarded; a packet of
256 bytes that a send passes to the fabric, and one that a receive writes (R92). A late image updates DEST and MASK. The model's choices: what a send reports for a receive that
is not posted, and the order of transfers (`sendResult`, `olderSend`, `olderRecv`), are log entry 41; how a late image goes through the steps after its own is log entry 48. -/
def Obligations.AccessEntryUnits : Prop :=
  ∀ (s : State) (n : Nat) (e : AqEntry),
    (∀ r t bs, RunsRecord s n e r → r.out = false → r.handle < 16 → r.comp = 0 → r.exhausted = false → r.failed = false → r.ring.length < ringLimit r →
      let k := min (r.ch * 8 / r.ew) (r.len * 8 / r.ew - r.pos * 8 / r.ew)
      let m := ceilDiv (k * r.ew) 8
      sourceRead s (r.addr + W r.pos) m = (t, .ok bs) → t.hart = s.hart → ∃ w, exec (.chunkDelivery (BitVec.ofNat 4 r.handle)) s = .next w ∧
        streamOf w r.handle = some { r with
          ring := r.ring ++ [{ val := bytesNum bs % 2 ^ (k * r.ew), cells := bytesCells bs % 2 ^ (k * r.ew / 2) }], pos := r.pos + m,
          exhausted := decide (r.len * 8 / r.ew ≤ r.pos * 8 / r.ew + k) } ∧ w.mem = t.mem) ∧
    (∀ r c rest l, RunsRecord s n e r → r.out = true → r.handle < 16 → r.ring = c :: rest →
      let bs := chunkBytes r c
      r.pos + bs.length ≤ r.len → hartSpan s (r.addr + W r.pos) bs.length .engineStore = (s, .ok l) →
      ∃ w, exec (.outChunkWrite (BitVec.ofNat 4 r.handle)) s = .next w ∧ streamOf w r.handle = some { r with ring := rest, pos := r.pos + bs.length } ∧
        w.mem = (putPoisoned s l bs e.epoch).mem ∧ w.poison = (putPoisoned s l bs e.epoch).poison) ∧
    (∀ c st, AtStep s n e c st →
      let A := slotOf c st.sa
      let B := slotOf c st.sb
      let stepped' (t : State) (c : Coll) : State := unitEnds n (stepped t n e c)
      (st.kind = 1 → exec (.colSend n) s = .next (stepped' (sendMessage s (slotMessage s c st [])) c)) ∧
      (st.kind = 2 → ∀ m t, takeMessage s (recvMatches s c st) = some (m, t) → m.late = 0 →
        exec (.colRecv n) s = .next (stepped' t (setSlot c st.sa { data := m.data, mask := m.mask, late := 0 }))) ∧
      (st.kind = 3 → ∃ d, exec (.colRed n) s = .next (stepped' s (setSlot c st.sa { data := d, mask := A.mask ||| B.mask, late := A.late ||| B.late })) ∧
        (B.mask = 0 → d = A.data) ∧ (A.mask = 0 → B.mask ≠ 0 → d = B.data) ∧
        (A.mask ≠ 0 → B.mask ≠ 0 → d = reduceChunk c e.snap.rmode.toNat A.data B.data)) ∧
      (st.kind = 4 → exec (.colCopy n) s = .next (stepped' s (setSlot c st.sa B))) ∧
      (st.kind = 5 → ∀ x rest, c.inq = x :: rest →
        exec (.colCopyIn n) s = .next (stepped' s (setSlot { c with inq := rest } st.sa { data := x, mask := 2 ^ c.self, late := 0 }))) ∧
      (st.kind = 6 → exec (.colCopyOut n) s = .next (stepped' s
        { c with mask := c.mask &&& A.mask, outq := c.outq ++ [if A.mask = 0 then { val := 0, cells := 0 } else A.data] })) ∧
      (st.kind = 2 → s.inbox.find? (recvMatches s c st) = none →
        let flushed := setSlot c st.sa Slot.empty
        ((c.parts.getD st.peer (0, 0)) ∉ s.peersFailed → c.timeout ≠ 0 → c.since + c.timeout ≤ s.time →
          (bitN e.snap.repro.toNat 0 = true → exec (.recvTimeout n) s =
            .next (unitEnds n (setEntry s n { e with progress := .coll { flushed with flushed := c.flushed ||| 2 ^ st.peer, failed := true } }))) ∧
          (bitN e.snap.repro.toNat 0 = false → exec (.recvTimeout n) s =
            .next (stepped' { s with hart := { s.hart with flushed := s.hart.flushed ++ [(c.cid, st.peer, st.tag)] } }
              { flushed with flushed := c.flushed ||| 2 ^ st.peer }))) ∧
        (∀ (m : BitVec 6) (h : BitVec 16), s.others = [] → s.hart.aq = [e] → n = 0 → c.parts.getD st.peer (0, 0) = (m.toNat, h.toNat) →
          exec (.participantFailed m h) s =
            .next (stepped { s with peersFailed := (m.toNat, h.toNat) :: s.peersFailed.filter fun p => p != (m.toNat, h.toNat) } 0 e
              { flushed with lost := c.lost ||| 2 ^ st.peer })))) ∧
    (∀ c m w k who, s.hart.run = .running → s.hart.aq[n]? = some e → e.progress = .coll c → c.steps[c.stepNo]? = none → c.failed = false →
      takeMessage s (fun m => (awaited s c m).isSome) = some (m, w) → awaited s c m = some (k, who) →
      let left := c.awaiting.erase (k, who) ++ (maskParts m.late).map fun p => (k, p)
      (m.mask = 0 → exec (.lateImageMerge n) s = .next (unitEnds n (setEntry w n { e with progress := .coll { c with awaiting := left } }))) ∧
      (∀ st y z l l', m.mask ≠ 0 → c.steps[k]?.map (fun x => x.sa) = some st.sa → c.steps.drop (k + 1) = [st] → st.kind = 6 → bytesSum m.bytes = some y →
        (c.destSet = false → z = y) →
        (c.destSet = true → ∃ bs x, sourceRead w c.destAt (footprint y) = (w, .ok bs) ∧ bytesSum bs = some x ∧ mergeSum x y = some z) →
        hartSpan w c.destAt (sumBytes z).length .engineStore = (w, .ok l) →
        let dest := putPoisoned w l (sumBytes z) e.epoch
        hartSpan dest c.statusAt 8 .engineStore = (dest, .ok l') →
        let t := putPoisoned dest l' (numBytes (c.mask ||| m.mask) 0 8) e.epoch
        exec (.lateImageMerge n) s = .next (unitEnds n (setEntry t n { e with progress := .coll { c with
          awaiting := left, merged := true, mask := c.mask ||| m.mask, destSet := true } })))) ∧
    (∀ m cid, s.hart.run = .running → s.inbox[n]? = some m → m.cid = some cid → isMine s m = true → (cid, m.part, m.tag) ∈ s.hart.flushed →
      exec (.lateDataDiscard n) s = .next { s with
        inbox := s.inbox.erase m,
        hart := { s.hart with flushed := s.hart.flushed.erase (cid, m.part, m.tag), repro := s.hart.repro ||| 2 } }) ∧
    (∀ t m u l, s.hart.run = .running → s.hart.aq[n]? = some e → ofRole s.hart e.addr = true → e.progress = .transfer t → olderRecv s n t = false →
      takeMessage s (transferMatches s t) = some (m, u) →
      let bs := m.bytes.take (t.len - m.offset)
      let pos := m.offset + m.bytes.length
      let w := putPoisoned u l bs e.epoch
      hartSpan u (t.addr + W m.offset) bs.length .engineStore = (u, .ok l) →
      (pos < m.total → exec (.transferMatch n) s =
        .next (unitEnds n (setEntry w n { e with progress := .transfer { t with pos := pos, total := some m.total } }))) ∧
      (m.total ≤ pos → exec (.transferMatch n) s =
        .next (unitEnds n (entryDone w n e (W (min m.total t.len * 256 + (if t.len < m.total then 1 else 0))) 0 false)))) ∧
    (∀ t u bs, s.hart.aq[n]? = some e → ofRole s.hart e.addr = true → e.progress = .send t → (t.peerModule, t.peerHart) ∉ s.peersFailed →
      olderSend s n t = false →
      let k := min 256 (t.len - t.pos)
      retryBytes s + k ≤ 8 * 2 ^ 20 → sourceRead s (t.addr + W t.pos) k = (u, .ok bs) →
      ∃ m, m.toModule = t.peerModule ∧ m.toHart = t.peerHart ∧ m.fromModule = s.module ∧ m.fromHart = s.hart.hartid ∧ m.tag = t.tag ∧ m.bytes = bs ∧
        m.offset = t.pos ∧ m.total = t.len ∧
        (t.pos + k < t.len → moveUnit s n = some (unitEnds n (setEntry (sendMessage u m) n { e with progress := .send { t with pos := t.pos + k } }))) ∧
        (t.len ≤ t.pos + k → moveUnit s n =
          some (unitEnds n (entryDone (sendMessage (matchRecv u t).1 m) n e (sendResult t (matchRecv u t).2) 0 false))))

/-! ### The steps of the vector queue and of stores -/

/-- R19, R20, R47, R49: CONVOY_POST posts the gathered members as one convoy, and performs it at once when the vector queue was empty; the first condition of a member
traps precisely before anything is posted, and so does ILLEGAL_INSTRUCTION with the encoding; a held source or a full queue makes the sequencer wait. That an empty queue performs
the convoy in the same turn is log entry 78; that a linked member is charged with its pattern is log entry 88; the eight bytes of spliced code are log entry 6. -/
def Obligations.ConvoySteps : Prop :=
  ∀ (s u : State) (l : List Got) (other : Bool), s.hart.run = .running → gather s s.hart.pc 4 = (u, l, other) →
    let is := gotInstrs l
    let post := firstCondition (dctx s) is.head? other 0 l
    (∀ tr j, post = some (tr, j) → tr.cause ≠ .halt → ∃ t, exec .convoyPost s = .next t ∧ StoppedWith t tr.cause.code s.hart.pc tr.tval j ∧
      (uncommit t.hart).vq = (uncommit s.hart).vq ∧ t.hart.v = s.hart.v ∧ t.hart.x = s.hart.x ∧ t.hart.pc = s.hart.pc) ∧
    (∀ why, post = none → gotStall l = false → is ≠ [] → postWait s is = some why → exec .convoyPost s = .next (parked s why)) ∧
    (post = none → gotStall l = false → is ≠ [] → postWait s is = none →
      (s.hart.vq ≠ [] → ∃ t c, exec .convoyPost s = .next t ∧ t.hart.vq = u.hart.vq ++ [c] ∧ c.members = is ∧ c.setVl = u.hart.pend ∧ c.xs = u.hart.x ∧
        c.binds = u.hart.binds ∧ c.addr = u.hart.pc ∧ t.hart.pend = none ∧ t.hart.v = u.hart.v ∧
        t.hart.pc = u.hart.pc + W (if u.hart.splice.isSome then 8 * is.length else gotBytes l)) ∧
      (s.hart.vq = [] → exec .convoyPost s = .next (headTurn (postConvoy u is (gotBytes l))))) ∧
    (∀ (enc : Word) (m : BitVec 2), ∃ t, exec (.illegalInstruction enc m) s = .next t ∧ StoppedWith t 1 s.hart.pc enc m.toNat ∧
      (uncommit t.hart).vq = (uncommit s.hart).vq ∧ t.hart.v = s.hart.v ∧ t.hart.x = s.hart.x ∧ t.hart.pc = s.hart.pc)

/-- R21, R24, R26, R39, R53, R168 to R170, R178, R283, R298, R342, R343, R347: the steps of the vector queue: the oldest ready micro-operation of those renamed issues when
the issue slot is the stall's, and completes; one whose operand's producer is unfinished is not ready; a lane re-executes one; the head convoy retires when all of its own are
complete; a pennant is taken by the head convoy or the next entry; a queued store becomes visible after the earlier ones of its target, a combining entry retires, a commit
writes its image and then its seal, and the linked stores of an iteration are released, or trap at their own place. That an issue without an offer or a slot, and a release of
nothing, change nothing is log entry 7; the codes 0x02 and 0x04 of a re-execution and the lane's count are log entry 55; the release of a store that was not forwarded is log
entry 26; that the steps of a commit are turns of their own is log entry 38. -/
def Obligations.VectorQueueSteps : Prop :=
  ∀ (s : State) (c : Convoy) (rest : List Convoy) (n : Nat), s.hart.vq = c :: rest → s.hart.run = .running →
    let v := rename s
    (∀ a, offer v = some a → hasSlot v = true → ∃ t l l', exec .microOperationIssue s = .next t ∧
      t = { s with cores := t.cores, hart := { s.hart with renamed := v.hart.renamed, issued := s.hart.issued ++ [a] } } ∧
      (coreOf t s.hart.core).rr = (s.hart.stall + 1) % 2 ^ modeOf s ∧ modeOf t = modeOf s ∧
      renamedUops v = l ++ a :: l' ∧ a ∉ s.hart.issued ∧ uopReady v a = true ∧ ∀ x ∈ l, x ∈ s.hart.issued ∨ uopReady v x = false) ∧
    (offer v = none ∨ hasSlot v = false → exec .microOperationIssue s = .next s) ∧
    (∀ a, (renamedUops s)[n]? = some a → a ∈ s.hart.issued → a ∉ s.hart.complete →
      exec (.microOperationComplete n) s = .next { s with hart := { s.hart with complete := s.hart.complete ++ [a] } }) ∧
    (∀ a b d u i m x, convoyAt v a.1 = some (b, d) → (uopsAt v a.1)[a.2]? = some u → d.members[u.member]? = some i → memberOf i = some m → Unfinished v x →
      (∃ r, r ∈ readsOther b.hart.cur.snap i m ∧ otherProducer v a.1 u.member r = some x) ∨
        (∃ r, r ∈ readsOf (curDctx b) m ∧ producerOf v a.1 u.member r = some x ∧ bindOf b r = none ∧
          (chained i (groupOf (curDctx b) m r).1 = false ∨ m.readsDst = true ∧ r ∈ m.dsts)) →
      uopReady v a = false) ∧
    (∀ a x d (lane : Nat), (renamedUops s)[n]? = some a → a ∈ s.hart.issued → (uopsAt s a.1)[a.2]? = some x → s.hart.vq[a.1]? = some d →
      let r := coreOf s s.hart.core
      let k := s.hart.stall * (32 / 2 ^ modeOf s) + lane % (32 / 2 ^ modeOf s)
      let had := ((r.reexec.find? fun q => q.1 == k).map fun q => q.2).getD 0
      let counted := setCore s { r with reexec := (k, had + 1) :: r.reexec.filter fun q => q.1 != k }
      exec (.laneReExecution (n, lane) false) s = .next (logError counted 0x04 (dieOf s.hart.core) s.hart.core s.hart.pasid 0 0) ∧
      exec (.laneReExecution (n, lane) true) s = .next (logError { counted with hart := { s.hart with
        vq := s.hart.vq.set a.1 { d with hurt := d.hurt ++ [(x.member, x.group)] } } } 0x02 (dieOf s.hart.core) s.hart.core s.hart.pasid 0 0)) ∧
    (let u := settleEarlier s c
      let ms := c.members.filterMap memberOf
      let r := runMembers (settleCompare (beginConvoy u c) ms) ms
      (∀ k, k < (uopsOf s c).length → (0, k) ∈ s.hart.complete) → ofRole s.hart c.addr = true → s.hart.vstart = 0 → r.hart.cur.fault = none →
      r.hart.cur.wait = none → exec .convoyRetire s = .next (retire u r c.members.length)) ∧
    (∀ (b : Bool) (k : BitVec 3) p l, c.members.head? = some (.pnTake b k) → k = 0 ∨ k = 5 → c.taken = none → pnList s.hart k.toNat = p :: l →
      exec (.pennantTake k) s = .next { s with hart := { s.hart with
        vq := { c with taken := some p } :: rest, pennants := s.hart.pennants.set (k.toNat % 6) l (Nat.mod_lt _ (by decide)) } }) ∧
    (∀ (k : BitVec 3) i e p l, k = 1 ∨ k = 3 → s.hart.aq.findIdx? isFresh = some i → s.hart.aq[i]? = some e → takeOf e = some k.toNat → e.taken = none →
      pnList s.hart k.toNat = p :: l →
      exec (.pennantTake k) s = .next { s with hart := { s.hart with
        aq := s.hart.aq.set i { e with taken := some p }, pennants := s.hart.pennants.set (k.toNat % 6) l (Nat.mod_lt _ (by decide)) } }) ∧
    (writerStalls s s.hart = true → exec (.storeQueueDrain n) s = .next s) ∧
    (∀ st, s.hart.storeQ[n]? = some st → writerStalls s s.hart = false → (∀ q ∈ s.hart.storeQ.take n, targetIn s q.key ≠ targetIn s st.key) →
      exec (.storeQueueDrain n) s = .next (applyStore { s with hart := { s.hart with storeQ := s.hart.storeQ.eraseIdx n } } st) ∧
      (MemoryOk s → placeOf s st.key = some .dram → isZKey st.key = false → st.mask = 256 ^ st.n - 1 → moduleFailed s st.key = false →
        ∃ t, exec (.storeQueueDrain n) s = .next t ∧ Memory.readN t.mem st.key st.n = st.val % 256 ^ st.n ∧
          ∀ k, k < st.key ∨ st.key + st.n ≤ k → Memory.read t.mem k = Memory.read s.mem k)) ∧
    (∀ x, s.combining[n]? = some x → exec (.combiningEntryRetire n) s = .next (retireCombine { s with combining := s.combining.eraseIdx n } x)) ∧
    (∀ f m k u, c.members = [.scmt f] → c.binds = [] → c.hurt = [] → c.differs = [] → s.hart.unverified = [] → s.hart.vstart = 0 → ofRole s.hart c.addr = true →
      (c.phase = 0 → (memScmt f).run (beginConvoy s c) = commitImage f m k u → (commitImage f m k u).hart.cur.fault = none →
        (commitImage f m k u).hart.cur.phase = 1 →
        ∃ t c', exec .scmtImageWrite s = .next t ∧ t.hart.vq = c' :: rest ∧ c'.phase = 1 ∧ c'.commit = k ∧ c'.members = c.members ∧
          t.hart.storeQ = (commitImage f m k u).hart.storeQ ∧ t.hart.vwait = some none) ∧
      (c.phase = 1 → (memScmt f).run (beginConvoy s c) = commitSeal f m u → (commitSeal f m u).hart.cur.fault = none →
        (commitSeal f m u).hart.cur.phase = 2 →
        ∃ t c', exec .scmtSealWrite s = .next t ∧ t.hart.vq = c' :: rest ∧ c'.phase = 2 ∧ c'.members = c.members ∧
          t.hart.storeQ = (commitSeal f m u).hart.storeQ ∧ t.hart.vwait = some none)) ∧
    (∀ (z : State) sp i, z.hart.run = .running → z.hart.vq = [] → z.hart.splice = some sp → spliceAt z.hart = some i → i.region = 2 →
      (sp.linked = [] → exec .linkedStoreRelease z = .next z) ∧
      (∀ k t, sp.linked = [k] → (k.tag ∈ sp.both → k.forwarded = false) → releaseLinked z k = (t, none) →
        exec .linkedStoreRelease z = .next (setLinked t [])) ∧
      (∀ k t, sp.linked = [k] → (k.tag ∈ sp.both → k.forwarded = false) → releaseLinked z k = (t, some none) →
        exec .linkedStoreRelease z = .next (parked (setLinked z [k]) .migration)) ∧
      (∀ k t tr, sp.linked = [k] → (k.tag ∈ sp.both → k.forwarded = false) → releaseLinked z k = (t, some (some tr)) → tr.cause ≠ .halt →
        ∃ u, exec .linkedStoreRelease z = .next u ∧ StoppedWith u tr.cause.code k.addr tr.tval k.index ∧ u.hart.v = z.hart.v ∧ u.hart.x = z.hart.x) ∧
      (∀ k, sp.linked = [k] → k.tag ∈ sp.both → k.forwarded = true → exec .linkedStoreRelease z = .next (setLinked z [])))

/-! ### Stops, saves and modes -/

/-- R58, R59, R86 to R88, R93, R94, R96, R97, R99: a delivered trap or a pre-emption stops the running hart and writes class F; a partition is saved with the SPAD bit; a
restore of an unchanged frame into a stall of the frame's VRLEN puts the hart back where it was, and is refused otherwise (R97); the leaf ends a gang with the report of its
stopped hart; a pending mode is set, withdrawn, and taken once the harts of the core have arrived at a `vsl`, and then the latch is zero and LR is 0 (R186). The model's
choices: a mode request replaces a pending one (log entry 89); the check of the opaque part is `opaqueCells` (log entry 20); `restore` refuses at another mode (log entry 84),
changes nothing while the header's page is in migration (log entry 7), and traps SHED_LOST when the stopped hart has lost a store in flight (log entry 101). -/
def Obligations.StopsAndModes : Prop :=
  ∀ s : State,
    let h := s.hart
    let r := coreOf s h.core
    (∀ c (cause : BitVec 8) (v epc : Word) (m : BitVec 2), causeOf cause.toNat = some c → c ∉ [Cause.preempt, .repartition, .pasidGone, .halt] →
      h.run = .running → h.vq = [] → (∀ e ∈ h.aq.head?, e.addr ≠ epc) →
      ∃ t, exec (.trapDelivery cause v epc m) s = .next t ∧ StoppedWith t cause.toNat epc v m.toNat ∧ t.hart.x = h.x ∧ t.hart.v = h.v ∧
        t.hart.aq = h.aq ∧ t.hart.pc = h.pc) ∧
    (h.run = .running → h.vq = [] → ofRole h h.pc = true → ∃ t p, exec .preempt s = .next t ∧ StoppedWith t 0x20 h.pc 0 0 ∧ t.hart.stop = some p ∧ p.spad = true ∧
      p.queue = .none ∧ p.rpc = h.pc ∧ t.hart.pins = [] ∧ t.hart.x = h.x ∧ t.hart.v = h.v ∧ t.hart.aq = h.aq) ∧
    (∀ p t, h.stop = some p → p.spad = false → p.unsaved = false → p.faulted = none → h.run = .stopped → h.cause ≠ 0x14 →
      frameWalk (settlePartition s) 2048 p.frame (framesz s) = (t, none) →
      ∃ u, exec .partitionSave s = .next u ∧ u.hart.stop = some { p with spad := true } ∧ u.hart.spad = some (partitionCopy t) ∧
        u.leaf = t.leaf ++ [.partitionSaved t.hart.gangid t.hart.hartid]) ∧
    (∀ p v (core : BitVec 8) (stall : BitVec 2) (rpc : Option Word), h.stop = some p → h.run = .stopped → p.unsaved = false → p.faulted = none →
      h.cause ≠ 0x14 → stallTaken s core.toNat stall.toNat = false → stall.toNat < 2 ^ (coreOf s core.toNat).cur → core.toNat < 192 → s.dev.computeOn = true →
      (headerBytes s p = some (some v) → headerKept h p v = true → opaqueCells s p.frame (frameszOf h p) = p.opaquePart →
        p.vrl = vrlenIn (coreOf s core.toNat).cur h.prot →
        (p.spad = true ∨ p.core = core.toNat ∧ p.stall = stall.toNat) → (contextOf s h.pasid).state = 1 → (rpc = none ∨ p.queue = .sequencer) →
        (∀ va, h.lostAt = some va → ∃ t, exec (.restore core stall rpc) s = .next t ∧
          StoppedWith t Cause.shedLost.code (rpc.getD (W (bitsN v 128 64))) va 0 ∧ t.hart.lostAt = none ∧ t.hart.x = h.x ∧ t.hart.v = h.v) ∧
        (h.lostAt = none → ∃ t, exec (.restore core stall rpc) s = .next t ∧ t.hart.run = .running ∧ t.hart.pc = rpc.getD (W (bitsN v 128 64)) ∧
          t.hart.core = core.toNat ∧ t.hart.stall = stall.toNat ∧ t.hart.stop = none ∧ t.hart.vstart = p.stands ∧ t.hart.x = h.x ∧ t.hart.v = h.v ∧
          t.hart.vp = h.vp ∧ t.hart.p = h.p ∧ t.hart.tile = h.tile ∧ t.hart.sums = h.sums ∧ t.hart.cause = h.cause ∧ t.hart.epc = h.epc ∧
          t.hart.vq = h.vq ∧ t.hart.aq = h.aq ∧ t.hart.vdirty = 0 ∧ t.hart.sdirty = 0 ∧ t.hart.mdirty = 0)) ∧
      (headerBytes s p = none → exec (.restore core stall rpc) s = .next s) ∧
      (∀ b, headerBytes s p = some b →
        (b = none ∨ b = some v ∧ headerKept h p v = false) ∨ p.vrl ≠ vrlenIn (coreOf s core.toNat).cur h.prot ∨ (contextOf s h.pasid).state ≠ 1 ∨
          opaqueCells s p.frame (frameszOf h p) ≠ p.opaquePart ∨
          (p.spad = false ∧ (p.core ≠ core.toNat ∨ p.stall ≠ stall.toNat)) ∨ rpc.isSome = true ∧ p.queue ≠ .sequencer →
        exec (.restore core stall rpc) s = .next { s with leaf := s.leaf ++ [.refused h.gangid h.hartid] })) ∧
    (∀ g p, gangOf s h = some g → h.stop = some p → h.run = .stopped → p.unsaved = false → p.faulted = none → h.cause ≠ 0x14 → heldWaits s g = false →
      exec (.gangEnd h.cause) s = .next (closeGang (gangEnergy s g).2 g (stopResult h (gangEnergy s g).1)) ∧
      (s.others = [] → ∃ t, exec (.gangEnd h.cause) s = .next t ∧ t.gangs = s.gangs.filter (fun k => k.lid != g.lid) ∧ t.hart.run = .ended ∧
        t.hart.vq = [] ∧ t.hart.aq = [] ∧ t.hart.storeQ = [])) ∧
    (∀ mode : BitVec 2, mode.toNat ≠ 3 → mode.toNat ≠ r.cur → boundCore s h.core = false →
      (∀ o ∈ coreHarts s h.core, o.run = .running → mayRepartition s o = true) →
      ∃ t, exec (.stallModeRequest mode) s = .next t ∧ t = { s with cores := t.cores } ∧ coreOf t h.core = { r with pend := some mode.toNat } ∧
        ∀ c, c ≠ h.core → coreOf t c = coreOf s c) ∧
    (∀ f, instrHere s = some (.vsl f) → h.run = .running → r.pend.isSome = true → h.vq = [] → h.aq = [] → NoHold s [f.a, f.d] →
      exec .arrival s = .next (parked s .vsl)) ∧
    (∃ t, exec .pendingModeWithdraw s = .next t ∧ coreOf t h.core = { r with pend := none } ∧
      t.hart = (if h.park = some .vsl ∨ h.park = some .drain then { h with park := none, again := false } else h)) ∧
    (∀ new k gang, s.others = [] → h.run = .running → h.park = some .vsl → r.pend = some new → stallAfter r.cur new h.stall = some k →
      s.dev.computeOn = true → s.gangs.find? (fun g => g.lid == gang) = none →
      ∃ t, exec (.stallModeSwitch gang) s = .next t ∧ coreOf t h.core = { r with cur := new, pend := none } ∧ t.hart.stall = k ∧ t.hart.vl = 0 ∧
        t.hart.vstart = 0 ∧ t.hart.x = h.x ∧ t.hart.latch = { val := 0, cells := 0 } ∧ t.hart.lr = 0 ∧ t.hart.park = none ∧ t.hart.vdirty = 0xFFFFFFFF ∧ t.hart.sdirty = 0xFFFF ∧
        (h.streams = [] → h.binds = [] → ∀ i : Fin 32, t.hart.v[i] = keepBits h.v[i] (8 * min (vrlenIn r.cur h.prot) (vrlenIn new h.prot))))

/-! ### Page tables, links and modules -/

/-- R185, R269 to R279, R283: a walk leaves a TLB entry and sets A, and D for a write; a shootdown leaves no entry of its range; the management cores write a page-table
entry, assign a PASID, whose context-table entry then holds ROOT, STATE and KEY, start its teardown and free it when it has drained; a dirty block is written back; a page
migrates in three turns; two backings are exchanged. The model's choices: the three turns of a migration, what a move writes and the copy that waits (log entry 72); a step
whose condition does not hold changes nothing (log entry 7); where the context table lies (log entry 23); a page-table entry that reads as poison is not valid (log entry 106). -/
def Obligations.TranslationSteps : Prop :=
  ∀ (s : State) (pasid : BitVec 20) (va : Word),
    let p := pasid.toNat
    let a := va.toNat
    (∀ write pteAt pte level, canonical a = true → inWindow a = false → (contextOf s p).state = 1 →
      walkFor s p a = some (pteAt, pte, level) →
      let acc : Acc := if write then .store else .load
      (∃ q, leafPlace s pte (leafKey pte level a acc) = some q ∧ attrOk q pte level = true) → permitted pte acc = true → bitN pte 54 = false →
      (bitN pte 57 = true → (contextOf s p).key ≠ 0) →
      ∃ t e, exec (.pageWalk pasid va write) s = .next t ∧ t.tlb.head? = some e ∧ e.pasid = p ∧ e.base = a / leafSize pte level * leafSize pte level ∧
        e.size = leafSize pte level ∧ e.pteAt = pteAt ∧ t.hart = s.hart ∧
        (MemoryOk s → moduleFailed s pteAt = false → bitN (Memory.readN t.mem pteAt 8) 6 = true ∧ (write = true → bitN (Memory.readN t.mem pteAt 8) 7 = true))) ∧
    (∀ lo hi : Word, ((∃ h ∈ harts s, h.pasid = p ∧ linkedGone s h lo.toNat hi.toNat = true) → exec (.shootdown pasid lo hi) s = .next s) ∧
      ((∀ h ∈ harts s, h.pasid = p → h.pins = [] ∧ heldStores { s with hart := h } = []) → ∃ t, exec (.shootdown pasid lo hi) s = .next t ∧
      (∀ e ∈ t.tlb, e.pasid = p → e.base < hi.toNat → lo.toNat < e.base + e.size → False) ∧ t.hart.x = s.hart.x ∧ t.hart.v = s.hart.v)) ∧
    (∀ (pa : BitVec 56) (pte : Word), pa.toNat % 8 = 0 → placeOf s pa.toNat = some .dram → exec (.pageTableChange pa pte) s =
      .next (if moduleFailed s pa.toNat then s else { s with mem := Memory.writeN s.mem pa.toNat 8 pte.toNat })) ∧
    (∀ (root : Word) (key : BitVec 16), (contextOf s p).state = 0 → root.toNat % 4096 = 0 → ∃ t, exec (.pasidAssign pasid root key) s = .next t ∧
      t = { s with mem := t.mem } ∧ (MemoryOk s → Memory.readN t.mem (s.ctxBase + 16 * p) 16 = root.toNat + 2 ^ 64 + key.toNat * 2 ^ 80 ∧
        contextOf t p = { root := root.toNat, state := 1, key := key.toNat } ∧ (∀ q, q ≠ p → contextOf t q = contextOf s q) ∧
        ∀ k, k < s.ctxBase + 16 * p ∨ s.ctxBase + 16 * p + 16 ≤ k → Memory.read t.mem k = Memory.read s.mem k)) ∧
    (∀ id : BitVec 4, id.toNat < 4 → id.toNat = s.dev.owner → s.dev.nextOwner = 0xF → s.time < s.dev.beatAt + 2000000 → (contextOf s p).state = 1 →
      exec (.pasidTeardown id pasid) s = .next (tearDown s p) ∧
      (s.others = [] → s.hart.pasid ≠ p → (∀ g ∈ s.gangs, g.pasid ≠ p) → ∃ t, exec (.pasidTeardown id pasid) s = .next t ∧ t.hart = s.hart ∧
        (MemoryOk s → contextOf t p = { contextOf s p with state := 2 }) ∧ (∀ e ∈ t.tlb, e.pasid ≠ p) ∧ (∀ m ∈ t.migrations, m.pasid ≠ p) ∧
        (t.queues = s.queues.map fun c => if c.pasid = p ∧ c.isOpen = true then { c with goneTo := c.tail } else c) ∧
        ∀ l ∈ t.launches, l.pasid = p → waiting l = false)) ∧
    ((contextOf s p).state = 2 → ∃ t, exec (.pasidDrain pasid) s = .next t ∧ t.hart.x = s.hart.x ∧
      (MemoryOk s → contextOf t p = { root := 0, state := 0, key := 0 })) ∧
    (∀ pteAt pte level (block : BitVec 5), walkFor s p a = some (pteAt, pte, level) → bitsN pte 58 2 = 1 ∨ bitsN pte 58 2 = 2 →
      exec (.writeBack pasid va block) s = .next (writeBack s pte block.toNat)) ∧
    (∀ (pte : Word) pteAt old level, walkFor s p a = some (pteAt, old, level) →
      let half := if bitN old 60 then 3 * 2 ^ 8 else 0
      let stays := 64 + 128 + half
      let size := leafSize old level
      let base := a / size * size
      let same (m : Migration) : Bool := m.pasid == p && m.va == base
      (∀ m, s.migrations.find? same = some m → m.phase = 0 →
        (∀ t, copyPage s old m.pte level = some t → exec (.pageMigration pasid va pte) s =
          .next { t with migrations := t.migrations.map fun x => if x.pasid = p ∧ x.va = base then { x with phase := 1 } else x }) ∧
        (copyPage s old m.pte level = none → exec (.pageMigration pasid va pte) s = .next s)) ∧
      (∀ m t, s.migrations.find? same = some m → m.phase ≠ 0 →
        shootdown (putLeaf s pteAt old fun e => m.pte - (m.pte &&& stays) + (e &&& stays)) p base (base + size) = some t →
        exec (.pageMigration pasid va pte) s = .next { t with migrations := t.migrations.filter fun x => !(x.pasid == p && x.va == base) }) ∧
      (∀ q t, s.migrations.find? same = none → bitN old 54 = false →
        let fields := 3 * 2 ^ 58 + (2 ^ 44 - 1) * 2 ^ 10 + (3 * 2 ^ 8 - half)
        let new := old - (old &&& fields) + (pte.toNat &&& fields)
        leafOk new level = true → sameKind s (bitsN old 10 44 * 4096) (bitsN new 10 44 * 4096) = true → placeOf s (bitsN new 10 44 * 4096) = some q →
        attrOk q new level = true →
        shootdown (putLeaf s pteAt old fun e => e ||| 2 ^ 54) p base (base + size) = some t →
        exec (.pageMigration pasid va pte) s = .next { t with migrations := t.migrations ++ [{ pasid := p, va := base, pte := new, phase := 0 }] })) ∧
    (∀ (base len : Word) l, base.toNat % 4096 = 0 → len.toNat % 4096 = 0 → shadowPages s p (len.toNat / 4096) base = .ok l →
      flipHeld s p base len.toNat l = false → exec (.backingExchange pasid base len) s = .next (exchange s l))

/-- R285 to R287, R289, R304, R350: a request that stays in one 128-byte block is sent under the lowest free tag; a read reply holds the bytes as the link carries them and their poison; a write
to a DRAM module is performed with its acknowledgement, and a Loft module acknowledges nothing that it has not made durable; a failed link answers reads with poison, drops writes, and loses what was outstanding.
The model's choices: a write is performed with its acknowledgement and a read waits for earlier acknowledgements (log entry 70); a Loft acknowledgement of what is not durable
changes nothing (log entry 7); a link failure reports a Loft module lost (log entry 83); the bytes of a sealed granule as the link carries them are computed (log entry 121). -/
def Obligations.LinkSteps : Prop :=
  ∀ (s : State) (m : BitVec 6) (addr : BitVec 40) (len : BitVec 3) (k : Nat), packetOk addr.toNat len.toNat = true → linkKey s m.toNat addr.toNat = some k →
    let sc := addr.toNat / 128 % 32
    let n := 32 * len.toNat
    let sent (tag cmd mask data : Nat) (pois : Bool) : State := { s with packets := s.packets ++
      [{ module := m.toNat, cmd := cmd, sc := sc, tag := tag, len := len.toNat, addr := addr.toNat, mask := mask, data := data, pois := pois }] }
    (m.toNat ∈ s.linkFailed →
      (∃ t r, exec (.linkRd m addr len) s = .next t ∧ t.replies.head? = some r ∧ r.module = m.toNat ∧ r.pois = true ∧ t.packets = s.packets) ∧
      ∀ d p, exec (.linkWr m addr len d p) s = .next s) ∧
    (∀ tag, m.toNat ∉ s.linkFailed → freeTag s m.toNat sc = some tag →
      exec (.linkRd m addr len) s = .next (sent tag 1 0 0 false) ∧
      (∀ d p, isLoftKey k = false → exec (.linkWr m addr len d p) s = .next (sent tag 2 (2 ^ n - 1) (beats d n) p)) ∧
      ∀ (mask : BitVec 128) d p, isLoftKey k = false → mask.toNat < 2 ^ n →
        exec (.linkWrm m addr len mask d p) s = .next (sent tag 3 mask.toNat (beats d n) p)) ∧
    (∀ (sc : BitVec 5) (tag : BitVec 3) i q, answered s m sc tag = some i → s.packets[i]? = some q → q.module = m.toNat → q.addr = addr.toNat → q.len = len.toNat →
      isLoftKey k = false →
      (q.cmd = 1 → (∀ x ∈ s.packets.take i, clash q x = false ∨ x.cmd = 1) → ∃ t r,
        exec (.linkRdr m sc tag 0) s = .next t ∧ t.packets = s.packets.eraseIdx i ∧ t.replies.head? = some r ∧ r.module = m.toNat ∧ r.tag = q.tag ∧
        r.sc = q.sc ∧ r.addr = q.addr ∧ r.err = false ∧ r.data = linkBytes s s.mem k n ∧
        ((∀ g ∈ granulesOf k n, g ∉ s.sealed) → r.data = Memory.readN s.mem k n) ∧ (r.pois = true ↔ ∃ g ∈ granulesOf k n, granulePois s g = true) ∧ r.ce = false ∧ t.mem = s.mem) ∧
      (q.cmd ≠ 1 → (∀ x ∈ s.packets.take i, clash q x = false) → ∃ t r,
        exec (.linkWra m sc tag 0) s = .next t ∧ t.packets = s.packets.eraseIdx i ∧ t.replies.head? = some r ∧ r.module = m.toNat ∧ r.cmd = 0x82 ∧
        r.tag = q.tag ∧ r.err = false ∧ (MemoryOk s → (∀ g ∈ granulesOf k n, g ∉ s.sealed) → (∀ j, j < n → Memory.read t.mem (k + j) =
            if bitN q.mask j then BitVec.ofNat 8 (q.data / 256 ^ j) else Memory.read s.mem (k + j)) ∧
          ∀ j, j < k ∨ k + n ≤ j → Memory.read t.mem j = Memory.read s.mem j))) ∧
    (∀ (sc : BitVec 5) (tag : BitVec 3) i q, answered s m sc tag = some i → s.packets[i]? = some q → q.module = m.toNat → q.addr = addr.toNat →
      q.len = len.toNat → isLoftKey k = true → q.cmd ≠ 1 →
      (∀ x ∈ s.packets.take i, clash q x = false) →
      let u := { s with packets := s.packets.eraseIdx i }
      (loftWrite u k n q.mask q.data q.pois = none → exec (.linkWra m sc tag 0) s = .next s) ∧
      (∀ w, loftWrite u k n q.mask q.data q.pois = some w → ∃ t r, exec (.linkWra m sc tag 0) s = .next t ∧ t.packets = s.packets.eraseIdx i ∧
        t.durable = w.durable ∧ t.loftPend = w.loftPend ∧ t.mem = s.mem ∧ t.replies.head? = some r ∧ r.module = m.toNat ∧ r.cmd = 0x82 ∧ r.tag = q.tag ∧ r.err = false ∧
        (q.pois = true → ∀ j, j < n → bitN q.mask j = true → granule (k + j) ∈ t.durablePoison))) ∧
    (m.toNat ∉ s.linkFailed → ∃ t, exec (.moduleLinkFailure m) s = .next t ∧ m.toNat ∈ t.linkFailed ∧ (∀ q ∈ t.packets, q.module ≠ m.toNat) ∧
      (m.toNat < s.drams → t.loftPend = s.loftPend ∧ t.loftLost = s.loftLost) ∧ (s.drams ≤ m.toNat → (m.toNat - s.drams) ∈ t.loftLost) ∧ t.mem = s.mem)

/-- R184, R306, R311, R312, R314, R346, R348, R352, R353, R354, R357: the aperture reads and writes a doubleword of device DRAM, but reads all ones from a sealed granule and drops a
write to it, with a record; a scrub pass poisons a granule with an uncorrectable error; a quota is changed, a switch fails and loses its blocks with the stores in flight to them, and
returns empty; a spare takes the number of a quarantined core with a zeroed scratchpad; an error that a unit cannot mask poisons the summary or the element group that it hits,
and a compare of copies that passes on its retry is logged. The model's choices: the replaced core's scratchpad reads zero (log entry 76); what is in flight at a switch failure is
dropped with a trap, and performed before a quota changes (log entry 101); upsets come as inputs of the agenda (log entry 104); a scrub pass names what it finds (log entry 71). -/
def Obligations.ModuleSteps : Prop :=
  ∀ (s : State) (off : BitVec 36) (v : Word) (plane : BitVec 4) (core : BitVec 8),
    let k := off.toNat / 8 * 8
    let p := plane.toNat
    let c := core.toNat
    (placeOf s k = some .dram →
      (k / 64 ∈ s.sealed → exec (.bar2Write off v) s = .next (logError s 0x0B 4 0 0 k 0) ∧
        ∃ t, exec (.bar2Read off) s = .next t ∧ t.dev.readBack = BitVec.allOnes 64 ∧ t.mem = s.mem) ∧
      (k / 64 ∉ s.sealed → granulePois s (k / 64) = false → moduleFailed s k = false →
        exec (.bar2Read off) s = .next { s with dev := { s.dev with readBack := W (memRead s k 8) } }) ∧
      (MemoryOk s → k / 64 ∉ s.sealed → moduleFailed s k = false → ∃ t, exec (.bar2Write off v) s = .next t ∧ Memory.readN t.mem k 8 = v.toNat ∧
        t.hart = s.hart ∧ ∀ j, j < k ∨ k + 8 ≤ j → Memory.read t.mem j = Memory.read s.mem j)) ∧
    (let u := { s with cores := s.cores.map fun r => { r with reexec := [] } }
    exec (.scrubPass none) s = .next u ∧
      ∀ n, (isOwn n = false → exec (.scrubPass (some n)) s = .next u) ∧
        (isOwn n = true → exec (.scrubPass (some n)) s = .next (logError { u with poison := insertN (granule n) s.poison } 0x02 (dieOfArray n)
          (if isSpadKey n then (n - 2 ^ 57) / 2 ^ 21 else 0) 0 n 0))) ∧
    (∀ tenant quota, ∃ t, exec (.quotaChange plane tenant quota) s = .next t ∧ quotaOf t p tenant = min quota 49152 ∧
      (∀ q w, (q, w) ≠ (p, tenant) → quotaOf t q w = quotaOf s q w) ∧ t.sheds.blocks.length = s.sheds.blocks.length ∧
      t.sheds.failed = s.sheds.failed ∧ ((∀ h ∈ harts s, ∀ st ∈ h.storeQ, isShedKey st.key = false) → t.mem = s.mem) ∧
      (min quota 49152 ≤ quotaOf s p tenant → ∀ (j : Nat) b, s.sheds.blocks[j]? = some b → t.sheds.blocks[j]? = some { b with
        overQ := b.overQ || holdsBlock s p tenant b && decide (min quota 49152 ≤ (s.sheds.blocks.take j).countP (holdsBlock s p tenant)) })) ∧
    (∃ t, exec (.switchFailure plane) s = .next t ∧ p ∈ t.sheds.failed ∧ (∀ h ∈ harts t, ∀ st ∈ h.storeQ, lostStore t st = false) ∧
      t.sheds.blocks = (s.sheds.blocks.map fun b => if b.plane = p then { b with lost := true } else b) ∧
      ((∀ h ∈ harts s, ∀ st ∈ h.storeQ, isShedKey st.key = false) → t.mem = s.mem) ∧
      ∀ u st, u = { logError s 0x09 7 p 0 0 0 with sheds := t.sheds } → s.others = [] → s.hart.storeQ.find? (lostStore u) = some st →
        (s.hart.run = .running → StoppedWith t Cause.shedLost.code s.hart.pc (arenaVa u st.key) 0) ∧
        (s.hart.run = .stopped → t.hart.run = .stopped ∧ t.hart.lostAt = some (s.hart.lostAt.getD (arenaVa u st.key)))) ∧
    (p ∈ s.sheds.failed → ∃ t, exec (.switchReturn plane) s = .next t ∧ p ∉ t.sheds.failed ∧ t.sheds.blocks = s.sheds.blocks ∧
      ∀ j, shedKey p 0 ≤ j → j < shedKey p 0 + 2 ^ 37 → Memory.read t.mem j = 0) ∧
    (let due := 2 ≤ (coreOf s c).mismatches ∨ (∃ q ∈ (coreOf s c).reexec, 16 < q.2) ∨ c ∈ s.dev.asked
    (¬due → exec (.coreQuarantine core) s = .next s) ∧
      (due → c < 192 → (coreOf s c).gone = false →
        ((∀ h ∈ harts s, runsOn h c = false) → ∃ t, exec (.coreQuarantine core) s = .next t ∧ c ∉ t.dev.asked ∧
          let r := { coreOf s c with mismatches := 0, reexec := [] }
          ((∃ r ∈ s.cores, clusterOf r.id = clusterOf c ∧ r.spare = true) → coreOf t c = { r with gone := true }) ∧
          ((∀ r ∈ s.cores, clusterOf r.id = clusterOf c → r.spare = false) → coreOf t c = { r with spare := true } ∧
            ∀ j, spadKey c ≤ j → j < spadKey c + 2 ^ 21 → Memory.read t.mem j = 0)) ∧
        (s.others = [] → s.hart.run = .running → runsOn s.hart c = true → s.hart.vq = [] → ∃ t, exec (.coreQuarantine core) s = .next t ∧
          t.hart.run = .stopped ∧ t.hart.cause = 0x20))) ∧
    (s.hart.run = .running → s.hart.prot = true ∨ s.hart.duplex = true →
      applyUpset s .retried = logError s 0x05 (dieOf s.hart.core) s.hart.core s.hart.pasid 0 0) ∧
    (∀ (n : Nat) st, s.hart.run = .running → s.hart.duplex = true → s.hart.storeQ[n]? = some st → st.queue ≠ .vector →
      StoppedWith (applyUpset s (.storeCopy n)) Cause.mismatch.code s.hart.pc 0 0) ∧
    (s.hart.run = .running → ∀ (n : Fin 16) (r : Fin 32) (g : Nat), (applyUpset s (.summary n)).hart.sums[n] = s.hart.sums[n].map poisonSum ∧
      (let t := applyUpset s (.vector r g)
      t.hart.v = s.hart.v ∧ t.hart.vp[r] = s.hart.vp[r] ||| groupCells 16384 (4 * groupBytes s) g))

/-! ### The launch engine -/

/-- R318 to R332, R336: QTAIL and QREPRIO are written by the function that owns the queue; a record is fetched and counted, or completes with its refusal; a launch becomes ready, after those that were ready before it,
once its dependences are met and fails with them; a marked launch without a partner is decided with 0x10; the best candidate that fits is selected and bound to its places, where its
gang starts once the strip table is written; a die steals half of the largest share of strips; a completion record is written, then DONE and the interrupt. The model's choices:
one selected launch at a time (log entry 36), the lowest free places (35), BADIMAGE at selection and start too (60), a strip table whose page moves keeps the gang waiting (65),
the 0x10 of a marked launch and what a refused pair's consumer keeps (68), the cores of a projection (82), a measured draw that is free (5), the places of a quarantined core (105). -/
def Obligations.LaunchSteps : Prop :=
  ∀ (s : State) (q : BitVec 6) (lid : Word),
    let c := queueOf s q
    let fn := BitVec.ofNat 1 (q.toNat / 32)
    let slot (base : Word) (n : Nat) : Word := base + W (n % 2 ^ c.log2 * 64)
    let has (t : State) (i : Word) (f : Launch → Prop) : Prop := ∃ l, launchOf t i = some l ∧ f l
    (∀ v : Word, s.dev.ready = true →
      (c.isOpen = false → c.tail ≤ v.toNat → v.toNat ≤ c.head + 2 ^ c.log2 → exec (.qtailWrite fn q v) s = .next (setQueue s q { c with tail := v.toNat })) ∧
      (c.isOpen = true ∨ v.toNat < c.tail ∨ c.head + 2 ^ c.log2 < v.toNat → exec (.qtailWrite fn q v) s = .next s) ∧
      (exec (.qtailWrite (~~~fn) q v) s = .next s ∧ exec (.qreprioWrite (~~~fn) q v) s = .next s) ∧
      (∃ t, exec (.qreprioWrite fn q v) s = .next t ∧ queueOf t q = { c with reprio := v &&& 0xFFFFFFFFFFFFFF07 } ∧
        ∀ l, s.launches.find? (fun l => l.queue == q.toNat && l.seq == v.toNat / 256) = some l → l.consumer = false →
          (l.phase = .fetched ∨ l.phase = .ready → launchOf t l.lid = some { l with prio := v.toNat % 8 }) ∧
          (l.phase ≠ .fetched → l.phase ≠ .ready → t.launches = s.launches))) ∧
    (c.head < c.goneTo → ∃ w l, exec (.recordFetch q) s = .next w ∧ queueOf w q = { c with head := c.head + 1 } ∧ w.launches = s.launches ++ [l] ∧
      l.phase = .ended ∧ l.result.code = 3 ∧ l.lid = W (q.toNat * 2 ^ 56 + (c.head + 1))) ∧
    (∀ t, c.goneTo ≤ c.head → c.en = true → c.head < c.tail → waitingIn s q.toNat < 16 → s.dev.tdisp[q.toNat / 32]? = some .run →
      ((contextOf s c.pasid).state ≠ 1 → (contextOf s c.pasid).state ≠ 2 → ∃ w l, exec (.recordFetch q) s = .next w ∧
        queueOf w q = { c with head := c.head + 1 } ∧ w.launches = s.launches ++ [l] ∧ l.phase = .ended ∧ l.result.code = 3 ∧
        l.lid = W (q.toNat * 2 ^ 56 + (c.head + 1))) ∧
      ((contextOf s c.pasid).state = 1 → (∀ r u i, engineRead s c.pasid (slot c.base c.head) 64 = (t, .ok (r, false)) → recordOk r = true → hdr r 0x0C 4 = c.pasid →
        readJob t c.pasid (W (hdr r 0 8)) = (u, .ok i) → ∃ w l, exec (.recordFetch q) s = .next w ∧
          queueOf w q = { c with head := c.head + 1 } ∧ w.launches = u.launches ++ [l] ∧ l.phase = .fetched ∧
          l.lid = W (q.toNat * 2 ^ 56 + (c.head + 1)) ∧ l.seq = c.head ∧ l.queue = q.toNat ∧ l.image = W (bitsN r 0 64) ∧ l.prio = bitsN r 64 8 ∧
          l.pasid = c.pasid) ∧
      (let refused (u : State) (code : Nat) (tval : Word) : Prop := ∃ w l, exec (.recordFetch q) s = .next w ∧
        queueOf w q = { c with head := c.head + 1 } ∧ w.launches = u.launches ++ [l] ∧ l.phase = .ended ∧ l.result.code = code ∧
        l.result.tval = tval ∧ l.lid = W (q.toNat * 2 ^ 56 + (c.head + 1))
      let read := engineRead s c.pasid (slot c.base c.head) 64
      (∀ tr, read = (t, .error (some tr)) → refused t 6 (slot c.base c.head)) ∧
      (∀ r, read = (t, .ok (r, true)) → refused t 6 (slot c.base c.head)) ∧
      ∀ r, read = (t, .ok (r, false)) → (recordOk r = false → refused t 6 0) ∧
        (recordOk r = true → hdr r 0x0C 4 ≠ c.pasid → refused t 3 0) ∧
        ∀ u a, recordOk r = true → hdr r 0x0C 4 = c.pasid → readJob t c.pasid (W (hdr r 0 8)) = (u, .bad a) → refused u 4 a))) ∧
    (∀ l, launchOf s lid = some l → l.phase = .fetched → l.consumer = false →
      ((∀ i, i < l.deps.length → i ∈ l.met) → ∃ t, exec (.launchReady lid) s = .next t ∧ t.hart = s.hart ∧
        has t lid fun m => m.phase = .ready ∧ m.readyAt = s.time ∧ m.prio = l.prio ∧ ∀ k ∈ s.launches, k.readyNo < m.readyNo) ∧
      (∀ d v, l.deps = [d] → l.met = [] → d.kind = 1 → standing s d.a = .held v → v.toNat % 256 ≠ 0 → ∃ t, exec (.launchReady lid) s = .next t ∧
        has t lid fun m => m.phase = .ended ∧ m.result.code = 5 ∧ m.result.tval = d.a)) ∧
    (∀ p k, launchOf s lid = some p → p.phase = .ready → p.decided = false → p.pair = none →
      s.launches.find? (fun k => k.queue == p.queue && k.seq == p.seq + 1) = some k → k.lid ≠ lid →
      (mayPair p k = false → ∃ t, exec (.pairDecision lid) s = .next t ∧ has t lid fun m => m.phase = .ready ∧ m.decided = true ∧ m.hreason = 0x10) ∧
      (∀ x y pi ci t n, mayPair p k = true → readJob s p.pasid p.image = (x, .ok pi) → readJob s k.pasid k.image = (y, .ok ci) →
        planPair s p.pasid pi ci = (t, some (.ok n)) → exec (.pairDecision lid) s = .next (joinPair t p k n))) ∧
    (∀ x, (∀ l ∈ s.launches, l.phase ≠ .selected) → s.launches.findSome? (badImage s) = some x →
      exec .schedulerSelection s = .next (endBoth s x.1 (refusal 4 x.2))) ∧
    ((∀ l ∈ s.launches, l.phase ≠ .selected ∧ badImage s l = none) →
      let n := takeFree s
      let bound (l : Launch) : Launch := { l with phase := .selected, places := stallsFor s l }
      let room := 16 * (s.dev.pwrlim - (Config.power n.1).toNat % 65536)
      (∀ x, best s ((candidates s).filter fun x => decide (projected s x.1 x.2 ≤ room)) = some x →
        ∃ t, exec .schedulerSelection s = .next t ∧ launchOf t x.1.lid = some (bound x.1) ∧ t.dev.clocks = s.dev.clocks) ∧
      (∀ x, best s ((candidates s).filter fun x => decide (projected s x.1 x.2 ≤ room)) = none → best s (candidates s) = some x →
        ∃ t, exec .schedulerSelection s = .next t ∧ launchOf t x.1.lid = some (bound x.1))) ∧
    (∀ l t i ext, launchOf s lid = some l → l.phase = .selected → l.plan = none → readJob s l.pasid l.image = (t, .ok i) → pickExtents t i.ng = some ext →
      t.launches = s.launches →
      (boundPlaces t l i = none → ∃ u, exec (.gangStart lid) s = .next u ∧ has u lid fun m => m.phase = .ready ∧ m.places = []) ∧
      ∀ places, boundPlaces t l i = some places →
        let strips := writeStrips (giveArena t l.pasid l.lid i.ava ext) l.pasid i places
        (strips = none → exec (.gangStart lid) s = .next s) ∧
        (strips.isSome = true → ∃ u, exec (.gangStart lid) s = .next u ∧ gangFrom l i none ∈ u.gangs ∧
          (has u lid fun m => m.phase = .running ∧ m.places = []) ∧
          ∀ n pl, places[n]? = some pl → startHart l.lid l.pasid pl.1 pl.2 n i ∈ harts u)) ∧
    (∀ g t v x d w e, s.gangs.find? (fun g => g.lid == lid) = some g → g.stab ≠ 0 → engineRead s g.pasid g.stab 64 = (t, .ok (v, x)) →
      let es := stripEntries v
      (List.range 4).find? (fun d => ((es[d]?).map fun e => decide (e.2 ≤ e.1)).getD false &&
        (harts t).any fun h => sameGang g h && h.run == .running && dieOf h.core == d) = some d →
      stripVictim es = some w → es[w]? = some e →
      let k := (e.2 - e.1) / 2
      let first := engineWrite t g.pasid (g.stab + W (0x10 + 8 * w)) 8 (e.1 + 2 ^ 32 * (e.2 - k))
      first.2 ≠ .error none →
      let t := (engineWrite first.1 g.pasid (g.stab + W (0x10 + 8 * d)) 8 (e.2 - k + 2 ^ 32 * e.2)).1
      exec (.stripSteal lid) s = .next (engineWrite t g.pasid g.stab 8 (hdr v 0 8 + 1)).1) ∧
    (∀ l w r, s.launches.find? (fun l => l.queue == q.toNat && l.seq == c.done) = some l → l.phase = .ended →
      engineWrite (settleGang s l.lid) c.pasid (slot c.cbase c.done) 64 (recordNum l) = (w, r) →
      (r = .error none → exec (.completionRecord q) s = .next (settleGang s l.lid)) ∧
      (r = .ok () → ∃ t, exec (.completionRecord q) s = .next t ∧ queueOf t q = { queueOf w q with done := c.done + 1 } ∧ t.mem = w.mem ∧
        t.dev.msi = w.dev.msi ++ (if c.irq then [(q.toNat / 32, q.toNat % 32)] else [])))

/-! ### Management -/

/-- R318, R327, R348, R354 to R361: the management registers and what a read of them returns, ownership, the power limit and the error log, measurements and keys, the interface
states, and the clocks. The model's choices: the headroom that a clock raise asks (log entry 102), the session that a key write asks (log entry 74), what a digest is a function
of (log entry 123), and that the measured draw, the responder's key and its signature are free (log entry 5). -/
def Obligations.ManagementSteps : Prop :=
  ∀ (s : State) (id : BitVec 4) (v : Word) (fn : BitVec 1),
    let d := s.dev
    let i := id.toNat
    let gives (e : Instr) (x : Device) : Prop := exec e s = .next { s with dev := x }
    let calm : Prop := (d.nextOwner = 0xF ∨ s.time < d.nextAt + 1000000) ∧ (d.owner = 0xF ∨ s.time < d.beatAt + 2000000)
    (∀ q : BitVec 6, q.toNat / 32 = fn.toNat → d.ready = true → calm →
      let c := queueOf s q
      let reg (n : Nat) : BitVec 25 := BitVec.ofNat 25 (0x100000 + q.toNat * 0x80 + n)
      exec (.managementRegisterWrite fn (reg 0) v) s = .next (setQueue s q { c with en := v.getLsbD 0, irq := v.getLsbD 1 }) ∧
      (c.en = false → c.head = c.tail → c.tail = c.done →
        exec (.managementRegisterWrite fn (reg 0x08) v) s = .next (setQueue s q { c with base := v &&& 0xFFFFFFFFFFFFF000 }) ∧
        exec (.managementRegisterWrite fn (reg 0x10) v) s = .next (setQueue s q { c with cbase := v &&& 0xFFFFFFFFFFFFF000 }) ∧
        exec (.managementRegisterWrite fn (reg 0x20) v) s = .next (setQueue s q { c with isOpen := v.getLsbD 20, pasid := v.toNat % 2 ^ 20 })) ∧
      (c.en = true → exec (.managementRegisterWrite fn (reg 0x08) v) s = .next s ∧ exec (.managementRegisterWrite fn (reg 0x20) v) s = .next s)) ∧
    (i < 4 → calm → d.owner = 0xF ∨ d.nextOwner = i → ∃ t, exec (.ownclaim id v) s = .next t ∧ t.dev.owner = i ∧ t.dev.nextOwner = 0xF ∧ t.dev.ownnonce = v ∧
      t.dev.beatAt = s.time ∧ t.hart = s.hart ∧ t.mem = s.mem) ∧
    (i < 4 → calm → d.owner ≠ 0xF → d.nextOwner ≠ i → d.owner ≠ i → exec (.ownclaim id v) s = .next s) ∧
    (i < 4 → d.owner ≠ 0xF → d.owner ≠ i → s.time < d.beatAt + 2000000 → d.nextOwner = i → d.nextAt + 1000000 ≤ s.time →
      gives (.ownclaim id v) { d with nextOwner := 0xF }) ∧
    (d.owner ≠ 0xF → d.beatAt + 2000000 ≤ s.time → ∀ e ∈ [Instr.ownbeat id, .pwrlim id v, .ownstatNextWrite id v], ∃ t, exec e s = .next t ∧
      t.dev.owner = 0xF ∧ t.dev.nextOwner = 0xF ∧ t.dev.pwrlim = d.pwrlim) ∧
    (i < 4 → i = d.owner → calm → v.toNat / 16 % 16 < 4 ∨ v.toNat / 16 % 16 = 0xF →
      gives (.ownstatNextWrite id v) { d with nextOwner := v.toNat / 16 % 16, nextAt := s.time }) ∧
    (i ≠ d.owner ∨ 4 ≤ i → calm → exec (.ownstatNextWrite id v) s = .next s ∧ exec (.ownbeat id) s = .next s ∧ exec (.pwrlim id v) s = .next s) ∧
    (d.nextOwner ≠ 0xF → d.nextAt + 1000000 ≤ s.time → gives .handoverTimeout { d with nextOwner := 0xF }) ∧
    (i < 4 → i = d.owner → calm → gives (.ownbeat id) { d with beatAt := s.time }) ∧
    (d.owner ≠ 0xF → d.beatAt + 2000000 ≤ s.time → ∃ t, exec .heartbeatTimeout s = .next t ∧ t.dev.owner = 0xF ∧ t.dev.nextOwner = 0xF) ∧
    (i < 4 → i = d.owner → calm → gives (.pwrlim id v) { d with pwrlim := max 1600 (min (v.toNat % 65536) 3200) }) ∧
    (d.elogTail ≤ v.toNat → v.toNat ≤ d.elogHead → gives (.elogtail v) { d with elogTail := v.toNat }) ∧
    (v.toNat < d.elogTail ∨ d.elogHead < v.toNat → exec (.elogtail v) s = .next s) ∧
    (gives (.eloglost v) { d with elogLost := (W d.elogLost &&& ~~~v).toNat }) ∧
    (∃ l, gives (.getMeasurements fn) { d with spdm := d.spdm.set fn.toNat l } ∧ l.length = 294 ∧ ∀ b, b < 6 →
      let of := if b < 4 then [] else measuredBy s (b + 1)
      l[49 * b]? = some (BitVec.ofNat 8 (b + 1)) ∧
        ∀ j, j < 48 → l[49 * b + 1 + j]? = some (BitVec.ofNat 8 ((Config.measurement (b + 1) of).toNat / 256 ^ j))) ∧
    (∃ t l, exec (.keyExchange fn) s = .next t ∧
      t.dev = { d with spdm := d.spdm.set fn.toNat l, session := d.session.set fn.toNat true } ∧ l.length = 192) ∧
    (∀ (slot : BitVec 12) (key : BitVec 512), i < 4 → i = d.owner → calm → d.ready = true → d.session[i]? = some true → slot ≠ 0 → MemoryOk s →
      (∀ p, p < 2 ^ 20 → (contextOf s p).state = 1 → (contextOf s p).key ≠ slot.toNat) →
      gives (.keySlotWrite id slot key) { d with keys := (slot.toNat, key) :: d.keys.filter fun k => k.1 != slot.toNat } ∧
      gives (.keySlotErase id slot) { d with keys := d.keys.filter fun k => k.1 != slot.toNat }) ∧
    (∀ (slot : BitVec 12) (key : BitVec 512), calm → slot = 0 ∨ i ≠ d.owner ∨ d.ready = false ∨
        MemoryOk s ∧ (∃ p, p < 2 ^ 20 ∧ (contextOf s p).state = 1 ∧ (contextOf s p).key = slot.toNat) → exec (.keySlotWrite id slot key) s = .next s ∧ exec (.keySlotErase id slot) s = .next s) ∧
    ((∀ st, st ≠ .error → gives (.tdispInterfaceStateChange fn st) { d with tdisp := d.tdisp.set fn.toNat st }) ∧
      ((∀ q : BitVec 6, (contextOf s (queueOf s q).pasid).state ≠ 1) → gives (.tdispError fn) { d with tdisp := d.tdisp.set fn.toNat .error })) ∧
    (∃ t, exec .powerLimitExceeded s = .next t ∧ (∀ k : Fin 24, t.dev.clocks[k] = max 1 (d.clocks[k] - 1)) ∧ t.hart = s.hart) ∧
    (∀ (k : BitVec 5) (h : k.toNat < 24),
      let room := 16 * (d.pwrlim - (Config.power (takeFree s).1).toNat % 65536)
      (d.clocks[k.toNat] < 16 → raiseWatts s k.toNat ≤ room → ∃ t, exec (.clockRaise k) s = .next t ∧
        ∀ j : Fin 24, t.dev.clocks[j] = if j.val = k.toNat then d.clocks[j] + 1 else d.clocks[j]) ∧
      (16 ≤ d.clocks[k.toNat] ∨ room < raiseWatts s k.toNat → exec (.clockRaise k) s = .next s)) ∧
    (∀ die : BitVec 2, (∃ t, exec (.dieTemperature105 die) s = .next t ∧
        ∀ j : Fin 24, t.dev.clocks[j] = if j.val / 6 = die.toNat then min d.clocks[j] 4 else d.clocks[j]) ∧
      (∃ t, exec (.supplySag die) s = .next t ∧ t.mem = s.mem ∧ t.hart = { s.hart with
        stretch := s.hart.stretch + (if s.hart.run = .running ∧ dieOf s.hart.core = die.toNat then 1 else 0) })) ∧
    (∃ t, exec .dieTemperature115 s = .next t ∧ t.dev.computeOn = false) ∧
    (s.others = [] → s.hart.run = .running → s.hart.vq = [] → ∃ t, exec .dieTemperature115 s = .next t ∧ t.dev.computeOn = false ∧ t.hart.run = .stopped ∧
      t.hart.cause = 0x20) ∧
    (∀ (off : Nat) rest, calm → step { s with agenda := .mgmtRead off :: rest } =
      .next { s with agenda := rest, dev := { d with readBack := mgmtValue s off } }) ∧
    (mgmtValue s 0x00 = (if d.ready then 1 else 0) ∧ mgmtValue s 0x08 = 0 ∧ mgmtValue s 0x10 = d.ownnonce ∧ mgmtValue s 0x18 = W (16 * d.nextOwner + d.owner) ∧
      mgmtValue s 0x20 = d.ownbeat ∧ mgmtValue s 0x40 = W d.pwrlim ∧ mgmtValue s 0x48 = W d.pwrnow ∧ mgmtValue s 0x50 = W d.temp ∧
      mgmtValue s 0x80 = W d.elogHead ∧ mgmtValue s 0x88 = W d.elogTail ∧ mgmtValue s 0x90 = W d.elogLost ∧
      ∀ q : BitVec 6, let c := queueOf s q
        let reg (n : Nat) : Word := mgmtValue s (0x100000 + 0x80 * q.toNat + n)
        reg 0x00 = W ((if c.en then 1 else 0) + (if c.irq then 2 else 0)) ∧ reg 0x08 = c.base ∧ reg 0x10 = c.cbase ∧ reg 0x18 = W c.log2 ∧
        reg 0x20 = W (c.pasid + (if c.isOpen then 2 ^ 20 else 0)) ∧ reg 0x28 = W c.head ∧ reg 0x30 = W c.tail ∧ reg 0x38 = W c.done ∧ reg 0x40 = c.reprio)

/-- R301 to R304, R361: a loss of power, or a device reset, leaves the state of reset but for what the Loft modules hold durably and what other machines hold; bring-up clears the
module's own memory, restores the Loft from what is durable, reports the modules that could not drain, and sets READY. That a loss of power drops the shed blocks is log entry 73,
and that bring-up of a device that is ready changes nothing is log entry 7. -/
def Obligations.PowerSteps : Prop :=
  ∀ s : State,
    (∀ e ∈ [Instr.powerLoss, .deviceReset], ∃ t, exec e s = .next t ∧ t.hart = State.reset.hart ∧ t.others = [] ∧ t.dev = State.reset.dev ∧
      t.queues = State.reset.queues ∧ t.launches = [] ∧ t.gangs = [] ∧ t.tlb = [] ∧ t.loftPend = [] ∧ t.combining = [] ∧ t.packets = [] ∧
      t.cores = [] ∧ t.sheds.blocks = [] ∧ t.durable = s.durable ∧ t.durablePoison = s.durablePoison ∧
      (MemoryOk s → ∀ k, k < 0x0040000000000000 → Memory.read t.mem k = 0)) ∧
    (s.dev.ready = false → (∃ t, exec (.powerOn [] []) s = .next t ∧ t.dev = { s.dev with ready := true } ∧ t.hart = State.reset.hart ∧ t.others = [] ∧
        t.durable = s.durable ∧ (MemoryOk s → (∀ c ∈ s.durable, isLoftKey c.1 = true) → ∀ k, Memory.read t.mem k =
          if isLoftKey k then Memory.read s.durable k
          else if 0x0040000000000000 ≤ k ∧ isSpadKey k = false ∧ isZKey k = false then Memory.read s.mem k else 0)) ∧
      ∀ n, n < s.lofts → ∃ t, exec (.powerOn [n] []) s = .next t ∧ t.dev.ready = true ∧ n ∈ t.loftLost) ∧
    (∀ l b, s.dev.ready = true → exec (.powerOn l b) s = .next s)

/-! ### The machine as a whole -/

/-- Every instruction and every event answers a next state in every state, and so does every step: nothing of the table stops the machine. (What this says of events whose
precondition is not met, that they change nothing, is the model's choice: log entry 7.) -/
def Obligations.EveryStepAnswers : Prop := (∀ (i : Instr) (s : State), ∃ t, exec i s = .next t) ∧ ∀ s : State, ∃ t, step s = .next t

/-- R32, R33, R47, R60: a step of a running hart that nothing keeps from its next instruction fetches at its program counter and performs the instruction that the bytes decode
to; a vector-class instruction that is linked to the next is posted with its convoy; bytes that are no instruction perform ILLEGAL_INSTRUCTION; a fetch fault traps.
Fetching changes nothing of the harts. No write-back waits for room, nor the hart for one (R283). (Whose turn it is, is log entry 1's.) -/
def Obligations.StepRunsDecoded : Prop :=
  ∀ (s t : State) (v : Nat), s.agenda = [] → s.dev.ready = true → s.hart.run = .running → s.hart.instret.toNat / 256 = s.hart.kept →
    .preemptPending s.hart.gangid s.hart.hartid ∉ s.leaf → s.hart.vq = [] →
    writerStalls s s.hart = false → retryWriteBack s = s → s.hart.aq = [] → s.hart.park = none → s.hart.vwait = none → s.hart.await = none → s.hart.splice = none →
    (fetchBits s s.hart.pc = (t, .bits v) → t.hart = s.hart ∧ t.others = s.others ∧
      (∀ i, decodeBits v = .ok i → step s = exec (if i.cls = .vector ∧ i.linked = true then .convoyPost else i) t) ∧
      (∀ r, decodeBits v = .error r → (∀ sc, decodeBits (v - 2 ^ 28) ≠ .ok (.vfence sc)) → step s = exec (.illegalInstruction (W v) 0) t)) ∧
    (∀ tr, fetchBits s s.hart.pc = (t, .trap tr) → step s = .next (takeTrap s tr.cause tr.tval)) ∧
    (∀ i rest, i.cls = .event → step { s with agenda := .event i :: rest } = exec i { s with agenda := rest })

/-- R34 to R46: words written out from the encodings: `add x5, x6, x7`; `vfma.f32 v3, v1, v2^`; `vfaerr.f32 v4, v1, v2 &`; `vclt.i32 p2, v4, v5, p1`; `vcvt.q0.f32 v8, v10`;
`vfold.fadd.f32 x5, v2`; `vadd.vx.i32 v6, v7, x9`; `c.nop`. -/
def Obligations.DecodesWrittenWords : Prop :=
  let v (l cb ca : Bool) (pred : BitVec 3) (vb va vd : BitVec 5) : OpV := { l := l, cb := cb, ca := ca, pred := pred, vb := vb, va := va, vd := vd }
  decodeBits 0x001CC505 = .ok (.add { b := 7, a := 6, d := 5 }) ∧ decodeBits 0x0808238D = .ok (.vfma (v false true false 0 2 1 3)) ∧
  decodeBits 0x9008248D = .ok (.vfaerr (v true false false 0 2 1 4)) ∧ decodeBits 0x20948291 = .ok (.vclt (v false false false 1 5 4 2)) ∧
  decodeBits 0x80294895 = .ok (.vcvt { fn := 4, l := false, ca := false, pred := 0, t := 10, va := 10, vd := 8 }) ∧
  decodeBits 0xA000459D = .ok (.vfoldFadd (v false false false 0 0 2 5)) ∧
  decodeBits 0x0024E6A5 = .ok (.vaddVx { l := false, ca := false, pred := 0, xb := 9, va := 7, vd := 6 }) ∧ decodeBits 0x001E = .ok .cNop

/-- R32, R34 to R47: for every well-formed instruction that has an encoding, with every operand, the bytes of its encoding decode to it, whatever follows them, and nothing of
what follows is used up. -/
def Obligations.DecodeEncodeRoundTrip : Prop :=
  ∀ (i : Instr) (rest : List Byte), i.wellFormed = true → i.cls ≠ .event →
    decodeBits (encode i) = .ok i ∧ encode i < 2 ^ i.bits ∧ decode (leBytes (i.bits / 8) (encode i) ++ rest) = .ok (i, rest)

/-- Every step keeps memory, and what the Loft modules hold durably, in canonical form. -/
def Obligations.StepKeepsMemoryOk : Prop := ∀ s t : State, MemoryOk s → step s = .next t → MemoryOk t

/-- R51, R54, R318, R358, R361: the state after reset: registers, tiles and control registers of the sequencer at their reset values, the queues disabled, the device unowned and
not ready, memory clean zeros in canonical form. That every byte reads 0 and no granule is poisoned, Loft, host, peers and sheds included, is the model's choice (log entry 3), and
so are the values of registers for which the spec gives none (log entry 2). -/
def Obligations.ResetState : Prop :=
  let s := State.reset
  let h := s.hart
  MemoryOk s ∧ (∀ k, Memory.read s.mem k = 0) ∧ s.poison = [] ∧
  h.x = Vector.replicate 32 0 ∧ h.v = Vector.replicate 32 0 ∧ h.k = Vector.replicate 8 0 ∧ h.psm = 0 ∧ h.tile = Vector.replicate 4 Tile.zero ∧
  h.sums = Vector.replicate 16 none ∧ h.pennants = Vector.replicate 6 [] ∧ h.vl = 0 ∧ h.vtype = 0 ∧ h.vstart = 0 ∧ h.ffidx = 0 ∧ h.memfmt = 0 ∧
  h.fmt = Vector.replicate 4 0 ∧ h.rmode = 0 ∧ h.repro = 0 ∧ h.mflags = 0 ∧ h.tgrant = 128 ∧ h.tilen = 0 ∧ h.dglim = 16 ∧ h.vdirty = 0xFFFFFFFF ∧
  h.sdirty = 0xFFFF ∧ h.mdirty = 0 ∧ h.cause = 0 ∧ h.epc = 0 ∧ h.tval = 0 ∧ h.member = 0 ∧ h.origin = 0 ∧ h.cycle = 0 ∧ h.instret = 0 ∧ h.dgbub = 0 ∧
  h.energy = 0 ∧ h.stretch = 0 ∧
  (∀ q : BitVec 6, let c := queueOf s q
    c.en = false ∧ c.irq = false ∧ c.base = 0 ∧ c.cbase = 0 ∧ c.log2 = 4 ∧ c.isOpen = false ∧ c.pasid = 0 ∧ c.head = 0 ∧ c.tail = 0 ∧ c.done = 0) ∧
  s.dev.ready = false ∧ s.dev.ownnonce = 0 ∧ s.dev.owner = 0xF ∧ s.dev.nextOwner = 0xF ∧ s.dev.pwrlim = 3200 ∧ s.dev.elogHead = 0 ∧ s.dev.elogTail = 0 ∧
  s.dev.elogLost = 0
end

