-- ==== Sys2Proof/Laws/Memory.lean ====
section
/-! SUPPORT. The laws of memory: read after write, and that every memory operation keeps the canonical form. -/

namespace Sys2Proof.Machine

/-! ### The canonical form -/

/-- A list in form above a bound is in form above a smaller one. -/
theorem Memory.wfFrom_mono {lo lo' : Nat} {m : List Host.Cell} (hl : lo' ≤ lo) (h : Memory.wfFrom lo m = true) : Memory.wfFrom lo' m = true := by
  cases m with
  | nil => rfl
  | cons c m =>
    obtain ⟨k, b⟩ := c
    simp only [Memory.wfFrom, Bool.and_eq_true, decide_eq_true_eq] at h ⊢
    exact ⟨⟨Nat.le_trans hl h.1.1, h.1.2⟩, h.2⟩

/-- A write keeps the canonical form. -/
theorem Memory.wfFrom_write (a : Nat) (b : Byte) : ∀ (m : List Host.Cell) (lo : Nat), lo ≤ a → Memory.wfFrom lo m = true →
    Memory.wfFrom lo (Memory.write m a b) = true := by
  intro m
  induction m with
  | nil =>
    intro lo hl _
    unfold Memory.write
    split
    · rfl
    · simp_all [Memory.wfFrom]
  | cons c m ih =>
    obtain ⟨k, d⟩ := c
    intro lo hl h
    have h' := h
    simp only [Memory.wfFrom, Bool.and_eq_true, decide_eq_true_eq] at h
    unfold Memory.write
    split
    · split
      · exact h'
      · simp_all [Memory.wfFrom]
    · split
      · split
        · exact Memory.wfFrom_mono (by omega) h.2
        · simp_all [Memory.wfFrom]
      · simp only [Memory.wfFrom, Bool.and_eq_true, decide_eq_true_eq]
        exact ⟨h.1, ih (k + 1) (by omega) h.2⟩

/-- A write of one byte keeps the canonical form. -/
theorem Memory.wf_write {m : List Host.Cell} (a : Nat) (b : Byte) (h : Memory.wf m = true) : Memory.wf (Memory.write m a b) = true :=
  Memory.wfFrom_write a b m 0 (Nat.zero_le a) h

/-- A masked write keeps the canonical form. -/
theorem Memory.wf_writeMasked (n : Nat) : ∀ (m : List Host.Cell) (a v k : Nat), Memory.wf m = true → Memory.wf (Memory.writeMasked m a n v k) = true := by
  induction n with
  | zero => intro m a v k h; exact h
  | succ n ih =>
    intro m a v k h
    unfold Memory.writeMasked
    apply ih
    split
    · exact h
    · exact Memory.wf_write _ _ h

/-- A write of n bytes keeps the canonical form. -/
theorem Memory.wf_writeN {m : List Host.Cell} (a n v : Nat) (h : Memory.wf m = true) : Memory.wf (Memory.writeN m a n v) = true :=
  Memory.wf_writeMasked n m a v _ h

/-- Keeping some of the cells keeps the canonical form. -/
theorem Memory.wfFrom_filter (p : Host.Cell → Bool) : ∀ (m : List Host.Cell) (lo : Nat), Memory.wfFrom lo m = true →
    Memory.wfFrom lo (m.filter p) = true := by
  intro m
  induction m with
  | nil => intro lo _; rfl
  | cons c m ih =>
    obtain ⟨k, b⟩ := c
    intro lo h
    simp only [Memory.wfFrom, Bool.and_eq_true, decide_eq_true_eq] at h
    rw [List.filter_cons]
    split
    · simp only [Memory.wfFrom, Bool.and_eq_true, decide_eq_true_eq]
      exact ⟨h.1, ih _ h.2⟩
    · exact Memory.wfFrom_mono (by omega) (ih _ h.2)

/-- Clearing a range keeps the canonical form. -/
theorem Memory.wf_clear {m : List Host.Cell} (lo n : Nat) (h : Memory.wf m = true) : Memory.wf (Memory.clear m lo n) = true :=
  Memory.wfFrom_filter _ m 0 h

/-- The memory of reset is in canonical form. -/
theorem reset_memoryOk : MemoryOk State.reset := ⟨rfl, rfl⟩

/-! ### Reading after writing -/

/-- Below every key of a list in form, memory reads as blank. -/
theorem Memory.read_below {m : List Host.Cell} {lo a : Nat} (h : Memory.wfFrom lo m = true) (ha : a < lo) : Memory.read m a = Memory.blank := by
  cases m with
  | nil => rfl
  | cons c m =>
    obtain ⟨k, b⟩ := c
    simp only [Memory.wfFrom, Bool.and_eq_true, decide_eq_true_eq] at h
    unfold Memory.read
    rw [if_neg (by omega), if_pos (by omega)]

/-- A byte that has been written reads back, and every other byte reads as before. -/
theorem Memory.read_write (a : Nat) (b : Byte) (x : Nat) : ∀ (m : List Host.Cell) (lo : Nat), Memory.wfFrom lo m = true →
    Memory.read (Memory.write m a b) x = if x = a then b else Memory.read m x := by
  intro m
  induction m with
  | nil =>
    intro lo _
    unfold Memory.write
    by_cases hb : b = Memory.blank <;> by_cases hx : x = a <;> simp_all [Memory.read]
  | cons c m ih =>
    obtain ⟨k, d⟩ := c
    intro lo h
    simp only [Memory.wfFrom, Bool.and_eq_true, decide_eq_true_eq] at h
    unfold Memory.write
    by_cases h1 : a < k
    · rw [if_pos h1]
      by_cases hb : b = Memory.blank
      · rw [if_pos hb]
        by_cases hx : x = a
        · subst hx; rw [if_pos rfl, hb]; unfold Memory.read; rw [if_neg (by omega), if_pos h1]
        · rw [if_neg hx]
      · rw [if_neg hb]
        conv => lhs; unfold Memory.read
        by_cases hx : x = a
        · rw [if_pos hx, if_pos hx]
        · rw [if_neg hx, if_neg hx]
          by_cases h2 : x < a
          · rw [if_pos h2]; unfold Memory.read; rw [if_neg (by omega), if_pos (by omega)]
          · rw [if_neg h2]
    · rw [if_neg h1]
      by_cases h2 : a = k
      · subst h2
        rw [if_pos rfl]
        by_cases hb : b = Memory.blank
        · rw [if_pos hb]
          by_cases hx : x = a
          · subst hx; rw [if_pos rfl, hb]; exact Memory.read_below h.2 (by omega)
          · rw [if_neg hx]
            conv => rhs; unfold Memory.read
            rw [if_neg hx]
            by_cases h3 : x < a
            · rw [if_pos h3]; exact Memory.read_below h.2 (by omega)
            · rw [if_neg h3]
        · rw [if_neg hb]
          unfold Memory.read
          by_cases hx : x = a <;> simp [hx]
      · rw [if_neg h2]
        unfold Memory.read
        by_cases hx : x = k
        · subst hx; rw [if_pos rfl, if_pos rfl, if_neg (by omega)]
        · rw [if_neg hx, if_neg hx]
          by_cases h3 : x < k
          · rw [if_pos h3, if_pos h3, if_neg (by omega)]
          · rw [if_neg h3, if_neg h3]; exact ih _ h.2

/-- The byte just written. -/
theorem Memory.read_write_same {m : List Host.Cell} (h : Memory.wf m = true) (a : Nat) (b : Byte) : Memory.read (Memory.write m a b) a = b := by
  rw [Memory.read_write a b a m 0 h, if_pos rfl]

/-- Every other byte. -/
theorem Memory.read_write_apart {m : List Host.Cell} (h : Memory.wf m = true) {a x : Nat} (b : Byte) (hx : x ≠ a) :
    Memory.read (Memory.write m a b) x = Memory.read m x := by
  rw [Memory.read_write a b x m 0 h, if_neg hx]

/-- A masked write changes nothing outside its bytes. -/
theorem Memory.read_writeMasked_apart (n : Nat) : ∀ (m : List Host.Cell) (a v k x : Nat), Memory.wf m = true → x < a ∨ a + n ≤ x →
    Memory.read (Memory.writeMasked m a n v k) x = Memory.read m x := by
  induction n with
  | zero => intro m a v k x _ _; rfl
  | succ n ih =>
    intro m a v k x h hx
    unfold Memory.writeMasked
    by_cases hk : k % 256 = 0
    · simp only [hk, if_true]
      exact ih m (a + 1) _ _ x h (by omega)
    · simp only [hk, if_false]
      rw [ih _ (a + 1) _ _ x (Memory.wf_write _ _ h) (by omega)]
      exact Memory.read_write_apart h _ (by omega)

/-- A write of n bytes changes nothing outside them. -/
theorem Memory.read_writeN_apart {m : List Host.Cell} (h : Memory.wf m = true) (a n v : Nat) {x : Nat} (hx : x < a ∨ a + n ≤ x) :
    Memory.read (Memory.writeN m a n v) x = Memory.read m x :=
  Memory.read_writeMasked_apart n m a v _ x h hx

/-- A cleared range reads as blank and every other byte as before. -/
theorem Memory.read_filter (p : Host.Cell → Bool) (hp : ∀ k b c, p (k, b) = p (k, c)) (x : Nat) : ∀ (m : List Host.Cell) (lo : Nat),
    Memory.wfFrom lo m = true → Memory.read (m.filter p) x = if p (x, 0) then Memory.read m x else Memory.blank := by
  intro m
  induction m with
  | nil => intro lo _; simp [Memory.read]
  | cons c m ih =>
    obtain ⟨k, b⟩ := c
    intro lo h
    simp only [Memory.wfFrom, Bool.and_eq_true, decide_eq_true_eq] at h
    rw [List.filter_cons]
    by_cases hk : p (k, b) = true
    · rw [if_pos hk]
      conv => lhs; unfold Memory.read
      conv => rhs; unfold Memory.read
      by_cases hx : x = k
      · subst hx; rw [if_pos rfl, if_pos rfl, hp x 0 b, hk, if_pos rfl]
      · rw [if_neg hx, if_neg hx]
        by_cases h3 : x < k
        · rw [if_pos h3, if_pos h3]; split <;> rfl
        · rw [if_neg h3, if_neg h3]; exact ih _ h.2
    · rw [if_neg hk, ih _ h.2]
      conv => rhs; unfold Memory.read
      by_cases hx : x = k
      · subst hx
        rw [if_neg (by rw [hp x 0 b]; exact hk), if_neg (by rw [hp x 0 b]; exact hk)]
      · rw [if_neg hx]
        by_cases h3 : x < k
        · rw [if_pos h3, Memory.read_below h.2 (by omega)]
        · rw [if_neg h3]

/-- A cleared range reads as blank, and nothing else changes. -/
theorem Memory.read_clear {m : List Host.Cell} (h : Memory.wf m = true) (lo n x : Nat) :
    Memory.read (Memory.clear m lo n) x = if lo ≤ x ∧ x < lo + n then Memory.blank else Memory.read m x := by
  unfold Memory.clear
  rw [Memory.read_filter _ (fun _ _ _ => rfl) x m 0 h]
  by_cases h1 : lo ≤ x <;> by_cases h2 : x < lo + n <;> simp [h1, h2]

/-! ### The operations over State -/

/-- A log record touches no memory. -/
theorem logError_mem (s : State) (a b c d e f : Nat) : (logError s a b c d e f).mem = s.mem ∧ (logError s a b c d e f).durable = s.durable := by
  unfold logError; split <;> exact ⟨rfl, rfl⟩

/-- Expanding a block keeps memory in form. -/
theorem zTouch_memoryOk {s : State} (k : Nat) (h : MemoryOk s) : MemoryOk (zTouch s k) := by
  unfold zTouch
  split
  · dsimp only [MemoryOk]
    generalize hv : zStored s.mem _ _ = v
    refine ⟨?_, h.2⟩
    apply Memory.wf_writeN
    exact h.1
  · exact h

/-- A write at its place keeps memory in form. -/
theorem applyAt_memoryOk {s : State} (k : Nat) (st : PStore) (h : MemoryOk s) : MemoryOk (applyAt s k st) := by
  unfold applyAt
  split
  · exact h
  · have hz := zTouch_memoryOk k h
    have hw := Memory.wf_writeMasked st.n (zTouch s k).mem k st.val st.mask hz.1
    dsimp only
    generalize zTouch s k = u at hz hw ⊢
    split
    · refine ⟨?_, ?_⟩
      · rw [(logError_mem _ _ _ _ _ _ _).1]; exact hw
      · rw [(logError_mem _ _ _ _ _ _ _).2]; exact hz.2
    · exact ⟨hw, hz.2⟩

/-- Noting a writer keeps memory in form. -/
theorem noteWriter_memoryOk {s : State} (gang : Word) (hart k : Nat) (h : MemoryOk s) : MemoryOk (noteWriter s gang hart k) := by
  unfold noteWriter; split <;> exact h

/-- A store that becomes visible keeps memory in form. -/
theorem applyStoreOf_memoryOk {s : State} (gang : Word) (hart : Nat) (st : PStore) (h : MemoryOk s) : MemoryOk (applyStoreOf s gang hart st) := by
  unfold applyStoreOf
  split
  · dsimp only
    split
    · exact applyAt_memoryOk _ _ (applyAt_memoryOk _ _ h)
    · exact applyAt_memoryOk _ _ h
  · dsimp only
    have hn := noteWriter_memoryOk gang hart st.key (applyAt_memoryOk st.key st h)
    split
    · exact hn
    · exact hn

/-- A store of the focused hart keeps memory in form. -/
theorem applyStore_memoryOk {s : State} (st : PStore) (h : MemoryOk s) : MemoryOk (applyStore s st) :=
  applyStoreOf_memoryOk _ _ st h

/-- Draining a list of stores keeps memory in form. -/
theorem foldl_applyStore_memoryOk (l : List PStore) : ∀ {s : State}, MemoryOk s → MemoryOk (l.foldl applyStore s) := by
  induction l with
  | nil => intro s h; exact h
  | cons st l ih => intro s h; exact ih (applyStore_memoryOk st h)

/-- Draining the hart's queue keeps memory in form. -/
theorem drainAll_memoryOk {s : State} (h : MemoryOk s) : MemoryOk (drainAll s) :=
  foldl_applyStore_memoryOk _ (s := { s with hart := { s.hart with storeQ := [] } }) h

/-- Setting A and D keeps memory in form. -/
theorem setAD_memoryOk {s : State} (a : Nat) (acc : Acc) (h : MemoryOk s) : MemoryOk (setAD s a acc) := by
  unfold setAD
  dsimp only
  split
  · exact h
  · exact ⟨Memory.wf_write _ _ h.1, h.2⟩

/-- A permission that is asked keeps memory in form. -/
theorem grantLeaf_memoryOk {s : State} (p : Nat) (va : Word) (acc : Acc) (h : Hit) (hm : MemoryOk s) : MemoryOk (grantLeaf s p va acc h).1 := by
  unfold grantLeaf
  split
  · exact hm
  · split
    · exact hm
    · dsimp only
      split
      · exact hm
      · exact setAD_memoryOk _ _ hm

/-- The use of a translation keeps memory in form. -/
theorem grant_memoryOk {s : State} (p : Nat) (va : Word) (acc : Acc) (h : Hit) (hm : MemoryOk s) : MemoryOk (grant s p va acc h).1 := by
  unfold grant
  split
  · exact grantLeaf_memoryOk _ _ _ _ hm
  · cases locate s p va acc with
    | ok k => exact grantLeaf_memoryOk _ _ _ _ hm
    | trap t => exact hm
    | stall => exact hm

/-- A translation keeps memory in form. -/
theorem translate_memoryOk {s : State} (p : Nat) (va : Word) (acc : Acc) (hm : MemoryOk s) : MemoryOk (translate s p va acc).1 := by
  unfold translate
  split
  · exact grant_memoryOk _ _ _ _ hm
  · exact hm

/-- A place that is resolved keeps memory in form. -/
theorem resolve_memoryOk {s : State} (va : Word) (n : Nat) (acc : Acc) (hm : MemoryOk s) : MemoryOk (resolve s va n acc).1 := by
  unfold resolve
  split
  · unfold grantPlace
    split
    · exact hm
    · exact grant_memoryOk _ _ _ _ hm
  · exact hm

/-- The translation of a frame keeps memory in form. -/
theorem frameWalk_memoryOk (fuel : Nat) : ∀ {s : State} (va : Word) (n : Nat), MemoryOk s → MemoryOk (frameWalk s fuel va n).1 := by
  induction fuel with
  | zero => intro s va n h; exact h
  | succ fuel ih =>
    intro s va n h
    unfold frameWalk
    have h1 := translate_memoryOk s.hart.pasid va .load h
    split
    · rename_i e; rw [e] at h1; exact h1
    · rename_i e; rw [e] at h1; exact h1
    · rename_i s1 h0 e
      rw [e] at h1
      have h2 := translate_memoryOk s1.hart.pasid va .store h1
      split
      · rename_i e2; rw [e2] at h2; exact h2
      · rename_i e2; rw [e2] at h2; exact h2
      · rename_i e2
        rw [e2] at h2
        split
        · exact h2
        · exact ih _ _ h2

/-- Writing the parts of a frame keeps memory in form. -/
theorem foldl_store_memoryOk {β : Type} (f : State → β → PStore) (l : List β) :
    ∀ {s : State}, MemoryOk s → MemoryOk (l.foldl (fun s c => applyStore s (f s c)) s) := by
  induction l with
  | nil => intro s h; exact h
  | cons c l ih => intro s h; exact ih (applyStore_memoryOk _ h)

/-- A frame write keeps memory in form. -/
theorem frameWrite_memoryOk {s : State} (va : Word) (n v : Nat) (h : MemoryOk s) : MemoryOk (frameWrite s va n v) := by
  unfold frameWrite
  have h1 := translate_memoryOk s.hart.pasid va .store h
  split
  · rename_i e; rw [e] at h1; exact foldl_store_memoryOk _ _ h1
  · rename_i e; rw [e] at h1; exact h1

/-- Saving a frame keeps memory in form. -/
theorem saveFrame_memoryOk {s : State} (p : Stop) (h : MemoryOk s) : MemoryOk (saveFrame s p) := by
  unfold saveFrame
  have h1 := frameWalk_memoryOk 2048 p.frame (framesz s) h
  dsimp only
  split
  · rename_i e; rw [e] at h1; exact h1
  · rename_i e; rw [e] at h1; exact h1
  · rename_i e; rw [e] at h1; exact frameWrite_memoryOk _ _ _ h1

/-- Taking a trap or a stop keeps memory in form. -/
theorem takeStop_memoryOk {s : State} (q : Queue) (t : Trap) (epc rpc : Word) (member vs vl : Nat) (vt : BitVec 14) (h : MemoryOk s) :
    MemoryOk (takeStop s q t epc rpc member vs vl vt) := by
  unfold takeStop
  dsimp only
  split
  · exact h
  · split
    · exact h
    · exact saveFrame_memoryOk _ h

/-- A precise trap keeps memory in form. -/
theorem takeTrap_memoryOk {s : State} (c : Cause) (v : Word) (h : MemoryOk s) : MemoryOk (takeTrap s c v) := takeStop_memoryOk _ _ _ _ _ _ _ _ h

/-! ### What a store that becomes visible leaves of the hart -/

/-- A log record touches no hart. -/
theorem logError_hart (s : State) (a b c d e f : Nat) : (logError s a b c d e f).hart = s.hart := by
  unfold logError; split <;> rfl

/-- A write at its place touches no hart. -/
theorem applyAt_hart (s : State) (k : Nat) (st : PStore) : (applyAt s k st).hart = s.hart := by
  have hz : (zTouch s k).hart = s.hart := by unfold zTouch; split <;> rfl
  unfold applyAt
  split
  · rfl
  · dsimp only
    split
    · rw [logError_hart]; exact hz
    · exact hz

/-- Noting a writer touches no hart. -/
theorem noteWriter_hart (s : State) (gang : Word) (hart k : Nat) : (noteWriter s gang hart k).hart = s.hart := by
  unfold noteWriter; split <;> rfl

/-- A store that becomes visible touches no hart. -/
theorem applyStoreOf_hart (s : State) (gang : Word) (hart : Nat) (st : PStore) : (applyStoreOf s gang hart st).hart = s.hart := by
  unfold applyStoreOf
  split
  · dsimp only
    split <;> simp only [applyAt_hart]
  · dsimp only
    split <;> exact (noteWriter_hart _ _ _ _).trans (applyAt_hart _ _ _)

/-- A store of the focused hart touches no hart. -/
theorem applyStore_hart (s : State) (st : PStore) : (applyStore s st).hart = s.hart := applyStoreOf_hart _ _ _ _

/-- Draining a list of stores touches no hart. -/
theorem foldl_applyStore_hart (l : List PStore) : ∀ s : State, (l.foldl applyStore s).hart = s.hart := by
  induction l with
  | nil => intro s; rfl
  | cons st l ih => intro s; exact (ih _).trans (applyStore_hart s st)

/-- Draining the hart's queue empties it, and nothing else of the hart changes. -/
theorem drainAll_hart (s : State) : (drainAll s).hart = { s.hart with storeQ := [] } := foldl_applyStore_hart _ _

end Sys2Proof.Machine
end

