-- ==== Sys2Proof/Laws/Convoy.lean ====
section
/-! SUPPORT. What a vector-class instruction as a convoy of its own can do: the one lemma about `solo`, and what its retirement leaves. -/

namespace Sys2Proof.Machine

/-! ### The convoy before it begins -/

/-- With nothing queued, a posted convoy stands at the head. -/
theorem posted_vq (s : State) (i : Instr) (h : s.hart.vq = []) : (posted s i).hart.vq = [mkConvoy s [i]] := by
  simp [posted, postConvoy, h]

/-- R170: making earlier stores visible leaves the hart as it is, but for its store queue. -/
theorem settled_hart (s : State) (i : Instr) : (settled s i).hart = { (posted s i).hart with storeQ := (settled s i).hart.storeQ } := by
  unfold settled settleEarlier
  split
  · rw [drainAll_hart]
  · rfl

/-- R170: a convoy that writes no scalar register makes no earlier store visible. -/
theorem settled_of (s : State) (i : Instr) (h : holdsOf i = []) : settled s i = posted s i := by
  simp [settled, settleEarlier, holdsAny, mkConvoy, h]

/-- R170: with an empty store queue nothing is to be made visible. -/
theorem settled_empty (s : State) (i : Instr) (h : s.hart.storeQ = []) : settled s i = posted s i := by
  simp [settled, settleEarlier, vectorStores, posted, postConvoy, h]

/-! ### The convoy when it begins -/

/-- The start of a convoy of one, when no binding has just ended: its context, and the rest as it was. -/
theorem begun_settled (s : State) (i : Instr) (hu : s.hart.unbound = []) :
    begun s i = { settled s i with hart := { (settled s i).hart with
      cur := {
        snap := curSnap s.hart, xs := s.hart.x, epoch := s.hart.epoch + (epochTotal [i]).2, binds := s.hart.binds, vl := nextLen s,
        vtype := nextType s, vstart := s.hart.vstart, stop := none, fault := none, index := 0, hurt := [], differs := [], parts := [], passed := [], old := [],
        wait := none, waitAt := 0, waited := [], held := [], taken := none, phase := 0, commit := (0, 0), addr := s.hart.pc, blame := none,
        cut := [], walked := [], aqAhead := s.hart.aq.length, vlStart := nextLen s } } } := by
  have hvl : (settled s i).hart.vl = s.hart.vl := by rw [settled_hart]; rfl
  have hvt : (settled s i).hart.vtype = s.hart.vtype := by rw [settled_hart]; rfl
  have hvs : (settled s i).hart.vstart = s.hart.vstart := by rw [settled_hart]; rfl
  unfold begun beginConvoy mkConvoy zeroRegs nextLen nextType
  simp only [hu, List.foldl_nil, hvl, hvt, hvs]

/-- The registers bound in a fresh convoy are the hart's. -/
theorem begun_binds (s : State) (i : Instr) (hu : s.hart.unbound = []) : (begun s i).hart.cur.binds = s.hart.binds := by
  rw [begun_settled s i hu]

/-- The fields that the start of a convoy of one leaves as they are, when it writes no scalar register. -/
theorem begun_eq (s : State) (i : Instr) (hu : s.hart.unbound = []) (hq : s.hart.vq = []) (hh : holdsOf i = []) :
    begun s i = { s with hart := { s.hart with
      vq := [mkConvoy s [i]], pend := none, park := none, unbound := [],
      pc := s.hart.pc + W (if s.hart.splice.isSome then 8 else i.bits / 8), epoch := s.hart.epoch + (epochTotal [i]).1,
      cur := (begun s i).hart.cur } } := by
  have h := begun_settled s i hu
  rw [settled_of s i hh] at h
  have hc : (begun s i).hart.cur = (begun s i).hart.cur := rfl
  conv_lhs => rw [h]
  conv_rhs => rw [h]
  simp only [posted, postConvoy, hq, List.nil_append]
  rfl

/-! ### `solo` -/

/-- With no copies that differ and no row of a tile that awaits its compare, a member has nothing to compare. -/
theorem compareMember_none (s : State) (m : Member) (hu : s.hart.unverified = []) (hd : s.hart.cur.differs = []) : compareMember s m = s := by
  simp [compareMember, unverifiedRead, groupDiffers, hu, hd]

/-- A member runs. -/
theorem runMembers_one (s : State) (m : Member) (hw : s.hart.cur.wait = none) (hb : s.hart.cur.binds = []) (hh : s.hart.cur.hurt = [])
    (hd : s.hart.cur.differs = []) (hu : s.hart.unverified = []) : runMembers s [m] = nextMember (m.run s) m := by
  simp [runMembers, runMember, hw, hb, compareMember_none s m hu hd, withHurt, hurtMember, hh, nextMember]

/-- The compare of a row of a tile: with none awaiting, the convoy begins as it is. -/
theorem settleCompare_none (b : State) (ms : List Member) (h : b.hart.unverified = []) : settleCompare b ms = b := by
  simp [settleCompare, h]

/-- An instruction that is ready and whose member finds no condition and need not wait retires at once. -/
theorem solo_retires (i : Instr) (m : Member) (s : State) (h : Ready i m s)
    (hf : (m.run (begun s i)).hart.cur.fault = none) (hw : (m.run (begun s i)).hart.cur.wait = none) :
    solo i m s = .next (retire (settled s i) (ranOne s i m) 1) := by
  obtain ⟨hq, hp, hb, hu, ht, hc, hv⟩ := h
  have hvs : (settled s i).hart.vstart = s.hart.vstart := by rw [settled_hart]; rfl
  have hwh : ((List.any [m] fun m => m.whole) && (settled s i).hart.vstart != 0) = false := by
    cases hm : m.whole <;> simp [hm, hvs]
    exact hv hm
  have hun : (begun s i).hart.unverified = [] := by rw [begun_settled s i hu, settled_hart]; exact ht
  have hrun : runMembers (begun s i) [m] = ranOne s i m :=
    runMembers_one _ _ (by rw [begun_settled s i hu]) (by rw [begun_binds s i hu, hb]) (by rw [begun_settled s i hu])
      (by rw [begun_settled s i hu]) hun
  have e1 : (ranOne s i m).hart.cur.fault = none := hf
  have e2 : (ranOne s i m).hart.cur.wait = none := hw
  unfold solo
  simp only [hc, hp, hq]
  change Host.Outcome.next (runConvoy [m] (posted s i)) = _
  unfold runConvoy
  rw [posted_vq s i hq]
  change Host.Outcome.next (if (List.any [m] fun m => m.whole) && (settled s i).hart.vstart != 0 then _ else _) = _
  rw [hwh]
  change Host.Outcome.next (match (runMembers (settleCompare (begun s i) [m]) [m]).hart.cur.fault with
    | some (k, _, _) => _
    | none => if (runMembers (settleCompare (begun s i) [m]) [m]).hart.cur.wait.isSome then _
        else retire (settled s i) (runMembers (settleCompare (begun s i) [m]) [m]) 1) = _
  rw [settleCompare_none _ _ hun, hrun, e1, e2]
  rfl

/-! ### Retirement -/

/-- Retirement after a member that has changed vector registers, predicates and scalar registers of the hart alone: those stand, and everything
else is as every retirement leaves it (R53, R55). -/
theorem retire_regs (s r : State) (i : Instr) (m : Member) (hu : s.hart.unbound = []) (hq : s.hart.vq = [])
    (hr : r = { begun s i with hart := { (begun s i).hart with
      v := r.hart.v, vp := r.hart.vp, vdirty := r.hart.vdirty, p := r.hart.p, pp := r.hart.pp, x := r.hart.x } }) :
    retire (settled s i) (nextMember r m) 1 =
      { settled s i with hart := { settledEnd s i with
          v := r.hart.v, vp := r.hart.vp, vdirty := r.hart.vdirty, p := r.hart.p, pp := r.hart.pp, x := r.hart.x } } := by
  have hs := settled_hart s i
  have hb := begun_settled s i hu
  have hvq := posted_vq s i hq
  generalize hS : settled s i = S at *
  generalize hQ : (settled s i).hart.storeQ = Q at *
  have hh : S.hart.storeQ = Q := by rw [← hQ, hS]
  rw [hr, hb]
  unfold settledEnd
  rw [hS, hh]
  rw [hh] at hs
  simp only [retire, nextMember, hs, hvq, List.length_singleton, Nat.le_refl, if_true]
  rfl

/-- A member that has changed vector registers alone has changed no more than the registers. -/
theorem regs_of_vector {r b : State} (h : r = { b with hart := { b.hart with v := r.hart.v, vp := r.hart.vp, vdirty := r.hart.vdirty } }) :
    r = { b with hart := { b.hart with
      v := r.hart.v, vp := r.hart.vp, vdirty := r.hart.vdirty, p := r.hart.p, pp := r.hart.pp, x := r.hart.x } } := by
  have h1 : r.hart.p = b.hart.p := by rw [h]
  have h2 : r.hart.pp = b.hart.pp := by rw [h]
  have h3 : r.hart.x = b.hart.x := by rw [h]
  rw [h1, h2, h3]
  exact h

/-- A member that has changed predicates alone has changed no more than the registers. -/
theorem regs_of_pred {r b : State} (h : r = { b with hart := { b.hart with p := r.hart.p, pp := r.hart.pp } }) :
    r = { b with hart := { b.hart with
      v := r.hart.v, vp := r.hart.vp, vdirty := r.hart.vdirty, p := r.hart.p, pp := r.hart.pp, x := r.hart.x } } := by
  have h1 : r.hart.v = b.hart.v := by rw [h]
  have h2 : r.hart.vp = b.hart.vp := by rw [h]
  have h3 : r.hart.vdirty = b.hart.vdirty := by rw [h]
  have h4 : r.hart.x = b.hart.x := by rw [h]
  rw [h1, h2, h3, h4]
  exact h

/-- R170: for an instruction that writes no scalar register the stores of earlier convoys stay queued. -/
theorem settled_end_of (s : State) (i : Instr) (h : holdsOf i = []) (v : Vector (BitVec 32768) 32) (vp : Vector (BitVec 16384) 32)
    (vd : BitVec 32) (p pp : Vector (BitVec 16384) 16) (x : Vector Word 32) :
    { settled s i with hart := { settledEnd s i with v := v, vp := vp, vdirty := vd, p := p, pp := pp, x := x } } =
      { s with hart := { convoyEnd s i with v := v, vp := vp, vdirty := vd, p := p, pp := pp, x := x } } := by
  unfold settledEnd
  rw [settled_of s i h]
  rfl

end Sys2Proof.Machine
end

