-- ==== Sys2Proof/Laws/Elements.lean ====
section
/-! SUPPORT. Bit fields of numbers, elements of registers after a write, and what the element-wise write of a vector destination leaves. -/

namespace Sys2Proof.Machine

/-! ### Bit fields -/

/-- A bit of a field. -/
theorem testBit_bitsN (v lo n j : Nat) : (bitsN v lo n).testBit j = (decide (j < n) && v.testBit (lo + j)) := by
  simp [bitsN, Nat.testBit_mod_two_pow, Nat.testBit_div_two_pow, Nat.add_comm]

/-- A bit of a number with a field replaced. -/
theorem testBit_setBits (v lo w x k : Nat) :
    (setBits v lo w x).testBit k = if lo ≤ k ∧ k < lo + w then x.testBit (k - lo) else v.testBit k := by
  have h1 : v = 2 ^ lo * (2 ^ w * (v / 2 ^ lo / 2 ^ w) + v / 2 ^ lo % 2 ^ w) + v % 2 ^ lo := by
    rw [Nat.div_add_mod, Nat.div_add_mod]
  have hl : v % 2 ^ lo < 2 ^ lo := Nat.mod_lt _ (by positivity)
  have hx : x % 2 ^ w < 2 ^ w := Nat.mod_lt _ (by positivity)
  have h2 : setBits v lo w x = 2 ^ lo * (2 ^ w * (v / 2 ^ lo / 2 ^ w) + x % 2 ^ w) + v % 2 ^ lo := by
    unfold setBits bitsN
    have h3 : v / 2 ^ lo % 2 ^ w * 2 ^ lo ≤ v :=
      le_trans (Nat.mul_le_mul_right _ (Nat.mod_le _ _)) (Nat.div_mul_le_self _ _)
    zify [h3]
    have h1' : (v : Int) = 2 ^ lo * (2 ^ w * (v / 2 ^ lo / 2 ^ w) + v / 2 ^ lo % 2 ^ w) + v % 2 ^ lo := by exact_mod_cast h1
    linear_combination h1'
  rw [h2, Nat.testBit_two_pow_mul_add _ hl]
  split
  · next h => rw [if_neg (by omega), Nat.testBit_mod_two_pow]; simp [h]
  · next h =>
    rw [Nat.testBit_two_pow_mul_add _ hx]
    split
    · next h' => rw [if_pos (by omega), Nat.testBit_mod_two_pow]; simp [h']
    · next h' =>
      rw [if_neg (by omega), Nat.testBit_div_two_pow, Nat.testBit_div_two_pow]
      congr 1; omega

/-- The field that was replaced. -/
theorem bitsN_setBits_same (v lo w x : Nat) : bitsN (setBits v lo w x) lo w = x % 2 ^ w := by
  apply Nat.eq_of_testBit_eq; intro j
  rw [testBit_bitsN, testBit_setBits, Nat.testBit_mod_two_pow]
  by_cases h : j < w <;> simp [h]

/-- A field apart from the one that was replaced. -/
theorem bitsN_setBits_apart (v lo w x lo' w' : Nat) (h : lo' + w' ≤ lo ∨ lo + w ≤ lo') :
    bitsN (setBits v lo w x) lo' w' = bitsN v lo' w' := by
  apply Nat.eq_of_testBit_eq; intro j
  rw [testBit_bitsN, testBit_setBits, testBit_bitsN]
  by_cases h' : j < w'
  · rw [if_neg (by omega)]
  · simp [h']

/-- A field below a bound does not see what is cut off above. -/
theorem bitsN_mod (v n lo w : Nat) (h : lo + w ≤ n) : bitsN (v % 2 ^ n) lo w = bitsN v lo w := by
  apply Nat.eq_of_testBit_eq; intro j
  rw [testBit_bitsN, testBit_bitsN, Nat.testBit_mod_two_pow]
  by_cases h' : j < w
  · have : lo + j < n := by omega
    simp [h', this]
  · simp [h']

/-- A field above a bound is zero in what is kept below it. -/
theorem bitsN_mod_above (v n lo w : Nat) (h : n ≤ lo) : bitsN (v % 2 ^ n) lo w = 0 := by
  apply Nat.eq_of_testBit_eq; intro j
  rw [testBit_bitsN, Nat.testBit_mod_two_pow]
  have : ¬ (lo + j < n) := by omega
  simp [this]

/-! ### Elements after a write -/

/-- The element that was written. -/
theorem el_setEl_same (s : State) (r e w x : Nat) (p : Bool) (h : e * w + w ≤ 32768) : el (setEl s r e w x p) r e w = x % 2 ^ w := by
  simp only [el, setEl, Vector.getElem_set_self, BitVec.toNat_ofNat]
  rw [bitsN_mod _ _ _ _ h, bitsN_setBits_same]

/-- An element of a register apart from the one that was written. -/
theorem el_setEl_apart (s : State) (r e w x : Nat) (p : Bool) (r' e' : Nat) (h : r' % 32 ≠ r % 32 ∨ e' ≠ e) (hb : e' * w + w ≤ 32768) :
    el (setEl s r e w x p) r' e' w = el s r' e' w := by
  unfold el setEl
  by_cases hr : r % 32 = r' % 32
  · have he : e' ≠ e := by omega
    have hd : e' * w + w ≤ e * w ∨ e * w + w ≤ e' * w := by
      rcases Nat.lt_or_gt_of_ne he with h1 | h1
      · left; calc e' * w + w = (e' + 1) * w := by ring
          _ ≤ e * w := Nat.mul_le_mul_right _ h1
      · right; calc e * w + w = (e + 1) * w := by ring
          _ ≤ e' * w := Nat.mul_le_mul_right _ h1
    simp only [hr, Vector.getElem_set_self, BitVec.toNat_ofNat]
    rw [bitsN_mod _ _ _ _ hb, bitsN_setBits_apart _ _ _ _ _ _ hd]
  · simp only [Vector.getElem_set_ne _ _ hr]

/-- Poison of the element that was written. -/
theorem elP_setEl_same (s : State) (r e w x : Nat) (p : Bool) (hw : 2 ∣ w) (h0 : 0 < w) (h : e * w + w ≤ 32768) :
    elP (setEl s r e w x p) r e w = p := by
  obtain ⟨k, rfl⟩ := hw
  have e1 : e * (2 * k) / 2 = e * k := by rw [Nat.mul_left_comm]; exact Nat.mul_div_cancel_left _ (by decide)
  have e2 : 2 * k / 2 = k := Nat.mul_div_cancel_left _ (by decide)
  have e3 : e * k + k ≤ 16384 := by nlinarith
  have e4 : 1 < 2 ^ k := Nat.one_lt_two_pow (by omega)
  simp only [elP, setEl, Vector.getElem_set_self, BitVec.toNat_ofNat, e1, e2]
  rw [bitsN_mod _ _ _ _ e3, bitsN_setBits_same]
  cases p <;> simp [ones, Nat.mod_eq_of_lt]
  omega

/-- Poison of an element apart from the one that was written. -/
theorem elP_setEl_apart (s : State) (r e w x : Nat) (p : Bool) (r' e' : Nat) (hw : 2 ∣ w) (h : r' % 32 ≠ r % 32 ∨ e' ≠ e)
    (hb : e' * w + w ≤ 32768) : elP (setEl s r e w x p) r' e' w = elP s r' e' w := by
  obtain ⟨k, rfl⟩ := hw
  have e1 (n : Nat) : n * (2 * k) / 2 = n * k := by rw [Nat.mul_left_comm]; exact Nat.mul_div_cancel_left _ (by decide)
  have e2 : 2 * k / 2 = k := Nat.mul_div_cancel_left _ (by decide)
  have e3 : e' * k + k ≤ 16384 := by nlinarith
  unfold elP setEl
  by_cases hr : r % 32 = r' % 32
  · have he : e' ≠ e := by omega
    have hd : e' * k + k ≤ e * k ∨ e * k + k ≤ e' * k := by
      rcases Nat.lt_or_gt_of_ne he with h1 | h1
      · left; calc e' * k + k = (e' + 1) * k := by ring
          _ ≤ e * k := Nat.mul_le_mul_right _ h1
      · right; calc e * k + k = (e + 1) * k := by ring
          _ ≤ e' * k := Nat.mul_le_mul_right _ h1
    simp only [hr, Vector.getElem_set_self, BitVec.toNat_ofNat, e1, e2]
    rw [bitsN_mod _ _ _ _ e3, bitsN_setBits_apart _ _ _ _ _ _ hd]
  · simp only [Vector.getElem_set_ne _ _ hr]

/-! ### The element-wise write -/

/-- Nothing but register d, its poison and its dirty bit differs, and those only when the dirty bit is set. -/
def OnlyReg (d : Nat) (s t : State) : Prop :=
  t = { s with hart := { s.hart with v := t.hart.v, vp := t.hart.vp, vdirty := t.hart.vdirty } } ∧
    (∀ r : Fin 32, r.val ≠ d % 32 →
      t.hart.v[r] = s.hart.v[r] ∧ t.hart.vp[r] = s.hart.vp[r] ∧ t.hart.vdirty.getLsbD r = s.hart.vdirty.getLsbD r) ∧
    (t.hart.vdirty.getLsbD (d % 32) = false → s.hart.vdirty.getLsbD (d % 32) = false ∧ t.hart.v = s.hart.v ∧ t.hart.vp = s.hart.vp)

/-- Nothing differs. -/
theorem OnlyReg.refl (d : Nat) (s : State) : OnlyReg d s s := ⟨rfl, fun _ _ => ⟨rfl, rfl, rfl⟩, fun h => ⟨h, rfl, rfl⟩⟩

/-- A bit of a power of two. -/
theorem getLsbD_two_pow (i r : Nat) (hr : r < 32) : (BitVec.ofNat 32 (2 ^ i)).getLsbD r = decide (r = i) := by
  rw [BitVec.getLsbD_ofNat, Nat.testBit_two_pow]
  simp [hr, eq_comm]

/-- Replacing a register changes only it, and marks it dirty. -/
theorem OnlyReg.setReg (d : Nat) (s t : State) (x c : Nat) (h : OnlyReg d s t) : OnlyReg d s (setReg t d x c) := by
  obtain ⟨h1, h2, h3⟩ := h
  have hlt : d % 32 < 32 := Nat.mod_lt d (by decide)
  have hv (r : Fin 32) (hr : r.val ≠ d % 32) : (Machine.setReg t d x c).hart.v[r] = t.hart.v[r] := by
    simp only [Machine.setReg, Fin.getElem_fin]
    exact Vector.getElem_set_ne _ _ (Ne.symm hr)
  have hvp (r : Fin 32) (hr : r.val ≠ d % 32) : (Machine.setReg t d x c).hart.vp[r] = t.hart.vp[r] := by
    simp only [Machine.setReg, Fin.getElem_fin]
    exact Vector.getElem_set_ne _ _ (Ne.symm hr)
  have hd (r : Nat) (hr : r < 32) :
      (Machine.setReg t d x c).hart.vdirty.getLsbD r = (t.hart.vdirty.getLsbD r || decide (r = d % 32)) := by
    simp only [Machine.setReg, BitVec.getLsbD_or, getLsbD_two_pow _ _ hr]
  refine ⟨?_, fun r hr => ⟨(hv r hr).trans (h2 r hr).1, (hvp r hr).trans (h2 r hr).2.1, ?_⟩, fun hz => ?_⟩
  · conv_lhs => rw [h1]
    rfl
  · rw [hd r r.isLt, (h2 r hr).2.2]; simp [hr]
  · rw [hd _ hlt] at hz; simp at hz

/-- Writing an element is replacing its register. -/
theorem setEl_eq (s : State) (r e w x : Nat) (p : Bool) :
    setEl s r e w x p = setReg s r (setBits (s.hart.v[r % 32].toNat) (e * w) w x)
      (setBits (s.hart.vp[r % 32].toNat) (e * w / 2) (w / 2) (ones (w / 2) p)) := rfl

/-- The conditions that cut an element loop short stand in the context of the convoy alone. -/
theorem OnlyReg.cur {d : Nat} {s t : State} (h : OnlyReg d s t) : t.hart.cur = s.hart.cur := by rw [h.1]

/-- What one element of `writeVec` does. -/
def stepVec (s : State) (d w p : Nat) (f : Nat → Nat × Bool) (e : Nat) (t : State) : State :=
  if active s p e then setEl t d e w (f e).1 ((f e).2 || activeP s p e)
  else if activeP s p e then setEl t d e w (if mz s then 0 else el s d e w) true
  else if mz s then setEl t d e w 0 false else t

/-- Element `e` is what R106 and R123 give, from the elements of `u` where it is kept. -/
def ElementDone (s u : State) (d w p : Nat) (f : Nat → Nat × Bool) (e : Nat) (t : State) : Prop :=
  (active s p e = true → el t d e w = (f e).1 % 2 ^ w ∧ elP t d e w = ((f e).2 || activeP s p e)) ∧
  (active s p e = false →
    el t d e w = (if mz s then 0 else el u d e w) ∧ (activeP s p e = true → elP t d e w = true) ∧
    (activeP s p e = false → elP t d e w = (!mz s && elP u d e w)))

/-- An element is smaller than its width allows. -/
theorem el_lt (s : State) (r e w : Nat) : el s r e w % 2 ^ w = el s r e w := by
  unfold el bitsN; exact Nat.mod_mod _ _

/-- One element. -/
theorem stepVec_spec (s t : State) (d w p : Nat) (f : Nat → Nat × Bool) (e : Nat) (hw : 2 ∣ w) (h0 : 0 < w)
    (he : e * w + w ≤ 32768 → el t d e w = el s d e w) :
    OnlyReg d t (stepVec s d w p f e t) ∧
    (e * w + w ≤ 32768 → ElementDone s t d w p f e (stepVec s d w p f e t)) ∧
    ∀ e', e' ≠ e → e' * w + w ≤ 32768 →
      el (stepVec s d w p f e t) d e' w = el t d e' w ∧ elP (stepVec s d w p f e t) d e' w = elP t d e' w := by
  have only (x : Nat) (q : Bool) : OnlyReg d t (setEl t d e w x q) := by rw [setEl_eq]; exact OnlyReg.setReg _ _ _ _ _ (OnlyReg.refl _ _)
  have apart (x : Nat) (q : Bool) (e' : Nat) (h1 : e' ≠ e) (h2 : e' * w + w ≤ 32768) :
      el (setEl t d e w x q) d e' w = el t d e' w ∧ elP (setEl t d e w x q) d e' w = elP t d e' w :=
    ⟨el_setEl_apart _ _ _ _ _ _ _ _ (Or.inr h1) h2, elP_setEl_apart _ _ _ _ _ _ _ _ hw (Or.inr h1) h2⟩
  unfold stepVec
  by_cases ha : active s p e = true
  · simp only [ha, if_true]
    refine ⟨only _ _, fun hb => ⟨fun _ => ⟨el_setEl_same _ _ _ _ _ _ hb, elP_setEl_same _ _ _ _ _ _ hw h0 hb⟩, fun h => ?_⟩, apart _ _⟩
    rw [ha] at h; cases h
  · simp only [Bool.not_eq_true] at ha
    by_cases hp : activeP s p e = true
    · simp only [ha, hp, if_true, Bool.false_eq_true, if_false]
      refine ⟨only _ _, fun hb => ⟨fun h => (by rw [ha] at h; cases h), fun _ => ⟨?_, fun _ => elP_setEl_same _ _ _ _ _ _ hw h0 hb, fun h => ?_⟩⟩, apart _ _⟩
      · rw [el_setEl_same _ _ _ _ _ _ hb]
        by_cases hm : mz s = true <;> simp [hm, el_lt, he hb]
      · rw [hp] at h; cases h
    · simp only [Bool.not_eq_true] at hp
      by_cases hm : mz s = true
      · simp only [ha, hp, hm, if_true, Bool.false_eq_true, if_false]
        refine ⟨only _ _, fun hb => ⟨fun h => (by rw [ha] at h; cases h), fun _ => ⟨?_, fun h => (by rw [hp] at h; cases h), fun _ => ?_⟩⟩, apart _ _⟩
        · rw [el_setEl_same _ _ _ _ _ _ hb, hm]; simp
        · rw [elP_setEl_same _ _ _ _ _ _ hw h0 hb, hm]; simp
      · simp only [Bool.not_eq_true] at hm
        simp only [ha, hp, hm, Bool.false_eq_true, if_false]
        refine ⟨OnlyReg.refl _ _, fun _ => ⟨fun h => (by rw [ha] at h; cases h), fun _ => ⟨?_, fun h => (by rw [hp] at h; cases h), fun _ => ?_⟩⟩, fun _ _ _ => by simp⟩
        · simp [hm]
        · simp [hm]

/-- Only register d differs, one step after the other. -/
theorem OnlyReg.trans {d : Nat} {s t u : State} (h : OnlyReg d s t) (g : OnlyReg d t u) : OnlyReg d s u := by
  refine ⟨?_, fun r hr => ⟨(g.2.1 r hr).1.trans (h.2.1 r hr).1, (g.2.1 r hr).2.1.trans (h.2.1 r hr).2.1,
    (g.2.1 r hr).2.2.trans (h.2.1 r hr).2.2⟩, fun hd => ?_⟩
  · conv_lhs => rw [g.1, h.1]
  · have h1 := g.2.2 hd
    have h2 := h.2.2 h1.1
    exact ⟨h2.1, h1.2.1.trans h2.2.1, h1.2.2.trans h2.2.2⟩

/-- The loop over body elements, from element `lo`. -/
theorem forUp_stepVec (s : State) (d w p : Nat) (f : Nat → Nat × Bool) (hw : 2 ∣ w) (h0 : 0 < w) (n lo : Nat) (t : State)
    (hl : ∀ e, lo ≤ e → e < lo + n → e < limit s) (hc : t.hart.cur = s.hart.cur)
    (hk : ∀ e, lo ≤ e → e < lo + n → e * w + w ≤ 32768 → el t d e w = el s d e w) :
    let r := forUp n lo t fun e t => if e < limit t then stepVec s d w p f e t else t
    OnlyReg d t r ∧ ∀ e, e * w + w ≤ 32768 →
      (lo ≤ e ∧ e < lo + n → ElementDone s t d w p f e r) ∧
      (¬(lo ≤ e ∧ e < lo + n) → el r d e w = el t d e w ∧ elP r d e w = elP t d e w) := by
  induction n generalizing lo t with
  | zero => exact ⟨OnlyReg.refl _ _, fun e _ => ⟨fun h => by omega, fun _ => ⟨rfl, rfl⟩⟩⟩
  | succ n ih =>
    have hlim : limit t = limit s := by unfold limit; rw [hc]
    have hlo : lo < limit t := by rw [hlim]; exact hl lo (by omega) (by omega)
    have h1 := stepVec_spec s t d w p f lo hw h0 (hk lo (by omega) (by omega))
    have hc' : (stepVec s d w p f lo t).hart.cur = s.hart.cur := by rw [h1.1.cur, hc]
    have h2 := ih (lo + 1) (stepVec s d w p f lo t) (fun e h3 h4 => hl e (by omega) (by omega)) hc'
      (fun e h3 h4 h5 => by rw [(h1.2.2 e (by omega) h5).1]; exact hk e (by omega) (by omega) h5)
    simp only [forUp, hlo, if_true]
    refine ⟨h1.1.trans h2.1, fun e he => ⟨fun h => ?_, fun h => ?_⟩⟩
    · by_cases hel : e = lo
      · subst hel
        have h3 := (h2.2 e he).2 (by omega)
        have h4 := h1.2.1 he
        unfold ElementDone at h4 ⊢
        rw [h3.1, h3.2]
        exact h4
      · have h3 := (h2.2 e he).1 (by omega)
        have h4 := h1.2.2 e hel he
        unfold ElementDone at h3 ⊢
        rw [h4.1, h4.2] at h3
        exact h3
    · have h3 := (h2.2 e he).2 (by omega)
      have h4 := h1.2.2 e (by omega) he
      exact ⟨h3.1.trans h4.1, h3.2.trans h4.2⟩

/-- Zeroing the tail of a register from bit `lo`. -/
theorem zeroTail_spec (t : State) (d n w e : Nat) (hw : 2 ∣ w) (he : e * w + w ≤ 32768) :
    (e < n → el (zeroTail t d (n * w)) d e w = el t d e w ∧ elP (zeroTail t d (n * w)) d e w = elP t d e w) ∧
    (n ≤ e → el (zeroTail t d (n * w)) d e w = 0 ∧ elP (zeroTail t d (n * w)) d e w = false) := by
  obtain ⟨k, rfl⟩ := hw
  have e1 (n : Nat) : n * (2 * k) / 2 = n * k := by rw [Nat.mul_left_comm]; exact Nat.mul_div_cancel_left _ (by decide)
  have e2 : 2 * k / 2 = k := Nat.mul_div_cancel_left _ (by decide)
  have e3 : e * k + k ≤ 16384 := by nlinarith
  simp only [el, elP, zeroTail, Machine.setReg, Vector.getElem_set_self, BitVec.toNat_ofNat, e1, e2]
  rw [bitsN_mod _ _ _ _ he, bitsN_mod _ _ _ _ e3]
  refine ⟨fun h => ?_, fun h => ?_⟩
  · rw [bitsN_mod _ _ _ _ (by nlinarith), bitsN_mod _ _ _ _ (by nlinarith)]
    exact ⟨rfl, rfl⟩
  · rw [bitsN_mod_above _ _ _ _ (Nat.mul_le_mul_right _ h), bitsN_mod_above _ _ _ _ (Nat.mul_le_mul_right _ h)]
    exact ⟨rfl, rfl⟩

/-- What `writeVec` leaves, when nothing cuts the member short (R106, R123). -/
theorem writeVec_spec (s : State) (d w p : Nat) (f : Nat → Nat × Bool) (hw : 2 ∣ w) (h0 : 0 < w) (hs : s.hart.cur.stop = none)
    (hf : s.hart.cur.fault = none) (ho : s.hart.cur.old = []) :
    OnlyReg d s (writeVec s d w p f) ∧ ∀ e, e * w + w ≤ 32768 →
      let body := s.hart.cur.vstart ≤ e ∧ e < s.hart.cur.vl
      let zeroed := s.hart.cur.vl ≤ e ∧ s.hart.cur.vstart < s.hart.cur.vl ∧ tz s = true ∧ s.hart.cur.vl * w < 8 * vrlen s
      (body → ElementDone s s d w p f e (writeVec s d w p f)) ∧
      (zeroed → el (writeVec s d w p f) d e w = 0 ∧ elP (writeVec s d w p f) d e w = false) ∧
      (¬body → ¬zeroed → el (writeVec s d w p f) d e w = el s d e w ∧ elP (writeVec s d w p f) d e w = elP s d e w) := by
  have hlim : limit s = s.hart.cur.vl := by simp [limit, hs, hf]
  have hloop := forUp_stepVec s d w p f hw h0 (s.hart.cur.vl - s.hart.cur.vstart) s.hart.cur.vstart s
    (fun e _ h => by rw [hlim]; omega) rfl (fun _ _ _ _ => rfl)
  have hbl : bodyLoop s (stepVec s d w p f) =
      forUp (s.hart.cur.vl - s.hart.cur.vstart) s.hart.cur.vstart s (fun e t => if e < limit t then stepVec s d w p f e t else t) := rfl
  rw [← hbl] at hloop
  have hwv : writeVec s d w p f = tail (bodyLoop s (stepVec s d w p f)) d w := by
    have hop : openOld s d = s := by simp [openOld, ho]
    unfold writeVec
    rw [hop]
    rfl
  have hcur : (bodyLoop s (stepVec s d w p f)).hart.cur = s.hart.cur := hloop.1.cur
  have htz : tz (bodyLoop s (stepVec s d w p f)) = tz s := by unfold tz; rw [hcur]
  have hvr : vrlen (bodyLoop s (stepVec s d w p f)) = vrlen s := by rw [hloop.1.1]; rfl
  rw [hwv]
  unfold tail
  rw [htz, hcur, hvr]
  by_cases ht : tz s = true ∧ s.hart.cur.vstart < s.hart.cur.vl ∧ s.hart.cur.vl * w < 8 * vrlen s
  · rw [if_pos (by simp [ht, hs])]
    refine ⟨OnlyReg.setReg _ _ _ _ _ hloop.1, fun e he => ?_⟩
    have hz := zeroTail_spec (bodyLoop s (stepVec s d w p f)) d s.hart.cur.vl w e hw he
    have hl := hloop.2 e he
    refine ⟨fun hb => ?_, fun hb => hz.2 hb.1, fun hb hn => ?_⟩
    · have h3 := hl.1 (by omega)
      unfold ElementDone at h3 ⊢
      rw [(hz.1 hb.2).1, (hz.1 hb.2).2]; exact h3
    · have hlt : e < s.hart.cur.vl := by
        by_contra h; exact hn ⟨by omega, ht.2.1, ht.1, ht.2.2⟩
      have h3 := hl.2 (by omega)
      exact ⟨(hz.1 hlt).1.trans h3.1, (hz.1 hlt).2.trans h3.2⟩
  · rw [if_neg (by simp only [hs, Bool.and_eq_true, decide_eq_true_eq, gt_iff_lt]; exact fun h => ht ⟨h.1.1.1, h.1.2, h.2⟩)]
    refine ⟨hloop.1, fun e he => ?_⟩
    have hl := hloop.2 e he
    refine ⟨fun hb => hl.1 (by omega), fun hb => absurd ⟨hb.2.2.1, hb.2.1, hb.2.2.2⟩ ht, fun hb _ => hl.2 (by omega)⟩

end Sys2Proof.Machine
end

