-- ==== Sys2Proof/Laws/Members.lean ====
section
/-! SUPPORT. Every instruction of the member table is performed by `solo` with its member. -/

namespace Sys2Proof.Machine

/-- R19, R20: an instruction of the vector class is a convoy of its own when it executes. -/
theorem exec_member (i : Instr) (m : Member) (s : State) (h : memberOf i = some m) : exec i s = solo i m s := by
  cases i <;> first
    | (cases h; done)
    | (injection h with h; subst h; rfl)

end Sys2Proof.Machine
end

