-- ==== Sys2Proof/Laws/Results.lean ====
section
/-! SUPPORT. From what a member does to what its instruction does as a convoy of its own: results in vector registers, predicates and scalar
registers. -/

namespace Sys2Proof.Machine

/-- Every width is even and positive. -/
theorem ewOf_even (vt : BitVec 14) : 2 ∣ ewOf vt ∧ 0 < ewOf vt := by
  unfold ewOf widthOf
  have h : vt.toNat % 8 % 8 < 8 := Nat.mod_lt _ (by decide)
  generalize vt.toNat % 8 % 8 = n at h
  interval_cases n <;> decide

/-- The registers that a fresh convoy reads are the hart's. -/
theorem begun_regs (s : State) (i : Instr) (hu : s.hart.unbound = []) :
    (begun s i).hart.v = s.hart.v ∧ (begun s i).hart.vp = s.hart.vp ∧ (begun s i).hart.p = s.hart.p ∧ (begun s i).hart.pp = s.hart.pp ∧
    (begun s i).hart.x = s.hart.x ∧ (begun s i).hart.vdirty = s.hart.vdirty ∧ (begun s i).hart.psm = s.hart.psm := by
  rw [begun_settled s i hu, settled_hart s i]; exact ⟨rfl, rfl, rfl, rfl, rfl, rfl, rfl⟩

/-- The context of a fresh convoy. -/
theorem begun_cur (s : State) (i : Instr) (hu : s.hart.unbound = []) :
    (begun s i).hart.cur.vl = nextLen s ∧ (begun s i).hart.cur.vtype = nextType s ∧ (begun s i).hart.cur.vstart = s.hart.vstart ∧
    (begun s i).hart.cur.stop = none ∧ (begun s i).hart.cur.fault = none ∧ (begun s i).hart.cur.wait = none ∧
    (begun s i).hart.cur.xs = s.hart.x ∧ (begun s i).hart.cur.snap = curSnap s.hart := by
  rw [begun_settled s i hu]; exact ⟨rfl, rfl, rfl, rfl, rfl, rfl, rfl, rfl⟩

/-- Elements depend on the registers alone. -/
theorem el_congr {s t : State} (h : t.hart.v = s.hart.v) (r e w : Nat) : el t r e w = el s r e w := by unfold el; rw [h]

/-- Poison depends on the registers alone. -/
theorem elP_congr {s t : State} (h : t.hart.vp = s.hart.vp) (r e w : Nat) : elP t r e w = elP s r e w := by unfold elP; rw [h]

/-- Predicate bits depend on the predicates alone. -/
theorem active_congr {s t : State} (h : t.hart.p = s.hart.p) (p e : Nat) : active t p e = active s p e := by unfold active; rw [h]

/-- Their poison too. -/
theorem activeP_congr {s t : State} (h : t.hart.pp = s.hart.pp) (p e : Nat) : activeP t p e = activeP s p e := by unfold activeP; rw [h]

/-- One element's part of `ElementsWritten`. -/
def ElementsAt (s : State) (d p : Nat) (val : Nat → Nat) (pois : Nat → Bool) (t : State) (e : Nat) : Prop :=
  let w := nextWidth s
  (inBody s e → active s p e = true → el t d e w = val e % 2 ^ w ∧ elP t d e w = (pois e || activeP s p e)) ∧
  (inBody s e → active s p e = false →
    el t d e w = (if nextMz s then 0 else el s d e w) ∧ (activeP s p e = true → elP t d e w = true) ∧
    (activeP s p e = false → elP t d e w = (!nextMz s && elP s d e w))) ∧
  (zeroedBytes s e → el t d e w = 0 ∧ elP t d e w = false) ∧
  (¬inBody s e → ¬zeroedBytes s e → el t d e w = el s d e w ∧ elP t d e w = elP s d e w)

/-- An instruction whose member writes one vector register element by element (R106, R123). -/
theorem elementwise_of (i : Instr) (m : Member) (s : State) (d p : Nat) (val : Nat → Nat) (pois : Nat → Bool)
    (hi : exec i s = solo i m s) (hr : Ready i m s) (hh : holdsOf i = []) (hd : d < 32)
    (hrun : m.run (begun s i) = writeVec (begun s i) d (nextWidth s) p fun e => (val e, pois e)) :
    Elementwise i s d p val pois := by
  have hq := hr.1
  have hu := hr.2.2.2.1
  have hc := begun_cur s i hu
  have hg := begun_regs s i hu
  have hw : 2 ∣ nextWidth s ∧ 0 < nextWidth s := ewOf_even _
  have spec := writeVec_spec (begun s i) d (nextWidth s) p (fun e => (val e, pois e)) hw.1 hw.2 hc.2.2.2.1 hc.2.2.2.2.1 (by rw [begun_settled s i hu])
  rw [← hrun] at spec
  have hcur := spec.1.cur
  have hsolo := solo_retires i m s hr (by rw [hcur]; exact hc.2.2.2.2.1) (by rw [hcur]; exact hc.2.2.2.2.2.1)
  have hret := (retire_regs s (m.run (begun s i)) i m hu hq (regs_of_vector spec.1.1)).trans (settled_end_of s i hh _ _ _ _ _ _)
  have hp : (m.run (begun s i)).hart.p = s.hart.p ∧ (m.run (begun s i)).hart.pp = s.hart.pp ∧ (m.run (begun s i)).hart.x = s.hart.x := by
    rw [spec.1.1]; exact ⟨hg.2.2.1, hg.2.2.2.1, hg.2.2.2.2.1⟩
  rw [hp.1, hp.2.1, hp.2.2] at hret
  refine ⟨_, hi.trans (hsolo.trans (congrArg _ hret)), rfl, fun r hrd => ?_, fun hz => ?_, fun e he => ?_⟩
  · have h := spec.1.2.1 r (by rw [Nat.mod_eq_of_lt hd]; exact hrd)
    rw [hg.1, hg.2.1, hg.2.2.2.2.2.1] at h
    exact h
  · have h := spec.1.2.2 (by rw [Nat.mod_eq_of_lt hd]; exact hz)
    rw [hg.1, hg.2.1] at h
    exact h.2
  · have he' : e * nextWidth s + nextWidth s ≤ 32768 := by
      have := (Nat.lt_div_iff_mul_lt hw.2).mp he
      have h2 : nextWidth s ∣ 32768 := by
        unfold nextWidth ewOf widthOf
        have h : (nextType s).toNat % 8 % 8 < 8 := Nat.mod_lt _ (by decide)
        generalize (nextType s).toNat % 8 % 8 = n at h
        interval_cases n <;> decide
      obtain ⟨k, hk⟩ := h2
      have : e < k := by rw [hk, Nat.mul_div_cancel_left _ hw.2] at he; exact he
      calc e * nextWidth s + nextWidth s = (e + 1) * nextWidth s := by ring
        _ ≤ k * nextWidth s := Nat.mul_le_mul_right _ this
        _ = 32768 := by rw [hk]; ring
    have h := spec.2 e he'
    have hmz : mz (begun s i) = nextMz s := by unfold mz nextMz; rw [hc.2.1]
    have htz : tz (begun s i) = bitN (nextType s).toNat 3 := by unfold tz; rw [hc.2.1]
    have hvr : vrlen (begun s i) = vrlen s := by rw [begun_eq s i hu hq hh]; rfl
    simp only [ElementDone, hc.1, hc.2.2.1, hmz, htz, hvr, el_congr hg.1, elP_congr hg.2.1, active_congr hg.2.2.1, activeP_congr hg.2.2.2.1] at h
    change ElementsAt s d p val pois (m.run (begun s i)) e
    exact ⟨fun hb ha => (h.1 hb).1 ha, fun hb ha => (h.1 hb).2 ha, fun hz => h.2.1 ⟨hz.1.1, hz.1.2.1, hz.1.2.2, hz.2⟩,
      fun hb hz => h.2.2 hb fun hn => hz ⟨⟨hn.1, hn.2.1, hn.2.2.1⟩, hn.2.2.2⟩⟩

end Sys2Proof.Machine
end

