-- ==== Sys2Proof/Laws/Predicates.lean ====
section
/-! SUPPORT. What the write of a predicate destination leaves, and results in scalar registers. -/

namespace Sys2Proof.Machine

/-- `bitN` is the bit. -/
theorem bitN_eq (u k : Nat) : bitN u k = u.testBit k := by
  rw [Nat.testBit_eq_decide_div_mod_eq]; unfold bitN
  by_cases h : u / 2 ^ k % 2 = 1 <;> simp [h]

/-- A bit after one bit of the same number was replaced. -/
theorem bitN_setBits (v e e' : Nat) (b : Bool) : bitN (setBits v e 1 (if b then 1 else 0)) e' = if e' = e then b else bitN v e' := by
  rw [bitN_eq, bitN_eq, testBit_setBits]
  by_cases he : e' = e
  · subst he; rw [if_pos (by omega), if_pos rfl]; cases b <;> simp
  · rw [if_neg (by omega), if_neg he]

/-- A bit below a bound does not see what is cut off above. -/
theorem bitN_mod (v n e : Nat) : bitN (v % 2 ^ n) e = (decide (e < n) && bitN v e) := by
  rw [bitN_eq, bitN_eq, Nat.testBit_mod_two_pow]

/-- A bit of a predicate. -/
def pbitOf (s : State) (d e : Nat) : Bool := bitN (s.hart.p[d % 16].toNat) e

/-- Poison of a bit of a predicate. -/
def pbitP (s : State) (d e : Nat) : Bool := bitN (s.hart.pp[d % 16].toNat) e

/-- The bits after one was written. -/
theorem pbit_setPred (s : State) (d e e' : Nat) (b q : Bool) (h : e' < 16384) :
    pbitOf (setPred s d e b q) d e' = (if e' = e then b else pbitOf s d e') ∧
    pbitP (setPred s d e b q) d e' = (if e' = e then q else pbitP s d e') := by
  simp only [pbitOf, pbitP, setPred, Vector.getElem_set_self, BitVec.toNat_ofNat, bitN_mod, h, bitN_setBits, decide_true, Bool.true_and]
  exact ⟨trivial, trivial⟩

/-- Nothing but predicate d and its poison differs. -/
def OnlyPred (d : Nat) (s t : State) : Prop :=
  t = { s with hart := { s.hart with p := t.hart.p, pp := t.hart.pp } } ∧
    ∀ r : Fin 16, r.val ≠ d % 16 → t.hart.p[r] = s.hart.p[r] ∧ t.hart.pp[r] = s.hart.pp[r]

/-- Nothing differs. -/
theorem OnlyPred.refl (d : Nat) (s : State) : OnlyPred d s s := ⟨rfl, fun _ _ => ⟨rfl, rfl⟩⟩

/-- One step after the other. -/
theorem OnlyPred.trans {d : Nat} {s t u : State} (h : OnlyPred d s t) (g : OnlyPred d t u) : OnlyPred d s u :=
  ⟨by conv_lhs => rw [g.1, h.1], fun r hr => ⟨(g.2 r hr).1.trans (h.2 r hr).1, (g.2 r hr).2.trans (h.2 r hr).2⟩⟩

/-- The context of the convoy is the same. -/
theorem OnlyPred.cur {d : Nat} {s t : State} (h : OnlyPred d s t) : t.hart.cur = s.hart.cur := by rw [h.1]

/-- Replacing predicate d changes only it. -/
theorem OnlyPred.set (d : Nat) (s : State) (a b : BitVec 16384) :
    OnlyPred d s { s with hart := { s.hart with
      p := s.hart.p.set (d % 16) a (Nat.mod_lt _ (by decide)), pp := s.hart.pp.set (d % 16) b (Nat.mod_lt _ (by decide)) } } := by
  refine ⟨rfl, fun r hr => ⟨?_, ?_⟩⟩ <;>
  · simp only [Fin.getElem_fin]
    exact Vector.getElem_set_ne _ _ (Ne.symm hr)

/-- What one element of `writePred` does. -/
def stepPred (s : State) (d p : Nat) (f : Nat → Bool × Bool) (e : Nat) (t : State) : State :=
  if active s p e then setPred t d e (f e).1 ((f e).2 || activeP s p e)
  else if activeP s p e then setPred t d e (if mz s then false else bitN (s.hart.p[d % 16].toNat) e) true
  else if mz s then setPred t d e false false else t

/-- Bit `e` is what R106 and R123 give, from the bits of `u` where it is kept. -/
def BitDone (s u : State) (d p : Nat) (f : Nat → Bool × Bool) (e : Nat) (t : State) : Prop :=
  (active s p e = true → pbitOf t d e = (f e).1 ∧ pbitP t d e = ((f e).2 || activeP s p e)) ∧
  (active s p e = false →
    pbitOf t d e = (!mz s && pbitOf u d e) ∧ (activeP s p e = true → pbitP t d e = true) ∧
    (activeP s p e = false → pbitP t d e = (!mz s && pbitP u d e)))

/-- One bit. -/
theorem stepPred_spec (s t : State) (d p : Nat) (f : Nat → Bool × Bool) (e : Nat) (he : e < 16384 → pbitOf t d e = pbitOf s d e) :
    OnlyPred d t (stepPred s d p f e t) ∧ (e < 16384 → BitDone s t d p f e (stepPred s d p f e t)) ∧
    ∀ e', e' ≠ e → e' < 16384 →
      pbitOf (stepPred s d p f e t) d e' = pbitOf t d e' ∧ pbitP (stepPred s d p f e t) d e' = pbitP t d e' := by
  have only (b q : Bool) : OnlyPred d t (setPred t d e b q) := OnlyPred.set _ _ _ _
  have apart (b q : Bool) (e' : Nat) (h1 : e' ≠ e) (h2 : e' < 16384) :
      pbitOf (setPred t d e b q) d e' = pbitOf t d e' ∧ pbitP (setPred t d e b q) d e' = pbitP t d e' := by
    have h := pbit_setPred t d e e' b q h2
    rw [if_neg h1, if_neg h1] at h; exact h
  have same (b q : Bool) (h2 : e < 16384) : pbitOf (setPred t d e b q) d e = b ∧ pbitP (setPred t d e b q) d e = q := by
    have h := pbit_setPred t d e e b q h2
    rw [if_pos rfl, if_pos rfl] at h; exact h
  have hs (h : e < 16384) : bitN (s.hart.p[d % 16].toNat) e = pbitOf t d e := (he h).symm
  unfold stepPred BitDone
  by_cases ha : active s p e = true
  · simp only [ha, if_true]
    exact ⟨only _ _, fun hb => ⟨fun _ => same _ _ hb, fun h => (by cases h)⟩, apart _ _⟩
  · simp only [Bool.not_eq_true] at ha
    by_cases hp : activeP s p e = true
    · simp only [ha, hp, if_true, Bool.false_eq_true, if_false]
      refine ⟨only _ _, fun hb => ⟨fun h => h.elim, fun _ => ⟨?_, fun _ => (same _ _ hb).2, fun h => (by cases h)⟩⟩, apart _ _⟩
      rw [(same _ _ hb).1, hs hb]
      cases mz s <;> rfl
    · simp only [Bool.not_eq_true] at hp
      by_cases hm : mz s = true
      · simp only [ha, hp, hm, if_true, Bool.false_eq_true, if_false]
        exact ⟨only _ _, fun hb => ⟨fun h => h.elim, fun _ => ⟨by rw [(same _ _ hb).1]; rfl, fun h => h.elim,
          fun _ => by rw [(same _ _ hb).2]; rfl⟩⟩, apart _ _⟩
      · simp only [Bool.not_eq_true] at hm
        simp only [ha, hp, hm, Bool.false_eq_true, if_false]
        exact ⟨OnlyPred.refl _ _, fun _ => ⟨fun h => h.elim, fun _ => ⟨by simp, fun h => h.elim, fun _ => by simp⟩⟩, fun _ _ _ => by simp⟩

/-- The loop over body bits. -/
theorem forUp_stepPred (s : State) (d p : Nat) (f : Nat → Bool × Bool) (n lo : Nat) (t : State)
    (hl : ∀ e, lo ≤ e → e < lo + n → e < limit s) (hc : t.hart.cur = s.hart.cur)
    (hk : ∀ e, lo ≤ e → e < lo + n → e < 16384 → pbitOf t d e = pbitOf s d e) :
    let r := forUp n lo t fun e t => if e < limit t then stepPred s d p f e t else t
    OnlyPred d t r ∧ ∀ e, e < 16384 →
      (lo ≤ e ∧ e < lo + n → BitDone s t d p f e r) ∧
      (¬(lo ≤ e ∧ e < lo + n) → pbitOf r d e = pbitOf t d e ∧ pbitP r d e = pbitP t d e) := by
  induction n generalizing lo t with
  | zero => exact ⟨OnlyPred.refl _ _, fun e _ => ⟨fun h => by omega, fun _ => ⟨rfl, rfl⟩⟩⟩
  | succ n ih =>
    have hlim : limit t = limit s := by unfold limit; rw [hc]
    have hlo : lo < limit t := by rw [hlim]; exact hl lo (by omega) (by omega)
    have h1 := stepPred_spec s t d p f lo (hk lo (by omega) (by omega))
    have hc' : (stepPred s d p f lo t).hart.cur = s.hart.cur := by rw [h1.1.cur, hc]
    have h2 := ih (lo + 1) (stepPred s d p f lo t) (fun e h3 h4 => hl e (by omega) (by omega)) hc'
      (fun e h3 h4 h5 => by rw [(h1.2.2 e (by omega) h5).1]; exact hk e (by omega) (by omega) h5)
    simp only [forUp, hlo, if_true]
    refine ⟨h1.1.trans h2.1, fun e he => ⟨fun h => ?_, fun h => ?_⟩⟩
    · by_cases hel : e = lo
      · subst hel
        have h3 := (h2.2 e he).2 (by omega)
        have h4 := h1.2.1 he
        unfold BitDone at h4 ⊢
        rw [h3.1, h3.2]
        exact h4
      · have h3 := (h2.2 e he).1 (by omega)
        have h4 := h1.2.2 e hel he
        unfold BitDone at h3 ⊢
        rw [h4.1, h4.2] at h3
        exact h3
    · have h3 := (h2.2 e he).2 (by omega)
      have h4 := h1.2.2 e (by omega) he
      exact ⟨h3.1.trans h4.1, h3.2.trans h4.2⟩

/-- What `writePred` leaves, when nothing cuts the member short (R106, R123). -/
theorem writePred_spec (s : State) (d p : Nat) (f : Nat → Bool × Bool) (hs : s.hart.cur.stop = none) (hf : s.hart.cur.fault = none) :
    OnlyPred d s (writePred s d p f) ∧ ∀ e, e < 16384 →
      let body := s.hart.cur.vstart ≤ e ∧ e < s.hart.cur.vl
      let zeroed := s.hart.cur.vl ≤ e ∧ s.hart.cur.vstart < s.hart.cur.vl ∧ tz s = true
      (body → BitDone s s d p f e (writePred s d p f)) ∧
      (zeroed → pbitOf (writePred s d p f) d e = false ∧ pbitP (writePred s d p f) d e = false) ∧
      (¬body → ¬zeroed → pbitOf (writePred s d p f) d e = pbitOf s d e ∧ pbitP (writePred s d p f) d e = pbitP s d e) := by
  have hlim : limit s = s.hart.cur.vl := by simp [limit, hs, hf]
  have hloop := forUp_stepPred s d p f (s.hart.cur.vl - s.hart.cur.vstart) s.hart.cur.vstart s
    (fun e _ h => by rw [hlim]; omega) rfl (fun _ _ _ _ => rfl)
  have hbl : bodyLoop s (stepPred s d p f) =
      forUp (s.hart.cur.vl - s.hart.cur.vstart) s.hart.cur.vstart s (fun e t => if e < limit t then stepPred s d p f e t else t) := rfl
  rw [← hbl] at hloop
  generalize hr : bodyLoop s (stepPred s d p f) = r at hloop
  have hwp : writePred s d p f =
      if tz s && s.hart.cur.stop == none && s.hart.cur.vl > s.hart.cur.vstart then
        { r with hart := { r.hart with
            p := r.hart.p.set (d % 16) (BitVec.ofNat 16384 (r.hart.p[d % 16].toNat % 2 ^ s.hart.cur.vl)) (Nat.mod_lt _ (by decide)),
            pp := r.hart.pp.set (d % 16) (BitVec.ofNat 16384 (r.hart.pp[d % 16].toNat % 2 ^ s.hart.cur.vl)) (Nat.mod_lt _ (by decide)) } }
      else r := by rw [← hr]; rfl
  rw [hwp]
  by_cases ht : tz s = true ∧ s.hart.cur.vstart < s.hart.cur.vl
  · rw [if_pos (by simp [ht, hs])]
    refine ⟨hloop.1.trans (OnlyPred.set _ _ _ _), fun e he => ?_⟩
    have hl := hloop.2 e he
    have cut (e : Nat) (he : e < 16384) :
        pbitOf { r with hart := { r.hart with
            p := r.hart.p.set (d % 16) (BitVec.ofNat 16384 (r.hart.p[d % 16].toNat % 2 ^ s.hart.cur.vl)) (Nat.mod_lt _ (by decide)),
            pp := r.hart.pp.set (d % 16) (BitVec.ofNat 16384 (r.hart.pp[d % 16].toNat % 2 ^ s.hart.cur.vl)) (Nat.mod_lt _ (by decide)) } } d e =
          (decide (e < s.hart.cur.vl) && pbitOf r d e) ∧
        pbitP { r with hart := { r.hart with
            p := r.hart.p.set (d % 16) (BitVec.ofNat 16384 (r.hart.p[d % 16].toNat % 2 ^ s.hart.cur.vl)) (Nat.mod_lt _ (by decide)),
            pp := r.hart.pp.set (d % 16) (BitVec.ofNat 16384 (r.hart.pp[d % 16].toNat % 2 ^ s.hart.cur.vl)) (Nat.mod_lt _ (by decide)) } } d e =
          (decide (e < s.hart.cur.vl) && pbitP r d e) := by
      simp only [pbitOf, pbitP, Vector.getElem_set_self, BitVec.toNat_ofNat, bitN_mod, he, decide_true, Bool.true_and]
      exact ⟨trivial, trivial⟩
    have hcut := cut e he
    refine ⟨fun hb => ?_, fun hz => ?_, fun hb hn => ?_⟩
    · have h3 := hl.1 (by omega)
      unfold BitDone at h3 ⊢
      rw [hcut.1, hcut.2]; simp only [hb.2, decide_true, Bool.true_and]; exact h3
    · rw [hcut.1, hcut.2]; simp [Nat.not_lt.mpr hz.1]
    · have hlt : e < s.hart.cur.vl := by
        by_contra h; exact hn ⟨by omega, ht.2, ht.1⟩
      have h3 := hl.2 (by omega)
      rw [hcut.1, hcut.2]; simp only [hlt, decide_true, Bool.true_and]; exact h3
  · rw [if_neg (by simp only [hs, Bool.and_eq_true, decide_eq_true_eq, gt_iff_lt]; exact fun h => ht ⟨h.1.1, h.2⟩)]
    refine ⟨hloop.1, fun e he => ?_⟩
    have hl := hloop.2 e he
    exact ⟨fun hb => hl.1 (by omega), fun hb => absurd ⟨hb.2.2, hb.2.1⟩ ht, fun hb _ => hl.2 (by omega)⟩

/-- An instruction whose member writes one predicate bit by bit (R106, R123). -/
theorem bitwise_of (i : Instr) (m : Member) (s : State) (d p : Nat) (val pois : Nat → Bool)
    (hi : exec i s = solo i m s) (hr : Ready i m s) (hh : holdsOf i = []) (hd : d < 16)
    (hrun : m.run (begun s i) = writePred (begun s i) d p fun e => (val e, pois e)) : Bitwise i s d p val pois := by
  have hq := hr.1
  have hu := hr.2.2.2.1
  have hc := begun_cur s i hu
  have hg := begun_regs s i hu
  have spec := writePred_spec (begun s i) d p (fun e => (val e, pois e)) hc.2.2.2.1 hc.2.2.2.2.1
  rw [← hrun] at spec
  have hcur := spec.1.cur
  have hsolo := solo_retires i m s hr (by rw [hcur]; exact hc.2.2.2.2.1) (by rw [hcur]; exact hc.2.2.2.2.2.1)
  have hret := (retire_regs s (m.run (begun s i)) i m hu hq (regs_of_pred spec.1.1)).trans (settled_end_of s i hh _ _ _ _ _ _)
  have hk : (m.run (begun s i)).hart.v = s.hart.v ∧ (m.run (begun s i)).hart.vp = s.hart.vp ∧ (m.run (begun s i)).hart.vdirty = s.hart.vdirty ∧
      (m.run (begun s i)).hart.x = s.hart.x := by
    rw [spec.1.1]; exact ⟨hg.1, hg.2.1, hg.2.2.2.2.2.1, hg.2.2.2.2.1⟩
  rw [hk.1, hk.2.1, hk.2.2.1, hk.2.2.2] at hret
  refine ⟨_, hi.trans (hsolo.trans (congrArg _ hret)), rfl, fun r hrd => ?_, fun e he => ?_⟩
  · have h := spec.1.2 r (by rw [Nat.mod_eq_of_lt hd]; exact hrd)
    rw [hg.2.2.1, hg.2.2.2.1] at h
    exact h
  · have h := spec.2 e he
    have hmz : mz (begun s i) = nextMz s := by unfold mz nextMz; rw [hc.2.1]
    have htz : tz (begun s i) = bitN (nextType s).toNat 3 := by unfold tz; rw [hc.2.1]
    have hp : pbitOf (begun s i) d e = pbitOf s d e := by unfold pbitOf; rw [hg.2.2.1]
    have hpp : pbitP (begun s i) d e = pbitP s d e := by unfold pbitP; rw [hg.2.2.2.1]
    simp only [BitDone, hc.1, hc.2.2.1, hmz, htz, hp, hpp, active_congr hg.2.2.1, activeP_congr hg.2.2.2.1] at h
    exact ⟨fun hb ha => (h.1 hb).1 ha, fun hb ha => (h.1 hb).2 ha, fun hz => h.2.1 hz, fun hb hz => h.2.2 hb hz⟩

/-- An instruction whose member writes one scalar register. -/
theorem scalar_of (i : Instr) (m : Member) (s : State) (d : BitVec 5) (v : Word) (hi : exec i s = solo i m s) (hr : Ready i m s)
    (hrun : m.run (begun s i) = writeX (begun s i) d v) : ScalarResult i s d v := by
  have hq := hr.1
  have hu := hr.2.2.2.1
  have hc := begun_cur s i hu
  have hcur : (m.run (begun s i)).hart.cur = (begun s i).hart.cur := by
    rw [hrun]; unfold writeX; split <;> rfl
  have hsolo := solo_retires i m s hr (by rw [hcur]; exact hc.2.2.2.2.1) (by rw [hcur]; exact hc.2.2.2.2.2.1)
  have hg := begun_regs s i hu
  have hx : (writeX (begun s i) d v).hart.x = setX s.hart.x d v := by
    unfold writeX setX
    split
    · exact hg.2.2.2.2.1
    · rw [← hg.2.2.2.2.1]
  have hret := retire_regs s (m.run (begun s i)) i m hu hq (by rw [hrun]; unfold writeX; split <;> rfl)
  have hk : (m.run (begun s i)).hart.v = s.hart.v ∧ (m.run (begun s i)).hart.vp = s.hart.vp ∧ (m.run (begun s i)).hart.vdirty = s.hart.vdirty ∧
      (m.run (begun s i)).hart.p = s.hart.p ∧ (m.run (begun s i)).hart.pp = s.hart.pp ∧ (m.run (begun s i)).hart.x = setX s.hart.x d v := by
    rw [hrun]
    refine ⟨?_, ?_, ?_, ?_, ?_, hx⟩ <;> unfold writeX <;> split <;> first | exact hg.1 | exact hg.2.1 | exact hg.2.2.2.2.2.1 | exact hg.2.2.1 | exact hg.2.2.2.1
  rw [hk.1, hk.2.1, hk.2.2.1, hk.2.2.2.1, hk.2.2.2.2.1, hk.2.2.2.2.2] at hret
  unfold ScalarResult
  rw [hi, hsolo]
  exact congrArg _ hret

end Sys2Proof.Machine
end

