-- ==== Sys2Proof/Laws/State.lean ====
section
/-! SUPPORT. What each small update of State leaves in each field: no later proof unfolds a record update for these. -/

namespace Sys2Proof.Machine


/-! ### `advance` -/

@[simp] theorem advance_others (s : State) (n : Nat) : (advance s n).others = s.others := rfl
@[simp] theorem advance_cores (s : State) (n : Nat) : (advance s n).cores = s.cores := rfl
@[simp] theorem advance_gangs (s : State) (n : Nat) : (advance s n).gangs = s.gangs := rfl
@[simp] theorem advance_mem (s : State) (n : Nat) : (advance s n).mem = s.mem := rfl
@[simp] theorem advance_poison (s : State) (n : Nat) : (advance s n).poison = s.poison := rfl
@[simp] theorem advance_durable (s : State) (n : Nat) : (advance s n).durable = s.durable := rfl
@[simp] theorem advance_loftPend (s : State) (n : Nat) : (advance s n).loftPend = s.loftPend := rfl
@[simp] theorem advance_combining (s : State) (n : Nat) : (advance s n).combining = s.combining := rfl
@[simp] theorem advance_ctxBase (s : State) (n : Nat) : (advance s n).ctxBase = s.ctxBase := rfl
@[simp] theorem advance_sealKeys (s : State) (n : Nat) : (advance s n).sealKeys = s.sealKeys := rfl
@[simp] theorem advance_peerDrams (s : State) (n : Nat) : (advance s n).peerDrams = s.peerDrams := rfl
@[simp] theorem advance_zcache (s : State) (n : Nat) : (advance s n).zcache = s.zcache := rfl
@[simp] theorem advance_zWriters (s : State) (n : Nat) : (advance s n).zWriters = s.zWriters := rfl
@[simp] theorem advance_wbWait (s : State) (n : Nat) : (advance s n).wbWait = s.wbWait := rfl
@[simp] theorem advance_linkFailed (s : State) (n : Nat) : (advance s n).linkFailed = s.linkFailed := rfl
@[simp] theorem advance_packets (s : State) (n : Nat) : (advance s n).packets = s.packets := rfl
@[simp] theorem advance_migrations (s : State) (n : Nat) : (advance s n).migrations = s.migrations := rfl
@[simp] theorem advance_tlb (s : State) (n : Nat) : (advance s n).tlb = s.tlb := rfl
@[simp] theorem advance_sheds (s : State) (n : Nat) : (advance s n).sheds = s.sheds := rfl
@[simp] theorem advance_queues (s : State) (n : Nat) : (advance s n).queues = s.queues := rfl
@[simp] theorem advance_launches (s : State) (n : Nat) : (advance s n).launches = s.launches := rfl
@[simp] theorem advance_leaf (s : State) (n : Nat) : (advance s n).leaf = s.leaf := rfl
@[simp] theorem advance_dev (s : State) (n : Nat) : (advance s n).dev = s.dev := rfl
@[simp] theorem advance_free (s : State) (n : Nat) : (advance s n).free = s.free := rfl
@[simp] theorem advance_time (s : State) (n : Nat) : (advance s n).time = s.time := rfl
@[simp] theorem advance_loftLost (s : State) (n : Nat) : (advance s n).loftLost = s.loftLost := rfl
@[simp] theorem advance_loftClean (s : State) (n : Nat) : (advance s n).loftClean = s.loftClean := rfl
@[simp] theorem advance_durablePoison (s : State) (n : Nat) : (advance s n).durablePoison = s.durablePoison := rfl
@[simp] theorem advance_durableClean (s : State) (n : Nat) : (advance s n).durableClean = s.durableClean := rfl
@[simp] theorem advance_sealed (s : State) (n : Nat) : (advance s n).sealed = s.sealed := rfl
@[simp] theorem advance_remote (s : State) (n : Nat) : (advance s n).remote = s.remote := rfl
@[simp] theorem advance_inbox (s : State) (n : Nat) : (advance s n).inbox = s.inbox := rfl
@[simp] theorem advance_outbox (s : State) (n : Nat) : (advance s n).outbox = s.outbox := rfl
@[simp] theorem advance_hostFaults (s : State) (n : Nat) : (advance s n).hostFaults = s.hostFaults := rfl
@[simp] theorem advance_overflow (s : State) (n : Nat) : (advance s n).overflow = s.overflow := rfl
@[simp] theorem advance_overflowMoved (s : State) (n : Nat) : (advance s n).overflowMoved = s.overflowMoved := rfl
@[simp] theorem advance_agenda (s : State) (n : Nat) : (advance s n).agenda = s.agenda := rfl
@[simp] theorem advance_hart_renamed (s : State) (n : Nat) : (advance s n).hart.renamed = s.hart.renamed := rfl
@[simp] theorem advance_hart_unverified (s : State) (n : Nat) : (advance s n).hart.unverified = s.hart.unverified := rfl
@[simp] theorem advance_hart_lostAt (s : State) (n : Nat) : (advance s n).hart.lostAt = s.hart.lostAt := rfl
@[simp] theorem advance_hart_tilen (s : State) (n : Nat) : (advance s n).hart.tilen = s.hart.tilen := rfl
@[simp] theorem advance_hart_rmode (s : State) (n : Nat) : (advance s n).hart.rmode = s.hart.rmode := rfl
@[simp] theorem advance_hart_repro (s : State) (n : Nat) : (advance s n).hart.repro = s.hart.repro := rfl
@[simp] theorem advance_hart_fmt (s : State) (n : Nat) : (advance s n).hart.fmt = s.hart.fmt := rfl
@[simp] theorem advance_hart_memfmt (s : State) (n : Nat) : (advance s n).hart.memfmt = s.hart.memfmt := rfl
@[simp] theorem advance_hart_issued (s : State) (n : Nat) : (advance s n).hart.issued = s.hart.issued := rfl
@[simp] theorem advance_hart_complete (s : State) (n : Nat) : (advance s n).hart.complete = s.hart.complete := rfl
@[simp] theorem advance_hart_entered (s : State) (n : Nat) : (advance s n).hart.entered = s.hart.entered := rfl
@[simp] theorem advance_hart_epoch (s : State) (n : Nat) : (advance s n).hart.epoch = s.hart.epoch := rfl
@[simp] theorem advance_hart_streams (s : State) (n : Nat) : (advance s n).hart.streams = s.hart.streams := rfl
@[simp] theorem advance_hart_pins (s : State) (n : Nat) : (advance s n).hart.pins = s.hart.pins := rfl
@[simp] theorem advance_hart_x (s : State) (n : Nat) : (advance s n).hart.x = s.hart.x := rfl
@[simp] theorem advance_hart_v (s : State) (n : Nat) : (advance s n).hart.v = s.hart.v := rfl
@[simp] theorem advance_hart_vp (s : State) (n : Nat) : (advance s n).hart.vp = s.hart.vp := rfl
@[simp] theorem advance_hart_p (s : State) (n : Nat) : (advance s n).hart.p = s.hart.p := rfl
@[simp] theorem advance_hart_pp (s : State) (n : Nat) : (advance s n).hart.pp = s.hart.pp := rfl
@[simp] theorem advance_hart_k (s : State) (n : Nat) : (advance s n).hart.k = s.hart.k := rfl
@[simp] theorem advance_hart_psm (s : State) (n : Nat) : (advance s n).hart.psm = s.hart.psm := rfl
@[simp] theorem advance_hart_tile (s : State) (n : Nat) : (advance s n).hart.tile = s.hart.tile := rfl
@[simp] theorem advance_hart_sums (s : State) (n : Nat) : (advance s n).hart.sums = s.hart.sums := rfl
@[simp] theorem advance_hart_pennants (s : State) (n : Nat) : (advance s n).hart.pennants = s.hart.pennants := rfl
@[simp] theorem advance_hart_vl (s : State) (n : Nat) : (advance s n).hart.vl = s.hart.vl := rfl
@[simp] theorem advance_hart_vtype (s : State) (n : Nat) : (advance s n).hart.vtype = s.hart.vtype := rfl
@[simp] theorem advance_hart_vstart (s : State) (n : Nat) : (advance s n).hart.vstart = s.hart.vstart := rfl
@[simp] theorem advance_hart_pend (s : State) (n : Nat) : (advance s n).hart.pend = s.hart.pend := rfl
@[simp] theorem advance_hart_cause (s : State) (n : Nat) : (advance s n).hart.cause = s.hart.cause := rfl
@[simp] theorem advance_hart_epc (s : State) (n : Nat) : (advance s n).hart.epc = s.hart.epc := rfl
@[simp] theorem advance_hart_tval (s : State) (n : Nat) : (advance s n).hart.tval = s.hart.tval := rfl
@[simp] theorem advance_hart_storeQ (s : State) (n : Nat) : (advance s n).hart.storeQ = s.hart.storeQ := rfl
@[simp] theorem advance_hart_vq (s : State) (n : Nat) : (advance s n).hart.vq = s.hart.vq := rfl
@[simp] theorem advance_hart_aq (s : State) (n : Nat) : (advance s n).hart.aq = s.hart.aq := rfl
@[simp] theorem advance_hart_run (s : State) (n : Nat) : (advance s n).hart.run = s.hart.run := rfl
@[simp] theorem advance_hart_stop (s : State) (n : Nat) : (advance s n).hart.stop = s.hart.stop := rfl
@[simp] theorem advance_hart_binds (s : State) (n : Nat) : (advance s n).hart.binds = s.hart.binds := rfl
@[simp] theorem advance_hart_unbound (s : State) (n : Nat) : (advance s n).hart.unbound = s.hart.unbound := rfl
@[simp] theorem advance_hart_pc (s : State) (n : Nat) : (advance s n).hart.pc = s.hart.pc + W (stepBytes s.hart n) := rfl
@[simp] theorem advance_hart_park (s : State) (n : Nat) : (advance s n).hart.park = none := rfl
@[simp] theorem advance_hart_instret (s : State) (n : Nat) : (advance s n).hart.instret = s.hart.instret + 1 := rfl

/-! ### `jumpTo` -/

@[simp] theorem jumpTo_others (s : State) (a : Word) : (jumpTo s a).others = s.others := rfl
@[simp] theorem jumpTo_cores (s : State) (a : Word) : (jumpTo s a).cores = s.cores := rfl
@[simp] theorem jumpTo_gangs (s : State) (a : Word) : (jumpTo s a).gangs = s.gangs := rfl
@[simp] theorem jumpTo_mem (s : State) (a : Word) : (jumpTo s a).mem = s.mem := rfl
@[simp] theorem jumpTo_poison (s : State) (a : Word) : (jumpTo s a).poison = s.poison := rfl
@[simp] theorem jumpTo_durable (s : State) (a : Word) : (jumpTo s a).durable = s.durable := rfl
@[simp] theorem jumpTo_loftPend (s : State) (a : Word) : (jumpTo s a).loftPend = s.loftPend := rfl
@[simp] theorem jumpTo_combining (s : State) (a : Word) : (jumpTo s a).combining = s.combining := rfl
@[simp] theorem jumpTo_ctxBase (s : State) (a : Word) : (jumpTo s a).ctxBase = s.ctxBase := rfl
@[simp] theorem jumpTo_sealKeys (s : State) (a : Word) : (jumpTo s a).sealKeys = s.sealKeys := rfl
@[simp] theorem jumpTo_peerDrams (s : State) (a : Word) : (jumpTo s a).peerDrams = s.peerDrams := rfl
@[simp] theorem jumpTo_zcache (s : State) (a : Word) : (jumpTo s a).zcache = s.zcache := rfl
@[simp] theorem jumpTo_zWriters (s : State) (a : Word) : (jumpTo s a).zWriters = s.zWriters := rfl
@[simp] theorem jumpTo_wbWait (s : State) (a : Word) : (jumpTo s a).wbWait = s.wbWait := rfl
@[simp] theorem jumpTo_linkFailed (s : State) (a : Word) : (jumpTo s a).linkFailed = s.linkFailed := rfl
@[simp] theorem jumpTo_packets (s : State) (a : Word) : (jumpTo s a).packets = s.packets := rfl
@[simp] theorem jumpTo_migrations (s : State) (a : Word) : (jumpTo s a).migrations = s.migrations := rfl
@[simp] theorem jumpTo_tlb (s : State) (a : Word) : (jumpTo s a).tlb = s.tlb := rfl
@[simp] theorem jumpTo_sheds (s : State) (a : Word) : (jumpTo s a).sheds = s.sheds := rfl
@[simp] theorem jumpTo_queues (s : State) (a : Word) : (jumpTo s a).queues = s.queues := rfl
@[simp] theorem jumpTo_launches (s : State) (a : Word) : (jumpTo s a).launches = s.launches := rfl
@[simp] theorem jumpTo_leaf (s : State) (a : Word) : (jumpTo s a).leaf = s.leaf := rfl
@[simp] theorem jumpTo_dev (s : State) (a : Word) : (jumpTo s a).dev = s.dev := rfl
@[simp] theorem jumpTo_free (s : State) (a : Word) : (jumpTo s a).free = s.free := rfl
@[simp] theorem jumpTo_time (s : State) (a : Word) : (jumpTo s a).time = s.time := rfl
@[simp] theorem jumpTo_loftLost (s : State) (a : Word) : (jumpTo s a).loftLost = s.loftLost := rfl
@[simp] theorem jumpTo_loftClean (s : State) (a : Word) : (jumpTo s a).loftClean = s.loftClean := rfl
@[simp] theorem jumpTo_durablePoison (s : State) (a : Word) : (jumpTo s a).durablePoison = s.durablePoison := rfl
@[simp] theorem jumpTo_durableClean (s : State) (a : Word) : (jumpTo s a).durableClean = s.durableClean := rfl
@[simp] theorem jumpTo_sealed (s : State) (a : Word) : (jumpTo s a).sealed = s.sealed := rfl
@[simp] theorem jumpTo_remote (s : State) (a : Word) : (jumpTo s a).remote = s.remote := rfl
@[simp] theorem jumpTo_inbox (s : State) (a : Word) : (jumpTo s a).inbox = s.inbox := rfl
@[simp] theorem jumpTo_outbox (s : State) (a : Word) : (jumpTo s a).outbox = s.outbox := rfl
@[simp] theorem jumpTo_hostFaults (s : State) (a : Word) : (jumpTo s a).hostFaults = s.hostFaults := rfl
@[simp] theorem jumpTo_overflow (s : State) (a : Word) : (jumpTo s a).overflow = s.overflow := rfl
@[simp] theorem jumpTo_overflowMoved (s : State) (a : Word) : (jumpTo s a).overflowMoved = s.overflowMoved := rfl
@[simp] theorem jumpTo_agenda (s : State) (a : Word) : (jumpTo s a).agenda = s.agenda := rfl
@[simp] theorem jumpTo_hart_renamed (s : State) (a : Word) : (jumpTo s a).hart.renamed = s.hart.renamed := rfl
@[simp] theorem jumpTo_hart_unverified (s : State) (a : Word) : (jumpTo s a).hart.unverified = s.hart.unverified := rfl
@[simp] theorem jumpTo_hart_lostAt (s : State) (a : Word) : (jumpTo s a).hart.lostAt = s.hart.lostAt := rfl
@[simp] theorem jumpTo_hart_tilen (s : State) (a : Word) : (jumpTo s a).hart.tilen = s.hart.tilen := rfl
@[simp] theorem jumpTo_hart_rmode (s : State) (a : Word) : (jumpTo s a).hart.rmode = s.hart.rmode := rfl
@[simp] theorem jumpTo_hart_repro (s : State) (a : Word) : (jumpTo s a).hart.repro = s.hart.repro := rfl
@[simp] theorem jumpTo_hart_fmt (s : State) (a : Word) : (jumpTo s a).hart.fmt = s.hart.fmt := rfl
@[simp] theorem jumpTo_hart_memfmt (s : State) (a : Word) : (jumpTo s a).hart.memfmt = s.hart.memfmt := rfl
@[simp] theorem jumpTo_hart_issued (s : State) (a : Word) : (jumpTo s a).hart.issued = s.hart.issued := rfl
@[simp] theorem jumpTo_hart_complete (s : State) (a : Word) : (jumpTo s a).hart.complete = s.hart.complete := rfl
@[simp] theorem jumpTo_hart_entered (s : State) (a : Word) : (jumpTo s a).hart.entered = s.hart.entered := rfl
@[simp] theorem jumpTo_hart_epoch (s : State) (a : Word) : (jumpTo s a).hart.epoch = s.hart.epoch := rfl
@[simp] theorem jumpTo_hart_streams (s : State) (a : Word) : (jumpTo s a).hart.streams = s.hart.streams := rfl
@[simp] theorem jumpTo_hart_pins (s : State) (a : Word) : (jumpTo s a).hart.pins = s.hart.pins := rfl
@[simp] theorem jumpTo_hart_x (s : State) (a : Word) : (jumpTo s a).hart.x = s.hart.x := rfl
@[simp] theorem jumpTo_hart_v (s : State) (a : Word) : (jumpTo s a).hart.v = s.hart.v := rfl
@[simp] theorem jumpTo_hart_vp (s : State) (a : Word) : (jumpTo s a).hart.vp = s.hart.vp := rfl
@[simp] theorem jumpTo_hart_p (s : State) (a : Word) : (jumpTo s a).hart.p = s.hart.p := rfl
@[simp] theorem jumpTo_hart_pp (s : State) (a : Word) : (jumpTo s a).hart.pp = s.hart.pp := rfl
@[simp] theorem jumpTo_hart_k (s : State) (a : Word) : (jumpTo s a).hart.k = s.hart.k := rfl
@[simp] theorem jumpTo_hart_psm (s : State) (a : Word) : (jumpTo s a).hart.psm = s.hart.psm := rfl
@[simp] theorem jumpTo_hart_tile (s : State) (a : Word) : (jumpTo s a).hart.tile = s.hart.tile := rfl
@[simp] theorem jumpTo_hart_sums (s : State) (a : Word) : (jumpTo s a).hart.sums = s.hart.sums := rfl
@[simp] theorem jumpTo_hart_pennants (s : State) (a : Word) : (jumpTo s a).hart.pennants = s.hart.pennants := rfl
@[simp] theorem jumpTo_hart_vl (s : State) (a : Word) : (jumpTo s a).hart.vl = s.hart.vl := rfl
@[simp] theorem jumpTo_hart_vtype (s : State) (a : Word) : (jumpTo s a).hart.vtype = s.hart.vtype := rfl
@[simp] theorem jumpTo_hart_vstart (s : State) (a : Word) : (jumpTo s a).hart.vstart = s.hart.vstart := rfl
@[simp] theorem jumpTo_hart_pend (s : State) (a : Word) : (jumpTo s a).hart.pend = s.hart.pend := rfl
@[simp] theorem jumpTo_hart_cause (s : State) (a : Word) : (jumpTo s a).hart.cause = s.hart.cause := rfl
@[simp] theorem jumpTo_hart_epc (s : State) (a : Word) : (jumpTo s a).hart.epc = s.hart.epc := rfl
@[simp] theorem jumpTo_hart_tval (s : State) (a : Word) : (jumpTo s a).hart.tval = s.hart.tval := rfl
@[simp] theorem jumpTo_hart_storeQ (s : State) (a : Word) : (jumpTo s a).hart.storeQ = s.hart.storeQ := rfl
@[simp] theorem jumpTo_hart_vq (s : State) (a : Word) : (jumpTo s a).hart.vq = s.hart.vq := rfl
@[simp] theorem jumpTo_hart_aq (s : State) (a : Word) : (jumpTo s a).hart.aq = s.hart.aq := rfl
@[simp] theorem jumpTo_hart_run (s : State) (a : Word) : (jumpTo s a).hart.run = s.hart.run := rfl
@[simp] theorem jumpTo_hart_stop (s : State) (a : Word) : (jumpTo s a).hart.stop = s.hart.stop := rfl
@[simp] theorem jumpTo_hart_binds (s : State) (a : Word) : (jumpTo s a).hart.binds = s.hart.binds := rfl
@[simp] theorem jumpTo_hart_unbound (s : State) (a : Word) : (jumpTo s a).hart.unbound = s.hart.unbound := rfl
@[simp] theorem jumpTo_hart_pc (s : State) (a : Word) : (jumpTo s a).hart.pc = a := rfl
@[simp] theorem jumpTo_hart_park (s : State) (a : Word) : (jumpTo s a).hart.park = none := rfl
@[simp] theorem jumpTo_hart_instret (s : State) (a : Word) : (jumpTo s a).hart.instret = s.hart.instret + 1 := rfl

/-! ### `wait` -/

@[simp] theorem wait_others (s : State) (why : Park) : (wait s why).others = s.others := rfl
@[simp] theorem wait_cores (s : State) (why : Park) : (wait s why).cores = s.cores := rfl
@[simp] theorem wait_gangs (s : State) (why : Park) : (wait s why).gangs = s.gangs := rfl
@[simp] theorem wait_mem (s : State) (why : Park) : (wait s why).mem = s.mem := rfl
@[simp] theorem wait_poison (s : State) (why : Park) : (wait s why).poison = s.poison := rfl
@[simp] theorem wait_durable (s : State) (why : Park) : (wait s why).durable = s.durable := rfl
@[simp] theorem wait_loftPend (s : State) (why : Park) : (wait s why).loftPend = s.loftPend := rfl
@[simp] theorem wait_combining (s : State) (why : Park) : (wait s why).combining = s.combining := rfl
@[simp] theorem wait_ctxBase (s : State) (why : Park) : (wait s why).ctxBase = s.ctxBase := rfl
@[simp] theorem wait_sealKeys (s : State) (why : Park) : (wait s why).sealKeys = s.sealKeys := rfl
@[simp] theorem wait_peerDrams (s : State) (why : Park) : (wait s why).peerDrams = s.peerDrams := rfl
@[simp] theorem wait_zcache (s : State) (why : Park) : (wait s why).zcache = s.zcache := rfl
@[simp] theorem wait_zWriters (s : State) (why : Park) : (wait s why).zWriters = s.zWriters := rfl
@[simp] theorem wait_wbWait (s : State) (why : Park) : (wait s why).wbWait = s.wbWait := rfl
@[simp] theorem wait_linkFailed (s : State) (why : Park) : (wait s why).linkFailed = s.linkFailed := rfl
@[simp] theorem wait_packets (s : State) (why : Park) : (wait s why).packets = s.packets := rfl
@[simp] theorem wait_migrations (s : State) (why : Park) : (wait s why).migrations = s.migrations := rfl
@[simp] theorem wait_tlb (s : State) (why : Park) : (wait s why).tlb = s.tlb := rfl
@[simp] theorem wait_sheds (s : State) (why : Park) : (wait s why).sheds = s.sheds := rfl
@[simp] theorem wait_queues (s : State) (why : Park) : (wait s why).queues = s.queues := rfl
@[simp] theorem wait_launches (s : State) (why : Park) : (wait s why).launches = s.launches := rfl
@[simp] theorem wait_leaf (s : State) (why : Park) : (wait s why).leaf = s.leaf := rfl
@[simp] theorem wait_dev (s : State) (why : Park) : (wait s why).dev = s.dev := rfl
@[simp] theorem wait_free (s : State) (why : Park) : (wait s why).free = s.free := rfl
@[simp] theorem wait_time (s : State) (why : Park) : (wait s why).time = s.time := rfl
@[simp] theorem wait_loftLost (s : State) (why : Park) : (wait s why).loftLost = s.loftLost := rfl
@[simp] theorem wait_loftClean (s : State) (why : Park) : (wait s why).loftClean = s.loftClean := rfl
@[simp] theorem wait_durablePoison (s : State) (why : Park) : (wait s why).durablePoison = s.durablePoison := rfl
@[simp] theorem wait_durableClean (s : State) (why : Park) : (wait s why).durableClean = s.durableClean := rfl
@[simp] theorem wait_sealed (s : State) (why : Park) : (wait s why).sealed = s.sealed := rfl
@[simp] theorem wait_remote (s : State) (why : Park) : (wait s why).remote = s.remote := rfl
@[simp] theorem wait_inbox (s : State) (why : Park) : (wait s why).inbox = s.inbox := rfl
@[simp] theorem wait_outbox (s : State) (why : Park) : (wait s why).outbox = s.outbox := rfl
@[simp] theorem wait_hostFaults (s : State) (why : Park) : (wait s why).hostFaults = s.hostFaults := rfl
@[simp] theorem wait_overflow (s : State) (why : Park) : (wait s why).overflow = s.overflow := rfl
@[simp] theorem wait_overflowMoved (s : State) (why : Park) : (wait s why).overflowMoved = s.overflowMoved := rfl
@[simp] theorem wait_agenda (s : State) (why : Park) : (wait s why).agenda = s.agenda := rfl
@[simp] theorem wait_hart_renamed (s : State) (why : Park) : (wait s why).hart.renamed = s.hart.renamed := rfl
@[simp] theorem wait_hart_unverified (s : State) (why : Park) : (wait s why).hart.unverified = s.hart.unverified := rfl
@[simp] theorem wait_hart_lostAt (s : State) (why : Park) : (wait s why).hart.lostAt = s.hart.lostAt := rfl
@[simp] theorem wait_hart_tilen (s : State) (why : Park) : (wait s why).hart.tilen = s.hart.tilen := rfl
@[simp] theorem wait_hart_rmode (s : State) (why : Park) : (wait s why).hart.rmode = s.hart.rmode := rfl
@[simp] theorem wait_hart_repro (s : State) (why : Park) : (wait s why).hart.repro = s.hart.repro := rfl
@[simp] theorem wait_hart_fmt (s : State) (why : Park) : (wait s why).hart.fmt = s.hart.fmt := rfl
@[simp] theorem wait_hart_memfmt (s : State) (why : Park) : (wait s why).hart.memfmt = s.hart.memfmt := rfl
@[simp] theorem wait_hart_issued (s : State) (why : Park) : (wait s why).hart.issued = s.hart.issued := rfl
@[simp] theorem wait_hart_complete (s : State) (why : Park) : (wait s why).hart.complete = s.hart.complete := rfl
@[simp] theorem wait_hart_entered (s : State) (why : Park) : (wait s why).hart.entered = s.hart.entered := rfl
@[simp] theorem wait_hart_epoch (s : State) (why : Park) : (wait s why).hart.epoch = s.hart.epoch := rfl
@[simp] theorem wait_hart_streams (s : State) (why : Park) : (wait s why).hart.streams = s.hart.streams := rfl
@[simp] theorem wait_hart_pins (s : State) (why : Park) : (wait s why).hart.pins = s.hart.pins := rfl
@[simp] theorem wait_hart_x (s : State) (why : Park) : (wait s why).hart.x = s.hart.x := rfl
@[simp] theorem wait_hart_v (s : State) (why : Park) : (wait s why).hart.v = s.hart.v := rfl
@[simp] theorem wait_hart_vp (s : State) (why : Park) : (wait s why).hart.vp = s.hart.vp := rfl
@[simp] theorem wait_hart_p (s : State) (why : Park) : (wait s why).hart.p = s.hart.p := rfl
@[simp] theorem wait_hart_pp (s : State) (why : Park) : (wait s why).hart.pp = s.hart.pp := rfl
@[simp] theorem wait_hart_k (s : State) (why : Park) : (wait s why).hart.k = s.hart.k := rfl
@[simp] theorem wait_hart_psm (s : State) (why : Park) : (wait s why).hart.psm = s.hart.psm := rfl
@[simp] theorem wait_hart_tile (s : State) (why : Park) : (wait s why).hart.tile = s.hart.tile := rfl
@[simp] theorem wait_hart_sums (s : State) (why : Park) : (wait s why).hart.sums = s.hart.sums := rfl
@[simp] theorem wait_hart_pennants (s : State) (why : Park) : (wait s why).hart.pennants = s.hart.pennants := rfl
@[simp] theorem wait_hart_vl (s : State) (why : Park) : (wait s why).hart.vl = s.hart.vl := rfl
@[simp] theorem wait_hart_vtype (s : State) (why : Park) : (wait s why).hart.vtype = s.hart.vtype := rfl
@[simp] theorem wait_hart_vstart (s : State) (why : Park) : (wait s why).hart.vstart = s.hart.vstart := rfl
@[simp] theorem wait_hart_pend (s : State) (why : Park) : (wait s why).hart.pend = s.hart.pend := rfl
@[simp] theorem wait_hart_cause (s : State) (why : Park) : (wait s why).hart.cause = s.hart.cause := rfl
@[simp] theorem wait_hart_epc (s : State) (why : Park) : (wait s why).hart.epc = s.hart.epc := rfl
@[simp] theorem wait_hart_tval (s : State) (why : Park) : (wait s why).hart.tval = s.hart.tval := rfl
@[simp] theorem wait_hart_storeQ (s : State) (why : Park) : (wait s why).hart.storeQ = s.hart.storeQ := rfl
@[simp] theorem wait_hart_vq (s : State) (why : Park) : (wait s why).hart.vq = s.hart.vq := rfl
@[simp] theorem wait_hart_aq (s : State) (why : Park) : (wait s why).hart.aq = s.hart.aq := rfl
@[simp] theorem wait_hart_run (s : State) (why : Park) : (wait s why).hart.run = s.hart.run := rfl
@[simp] theorem wait_hart_stop (s : State) (why : Park) : (wait s why).hart.stop = s.hart.stop := rfl
@[simp] theorem wait_hart_binds (s : State) (why : Park) : (wait s why).hart.binds = s.hart.binds := rfl
@[simp] theorem wait_hart_unbound (s : State) (why : Park) : (wait s why).hart.unbound = s.hart.unbound := rfl
@[simp] theorem wait_hart_pc (s : State) (why : Park) : (wait s why).hart.pc = s.hart.pc := rfl
@[simp] theorem wait_hart_park (s : State) (why : Park) : (wait s why).hart.park = some why := rfl
@[simp] theorem wait_hart_instret (s : State) (why : Park) : (wait s why).hart.instret = s.hart.instret := rfl

/-! ### `release` -/

@[simp] theorem release_others (s : State) (st : PStore) : (release s st).others = s.others := rfl
@[simp] theorem release_cores (s : State) (st : PStore) : (release s st).cores = s.cores := rfl
@[simp] theorem release_gangs (s : State) (st : PStore) : (release s st).gangs = s.gangs := rfl
@[simp] theorem release_mem (s : State) (st : PStore) : (release s st).mem = s.mem := rfl
@[simp] theorem release_poison (s : State) (st : PStore) : (release s st).poison = s.poison := rfl
@[simp] theorem release_durable (s : State) (st : PStore) : (release s st).durable = s.durable := rfl
@[simp] theorem release_loftPend (s : State) (st : PStore) : (release s st).loftPend = s.loftPend := rfl
@[simp] theorem release_combining (s : State) (st : PStore) : (release s st).combining = s.combining := rfl
@[simp] theorem release_ctxBase (s : State) (st : PStore) : (release s st).ctxBase = s.ctxBase := rfl
@[simp] theorem release_sealKeys (s : State) (st : PStore) : (release s st).sealKeys = s.sealKeys := rfl
@[simp] theorem release_peerDrams (s : State) (st : PStore) : (release s st).peerDrams = s.peerDrams := rfl
@[simp] theorem release_zcache (s : State) (st : PStore) : (release s st).zcache = s.zcache := rfl
@[simp] theorem release_zWriters (s : State) (st : PStore) : (release s st).zWriters = s.zWriters := rfl
@[simp] theorem release_wbWait (s : State) (st : PStore) : (release s st).wbWait = s.wbWait := rfl
@[simp] theorem release_linkFailed (s : State) (st : PStore) : (release s st).linkFailed = s.linkFailed := rfl
@[simp] theorem release_packets (s : State) (st : PStore) : (release s st).packets = s.packets := rfl
@[simp] theorem release_migrations (s : State) (st : PStore) : (release s st).migrations = s.migrations := rfl
@[simp] theorem release_tlb (s : State) (st : PStore) : (release s st).tlb = s.tlb := rfl
@[simp] theorem release_sheds (s : State) (st : PStore) : (release s st).sheds = s.sheds := rfl
@[simp] theorem release_queues (s : State) (st : PStore) : (release s st).queues = s.queues := rfl
@[simp] theorem release_launches (s : State) (st : PStore) : (release s st).launches = s.launches := rfl
@[simp] theorem release_leaf (s : State) (st : PStore) : (release s st).leaf = s.leaf := rfl
@[simp] theorem release_dev (s : State) (st : PStore) : (release s st).dev = s.dev := rfl
@[simp] theorem release_free (s : State) (st : PStore) : (release s st).free = s.free := rfl
@[simp] theorem release_time (s : State) (st : PStore) : (release s st).time = s.time := rfl
@[simp] theorem release_loftLost (s : State) (st : PStore) : (release s st).loftLost = s.loftLost := rfl
@[simp] theorem release_loftClean (s : State) (st : PStore) : (release s st).loftClean = s.loftClean := rfl
@[simp] theorem release_durablePoison (s : State) (st : PStore) : (release s st).durablePoison = s.durablePoison := rfl
@[simp] theorem release_durableClean (s : State) (st : PStore) : (release s st).durableClean = s.durableClean := rfl
@[simp] theorem release_sealed (s : State) (st : PStore) : (release s st).sealed = s.sealed := rfl
@[simp] theorem release_remote (s : State) (st : PStore) : (release s st).remote = s.remote := rfl
@[simp] theorem release_inbox (s : State) (st : PStore) : (release s st).inbox = s.inbox := rfl
@[simp] theorem release_outbox (s : State) (st : PStore) : (release s st).outbox = s.outbox := rfl
@[simp] theorem release_hostFaults (s : State) (st : PStore) : (release s st).hostFaults = s.hostFaults := rfl
@[simp] theorem release_overflow (s : State) (st : PStore) : (release s st).overflow = s.overflow := rfl
@[simp] theorem release_overflowMoved (s : State) (st : PStore) : (release s st).overflowMoved = s.overflowMoved := rfl
@[simp] theorem release_agenda (s : State) (st : PStore) : (release s st).agenda = s.agenda := rfl
@[simp] theorem release_hart_renamed (s : State) (st : PStore) : (release s st).hart.renamed = s.hart.renamed := rfl
@[simp] theorem release_hart_unverified (s : State) (st : PStore) : (release s st).hart.unverified = s.hart.unverified := rfl
@[simp] theorem release_hart_lostAt (s : State) (st : PStore) : (release s st).hart.lostAt = s.hart.lostAt := rfl
@[simp] theorem release_hart_tilen (s : State) (st : PStore) : (release s st).hart.tilen = s.hart.tilen := rfl
@[simp] theorem release_hart_rmode (s : State) (st : PStore) : (release s st).hart.rmode = s.hart.rmode := rfl
@[simp] theorem release_hart_repro (s : State) (st : PStore) : (release s st).hart.repro = s.hart.repro := rfl
@[simp] theorem release_hart_fmt (s : State) (st : PStore) : (release s st).hart.fmt = s.hart.fmt := rfl
@[simp] theorem release_hart_memfmt (s : State) (st : PStore) : (release s st).hart.memfmt = s.hart.memfmt := rfl
@[simp] theorem release_hart_issued (s : State) (st : PStore) : (release s st).hart.issued = s.hart.issued := rfl
@[simp] theorem release_hart_complete (s : State) (st : PStore) : (release s st).hart.complete = s.hart.complete := rfl
@[simp] theorem release_hart_entered (s : State) (st : PStore) : (release s st).hart.entered = s.hart.entered + 1 := rfl
@[simp] theorem release_hart_epoch (s : State) (st : PStore) : (release s st).hart.epoch = s.hart.epoch := rfl
@[simp] theorem release_hart_streams (s : State) (st : PStore) : (release s st).hart.streams = s.hart.streams := rfl
@[simp] theorem release_hart_pins (s : State) (st : PStore) : (release s st).hart.pins = s.hart.pins := rfl
@[simp] theorem release_hart_x (s : State) (st : PStore) : (release s st).hart.x = s.hart.x := rfl
@[simp] theorem release_hart_v (s : State) (st : PStore) : (release s st).hart.v = s.hart.v := rfl
@[simp] theorem release_hart_vp (s : State) (st : PStore) : (release s st).hart.vp = s.hart.vp := rfl
@[simp] theorem release_hart_p (s : State) (st : PStore) : (release s st).hart.p = s.hart.p := rfl
@[simp] theorem release_hart_pp (s : State) (st : PStore) : (release s st).hart.pp = s.hart.pp := rfl
@[simp] theorem release_hart_k (s : State) (st : PStore) : (release s st).hart.k = s.hart.k := rfl
@[simp] theorem release_hart_psm (s : State) (st : PStore) : (release s st).hart.psm = s.hart.psm := rfl
@[simp] theorem release_hart_tile (s : State) (st : PStore) : (release s st).hart.tile = s.hart.tile := rfl
@[simp] theorem release_hart_sums (s : State) (st : PStore) : (release s st).hart.sums = s.hart.sums := rfl
@[simp] theorem release_hart_pennants (s : State) (st : PStore) : (release s st).hart.pennants = s.hart.pennants := rfl
@[simp] theorem release_hart_vl (s : State) (st : PStore) : (release s st).hart.vl = s.hart.vl := rfl
@[simp] theorem release_hart_vtype (s : State) (st : PStore) : (release s st).hart.vtype = s.hart.vtype := rfl
@[simp] theorem release_hart_vstart (s : State) (st : PStore) : (release s st).hart.vstart = s.hart.vstart := rfl
@[simp] theorem release_hart_pend (s : State) (st : PStore) : (release s st).hart.pend = s.hart.pend := rfl
@[simp] theorem release_hart_cause (s : State) (st : PStore) : (release s st).hart.cause = s.hart.cause := rfl
@[simp] theorem release_hart_epc (s : State) (st : PStore) : (release s st).hart.epc = s.hart.epc := rfl
@[simp] theorem release_hart_tval (s : State) (st : PStore) : (release s st).hart.tval = s.hart.tval := rfl
@[simp] theorem release_hart_vq (s : State) (st : PStore) : (release s st).hart.vq = s.hart.vq := rfl
@[simp] theorem release_hart_aq (s : State) (st : PStore) : (release s st).hart.aq = s.hart.aq := rfl
@[simp] theorem release_hart_run (s : State) (st : PStore) : (release s st).hart.run = s.hart.run := rfl
@[simp] theorem release_hart_stop (s : State) (st : PStore) : (release s st).hart.stop = s.hart.stop := rfl
@[simp] theorem release_hart_binds (s : State) (st : PStore) : (release s st).hart.binds = s.hart.binds := rfl
@[simp] theorem release_hart_unbound (s : State) (st : PStore) : (release s st).hart.unbound = s.hart.unbound := rfl
@[simp] theorem release_hart_pc (s : State) (st : PStore) : (release s st).hart.pc = s.hart.pc := rfl
@[simp] theorem release_hart_storeQ (s : State) (st : PStore) : (release s st).hart.storeQ = s.hart.storeQ ++ [{ st with seq := s.hart.entered + 1 }] := rfl

/-! ### `writeX` -/

/-- A write of a scalar register changes the scalar registers alone. -/
theorem writeX_eq (s : State) (d : BitVec 5) (v : Word) : writeX s d v = { s with hart := { s.hart with x := setX s.hart.x d v } } := by
  unfold writeX setX
  by_cases h : d = 0
  · rw [if_pos h, if_pos h]
  · rw [if_neg h, if_neg h]

/-- The register just written, when it is not x0. -/
theorem readX_writeX_same (s : State) (d : BitVec 5) (v : Word) (h : d ≠ 0) : readX (writeX s d v) d = v := by
  unfold readX writeX
  rw [if_neg h, if_neg h]
  exact Vector.getElem_set_self _

/-- x0 reads zero, whatever has been written. -/
theorem readX_zero (s : State) : readX s 0 = 0 := rfl

/-- Every other register. -/
theorem readX_writeX_apart (s : State) (d e : BitVec 5) (v : Word) (h : e ≠ d) : readX (writeX s d v) e = readX s e := by
  unfold readX writeX
  by_cases hd : d = 0
  · rw [if_pos hd]
  · rw [if_neg hd]
    by_cases he : e = 0
    · rw [if_pos he, if_pos he]
    · rw [if_neg he, if_neg he]
      have hn : d.toNat ≠ e.toNat := fun h' => h (BitVec.eq_of_toNat_eq h'.symm)
      exact Vector.getElem_set_ne d.isLt e.isLt hn

/-- A scalar instruction that writes its result and goes on has completed. -/
theorem advance_writeX (s : State) (d : BitVec 5) (v : Word) (n : Nat) : advance (writeX s d v) n = completed s d v n := by
  rw [writeX_eq]; rfl

/-- A scalar instruction that goes on without a result. -/
theorem advance_eq (s : State) (n : Nat) : advance s n = past s n := rfl

/-! ### `rotate` -/

/-- The harts in focus order after a rotation are the same ones. -/
theorem rotate_other (s : State) (h : Hart) (t : List Hart) (e : s.others = h :: t) : rotate s = { s with hart := h, others := t ++ [s.hart] } := by
  simp [rotate, e]

end Sys2Proof.Machine
end

