-- ==== Sys2Proof/Laws/Scalar.lean ====
section
/-! SUPPORT. Everything that the shared operations of the scalar instructions can do, said once each. -/

namespace Sys2Proof.Machine

/-- R60, R61: an operation on two registers whose registers are free completes with its result. -/
theorem alu_spec (f : OpA) (g : Word → Word → Word) (s : State) (h : NoHold s [f.a, f.b, f.d]) :
    alu f g s = .next (completed s f.d (g (readX s f.a) (readX s f.b)) 4) := by
  unfold NoHold at h
  unfold alu
  rw [h]
  simp only [Bool.false_eq_true, if_false, advance_writeX]

/-- R63: an operation on one register. -/
theorem aluImm_spec (a d : BitVec 5) (n : Nat) (g : Word → Word) (s : State) (h : NoHold s [a, d]) :
    aluImm a d n g s = .next (completed s d (g (readX s a)) n) := by
  unfold NoHold at h
  unfold aluImm
  rw [h]
  simp only [Bool.false_eq_true, if_false, advance_writeX]

/-- R339: going to a target with a link register written. -/
theorem goTo_spec (t : State) (d : BitVec 5) (v target : Word) : goTo (writeX t d v) target = transferred t d v (placeOfTarget t target) := by
  unfold goTo transferred placeOfTarget writeX setX jumpTo
  by_cases h : d = 0
  · simp only [if_pos h]
    cases spliceAt t.hart <;> rfl
  · simp only [if_neg h]
    have e : spliceAt { t.hart with x := t.hart.x.set d.toNat v } = spliceAt t.hart := rfl
    cases h2 : spliceAt t.hart <;> simp only [e, h2]

/-- R48: a transfer whose check passes, with a link. -/
theorem transfer_lands (s t : State) (target : Word) (d : BitVec 5) (v : Word) (h : Lands s target t) :
    transfer s target (fun t => writeX t d v) = .next (transferred t d v (placeOfTarget t target)) := by
  unfold transfer
  rcases h with ⟨v, h, hv⟩ | ⟨u, tr, h, rfl⟩ <;> rw [h] <;> simp only [goTo_spec]
  rw [hv]
  simp

/-- R48: a transfer whose check passes, without a link. -/
theorem transfer_lands_plain (s t : State) (target : Word) (h : Lands s target t) :
    transfer s target (fun t => t) = .next (transferred t 0 0 (placeOfTarget t target)) :=
  transfer_lands s t target 0 0 h

/-- R48: a transfer whose check trips traps with the target. -/
theorem transfer_trips (s : State) (target : Word) (w : State → State) (h : Trips s target) :
    transfer s target w = .next (takeTrap s .illegal target) := by
  unfold transfer
  obtain ⟨t, v, h, hv⟩ := h
  rw [h]
  simp [hv]

/-- R71: a branch that is not a back branch of spliced code. -/
theorem branch_spec (s : State) (a b : BitVec 5) (off : Word) (n : Nat) (cond : Word → Word → Bool)
    (hs : s.hart.splice = none ∨ ∃ i, spliceAt s.hart = some i ∧ i.region ≠ 2) (h : NoHold s [a, b]) :
    branch a b off n cond s =
      if cond (readX s a) (readX s b) then transfer s (origAddr s.hart s.hart.pc + off) (fun t => t) else .next (past s n) := by
  unfold NoHold at h
  unfold branch
  rw [h]
  simp only
  rcases hs with hs | ⟨i, hi, hr⟩
  · rw [hs]
    simp [advance_eq]
  · rw [hi]
    cases h : s.hart.splice <;> simp [hr, advance_eq]

end Sys2Proof.Machine
end

