-- ==== Sys2Proof/Laws/Window.lean ====
section
/-! SUPPORT. An access to the scratchpad window changes nothing of the machine by being reached, nor does one to a page whose leaf carries
its bits (R143, R274). -/

namespace Sys2Proof.Machine

/-- A scratchpad byte asks no permission: the machine is unchanged. -/
theorem grantPlace_spad (s : State) (va : Word) (acc : Acc) (h : Hit) (hp : isSpadKey h.key = true) : grantPlace s va acc h = (s, .ok h) := if_pos hp

/-- The bytes of a core's scratchpad are scratchpad keys. -/
theorem spadKey_window {core o : Nat} (hk : core < 2 ^ 30) (ho : o ≤ 2 ^ 21) : isSpadKey (spadKey core + o) = true := by
  unfold isSpadKey spadKey
  rw [Bool.and_eq_true, decide_eq_true_eq, decide_eq_true_eq]
  omega

/-- A place in the window of a core's scratchpad is a scratchpad byte, and lies in the first 2 MiB. -/
theorem findPlace_window {s : State} {va : Word} {n : Nat} {acc : Acc} {h : Hit} (hk : s.hart.core < 2 ^ 30) (hn : 0 < n)
    (hw : inWindow va.toNat = true) (he : findPlace s va n acc = .ok h) :
    isSpadKey h.key = true ∧ va.toNat - spBase + n ≤ 2 ^ 21 ∧ h.left = 2 ^ 21 - (va.toNat - spBase) := by
  unfold findPlace at he
  simp only [hw, if_true] at he
  split at he
  · injection he
  · split at he
    · injection he
    · injection he with he
      rw [← he]
      exact ⟨spadKey_window hk (by omega), by omega, rfl⟩

/-- The place is a scratchpad byte whatever the count of bytes. -/
theorem findPlace_spad {s : State} {va : Word} {n : Nat} {acc : Acc} {h : Hit} (hk : s.hart.core < 2 ^ 30)
    (hw : inWindow va.toNat = true) (he : findPlace s va n acc = .ok h) : isSpadKey h.key = true := by
  unfold findPlace at he
  simp only [hw, if_true] at he
  split at he
  · injection he
  · split at he
    · injection he
    · injection he with he
      rw [← he]
      exact spadKey_window hk (by omega)

/-- Resolving an address of the window finds a place there, and changes nothing. -/
theorem resolve_window {s : State} {va : Word} {n : Nat} (acc : Acc) (hk : s.hart.core < 2 ^ 30) (hn : 0 < n) (hw : inWindow va.toNat = true) :
    resolve s va n acc = (s, findPlace s va n acc) := by
  unfold resolve
  split
  · rename_i h he
    rw [he, grantPlace_spad s va acc h (findPlace_window hk hn hw he).1]
  · rfl

/-- One piece of a range in the window: nothing changes, and it reaches to the end of the first 2 MiB at most. -/
theorem hartPiece_window {s : State} {va : Word} (n : Nat) (acc : Acc) (hk : s.hart.core < 2 ^ 30) (hw : inWindow va.toNat = true) :
    (hartPiece acc s va n).1 = s ∧ ∀ h, (hartPiece acc s va n).2 = .ok h → h.left = 2 ^ 21 - (va.toNat - spBase) ∧ va.toNat - spBase + 1 ≤ 2 ^ 21 := by
  unfold hartPiece
  rw [resolve_window acc hk (by decide) hw]
  cases he : findPlace s va 1 acc with
  | trap tr => exact ⟨rfl, fun h e => by cases e⟩
  | stall => exact ⟨rfl, fun h e => by cases e⟩
  | ok h =>
    have hf := findPlace_window hk (by decide) hw he
    have hb : blockHit h = h := by
      have h1 : isShedKey h.key = false := by
        have := hf.1
        simp only [isSpadKey, isShedKey, Bool.and_eq_true, decide_eq_true_eq, Bool.and_eq_false_iff, decide_eq_false_iff_not] at this ⊢
        omega
      simp [blockHit, h1]
    simp only [hb]
    cases lateFault s va h.key (min n h.left) with
    | some tr => exact ⟨rfl, fun k e => by cases e⟩
    | none => exact ⟨rfl, fun k e => by cases e; exact ⟨hf.2.2, hf.2.1⟩⟩

/-- A range that begins in the window. -/
theorem spanWith_window (acc : Acc) (fuel : Nat) : ∀ (s : State) (va : Word) (n : Nat), s.hart.core < 2 ^ 30 → inWindow va.toNat = true →
    (spanWith (hartPiece acc) fuel s va n).1 = s := by
  induction fuel with
  | zero => intro s va n _ _; rfl
  | succ fuel ih =>
    intro s va n hk hw
    unfold spanWith
    split
    · rfl
    · have hp := hartPiece_window n acc hk hw
      generalize hartPiece acc s va n = r at hp ⊢
      obtain ⟨t, x⟩ := r
      obtain ⟨ht, hl⟩ := hp
      simp only at ht hl
      subst ht
      cases x with
      | trap tr => rfl
      | stall => rfl
      | ok h =>
        have hl := hl h rfl
        have hw' : inWindow (va + W (min n h.left)).toNat = true := by
          unfold inWindow spBase at *
          simp only [Bool.and_eq_true, decide_eq_true_eq] at hw ⊢
          have hlt := va.isLt
          have : (va + W (min n h.left)).toNat = va.toNat + min n h.left := by
            rw [BitVec.toNat_add, BitVec.toNat_ofNat]
            rw [Nat.mod_eq_of_lt (a := min n h.left) (by omega)]
            rw [Nat.mod_eq_of_lt (by omega)]
          rw [this]
          omega
        have hi := ih t (va + W (min n h.left)) (n - min n h.left) hk hw'
        simp only
        generalize spanWith (hartPiece acc) fuel t (va + W (min n h.left)) (n - min n h.left) = q at hi ⊢
        obtain ⟨u, y⟩ := q
        cases y <;> exact hi

/-- R148: reaching an element's bytes in the window. -/
theorem reach_window {s : State} {f : Foot} (acc : Acc) (hk : s.hart.core < 2 ^ 30) (hw : inWindow f.va.toNat = true) : (reach s f acc).1 = s := by
  unfold reach
  split
  · rfl
  · have h : (hartSpan s f.va f.bytes acc).1 = s := spanWith_window acc _ s f.va f.bytes hk hw
    generalize hartSpan s f.va f.bytes acc = q at h ⊢
    obtain ⟨u, y⟩ := q
    cases y <;> exact h

/-- R70, R174: a scoped access in the window. -/
theorem checkScoped_window {s : State} {va : Word} (n sc : Nat) (acc : Acc) (hk : s.hart.core < 2 ^ 30) (hw : inWindow va.toNat = true) :
    (checkScoped s va n sc acc).1 = s := by
  unfold checkScoped
  split
  · rfl
  · split
    · rename_i hm h he
      split
      · rfl
      · rw [grantPlace_spad s va acc h (findPlace_spad hk hw he)]
        simp only
        cases lateFault s va h.key n <;> rfl
    · rfl

/-- The scoped reach of an element in the window. -/
theorem reachScoped_window (sc : Nat) {s : State} {f : Foot} (acc : Acc) (hk : s.hart.core < 2 ^ 30) (hw : inWindow f.va.toNat = true) :
    (reachScoped sc s f acc).1 = s := by
  have h := checkScoped_window (f.wm / 8) sc acc hk hw
  unfold reachScoped
  generalize checkScoped s f.va (f.wm / 8) sc acc = q at h ⊢
  obtain ⟨u, y⟩ := q
  cases y with
  | none => exact h
  | some x => cases x <;> exact h

/-! ### Pages whose leaf needs no bit set -/

/-- R270, R274: a permitted access to such a page changes nothing. -/
theorem grantPlace_done {s : State} {va : Word} {acc : Acc} {h : Hit} (hp : permitted h.pte acc = true) (he : bitN h.pte 57 = false) (hm : bitN h.pte 54 = false)
    (hd : adSet h.pte acc = true) : grantPlace s va acc h = (s, .ok h) := by
  unfold grantPlace grant grantLeaf
  split
  · rfl
  · rw [hp, he, hm, hd]
    rfl

/-- R70, R174: a scoped access to such a page. -/
theorem checkScoped_done {s : State} {va : Word} {n sc : Nat} {acc : Acc} {h : Hit} (ha : va.toNat % n = 0) (hf : findPlace s va n acc = .ok h)
    (hr : inReach s va h.key sc = true) (hg : grantPlace s va acc h = (s, .ok h)) (hl : lateFault s va h.key n = none) :
    checkScoped s va n sc acc = (s, some (.ok h)) := by
  unfold checkScoped
  rw [if_neg (by omega), hf]
  simp only [hr, hg, hl]
  rfl

end Sys2Proof.Machine
end

