-- ==== Sys2Proof/Tests/Slice0.lean ====
section
/-! SUPPORT. The model's own tests: the encodings, single steps, and one witness for each statement that has hypotheses. -/

namespace Sys2Proof.Machine

/-! ### Field rules and words -/

/-- R40, R44, R47: a term for each field rule of format OpA, which the check refuses. -/
theorem test_ill_formed_OpA : ∀ i ∈ ([
    .clz { b := 1, a := 0, d := 0 },
    .swtrap { b := 0, a := 0, d := 1 },
    .gbar { b := 0, a := 1, d := 0 }] : List Instr),
    i.wellFormed = false := by decide

/-- R40, R44, R47: a term for each field rule of format OpM11, which the check refuses. -/
theorem test_ill_formed_OpM11 : ∀ i ∈ ([
    .ldPr { imm := 0, a := 0, d := 31 }] : List Instr),
    i.wellFormed = false := by decide

/-- R40, R44, R47: a term for each field rule of format OpSA, which the check refuses. -/
theorem test_ill_formed_OpSA : ∀ i ∈ ([
    .amoSwap { sc := 7, rl := false, aq := false, b := 0, a := 0, d := 0 },
    .amoLd { sc := 0, rl := false, aq := false, b := 1, a := 0, d := 0 },
    .amoSt { sc := 0, rl := false, aq := false, b := 0, a := 0, d := 1 }] : List Instr),
    i.wellFormed = false := by decide

/-- R40, R44, R47: a term for each field rule of format OpC, which the check refuses. -/
theorem test_ill_formed_OpC : ∀ i ∈ ([
    .crRd { idx := 2, a := 1, d := 0 },
    .crRd { idx := 7, a := 0, d := 0 },
    .crRd { idx := 0xFFF, a := 0, d := 0 },
    .crWr { idx := 0, a := 0, d := 0 },
    .crWr { idx := 0x031, a := 0, d := 0 }] : List Instr),
    i.wellFormed = false := by decide

/-- R40, R44, R47: a term for each field rule of format OpI14, which the check refuses. -/
theorem test_ill_formed_OpI14 : ∀ i ∈ ([
    .vsl { imm := 6, a := 0, d := 0 },
    .vsl { imm := 32, a := 0, d := 0 }] : List Instr),
    i.wellFormed = false := by decide

/-- R40, R44, R47: a term for each field rule of format OpV, which the check refuses. -/
theorem test_ill_formed_OpV : ∀ i ∈ ([
    .vfsqrt { l := false, cb := true, ca := false, pred := 0, vb := 0, va := 0, vd := 0 },
    .vfsqrt { l := false, cb := false, ca := false, pred := 0, vb := 1, va := 0, vd := 0 },
    .vfabs { l := false, cb := false, ca := false, pred := 0, vb := 0, va := 0, vd := 0 },
    .vfneg { l := false, cb := false, ca := false, pred := 0, vb := 0, va := 0, vd := 0 },
    .vfclass { l := false, cb := false, ca := false, pred := 0, vb := 0, va := 0, vd := 0 },
    .vceq { l := false, cb := false, ca := false, pred := 0, vb := 0, va := 0, vd := 0 },
    .vceq { l := false, cb := false, ca := false, pred := 0, vb := 0, va := 0, vd := 16 },
    .pand { l := false, cb := false, ca := true, pred := 0, vb := 0, va := 0, vd := 1 },
    .pand { l := false, cb := false, ca := false, pred := 0, vb := 0, va := 16, vd := 1 },
    .pand { l := false, cb := false, ca := false, pred := 0, vb := 16, va := 0, vd := 1 },
    .pgetsm { l := false, cb := false, ca := false, pred := 1, vb := 0, va := 0, vd := 1 },
    .pgetsm { l := false, cb := false, ca := false, pred := 0, vb := 0, va := 1, vd := 1 }] : List Instr),
    i.wellFormed = false := by decide

/-- R40, R44, R47: a term for each field rule of format OpCv, which the check refuses. -/
theorem test_ill_formed_OpCv : ∀ i ∈ ([
    .vcvt { fn := 0, l := false, ca := false, pred := 0, t := 16, va := 0, vd := 0 }] : List Instr),
    i.wellFormed = false := by decide

/-- R40, R44, R47: a term for each field rule of format OpVS, which the check refuses. -/
theorem test_ill_formed_OpVS : ∀ i ∈ ([
    .vbcast { l := false, ca := true, pred := 0, xb := 0, va := 0, vd := 0 },
    .vbcast { l := false, ca := false, pred := 0, xb := 0, va := 1, vd := 0 }] : List Instr),
    i.wellFormed = false := by decide

/-- R40, R44, R47: a term for each field rule of format OpVM, which the check refuses. -/
theorem test_ill_formed_OpVM : ∀ i ∈ ([
    .vld { l := false, c := true, pred := 0, b := 0, a := 0, vd := 0 },
    .vld { l := false, c := false, pred := 0, b := 1, a := 0, vd := 0 },
    .vldc { l := false, c := false, pred := 1, b := 0, a := 0, vd := 0 },
    .vldc { l := false, c := false, pred := 0, b := 0, a := 31, vd := 0 },
    .vldXn { l := false, c := false, pred := 0, b := 0, a := 0, vd := 0 }] : List Instr),
    i.wellFormed = false := by decide

/-- R40, R44, R47: a term for each field rule of format OpVMX, which the check refuses. -/
theorem test_ill_formed_OpVMX : ∀ i ∈ ([
    .vldx { sc := 7, l := false, c := false, pred := 0, vb := 0, a := 0, vd := 0 }] : List Instr),
    i.wellFormed = false := by decide

/-- R40, R44, R47: a term for each field rule of format OpVA, which the check refuses. -/
theorem test_ill_formed_OpVA : ∀ i ∈ ([
    .vamoSwap { sc := 7, l := false, rl := false, aq := false, pred := 0, vb := 0, vd := 0 },
    .vamoCas { sc := 0, l := false, rl := false, aq := false, pred := 0, vb := 0, vd := 31 },
    .vamoAddCb { sc := 0, l := false, rl := true, aq := false, pred := 0, vb := 0, vd := 0 },
    .vamoAddCb { sc := 0, l := false, rl := false, aq := true, pred := 0, vb := 0, vd := 0 }] : List Instr),
    i.wellFormed = false := by decide

/-- R40, R44, R47: a term for each field rule of format OpAW, which the check refuses. -/
theorem test_ill_formed_OpAW : ∀ i ∈ ([
    .awinDecl { l := false, cb := true, ca := false, pred := 0, b := 0, a := 0, n := 0 },
    .awinDecl { l := false, cb := false, ca := true, pred := 0, b := 0, a := 0, n := 0 },
    .awinDecl { l := false, cb := false, ca := false, pred := 5, b := 0, a := 0, n := 0 },
    .awinMerge { l := false, cb := false, ca := false, pred := 1, b := 0, a := 0, n := 0 },
    .awinMerge { l := false, cb := false, ca := false, pred := 0, b := 1, a := 0, n := 0 },
    .awinMerge { l := false, cb := false, ca := false, pred := 0, b := 0, a := 1, n := 0 }] : List Instr),
    i.wellFormed = false := by decide

/-- R40, R44, R47: a term for each field rule of format OpSM, which the check refuses. -/
theorem test_ill_formed_OpSM : ∀ i ∈ ([
    .supdCms { l := false, cb := true, ca := false, pred := 0, b := 0, a := 0, sd := 0 },
    .supdQh { l := false, cb := true, ca := false, pred := 0, b := 0, a := 0, sd := 0 },
    .supdQh { l := false, cb := false, ca := false, pred := 0, b := 16, a := 0, sd := 0 },
    .smerge { l := false, cb := false, ca := true, pred := 0, b := 0, a := 0, sd := 0 },
    .smerge { l := false, cb := false, ca := false, pred := 1, b := 0, a := 0, sd := 0 },
    .smerge { l := false, cb := false, ca := false, pred := 0, b := 1, a := 0, sd := 0 },
    .smerge { l := false, cb := false, ca := false, pred := 0, b := 0, a := 16, sd := 0 },
    .sclr { l := false, cb := false, ca := false, pred := 0, b := 0, a := 1, sd := 0 },
    .sqBksItems { l := false, cb := false, ca := false, pred := 0, b := 0, a := 0, sd := 0 },
    .sqBksItems { l := false, cb := true, ca := false, pred := 0, b := 31, a := 0, sd := 0 }] : List Instr),
    i.wellFormed = false := by decide

/-- R40, R44, R47: a term for each field rule of format OpAC, which the check refuses. -/
theorem test_ill_formed_OpAC : ∀ i ∈ ([
    .astOpen { po := 0, tk := 0, b := 1, a := 0, d := 0 },
    .astOpen { po := 0, tk := 3, b := 0, a := 0, d := 0 },
    .astOpen { po := 3, tk := 0, b := 0, a := 0, d := 0 },
    .astClose { po := 0, tk := 0, b := 0, a := 0, d := 1 },
    .arUnbind { po := 0, tk := 0, b := 0, a := 1, d := 0 },
    .aflip { po := 0, tk := 0, b := 0, a := 0, d := 7 }] : List Instr),
    i.wellFormed = false := by decide

/-- R40, R44, R47: a term for each field rule of format OpDS, which the check refuses. -/
theorem test_ill_formed_OpDS : ∀ i ∈ ([
    .dpb { l := false, sc := 1, b := 0, a := 0, d := 0 },
    .dpb { l := false, sc := 0, b := 1, a := 0, d := 0 },
    .dpb { l := false, sc := 0, b := 0, a := 1, d := 0 },
    .dpb { l := false, sc := 0, b := 0, a := 0, d := 1 },
    .shalloc { l := false, sc := 0, b := 0, a := 0, d := 0 }] : List Instr),
    i.wellFormed = false := by decide

/-- R40, R44, R47: a term for each field rule of format OpTile, which the check refuses. -/
theorem test_ill_formed_OpTile : ∀ i ∈ ([
    .mopa { ff := false, us := false, ks := 0, fsa := 0, fsb := 0, kind := 2, cp := 0, rp := 0, t := 0, l := false, cb := false, ca := false, pred := 0, vb := 0, va := 0, vd := 0 },
    .mopa { ff := false, us := false, ks := 0, fsa := 3, fsb := 0, kind := 0, cp := 0, rp := 0, t := 0, l := false, cb := false, ca := false, pred := 0, vb := 0, va := 0, vd := 0 },
    .mopa { ff := false, us := false, ks := 0, fsa := 0, fsb := 1, kind := 0, cp := 0, rp := 0, t := 0, l := false, cb := false, ca := false, pred := 0, vb := 0, va := 0, vd := 0 },
    .mopa { ff := false, us := true, ks := 0, fsa := 0, fsb := 0, kind := 0, cp := 0, rp := 0, t := 0, l := false, cb := false, ca := false, pred := 0, vb := 0, va := 0, vd := 0 },
    .mopa { ff := false, us := false, ks := 1, fsa := 0, fsb := 0, kind := 0, cp := 0, rp := 0, t := 0, l := false, cb := false, ca := false, pred := 0, vb := 0, va := 0, vd := 0 },
    .mopa { ff := true, us := false, ks := 0, fsa := 0, fsb := 0, kind := 0, cp := 0, rp := 0, t := 0, l := false, cb := false, ca := false, pred := 0, vb := 0, va := 0, vd := 0 },
    .mopa { ff := false, us := false, ks := 0, fsa := 0, fsb := 0, kind := 0, cp := 0, rp := 0, t := 0, l := false, cb := false, ca := false, pred := 0, vb := 0, va := 0, vd := 1 },
    .mopi { ff := false, us := false, ks := 0, fsa := 0, fsb := 0, kind := 0, cp := 0, rp := 0, t := 0, l := false, cb := false, ca := false, pred := 0, vb := 0, va := 0, vd := 0 },
    .mopi { ff := false, us := false, ks := 0, fsa := 2, fsb := 0, kind := 2, cp := 0, rp := 0, t := 0, l := false, cb := false, ca := false, pred := 0, vb := 0, va := 0, vd := 0 },
    .mopi { ff := false, us := false, ks := 0, fsa := 0, fsb := 1, kind := 2, cp := 0, rp := 0, t := 0, l := false, cb := false, ca := false, pred := 0, vb := 0, va := 0, vd := 0 },
    .mopi { ff := false, us := true, ks := 0, fsa := 0, fsb := 0, kind := 2, cp := 0, rp := 0, t := 0, l := false, cb := false, ca := false, pred := 0, vb := 0, va := 0, vd := 0 },
    .mopi { ff := false, us := false, ks := 1, fsa := 0, fsb := 0, kind := 2, cp := 0, rp := 0, t := 0, l := false, cb := false, ca := false, pred := 0, vb := 0, va := 0, vd := 0 },
    .mopl { ff := false, us := false, ks := 0, fsa := 0, fsb := 0, kind := 0, cp := 0, rp := 0, t := 0, l := false, cb := false, ca := false, pred := 0, vb := 0, va := 1, vd := 0 },
    .mopl { ff := false, us := false, ks := 0, fsa := 0, fsb := 0, kind := 0, cp := 0, rp := 0, t := 0, l := false, cb := false, ca := true, pred := 0, vb := 0, va := 0, vd := 0 },
    .mgrow { ff := false, us := false, ks := 0, fsa := 0, fsb := 0, kind := 2, cp := 0, rp := 0, t := 0, l := false, cb := false, ca := false, pred := 0, vb := 0, va := 0, vd := 0 },
    .mgrow { ff := false, us := false, ks := 0, fsa := 3, fsb := 0, kind := 0, cp := 0, rp := 0, t := 0, l := false, cb := false, ca := false, pred := 0, vb := 0, va := 0, vd := 0 },
    .mgrow { ff := false, us := false, ks := 0, fsa := 0, fsb := 0, kind := 0, cp := 0, rp := 0, t := 1, l := false, cb := false, ca := false, pred := 0, vb := 0, va := 0, vd := 0 },
    .mgrow { ff := false, us := false, ks := 0, fsa := 0, fsb := 0, kind := 0, cp := 1, rp := 0, t := 0, l := false, cb := false, ca := false, pred := 0, vb := 0, va := 0, vd := 0 },
    .mgrow { ff := false, us := false, ks := 0, fsa := 0, fsb := 0, kind := 0, cp := 0, rp := 0, t := 0, l := false, cb := false, ca := false, pred := 1, vb := 0, va := 0, vd := 0 },
    .mgrow { ff := false, us := false, ks := 0, fsa := 0, fsb := 0, kind := 0, cp := 0, rp := 0, t := 0, l := false, cb := true, ca := false, pred := 0, vb := 0, va := 0, vd := 0 },
    .mrowGet { ff := false, us := false, ks := 0, fsa := 0, fsb := 0, kind := 0, cp := 0, rp := 1, t := 0, l := false, cb := false, ca := false, pred := 0, vb := 0, va := 0, vd := 0 },
    .mrowGet { ff := false, us := false, ks := 0, fsa := 0, fsb := 0, kind := 1, cp := 0, rp := 0, t := 0, l := false, cb := false, ca := false, pred := 0, vb := 0, va := 0, vd := 0 },
    .mrowGet { ff := false, us := false, ks := 0, fsa := 1, fsb := 0, kind := 0, cp := 0, rp := 0, t := 0, l := false, cb := false, ca := false, pred := 0, vb := 0, va := 0, vd := 0 },
    .mzero { ff := false, us := false, ks := 0, fsa := 0, fsb := 0, kind := 0, cp := 0, rp := 0, t := 0, l := false, cb := false, ca := false, pred := 0, vb := 1, va := 0, vd := 0 }] : List Instr),
    i.wellFormed = false := by decide
/-- R34 to R36, R45: words of the scalar formats, field by field from the high bit down, and the instructions they stand for. -/
theorem test_decode_scalar_words :
    decodeBits 0b000010001_00111_00110_00101_000001_01 =
      .ok (.mulh { b := 7, a := 6, d := 5 }) ∧
    decodeBits 0b10000000000101_00011_00010_000111_01 =
      .ok (.sltni { imm := 5, a := 3, d := 2 }) ∧
    decodeBits 0b000000_00_111111_00011_00010_000110_01 =
      .ok (.slli { sh := 63, a := 3, d := 2 }) ∧
    decodeBits 0b00000000001010_01010_01011_010110_01 =
      .ok (.vsl { imm := 0x0A, a := 10, d := 11 }) ∧
    decodeBits 0b11111111000_111_00010_00100_001000_01 =
      .ok (.ldPr { imm := 0x7F8, a := 2, d := 4 }) ∧
    decodeBits 0b00000010000_010_00010_01001_001001_01 =
      .ok (.stI32 { imm := 16, a := 2, d := 9 }) ∧
    decodeBits 0b011_1_0_1001_01000_00111_00110_001010_01 =
      .ok (.amoCas { sc := 3, rl := true, aq := false, b := 8, a := 7, d := 6 }) ∧
    decodeBits 0b111111111_00100_00011_11100_010001_01 =
      .ok (.bltn { hi := 0x1FF, b := 4, a := 3, lo := 0x1C }) ∧
    decodeBits 0b1000000000000000001_00001_010011_01 =
      .ok (.jal { imm := 0x40001, d := 1 }) ∧
    decodeBits 0b0000000000000000101_01100_001100_01 =
      .ok (.pcadd { imm := 5, d := 12 }) ∧
    decodeBits 0b000000001100_10_00011_00100_010101_01 =
      .ok (.crSet { idx := 0x00C, a := 3, d := 4 }) ∧
    decodeBits 0b000110001_00000_01001_00000_010111_01 =
      .ok (.pnSend 1 { b := 0, a := 9, d := 0 }) ∧
    decodeBits 0b000000001_00000_01001_01000_011000_01 =
      .ok (.jwait { b := 0, a := 9, d := 8 }) ∧
    decodeBits 0b111111_00110_0001_0 =
      .ok (.cAddi 0x3F 6) ∧
    decodeBits 0b000011_00110_1011_0 =
      .ok (.cBeqz 3 6) := by decide

/-- R37 to R39: words of the vector-class formats and of the access format. -/
theorem test_decode_vector_words :
    decodeBits 0b111_1_0_1_111_00110_00101_00100_100001_01 =
      .ok (.vsel { l := true, cb := false, ca := true, pred := 7, vb := 6, va := 5, vd := 4 }) ∧
    decodeBits 0b001_0_1_0_001_00011_00010_00001_100011_01 =
      .ok (.vfms { l := false, cb := true, ca := false, pred := 1, vb := 3, va := 2, vd := 1 }) ∧
    decodeBits 0b100_0_0_0_000_01001_01000_01111_100100_01 =
      .ok (.vclen { l := false, cb := false, ca := false, pred := 0, vb := 9, va := 8, vd := 15 }) ∧
    decodeBits 0b011_0_0_0_010_00000_01000_00111_100110_01 =
      .ok (.vcompress { l := false, cb := false, ca := false, pred := 2, vb := 0, va := 8, vd := 7 }) ∧
    decodeBits 0b100_0_0_0_011_00000_01000_00111_100111_01 =
      .ok (.vfoldMaxn { l := false, cb := false, ca := false, pred := 3, vb := 0, va := 8, vd := 7 }) ∧
    decodeBits 0b011_0_0_0_000_00010_00001_00011_101000_01 =
      .ok (.pandn { l := false, cb := false, ca := false, pred := 0, vb := 2, va := 1, vd := 3 }) ∧
    decodeBits 0b101_0_0_0_001_01100_00011_00010_100101_01 =
      .ok (.vcvt { fn := 5, l := false, ca := false, pred := 1, t := 12, va := 3, vd := 2 }) ∧
    decodeBits 0b111_0_0_1_010_00110_00101_00100_101001_01 =
      .ok (.vfmaVx { l := false, ca := true, pred := 2, xb := 6, va := 5, vd := 4 }) ∧
    decodeBits 0b001_0_0_0_001_00111_00110_00101_101010_01 =
      .ok (.vlds { l := false, c := false, pred := 1, b := 7, a := 6, vd := 5 }) ∧
    decodeBits 0b011_1_1_1_001_00111_00110_00101_101010_01 =
      .ok (.vldx { sc := 3, l := true, c := true, pred := 1, vb := 7, a := 6, vd := 5 }) ∧
    decodeBits 0b000_0_0_1_100_00000_00110_00101_101011_01 =
      .ok (.vst { l := false, c := true, pred := 4, b := 0, a := 6, vd := 5 }) ∧
    decodeBits 0b100_0_1_0_001_00111_00110_00101_101100_01 =
      .ok (.vamoMax { sc := 4, l := false, rl := true, aq := false, pred := 1, vb := 7, vd := 5 }) ∧
    decodeBits 0b010_0_0_1_001_00111_01100_00101_101101_01 =
      .ok (.vwaitGen { sc := 2, l := false, rl := false, aq := true, pred := 1, vb := 7, vd := 5 }) ∧
    decodeBits 0b111_0_0_0_000_00000_0000_1_00_011_101110_01 =
      .ok (.pnPostVl 3) ∧
    decodeBits 0b011_0_0_1_010_01001_01000_000_10_101110_01 =
      .ok (.awinUpd { l := false, cb := false, ca := true, pred := 2, b := 9, a := 8, n := 2 }) ∧
    decodeBits 0b000_0_1_0_001_01001_01000_0_1111_101111_01 =
      .ok (.supdCms { l := false, cb := true, ca := false, pred := 1, b := 9, a := 8, sd := 15 }) ∧
    decodeBits 0b110_0_0_0_000_00000_01000_0_0011_110000_01 =
      .ok (.sld { l := false, cb := false, ca := false, pred := 0, b := 0, a := 8, sd := 3 }) ∧
    decodeBits 0b000_0_0_0_000_01001_01000_0_0011_110001_01 =
      .ok (.scmt { l := false, cb := false, ca := false, pred := 0, b := 9, a := 8, sd := 3 }) ∧
    decodeBits 0b0010_0_01_10_01001_01000_00000_110010_01 =
      .ok (.astRun { po := 1, tk := 2, b := 9, a := 8, d := 0 }) ∧
    decodeBits 0b001_0_0_0_101_00000_01000_00111_110011_01 =
      .ok (.shalloc { l := false, sc := 5, b := 0, a := 8, d := 7 }) := by decide

/-- R41 to R43: prefixed words, the base word before the prefix word that comes first in memory. -/
theorem test_decode_tile_words :
    decodeBits 0b000_1_1_1_010_00100_00011_00000_000000_01_000_0_1_101_11_10_01_1001_1000_10_000000_11 =
      .ok (.mopa { ff := false, us := true, ks := 5, fsa := 3, fsb := 2, kind := 1, cp := 9, rp := 8, t := 2, l := true, cb := true, ca := true, pred := 2, vb := 4, va := 3, vd := 0 }) ∧
    decodeBits 0b011_0_0_1_010_00100_00011_00000_000000_01_000_0_0_000_00_00_00_0000_0000_01_000010_11 =
      .ok (.mcolPut { ff := false, us := false, ks := 0, fsa := 0, fsb := 0, kind := 0, cp := 0, rp := 0, t := 1, l := false, cb := false, ca := true, pred := 2, vb := 4, va := 3, vd := 0 }) := by decide
/-- R37, R39, R45: the field rules of the terms that are not of one format. -/
theorem test_ill_formed_other : ∀ i ∈ ([
    .lsync 7, .wmPub 7 { b := 1, a := 2, d := 0 }, .wmPub 3 { b := 1, a := 2, d := 1 }, .wmWait 7 { b := 1, a := 2, d := 3 },
    .pnSend 0 { b := 1, a := 2, d := 0 }, .pnSend 0 { b := 0, a := 2, d := 1 }, .pnCnt 6 { b := 0, a := 0, d := 1 }, .pnCnt 5 { b := 1, a := 0, d := 1 },
    .pnCnt 5 { b := 0, a := 1, d := 1 }, .cAddi 1 0, .cLi 1 0, .cMv 1 0, .cAdd 1 0, .cSub 1 0, .cAnd 1 0, .cSlli 1 0, .cSrai 1 0, .cLd 1 0, .cSd 1 0,
    .vfence 7, .pnTake false 1, .pnPost 0, .pnPostVl 4] : List Instr), i.wellFormed = false := by decide

/-- R33, R47: words that are no instruction are rejected: a standalone word of major 0x00, a reserved major, a reserved `w`, an odd pair, scope 7. -/
theorem test_rejected_words : ∀ w ∈ [0x00000001, 0x00000069, 0x00100025, 0x001C0121, 0xE0000029, 0x0000],
    (match decodeBits w with | .ok _ => true | .error _ => false) = false := by decide

/-! ### States for the tests -/

/-- A running hart of a gang of one, with nothing queued, four elements of 32 bits and every tile enabled; no page is mapped. -/
def bare : State :=
  { State.reset with
    dev := { Device.reset with ready := true },
    hart := { Hart.reset 0 0 with run := .running, gangid := 9, gangsize := 1, pasid := 1, vl := 4, vtype := 2, tilen := 15, pc := 0x10000 } }

/-- The context entry of PASID 1: root 0x1000, active. -/
def contextCells : List Host.Cell := [(2 ^ 43 - 2 ^ 24 + 17, 0x10), (2 ^ 43 - 2 ^ 24 + 24, 1)]

/-- The same with the lowest 512 GiB mapped one to one, the next 512 GiB mapped to host memory, and these cells above the tables. -/
def paged (m : List Host.Cell) : State :=
  { bare with mem := [(0x1000, 0x01), (0x1001, 0x08), (0x2000, 0xDF), (0x2008, 0xDF), (0x200E, 0x34)] ++ m ++ contextCells }

/-- A register set to a value. -/
def withX (s : State) (d : BitVec 5) (v : Word) : State := writeX s d v

/-- The hart's vector length and type. -/
def withVl (s : State) (n : Nat) (t : BitVec 14) : State := { s with hart := { s.hart with vl := n, vtype := t } }

/-- The check of `Runs`, evaluated. -/
def runsB (i : Instr) (s : State) : Bool :=
  match memberOf i with
  | some m => s.hart.vq.isEmpty && (postWait s [i]).isNone && s.hart.binds.isEmpty && s.hart.unbound.isEmpty && s.hart.unverified.isEmpty && (m.check (dctx s)).isNone &&
      (!m.whole || s.hart.vstart == 0)
  | none => false

/-- The check is sound. -/
theorem runs_of {i : Instr} {s : State} (h : runsB i s = true) : Runs i s := by
  unfold runsB at h
  cases hm : memberOf i with
  | none => rw [hm] at h; simp at h
  | some m =>
    rw [hm] at h
    simp only [Bool.and_eq_true, List.isEmpty_iff, Option.isNone_iff_eq_none, Bool.or_eq_true, Bool.not_eq_true', beq_iff_eq] at h
    obtain ⟨⟨⟨⟨⟨⟨h1, h2⟩, h3⟩, h4⟩, h0⟩, h5⟩, h6⟩ := h
    refine ⟨m, hm, h1, h2, h3, h4, h0, h5, fun hw => ?_⟩
    rcases h6 with h6 | h6
    · rw [hw] at h6; cases h6
    · exact h6

/-- A result of a translation that is a place with a property. -/
theorem hit_of {r : State × XRes} (P : State → Hit → Bool) (h : (match r with | (u, .ok k) => P u k | _ => false) = true) :
    ∃ u k, r = (u, .ok k) ∧ P u k = true := by
  obtain ⟨u, x⟩ := r
  cases x with
  | ok k => exact ⟨u, k, rfl, h⟩
  | trap t => cases h
  | stall => cases h

/-- The same for a scoped access. -/
theorem scoped_of {r : State × Option XRes} (P : State → Hit → Bool) (h : (match r with | (u, some (.ok k)) => P u k | _ => false) = true) :
    ∃ u k, r = (u, some (.ok k)) ∧ P u k = true := by
  obtain ⟨u, x⟩ := r
  cases x with
  | none => cases h
  | some x =>
    cases x with
    | ok k => exact ⟨u, k, rfl, h⟩
    | trap t => cases h
    | stall => cases h

/-- A target at which the convoy-start check passes. -/
theorem lands_of {s : State} {target : Word}
    (h : (match fetchHalves s (target - 4) 2 with | (_, .bits v) => !insideConvoy v | (_, .trap _) => true | _ => false) = true) : ∃ t, Lands s target t := by
  cases hf : fetchHalves s (target - 4) 2 with
  | mk u x =>
    rw [hf] at h
    cases x with
    | bits v => exact ⟨u, .inl ⟨v, hf, by simpa using h⟩⟩
    | trap tr => exact ⟨s, .inr ⟨u, tr, hf, rfl⟩⟩
    | stall => cases h

/-- A target at which it trips. -/
theorem trips_of {s : State} {target : Word}
    (h : (match fetchHalves s (target - 4) 2 with | (_, .bits v) => insideConvoy v | _ => false) = true) : Trips s target := by
  cases hf : fetchHalves s (target - 4) 2 with
  | mk u x =>
    rw [hf] at h
    cases x with
    | bits v => exact ⟨u, v, hf, h⟩
    | trap tr => cases h
    | stall => cases h

/-! ### Witnesses of the scalar statements -/

theorem witness_ScalarRegisterResults : NoHold bare [6, 7, 5] ∧ NoHold bare [6, 5] := ⟨rfl, rfl⟩

theorem witness_ScalarDivision :
    NoHold bare [6, 7, 5] ∧ readX bare 7 = 0 ∧ readX (withX bare 7 3) 7 ≠ 0 ∧
    readX (withX (withX bare 7 (BitVec.allOnes 64)) 6 (BitVec.intMin 64)) 6 = BitVec.intMin 64 ∧
    readX (withX (withX bare 7 (BitVec.allOnes 64)) 6 (BitVec.intMin 64)) 7 = BitVec.allOnes 64 := ⟨rfl, by decide⟩

theorem witness_ScalarImmediateResults : NoHold bare [6, 5] ∧ NoHold bare [5] := ⟨rfl, rfl⟩

theorem witness_CompressedResults : NoHold bare [5] ∧ NoHold bare [6, 5] := ⟨rfl, rfl⟩

/-- The base of the scratchpad window in x6. -/
def atSpad : State := withX bare 6 (W spBase)

/-- A posted acquire. -/
def acquiring : State := postConvoy bare [.vamoAdd { sc := 3, l := false, rl := false, aq := true, pred := 0, vb := 1, vd := 3 }] 4

theorem witness_ScalarLoadResults : NoHold acquiring [6, 5] ∧ acquireIn acquiring.hart.vq = true ∧ acquireIn atSpad.hart.vq = false ∧
    NoHold atSpad [6, 4, 5] ∧ ∀ n ∈ [1, 2, 4, 8, 16], ∃ u h,
    checkAccess atSpad (readX atSpad 6 + (0 : BitVec 11).signExtend 64) n n .load = (u, .ok h) ∧ (!readsPoison u h.key n) = true := by
  refine ⟨by unfold NoHold; decide, by decide, rfl, rfl, fun n hn => hit_of _ ?_⟩
  revert n
  decide

theorem witness_ScalarStoresAndAlignment : NoHold atSpad [6, 4, 5] ∧ acquireIn atSpad.hart.vq = false ∧
    (∀ n ∈ [1, 2, 4, 8, 16], ∃ u h, checkAccess atSpad (readX atSpad 6 + (0 : BitVec 11).signExtend 64) n n .store = (u, .ok h) ∧ true = true) ∧
    (∀ n ∈ [2, 4, 8, 16], (readX atSpad 6 + (1 : BitVec 11).signExtend 64).toNat % n ≠ 0) := by
  refine ⟨rfl, rfl, fun n hn => hit_of (fun _ _ => true) ?_, by decide⟩
  revert n
  decide

theorem witness_ScalarAtomicResults : NoHold atSpad [6, 7, 5] ∧ acquireIn atSpad.hart.vq = false ∧ storesPending atSpad (scopeAt atSpad (readX atSpad 6) 1) = false ∧ ∀ acc ∈ [Acc.store, .load], ∃ u h,
    checkScoped atSpad (readX atSpad 6) 8 1 acc = (u, some (.ok h)) ∧ (!readsPoison u h.key 8) = true := by
  refine ⟨rfl, rfl, by decide, fun acc hn => scoped_of _ ?_⟩
  revert acc
  decide

/-- Code below the program counter: a linked word at 0x10004, so that 0x10008 is inside a convoy. -/
def codeAt : State := paged [(0x10004, 0x81), (0x10007, 0x10)]

/-- A spliced loop of two back branches, at the producer's. -/
def spliced : State :=
  let br (c : Bool) : SpInstr := { consumer := c, orig := 0x10010, region := 2, instr := .beq { hi := 0, b := 0, a := 0, lo := 0 }, target := 0 }
  let sp : Splice := {
    code := [br false, br true], consumer := false, other := roleCtx codeAt.hart, taken := none, unzipped := none, linked := [], tags := [], both := [],
    tilesP := [], tilesC := [] }
  { codeAt with hart := { codeAt.hart with pc := spliceAddr 0, splice := some sp } }

theorem witness_BranchResults :
    (codeAt.hart.splice = none ∧ NoHold codeAt [1, 2] ∧ (∃ t, Lands codeAt (origAddr codeAt.hart codeAt.hart.pc + 4) t) ∧
      Trips codeAt (origAddr codeAt.hart codeAt.hart.pc + 8)) ∧
    (∃ sp i, spliced.hart.splice = some sp ∧ spliceAt spliced.hart = some i ∧ i.region = 2 ∧ sp.unzipped = none ∧ NoHold spliced [0, 0] ∧
      readX spliced 0 = readX spliced 0 ∧ ∃ u, Lands spliced (i.orig + brOff { hi := 0, b := 0, a := 0, lo := 0 }) u) :=
  ⟨⟨rfl, rfl, lands_of (by decide), trips_of (by decide)⟩, _, _, rfl, rfl, rfl, rfl, rfl, rfl, lands_of (by decide)⟩

theorem witness_JumpResults :
    NoHold codeAt [6, 1] ∧ (∃ t, Lands codeAt (origAddr codeAt.hart codeAt.hart.pc + (2 : BitVec 19).signExtend 64 * 2) t) ∧
    Trips codeAt (origAddr codeAt.hart codeAt.hart.pc + (4 : BitVec 19).signExtend 64 * 2) ∧
    (readX codeAt 6 + (0 : BitVec 14).signExtend 64).toNat % 2 = 0 ∧ (readX codeAt 6 + (1 : BitVec 14).signExtend 64).toNat % 2 = 1 :=
  ⟨rfl, lands_of (by decide), trips_of (by decide), by decide⟩

theorem witness_ControlRegisterReads : NoHold bare [5] ∧ vectorBusy bare.hart = false ∧ (∀ n ∈ [0x000, 0x060], ∃ r ∈ crTable bare, n = r.1) :=
  ⟨rfl, rfl, by decide⟩

theorem witness_ControlRegisterWrites : NoHold bare [6, 5] ∧ bare.hart.vq = [] ∧ vectorBusy bare.hart = false ∧ bare.hart.run = .running ∧ bare.hart.splice = none ∧
    (crPlain bare).map (fun r => r.1) = [0x002, 0x006, 0x008, 0x009, 0x00A, 0x00B, 0x00C, 0x011, 0x013] := ⟨rfl, rfl, rfl, rfl, rfl, rfl⟩

theorem witness_SetVectorLength : NoHold bare [0, 5] ∧ (coreOf bare bare.hart.core).pend = none := ⟨rfl, rfl⟩

theorem witness_TrapEntry : Cause.illegal ≠ .pasidGone ∧ Cause.illegal ≠ .halt ∧ NoHold bare [6] := ⟨by decide, by decide, rfl⟩

/-- A store of the hart is queued. -/
def storing : State := release bare (mkStore bare { key := spadKey 0, left := 8, pte := 0, pteAt := 0, level := 0 } 8 1 (256 ^ 8 - 1) false .sequencer 0)

/-- `wm.wait` of scope 1 to x5, from x6 and x7 at the program counter, with the scratchpad in x6. -/
def marking : State := withX (paged [(0x10000, 0x5D), (0x10001, 0xC5), (0x10002, 0x9C), (0x10003, 0x10)]) 6 (W spBase)

theorem witness_MarksSyncWatermarks :
    storesPending storing 1 = true ∧ storesPending bare 6 = false ∧ NoHold marking [6, 7, 5] ∧ storesPending marking (scopeAt marking (readX marking 6) 1) = false ∧ acquireIn marking.hart.vq = false ∧
    (∃ u h, checkScoped marking (readX marking 6) 8 1 .store = (u, some (.ok h)) ∧ true = true) ∧
    (∃ u h, checkScoped marking (readX marking 6) 8 1 .load = (u, some (.ok h)) ∧ (!readsPoison u h.key 8 && hartRead u h.key 8 == 0) = true) ∧
    (readX marking 7).toNat ≤ 0 ∧ 0 < (readX (withX marking 7 1) 7).toNat ∧ instrHere marking = some (.wmWait 1 { b := 7, a := 6, d := 5 }) := by
  refine ⟨by decide, by decide, rfl, by decide, rfl, scoped_of (fun _ _ => true) (by decide), scoped_of _ (by decide), by decide, by decide, by decide⟩

/-- A gang of one for the running hart, and one with another member that has not arrived. -/
def gangTest : Gang :=
  { lid := 9, lid2 := none, pasid := 1, size := 1, mode := 0, repart := false, debug := false, image := 0, image2 := 0, spills := [], spills2 := [],
    stride := 0, stride2 := 0, gen := 3, stab := 0, nstrip := 0, ava := 0, ng := [], ava2 := 0, ng2 := [] }

/-- The running hart in its gang. -/
def ganged : State := { bare with gangs := [gangTest] }

/-- The hart has arrived for a generation. -/
def arrivedAt (s : State) (n : Nat) : State := { s with hart := { s.hart with arrived := some n } }

theorem witness_GangBarrierResults :
    NoHold ganged [5] ∧ gangOf ganged ganged.hart = some gangTest ∧ ganged.hart.arrived = none ∧ storesPending ganged 3 = false ∧
    othersArrived ganged gangTest = true ∧ othersArrived { ganged with others := [ganged.hart] } gangTest = false ∧
    (arrivedAt ganged 3).hart.arrived = some gangTest.gen ∧ (arrivedAt ganged 4).hart.arrived = some (gangTest.gen + 1) ∧
    sameGang gangTest (arrivedAt ganged 4).hart = true := ⟨rfl, by decide⟩

/-- n pennants on a channel. -/
def pennants (s : State) (c n : Nat) : State :=
  { s with hart := { s.hart with pennants := s.hart.pennants.set (c % 6) (List.replicate n 0) (Nat.mod_lt _ (by decide)) } }

theorem witness_PennantResults :
    NoHold bare [6, 5] ∧ scalarPending bare = false ∧ (pnList bare.hart 0).length < 64 ∧ (pnList (pennants bare 1 63).hart 1).length < 64 ∧
    pnList (pennants bare 2 1).hart 2 = [0] ∧ pnList (pennants bare 4 1).hart 4 = [0] ∧ queuesEmpty bare.hart = true ∧ pnList bare.hart 2 = [] ∧ pnList bare.hart 4 = [] ∧
    64 ≤ (pnList (pennants bare 1 64).hart 1).length := ⟨rfl, by decide⟩

/-- A launch record of queue 0. -/
def launchTest (lid : Word) (ph : Phase) : Launch :=
  { lid := lid, queue := 0, seq := lid.toNat % 2 ^ 56 - 1, image := 0x30000, prio := 0, eclass := 0, splice := false, deps := [], met := [], pasid := 1,
    phase := ph, readyAt := 0, readyNo := 0, places := [], hreason := 0, pair := none, plan := none, consumer := false, decided := false,
    result := { code := 0, cause := 0, epc := 0, tval := 0, hart := 0, energy := 0, origin := 0 } }

/-- Queue 0 with one launch posted and one pending, open for the hart's PASID, over mapped memory. -/
def launching : State :=
  withX (setQueue { paged [] with launches := [launchTest 1 .posted, launchTest 2 .fetched] } 0
    { CQueue.reset with isOpen := true, pasid := 1, base := 0x20000, head := 2, tail := 2, done := 1 }) 6 (W spBase)

theorem witness_LaunchInstructions :
    (NoHold launching [6, 5] ∧ ownLaunch launching 9 = true ∧ ownLaunch launching 0 = false ∧ standing launching 0 = .unknown ∧
      ownLaunch launching 1 = false ∧ (∃ v, standing launching 1 = .held v) ∧ ownLaunch launching 2 = false ∧ standing launching 2 = .pending) ∧
    (NoHold launching [6, 7, 5] ∧ storesPending launching 3 = false ∧ 64 ≤ (readX (withX launching 7 64) 7).toNat ∧ (readX (withX launching 7 63) 7).toNat < 64 ∧
      (queueOf launching 63).isOpen = false ∧ (queueOf launching 0).isOpen = true ∧ (queueOf launching 0).pasid = launching.hart.pasid ∧
      (queueOf launching 0).tail - (queueOf launching 0).head < 2 ^ (queueOf launching 0).log2 ∧
      ∃ u h, checkAccess launching (readX launching 6) 64 64 .load = (u, .ok h) ∧
        (!readsPoison u h.key 64 && (engineWrite u 1 (0x20000 + W (2 % 16 * 64)) 64 0).2.isOk) = true) ∧
    (∃ tr, (engineWrite launching 1 (W (2 ^ 40)) 64 0).2 = .error (some tr)) := by
  refine ⟨⟨rfl, by decide, by decide, by decide, by decide, ⟨_, rfl⟩, by decide, by decide⟩, ⟨rfl, by decide, by decide, by decide, by decide, by decide,
    by decide, by decide, hit_of _ (by decide)⟩, _, rfl⟩

/-- Something is posted to the vector queue. -/
def queued : State := postConvoy bare [.pnTake false 0] 4

theorem witness_HaltResults :
    queuesEmpty queued.hart = false ∧ queuesEmpty ganged.hart = true ∧ ganged.hart.splice = none ∧ (∃ u, allSpills (settleHart ganged) = (u, none)) ∧
    queuesEmpty spliced.hart = true ∧ (∃ sp i, spliced.hart.splice = some sp ∧ spliceAt spliced.hart = some i ∧ i.consumer = false ∧ sp.unzipped ≠ some true) :=
  ⟨by decide, by decide, rfl, ⟨_, rfl⟩, by decide, _, _, rfl, rfl, rfl, by decide⟩

/-! ### Witnesses of the vector statements -/

/-- Operands of the V format, under predicate 1. -/
def ov : OpV := { l := false, cb := false, ca := false, pred := 1, vb := 2, va := 1, vd := 3 }

/-- Operands of the VS format. -/
def ovs : OpVS := { l := false, ca := false, pred := 1, xb := 6, va := 1, vd := 3 }

theorem witness_VectorIntegerResults : ∀ i ∈ [Instr.vadd ov, .vsub ov, .vmul ov, .vmulh ov, .vmulhn ov, .vand ov, .vor ov, .vxor ov, .vsll ov, .vsrl ov, .vsra ov,
    .vmin ov, .vmax ov, .vminn ov, .vmaxn ov, .vaddVx ovs, .vsubVx ovs, .vrsubVx ovs, .vmulVx ovs, .vandVx ovs, .vorVx ovs, .vxorVx ovs, .vsllVx ovs, .vsrlVx ovs,
    .vsraVx ovs, .vminVx ovs, .vmaxVx ovs, .vbcast ovs], Runs i bare := fun i h => runs_of (by revert i; decide)

theorem witness_VectorFloatResults : ∀ i ∈ [Instr.vfadd ov, .vfsub ov, .vfmul ov, .vfdiv ov, .vfmin ov, .vfmax ov, .vfsgnj ov, .vfaerr ov, .vfmerr ov, .vfsqrt ov,
    .vfabs ov, .vfneg ov, .vfrecipEst ov, .vfrsqrtEst ov, .vfma ov, .vfms ov, .vfnma ov, .vfnms ov, .vfaddVx ovs, .vfmulVx ovs, .vfmaVx ovs], Runs i bare :=
  fun i h => runs_of (by revert i; decide)

theorem witness_SelectAndClassify : (∀ i ∈ [Instr.vsel ov, .vfclass ov], Runs i bare) ∧ ({ ov with pred := 0 } : OpV).pred = 0 ∧
    inBody bare 0 ∧ inBody bare 3 ∧ ¬inBody bare 4 ∧ zeroedBytes (withVl bare 4 0x0A) 4 :=
  ⟨fun i h => runs_of (by revert i; decide), rfl, by unfold inBody zeroedBytes zeroedTail; decide⟩

theorem witness_RoundingKeepsRepresented :
    (descValid 0x01071348 = true ∧ 0x7E < 2 ^ descWid 0x01071348 ∧ (descFmt 0x01071348).decode 0x7E ≠ .nan) ∧
    ∀ F ∈ [Fmt.bf16, Fmt.h16, Fmt.f32, Fmt.f64], F.inf true < 2 ^ F.wid ∧ F.decode (F.inf true) ≠ .nan := by decide

theorem witness_VectorCompareResults : ov.vd.toNat < 16 ∧ ∀ i ∈ [Instr.vceq ov, .vclt ov, .vcle ov, .vcltn ov, .vclen ov, .vfceq ov, .vfclt ov, .vfcle ov], Runs i bare :=
  ⟨by decide, fun i h => runs_of (by revert i; decide)⟩

/-- The hart with E4M3 in the four descriptors. -/
def narrowed : State := { bare with hart := { bare.hart with fmt := Vector.replicate 4 0x01071348 } }

/-- `vcvt` from a source type to a destination kind. -/
def cvt (fn : BitVec 3) (t : BitVec 5) : Instr := .vcvt { fn := fn, l := false, ca := false, pred := 1, t := t, va := 1, vd := 3 }

theorem witness_ConversionResults :
    (∀ t ∈ [(0 : BitVec 5), 7, 8, 10, 12, 15], Runs (cvt 0 t) narrowed) ∧ (∀ fn ∈ [(0 : BitVec 3), 1, 2], Runs (cvt fn 11) narrowed) ∧
    Runs (cvt 3 3) (withVl narrowed 4 1) ∧ (∀ fn ∈ [(4 : BitVec 3), 7], Runs (cvt fn 9) (withVl narrowed 4 0)) ∧
    ∀ k : Fin 4, descScl narrowed.hart.fmt[k] = 0 :=
  ⟨fun t h => runs_of (by revert t; decide), fun fn h => runs_of (by revert fn; decide), runs_of (by decide), fun fn h => runs_of (by revert fn; decide), by decide⟩

theorem witness_PermuteResults : ∀ i ∈ [Instr.vperm ov, .vslideup ov, .vslidedown ov, .vexpand ov, .vmv ov, .vzip ov, .vunzip ov, .vcompress ov], Runs i bare :=
  fun i h => runs_of (by revert i; decide)

/-- The hart with the first four bits of predicate 1 set. -/
def allOn : State := { bare with hart := { bare.hart with p := bare.hart.p.set 1 15 } }

theorem witness_FoldResults :
    (∀ i ∈ [Instr.vfoldAdd ov, .vfoldMin ov, .vfoldMax ov, .vfoldMinn ov, .vfoldMaxn ov, .vfoldFadd ov, .vfoldFmin ov, .vfoldFmax ov], Runs i bare ∧ Runs i allOn) ∧
    (∀ s ∈ [bare, allOn], ∀ e, e < nextLen s → ¬(activeP s 1 e = true ∨ active s 1 e = true ∧ elP s 1 e 32 = true)) ∧
    (List.range (nextLen bare)).filter (fun e => active bare 1 e) = [] ∧ (List.range (nextLen allOn)).filter (fun e => active allOn 1 e) = [0, 1, 2, 3] ∧
    nextLen bare ≤ 2 ^ 2 :=
  ⟨fun i h => ⟨runs_of (by revert i; decide), runs_of (by revert i; decide)⟩, by decide +kernel, by decide +kernel, by decide +kernel, by decide +kernel⟩

theorem witness_PredicateResults :
    (∀ i ∈ [Instr.pand ov, .por ov, .pxor ov, .pandn ov, .plt ov, .pgetsm { ov with pred := 0 }, .pcount ov, .pfirst ov], Runs i bare ∧ Runs i allOn) ∧
    ov.vd.toNat < 16 ∧ (∀ e, e < nextLen bare → activeP bare 1 e = false) ∧ (∀ e, e < nextLen bare → active bare 1 e = false) ∧
    (0 < nextLen allOn ∧ active allOn 1 0 = true) :=
  ⟨fun i h => ⟨runs_of (by revert i; decide), runs_of (by revert i; decide)⟩, by decide +kernel, by decide +kernel, by decide +kernel, by decide +kernel⟩

/-! ### Witnesses of the convoy and vector-memory statements -/

/-- A member that is ready, with a property. -/
theorem member_of {i : Instr} {s : State} (P : Member → Bool) (h : (runsB i s && (memberOf i).any P) = true) :
    ∃ m, memberOf i = some m ∧ Ready i m s ∧ P m = true := by
  simp only [Bool.and_eq_true] at h
  obtain ⟨m, hm, hr⟩ := runs_of h.1
  refine ⟨m, hm, hr, ?_⟩
  have h2 := h.2
  rw [hm] at h2
  exact h2

/-- What the member of an instruction leaves in the context of its convoy. -/
def leaves (i : Instr) (s : State) (P : Ctx → Bool) (m : Member) : Bool := P (m.run (begun s i)).hart.cur

/-- Operands of the VM format: base x6. -/
def ovm : OpVM := { l := false, c := false, pred := 0, b := 0, a := 6, vd := 3 }

theorem witness_ConvoyOfOne :
    (∃ m, memberOf (.vadd ov) = some m ∧ Ready (.vadd ov) m bare ∧ leaves (.vadd ov) bare (fun c => c.fault.isNone && c.wait.isNone) m = true) ∧
    (∃ m, memberOf (.pnTake false 0) = some m ∧ Ready (.pnTake false 0) m bare ∧
      (leaves (.pnTake false 0) bare (fun c => c.fault.isNone && c.wait.isSome) m &&
        (faultBelow (begun bare (.pnTake false 0)) [m] (ranOne bare (.pnTake false 0) m)).isNone) = true) ∧
    (∃ m, memberOf (.vld ovm) = some m ∧ Ready (.vld ovm) m bare ∧ leaves (.vld ovm) bare (fun c => c.fault.isSome && c.wait.isNone) m = true) :=
  ⟨member_of _ (by decide +kernel), member_of _ (by decide +kernel), member_of _ (by decide +kernel)⟩

/-- Operands of `mzero m1`. -/
def otz : OpTile :=
  { ff := false, us := false, ks := 0, fsa := 0, fsb := 0, kind := 0, cp := 0, rp := 0, t := 1, l := false, cb := false, ca := false, pred := 0, vb := 0, va := 0,
    vd := 0 }

theorem witness_MemberConditions :
    ((memberOf (.vadd ov)).bind fun m => m.check (dctx (withVl bare 4 4))) = some .illegal ∧ (dctx (withVl bare 4 4)).ew < 8 ∧ (dctx (withVl bare 4 0)).ew < 16 ∧
    (let s := { bare with hart := { bare.hart with vstart := 1 } }
     ∃ m, memberOf (.mzero otz) = some m ∧ s.hart.vq = [] ∧ postWait s [.mzero otz] = none ∧ m.check (dctx s) = none ∧ m.whole = true ∧ s.hart.vstart ≠ 0) :=
  ⟨by decide, by decide, by decide, _, rfl, rfl, by decide, by decide, by decide, by decide⟩

/-- An address that no page maps in x6. -/
def unmapped : State := withX (paged []) 6 (W (2 ^ 40))

theorem witness_ElementStops : Cause.tfault ≠ .halt ∧
    (∃ m, memberOf (.vld ovm) = some m ∧ Ready (.vld ovm) m unmapped ∧
      leaves (.vld ovm) unmapped (fun c => decide (c.fault = some (0, 0, ⟨.tfault, W (2 ^ 40)⟩)) && c.wait.isNone && c.blame.isNone) m = true) ∧
    (∃ m, memberOf (.vldc ovm) = some m ∧ Ready (.vldc ovm) m (withX unmapped 7 (W 64)) ∧
      (leaves (.vldc ovm) (withX unmapped 7 (W 64)) (fun c => decide (c.fault = some (0, 0, ⟨.tfault, W (2 ^ 40)⟩)) && c.wait.isNone && c.blame.isNone) m &&
        m.whole) = true) :=
  ⟨by decide, member_of _ (by decide +kernel), member_of _ (by decide +kernel)⟩

/-- One element, at the base of the scratchpad. -/
def oneSpad : State := withVl atSpad 1 2

/-- The body of a convoy of one element. -/
theorem body_one {s : State} (h : nextLen s = 1) {e : Nat} (he : inBody s e) : e = 0 := by
  unfold inBody at he
  rw [h] at he
  omega

/-- The elements of a convoy of one element. -/
theorem active_one {s : State} (h : nextLen s = 1) {p e : Nat} (he : e ∈ activeBody s p) : e = 0 := by
  unfold activeBody at he
  rw [h] at he
  simp at he
  exact he.1

/-- A load of one element that is reached in the window. -/
theorem loadsReach_one {i : Instr} {s : State} {p : Nat} {go : State → Foot → Acc → State × Found} {foot : Nat → Except Trap Foot} (hn : nextLen s = 1)
    (hc : s.combining = []) (hg : ∀ f : Foot, inWindow f.va.toNat = true → (go (begun s i) f .load).1 = begun s i) (h : (match foot 0 with
      | .ok f => inWindow f.va.toNat && (match (go (begun s i) f .load).2 with | .ok _ => true | _ => false)
      | _ => false) = true) : LoadsReach i s p go foot := by
  refine ⟨hc, fun e he _ => ?_⟩
  obtain rfl := body_one hn he
  cases hf : foot 0 with
  | error t => rw [hf] at h; cases h
  | ok f =>
    rw [hf] at h
    simp only [Bool.and_eq_true] at h
    have h1 := hg f h.1
    have h2 := h.2
    cases hq : go (begun s i) f .load with
    | mk u x =>
      rw [hq] at h1 h2
      cases x with
      | ok l => exact ⟨f, l, rfl, by rw [hq]; exact Prod.ext h1 rfl⟩
      | missed => cases h2
      | trap t => cases h2
      | stall => cases h2

/-- The same for a store, with one place of whole bytes. -/
theorem storesReach_one {i : Instr} {s : State} {p : Nat} {go : State → Foot → Acc → State × Found} {foot : Nat → Except Trap Foot} (hn : nextLen s = 1)
    (hc : s.combining = []) (hg : ∀ f : Foot, inWindow f.va.toNat = true → (go (begun s i) f .store).1 = begun s i) (h : (match foot 0 with
      | .ok f => inWindow f.va.toNat && f.bit == 0 && decide (8 ∣ f.wm) && decide (0 < f.wm) &&
          (match (go (begun s i) f .store).2 with | .ok [(_, n)] => n == f.wm / 8 | _ => false)
      | _ => false) = true) : ∃ place, StoresReach i s p go foot place fun _ => false := by
  cases hf : foot 0 with
  | error t => rw [hf] at h; cases h
  | ok f =>
    rw [hf] at h
    simp only [Bool.and_eq_true, beq_iff_eq, decide_eq_true_eq] at h
    obtain ⟨⟨⟨⟨h0, h1⟩, h2⟩, h3⟩, h4⟩ := h
    have h5 := hg f h0
    cases hq : go (begun s i) f .store with
    | mk u x =>
      rw [hq] at h4 h5
      cases x with
      | ok l =>
        match l, h4 with
        | [(k, n)], h4 =>
          simp only [beq_iff_eq] at h4
          refine ⟨fun _ => (k, f), hc, fun e he => ?_⟩
          obtain rfl := active_one hn he
          exact ⟨hf, h1, h2, h3, by rw [hq, h4]; exact Prod.ext h5 rfl⟩
        | [], h4 => cases h4
        | _ :: _ :: _, h4 => cases h4
      | missed => cases h4
      | trap t => cases h4
      | stall => cases h4

/-- Operands of the VMX format: base x6, index v2. -/
def ovx : OpVMX := { sc := 1, l := false, c := false, pred := 0, vb := 2, a := 6, vd := 3 }

theorem witness_VectorLoadResults :
    (∀ i ∈ [Instr.vld ovm, .vldFf ovm, .vlds { ovm with b := 7 }, .vldXn { ovm with pred := 1 }, .vldXtn { ovm with pred := 1 }, .vldx ovx], Runs i oneSpad) ∧
    oneSpad.hart.splice = none ∧ LoadsReach (.vld ovm) oneSpad 0 reach (footUnit (begun oneSpad (.vld ovm)) 6) ∧
    LoadsReach (.vlds { ovm with b := 7 }) oneSpad 0 reach (footStride (begun oneSpad (.vlds { ovm with b := 7 })) 6 7) ∧
    LoadsReach (.vldx ovx) oneSpad 0 (reachScoped 1) (footIndex (begun oneSpad (.vldx ovx)) 6 2) := 
  ⟨fun i h => runs_of (by revert i; decide), rfl, loadsReach_one rfl rfl (fun _ h => reach_window _ (by decide) h) (by decide),
    loadsReach_one rfl rfl (fun _ h => reach_window _ (by decide) h) (by decide),
    loadsReach_one rfl rfl (fun _ h => reachScoped_window _ _ (by decide) h) (by decide +kernel)⟩

theorem witness_VectorStoreResults :
    (∀ i ∈ [Instr.vst ovm, .vsts { ovm with b := 7 }, .vstXn { ovm with pred := 1 }, .vstXtn { ovm with pred := 1 }, .vstx ovx], Runs i oneSpad) ∧
    (∃ place, StoresReach (.vst ovm) oneSpad 0 reach (footUnit (begun oneSpad (.vst ovm)) 6) place fun _ => false) ∧
    (∃ place, StoresReach (.vstx ovx) oneSpad 0 (reachScoped 1) (footIndex (begun oneSpad (.vstx ovx)) 6 2) place fun _ => false) :=
  ⟨fun i h => runs_of (by revert i; decide), storesReach_one rfl rfl (fun _ h => reach_window _ (by decide) h) (by decide),
    storesReach_one rfl rfl (fun _ h => reachScoped_window _ _ (by decide) h) (by decide +kernel)⟩

/-- One element whose address is in v2. -/
def atomAt (a : Nat) : State := withVl { paged [] with hart := { (paged []).hart with v := (paged []).hart.v.set 2 (BitVec.ofNat 32768 a) } } 1 2

/-- Operands of the VA format: addresses in v2, scope `.sy`. -/
def ova : OpVA := { sc := 5, l := false, rl := false, aq := false, pred := 0, vb := 2, vd := 4 }

/-- An atomic on one element in the window. -/
theorem atomReach_one {b : State} {f : OpVA} {acc : Acc} {n : Nat} (hk : b.hart.core < 2 ^ 30) (h : (inWindow (W (elG b f.vb.toNat 0 64)).toNat &&
      (match (atomReach b b f acc 0).2.1 with | .ok [(_, m)] => m == n | _ => false)) = true) :
    ∃ k va, atomReach b b f acc 0 = (b, .ok [(k, n)], va) := by
  simp only [Bool.and_eq_true] at h
  obtain ⟨hw, h⟩ := h
  unfold atomReach at h ⊢
  cases hp : elGP b f.vb.toNat 0 64
  · rw [hp] at h
    simp only [Bool.false_eq_true, if_false] at h ⊢
    have hr := reachScoped_window f.sc.toNat (s := b) (f := { va := W (elG b f.vb.toNat 0 64), bit := 0, wm := ew b }) acc hk hw
    generalize reachScoped f.sc.toNat b { va := W (elG b f.vb.toNat 0 64), bit := 0, wm := ew b } acc = q at h hr ⊢
    obtain ⟨u, x⟩ := q
    simp only at hr
    subst hr
    cases x with
    | ok l =>
      match l, h with
      | [(k, m)], h => exact ⟨k, _, by simp only at h ⊢; rw [beq_iff_eq.mp h]⟩
      | [], h => cases h
      | _ :: _ :: _, h => cases h
    | missed => cases h
    | trap t => cases h
    | stall => cases h
  · rw [hp] at h
    simp at h

/-- Byte 2^39 of a mapped address is host memory. -/
def hostHit : Hit := { key := 0x00D0000000000000, left := 2 ^ 39, pte := 0x00340000000000DF, pteAt := 0x2008, level := 3 }

theorem witness_VectorAtomicResults :
    (∀ i ∈ [Instr.vamoSwap ova, .vamoAdd ova, .vamoAnd ova, .vamoOr ova, .vamoXor ova, .vamoMin ova, .vamoMax ova, .vamoMinn ova, .vamoMaxn ova, .vamoFadd ova,
      .vamoFmin ova, .vamoFmax ova, .vamoCas ova, .vamoAddCb ova, .vamoAndCb ova, .vamoOrCb ova, .vamoXorCb ova, .vamoMinCb ova, .vamoMaxCb ova, .vamoMinnCb ova,
      .vamoMaxnCb ova, .vamoFaddCb ova, .vamoFminCb ova, .vamoFmaxCb ova], Runs i (atomAt spBase)) ∧
    (atomAt spBase).combining = [] ∧ (atomAt spBase).hart.vstart = 0 ∧ nextLen (atomAt spBase) = 1 ∧ active (atomAt spBase) 0 0 = true ∧
    (begun (atomAt spBase) (.vamoAdd ova)).hart.cur.wait = none ∧
    (∃ h va, atomReach (begun (atomAt spBase) (.vamoAdd ova)) (begun (atomAt spBase) (.vamoAdd ova)) ova .store 0 =
      (begun (atomAt spBase) (.vamoAdd ova), .ok [(h, 4)], va)) ∧ combines (spadKey 0) = true ∧
    (let b := begun (atomAt (2 ^ 39)) (.vamoAddCb ova)
     checkScoped b (W (elG b 2 0 64)) 4 5 .store = (b, some (.ok hostHit))) ∧ combines hostHit.key = false := by
  refine ⟨fun i h => runs_of (by revert i; decide), rfl, rfl, rfl, rfl, rfl, atomReach_one (by decide) (by decide +kernel), by decide, ?_, by decide⟩
  exact checkScoped_done (by decide +kernel) (by decide +kernel) (by decide +kernel) (grantPlace_done (by decide) (by decide) (by decide) (by decide))
    (by decide +kernel)

/-- A vector store to the Loft is queued. -/
def durable : State := release bare (mkStore bare { key := 0x0010000000000000, left := 8, pte := 0, pteAt := 0, level := 0 } 8 1 (256 ^ 8 - 1) false .vector 0)

/-- Operands of `dpb`. -/
def ods : OpDS := { l := false, sc := 0, b := 0, a := 0, d := 0 }

theorem witness_VectorWaitResults :
    (∀ i ∈ [Instr.vwaitEq ova, .vwaitNe ova, .vwaitGe ova, .vwaitLt ova, .vwaitGen ova, .vwaitLtn ova], Runs i (atomAt spBase)) ∧
    (∃ h va, atomReach (begun (atomAt spBase) (.vwaitEq ova)) (begun (atomAt spBase) (.vwaitEq ova)) ova .load 0 =
      (begun (atomAt spBase) (.vwaitEq ova), .ok [(h, 4)], va)) ∧
    readsPoison (begun (atomAt spBase) (.vwaitEq ova)) (spadKey 0) 4 = false ∧
    (∀ i ∈ [Instr.vfence 5, .vfence 6, .dpb ods, .pnTake false 0, .pnTake false 5, .pnPost 2, .pnPostVl 3], Runs i bare ∧ Runs i durable) ∧
    (5 : BitVec 3) ≠ 6 ∧ vectorPending bare = false ∧ vectorPending durable = true ∧ persisted (begun bare (.dpb ods)) 0 = true ∧ persisted (begun durable (.dpb ods)) 0 = false ∧
    pnList (pennants bare 5 1).hart 5 = [0] ∧ pnList bare.hart 0 = [] ∧ (pnList (pennants bare 2 63).hart 2).length < 64 ∧
    64 ≤ (pnList (pennants bare 3 64).hart 3).length :=
  ⟨fun i h => runs_of (by revert i; decide), atomReach_one (by decide) (by decide +kernel), by decide +kernel,
    fun i h => ⟨runs_of (by revert i; decide), runs_of (by revert i; decide)⟩, by decide, by decide, by decide, by decide, by decide, rfl, rfl, by decide, by decide⟩

/-- Operands of a window declaration: bytes from x6, x7 words, operation 0. -/
def oaw : OpAW := { l := false, cb := false, ca := false, pred := 0, b := 7, a := 6, n := 1 }

theorem witness_WindowDeclaration :
    let s := withX atSpad 7 1
    MemoryOk s ∧ Runs (.awinDecl oaw) s ∧ 1 ≤ (readX s 7).toNat ∧ (readX s 7).toNat ≤ 4096 ∧ spBase + s.hart.stall * partBytes s ≤ (readX s 6).toNat ∧
    (readX s 6).toNat + (readX s 7).toNat * 4 + lanes s * (readX s 7).toNat * 4 ≤ spBase + s.hart.stall * partBytes s + partBytes s ∧
    (readX s 6).toNat % 4 = 0 ∧ reservedByte (dropWindow (begun s (.awinDecl oaw)) 1) 0 (spadKey 0 + 4) (lanes s * 4) = none :=
  ⟨⟨rfl, rfl⟩, runs_of (by decide), by decide, by decide, by decide, by decide, by decide, by decide⟩

/-! ### Witnesses of the tile, summary and shed statements -/

/-- Tile operands: m1, x-registers or vectors 6 and 7, with a kind. -/
def tile (kind fsa : BitVec 2) (vd va vb : BitVec 5) : OpTile :=
  { ff := false, us := false, ks := 0, fsa := fsa, fsb := 0, kind := kind, cp := 0, rp := 0, t := 1, l := false, cb := false, ca := false, pred := 0, vb := vb,
    va := va, vd := vd }

theorem witness_MatrixResults :
    (∀ i ∈ [Instr.mopa (tile 0 0 0 6 8), .mopl (tile 0 0 0 0 8)], Runs i (withVl bare 128 1)) ∧ Runs (.mops (tile 0 2 0 6 8)) (withVl bare 128 2) ∧
    Runs (.mopi (tile 2 0 0 6 8)) (withVl bare 128 0) ∧ Runs (.mopn (tile 2 1 0 6 8)) (withVl bare 128 4) ∧
    (∀ i ∈ [Instr.mrowGet (tile 0 0 3 0 7), .mrowPut (tile 0 0 0 3 7), .mcolGet (tile 0 0 3 0 7), .mcolPut (tile 0 0 0 3 7)], Runs i bare ∧ Runs i (withX bare 7 128)) ∧
    bare.hart.tile[1].differs = [] ∧ 128 ≤ (readX (withX bare 7 128) 7).toNat ∧ (readX bare 7).toNat < 128 ∧ 0 < nextLen (withVl bare 128 2) ∧ nextLen (withVl bare 0 2) = 0 :=
  ⟨fun i h => runs_of (by revert i; decide), runs_of (by decide), runs_of (by decide), runs_of (by decide),
    fun i h => ⟨runs_of (by revert i; decide), runs_of (by revert i; decide)⟩, rfl, by decide, by decide, by decide, by decide⟩

theorem witness_TileZeroing : Runs (.mzero otz) bare := runs_of (by decide)

/-- A hart with the empty summary of a type in s3 and s4. -/
def summed (ty p : Nat) : State :=
  { bare with hart := { bare.hart with sums := (bare.hart.sums.set 3 (some (emptySum ty p 0))).set 4 (some (emptySum ty p 0)) } }

/-- Operands of the SM format on s3. -/
def osm : OpSM := { l := false, cb := false, ca := false, pred := 0, b := 0, a := 4, sd := 3 }

/-- A CMS of one row of eight 32-bit counters. -/
def cmsP : Nat := 0x200301

/-- Its descriptor at the base of the scratchpad, whose address is in x4. -/
def declaring : State :=
  { withX bare 4 (W spBase) with mem := [(spadKey 0, 1), (spadKey 0 + 1, 1), (spadKey 0 + 16, 1), (spadKey 0 + 17, 3), (spadKey 0 + 18, 32)] }

theorem witness_SummaryResults :
    Runs (.sdecl osm) declaring ∧ declaring.combining = [] ∧ (readX declaring 4).toNat % 64 = 0 ∧
    (hartSpan (begun declaring (.sdecl osm)) (readX declaring 4) 64 .load).1 = begun declaring (.sdecl osm) ∧
    (match (hartSpan (begun declaring (.sdecl osm)) (readX declaring 4) 64 .load).2 with
     | .ok l => !spanPoison (begun declaring (.sdecl osm)) l && decide (descriptorSum (spanRead (begun declaring (.sdecl osm)) l) = some (emptySum 1 cmsP 0))
     | _ => false) = true ∧ overShare declaring 3 (emptySum 1 cmsP 0) = false ∧
    (∀ i ∈ [Instr.sclr osm, .smerge osm, .supdCms { osm with b := 5 }], Runs i (summed 1 cmsP)) ∧ mergeSum (emptySum 1 cmsP 0) (emptySum 1 cmsP 0) ≠ none ∧
    Runs (.supdBks osm) (summed 2 1) ∧ Runs (.supdQh { osm with b := 10 }) (summed 3 (64 * 65536)) ∧ Runs (.supdMom { osm with b := 2 }) (summed 4 1) ∧
    Runs (.supdMom { osm with b := 10 }) (summed 4 0) ∧ Runs (.supdWes { osm with b := 6 }) (withX (summed 5 4) 6 (W (10 * 65536))) ∧
    inputOk 10 32 (curSnap bare.hart) = true ∧ (∀ e ∈ activeBody bare 0, 0 + e < wesN 4) ∧ realType 10 = true ∧ nextLen (withVl bare 0 2) = 0 ∧ 0 < nextLen bare :=
  ⟨runs_of (by decide), rfl, by decide, spanWith_window _ _ _ _ _ (by decide) (by decide), by decide +kernel, by decide, fun i h => runs_of (by revert i; decide), by decide,
    runs_of (by decide), runs_of (by decide), runs_of (by decide), runs_of (by decide), runs_of (by decide), by decide, by decide, by decide, by decide, by decide⟩

theorem witness_SummaryQueries :
    (∀ c ∈ [(Instr.sqCms { osm with b := 5 }, 1, cmsP), (.sqQnt { osm with b := 5 }, 3, 64 * 65536), (.sqMomQuery { osm with b := 5 }, 4, 0),
      (.sqWes { osm with b := 5 }, 5, 4), (.sqBksEst { osm with a := 0, b := 5 }, 2, 1), (.sqBksItems { osm with cb := true, b := 30 }, 2, 1)],
      sumOf (summed c.2.1 c.2.2) 3 = some (emptySum c.2.1 c.2.2 0) ∧ (emptySum c.2.1 c.2.2 0).poison = false) ∧
    Runs (.sqCms { osm with b := 5 }) (summed 1 cmsP) ∧ Runs (.sqQnt { osm with b := 5 }) (summed 3 (64 * 65536)) ∧
    Runs (.sqMomQuery { osm with b := 5 }) (summed 4 0) ∧ Runs (.sqWes { osm with b := 5 }) (summed 5 4) ∧
    Runs (.sqBksEst { osm with a := 0, b := 5 }) (summed 2 1) ∧ Runs (.sqBksItems { osm with cb := true, b := 30 }) (withVl (summed 2 1) 4 3) :=
  ⟨by decide, runs_of (by decide), runs_of (by decide), runs_of (by decide), runs_of (by decide), runs_of (by decide), runs_of (by decide)⟩

/-- A gang with one extent of sheds on plane 0 and block 2560 of it allocated; a quota on planes 0 and 1. -/
def shedding : State :=
  { bare with
    gangs := [{ gangTest with ava := W (2 ^ 45), ng := [1] }],
    sheds := {
      failed := [2], quotas := [(0, 0, 10), (1, 0, 5)], seq := 1, extents := [(0, 5, 9)],
      blocks := [{ plane := 0, block := 2560, tenant := 0, gang := 9, partner := none, mirror := false, lost := false, overQ := false, seq := 0 }] } }

/-- The same with an extent on plane 1 as well. -/
def shedding2 : State :=
  { shedding with gangs := [{ gangTest with ava := W (2 ^ 45), ng := [1, 1] }], sheds := { shedding.sheds with extents := [(0, 5, 9), (1, 6, 9)] } }

/-- Operands of the shed instructions. -/
def osh : OpDS := { l := false, sc := 5, b := 7, a := 6, d := 5 }

theorem witness_ShedResults :
    (∀ s ∈ [shedding, shedding2], ∀ i ∈ [Instr.shalloc { osh with b := 0 }, .shallocM osh, .shfree { osh with b := 0, d := 0 }, .shstat { osh with b := 0 }],
      Runs i s) ∧
    (shedCode shedding 16 = some 4 ∧ shedCode shedding 2 = some 3 ∧ shedCode shedding 3 = some 2 ∧ shedCode shedding 0 = none) ∧
    (shedCode shedding 1 = none ∧ lowest (arenaBlocks shedding 1) (arenaFree shedding 1) = none) ∧
    (lowest (arenaBlocks shedding 0) (arenaFree shedding 0) = some 1 ∧ arenaBlock shedding 0 1 = some 2561) ∧
    (pairCode shedding 0 0 = some 4 ∧ pairCode shedding 0 1 = none ∧
      lowest (min (arenaBlocks shedding 0) (arenaBlocks shedding 1)) (fun n => arenaFree shedding 0 n && arenaFree shedding 1 n) = none) ∧
    (pairCode shedding2 0 1 = none ∧
      lowest (min (arenaBlocks shedding2 0) (arenaBlocks shedding2 1)) (fun n => arenaFree shedding2 0 n && arenaFree shedding2 1 n) = some 1 ∧
      arenaBlock shedding2 1 1 = some 3073) ∧
    (∃ b, blockAt shedding (W (2 ^ 45)) = some (some b) ∧ (W (2 ^ 45)).toNat % 2 ^ 21 = 0 ∧ (b.mirror && b.partner.isSome) = false) := by
  refine ⟨fun s hs i h => runs_of (by revert i; revert s; decide), by decide, by decide +kernel, by decide +kernel, by decide +kernel, by decide +kernel,
    ⟨_, rfl, by decide, rfl⟩⟩

/-- The place of byte o of the scratchpad window. -/
def spadHit (o : Nat) : Hit := { key := spadKey 0 + o, left := 2 ^ 21 - o, pte := 0, pteAt := 0, level := 0 }

/-- A footprint in the window that is reached at a place. -/
theorem reach_spad {b : State} {f : Foot} {acc : Acc} {l : List (Hit × Nat)}
    (h : (decide (b.hart.core < 2 ^ 30) && inWindow f.va.toNat && decide ((reach b f acc).2 = .ok l)) = true) : reach b f acc = (b, .ok l) := by
  simp only [Bool.and_eq_true, decide_eq_true_eq] at h
  exact Prod.ext (reach_window acc h.1.1 h.1.2) h.2

/-- A range in the window that is reached at a place. -/
theorem span_spad {b : State} {va : Word} {n : Nat} {acc : Acc} {l : List (Hit × Nat)}
    (h : (decide (b.hart.core < 2 ^ 30) && inWindow va.toNat && decide ((hartSpan b va n acc).2 = .ok l)) = true) : hartSpan b va n acc = (b, .ok l) := by
  simp only [Bool.and_eq_true, decide_eq_true_eq] at h
  exact Prod.ext (spanWith_window acc _ b va n h.1.1 h.1.2) h.2

/-- The window in x6, 64 bytes on in x3, and an image of one 32-bit element at its base. -/
def bulk : State :=
  { withX (withX atSpad 3 (W (spBase + 64))) 7 132 with
    mem := [(spadKey 0, 1), (spadKey 0 + 8, 2), (spadKey 0 + 19, 1)], hart := { (withX (withX atSpad 3 (W (spBase + 64))) 7 132).hart with vl := 1, tgrant := 1 } }

/-- The first bit of predicate 1 set. -/
def oneOn (s : State) : State := { s with hart := { s.hart with p := s.hart.p.set 1 1 } }

/-- Tile memory operands. -/
def otm : OpTile := { tile 0 0 0 6 0 with rp := 1, cp := 1 }

theorem witness_BulkMemoryResults :
    bulk.combining = [] ∧
    (Runs (.vcopy ovm) bulk ∧ ∀ e ∈ activeBody bulk 0,
      reach (begun bulk (.vcopy ovm)) (unitFoot (readX bulk 6) 32 e) .load = (begun bulk (.vcopy ovm), .ok [(spadHit 0, 4)]) ∧
      reach (begun bulk (.vcopy ovm)) (unitFoot (readX bulk 3) 32 e) .store = (begun bulk (.vcopy ovm), .ok [(spadHit 64, 4)])) ∧
    (Runs (.vspill ovm) bulk ∧ bulk.hart.vstart = 0 ∧ 0 < nextLen bulk ∧ (readX bulk 6).toNat % 64 = 0 ∧
      (∀ j, j < 4 → reach (begun bulk (.vspill ovm)) { va := readX bulk 6 + W (16 * j), bit := 0, wm := 128 } .store =
        (begun bulk (.vspill ovm), .ok [(spadHit (16 * j), 16)])) ∧
      (∀ e, e < nextLen bulk → reach (begun bulk (.vspill ovm)) { va := readX bulk 6 + W (64 + e * 4), bit := 0, wm := 32 } .store =
        (begun bulk (.vspill ovm), .ok [(spadHit (64 + e * 4), 4)])) ∧
      (hartSpan (begun bulk (.vspill ovm)) (readX bulk 6) 64 .store).1 = begun bulk (.vspill ovm)) ∧
    (Runs (.vfill ovm) bulk ∧ hartSpan (begun bulk (.vfill ovm)) (readX bulk 6) 64 .load = (begun bulk (.vfill ovm), .ok [(spadHit 0, 64)]) ∧
      spanPoison (begun bulk (.vfill ovm)) [(spadHit 0, 64)] = false ∧ spanRead (begun bulk (.vfill ovm)) [(spadHit 0, 64)] = 1 + 2 ^ 65 + 2 ^ 152 ∧
      hartSpan (begun bulk (.vfill ovm)) (readX bulk 6 + W 64) 4 .load = (begun bulk (.vfill ovm), .ok [(spadHit 64, 4)]) ∧
      min (ceilDiv ((1 + 2 ^ 65 + 2 ^ 152) % 2 ^ 64 * widthOf ((1 + 2 ^ 65 + 2 ^ 152) / 2 ^ 64 % 8)) 8) (vrlen bulk) = 4) ∧
    (let s := withVl bulk 32 2
     let b := begun s (.vldc ovm)
     Runs (.vldc ovm) s ∧ stagingOf b (readX s 6) = none ∧ hartSpan b (readX s 6) 132 .load = (b, .ok [(spadHit 0, 132)]) ∧ (readX s 7).toNat = 132 ∧
     (∃ m, srcRead b (.memory [(spadHit 0, 132)]) 0 4 = .ok m ∧ 4 + 4 * popN 32 m ≤ 132 ∧
      ∃ v, srcRead b (.memory [(spadHit 0, 132)]) 4 (4 * popN 32 m) = .ok v)) ∧
    (let s := withVl bulk 4 2
     let b := begun s (.vstc ovm)
     Runs (.vstc ovm) s ∧ hartSpan b (readX s 6) (min 132 (4 + 4 * 32)) .store = (b, .ok [(spadHit 0, 132)]) ∧
     (∀ e, e < nextLen s → active s 0 e = true → elP s 3 e 32 = false ∧ activeP s 0 e = false)) ∧
    (Runs (.mgrow (tile 0 2 0 2 6)) bulk ∧ growRow (tile 0 2 0 2 6) (begun bulk (.mgrow (tile 0 2 0 2 6))) 32 4 (begun bulk (.mgrow (tile 0 2 0 2 6))) 0 =
      (begun bulk (.mgrow (tile 0 2 0 2 6)), .ok [(spadHit 0, 4)])) ∧
    ((readX bulk 6).toNat % 4 = 0 ∧ (oneOn bulk).hart.tile[1].differs = [] ∧ Runs (.mld otm) (oneOn bulk) ∧ Runs (.mst otm) (oneOn bulk) ∧
      hartSpan (begun (oneOn bulk) (.mld otm)) (readX bulk 6) 4 .load = (begun (oneOn bulk) (.mld otm), .ok [(spadHit 0, 4)]) ∧
      hartSpan (begun (oneOn bulk) (.mst otm)) (readX bulk 6) 4 .store = (begun (oneOn bulk) (.mst otm), .ok [(spadHit 0, 4)])) := by
  refine ⟨rfl, ⟨runs_of (by decide), fun e he => ?_⟩, ⟨runs_of (by decide), rfl, by decide, by decide, fun j hj => reach_spad (by revert j; decide +kernel),
    fun e he => reach_spad (by revert e; decide +kernel), spanWith_window _ _ _ _ _ (by decide) (by decide)⟩,
    ⟨runs_of (by decide), span_spad (by decide +kernel), by decide +kernel, by decide +kernel, span_spad (by decide +kernel), by decide +kernel⟩,
    ⟨runs_of (by decide), by decide +kernel, span_spad (by decide +kernel), by decide, ⟨1, by decide +kernel, by decide, ⟨_, rfl⟩⟩⟩,
    ⟨runs_of (by decide), span_spad (by decide +kernel), by decide +kernel⟩, ⟨runs_of (by decide), ?_⟩,
    by decide, rfl, runs_of (by decide), runs_of (by decide), span_spad (by decide +kernel), span_spad (by decide +kernel)⟩
  · obtain rfl := active_one rfl he
    exact ⟨reach_spad (by decide +kernel), reach_spad (by decide +kernel)⟩
  · have h : hartSpan (begun bulk (.mgrow (tile 0 2 0 2 6))) (W spBase) 4 .load = (begun bulk (.mgrow (tile 0 2 0 2 6)), .ok [(spadHit 0, 4)]) :=
      span_spad (by decide +kernel)
    have ra : srcX (begun bulk (.mgrow (tile 0 2 0 2 6))) (tile 0 2 0 2 6).vb +
        W (elG (begun bulk (.mgrow (tile 0 2 0 2 6))) (tile 0 2 0 2 6).va.toNat 0 32) * srcX (begun bulk (.mgrow (tile 0 2 0 2 6))) (tile 0 2 0 2 6).vd = W spBase := by
      decide +kernel
    unfold growRow
    rw [if_neg (by decide +kernel)]
    simp only [ra]
    rw [if_neg (by decide), h]

/-- A declared window of one 32-bit word at the base of the scratchpad; x6 and the table lie there. -/
def windowed : State := { oneSpad with hart := { oneSpad.hart with win := oneSpad.hart.win.set 1 (some { op := 0, w := 32, table := W spBase, len := 1 }) } }

/-- An empty CMS in s3 and its image at the base of the scratchpad, whose address is in x4. -/
def imaged : State :=
  { withX (summed 1 cmsP) 4 (W spBase) with mem := Memory.writeN [] (spadKey 0) 160 (sumImage (emptySum 1 cmsP 0)) }

/-- The image's header and body as numbers. -/
def imageLow : Nat := sumImage (emptySum 1 cmsP 0) % 2 ^ 512

/-- The rest of it. -/
def imageHigh : Nat := sumImage (emptySum 1 cmsP 0) / 2 ^ 512

/-- A page of a Loft module at 3 * 2^39, whose address is in x4, with an empty CMS in s3. -/
def celled : State := withX { summed 1 cmsP with mem := (paged [(0x2018, 0xDF), (0x201E, 0x04)]).mem } 4 (W (3 * 2 ^ 39))

/-- The place of byte o of that page. -/
def loftHit (o : Nat) : Hit := { key := 0x0010000000000000 + o, left := 2 ^ 39 - o, pte := 0x00040000000000DF, pteAt := 0x2018, level := 3 }

/-- A piece of a range in a page whose leaf carries its bits. -/
theorem piece_done {b : State} {va : Word} {n : Nat} {acc : Acc} {h : Hit} (hf : findPlace b va 1 acc = .ok h) (hg : grantPlace b va acc h = (b, .ok h))
    (hb : blockHit h = h) (hl : lateFault b va h.key (min n h.left) = none) : hartPiece acc b va n = (b, .ok h) := by
  unfold hartPiece resolve
  simp only [hf, hg, hb, hl]

/-- A byte in one such page. -/
theorem resolve_done {b : State} {va : Word} {acc : Acc} {h : Hit} (hf : findPlace b va 1 acc = .ok h) (hg : grantPlace b va acc h = (b, .ok h)) :
    resolve b va 1 acc = (b, .ok h) := by
  unfold resolve
  simp only [hf, hg]

/-- A range in one such page. -/
theorem span_done {b : State} {va : Word} {n : Nat} {acc : Acc} {h : Hit} (h0 : 0 < n) (hn : n ≤ h.left) (hp : hartPiece acc b va n = (b, .ok h)) :
    hartSpan b va n acc = (b, .ok [(h, n)]) := by
  unfold hartSpan spanFuel spanWith
  rw [if_neg (by omega), hp]
  simp only [Nat.min_eq_left hn, Nat.sub_self]
  unfold spanWith
  rfl

/-- A cell in one such page of a Loft module passes its check. -/
theorem cell_done {b : State} {va : Word} {n k : Nat} {h : Hit} (hl : resolve b va 1 .load = (b, .ok h)) (hs : resolve b va 1 .store = (b, .ok h))
    (ho : isLoftKey h.key = true) (hn : n ≤ h.left) : cellFault b (k + 1) va n = (b, .ok ()) := by
  unfold cellFault
  simp only [hl, hs, ho, hn]
  simp

theorem witness_SummaryMemoryResults :
    (windowed.combining = [] ∧ windowed.hart.win[1] = some { op := 0, w := 32, table := W spBase, len := 1 } ∧
      Runs (.awinUpd { oaw with a := 1, b := 2 }) windowed ∧ MemoryOk windowed ∧ windowed.hart.vstart = 0 ∧ nextLen windowed = 1 ∧ active windowed 0 0 = true ∧
      elP windowed 1 0 32 = false ∧ el windowed 1 0 32 < 1) ∧
    (Runs (.awinMerge { oaw with a := 0, b := 0 }) windowed ∧
      (checkAccess (begun windowed (.awinMerge { oaw with a := 0, b := 0 })) (W spBase + W 0) 4 4 .store).2 = .ok (spadHit 0)) ∧
    ((readX imaged 4).toNat % 64 = 0 ∧ sumOf imaged 3 = some (emptySum 1 cmsP 0) ∧ Runs (.sst osm) imaged ∧
      ∀ j, j < 10 → reach (begun imaged (.sst osm)) { va := readX imaged 4 + W (16 * j), bit := 0, wm := 128 } .store =
        (begun imaged (.sst osm), .ok [(spadHit (16 * j), 16)])) ∧
    (Runs (.sld osm) imaged ∧ Runs (.smergeM osm) imaged ∧ sameKindSum (emptySum 1 cmsP 0) (emptySum 1 cmsP 0) = true ∧
      sameKindSum (emptySum 1 cmsP 1) (emptySum 1 cmsP 0) = false ∧
      (let b := begun imaged (.sld osm)
       hartSpan b (readX imaged 4) 64 .load = (b, .ok [(spadHit 0, 64)]) ∧ spanPoison b [(spadHit 0, 64)] = false ∧
       hartSpan b (readX imaged 4 + 64) 96 .load = (b, .ok [(spadHit 64, 96)]) ∧ spanPoison b [(spadHit 64, 96)] = false ∧
       spanRead b [(spadHit 0, 64)] = imageLow ∧ spanRead b [(spadHit 64, 96)] = imageHigh) ∧
      headerSum imageLow = some (emptySum 1 cmsP 0) ∧ imageSum (emptySum 1 cmsP 0) (imageLow + imageHigh * 2 ^ 512) = some (emptySum 1 cmsP 0) ∧
      overShare imaged 3 (emptySum 1 cmsP 0) = false) ∧
    (Runs (.scmt osm) celled ∧ (readX celled 4).toNat % 128 = 0 ∧ (∃ m, sumOf celled 3 = some m ∧ m.poison = false) ∧
      (let b := begun celled (.scmt osm)
       hartSpan b (readX celled 4) 64 .load = (b, .ok [(loftHit 0, 64)]) ∧ hartSpan b (readX celled 4 + 64) 64 .load = (b, .ok [(loftHit 64, 64)]) ∧
       cellFault b (spanFuel 640) (readX celled 4) 640 = (b, .ok ()) ∧
       newerSeal (sealValid (spanRead b [(loftHit 0, 64)]) (spanPoison b [(loftHit 0, 64)]))
         (sealValid (spanRead b [(loftHit 64, 64)]) (spanPoison b [(loftHit 64, 64)])) = none ∧
       persisted b b.hart.cur.epoch = true ∧ (commitImage osm (emptySum 1 cmsP 0) (0, 0) b).hart.cur.fault = none ∧
       (commitImage osm (emptySum 1 cmsP 0) (0, 0) b).hart.cur.phase = 1)) := by
  refine ⟨⟨rfl, rfl, runs_of (by decide), by unfold MemoryOk; decide, rfl, rfl, rfl, by decide +kernel, by decide +kernel⟩,
    ⟨runs_of (by decide), by decide +kernel⟩,
    ⟨by decide +kernel, by decide, runs_of (by decide +kernel), fun j hj => reach_spad (by revert j; decide +kernel)⟩,
    ⟨runs_of (by decide +kernel), runs_of (by decide +kernel), by decide, by decide, ⟨span_spad (by decide +kernel), by decide +kernel, span_spad (by decide +kernel), by decide +kernel,
      by decide +kernel, by decide +kernel⟩, by decide +kernel, by decide +kernel, by decide +kernel⟩,
    ⟨runs_of (by decide +kernel), by decide +kernel, ⟨_, rfl, rfl⟩, ?_⟩⟩
  refine ⟨span_done (by decide) (by decide) (piece_done (by decide +kernel) (grantPlace_done (by decide) (by decide) (by decide) (by decide)) (by decide) (by decide +kernel)),
    span_done (by decide) (by decide) (piece_done (by decide +kernel) (grantPlace_done (by decide) (by decide) (by decide) (by decide)) (by decide) (by decide +kernel)),
    cell_done (h := loftHit 0) (resolve_done (by decide +kernel) (grantPlace_done (by decide) (by decide) (by decide) (by decide)))
      (resolve_done (by decide +kernel) (grantPlace_done (by decide) (by decide) (by decide) (by decide))) (by decide) (by decide),
    by decide +kernel, by decide +kernel, by decide +kernel, by decide +kernel⟩

theorem witness_SummaryMemoryResults_wait :
    let s := release celled (mkStore celled (loftHit 0x1000) 8 1 (256 ^ 8 - 1) false .vector 0)
    Runs (.scmt osm) s ∧ (∃ m, sumOf s 3 = some m ∧ m.poison = false) ∧
      persisted (begun s (.scmt osm)) (begun s (.scmt osm)).hart.cur.epoch = false :=
  ⟨runs_of (by decide +kernel), ⟨_, rfl, rfl⟩, by decide +kernel⟩

/-! ### Witnesses of the access statements -/

/-- The fields of an access-class instruction: x6 and x7 name its operands, x5 takes its result. -/
def oac : OpAC := { po := 0, tk := 0, b := 7, a := 6, d := 5 }

/-- The same with b = 0. -/
def oac0 : OpAC := { oac with b := 0 }

/-- A queue of n old entries. -/
noncomputable def filled (n : Nat) : State := { bare with hart := { bare.hart with aq := List.replicate n (mkEntry bare (.asend oac) false) } }

/-- A register that is bound. -/
def bindsOne : State := { bare with hart := { bare.hart with binds := [(5, .stream 1)] } }

theorem witness_AccessPosting : (∀ i ∈ [Instr.astOpen oac, .astClose oac, .astRun oac, .arBind oac, .arUnbind oac, .acol oac, .asend oac, .arecv oac, .aflip oac],
      NoHold bare (xsrcOf i) ∧ bare.hart.aq.length < 128 ∧ NoHold (filled 128) (xsrcOf i)) ∧
    128 ≤ (filled 128).hart.aq.length ∧
    anyHeld (postConvoy bare [.vfoldFadd { ov with vd := 6 }] 4) (xsrcOf (.astOpen oac)) = true ∧
    oac.b ≠ 0 ∧ boundTo bindsOne.hart oac.d.toNat ≠ none ∧ bindsOne.hart.vq = [] := by unfold NoHold; decide +kernel

/-- A value that a read gives, with a property. -/
theorem read_of {α : Type} {r : State × Except (Option Trap) α} (P : State → α → Bool) (h : (match r with | (u, .ok v) => P u v | _ => false) = true) :
    ∃ u v, r = (u, .ok v) ∧ P u v = true := by
  obtain ⟨u, x⟩ := r
  cases x with
  | ok v => exact ⟨u, v, rfl, h⟩
  | error t => cases h

/-- A move that goes on. -/
theorem go_of {r : Try} (h : (match r with | .go _ => true | _ => false) = true) : ∃ t, r = .go t := by
  cases r with
  | go t => exact ⟨t, rfl⟩
  | blocked => cases h
  | trap t => cases h

/-- An entry of the queue, whose x6 is `a` and whose x7 is `b`. -/
def aqEntry (i : Instr) (p : Progress) (a b : Word) : AqEntry :=
  { addr := 0x10000, instr := i, snap := curSnap bare.hart, xs := (bare.hart.x.set 6 a).set 7 b, epoch := 0, taken := none, progress := p, vqAhead := 0, early := false }

/-- The hart with one entry in its queue, these cells of memory, and one open record if `r` gives one. -/
def busy (e : AqEntry) (m : List Host.Cell) (r : List Stream) : State :=
  { paged m with hart := { bare.hart with aq := [e], streams := r } }

/-- An in-stream of 64 bytes in DRAM at 0x10000: 32-bit elements, one slot of 64 bytes at 4096 of the partition. -/
def inStream : Stream :=
  { handle := 1, recAddr := W spBase, out := false, comp := 0, ew := 32, scope := 2, srck := 0, addr := 0x10000, len := 64, ch := 64, rbase := 4096,
    rbytes := 64, permits := 0, pos := 0, ring := [], staged := [], eaten := 0, exhausted := false, failed := false }

/-- Its record. -/
def recordBits : Nat := 1 + 2 * 2 ^ 24 + 2 * 2 ^ 32 + 0x10000 * 2 ^ 64 + 64 * 2 ^ 128 + 64 * 2 ^ 192 + 4096 * 2 ^ 224 + 64 * 2 ^ 256

/-- A transfer descriptor: 16 bytes at 0x10000, module 1, hart 0, TAG 7. -/
def descBits : Nat := 0x10000 + 16 * 2 ^ 64 + 1 * 2 ^ 128 + 7 * 2 ^ 160

/-- A route table of an integer sum over two participants: one slot of 64 bytes, one COPY-IN; the participants lie 256 bytes above it, the status record in DRAM. -/
def routeBits : Nat :=
  1 + 2 * 2 ^ 16 + 2 * 2 ^ 32 + 1 * 2 ^ 48 + 1 * 2 ^ 64 + 64 * 2 ^ 96 + (spBase + 256) * 2 ^ 256 + 0x20000 * 2 ^ 512 + 5 * 2 ^ 1024

/-- The page at 2^40 with a shadow: a leaf of 4 KiB behind three tables. -/
def shadowTables : List Host.Cell :=
  [(0x2010, 0x01), (0x2011, 0x0C), (0x3000, 0x01), (0x3001, 0x10), (0x4000, 0x01), (0x4001, 0x14), (0x5000, 0xDF), (0x5001, 0x80), (0x5007, 0x10)]

/-- The memory of a scratchpad that holds a number at its base. -/
def padded (n v : Nat) : List Host.Cell := Memory.writeN [] (spadKey 0) n v

theorem nextEntry_busy {e : AqEntry} {m : List Host.Cell} {r : List Stream} (h : (isFresh e && (takeOf e).isNone) = true) : NextEntry (busy e m r) 0 e := by
  simp only [Bool.and_eq_true, Option.isNone_iff_eq_none] at h
  exact ⟨rfl, by simp [busy, h.1], rfl, .inl h.2, rfl, by simp [busy, acquireIn, bare, Hart.reset]⟩

theorem witness_AccessEntryStarts :
    (∃ w, let e := aqEntry (.arUnbind { oac with tk := 1 }) .fresh 0 0
      let s := { busy e [] [] with hart := { (busy e [] []).hart with pennants := bare.hart.pennants.set 1 [5] } }
      s.hart.run = .running ∧ s.hart.aq.findIdx? isFresh = some 0 ∧ takeOf e = some 1 ∧ pnList s.hart 1 = [5] ∧
        ofRole s.hart e.addr = true ∧ acquireIn (s.hart.vq.take e.vqAhead) = false ∧ startEntry (setEntry (pnSet s 1 []) 0 { e with taken := some 5 }) 0 { e with taken := some 5 } = .go w) ∧
    (let e := aqEntry (.astOpen oac) .fresh (W spBase) 0
     NextEntry (busy e (padded 64 recordBits) []) 0 e ∧ ∃ u v, aqRead (busy e (padded 64 recordBits) []) (entryX e 6) 64 64 = (u, .ok v) ∧
       ((recordOf u (entryX e 6) v).isSome && (freeHandle u).isSome) = true) ∧
    (let e := aqEntry (.astClose oac) .fresh 1 0
     NextEntry (busy e [] [inStream]) 0 e ∧ streamOf (busy e [] [inStream]) (entryX e 6).toNat = some inStream ∧ MemoryOk (busy e [] [inStream]) ∧ e.early = false ∧
       (busy e [] [inStream]).hart.vq = [] ∧ ∀ h ∈ harts (busy e [] [inStream]), h.storeQ = []) ∧
    (let e := aqEntry (.arBind oac) .fresh 1 0
     NextEntry (busy e [] [inStream]) 0 e ∧ streamOf (busy e [] [inStream]) (entryX e 6).toNat = some inStream ∧ (busy e [] [inStream]).hart.bound = []) ∧
    (∀ b ∈ [(0 : Word), 1], let e := aqEntry (.astRun oac) .fresh 1 b
     NextEntry (busy e [] [inStream]) 0 e ∧ streamOf (busy e [] [inStream]) (entryX e 6).toNat = some inStream ∧
       ∃ h, findPlace (busy e [] [inStream]) inStream.addr 1 .load = .ok h ∧ (placeOf (busy e [] [inStream]) h.key).bind srckOf = some 0 ∧
         inReach (busy e [] [inStream]) inStream.addr h.key 2 = true) ∧
    (let e := aqEntry (.acol oac) .fresh (W spBase) 0
     let s := busy e (Memory.writeN (padded 144 routeBits) (spadKey 0 + 256) 16 (2 ^ 64)) []
     NextEntry s 0 e ∧ ∃ t, startColl oac s 0 e = .go t) ∧
    (let e := aqEntry (.arecv oac) .fresh (W spBase) 0
     NextEntry (busy e (padded 32 descBits) []) 0 e ∧ ∃ u v, aqRead (busy e (padded 32 descBits) []) (entryX e 6) 32 32 = (u, .ok v) ∧
       (descRead v).isSome = true) ∧
    (let e := aqEntry (.asend oac) .fresh (W spBase) 0
     NextEntry (busy e (padded 32 descBits) []) 0 e ∧ ∃ u v, aqRead (busy e (padded 32 descBits) []) (entryX e 6) 32 32 = (u, .ok v) ∧
       (descRead v).any (fun t => decide ((t.peerModule, t.peerHart) ∉ u.peersFailed)) = true) ∧
    (let e := aqEntry (.asend oac) .fresh (W spBase) 0
     let s := { busy e (padded 32 descBits) [] with peersFailed := [(1, 0)] }
     NextEntry s 0 e ∧ ∃ u v, aqRead s (entryX e 6) 32 32 = (u, .ok v) ∧
       (descRead v).any (fun t => decide ((t.peerModule, t.peerHart) ∈ u.peersFailed)) = true) ∧
    (∀ b ∈ [(0 : Word), 4096], let e := aqEntry (.aflip { oac with d := 2 }) .fresh (W (2 ^ 40)) b
     let s := busy e shadowTables []
     NextEntry s 0 e ∧ (entryX e 6).toNat % 4096 = 0 ∧ (entryX e 7).toNat % 4096 = 0 ∧ ∃ h, findPlace s (entryX e 6) 1 .load = .ok h ∧
       inReach s (entryX e 6) h.key 2 = true ∧ isSpadKey h.key = false ∧
       (match shadowPages s 1 1 (entryX e 6) with | .ok l => !flipHeld s 1 (entryX e 6) 4096 l | .error _ => false) = true) := by
  refine ⟨⟨_, rfl, rfl, rfl, rfl, rfl, rfl, rfl⟩, ⟨nextEntry_busy (by decide), read_of _ (by decide +kernel)⟩,
    ⟨nextEntry_busy (by decide), rfl, by unfold MemoryOk; decide, rfl, rfl, by decide⟩,
    ⟨nextEntry_busy (by decide), rfl, rfl⟩, fun b hb => ?_, ⟨nextEntry_busy (by decide), go_of (by decide +kernel)⟩,
    ⟨nextEntry_busy (by decide), read_of _ (by decide +kernel)⟩, ⟨nextEntry_busy (by decide), read_of _ (by decide +kernel)⟩,
    ⟨nextEntry_busy (m := padded 32 descBits) (r := []) (by decide), read_of _ (by decide +kernel)⟩, fun b hb => ?_⟩
  · rcases (by simpa using hb : b = 0 ∨ b = 1) with rfl | rfl <;>
      exact ⟨nextEntry_busy (by decide), rfl, { key := 0x10000, left := 2 ^ 39 - 0x10000, pte := 0xDF, pteAt := 0x2000, level := 3 }, by decide +kernel,
        by decide +kernel, by decide +kernel⟩
  · rcases (by simpa using hb : b = 0 ∨ b = 4096) with rfl | rfl <;>
      exact ⟨nextEntry_busy (by decide), by decide, by decide, { key := 0x20000, left := 4096, pte := 0x10000000000080DF, pteAt := 0x5000, level := 0 },
        by decide +kernel, by decide +kernel, by decide +kernel, by decide +kernel⟩

/-- An out-stream with one pushed chunk of 64 bytes. -/
def outStream : Stream := { inStream with out := true, ring := [{ val := 5, cells := 0 }] }

/-- A run of a record. -/
noncomputable def runEntry : AqEntry := aqEntry (.astRun oac) (.run 0 0 false) 1 4

/-- A collective of two participants, this hart and hart 0 of module 1, at one step; slot 0 holds a contribution of `x` and slot 1 one of `y`. -/
def collAt (st : RouteStep) (x y : Nat) : Coll :=
  { op := 0, ewc := 2, etype := 0, npart := 2, self := 0, nslot := 2, ch := 64, cid := 77, timeout := 100, parts := [(0, 0), (1, 0)], slotsAt := 0, localAt := 0,
    destAt := 0, statusAt := 0x20000, steps := [st], stepNo := 0, since := 0,
    slots := [{ data := { val := 3, cells := 0 }, mask := x, late := 0 }, { data := { val := 4, cells := 0 }, mask := y, late := 0 }],
    inq := [{ val := 9, cells := 0 }], outq := [], mask := 2 ^ 64 - 1, flushed := 0, lost := 0, awaiting := [], destSet := false, failed := false, merged := false }

/-- Its entry. -/
noncomputable def collEntry (c : Coll) : AqEntry := aqEntry (.acol oac) (.coll c) (W spBase) 0

/-- A step of a kind with peer 1 and slots 0 and 1. -/
def stepOf (k : Nat) : RouteStep := { kind := k, peer := 1, sa := 0, sb := 1, tag := 8 }

/-- What participant 1 sends. -/
def messageTo (cid : Option Nat) (tag : Nat) (bytes : List (Byte × Bool)) : Message :=
  { toModule := 0, toHart := 0, fromModule := 1, fromHart := 0, cid := cid, part := 1, tag := tag, data := { val := 6, cells := 0 }, bytes := bytes, total := bytes.length,
    offset := 0, came := 0, mask := 2, late := 0, lateOf := none }

/-- A hart at a step of a collective, with messages in its ports. -/
noncomputable def collState (c : Coll) (l : List Message) : State := { busy (collEntry c) [] [] with inbox := l, time := 1000 }

theorem atStep_of (st : RouteStep) (x y : Nat) (l : List Message) :
    AtStep (collState (collAt st x y) l) 0 (collEntry (collAt st x y)) (collAt st x y) st := ⟨rfl, rfl, ⟨_, rfl⟩, rfl, rfl, rfl, (by decide : 0 ≠ 2), rfl⟩

/-- An SMERGE whose steps are over, and which awaits the image of participant 1. -/
def lateColl : Coll := { collAt (stepOf 2) 0 0 with op := 2, stepNo := 1, awaiting := [(0, 1)] }

/-- Sixteen bytes at 0x10000 that are exchanged with hart 0 of module 1 under TAG 7. -/
def transfer16 : Transfer := { addr := 0x10000, len := 16, peerModule := 1, peerHart := 0, tag := 7, pos := 0, total := none }

/-- A receive of them, whose sender's packet of n bytes has come. -/
noncomputable def receiving (n : Nat) : State :=
  { busy (aqEntry (.arecv oac) (.transfer transfer16) 0 0) [] [] with inbox := [{ messageTo none 7 (List.replicate 16 (1, false)) with total := n }] }

/-- A send of n bytes from 0x10000. -/
noncomputable def sending (n : Nat) : State := busy (aqEntry (.asend oac) (.send { transfer16 with len := n }) 0 0) [] []

theorem witness_AccessEntryUnits :
    (RunsRecord (busy runEntry [] [inStream]) 0 runEntry inStream ∧ inStream.ring.length < ringLimit inStream ∧
      (match sourceRead (busy runEntry [] [inStream]) (inStream.addr + W inStream.pos) 64 with
       | (t, .ok _) => decide (t.hart = bare.hart ∨ t.hart = (busy runEntry [] [inStream]).hart)
       | _ => false) = true) ∧
    (RunsRecord (busy runEntry [] [outStream]) 0 runEntry outStream ∧ outStream.pos + (chunkBytes outStream { val := 5, cells := 0 }).length ≤ outStream.len ∧
      hartSpan (busy runEntry [] [outStream]) (outStream.addr + W outStream.pos) (chunkBytes outStream { val := 5, cells := 0 }).length .engineStore =
        (busy runEntry [] [outStream], .ok [({ key := 0x10000, left := 2 ^ 39 - 0x10000, pte := 0xDF, pteAt := 0x2000, level := 3 }, 64)])) ∧
    (∀ k ∈ [1, 2, 3, 4, 5, 6], AtStep (collState (collAt (stepOf k) 1 2) []) 0 (collEntry (collAt (stepOf k) 1 2)) (collAt (stepOf k) 1 2) (stepOf k)) ∧
    ((takeMessage (collState (collAt (stepOf 2) 0 0) [messageTo (some 77) 8 []]) (recvMatches (collState (collAt (stepOf 2) 0 0) [messageTo (some 77) 8 []])
      (collAt (stepOf 2) 0 0) (stepOf 2))).any (fun m => m.1.late == 0) = true) ∧
    ((slotOf (collAt (stepOf 3) 1 0) 1).mask = 0 ∧ (slotOf (collAt (stepOf 3) 0 2) 0).mask = 0 ∧ (slotOf (collAt (stepOf 3) 1 2) 1).mask ≠ 0) ∧
    (let s := collState (collAt (stepOf 2) 0 0) []
     let c := collAt (stepOf 2) 0 0
     s.inbox.find? (recvMatches s c (stepOf 2)) = none ∧ c.parts.getD 1 (0, 0) ∉ s.peersFailed ∧ c.timeout ≠ 0 ∧ c.since + c.timeout ≤ s.time ∧
      s.others = [] ∧ c.parts.getD 1 (0, 0) = ((1 : BitVec 6).toNat, (0 : BitVec 16).toNat) ∧ bitN (collEntry c).snap.repro.toNat 0 = false ∧
      bitN { (collEntry c) with snap := { (collEntry c).snap with repro := 1 } }.snap.repro.toNat 0 = true) ∧
    (∃ t, mergeLate { collState lateColl [{ messageTo (some 77) 8 [] with mask := 0 }] with hart := (collState lateColl []).hart } 0 (collEntry lateColl) lateColl = .go t) ∧
    (bare.hart.run = .running ∧ isMine bare (messageTo (some 77) 8 []) = true ∧
      (77, 1, 8) ∈ ({ bare with hart := { bare.hart with flushed := [(77, 1, 8)] } } : State).hart.flushed) ∧
    (∀ n ∈ [16, 32], ∃ m u, takeMessage (receiving n) (transferMatches (receiving n) transfer16) = some (m, u) ∧ m.total = n ∧ m.offset + m.bytes.length = 16 ∧
      olderRecv (receiving n) 0 transfer16 = false ∧ hartSpan u 0x10000 (m.bytes.take 16).length .engineStore =
        (u, .ok [({ key := 0x10000, left := 2 ^ 39 - 0x10000, pte := 0xDF, pteAt := 0x2000, level := 3 }, 16)])) ∧
    (∀ n ∈ [16, 512], (sending n).peersFailed = [] ∧ olderSend (sending n) 0 { transfer16 with len := n } = false ∧
      retryBytes (sending n) + min 256 n ≤ 8 * 2 ^ 20 ∧ (sourceRead (sending n) 0x10000 (min 256 n)).2.isOk = true) := by
  refine ⟨⟨⟨rfl, by decide +kernel, rfl, ⟨_, rfl, rfl⟩, ⟨_, _, _, rfl⟩, rfl, rfl⟩, by decide, by decide +kernel⟩,
    ⟨⟨rfl, by decide +kernel, rfl, ⟨_, rfl, rfl⟩, ⟨_, _, _, rfl⟩, rfl, rfl⟩, by decide, ?_⟩, fun k _ => atStep_of _ _ _ _, by decide, by decide,
    ⟨by decide, by decide, by decide, by decide, rfl, rfl, by decide, by decide⟩, go_of (by decide +kernel), ⟨rfl, by decide, by decide⟩, fun n hn => ?_,
    by decide +kernel⟩
  · exact span_done (by decide) (by decide) (piece_done (by decide +kernel) (grantPlace_done (by decide) (by decide) (by decide) (by decide)) (by decide) (by decide +kernel))
  · rcases (by simpa using hn : n = 16 ∨ n = 32) with rfl | rfl <;>
      exact ⟨_, _, rfl, rfl, rfl, by decide, span_done (by decide) (by decide)
        (piece_done (by decide +kernel) (grantPlace_done (by decide) (by decide) (by decide) (by decide)) (by decide) (by decide +kernel))⟩

/-! ### Witnesses of the vector-queue statements -/

/-- One word of code at the program counter. -/
def coded (w : Nat) : State := paged (Memory.writeN [] 0x10000 4 w)

/-- The members that the convoy at the program counter gathers, and whether an instruction of another class follows a linked one. -/
noncomputable def gathered (s : State) : List Got × Bool := (gather s s.hart.pc 4).2

/-- The condition that stops its posting. -/
noncomputable def condition (s : State) : Option (Trap × Nat) := firstCondition (dctx s) (gotInstrs (gathered s).1).head? (gathered s).2 0 (gathered s).1

/-- The code `vfma.f32 v3, v1, v2^`, which no width of 8 bits admits. -/
def fmaCode : State := coded 0x0808238D

theorem witness_ConvoySteps :
    ((withVl fmaCode 4 0).hart.run = .running ∧ ∃ tr j, condition (withVl fmaCode 4 0) = some (tr, j) ∧ tr.cause ≠ .halt) ∧
    (condition fmaCode = none ∧ gotStall (gathered fmaCode).1 = false ∧ gotInstrs (gathered fmaCode).1 ≠ [] ∧
      postWait fmaCode (gotInstrs (gathered fmaCode).1) = none ∧ fmaCode.hart.vq = []) ∧
    (let s := { fmaCode with hart := { fmaCode.hart with vq := queued.hart.vq } }
     condition s = none ∧ postWait s (gotInstrs (gathered s).1) = none ∧ s.hart.vq ≠ []) ∧
    (let s := { fmaCode with hart := { fmaCode.hart with vq := (List.replicate 256 (queued.hart.vq.headD (mkConvoy bare []))) } }
     condition s = none ∧ gotStall (gathered s).1 = false ∧ gotInstrs (gathered s).1 ≠ [] ∧ postWait s (gotInstrs (gathered s).1) = some .full) := by
  refine ⟨⟨rfl, ⟨.illegal, W 0x0808238D⟩, 0, by decide +kernel, by decide⟩, ⟨by decide +kernel, by decide +kernel, by decide +kernel, by decide +kernel, rfl⟩,
    ⟨by decide +kernel, by decide +kernel, by decide⟩, ⟨by decide +kernel, by decide +kernel, by decide +kernel, by decide +kernel⟩⟩

/-- The hart with one convoy in its queue, of whose renamed micro-operations `issued` have issued and `done` are complete. -/
def convoyed (s : State) (i : Instr) (renamed issued done : Nat) : State :=
  { postConvoy s [i] 4 with hart := { (postConvoy s [i] 4).hart with
    renamed := [renamed], issued := (List.range issued).map fun k => (0, k), complete := (List.range done).map fun k => (0, k) } }

/-- Its convoy. -/
def headOf (s : State) : Convoy := s.hart.vq.headD (mkConvoy s [])

/-- A commit at the head in phase k. -/
noncomputable def committing (k : Nat) : State :=
  { celled with hart := { celled.hart with vq := [{ mkConvoy celled [.scmt osm] with phase := k }] } }

theorem scmt_seal {s : State} {f : OpSM} {m : Summary} (hs : sumOf s f.sd.toNat = some m) (hp : m.poison = false) (h1 : s.hart.cur.phase = 1)
    (hd : durableUpTo s s.hart.cur.epoch = true) : (memScmt f).run s = commitSeal f m s := by
  simp [memScmt, withSum, hs, hp, h1, commitPhase, hd]

theorem scmt_image {s : State} {f : OpSM} {m : Summary} {h k : Hit} (hs : sumOf s f.sd.toNat = some m) (hp : m.poison = false) (h1 : s.hart.cur.phase = 0)
    (hm : (srcX s f.a).toNat % 128 = 0)
    (hc : cellFault s (spanFuel (0x80 + 2 * ceilTo (footprint m) 128)) (srcX s f.a) (0x80 + 2 * ceilTo (footprint m) 128) = (s, .ok ()))
    (hl : hartSpan s (srcX s f.a) 64 .load = (s, .ok [(h, 64)])) (hk : hartSpan s (srcX s f.a + 64) 64 .load = (s, .ok [(k, 64)]))
    (hf : s.combining = [])
    (hn : newerSeal (sealValid (spanRead s [(h, 64)]) (spanPoison s [(h, 64)])) (sealValid (spanRead s [(k, 64)]) (spanPoison s [(k, 64)])) = none)
    (hd : persisted s s.hart.cur.epoch = true) : (memScmt f).run s = commitImage f m (0, 0) s := by
  have h2 (l) : flushSpan s l = s := by
    induction l with
    | nil => rfl
    | cons a l ih => simpa [flushSpan, flushCombine, hf] using ih
  have hk' : hartSpan s (srcX s f.a + 64#64) 64 .load = (s, .ok [(k, 64)]) := hk
  simp [memScmt, withSum, hs, hp, h1, hm, hc, sumRead, hl, hk', h2, hn, commitPhase, hd]

theorem committing_image : (memScmt osm).run (beginConvoy (committing 0) (headOf (committing 0))) =
    commitImage osm (emptySum 1 cmsP 0) (0, 0) (beginConvoy (committing 0) (headOf (committing 0))) :=
  scmt_image (h := loftHit 0) (k := loftHit 64) (by decide +kernel) rfl (by decide +kernel) (by decide +kernel)
    (cell_done (h := loftHit 0) (resolve_done (by decide +kernel) (grantPlace_done (by decide) (by decide) (by decide) (by decide)))
      (resolve_done (by decide +kernel) (grantPlace_done (by decide) (by decide) (by decide) (by decide))) (by decide) (by decide +kernel))
    (span_done (by decide) (by decide) (piece_done (by decide +kernel) (grantPlace_done (by decide) (by decide) (by decide) (by decide)) (by decide) (by decide +kernel)))
    (span_done (by decide) (by decide) (piece_done (by decide +kernel) (grantPlace_done (by decide) (by decide) (by decide) (by decide)) (by decide) (by decide +kernel)))
    (by decide +kernel) (by decide +kernel) (by decide +kernel)

theorem committing_seal : (memScmt osm).run (beginConvoy (committing 1) (headOf (committing 1))) =
    commitSeal osm (emptySum 1 cmsP 0) (beginConvoy (committing 1) (headOf (committing 1))) :=
  scmt_seal (by decide +kernel) rfl (by decide +kernel) (by decide +kernel)

/-- A vector addition at the head of the queue. -/
def adding (renamed issued done : Nat) : State := convoyed bare (.vadd ov) renamed issued done

/-- A spliced loop at an instruction of its C body, with these stores held. -/
def looping (l : List Linked) (both : List Nat) : State :=
  let i : SpInstr := { consumer := true, orig := 0x10010, region := 2, instr := .cNop, target := 0 }
  { bare with hart := { bare.hart with pc := spliceAddr 0, splice := some {
    code := [i], consumer := false, other := roleCtx bare.hart, taken := none, unzipped := none, linked := l, tags := [3], both := both, tilesP := [],
    tilesC := [] } } }

/-- A held store without elements. -/
def heldStore (forwarded : Bool) : Linked :=
  { tag := 3, base := 0, lo := 0, hi := 0, vl := 0, ew := 32, memfmt := 0, transient := true, forwarded := forwarded, data := { val := 0, cells := 0 },
    snap := curSnap bare.hart, addr := 0x10000, index := 0, placed := [] }

/-- A held store of one element into a page that is in migration. -/
def movedStore : Linked := { heldStore false with base := W (2 ^ 40), hi := 1, vl := 1 }

/-- The page at 2^40 is in migration. -/
def moving : State :=
  { looping [movedStore] [] with
    mem := (paged [(0x2010, 0x01), (0x2011, 0x0C), (0x3000, 0x01), (0x3001, 0x10), (0x4000, 0x01), (0x4001, 0x14), (0x5000, 0xDF), (0x5001, 0x80),
      (0x5006, 0x40)]).mem }

theorem witness_VectorQueueSteps :
    ((adding 0 0 0).hart.vq = [headOf (adding 0 0 0)] ∧ (adding 0 0 0).hart.run = .running ∧ offer (rename (adding 0 0 0)) = some (0, 0) ∧
      hasSlot (rename (adding 0 0 0)) = true ∧ offer (rename (adding 1 1 0)) = none) ∧
    ((renamedUops (adding 1 1 0))[0]? = some (0, 0) ∧ (0, 0) ∈ (adding 1 1 0).hart.issued ∧ (0, 0) ∉ (adding 1 1 0).hart.complete ∧
      ((uopsAt (adding 1 1 0) 0)[0]?).isSome = true ∧ ((adding 1 1 0).hart.vq[0]?).isSome = true) ∧
    (let s := adding 1 1 1
     let r := runMembers (beginConvoy (settleEarlier s (headOf s)) (headOf s)) ((headOf s).members.filterMap memberOf)
     (∀ k, k < (uopsOf s (headOf s)).length → (0, k) ∈ s.hart.complete) ∧ ofRole s.hart (headOf s).addr = true ∧ s.hart.vstart = 0 ∧ r.hart.cur.fault = none ∧
       r.hart.cur.wait = none) ∧
    (let s := pennants queued 0 1
     s.hart.vq = [headOf s] ∧ (headOf s).members.head? = some (.pnTake false 0) ∧ (headOf s).taken = none ∧ pnList s.hart (0 : BitVec 3).toNat = [0]) ∧
    (let e := mkEntry bare (.asend { oac with tk := 1 }) false
     let s := { pennants queued 1 1 with hart := { (pennants queued 1 1).hart with aq := [e] } }
     s.hart.vq ≠ [] ∧ s.hart.run = .running ∧ s.hart.aq.findIdx? isFresh = some 0 ∧ takeOf e = some (1 : BitVec 3).toNat ∧ e.taken = none ∧
       pnList s.hart (1 : BitVec 3).toNat = [0]) ∧
    (let s := release queued (mkStore queued { key := 0x10000, left := 8, pte := 0, pteAt := 0, level := 0 } 8 1 (256 ^ 8 - 1) false .vector 0)
     ∃ st, s.hart.storeQ[0]? = some st ∧ MemoryOk s ∧ placeOf s st.key = some .dram ∧ isZKey st.key = false ∧ st.mask = 256 ^ st.n - 1 ∧
       moduleFailed s st.key = false) ∧
    (∃ x, ({ queued with combining := [{ key := 0x10000, w := 32, op := 1, fp := false, val := 1, poison := false, rm := 0, epoch := 0, po := false, sealing := false, slot := 0, gang := 0, hart := 0 }] } :
      State).combining[0]? = some x) ∧
    ((committing 0).hart.vq = [headOf (committing 0)] ∧ (committing 0).hart.run = .running ∧ ofRole (committing 0).hart (headOf (committing 0)).addr = true ∧ (headOf (committing 0)).members = [.scmt osm] ∧
      (headOf (committing 0)).binds = [] ∧ (headOf (committing 0)).hurt = [] ∧ (committing 0).hart.vstart = 0 ∧ (headOf (committing 0)).phase = 0 ∧
      (headOf (committing 1)).phase = 1 ∧
      (commitImage osm (emptySum 1 cmsP 0) (0, 0) (beginConvoy (committing 0) (headOf (committing 0)))).hart.cur.fault = none ∧
      (commitImage osm (emptySum 1 cmsP 0) (0, 0) (beginConvoy (committing 0) (headOf (committing 0)))).hart.cur.phase = 1 ∧
      (commitSeal osm (emptySum 1 cmsP 0) (beginConvoy (committing 1) (headOf (committing 1)))).hart.cur.fault = none ∧
      (commitSeal osm (emptySum 1 cmsP 0) (beginConvoy (committing 1) (headOf (committing 1)))).hart.cur.phase = 2) ∧
    (∃ i, spliceAt (looping [] []).hart = some i ∧ i.region = 2 ∧ (looping [] []).hart.vq = []) ∧
    (∃ t, releaseLinked (looping [heldStore false] []) (heldStore false) = (t, none)) ∧
    (moving.hart.run = .running ∧ moving.hart.vq = [] ∧ (releaseLinked moving movedStore).2 = some none) ∧
    ((heldStore true).tag ∈ [3] ∧ (heldStore true).forwarded = true) := by
  refine ⟨⟨rfl, rfl, by decide +kernel, by decide +kernel, by decide +kernel⟩, ⟨by decide, by decide, by decide, by decide +kernel, rfl⟩,
    ⟨by decide +kernel, rfl, rfl, by decide +kernel, by decide +kernel⟩, ⟨rfl, rfl, rfl, rfl⟩, ⟨by decide, rfl, by decide, rfl, rfl, rfl⟩,
    ⟨_, rfl, by unfold MemoryOk; decide, by decide, by decide, by decide, by decide⟩, ⟨_, rfl⟩,
    ⟨rfl, rfl, rfl, rfl, rfl, rfl, rfl, rfl, rfl, by decide +kernel, by decide +kernel, by decide +kernel, by decide +kernel⟩, ⟨_, rfl, rfl, rfl⟩, ⟨_, rfl⟩,
    ⟨rfl, rfl, by decide +kernel⟩, by decide⟩

/-! ### Witnesses of the statements about stops and modes -/

/-- The stop of a hart that trapped: its frame at 0x40000 holds every register but the partition. -/
def stopPoint : Stop :=
  { queue := .sequencer, rpc := 0x10000, vstart := 0, stands := 0, vl := 0, vtype := 0, vdirty := 0, sdirty := 0, mdirty := 0, arrived := false, gbgen := 0, spad := false,
    frame := 0x40000, vrl := 4096, core := 0, stall := 0, faulted := none, unsaved := false, opaquePart := [] }

/-- The stopped hart, with the header of its frame in memory. -/
def stoppedHart : State :=
  { paged (Memory.writeN [] 0x40000 256 (headerOf { bare.hart with cause := 1 } stopPoint 4096 (frameszOf { bare.hart with cause := 1 } stopPoint))) with
    hart := { bare.hart with run := .stopped, cause := 1, frame := 0x40000, stop := some stopPoint }, gangs := [gangTest] }

/-- A hart whose gang permits a change of mode, with a pending mode. -/
def pendingMode : State :=
  { ganged with gangs := [{ gangTest with repart := true }], cores := [{ coreOf bare 0 with pend := some 1 }] }

/-- The code `vsl x5, x6` with type 0. -/
def vslCode : State :=
  { coded (encode (.vsl { imm := 0, a := 6, d := 5 })) with cores := [{ coreOf bare 0 with pend := some 1 }] }

theorem headerBytes_of {s : State} {p : Stop} {h : Hit} (hl : hartSpan s p.frame 256 .load = (s, .ok [(h, 256)])) :
    headerBytes s p = some (some (spanReadMem s [(h, 256)])) := by
  unfold headerBytes
  rw [hl]

/-- The header lies in the page at 0x40000. -/
def frameHit : Hit := { key := 0x40000, left := 2 ^ 39 - 0x40000, pte := 0xDF, pteAt := 0x2000, level := 3 }

theorem witness_StopsAndModes :
    (∃ c, causeOf (1 : BitVec 8).toNat = some c ∧ c ∉ [Cause.preempt, .repartition, .pasidGone, .halt] ∧ bare.hart.run = .running ∧ bare.hart.vq = [] ∧
      bare.hart.aq = []) ∧
    (stoppedHart.hart.stop = some stopPoint ∧ stopPoint.spad = false ∧ stopPoint.faulted = none ∧ stoppedHart.hart.run = .stopped ∧ stoppedHart.hart.cause ≠ 0x14 ∧
      stopPoint.unsaved = false ∧ (frameWalk (settlePartition stoppedHart) 2048 stopPoint.frame (framesz stoppedHart)).2 = none) ∧
    (stallTaken stoppedHart 0 0 = false ∧ stallTaken stoppedHart 1 0 = false ∧ (0 : BitVec 2).toNat < 2 ^ (coreOf stoppedHart 0).cur ∧
      stoppedHart.dev.computeOn = true ∧
      (∃ v, headerBytes stoppedHart stopPoint = some (some v) ∧ headerKept stoppedHart.hart stopPoint v = true) ∧
      opaqueCells stoppedHart stopPoint.frame (frameszOf stoppedHart.hart stopPoint) = stopPoint.opaquePart ∧
      stopPoint.vrl = vrlenIn (coreOf stoppedHart 0).cur stoppedHart.hart.prot ∧ (contextOf stoppedHart stoppedHart.hart.pasid).state = 1 ∧
      stopPoint.spad = false ∧ stopPoint.core = (0 : BitVec 8).toNat ∧ stopPoint.stall = (0 : BitVec 2).toNat ∧ stopPoint.core ≠ (1 : BitVec 8).toNat) ∧
    (∃ g, gangOf stoppedHart stoppedHart.hart = some g ∧ heldWaits stoppedHart g = false ∧ stoppedHart.others = []) ∧
    (let s := { pendingMode with cores := [] }
     (1 : BitVec 2).toNat ≠ (coreOf s 0).cur ∧ boundCore s 0 = false ∧ ∀ o ∈ coreHarts s 0, o.run = .running → mayRepartition s o = true) ∧
    (instrHere vslCode = some (.vsl { imm := 0, a := 6, d := 5 }) ∧ (coreOf vslCode 0).pend.isSome = true ∧ vslCode.hart.vq = [] ∧ vslCode.hart.aq = [] ∧
      NoHold vslCode [6, 5]) ∧
    (let s := { pendingMode with hart := { pendingMode.hart with park := some .vsl } }
     s.others = [] ∧ s.hart.run = .running ∧ (coreOf s 0).pend = some 1 ∧ stallAfter (coreOf s 0).cur 1 s.hart.stall = some 0 ∧ s.dev.computeOn = true ∧
       s.gangs.find? (fun g => g.lid == 7) = none ∧ s.hart.streams = [] ∧ s.hart.binds = []) := by
  refine ⟨⟨.illegal, by decide, by decide, rfl, rfl, rfl⟩, ⟨rfl, rfl, rfl, rfl, by decide, rfl, by decide +kernel⟩,
    ⟨rfl, rfl, by decide, rfl, ⟨_, headerBytes_of (h := frameHit) (span_done (by decide) (by decide) (piece_done (by decide +kernel)
      (grantPlace_done (by decide) (by decide) (by decide) (by decide)) (by decide) (by decide +kernel))), by decide +kernel⟩, by decide +kernel, by decide +kernel, by decide +kernel, rfl, rfl,
      rfl, by decide⟩, ⟨gangTest, rfl, by decide, rfl⟩, ⟨by decide, by decide, by decide +kernel⟩, ⟨by decide +kernel, by decide, rfl, rfl, rfl⟩, ⟨rfl, rfl, by decide, by decide, rfl, by decide, rfl, rfl⟩⟩

/-! ### Witnesses of the statements about tables, links and modules -/

/-- A 4 KiB page at 2^40 behind three tables: its leaf's low doubleword bytes 0, 1 and 7. -/
def paged4k (b7 : Byte) : State :=
  paged ([(0x2010, 0x01), (0x2011, 0x0C), (0x3000, 0x01), (0x3001, 0x10), (0x4000, 0x01), (0x4001, 0x14), (0x5000, 0xDF), (0x5001, 0x80)] ++
    if b7 = 0 then [] else [(0x5007, b7)])

/-- A page in migration to the frame at 0x40000. -/
def migrating (phase : Nat) : State := { paged4k 0 with migrations := [{ pasid := 1, va := 2 ^ 40, pte := 0x100DF, phase := phase }] }

theorem witness_TranslationSteps :
    (canonical 0x10000 = true ∧ inWindow 0x10000 = false ∧ (contextOf (paged []) 1).state = 1 ∧
      walk (paged []).mem 0x10000 5 (contextOf (paged []) 1).root = some (0x2000, 0xDF, 3) ∧
      (∀ acc ∈ [Acc.store, .load], (leafPlace (paged []) 0xDF (leafKey 0xDF 3 0x10000 acc)).any (fun q => attrOk q 0xDF 3) = true ∧ permitted 0xDF acc = true) ∧
      bitN 0xDF 54 = false ∧ bitN 0xDF 57 = false) ∧
    (∀ h ∈ harts bare, h.pasid = 1 → h.pins = []) ∧
    (0x5000 % 8 = 0 ∧ placeOf bare 0x5000 = some .dram) ∧
    ((contextOf bare 2).state = 0 ∧ (0x3000 : Word).toNat % 4096 = 0) ∧
    (let s := { paged [] with dev := { (paged []).dev with owner := 0 }, hart := { bare.hart with pasid := 2 } }
     (0 : BitVec 4).toNat = s.dev.owner ∧ (contextOf s 1).state = 1 ∧ s.others = [] ∧ s.hart.pasid ≠ 1 ∧ s.gangs = []) ∧
    (contextOf { bare with mem := [(2 ^ 43 - 2 ^ 24 + 24, 2)] } 1).state = 2 ∧
    (∀ b ∈ [(0x04 : Byte), 0x08], ∃ pte, walk (paged4k b).mem (2 ^ 40) 5 0x1000 = some (0x5000, pte, 0) ∧ (bitsN pte 58 2 = 1 ∨ bitsN pte 58 2 = 2)) ∧
    (walk (paged4k 0).mem (2 ^ 40) 5 0x1000 = some (0x5000, 0x80DF, 0) ∧ leafSize 0x80DF 0 = 4096 ∧
      (∀ k ∈ [0, 1], ∃ m, (migrating k).migrations.find? (fun m => m.pasid == 1 && m.va == 2 ^ 40 / 4096 * 4096) = some m ∧ m.phase = k) ∧
      (copyPage (migrating 0) 0x80DF 0x100DF 0).isSome = true ∧
      (shootdown (putLeaf (migrating 1) 0x5000 0x80DF fun e => 0x100DF - (0x100DF &&& (64 + 128)) + (e &&& (64 + 128))) 1 (2 ^ 40) (2 ^ 40 + 4096)).isSome = true) ∧
    (let fields := 3 * 2 ^ 58 + (2 ^ 44 - 1) * 2 ^ 10 + 3 * 2 ^ 8
     let new := 0x80DF - (0x80DF &&& fields) + (0x100DF &&& fields)
     (paged4k 0).migrations = [] ∧ bitN 0x80DF 54 = false ∧ leafOk new 0 = true ∧
       sameKind (paged4k 0) (bitsN 0x80DF 10 44 * 4096) (bitsN new 10 44 * 4096) = true ∧
       (placeOf (paged4k 0) (bitsN new 10 44 * 4096)).any (fun q => attrOk q new 0) = true ∧
       (shootdown (putLeaf (paged4k 0) 0x5000 0x80DF fun e => e ||| 2 ^ 54) 1 (2 ^ 40) (2 ^ 40 + 4096)).isSome = true) ∧
    ((match shadowPages (paged4k 0x10) 1 ((4096 : Word).toNat / 4096) (W (2 ^ 40)) with
      | .ok l => !flipHeld (paged4k 0x10) 1 (W (2 ^ 40)) 4096 l
      | .error _ => false) = true) := by
  refine ⟨⟨by decide, by decide, rfl, by decide +kernel, by decide +kernel, by decide, by decide⟩, by decide, ⟨by decide, by decide⟩, ⟨by decide, by decide⟩,
    ⟨rfl, rfl, rfl, by decide, rfl⟩, by decide, ?_, ⟨by decide +kernel, by decide, ?_, by decide +kernel, by decide +kernel⟩,
    ⟨rfl, by decide, by decide, by decide +kernel, by decide +kernel, by decide +kernel⟩, by decide +kernel⟩
  · intro b hb
    rcases (by simpa using hb : b = 0x04 ∨ b = 0x08) with rfl | rfl
    · exact ⟨0x04000000000080DF, by decide +kernel, by decide⟩
    · exact ⟨0x08000000000080DF, by decide +kernel, by decide⟩
  · intro k hk
    rcases (by simpa using hk : k = 0 ∨ k = 1) with rfl | rfl <;> exact ⟨_, rfl, rfl⟩

/-- A request of a command outstanding to a module for 32 bytes at 0x80. -/
def requested (m cmd : Nat) : State :=
  { bare with packets := [{ module := m, cmd := cmd, sc := 1, tag := 0, len := 1, addr := 0x80, mask := 2 ^ 32 - 1, data := 5, pois := false }] }

theorem witness_LinkSteps :
    (packetOk (0x80 : BitVec 40).toNat (1 : BitVec 3).toNat = true ∧ ∃ k, linkKey bare (1 : BitVec 6).toNat (0x80 : BitVec 40).toNat = some k ∧
      isLoftKey k = false) ∧
    (1 ∈ ({ bare with linkFailed := [1] } : State).linkFailed ∧ (1 : BitVec 6).toNat ∉ bare.linkFailed ∧ freeTag bare 1 1 = some 0) ∧
    (∀ cmd ∈ [1, 2], ∃ q, answered (requested 1 cmd) (1 : BitVec 6) 1 0 = some 0 ∧ (requested 1 cmd).packets[0]? = some q ∧ q.module = 1 ∧ q.addr = 0x80 ∧
      q.len = 1 ∧ q.cmd = cmd ∧ (requested 1 cmd).packets.take 0 = []) ∧
    (∃ k q, linkKey (requested 40 2) (40 : BitVec 6).toNat 0x80 = some k ∧ isLoftKey k = true ∧ answered (requested 40 2) 40 1 0 = some 0 ∧
      (requested 40 2).packets[0]? = some q ∧ q.module = 40 ∧ q.addr = 0x80 ∧ q.len = 1 ∧ q.cmd ≠ 1 ∧
      acceptUntil { requested 40 2 with packets := (requested 40 2).packets.eraseIdx 0 } k 32 q.mask q.data ((requested 40 2).loftPend.length + 1) = none) ∧
    (MemoryOk bare ∧ bare.sealed = [] ∧ 1 < bare.drams ∧ bare.drams ≤ (40 : BitVec 6).toNat) := by
  refine ⟨⟨by decide, _, rfl, by decide⟩, ⟨by decide, by decide, by decide⟩, fun cmd _ => ⟨_, rfl, rfl, rfl, rfl, rfl, rfl, rfl⟩,
    ⟨_, _, rfl, by decide, rfl, rfl, rfl, rfl, rfl, by decide, by decide +kernel⟩, by unfold MemoryOk; decide, rfl, by decide, by decide⟩

theorem witness_ModuleSteps :
    (placeOf bare ((0x10000 : BitVec 36).toNat / 8 * 8) = some .dram ∧
      0x400 ∈ ({ bare with sealed := [0x400] } : State).sealed ∧ 0x400 ∉ bare.sealed ∧ granulePois bare 0x400 = false ∧ moduleFailed bare 0x10000 = false ∧
      MemoryOk bare ∧ (∀ h ∈ harts bare, h.storeQ = []) ∧ bare.hart.run = .running) ∧
    (3 ∈ ({ bare with sheds := { bare.sheds with failed := [3] } } : State).sheds.failed) ∧
    ((7 : BitVec 8).toNat < 192 ∧ (coreOf bare 7).gone = false ∧ (∀ h ∈ harts bare, h.core ≠ 7) ∧ (∀ r ∈ bare.cores, r.id / 8 = 7 / 8 → r.spare = false) ∧
      ∃ r ∈ ({ bare with cores := [{ coreOf bare 6 with id := 6, spare := true }] } : State).cores, r.id / 8 = 7 / 8 ∧ r.spare = true) := by
  refine ⟨⟨by decide, by decide, by decide, by decide, by decide, by unfold MemoryOk; decide, by decide, rfl⟩, by decide, by decide, by decide, by decide, by decide, _,
    List.mem_singleton.2 rfl, by decide, rfl⟩

/-! ### Witnesses of the statements about launches -/

/-- A part of an image that is read, with a property. -/
theorem part_of {α : Type} {r : State × ImagePart α} (P : State → α → Bool) (h : (match r with | (t, .ok i) => P t i | _ => false) = true) :
    ∃ t i, r = (t, .ok i) ∧ P t i = true := by
  obtain ⟨t, x⟩ := r
  cases x with
  | ok i => exact ⟨t, i, rfl, h⟩
  | bad a => cases h
  | stall => cases h

/-- A read that is stopped. -/
theorem stop_of {α : Type} {r : State × Except (Option Trap) α} (h : (match r with | (_, .error (some _)) => true | _ => false) = true) :
    ∃ t tr, r = (t, .error (some tr)) := by
  obtain ⟨t, x⟩ := r
  cases x with
  | ok v => cases h
  | error e =>
    cases e with
    | none => cases h
    | some tr => exact ⟨t, tr, rfl⟩

/-- A job image of one hart whose code lies at 0x10000: version 1, size 1, `vtype` 2, no sections. -/
def jobBits : Nat := 1 + 2 ^ 32 + 0x10000 * 2 ^ 64 + 2 * 2 ^ 256

/-- The same with a strip table of one strip at 2^40. -/
def jobStrips : Nat := jobBits + 2 ^ 40 * 2 ^ (8 * 0x78) + 2 ^ (8 * 0x80)

/-- A launch record of that image at 0x30000, at priority 3, for PASID 1. -/
def launchBits : Nat := 0x30000 + 3 * 2 ^ 64 + 2 ^ 96

/-- A code extent: `hm.body`, `hm.end`, a back branch, `halt`. -/
def extentCells : List Host.Cell :=
  Memory.writeN (Memory.writeN (Memory.writeN (Memory.writeN [] 0x10000 4 (encode .hmBody)) 0x10004 4 (encode .hmEnd)) 0x10008 4
    (encode (.beq { hi := BitVec.allOnes _, b := 0, a := 0, lo := 0x1C }))) 0x1000C 4 (encode .halt)

/-- A machine that is ready, with these tables and image, the record at 0x20000 and the extent in memory, queue 0 holding one record, and these launches. -/
def launchOn (tables : List Host.Cell) (job : Nat) (l : List Launch) : State :=
  let s : State := paged (tables ++ Memory.writeN (Memory.writeN extentCells 0x20000 64 launchBits) 0x30000 256 job)
  setQueue { s with hart := { s.hart with run := .ended }, launches := l, dev := { s.dev with tdisp := Vector.replicate 2 .run } } 0
    { CQueue.reset with en := true, base := 0x20000, cbase := 0x21000, pasid := 1, tail := 1 }

/-- The machine with the plain image. -/
def launchable (l : List Launch) : State := launchOn [] jobBits l

/-- A selected launch that is bound to the first stall of core 0. -/
def bound0 : Launch := { launchTest 1 .selected with places := [(0, 0)] }

/-- A marked launch with a watermark dependence. -/
def marked (lid : Word) (ph : Phase) : Launch :=
  { launchTest lid ph with splice := true, deps := [{ kind := 2, a := 0x50000, b := 0 }] }

/-- A ready launch that has been decided. -/
def decided1 : Launch := { launchTest 1 .ready with decided := true }

/-- The machine with it, at a clock of its clusters and under a power limit. -/
def schedulable (clock limit : Nat) : State :=
  { launchable [decided1] with dev := { (launchable [decided1]).dev with clocks := Vector.replicate 24 clock, pwrlim := limit } }

theorem candidates_free : candidates (schedulable 0 3200) = [(decided1, [0])] := by decide +kernel

theorem candidates_full : candidates (schedulable 16 0) = [(decided1, [0])] := by decide +kernel

/-- A launch that depends on one that has failed. -/
def depending : State :=
  { launching with launches := [{ launchTest 1 .posted with result := refusal 5 0 }, { launchTest 2 .fetched with deps := [{ kind := 1, a := 1, b := 0 }] }] }

/-- A gang with a strip table at 0x22000 in which die 1 has ten strips left. -/
def striped : State :=
  { paged (Memory.writeN [] 0x22000 64 (10 * 2 ^ 64 + 10 * 2 ^ 224)) with
    hart := { bare.hart with gangid := 9 }, gangs := [{ gangTest with stab := 0x22000, nstrip := 10 }] }

/-- A launch that has ended. -/
def endedLaunch : State := launchable [{ launchTest 1 .ended with seq := 0 }]

/-- Tables of a page at 2^40 that is in migration. -/
def migrated : List Host.Cell :=
  [(0x2010, 0x01), (0x2011, 0x0C), (0x3000, 0x01), (0x3001, 0x10), (0x4000, 0x01), (0x4001, 0x14), (0x5000, 0xDF), (0x5001, 0x80), (0x5006, 0x40)]

theorem witness_LaunchSteps :
    (let c := queueOf (launchable []) 0
     (launchable []).dev.ready = true ∧ c.isOpen = false ∧ c.tail ≤ (1 : Word).toNat ∧ (1 : Word).toNat ≤ c.head + 2 ^ c.log2 ∧ (0 : Word).toNat < c.tail ∧
       c.head + 2 ^ c.log2 < (17 : Word).toNat ∧ (queueOf launching 0).isOpen = true) ∧
    (∀ ph ∈ [Phase.fetched, .ready, .running], ∃ l, (launchable [launchTest 1 ph]).launches.find? (fun l => l.queue == 0 && l.seq == (5 : Word).toNat / 256) = some l ∧
      l.consumer = false ∧ l.phase = ph) ∧
    (let s := launchable []
     let c := queueOf s 0
     c.en = true ∧ c.head < c.tail ∧ waitingIn s 0 < 16 ∧ s.dev.tdisp[0]? = some .run ∧ (contextOf s c.pasid).state = 1 ∧
       (contextOf { s with mem := [] } c.pasid).state = 0 ∧
       ∃ t v, engineRead s 1 (c.base + W (0 % 2 ^ c.log2 * 64)) 64 = (t, .ok v) ∧ (!v.2 && recordOk v.1 && hdr v.1 0x0C 4 == 1 && (contextOf t 1).state == 1 &&
         (match readJob t 1 (W (hdr v.1 0 8)) with | (_, .ok _) => true | _ => false)) = true) ∧
    (∃ t tr, engineRead (setQueue (launchable []) 0 { queueOf (launchable []) 0 with base := W (2 ^ 40) }) 1 (W (2 ^ 40) + W 0) 64 = (t, .error (some tr))) ∧
    (∃ l, launchOf (launchable [launchTest 1 .fetched]) 1 = some l ∧ l.phase = .fetched ∧ l.consumer = false ∧ l.deps = []) ∧
    (∃ l d v, launchOf depending 2 = some l ∧ l.phase = .fetched ∧ l.consumer = false ∧ l.deps = [d] ∧ l.met = [] ∧ d.kind = 1 ∧
      standing depending d.a = .held v ∧ v.toNat % 256 ≠ 0) ∧
    (let s := launchable [marked 1 .ready, marked 2 .ready]
     launchOf s 1 = some (marked 1 .ready) ∧ s.launches.find? (fun k => k.queue == 0 && k.seq == 0 + 1) = some (marked 2 .ready) ∧
       mayPair (marked 1 .ready) (marked 2 .ready) = true ∧ mayPair (marked 1 .ready) { marked 2 .ready with splice := false } = false ∧
       ∃ x i, readJob s 1 0x30000 = (x, .ok i) ∧ (match planPair s 1 i i with | (_, some (.ok _)) => true | _ => false) = true) ∧
    (let s := launchable [{ decided1 with image := W (2 ^ 40) }]
     (∀ l ∈ s.launches, l.phase ≠ .selected) ∧ (s.launches.findSome? (badImage s)).isSome = true) ∧
    (let s := schedulable 0 3200
     (∀ l ∈ s.launches, l.phase ≠ .selected ∧ badImage s l = none) ∧ ∀ room, best s ((candidates s).filter fun x => decide (projected s x.1 x.2 ≤ room)) = some (decided1, [0])) ∧
    (let s := schedulable 16 0
     (∀ l ∈ s.launches, l.phase ≠ .selected ∧ badImage s l = none) ∧ best s (candidates s) = some (decided1, [0]) ∧
       ∀ p, best s ((candidates s).filter fun x => decide (projected s x.1 x.2 ≤ 16 * (s.dev.pwrlim - p))) = none) ∧
    (∀ s ∈ [launchable [bound0], launchOn migrated jobStrips [bound0]], launchOf s 1 = some bound0 ∧ ∃ t i, readJob s 1 0x30000 = (t, .ok i) ∧
       ((pickExtents t i.ng).isSome && decide (boundPlaces t bound0 i = some [(0, 0)]) && decide (boundPlaces t { bound0 with places := [] } i = none) &&
         decide (t.launches = s.launches)) = true) ∧
    (∃ t i, readJob (launchable [bound0]) 1 0x30000 = (t, .ok i) ∧ (writeStrips (giveArena t 1 1 i.ava []) 1 i [(0, 0)]).isSome = true) ∧
    (∃ t i, readJob (launchOn migrated jobStrips [bound0]) 1 0x30000 = (t, .ok i) ∧ (writeStrips (giveArena t 1 1 i.ava []) 1 i [(0, 0)]).isNone = true) ∧
    (∃ g, striped.gangs.find? (fun g => g.lid == 9) = some g ∧ g.stab ≠ 0 ∧ ∃ t v, engineRead striped g.pasid g.stab 64 = (t, .ok v) ∧
      ((List.range 4).find? (fun d => (((stripEntries v.1)[d]?).map fun e => decide (e.2 ≤ e.1)).getD false &&
          (harts t).any fun h => sameGang g h && h.run == .running && h.core / 48 == d) == some 0 &&
        stripVictim (stripEntries v.1) == some 1 && (stripEntries v.1)[1]? == some (0, 10) &&
        (engineWrite t g.pasid (g.stab + W 0x18) 8 (2 ^ 32 * 5)).2.isOk) = true) ∧
    (∃ l, endedLaunch.launches.find? (fun l => l.queue == (0 : BitVec 6).toNat && l.seq == (queueOf endedLaunch 0).done) = some l ∧ l.phase = .ended ∧
      (engineWrite (settleGang endedLaunch l.lid) 1 (0x21000 + W 0) 64 (recordNum l)).2.isOk = true) ∧
    (let s := launchOn migrated jobBits [{ launchTest 1 .ended with seq := 0 }]
     (engineWrite (settleGang s 1) 1 (W (2 ^ 40) + W 0) 64 0).2 = .error none) := by
  refine ⟨by decide, ?_, ⟨rfl, by decide, by decide, rfl, by decide +kernel, by decide +kernel, read_of _ (by decide +kernel)⟩, ?_, ⟨_, rfl, rfl, rfl, rfl⟩,
    ⟨_, _, W 5, rfl, rfl, rfl, rfl, rfl, rfl, by decide +kernel, by decide⟩,
    ⟨by decide, by decide, by decide, by decide, part_of _ ?_⟩, ⟨by decide, by decide +kernel⟩, ⟨by decide +kernel, ?_⟩, ⟨by decide +kernel, ?_, ?_⟩, ?_,
    part_of _ (by decide +kernel), part_of _ (by decide +kernel), ⟨_, rfl, by decide, read_of _ (by decide +kernel)⟩, ⟨_, rfl, rfl, by decide +kernel⟩,
    by decide +kernel⟩
  · intro ph hp
    exact ⟨launchTest 1 ph, rfl, rfl, rfl⟩
  · exact stop_of (by decide +kernel)
  · decide +kernel
  · intro room
    rw [candidates_free]
    have h : projected (schedulable 0 3200) decided1 [0] = 0 := by decide +kernel
    simp [h, best]
  · rw [candidates_full]
    rfl
  · intro p
    rw [candidates_full]
    have h : projected (schedulable 16 0) decided1 [0] = 96 := by decide +kernel
    have h2 : (schedulable 16 0).dev.pwrlim = 0 := rfl
    simp [h, h2, best]
  · intro s hs
    rcases (by simpa using hs : s = launchable [bound0] ∨ s = launchOn migrated jobStrips [bound0]) with rfl | rfl <;>
      exact ⟨rfl, part_of _ (by decide +kernel)⟩

/-! ### Witnesses of the statements about management and the machine as a whole -/

/-- A ready device that machine management 0 owns, which has written NEXT and holds a log of one record; function 0 has a session. -/
def managed : State :=
  { bare with
    dev := { bare.dev with owner := 0, nextOwner := 1, elogHead := 1, log := [{ code := 4, die := 0, unit := 0, pasid := 0, addr := 0, info := 0, time := 0 }], session := bare.dev.session.set 0 true },
    time := 3000000 }

theorem witness_ManagementSteps :
    ((0 : BitVec 6).toNat / 32 = (0 : BitVec 1).toNat ∧ managed.dev.ready = true ∧ (queueOf managed 0).en = false ∧
      (queueOf managed 0).head = (queueOf managed 0).tail ∧ (queueOf managed 0).tail = (queueOf managed 0).done ∧ (queueOf (launchable []) 0).en = true) ∧
    ((1 : BitVec 4).toNat < 4 ∧ managed.dev.nextOwner = (1 : BitVec 4).toNat ∧ bare.dev.owner = 0xF ∧ managed.dev.owner ≠ 0xF ∧
      managed.dev.nextOwner ≠ (2 : BitVec 4).toNat ∧ managed.dev.owner ≠ (2 : BitVec 4).toNat) ∧
    ((0 : BitVec 4).toNat = managed.dev.owner ∧ (0x30 : Word).toNat / 16 % 16 < 4) ∧
    (managed.dev.nextOwner ≠ 0xF ∧ managed.dev.nextAt + 1000000 ≤ managed.time ∧ managed.dev.beatAt + 2000000 ≤ managed.time) ∧
    (managed.dev.elogTail ≤ (1 : Word).toNat ∧ (1 : Word).toNat ≤ managed.dev.elogHead ∧ managed.dev.elogHead < (2 : Word).toNat) ∧
    (managed.dev.session[(0 : BitVec 4).toNat]? = some true ∧ (5 : BitVec 12) ≠ 0 ∧ managed.mem = []) ∧
    (TdispState.run ≠ .error ∧ ∀ q : BitVec 6, (contextOf managed (queueOf managed q).pasid).state ≠ 1) ∧
    (managed.others = [] ∧ managed.hart.run = .running ∧ managed.hart.vq = []) ∧
    ((schedulable 3 3200).dev.clocks[0] < 16 ∧ raiseWatts (schedulable 3 3200) 0 = 0 ∧ 16 ≤ (schedulable 16 0).dev.clocks[0]) := by
  refine ⟨by decide, by decide, by decide, by decide, by decide, by decide, ⟨by decide, fun q => ?_⟩, by decide, by decide⟩
  have h : ∀ a, Memory.readN [] a 16 = 0 := fun _ => by simp [Memory.readN, Memory.read, Memory.blank]
  unfold contextOf
  rw [show managed.mem = [] from rfl, h]
  decide

theorem witness_PowerSteps :
    MemoryOk bare ∧ State.reset.dev.ready = false ∧ (∀ c ∈ State.reset.durable, isLoftKey c.1 = true) ∧ 3 < State.reset.lofts ∧ bare.dev.ready = true := by
  unfold MemoryOk; decide

/-- Code at the program counter of a hart that has just started a stretch of instructions. -/
def stepping (w : Nat) : State := { coded w with hart := { (coded w).hart with kept := 0 } }

/-- The bits that a fetch gives. -/
theorem bits_of {r : State × Fetched} {v : Nat} (h : (match r with | (_, .bits w) => w == v | _ => false) = true) : ∃ t, r = (t, .bits v) := by
  obtain ⟨t, x⟩ := r
  cases x with
  | bits w => exact ⟨t, by rw [beq_iff_eq.mp h]⟩
  | trap tr => cases h
  | stall => cases h

theorem witness_StepRunsDecoded :
    (let s := stepping 0x001CC505
     s.agenda = [] ∧ s.leaf = [] ∧ s.dev.ready = true ∧ s.hart.run = .running ∧ s.hart.instret.toNat / 256 = s.hart.kept ∧ s.hart.vq = [] ∧ s.hart.aq = [] ∧ s.hart.park = none ∧
       s.hart.vwait = none ∧ s.hart.await = none ∧ s.hart.splice = none ∧ (∃ t, fetchBits s s.hart.pc = (t, .bits 0x001CC505)) ∧
       decodeBits 0x001CC505 = .ok (.add { b := 7, a := 6, d := 5 })) ∧
    ((∃ t, fetchBits (stepping 1) 0x10000 = (t, .bits 1)) ∧ (∃ r, decodeBits 1 = .error r) ∧ (∀ sc, decodeBits (1 - 2 ^ 28) ≠ .ok (.vfence sc))) ∧
    (∃ t tr, fetchBits { stepping 1 with mem := [] } 0x10000 = (t, .trap tr)) ∧ (Instr.scrubPass none).cls = .event := by
  refine ⟨⟨rfl, rfl, rfl, rfl, by decide, rfl, rfl, rfl, rfl, rfl, rfl, bits_of (by decide +kernel), by decide +kernel⟩, ⟨bits_of (by decide +kernel), ⟨_, rfl⟩, ?_⟩,
    ⟨_, _, rfl⟩, rfl⟩
  intro sc h
  cases h

theorem witness_DecodeEncodeRoundTrip : (Instr.add { b := 7, a := 6, d := 5 }).wellFormed = true ∧ (Instr.add { b := 7, a := 6, d := 5 }).cls ≠ .event ∧
    (Instr.vadd ov).wellFormed = true ∧ (Instr.vadd ov).cls ≠ .event := by decide

theorem witness_StepKeepsMemoryOk : ∃ t, MemoryOk State.reset ∧ step State.reset = .next t := ⟨_, by unfold MemoryOk; decide, rfl⟩

/-- R357: the block cipher on the example vector of FIPS 197, appendix C.3. -/
theorem test_aes256 : ofBytes (aesEnc (ofBytes (List.range 32)) ((List.range 16).map (17 * ·))) =
    ofBytes [0x8E, 0xA2, 0xB7, 0xCA, 0x51, 0x67, 0x45, 0xBF, 0xEA, 0xFC, 0x49, 0x90, 0x4B, 0x49, 0x60, 0x89] := by decide +kernel

/-! ### Witnesses of clauses on special cases -/

/-- An access whose place lies outside its scope. -/
theorem scoped_missed {s : State} {va : Word} {n sc : Nat} {acc : Acc} {h : Hit} (ha : va.toNat % n = 0) (hf : findPlace s va n acc = .ok h)
    (hr : inReach s va h.key sc = false) : checkScoped s va n sc acc = (s, none) := by
  unfold checkScoped
  rw [if_neg (by omega), hf]
  simp only [hr]
  rfl

/-- One element whose 64-bit index, in v2, names host memory. -/
def farIndex : State := { atomAt (2 ^ 39) with hart := { (atomAt (2 ^ 39)).hart with memfmt := 2 ^ 11 } }

theorem witness_scope_misses :
    (Runs (.vldx ovx) farIndex ∧ farIndex.combining = [] ∧ ∀ e, inBody farIndex e → active farIndex 0 e = true →
      ∃ f, footIndex (begun farIndex (.vldx ovx)) ovx.a ovx.vb e = .ok f ∧
        reachScoped 1 (begun farIndex (.vldx ovx)) f .load = (begun farIndex (.vldx ovx), .missed)) ∧
    (Runs (.vstx ovx) farIndex ∧ ∃ place, StoresReach (.vstx ovx) farIndex 0 (reachScoped 1) (footIndex (begun farIndex (.vstx ovx)) ovx.a ovx.vb) place fun _ => true) ∧
    (let f : OpVA := { ova with sc := 1 }
     let b := begun (atomAt (2 ^ 39)) (.vamoAdd f)
     Runs (.vamoAdd f) (atomAt (2 ^ 39)) ∧ b.hart.cur.wait = none ∧ ∃ va, atomReach b b f .store 0 = (b, .missed, va)) := by
  have h1 : nextLen farIndex = 1 := rfl
  refine ⟨⟨runs_of (by decide), rfl, fun e he _ => ?_⟩, ⟨runs_of (by decide), fun _ => (hostHit, { va := W (2 ^ 39), bit := 0, wm := 32 }), rfl, fun e he => ?_⟩,
    runs_of (by decide), rfl, W (2 ^ 39), ?_⟩
  · obtain rfl := body_one h1 he
    refine ⟨{ va := W (2 ^ 39), bit := 0, wm := 32 }, by decide +kernel, ?_⟩
    unfold reachScoped
    rw [scoped_missed (h := hostHit) (by decide) (by decide +kernel) (by decide +kernel)]
  · obtain rfl := active_one h1 he
    refine ⟨by decide +kernel, rfl, by decide, by decide, ?_⟩
    unfold reachScoped
    rw [scoped_missed (h := hostHit) (by decide) (by decide +kernel) (by decide +kernel)]
    rfl
  · unfold atomReach reachScoped
    rw [if_neg (by decide +kernel), scoped_missed (h := hostHit) (by decide +kernel) (by decide +kernel) (by decide +kernel)]
    decide +kernel

/-- The hart with MX E4M3 in the four descriptors. -/
def scaled : State := { withVl bare 4 0 with hart := { (withVl bare 4 0).hart with fmt := Vector.replicate 4 0x05071348, p := bare.hart.p.set 1 3 } }

theorem witness_ConversionResults_scaled :
    Runs (cvt 4 9) scaled ∧ descScl scaled.hart.fmt[0] ≠ 0 ∧ (activeBody scaled 1).filter (fun e => e / blockOf scaled.hart.fmt[0] = 0) = [0, 1] ∧
    (∀ e ∈ [0, 1], (cvtSrc (begun scaled (cvt 4 9)) { fn := 4, l := false, ca := false, pred := 1, t := 9, va := 1, vd := 3 } e).2 = false ∧ activeP scaled 1 e = false) :=
  ⟨runs_of (by decide), by decide, by decide +kernel, by decide +kernel⟩

/-- The spliced loop at one of its back branches, after the producer's and with one role unzipped or none. -/
def splicedAt (k : Nat) (t u : Option Bool) : State :=
  { spliced with hart := { spliced.hart with pc := spliceAddr k, splice := spliced.hart.splice.map fun sp => { sp with taken := t, unzipped := u } } }

theorem witness_BranchResults_back :
    (∀ k ∈ [0, 1], ∀ t ∈ [none, some true, some false], ∀ u ∈ [none, some true, some false],
      ((spliceAt (splicedAt k t u).hart).any fun i => i.region == 2 && i.consumer == decide (k = 1)) = true ∧
      ((splicedAt k t u).hart.splice.any fun sp => sp.taken == t && sp.unzipped == u) = true ∧ NoHold (splicedAt k t u) [0, 1]) ∧
    (∃ u, Lands spliced (0x10010 + 4) u) ∧ ∃ u, Lands (splicedAt 1 none none) (0x10010 + 4) u := by
  unfold NoHold
  exact ⟨by decide +kernel, lands_of (by decide +kernel), lands_of (by decide +kernel)⟩

/-- The spliced loop whose back branch would land inside a convoy. -/
theorem witness_BranchResults_trips : Trips (splicedAt 0 none none) (0x10010 - 8) := trips_of (by decide +kernel)

theorem witness_ControlRegister_waits :
    0x000 ∈ classQ ∧ 0x012 ∉ classQ ∧ vectorBusy queued.hart = true ∧ NoHold queued [6, 5] ∧ queued.hart.splice = none ∧ queued.hart.pend.isSome = false ∧
    ({ queued with hart := { queued.hart with pend := some (4, 2) } } : State).hart.pend.isSome = true ∧
    ((readX (withX queued 6 1) 6).toNat &&& (2 ^ tilesPerStall queued - 1)) ≠ queued.hart.tilen.toNat ∧
    (∃ sp, spliced.hart.splice = some sp ∧ sp.consumer = false) := by
  unfold NoHold
  exact ⟨by decide, by decide, by decide, by decide, rfl, rfl, rfl, by decide, _, rfl, rfl⟩

/-! ### Witnesses of bound registers -/

/-- A hart whose register r is bound to a stream or to the window of a collective. -/
def boundHart (r : Nat) (b : Bind) (l : List Stream) : State := { bare with hart := { bare.hart with binds := [(r, b)], streams := l } }

/-- The window of a collective at the base of the scratchpad, with these chunks for the hart. -/
noncomputable def windowHart (r : Nat) (l : List Chunk) : State :=
  { boundHart r (.window (W spBase)) [] with hart := { (boundHart r (.window (W spBase)) []).hart with
      aq := [collEntry { collAt (stepOf 1) 0 0 with outq := l }] } }

/-- The register is bound and the member is ready, as a Bool. -/
def readyBoundB (i : Instr) (s : State) (r : Fin 32) (b : Bind) : Bool :=
  match memberOf i with
  | some m => s.hart.vq.isEmpty && (postWait s [i]).isNone && decide (s.hart.binds = [(r.val, b)]) && s.hart.unbound.isEmpty && s.hart.unverified.isEmpty &&
      (m.check (dctx s)).isNone && (!m.whole || s.hart.vstart == 0) && !m.groups.contains r.val &&
      (m.sized (curDctx (begun s i))).all fun g => g.2 == 1 || decide (r.val < g.1) || decide (g.1 + g.2 ≤ r.val)
  | none => false

theorem readyBound_of {i : Instr} {s : State} {r : Fin 32} {b : Bind} (h : readyBoundB i s r b = true) : ∃ m, memberOf i = some m ∧ ReadyBound i m s r b := by
  unfold readyBoundB at h
  cases hm : memberOf i with
  | none => rw [hm] at h; cases h
  | some m =>
    rw [hm] at h
    simp only [Bool.and_eq_true, List.isEmpty_iff, Option.isNone_iff_eq_none, Bool.or_eq_true, Bool.not_eq_true', beq_iff_eq, decide_eq_true_eq, List.all_eq_true] at h
    obtain ⟨⟨⟨⟨⟨⟨⟨⟨h1, h2⟩, h3⟩, h4⟩, h5⟩, h6⟩, h7⟩, h8⟩, h9⟩ := h
    refine ⟨m, rfl, h1, h2, h3, h4, h5, h6, fun hw => ?_, ?_, fun g hg hn => ?_⟩
    · rcases h7 with h7 | h7
      · rw [hw] at h7; cases h7
      · exact h7
    · simpa using h8
    · rcases h9 g hg with (h | h) | h
      · exact absurd h hn
      · exact .inl h
      · exact .inr h

theorem witness_AccessPosting_streams :
    (∀ l ∈ [[{ inStream with ring := [{ val := 7, cells := 0 }] }], [inStream], [{ inStream with exhausted := true }], [outStream]],
      (∃ m, memberOf (.vadd ov) = some m ∧ ReadyBound (.vadd ov) m (boundHart 1 (.stream 1) l) 1 (.stream 1)) ∧
        (streamOf (boundHart 1 (.stream 1) l) 1).isSome = true ∧ vectorStores (boundHart 1 (.stream 1) l).hart = false) ∧
    (∀ l ∈ [[{ outStream with ring := [] }], [outStream], [inStream]],
      (∃ m, memberOf (.vadd ov) = some m ∧ ReadyBound (.vadd ov) m (boundHart 3 (.stream 1) l) 3 (.stream 1)) ∧
        (streamOf (boundHart 3 (.stream 1) l) 1).isSome = true ∧ vectorStores (boundHart 3 (.stream 1) l).hart = false) ∧
    (∃ m, memberOf (.vadd ov) = some m ∧ m.srcs.contains 1 = true ∧ m.dsts = [3] ∧ m.readsDst = false) ∧
    (∃ m, memberOf (.vfma ov) = some m ∧ ReadyBound (.vfma ov) m (boundHart 3 (.stream 1) [outStream]) 3 (.stream 1) ∧ m.readsDst = true) := by
  refine ⟨fun l hl => ⟨readyBound_of ?_, ?_⟩, fun l hl => ⟨readyBound_of ?_, ?_⟩, ⟨_, rfl, by decide, by decide, rfl⟩, ?_⟩
  · revert l; decide
  · revert l; decide
  · revert l; decide
  · revert l; decide
  · obtain ⟨m, hm, hr⟩ := readyBound_of (i := .vfma ov) (s := boundHart 3 (.stream 1) [outStream]) (r := 3) (b := .stream 1) (by decide)
    refine ⟨m, hm, hr, ?_⟩
    cases hm
    rfl

/-- The bound member runs, with neither a condition nor a wait. -/
theorem witness_AccessPosting_runs :
    let u := setReg (setStream (begun (boundHart 1 (.stream 1) [{ inStream with ring := [{ val := 7, cells := 0 }] }]) (.vadd ov)) inStream) 1 7 0
    ((memberOf (.vadd ov)).any fun m => (m.run u).hart.cur.fault.isNone && (m.run u).hart.cur.wait.isNone &&
      decide ((m.run u).hart.cur.binds = u.hart.cur.binds)) = true := by decide +kernel

theorem witness_AccessPosting_window :
    (∀ l ∈ [[{ val := 7, cells := 0 }], []], (∃ m, memberOf (.vadd ov) = some m ∧ ReadyBound (.vadd ov) m (windowHart 1 l) 1 (.window (W spBase))) ∧
      ((collOf (windowHart 1 l) (W spBase)).any fun c => decide (c.outq = l) && !c.failed) = true) ∧
    (∃ m, memberOf (.vadd ov) = some m ∧ ReadyBound (.vadd ov) m (windowHart 3 []) 3 (.window (W spBase))) := by
  refine ⟨fun l hl => ⟨readyBound_of ?_, ?_⟩, readyBound_of (by decide)⟩
  · revert l; decide
  · revert l; decide

/-! ### Witnesses of special cases of tiles, sheds and access entries -/

/-- A hart in protected mode: row 0 of tile 1 has a copy that differs. -/
def protTile : State :=
  { bare with hart := { bare.hart with prot := true, tile := bare.hart.tile.set 1 { bare.hart.tile[1] with differs := [(0, 0)] } } }

theorem witness_MatrixResults_differs :
    Runs (.mrowGet (tile 0 0 3 0 7)) protTile ∧ protTile.hart.prot = true ∧ (readX protTile 7).toNat = 0 ∧ (0, 0) ∈ protTile.hart.tile[1].differs ∧
      0 < nextLen protTile ∧ active protTile 0 0 = true := ⟨runs_of (by decide), rfl, rfl, by decide, by decide, by decide⟩

/-- A pair of shed blocks, its primary on plane 0. -/
def paired : State :=
  { shedding2 with sheds := { shedding2.sheds with
      blocks := [
        { plane := 0, block := 2560, tenant := 0, gang := 9, partner := some (1, 3072), mirror := false, lost := false, overQ := false, seq := 0 },
        { plane := 1, block := 3072, tenant := 0, gang := 9, partner := some (0, 2560), mirror := true, lost := false, overQ := false, seq := 0 }] } }

theorem witness_ShedResults_status :
    (blockAt shedding (W (2 ^ 45 + 2 ^ 21)) = some none ∧ arenaPlace shedding (W (2 ^ 45 + 2 ^ 21)) = some (0, 1)) ∧
    (∃ b c, paired.sheds.blocks = [b, c] ∧ b.mirror = false ∧ shedPartner paired b = some c ∧ c.mirror = true ∧ shedPartner paired c = some b) :=
  ⟨by decide +kernel, _, _, rfl, rfl, by decide, rfl, by decide⟩

theorem witness_AccessEntryStarts_acol :
    let e := aqEntry (.acol oac) .fresh (W spBase) 0
    let s := busy e (Memory.writeN (padded 144 routeBits) (spadKey 0 + 256) 16 (2 ^ 64)) []
    (match aqRead s (entryX e 6) 128 64 with
    | (u, .ok h) =>
      match collHeader h oac.b.toNat with
      | some (c, nstep, list) =>
        match aqRead u (entryX e 6) (128 + 16 * nstep) 64 with
        | (u', .ok v) =>
          match allSome ((fieldsOf (v / 2 ^ 1024) 128 nstep).map (stepRead c)) with
          | some _ =>
            match aqRead u' list (8 * c.npart) 64 with
            | (w, .ok p) => (allSome ((fieldsOf p 64 c.npart).map partRead)).isSome && slotsFit w c && c.op != 2 && w.hart.bound.isEmpty
            | _ => false
          | none => false
        | _ => false
      | none => false
    | _ => false) = true := by decide +kernel

/-- An SMERGE whose last step copies its result out, and which awaits the image of participant 1 at its first step. -/
def lateColl2 : Coll := { lateColl with steps := [stepOf 2, stepOf 6], stepNo := 2, destAt := 0x30000 }

/-- The image, and an empty one that only says so. -/
noncomputable def lateState (mask : Nat) : State :=
  collState lateColl2 [{ messageTo (some 77) 8 (sumBytes (emptySum 1 cmsP 0)) with mask := mask }]

/-- Byte o of a page of DRAM that is mapped one to one. -/
def dramHit (o : Nat) : Hit := { key := o, left := 2 ^ 39 - o, pte := 0xDF, pteAt := 0x2000, level := 3 }

theorem witness_AccessEntryUnits_late :
    (∀ mask ∈ [0, 2], ((takeMessage (lateState mask) fun m => (awaited (lateState mask) lateColl2 m).isSome).any fun x =>
      decide (awaited (lateState mask) lateColl2 x.1 = some (0, 1)) && decide (x.1.mask = mask) && decide (bytesSum x.1.bytes = some (emptySum 1 cmsP 0))) = true) ∧
    lateColl2.steps[lateColl2.stepNo]? = none ∧ lateColl2.steps.drop 1 = [stepOf 6] ∧ lateColl2.destSet = false ∧
    hartSpan (lateState 2) lateColl2.destAt 160 .engineStore = (lateState 2, .ok [(dramHit 0x30000, 160)]) ∧
    (let dest := putPoisoned (lateState 2) [(dramHit 0x30000, 160)] (sumBytes (emptySum 1 cmsP 0)) 0
     hartSpan dest lateColl2.statusAt 8 .engineStore = (dest, .ok [(dramHit 0x20000, 8)])) := by
  refine ⟨by decide +kernel, rfl, rfl, rfl,
    span_done (by decide) (by decide) (piece_done (by decide +kernel) (grantPlace_done (by decide) (by decide) (by decide) (by decide)) (by decide) (by decide +kernel)),
    span_done (by decide) (by decide) (piece_done (by decide +kernel) (grantPlace_done (by decide) (by decide) (by decide) (by decide)) (by decide) (by decide +kernel))⟩

/-! ### Witnesses of special cases of the vector queue and of stops -/

/-- A convoy of `vadd` and a permutation of its result. -/
def permuting : State :=
  let s := postConvoy bare [.vadd ov, .vperm { ov with va := 3, vd := 4 }] 8
  { s with hart := { s.hart with run := .running } }

theorem witness_VectorQueueSteps_waits :
    let v := rename permuting
    ((convoyAt v 0).any fun x =>
      (uopsAt v 0).any fun u => decide (u.member = 1) && ((x.2.members[u.member]?).any fun i => (memberOf i).any fun m =>
        (readsOf (curDctx x.1) m).contains 3 && (bindOf x.1 3).isNone && !chained i (groupOf (curDctx x.1) m 3).1 &&
          decide (producerOf v 0 1 3 = some (0, 0, .vadd ov)))) = true ∧
    (∃ y, (uopsAt v 0)[0]? = some y ∧ y.member = 0 ∧ (0, 0) ∉ v.hart.complete) := by decide +kernel

/-- A hart with one queued store, whose block waits for room in a full overflow buffer. -/
def stalled : State :=
  { storing with overflow := List.replicate 256 5, zWriters := [(7, ownerGang storing storing.hart, storing.hart.hartid)], wbWait := [(7, 0)] }

theorem witness_VectorQueueSteps_stalls : writerStalls stalled stalled.hart = true ∧ writerStalls storing storing.hart = false := by decide +kernel

/-- A held store of one element into a page that no leaf maps. -/
def fallen : State := { looping [movedStore] [] with mem := (paged []).mem }

theorem witness_VectorQueueSteps_traps :
    fallen.hart.run = .running ∧ fallen.hart.vq = [] ∧ ((releaseLinked fallen movedStore).2.any fun r => r.any fun t => t.cause != .halt) = true ∧
      (spliceAt fallen.hart).any (fun i => i.region == 2) = true := ⟨rfl, rfl, by decide +kernel, rfl⟩

theorem witness_StopsAndModes_lost :
    let s := { stoppedHart with hart := { stoppedHart.hart with lostAt := some 5 } }
    s.hart.stop = some stopPoint ∧ s.hart.lostAt = some 5 ∧ (∃ v, headerBytes s stopPoint = some (some v) ∧ headerKept s.hart stopPoint v = true) ∧
      opaqueCells s stopPoint.frame (frameszOf s.hart stopPoint) = stopPoint.opaquePart ∧ (contextOf s s.hart.pasid).state = 1 :=
  ⟨rfl, rfl, ⟨_, headerBytes_of (h := frameHit) (span_done (by decide) (by decide) (piece_done (by decide +kernel)
    (grantPlace_done (by decide) (by decide) (by decide) (by decide)) (by decide) (by decide +kernel))), by decide +kernel⟩, by decide +kernel, by decide +kernel⟩

/-! ### Witnesses of special cases of the machine -/

/-- A linked store is held that its own place has been found for, in a page that is gone. -/
def goneLinked : State := { looping [{ movedStore with placed := [[]] }] [] with mem := (paged []).mem }

theorem witness_TranslationSteps_held :
    (∃ h ∈ harts goneLinked, h.pasid = 1 ∧ linkedGone goneLinked h (2 ^ 40) (2 ^ 40 + 4096) = true) ∧
    (∀ h ∈ harts bare, h.pasid = 1 → h.pins = [] ∧ heldStores { bare with hart := h } = []) ∧
    (let s := { paged [] with dev := { (paged []).dev with owner := 0 } }
     s.dev.nextOwner = 0xF ∧ s.time < s.dev.beatAt + 2000000 ∧ moduleFailed s 0x2000 = false ∧ walkFor s 1 0x10000 = some (0x2000, 0xDF, 3)) :=
  ⟨⟨_, List.mem_cons_self .., rfl, by decide +kernel⟩, by decide, rfl, by decide, by decide, by decide +kernel⟩

/-- Two stores of 16 bytes to a Loft module are not durable, and the request to write them is outstanding. -/
def loftRequest (k : Nat) : State :=
  { requested 40 2 with loftPend := [
    { gang := 9, hart := 0, epoch := 0, queue := .vector, po := false, key := k, n := 16, val := 5, mask := 2 ^ 128 - 1, poison := false, whole := false, seq := 1 },
    { gang := 9, hart := 0, epoch := 0, queue := .vector, po := false, key := k + 16, n := 16, val := 0, mask := 2 ^ 128 - 1, poison := false, whole := false, seq := 2 }] }

theorem witness_LinkSteps_durable :
    ((linkKey (requested 40 2) (40 : BitVec 6).toNat 0x80).any fun k =>
      let s := loftRequest k
      (loftWrite { s with packets := s.packets.eraseIdx 0 } k 32 (2 ^ 32 - 1) 5 false).isSome) = true := by decide +kernel

/-- A store in flight to the block of plane 0, of a running or a stopped hart. -/
def shedStore (r : Run) : State :=
  release { shedding with hart := { shedding.hart with run := r } }
    (mkStore shedding { key := shedKey 0 2560, left := 8, pte := 0, pteAt := 0, level := 0 } 8 1 (256 ^ 8 - 1) false .vector 0)

/-- Core 7 has taken two MISMATCH traps; core 0 has been asked for. -/
def failing : State := { bare with cores := [{ coreOf bare 7 with id := 7, mismatches := 2 }], dev := { bare.dev with asked := [0] } }

theorem witness_ModuleSteps_failures :
    (∀ r ∈ [Run.running, .stopped], (shedStore r).others = [] ∧ (shedStore r).hart.run = r ∧
      (match exec (.switchFailure 0) (shedStore r) with
      | .next t => ((shedStore r).hart.storeQ.find? (lostStore { logError (shedStore r) 0x09 7 0 0 0 0 with sheds := t.sheds })).isSome
      | _ => false) = true) ∧
    (2 ≤ (coreOf failing 7).mismatches ∧ (coreOf failing 7).gone = false ∧ (∀ h ∈ harts failing, runsOn h 7 = false) ∧
      (∀ r ∈ failing.cores, clusterOf r.id = clusterOf 7 → r.spare = false) ∧ 0 ∈ failing.dev.asked ∧ failing.others = [] ∧ failing.hart.run = .running ∧
      runsOn failing.hart 0 = true ∧ failing.hart.vq = [] ∧ (coreOf bare 7).mismatches < 2 ∧ (coreOf bare 7).reexec = [] ∧ bare.dev.asked = []) ∧
    (let s := { storing with hart := { storing.hart with duplex := true } }
     s.hart.run = .running ∧ (s.hart.storeQ[0]?).any (fun st => st.queue != .vector) = true) ∧
    isOwn 0x10000 = true ∧ isOwn 0x00C0000000000000 = false := by
  refine ⟨?_, by decide, by decide, by decide, by decide⟩
  intro r hr
  rcases (by simpa using hr : r = .running ∨ r = .stopped) with rfl | rfl <;> exact ⟨rfl, rfl, by decide +kernel⟩

/-- The queue's PASID has been torn down with one record appended. -/
theorem witness_LaunchSteps_gone :
    let s := setQueue (launchable []) 0 { queueOf (launchable []) 0 with goneTo := 1 }
    (queueOf s 0).head < (queueOf s 0).goneTo ∧ (queueOf (launchable []) 0).goneTo ≤ (queueOf (launchable []) 0).head := by decide +kernel

/-- The owner is within its time. -/
def calmed : State := { managed with time := 500000 }

theorem witness_ManagementSteps_calm :
    (calmed.time < calmed.dev.nextAt + 1000000 ∧ calmed.time < calmed.dev.beatAt + 2000000 ∧ calmed.dev.owner = 0 ∧ calmed.dev.nextOwner = 1 ∧
      calmed.dev.ready = true ∧ calmed.dev.session[0]? = some true ∧ MemoryOk calmed) ∧
    (let s := { managed with time := 1500000 }
     s.time < s.dev.beatAt + 2000000 ∧ s.dev.nextOwner = 1 ∧ s.dev.nextAt + 1000000 ≤ s.time) ∧
    managed.dev.owner ≠ 0xF ∧ managed.dev.beatAt + 2000000 ≤ managed.time ∧ (bare.dev.owner = 0xF ∧ bare.dev.nextOwner = 0xF) := by
  unfold MemoryOk; decide +kernel

theorem witness_StepRunsDecoded_room : writerStalls (stepping 0x001CC505) (stepping 0x001CC505).hart = false ∧
    retryWriteBack (stepping 0x001CC505) = stepping 0x001CC505 := ⟨by decide +kernel, rfl⟩

end Sys2Proof.Machine
end

section
/-! SUPPORT. Every step keeps memory in canonical form (R1, R168). A definition that gives a state has one lemma: with the memory of the states it is given
in canonical form, so is that of the state it gives. The lemmas stand in the order of the model's definitions. -/

namespace Sys2Proof.Machine

/-! ### Canonical memory of an outcome, an option and a member -/

/-- Whatever state an outcome gives has its memory in canonical form. -/
def OutOk (o : Out) : Prop := ∀ t, o = .next t → MemoryOk t

/-- Whatever state an option holds has its memory in canonical form. -/
def OptOk (o : Option State) : Prop := ∀ t, o = some t → MemoryOk t

/-- Performing a member, and poisoning what a failed group of it has written, keep memory in canonical form. -/
structure MemberOk (m : Member) : Prop where
  run : ∀ s, MemoryOk s → MemoryOk (m.run s)
  hurt : ∀ g s, MemoryOk s → MemoryOk (m.hurt g s)

theorem OutOk.next {t : State} (h : MemoryOk t) : OutOk (.next t) := by
  intro u e; cases e; exact h

theorem OptOk.of_some {t : State} (h : MemoryOk t) : OptOk (some t) := by
  intro u e; cases e; exact h

theorem OptOk.of_none : OptOk none := by
  intro u e; cases e

theorem OptOk.getD {o : Option State} {s : State} (ho : OptOk o) (h : MemoryOk s) : MemoryOk (o.getD s) := by
  cases o with
  | none => exact h
  | some t => exact ho t rfl

/-- Every member of a list keeps memory in canonical form. -/
def MembersOk (ms : List Member) : Prop := ∀ m ∈ ms, MemberOk m

theorem MembersOk.nil : MembersOk [] := fun _ h => by cases h

theorem MembersOk.cons {m : Member} {ms : List Member} (hm : MemberOk m) (hms : MembersOk ms) : MembersOk (m :: ms) :=
  List.forall_mem_cons.mpr ⟨hm, hms⟩

/-- Whatever state an attempt of the access queue gives has its memory in canonical form. -/
def TryOk (r : Try) : Prop := ∀ t, r = .go t → MemoryOk t

theorem TryOk.go {t : State} (h : MemoryOk t) : TryOk (.go t) := by
  intro u e; cases e; exact h

theorem TryOk.blocked : TryOk .blocked := by
  intro u e; cases e

theorem TryOk.trap {t : Trap} : TryOk (.trap t) := by
  intro u e; cases e

theorem TryOk.ite {c : Prop} [Decidable c] {s t : Try} (hs : TryOk s) (ht : TryOk t) : TryOk (if c then s else t) := by
  split
  · exact hs
  · exact ht

/-- The state that a cut head convoy gives has its memory in canonical form. -/
def CutRunOk : CutRun → Prop
  | .upTo r _ => MemoryOk r
  | .fault r _ _ _ => MemoryOk r

theorem CutRunOk.upTo {r : State} {k : Nat} (h : MemoryOk r) : CutRunOk (.upTo r k) := h

theorem CutRunOk.fault {r : State} {k j : Nat} {t : Trap} (h : MemoryOk r) : CutRunOk (.fault r k j t) := h

theorem CutRunOk.of_eq {x y : CutRun} (h : CutRunOk x) (e : x = y) : CutRunOk y := e ▸ h

/-! ### How the canonical form passes through the shapes of a definition -/

/-- A state is in canonical form when its memory is and it holds durably what a state in form does, whatever else differs. -/
theorem MemoryOk.setMem {s : State} {mem : List Host.Cell} (h : MemoryOk s) (hm : Memory.wf mem = true)
    {hart others cores gangs poison sealed sealKeys durablePoison loftPend combining zcache overflow overflowMoved zWriters wbWait driverEvents
      hostFaults drams lofts peerDrams loftLost loftClean durableClean linkFailed packets replies ctxBase tlb migrations sheds tenants queues launches
      leaf moduleNo inbox outbox remote peersFailed time dev agenda free} :
    MemoryOk { s with
      mem, hart, others, cores, gangs, poison, sealed, sealKeys, durablePoison, loftPend, combining, zcache, overflow, overflowMoved, zWriters,
      wbWait, driverEvents, hostFaults, drams, lofts, peerDrams, loftLost, loftClean, durableClean, linkFailed, packets, replies, ctxBase, tlb, migrations,
      sheds, tenants, queues, launches, leaf, module := moduleNo, inbox, outbox, remote, peersFailed, time, dev, agenda, free } :=
  ⟨hm, h.2⟩

/-- A state with the memory of one in canonical form is in canonical form, whatever else differs. -/
theorem MemoryOk.update {s : State} (h : MemoryOk s)
    {hart others cores gangs poison sealed sealKeys durablePoison loftPend combining zcache overflow overflowMoved zWriters wbWait driverEvents
      hostFaults drams lofts peerDrams loftLost loftClean durableClean linkFailed packets replies ctxBase tlb migrations sheds tenants queues launches
      leaf moduleNo inbox outbox remote peersFailed time dev agenda free} :
    MemoryOk { s with
      hart, others, cores, gangs, poison, sealed, sealKeys, durablePoison, loftPend, combining, zcache, overflow, overflowMoved, zWriters, wbWait,
      driverEvents, hostFaults, drams, lofts, peerDrams, loftLost, loftClean, durableClean, linkFailed, packets, replies, ctxBase, tlb, migrations, sheds,
      tenants, queues, launches, leaf, module := moduleNo, inbox, outbox, remote, peersFailed, time, dev, agenda, free } :=
  h.setMem h.1

theorem MemoryOk.of_fst {α : Type} {x : State × α} {t : State} {r : α} (h : MemoryOk x.1) (e : x = (t, r)) : MemoryOk t := by
  rw [e] at h; exact h

theorem MemoryOk.ite {c : Prop} [Decidable c] {s t : State} (hs : MemoryOk s) (ht : MemoryOk t) : MemoryOk (if c then s else t) := by
  split
  · exact hs
  · exact ht

theorem OutOk.ite {c : Prop} [Decidable c] {s t : Out} (hs : OutOk s) (ht : OutOk t) : OutOk (if c then s else t) := by
  split
  · exact hs
  · exact ht

theorem OptOk.ite {c : Prop} [Decidable c] {s t : Option State} (hs : OptOk s) (ht : OptOk t) : OptOk (if c then s else t) := by
  split
  · exact hs
  · exact ht

theorem OptOk.map {α : Type} {o : Option α} {f : α → State} (hf : ∀ x, o = some x → MemoryOk (f x)) : OptOk (o.map f) := by
  cases o with
  | none => exact OptOk.of_none
  | some x => exact OptOk.of_some (hf x rfl)

theorem OptOk.findSome {α : Type} {f : α → Option State} (hf : ∀ x, OptOk (f x)) {l : List α} : OptOk (l.findSome? f) := by
  intro t e
  obtain ⟨x, -, hx⟩ := List.exists_of_findSome?_eq_some e
  exact hf x t hx

theorem OptOk.bind {α : Type} {o : Option α} {f : α → Option State} (hf : ∀ x, o = some x → OptOk (f x)) : OptOk (o.bind f) := by
  cases o with
  | none => exact OptOk.of_none
  | some x => exact hf x rfl

theorem Memory.wf_filter {m : List Host.Cell} {p : Host.Cell → Bool} (h : Memory.wf m = true) : Memory.wf (m.filter p) = true :=
  Memory.wfFrom_filter p m 0 h

theorem Memory.wf_foldl {β : Type} {f : List Host.Cell → β → List Host.Cell} (hf : ∀ m x, Memory.wf m = true → Memory.wf (f m x) = true)
    {l : List β} {m : List Host.Cell} (h : Memory.wf m = true) : Memory.wf (l.foldl f m) = true :=
  List.foldlRecOn (motive := fun m => Memory.wf m = true) l f h fun _ h x _ => hf _ x h

theorem Memory.wf_ite {c : Prop} [Decidable c] {m n : List Host.Cell} (hm : Memory.wf m = true) (hn : Memory.wf n = true) :
    Memory.wf (if c then m else n) = true := by
  split
  · exact hm
  · exact hn

theorem MemoryOk.foldl_mem {β : Type} {f : State → β → State} {l : List β} (hf : ∀ x ∈ l, ∀ s, MemoryOk s → MemoryOk (f s x)) {s : State}
    (h : MemoryOk s) : MemoryOk (l.foldl f s) :=
  List.foldlRecOn l f h fun s hs x hx => hf x hx s hs

theorem MemoryOk.foldl {β : Type} {f : State → β → State} (hf : ∀ s x, MemoryOk s → MemoryOk (f s x)) {l : List β} {s : State}
    (h : MemoryOk s) : MemoryOk (l.foldl f s) :=
  MemoryOk.foldl_mem (fun x _ s => hf s x) h

theorem MemoryOk.foldl_fst {α β : Type} {f : State × α → β → State × α} (hf : ∀ (a : State × α) x, MemoryOk a.1 → MemoryOk (f a x).1) {l : List β}
    {a : State × α} (h : MemoryOk a.1) : MemoryOk (l.foldl f a).1 :=
  List.foldlRecOn (motive := fun a : State × α => MemoryOk a.1) l f h fun _ h x _ => hf _ x h

/-- What every turn of a counted loop keeps, the loop keeps. -/
theorem forUp_induct {α : Type} {P : α → Prop} {f : Nat → α → α} (hf : ∀ i a, P a → P (f i a)) {n : Nat} :
    ∀ {lo : Nat} {a : α}, P a → P (forUp n lo a f) := by
  induction n with
  | zero => exact id
  | succ n ih => exact fun h => ih (hf _ _ h)

theorem MemoryOk.forUp {f : Nat → State → State} (hf : ∀ i s, MemoryOk s → MemoryOk (f i s)) {n lo : Nat} {s : State} (h : MemoryOk s) :
    MemoryOk (forUp n lo s f) :=
  forUp_induct hf h

theorem MemoryOk.forUp_fst {α : Type} {f : Nat → State × α → State × α} (hf : ∀ i (a : State × α), MemoryOk a.1 → MemoryOk (f i a).1) {n lo : Nat}
    {a : State × α} (h : MemoryOk a.1) : MemoryOk (Machine.forUp n lo a f).1 :=
  forUp_induct (P := fun a : State × α => MemoryOk a.1) hf h

/-! ### Small operations -/

theorem setCore_memoryOk {s : State} {r : Core} (h : MemoryOk s) : MemoryOk (setCore s r) := h.update

theorem mapHarts_memoryOk {s : State} {f : Hart → Hart} (h : MemoryOk s) : MemoryOk (mapHarts s f) := h.update

theorem asHart_memoryOk {s : State} {p : Hart → Bool} {f : State → State} (h : MemoryOk s) (hf : ∀ t, MemoryOk t → MemoryOk (f t)) :
    MemoryOk (asHart s p f) := by
  unfold asHart
  split
  · exact hf _ h
  · split
    · split
      · exact (hf _ h.update).update
      · exact h
    · exact h

theorem rotate_memoryOk {s : State} (h : MemoryOk s) : MemoryOk (rotate s) := by
  unfold rotate
  split
  · exact h.update
  · exact h

theorem eachHart_memoryOk {s : State} {f : State → State} (h : MemoryOk s) (hf : ∀ t, MemoryOk t → MemoryOk (f t)) : MemoryOk (eachHart s f) :=
  MemoryOk.foldl (fun _ _ h1 => rotate_memoryOk (hf _ h1)) h

/-! ### Registers and parking -/

theorem writeX_memoryOk {s : State} {n : BitVec 5} {v : Word} (h : MemoryOk s) : MemoryOk (writeX s n v) := MemoryOk.ite h h.update

theorem wait_memoryOk {s : State} {why : Park} (h : MemoryOk s) : MemoryOk (wait s why) := h.update

theorem advance_memoryOk {s : State} {n : Nat} (h : MemoryOk s) : MemoryOk (advance s n) := h.update

theorem jumpTo_memoryOk {s : State} {target : Word} (h : MemoryOk s) : MemoryOk (jumpTo s target) := h.update

/-! ### The error log, sheds and visible writes -/

theorem logError_memoryOk {s : State} {code die unit pasid addr info : Nat} (h : MemoryOk s) : MemoryOk (logError s code die unit pasid addr info) :=
  MemoryOk.ite h.update h.update

/-! ### Translation, loads and stores -/

theorem setContext_memoryOk {s : State} {pasid : Nat} {c : Context} (h : MemoryOk s) : MemoryOk (setContext s pasid c) :=
  MemoryOk.setMem h (Memory.wf_writeN _ _ _ h.1)

theorem grantPlace_memoryOk {s : State} {va : Word} {acc : Acc} {h : Hit} (h' : MemoryOk s) : MemoryOk (grantPlace s va acc h).1 := by
  unfold grantPlace
  split
  · exact h'
  · exact grant_memoryOk _ _ _ _ h'

theorem release_memoryOk {s : State} {st : PStore} (h : MemoryOk s) : MemoryOk (release s st) := h.update

/-! ### Elements and destinations -/

theorem raise_memoryOk {s : State} {k : Nat} {t : Trap} (h : MemoryOk s) : MemoryOk (raise s k t) := by
  unfold raise
  split
  · exact MemoryOk.ite h.update h
  · exact h.update

theorem waitAtEl_memoryOk {s : State} {e : Nat} {why : Option Word} (h : MemoryOk s) : MemoryOk (waitAtEl s e why) := h.update

theorem mustWait_memoryOk {s : State} {why : Option Word} (h : MemoryOk s) : MemoryOk (mustWait s why) := waitAtEl_memoryOk h

theorem setEl_memoryOk {s : State} {r e w x : Nat} {pois : Bool} (h : MemoryOk s) : MemoryOk (setEl s r e w x pois) := h.update

theorem setReg_memoryOk {s : State} {r x cells : Nat} (h : MemoryOk s) : MemoryOk (setReg s r x cells) := h.update

theorem setPred_memoryOk {s : State} {p e : Nat} {b pois : Bool} (h : MemoryOk s) : MemoryOk (setPred s p e b pois) := h.update

theorem setPsm_memoryOk {s : State} {e : Nat} (h : MemoryOk s) : MemoryOk (setPsm s e) := h.update

theorem setScale_memoryOk {s : State} {k j c : Nat} {pois : Bool} (h : MemoryOk s) : MemoryOk (setScale s k j c pois) := h.update

theorem bodyLoop_memoryOk {s : State} {f : Nat → State → State} (h : MemoryOk s) (hf : ∀ x t, MemoryOk t → MemoryOk (f x t)) :
    MemoryOk (bodyLoop s f) :=
  MemoryOk.forUp (fun _ _ h1 => MemoryOk.ite (hf _ _ h1) h1) h

theorem zeroTail_memoryOk {s : State} {r lo : Nat} (h : MemoryOk s) : MemoryOk (zeroTail s r lo) := setReg_memoryOk h

theorem tail_memoryOk {s : State} {d w : Nat} (h : MemoryOk s) : MemoryOk (tail s d w) := MemoryOk.ite (zeroTail_memoryOk h) h

theorem openOld_memoryOk {s : State} {d : Nat} (h : MemoryOk s) : MemoryOk (openOld s d) := by
  unfold openOld
  split
  · exact setReg_memoryOk h
  · exact h

theorem writeVec_memoryOk {s : State} {d w p : Nat} {f : Nat → Nat × Bool} (h : MemoryOk s) : MemoryOk (writeVec s d w p f) :=
  tail_memoryOk (bodyLoop_memoryOk (openOld_memoryOk h)
    (fun _ _ h1 => MemoryOk.ite (setEl_memoryOk h1) (MemoryOk.ite (setEl_memoryOk h1) (MemoryOk.ite (setEl_memoryOk h1) h1))))

theorem writePred_memoryOk {s : State} {d p : Nat} {f : Nat → Bool × Bool} (h : MemoryOk s) : MemoryOk (writePred s d p f) := by
  unfold writePred
  dsimp only
  split
  · exact (bodyLoop_memoryOk h
      (fun _ _ h1 => MemoryOk.ite (setPred_memoryOk h1) (MemoryOk.ite (setPred_memoryOk h1) (MemoryOk.ite (setPred_memoryOk h1) h1)))).update
  · exact bodyLoop_memoryOk h (fun _ _ h1 => MemoryOk.ite (setPred_memoryOk h1)
      (MemoryOk.ite (setPred_memoryOk h1) (MemoryOk.ite (setPred_memoryOk h1) h1)))

/-! ### Members of the element-wise instructions -/

theorem hurtScalar_memoryOk {x0 : Nat} {s : State} (h : MemoryOk s) : MemoryOk (hurtScalar x0 s) := raise_memoryOk h

theorem memVV_memberOk {f : OpV} {l : List Nat} {g : Nat → Nat → Nat → Nat} : MemberOk (memVV f l g) :=
  ⟨fun _ h => writeVec_memoryOk h, fun _ _ h => h⟩

theorem memVX_memberOk {f : OpVS} {l : List Nat} {g : Nat → Nat → Nat → Nat} : MemberOk (memVX f l g) :=
  ⟨fun _ h => writeVec_memoryOk h, fun _ _ h => h⟩

theorem memV1_memberOk {f : OpV} {l : List Nat} {g : Nat → Nat → Nat} : MemberOk (memV1 f l g) := ⟨fun _ h => writeVec_memoryOk h, fun _ _ h => h⟩

theorem selMember_memberOk {f : OpV} : MemberOk (selMember f) :=
  ⟨fun _ h => tail_memoryOk (bodyLoop_memoryOk (openOld_memoryOk h) (fun _ _ h1 => setEl_memoryOk h1)), fun _ _ h => h⟩

theorem memF2_memberOk {f : OpV} {g : Nat → Nat → Nat → Nat → Nat} : MemberOk (memF2 f g) := by
  unfold memF2
  refine ⟨fun _ h => ?_, fun _ _ h => ?_⟩
  · dsimp only
    exact writeVec_memoryOk h
  · dsimp only
    exact MemberOk.hurt memVV_memberOk _ _ h

theorem memSqrt_memberOk {f : OpV} : MemberOk (memSqrt f) := ⟨fun _ h => writeVec_memoryOk h, fun _ _ h => h⟩

theorem memFma_memberOk {f : OpV} {negP negC : Bool} : MemberOk (memFma f negP negC) := ⟨fun _ h => writeVec_memoryOk h, fun _ _ h => h⟩

theorem memFX_memberOk {f : OpVS} {g : Nat → Nat → Nat → Nat → Nat} : MemberOk (memFX f g) := by
  unfold memFX
  refine ⟨fun _ h => ?_, fun _ _ h => ?_⟩
  · dsimp only
    exact writeVec_memoryOk h
  · dsimp only
    exact MemberOk.hurt memVX_memberOk _ _ h

theorem memFmaX_memberOk {f : OpVS} : MemberOk (memFmaX f) := ⟨fun _ h => writeVec_memoryOk h, fun _ _ h => h⟩

theorem memBcast_memberOk {f : OpVS} : MemberOk (memBcast f) := ⟨fun _ h => writeVec_memoryOk h, fun _ _ h => h⟩

theorem memCmp_memberOk {f : OpV} {l : List Nat} {g : Nat → Nat → Nat → Bool} : MemberOk (memCmp f l g) :=
  ⟨fun _ h => writePred_memoryOk h, fun _ _ h => h⟩

theorem cvtScaled_memoryOk {s : State} {f : OpCv} (h : MemoryOk s) : MemoryOk (cvtScaled s f) := by
  unfold cvtScaled
  have ho := openOld_memoryOk (d := f.vd.toNat) h
  refine tail_memoryOk (bodyLoop_memoryOk (MemoryOk.ite ho (MemoryOk.forUp (fun j t ht => ?_) ho)) fun e t ht => ?_)
  · extract_lets es pois r u v
    have hv : MemoryOk v := MemoryOk.foldl (fun _ _ h => setEl_memoryOk h) (setScale_memoryOk ht)
    exact MemoryOk.ite ht (MemoryOk.ite (MemoryOk.foldl (fun _ _ h => MemoryOk.ite h (setEl_memoryOk h)) hv) hv)
  · exact MemoryOk.ite ht (MemoryOk.ite (setEl_memoryOk ht) (MemoryOk.ite (setEl_memoryOk ht) ht))

theorem memCvt_memberOk {f : OpCv} : MemberOk (memCvt f) := ⟨fun _ h => MemoryOk.ite (cvtScaled_memoryOk h) (writeVec_memoryOk h), fun _ _ h => h⟩

theorem memPermute_memberOk {f : OpV} {l srcs : List Nat} {g : State → Nat → Nat → Pick} : MemberOk (memPermute f l srcs g) :=
  ⟨fun _ h => writeVec_memoryOk h, fun _ _ h => h⟩

theorem memCompress_memberOk {f : OpV} : MemberOk (memCompress f) := by
  refine ⟨fun s h => ?_, fun _ _ h => h⟩
  unfold memCompress
  dsimp only
  split
  · exact h
  · have hr := forUp_induct (P := fun a : Nat × State × Bool => MemoryOk a.2.1)
      (f := fun e a =>
        let pois := a.2.2 || activeP s f.pred.toNat e
        if active s f.pred.toNat e then
          (a.1 + 1, setEl a.2.1 f.vd.toNat a.1 (ew s) (el s f.va.toNat e (ew s)) (elP s f.va.toNat e (ew s) || pois), pois)
        else (a.1, a.2.1, pois))
      (fun i a h => by dsimp only; split; exacts [setEl_memoryOk h, h])
      (n := s.hart.cur.vl) (lo := 0) (a := (0, openOld s f.vd.toNat, false)) (openOld_memoryOk h)
    split
    · exact zeroTail_memoryOk hr
    · exact hr

theorem memFold_memberOk {f : OpV} {l : List Nat} {rd : Nat → Nat → Nat} {g : Nat → Nat → Nat → Nat → Nat} {empty : Nat → Nat}
    {fin : Nat → Nat → Nat} : MemberOk (memFold f l rd g empty fin) := by
  unfold memFold
  refine ⟨fun _ h => ?_, fun _ _ h => ?_⟩
  · dsimp only
    exact MemoryOk.ite (raise_memoryOk h) (writeX_memoryOk h)
  · dsimp only
    exact hurtScalar_memoryOk h

theorem memPred2_memberOk {f : OpV} {g : Bool → Bool → Bool} : MemberOk (memPred2 f g) := ⟨fun _ h => writePred_memoryOk h, fun _ _ h => h⟩

theorem pltMember_memberOk {f : OpV} : MemberOk (pltMember f) := ⟨fun _ h => writePred_memoryOk h, fun _ _ h => h⟩

theorem getsmMember_memberOk {f : OpV} : MemberOk (getsmMember f) := ⟨fun _ h => writePred_memoryOk h, fun _ _ h => h⟩

theorem countMember_memberOk {f : OpV} : MemberOk (countMember f) := by
  unfold countMember
  refine ⟨fun _ h => ?_, fun _ _ h => ?_⟩
  · dsimp only
    exact MemoryOk.ite h (MemoryOk.ite (writeX_memoryOk h) (raise_memoryOk h))
  · dsimp only
    exact hurtScalar_memoryOk h

theorem firstMember_memberOk {f : OpV} : MemberOk (firstMember f) := by
  unfold firstMember
  refine ⟨fun _ h => ?_, fun _ _ h => ?_⟩
  · dsimp only
    exact MemoryOk.ite h (MemoryOk.ite (writeX_memoryOk h) (raise_memoryOk h))
  · dsimp only
    exact hurtScalar_memoryOk h

/-! ### Status beside results -/

theorem setSeen_memoryOk {s : State} (h : MemoryOk s) : MemoryOk (setSeen s) := h.update

theorem dirtyS_memoryOk {s : State} {n : Nat} (h : MemoryOk s) : MemoryOk (dirtyS s n) := h.update

theorem dirtyM_memoryOk {s : State} {n : Nat} (h : MemoryOk s) : MemoryOk (dirtyM s n) := h.update

theorem setOF_memoryOk {s : State} (h : MemoryOk s) : MemoryOk (setOF s) := h.update

theorem nextEpoch_memoryOk {s : State} {n : Nat} (h : MemoryOk s) : MemoryOk (nextEpoch s n) := h.update

theorem takeFree_memoryOk {s : State} (h : MemoryOk s) : MemoryOk (takeFree s).2 := h.update

/-! ### Convoys -/

theorem postConvoy_memoryOk {s : State} {is : List Instr} {len : Nat} (h : MemoryOk s) : MemoryOk (postConvoy s is len) := h.update

theorem zeroRegs_memoryOk {s : State} {l : List Nat} (h : MemoryOk s) : MemoryOk (zeroRegs s l) := MemoryOk.foldl (fun _ _ h1 => setReg_memoryOk h1) h

theorem beginConvoy_memoryOk {s : State} {c : Convoy} (h : MemoryOk s) : MemoryOk (beginConvoy s c) := (zeroRegs_memoryOk h).update

theorem setStream_memoryOk {s : State} {r : Stream} (h : MemoryOk s) : MemoryOk (setStream s r) := h.update

theorem setColl_memoryOk {s : State} {table : Word} {c : Coll} (h : MemoryOk s) : MemoryOk (setColl s table c) := h.update

theorem takeChunk_memoryOk {s : State} {r : Nat} (h : MemoryOk s) : MemoryOk (takeChunk s r) := by
  unfold takeChunk
  dsimp only
  split
  · exact h
  · split
    · exact raise_memoryOk h
    · split
      · exact raise_memoryOk h
      · split
        · exact setReg_memoryOk (setStream_memoryOk h)
        · exact MemoryOk.ite (raise_memoryOk h) (mustWait_memoryOk h)
  · split
    · split
      · exact raise_memoryOk h
      · split
        · exact setReg_memoryOk (setColl_memoryOk h)
        · exact mustWait_memoryOk h
    · split
      · exact mustWait_memoryOk h
      · exact MemoryOk.ite (raise_memoryOk h) (raise_memoryOk h)

theorem setOld_memoryOk {s : State} {r : Nat} {both : Bool} (h : MemoryOk s) : MemoryOk (setOld s r both) := MemoryOk.ite h.update (setReg_memoryOk h)

theorem openDst_memoryOk {m : Member} {both : Bool} {s : State} {r : Nat} (h : MemoryOk s) : MemoryOk (openDst m both s r) := by
  unfold openDst
  dsimp only
  split
  · exact h
  · split
    · exact raise_memoryOk h
    · split
      · exact raise_memoryOk h
      · exact MemoryOk.ite (mustWait_memoryOk h) (setOld_memoryOk h)
  · split
    · exact MemoryOk.ite (raise_memoryOk h) (setOld_memoryOk h)
    · split
      · exact mustWait_memoryOk h
      · exact MemoryOk.ite (raise_memoryOk h) (raise_memoryOk h)

theorem pushDst_memoryOk {s : State} {r : Nat} (h : MemoryOk s) : MemoryOk (pushDst s r) := by
  unfold pushDst
  dsimp only
  split
  · split
    · exact setStream_memoryOk h
    · exact h
  · split
    · exact setColl_memoryOk h
    · exact h
  · exact h

theorem keepParts_memoryOk {s : State} {l : List Nat} (h : MemoryOk s) : MemoryOk (keepParts s l) := h.update

theorem runBound_memoryOk {m : Member} {d : DCtx} {s : State} (hm : MemberOk m) (h : MemoryOk s) : MemoryOk (runBound m d s) := by
  unfold runBound
  extract_lets single grouped srcs dsts t u
  split
  · exact raise_memoryOk h
  · have hu : MemoryOk u := MemoryOk.foldl (fun _ _ h => openDst_memoryOk h) (MemoryOk.foldl (fun _ _ h => takeChunk_memoryOk h) h)
    have hp : MemoryOk (dsts.foldl pushDst (keepParts (m.run u) dsts)) :=
      MemoryOk.foldl (fun _ _ h => pushDst_memoryOk h) (keepParts_memoryOk (MemberOk.run hm _ hu))
    split
    · exact h.update
    · exact MemoryOk.foldl (fun _ _ h => h.update) hp.update

theorem hurtGroup_memoryOk {s : State} {m : Member} {t : State} {g : Nat} (hm : MemberOk m) (ht : MemoryOk t) : MemoryOk (hurtGroup s m t g) :=
  MemberOk.hurt hm _ _ ((MemoryOk.foldl (fun _ _ h1 => h1.update) (MemoryOk.foldl (fun _ _ h1 => h1.update) ht)).update)

theorem hurtMember_memoryOk {s t : State} {m : Member} (ht : MemoryOk t) (hm : MemberOk m) : MemoryOk (hurtMember s t m) :=
  MemoryOk.foldl (fun _ _ h1 => hurtGroup_memoryOk hm h1) ht

theorem withHurt_memberOk {m : Member} (hm : MemberOk m) : MemberOk (withHurt m) :=
  ⟨fun _ h => hurtMember_memoryOk (MemberOk.run hm _ h) hm, fun _ _ h => MemberOk.hurt hm _ _ h⟩

theorem compareMember_memoryOk {s : State} {m : Member} (h : MemoryOk s) : MemoryOk (compareMember s m) := by
  unfold compareMember
  dsimp only
  split
  · split
    · exact MemoryOk.ite (raise_memoryOk (raise_memoryOk h)) (raise_memoryOk h)
    · exact MemoryOk.ite (raise_memoryOk h) h
  · split
    · exact raise_memoryOk h
    · exact h

theorem nextMember_memoryOk {t : State} {m : Member} (ht : MemoryOk t) : MemoryOk (nextMember t m) := ht.update

theorem runMember_memoryOk {s : State} {m : Member} (h : MemoryOk s) (hm : MemberOk m) : MemoryOk (runMember s m) := by
  unfold runMember
  split
  · exact h
  · refine nextMember_memoryOk ?_
    split
    · exact MemberOk.run (withHurt_memberOk hm) _ (compareMember_memoryOk h)
    · exact runBound_memoryOk (withHurt_memberOk hm) (compareMember_memoryOk h)

theorem runMembers_memoryOk {s : State} {ms : List Member} (h : MemoryOk s) (hms : MembersOk ms) : MemoryOk (runMembers s ms) :=
  MemoryOk.foldl_mem (fun m hm _ h => runMember_memoryOk h (hms m hm)) h

theorem retire_memoryOk {s r : State} {n : Nat} (hr : MemoryOk r) : MemoryOk (retire s r n) := (MemoryOk.ite (zeroRegs_memoryOk hr) hr).update

theorem keepHead_memoryOk {s r : State} {c : Convoy} (h : MemoryOk s) (hr : MemoryOk r) : MemoryOk (keepHead s r c) := (MemoryOk.ite hr h).update

theorem keepRelease_memoryOk {a : State × State} {m : Member} (ha : MemoryOk a.1 ∧ MemoryOk a.2) (hm : MemberOk m) :
    MemoryOk (keepRelease a m).1 ∧ MemoryOk (keepRelease a m).2 := by
  obtain ⟨h1, h2⟩ := ha
  have ht := runMember_memoryOk h1 hm
  unfold keepRelease
  dsimp only
  split
  · exact ⟨ht, h2.update⟩
  · exact ⟨ht, h2⟩

theorem foldl_keepRelease_memoryOk {ms : List Member} (hms : MembersOk ms) :
    ∀ {a : State × State}, MemoryOk a.1 ∧ MemoryOk a.2 → MemoryOk (ms.foldl keepRelease a).1 ∧ MemoryOk (ms.foldl keepRelease a).2 := by
  induction ms with
  | nil => exact fun h => h
  | cons m ms ih =>
    obtain ⟨hm, hms⟩ := List.forall_mem_cons.mp hms
    exact fun h => ih hms (keepRelease_memoryOk h hm)

theorem logMismatch_memoryOk {s : State} {t : Trap} (h : MemoryOk s) : MemoryOk (logMismatch s t) :=
  MemoryOk.ite h (setCore_memoryOk (logError_memoryOk (logError_memoryOk h)))

theorem poisonTile_memoryOk {s : State} {n : Nat} (h : MemoryOk s) : MemoryOk (poisonTile s n) := dirtyM_memoryOk h.update

theorem mismatchEffects_memoryOk {s : State} {c : Convoy} {j : Nat} {t : Trap} (h : MemoryOk s) : MemoryOk (mismatchEffects s c j t) := by
  unfold mismatchEffects
  split
  · exact h
  · exact MemoryOk.foldl (fun _ _ h1 => dirtyS_memoryOk h1.update) (MemoryOk.foldl (fun _ _ h1 => poisonTile_memoryOk h1) (logMismatch_memoryOk h))

theorem storesBefore_memoryOk {b r : State} {ms : List Member} {j : Nat} {t : Trap} (hr : MemoryOk r) : MemoryOk (storesBefore b r ms j t) :=
  MemoryOk.ite hr.update hr

theorem keepWalked_memoryOk {s : State} {l : List (Nat × Bool)} (h : MemoryOk s) : MemoryOk (keepWalked s l) :=
  MemoryOk.foldl (fun _ _ h1 => setAD_memoryOk _ _ h1) h

theorem stopConvoy_memoryOk {s : State} {c : Convoy} {ms : List Member} {k j : Nat} {t : Trap} {taken : Option (BitVec 32)}
    {pennants : Vector (List (BitVec 32)) 6} {blame : Option Word} (h : MemoryOk s) (hms : MembersOk ms) :
    MemoryOk (stopConvoy s c ms k j t taken pennants blame) := by
  have hb := beginConvoy_memoryOk (c := c) h
  unfold stopConvoy
  refine takeStop_memoryOk _ _ _ _ _ _ _ _ (mismatchEffects_memoryOk (MemoryOk.update ?_))
  split
  · exact (foldl_keepRelease_memoryOk hms ⟨hb, h⟩).2
  · exact storesBefore_memoryOk (runMembers_memoryOk hb.update hms)

theorem runBelow_memoryOk {b : State} {ms : List Member} (hb : MemoryOk b) (hms : MembersOk ms) {n : Nat} :
    ∀ {r : State}, MemoryOk r → MemoryOk (runBelow b ms n r) := by
  induction n with
  | zero => exact fun h => h
  | succ n ih =>
    intro r h
    unfold runBelow
    split
    · exact h
    · exact ih (runMembers_memoryOk hb.update hms)

theorem faultBelow_optOk {b : State} {ms : List Member} {r : State} (hb : MemoryOk b) (hms : MembersOk ms) (hr : MemoryOk r) :
    OptOk (faultBelow b ms r) := by
  unfold faultBelow
  split
  · exact OptOk.of_none
  · exact OptOk.ite (OptOk.of_some (runBelow_memoryOk hb hms hr)) OptOk.of_none

theorem settleCompare_memoryOk {b : State} {ms : List Member} (hb : MemoryOk b) : MemoryOk (settleCompare b ms) := by
  unfold settleCompare
  split
  · exact hb
  · exact MemoryOk.ite hb (raise_memoryOk hb)

theorem settleEarlier_memoryOk {s : State} {c : Convoy} (h : MemoryOk s) : MemoryOk (settleEarlier s c) := MemoryOk.ite (drainAll_memoryOk h) h

theorem runConvoy_memoryOk {ms : List Member} {s : State} (hms : MembersOk ms) (h : MemoryOk s) : MemoryOk (runConvoy ms s) := by
  unfold runConvoy
  split
  · exact h
  · next c _ _ =>
    extract_lets s b _ r stop
    have hs : MemoryOk s := settleEarlier_memoryOk h
    have hb : MemoryOk b := beginConvoy_memoryOk hs
    have hr : MemoryOk r := runMembers_memoryOk (settleCompare_memoryOk hb) hms
    have hbelow : OptOk (faultBelow b ms r) := faultBelow_optOk hb hms hr
    have hstop (q : State) (hq : MemoryOk q) : MemoryOk (stop q) := by
      unfold stop
      split
      · exact stopConvoy_memoryOk (keepWalked_memoryOk hs) hms
      · exact keepHead_memoryOk hs hq
    clear_value stop r
    split
    · exact takeStop_memoryOk _ _ _ _ _ _ _ _ hs.update
    · split
      · exact MemoryOk.ite (OptOk.getD (OptOk.map (fun _ _ => hstop _ (hbelow _ ‹_›))) (keepHead_memoryOk hs hr)) (hstop r hr)
      · exact MemoryOk.ite (hstop _ (OptOk.getD hbelow hr)) (retire_memoryOk hr)

theorem solo_outOk {i : Instr} {m : Member} {s : State} (hm : MemberOk m) (h : MemoryOk s) : OutOk (solo i m s) := by
  unfold solo
  split
  · exact OutOk.next (takeTrap_memoryOk _ _ h)
  · split
    · exact OutOk.next (wait_memoryOk h)
    · refine OutOk.next ?_
      split
      · exact runConvoy_memoryOk (MembersOk.cons hm MembersOk.nil) (postConvoy_memoryOk h)
      · exact postConvoy_memoryOk h

/-! ### Scalar accesses -/

theorem drainTarget_memoryOk {s : State} {t : Nat} (h : MemoryOk s) : MemoryOk (drainTarget s t) :=
  MemoryOk.foldl (fun _ _ h1 => applyStore_memoryOk _ h1) h.update

theorem retireCombine_memoryOk {s : State} {c : Combine} (h : MemoryOk s) : MemoryOk (retireCombine s c) := applyStoreOf_memoryOk _ _ _ h

theorem retireWhere_memoryOk {s : State} {p : Combine → Bool} (h : MemoryOk s) : MemoryOk (retireWhere s p) :=
  MemoryOk.foldl (fun _ _ h1 => retireCombine_memoryOk h1) h.update

theorem flushCombine_memoryOk {s : State} {key n : Nat} (h : MemoryOk s) : MemoryOk (flushCombine s key n) := MemoryOk.ite (retireWhere_memoryOk h) h

theorem checkAccess_memoryOk {s : State} {va : Word} {n align : Nat} {acc : Acc} (h : MemoryOk s) : MemoryOk (checkAccess s va n align acc).1 := by
  unfold checkAccess
  split
  · exact h
  · split
    · split <;> exact MemoryOk.of_fst (resolve_memoryOk _ _ _ h) ‹_›
    · exact resolve_memoryOk _ _ _ h

theorem checkScoped_memoryOk {s : State} {va : Word} {n sc : Nat} {acc : Acc} (h : MemoryOk s) : MemoryOk (checkScoped s va n sc acc).1 := by
  unfold checkScoped
  split
  · exact h
  · split
    · split
      · exact h
      · split
        · split <;> exact MemoryOk.of_fst (grantPlace_memoryOk h) ‹_›
        · exact MemoryOk.of_fst (grantPlace_memoryOk h) ‹_›
    · exact h

theorem scalarLoad_outOk {s : State} {ea : Word} {n len : Nat} {fin : State → Nat → State} (h : MemoryOk s)
    (hfin : ∀ t x, MemoryOk t → MemoryOk (fin t x)) : OutOk (scalarLoad s ea n len fin) := by
  unfold scalarLoad
  split
  · exact OutOk.next (wait_memoryOk h)
  · split
    · exact OutOk.next (takeTrap_memoryOk _ _ h)
    · exact OutOk.next (wait_memoryOk (MemoryOk.of_fst (checkAccess_memoryOk h) ‹_›))
    · split
      · exact OutOk.next (takeTrap_memoryOk _ _ h)
      · exact OutOk.next (advance_memoryOk (hfin _ _ (MemoryOk.of_fst (checkAccess_memoryOk h) ‹_›)))

theorem scalarStore_outOk {s : State} {ea : Word} {n val len : Nat} (h : MemoryOk s) : OutOk (scalarStore s ea n val len) := by
  unfold scalarStore
  split
  · exact OutOk.next (wait_memoryOk h)
  · split
    · exact OutOk.next (takeTrap_memoryOk _ _ h)
    · exact OutOk.next (wait_memoryOk (MemoryOk.of_fst (checkAccess_memoryOk h) ‹_›))
    · exact OutOk.next (advance_memoryOk (release_memoryOk (MemoryOk.of_fst (checkAccess_memoryOk h) ‹_›)))

theorem scalarAmo_outOk {f : OpSA} {writes reads : Bool} {regs : List (BitVec 5)} {g : Word → Option Word} {s : State} (h : MemoryOk s) :
    OutOk (scalarAmo f writes reads regs g s) := by
  unfold scalarAmo
  extract_lets ea sc
  split
  · exact OutOk.next (wait_memoryOk h)
  · split
    · exact OutOk.next (wait_memoryOk h)
    · split
      · exact OutOk.next (wait_memoryOk h)
      · split
        · exact OutOk.next (takeTrap_memoryOk _ _ h)
        · exact OutOk.next (takeTrap_memoryOk _ _ h)
        · exact OutOk.next (wait_memoryOk (MemoryOk.of_fst (checkScoped_memoryOk h) ‹_›))
        · split
          · exact OutOk.next (takeTrap_memoryOk _ _ h)
          · extract_lets t1 t2 old t3
            have h2 : MemoryOk t2 :=
              have h1 := drainTarget_memoryOk (MemoryOk.of_fst (checkScoped_memoryOk h) ‹_›)
              MemoryOk.ite (nextEpoch_memoryOk h1) h1
            have h3 : MemoryOk t3 := by
              unfold t3
              split
              · exact applyStore_memoryOk _ h2
              · exact h2
            exact OutOk.next (advance_memoryOk (MemoryOk.ite (writeX_memoryOk h3) h3))

/-! ### Integer arithmetic of the sequencer -/

theorem alu_outOk {f : OpA} {g : Word → Word → Word} {s : State} (h : MemoryOk s) : OutOk (alu f g s) := by
  unfold alu
  split
  · exact OutOk.next (wait_memoryOk h)
  · exact OutOk.next (advance_memoryOk (writeX_memoryOk h))

theorem aluImm_outOk {a d : BitVec 5} {n : Nat} {g : Word → Word} {s : State} (h : MemoryOk s) : OutOk (aluImm a d n g s) := by
  unfold aluImm
  split
  · exact OutOk.next (wait_memoryOk h)
  · exact OutOk.next (advance_memoryOk (writeX_memoryOk h))

theorem aluC_outOk {a b d : BitVec 5} {g : Word → Word → Word} {s : State} (h : MemoryOk s) : OutOk (aluC a b d g s) := by
  unfold aluC
  split
  · exact OutOk.next (wait_memoryOk h)
  · exact OutOk.next (advance_memoryOk (writeX_memoryOk h))

/-! ### Fetching -/

theorem fetchHalf_memoryOk {s : State} {va : Word} (h : MemoryOk s) : MemoryOk (fetchHalf s va).1 := by
  unfold fetchHalf
  split
  · exact MemoryOk.of_fst (resolve_memoryOk _ _ _ h) ‹_›
  · exact h
  · exact h

theorem fetchHalves_memoryOk {n : Nat} : ∀ {s : State} {va : Word}, MemoryOk s → MemoryOk (fetchHalves s va n).1 := by
  induction n with
  | zero => exact fun h => h
  | succ n ih =>
    intro s va h
    unfold fetchHalves
    split
    · have ht := ih (va := va + 2) (MemoryOk.of_fst (fetchHalf_memoryOk h) ‹_›)
      split
      · exact MemoryOk.of_fst ht ‹_›
      · exact ht
    · exact fetchHalf_memoryOk h

theorem fetchBits_memoryOk {s : State} {va : Word} (h : MemoryOk s) : MemoryOk (fetchBits s va).1 := by
  unfold fetchBits
  split
  · split
    · exact MemoryOk.of_fst (fetchHalves_memoryOk (MemoryOk.of_fst (fetchHalf_memoryOk h) ‹_›)) ‹_›
    · exact fetchHalves_memoryOk (MemoryOk.of_fst (fetchHalf_memoryOk h) ‹_›)
  · exact fetchHalf_memoryOk h

theorem swapRole_memoryOk {s : State} (h : MemoryOk s) : MemoryOk (swapRole s) := by
  unfold swapRole
  split
  · exact h.update
  · exact h

theorem roleFor_memoryOk {s : State} {a : Word} (h : MemoryOk s) : MemoryOk (roleFor s a) := MemoryOk.ite h (swapRole_memoryOk h)

/-! ### Branches and jumps -/

theorem goTo_memoryOk {s : State} {target : Word} (h : MemoryOk s) : MemoryOk (goTo s target) := by
  unfold goTo
  split <;> exact jumpTo_memoryOk h

theorem transfer_outOk {s : State} {target : Word} {w : State → State} (h : MemoryOk s) (hw : ∀ t, MemoryOk t → MemoryOk (w t)) :
    OutOk (transfer s target w) := by
  unfold transfer
  split
  · exact OutOk.next (wait_memoryOk h)
  · split
    · exact OutOk.next (takeTrap_memoryOk _ _ h)
    · exact OutOk.next (goTo_memoryOk (hw _ (MemoryOk.of_fst (fetchHalves_memoryOk h) ‹_›)))
  · exact OutOk.next (goTo_memoryOk (hw _ h))

theorem backBranch_memoryOk {s : State} {sp : Splice} {consumer taken : Bool} (h : MemoryOk s) : MemoryOk (backBranch s sp consumer taken) := by
  unfold backBranch
  dsimp only
  split
  · exact MemoryOk.ite ((jumpTo_memoryOk h).update) ((jumpTo_memoryOk h).update)
  · split
    · exact (jumpTo_memoryOk h).update
    · split <;> exact (jumpTo_memoryOk h).update

theorem branch_outOk {a b : BitVec 5} {off : Word} {n : Nat} {cond : Word → Word → Bool} {s : State} (h : MemoryOk s) :
    OutOk (branch a b off n cond s) := by
  unfold branch
  split
  · exact OutOk.next (wait_memoryOk h)
  · dsimp only
    split
    · split
      · split
        · exact OutOk.next (wait_memoryOk h)
        · split
          · exact OutOk.next (takeTrap_memoryOk _ _ h)
          · refine OutOk.next ?_
            refine backBranch_memoryOk ?_
            refine MemoryOk.of_fst ?_ ‹_›
            split
            · exact fetchHalves_memoryOk h
            · exact h
        · exact OutOk.next (backBranch_memoryOk h)
      · split
        · exact transfer_outOk h (fun _ h1 => h1)
        · exact OutOk.next (advance_memoryOk h)
    · split
      · exact transfer_outOk h (fun _ h1 => h1)
      · exact OutOk.next (advance_memoryOk h)

theorem execJal_outOk {f : OpU19} {s : State} (h : MemoryOk s) : OutOk (execJal f s) := by
  unfold execJal
  split
  · exact OutOk.next (wait_memoryOk h)
  · exact transfer_outOk h (fun _ h1 => writeX_memoryOk h1)

theorem execJalr_outOk {f : OpI14} {s : State} (h : MemoryOk s) : OutOk (execJalr f s) := by
  unfold execJalr
  split
  · exact OutOk.next (wait_memoryOk h)
  · dsimp only
    split
    · exact OutOk.next (takeTrap_memoryOk _ _ h)
    · exact transfer_outOk h (fun _ h1 => writeX_memoryOk h1)

theorem execCJr_outOk {a : BitVec 5} {s : State} (h : MemoryOk s) : OutOk (execCJr a s) := by
  unfold execCJr
  split
  · exact OutOk.next (wait_memoryOk h)
  · dsimp only
    split
    · exact OutOk.next (takeTrap_memoryOk _ _ h)
    · exact transfer_outOk h (fun _ h1 => h1)

/-! ### Control registers and the vector length -/

theorem crRead_memoryOk {s : State} {idx : Nat} (h : MemoryOk s) : MemoryOk (crRead s idx).2 := by
  unfold crRead
  dsimp only
  split
  · exact (takeFree_memoryOk h).update
  · exact (takeFree_memoryOk h).update
  · exact (takeFree_memoryOk h).update
  · exact h

theorem setTilen_memoryOk {s : State} {v : Nat} (h : MemoryOk s) : MemoryOk (setTilen s v) :=
  (MemoryOk.forUp (fun _ _ h1 => MemoryOk.ite h1 (MemoryOk.ite (dirtyM_memoryOk h1.update) h1.update)) h).update

theorem clearPsm_memoryOk {s : State} (h : MemoryOk s) : MemoryOk (clearPsm s) := h.update

theorem crStore_memoryOk {s : State} {idx v w1c : Nat} (h : MemoryOk s) : MemoryOk (crStore s idx v w1c) := by
  unfold crStore
  dsimp only
  split
  · exact h.update
  · exact h.update
  · exact h.update
  · exact h.update
  · exact h.update
  · exact h.update
  · exact h.update
  · exact h.update
  · exact h.update
  · exact h.update
  · exact setTilen_memoryOk h
  · exact h.update
  · exact MemoryOk.ite h (clearPsm_memoryOk h)
  · exact h

theorem crWrite_outOk {f : OpC} {rw : Nat → Nat → Nat} {w1c : Bool} {s : State} (h : MemoryOk s) : OutOk (crWrite f rw w1c s) := by
  unfold crWrite
  dsimp only
  split
  · exact OutOk.next (wait_memoryOk h)
  · split
    · exact OutOk.next (wait_memoryOk h)
    · split
      · exact OutOk.next (wait_memoryOk h)
      · exact OutOk.next (advance_memoryOk (writeX_memoryOk (crStore_memoryOk (crRead_memoryOk h))))

theorem execCrRd_outOk {f : OpC} {s : State} (h : MemoryOk s) : OutOk (execCrRd f s) := by
  unfold execCrRd
  split
  · exact OutOk.next (wait_memoryOk h)
  · split
    · exact OutOk.next (wait_memoryOk h)
    · exact OutOk.next (advance_memoryOk (writeX_memoryOk (crRead_memoryOk h)))

theorem execVsl_outOk {f : OpI14} {s : State} (h : MemoryOk s) : OutOk (execVsl f s) := by
  unfold execVsl
  split
  · exact OutOk.next (wait_memoryOk h)
  · split
    · exact OutOk.next (wait_memoryOk h)
    · exact OutOk.next (advance_memoryOk ((writeX_memoryOk h).update))

/-! ### Ranges of bytes -/

theorem spanWith_memoryOk {tr : State → Word → Nat → State × XRes} (htr : ∀ s va n, MemoryOk s → MemoryOk (tr s va n).1) {fuel : Nat} :
    ∀ {s : State} {va : Word} {n : Nat}, MemoryOk s → MemoryOk (spanWith tr fuel s va n).1 := by
  induction fuel with
  | zero => exact fun h => h
  | succ fuel ih =>
    intro s va n h
    unfold spanWith
    split
    · exact h
    · split
      · have ht := MemoryOk.of_fst (htr _ _ _ h) ‹_›
        dsimp only
        split
        · exact MemoryOk.of_fst (ih ht) ‹_›
        · exact ih ht
      · exact MemoryOk.of_fst (htr _ _ _ h) ‹_›
      · exact MemoryOk.of_fst (htr _ _ _ h) ‹_›

theorem hartPiece_memoryOk {acc : Acc} {s : State} {va : Word} {n : Nat} (h : MemoryOk s) : MemoryOk (hartPiece acc s va n).1 := by
  unfold hartPiece
  split
  · dsimp only
    split <;> exact MemoryOk.of_fst (resolve_memoryOk _ _ _ h) ‹_›
  · exact resolve_memoryOk _ _ _ h

theorem hartSpan_memoryOk {s : State} {va : Word} {n : Nat} {acc : Acc} (h : MemoryOk s) : MemoryOk (hartSpan s va n acc).1 :=
  spanWith_memoryOk (fun _ _ _ h1 => hartPiece_memoryOk h1) h

theorem pasidPiece_memoryOk {pasid : Nat} {acc : Acc} {s : State} {va : Word} {x0 : Nat} (h : MemoryOk s) :
    MemoryOk (pasidPiece pasid acc s va x0).1 := by
  unfold pasidPiece
  split
  · split <;> exact MemoryOk.of_fst (translate_memoryOk _ _ _ h) ‹_›
  · exact translate_memoryOk _ _ _ h

theorem pasidSpan_memoryOk {s : State} {pasid : Nat} {va : Word} {n : Nat} {acc : Acc} (h : MemoryOk s) : MemoryOk (pasidSpan s pasid va n acc).1 :=
  spanWith_memoryOk (fun _ _ _ h1 => pasidPiece_memoryOk h1) h

theorem spanApply_memoryOk {s : State} {l : List (Hit × Nat)} {v : Nat} {pois : Bool} {q : Queue} {epoch : Nat} (h : MemoryOk s) :
    MemoryOk (spanApply s l v pois q epoch) :=
  MemoryOk.foldl_fst (fun _ _ h1 => MemoryOk.foldl (fun _ _ h2 => applyStore_memoryOk _ h2) h1) h

theorem engineRead_memoryOk {s : State} {pasid : Nat} {va : Word} {n : Nat} (h : MemoryOk s) : MemoryOk (engineRead s pasid va n).1 := by
  unfold engineRead
  split <;> exact MemoryOk.of_fst (pasidSpan_memoryOk h) ‹_›

theorem engineWrite_memoryOk {s : State} {pasid : Nat} {va : Word} {n v : Nat} (h : MemoryOk s) : MemoryOk (engineWrite s pasid va n v).1 := by
  unfold engineWrite
  split
  · split
    · exact h
    · exact spanApply_memoryOk (MemoryOk.of_fst (pasidSpan_memoryOk h) ‹_›)
  · exact h
  · exact h

/-! ### Synchronisation, pennants and launches of the sequencer -/

theorem execSwtrap_outOk {f : OpA} {s : State} (h : MemoryOk s) : OutOk (execSwtrap f s) := by
  unfold execSwtrap
  split
  · exact OutOk.next (wait_memoryOk h)
  · exact OutOk.next (takeTrap_memoryOk _ _ h)

theorem execLsync_outOk {sc : BitVec 3} {s : State} (h : MemoryOk s) : OutOk (execLsync sc s) := by
  unfold execLsync
  split
  · exact OutOk.next (wait_memoryOk h)
  · exact OutOk.next (advance_memoryOk (MemoryOk.ite (nextEpoch_memoryOk h) h))

theorem execWmPub_outOk {sc : BitVec 3} {f : OpA} {s : State} (h : MemoryOk s) : OutOk (execWmPub sc f s) := by
  unfold execWmPub
  split
  · exact OutOk.next (wait_memoryOk h)
  · split
    · exact OutOk.next (wait_memoryOk h)
    · dsimp only
      split
      · exact OutOk.next (takeTrap_memoryOk _ _ h)
      · exact OutOk.next (takeTrap_memoryOk _ _ h)
      · exact OutOk.next (wait_memoryOk (MemoryOk.of_fst (checkScoped_memoryOk h) ‹_›))
      · refine OutOk.next ?_
        refine advance_memoryOk ?_
        refine applyStore_memoryOk _ ?_
        split
        · exact nextEpoch_memoryOk (drainTarget_memoryOk (MemoryOk.of_fst (checkScoped_memoryOk h) ‹_›))
        · exact drainTarget_memoryOk (MemoryOk.of_fst (checkScoped_memoryOk h) ‹_›)

theorem execWmWait_outOk {sc : BitVec 3} {f : OpA} {s : State} (h : MemoryOk s) : OutOk (execWmWait sc f s) := by
  unfold execWmWait
  refine OutOk.ite (OutOk.next (wait_memoryOk h)) (OutOk.ite (OutOk.next (wait_memoryOk h)) ?_)
  extract_lets ea
  have ht {t r} (e : checkScoped s ea 8 sc.toNat .load = (t, r)) : MemoryOk t := MemoryOk.of_fst (checkScoped_memoryOk h) e
  split
  · exact OutOk.next (takeTrap_memoryOk _ _ h)
  · exact OutOk.next (takeTrap_memoryOk _ _ h)
  · exact OutOk.next (wait_memoryOk (ht ‹_›))
  · have ht := ht ‹_›
    exact OutOk.ite (OutOk.next (takeTrap_memoryOk _ _ h))
      (OutOk.ite (OutOk.next (wait_memoryOk ht)) (OutOk.next (advance_memoryOk (writeX_memoryOk ht))))

theorem execWmWaitSatisfied_outOk {s : State} (h : MemoryOk s) : OutOk (execWmWaitSatisfied s) := by
  unfold execWmWaitSatisfied
  split
  · exact execWmWait_outOk h
  · exact OutOk.next h

theorem setGang_memoryOk {s : State} {g : Gang} (h : MemoryOk s) : MemoryOk (setGang s g) := h.update

theorem barrierDone_memoryOk {s : State} {g : Gang} (h : MemoryOk s) : MemoryOk (barrierDone s g) := mapHarts_memoryOk (setGang_memoryOk h)

theorem execGbar_outOk {f : OpA} {s : State} (h : MemoryOk s) : OutOk (execGbar f s) := by
  unfold execGbar
  extract_lets finish
  have hfinish (t : State) (n : Nat) (ht : MemoryOk t) : OutOk (finish t n) := OutOk.next (advance_memoryOk (writeX_memoryOk ht.update))
  clear_value finish
  have hdone {g : Gang} {n : Nat} : OutOk (finish (barrierDone s g) n) := hfinish _ _ (barrierDone_memoryOk h)
  have hwait {w : Park} : OutOk (.next (wait s w)) := OutOk.next (wait_memoryOk h)
  refine OutOk.ite hwait ?_
  split
  · exact hfinish _ _ h
  · exact OutOk.ite (hfinish _ _ h) (OutOk.ite hdone hwait)
  · exact OutOk.ite hwait (OutOk.ite hdone (OutOk.next (wait_memoryOk h.update)))

theorem execGangBarrierComplete_outOk {s : State} (h : MemoryOk s) : OutOk (execGangBarrierComplete s) := by
  unfold execGangBarrierComplete
  split
  · exact OutOk.next h
  · exact OutOk.ite (OutOk.next (barrierDone_memoryOk h)) (OutOk.next h)

theorem pnPush_memoryOk {s : State} {c : Nat} {v : BitVec 32} (h : MemoryOk s) : MemoryOk (pnPush s c v) := h.update

theorem pnSet_memoryOk {s : State} {c : Nat} {l : List (BitVec 32)} (h : MemoryOk s) : MemoryOk (pnSet s c l) := h.update

theorem execPnSend_outOk {c : BitVec 1} {f : OpA} {s : State} (h : MemoryOk s) : OutOk (execPnSend c f s) := by
  unfold execPnSend
  split
  · exact OutOk.next (wait_memoryOk h)
  · split
    · exact OutOk.next (wait_memoryOk h)
    · split
      · split
        · exact OutOk.next (takeTrap_memoryOk _ _ h)
        · exact OutOk.next (wait_memoryOk h)
      · exact OutOk.next (advance_memoryOk (pnPush_memoryOk h))

theorem pnRecv_outOk {c : Nat} {f : OpA} {s : State} (h : MemoryOk s) : OutOk (pnRecv c f s) := by
  unfold pnRecv
  split
  · exact OutOk.next (wait_memoryOk h)
  · split
    · exact OutOk.next (advance_memoryOk (writeX_memoryOk (pnSet_memoryOk h)))
    · split
      · exact OutOk.next (takeTrap_memoryOk _ _ h)
      · exact OutOk.next (wait_memoryOk h)

theorem execPnCnt_outOk {c : BitVec 3} {f : OpA} {s : State} (h : MemoryOk s) : OutOk (execPnCnt c f s) := by
  unfold execPnCnt
  split
  · exact OutOk.next (wait_memoryOk h)
  · exact OutOk.next (advance_memoryOk (writeX_memoryOk h))

theorem execJwait_outOk {f : OpA} {s : State} (h : MemoryOk s) : OutOk (execJwait f s) := by
  unfold execJwait
  split
  · exact OutOk.next (wait_memoryOk h)
  · dsimp only
    split
    · exact OutOk.next (advance_memoryOk (writeX_memoryOk h))
    · split
      · exact OutOk.next (advance_memoryOk (writeX_memoryOk h))
      · exact OutOk.next (advance_memoryOk (writeX_memoryOk h))
      · exact OutOk.next (wait_memoryOk h)

/-! ### Vector loads and stores -/

theorem reach_memoryOk {s : State} {f : Foot} {acc : Acc} (h : MemoryOk s) : MemoryOk (reach s f acc).1 := by
  unfold reach
  split
  · exact h
  · split <;> exact MemoryOk.of_fst (hartSpan_memoryOk h) ‹_›

theorem reachScoped_memoryOk {sc : Nat} {s : State} {f : Foot} {acc : Acc} (h : MemoryOk s) : MemoryOk (reachScoped sc s f acc).1 := by
  unfold reachScoped
  split <;> exact MemoryOk.of_fst (checkScoped_memoryOk h) ‹_›

theorem flushSpan_memoryOk {s : State} {l : List (Hit × Nat)} (h : MemoryOk s) : MemoryOk (flushSpan s l) :=
  MemoryOk.foldl (fun _ _ h1 => flushCombine_memoryOk h1) h

theorem footStore_memoryOk {s : State} {f : Foot} {l : List (Hit × Nat)} {v : Nat} {pois : Bool} {q : Queue} {epoch : Nat} (h : MemoryOk s) :
    MemoryOk (footStore s f l v pois q epoch) := by
  unfold footStore
  extract_lets u val mask one
  have hu : MemoryOk u := flushSpan_memoryOk h
  have hone (t : State) (o n : Nat) (ht : MemoryOk t) : MemoryOk (one t o n) := by
    unfold one
    split
    · exact release_memoryOk ht
    · exact ht
  clear_value one
  have htwo : MemoryOk (one (one u 0 1) 1 1) := hone _ _ _ (hone _ _ _ hu)
  split
  · split
    · exact htwo
    · split
      · exact hone _ _ _ hu
      · exact htwo
  · exact hone _ _ _ hu

theorem markWhole_memoryOk {old : Nat} {s : State} (h : MemoryOk s) : MemoryOk (markWhole old s) := h.update

theorem markWait_memoryOk {e : Nat} {t : State} (ht : MemoryOk t) : MemoryOk (markWait e t) := MemoryOk.ite (waitAtEl_memoryOk ht) ht

theorem stampElem_memoryOk {old e : Nat} {t : State} (ht : MemoryOk t) : MemoryOk (stampElem old e t) := ht.update

theorem memLoop_memoryOk {s : State} {act : Nat → Bool} {f : Nat → State → State} (h : MemoryOk s) (hf : ∀ x t, MemoryOk t → MemoryOk (f x t)) :
    MemoryOk (memLoop s act f) :=
  MemoryOk.forUp (fun _ _ h1 => MemoryOk.ite (stampElem_memoryOk (markWait_memoryOk (hf _ _ h1))) h1) h

theorem noteWalk_memoryOk {l : List (Hit × Nat)} {acc : Acc} {s : State} (h : MemoryOk s) : MemoryOk (noteWalk l acc s) := h.update

theorem preWalk_memoryOk {s : State} {p grp : Nat} {ix : List Nat} {go : State → Foot → Acc → State × Found} {acc : Acc}
    {foot : Nat → Except Trap Foot} (h : MemoryOk s) (hgo : ∀ t x y, MemoryOk t → MemoryOk (go t x y).1) :
    MemoryOk (preWalk s p grp ix go acc foot) := by
  unfold preWalk
  refine MemoryOk.forUp_fst ?_ h
  intro _ _ h1
  split
  · exact h1
  · split
    · exact h1
    · split
      · exact MemoryOk.of_fst (hgo _ _ _ h1) ‹_›
      · exact noteWalk_memoryOk (MemoryOk.of_fst (hgo _ _ _ h1) ‹_›)
      · exact MemoryOk.of_fst (hgo _ _ _ h1) ‹_›

theorem loadVec_memoryOk {s : State} {d p grp : Nat} {ix : List Nat} {go : State → Foot → Acc → State × Found} {foot : Nat → Except Trap Foot}
    (h : MemoryOk s) (hgo : ∀ t x y, MemoryOk t → MemoryOk (go t x y).1) : MemoryOk (loadVec s d p grp ix go foot) := by
  unfold loadVec
  refine tail_memoryOk ?_
  refine memLoop_memoryOk (openOld_memoryOk (preWalk_memoryOk h (fun _ _ _ h1 => hgo _ _ _ h1))) ?_
  intro _ _ h1
  split
  · split
    · exact raise_memoryOk h1
    · split
      · exact setEl_memoryOk (flushSpan_memoryOk (MemoryOk.of_fst (hgo _ _ _ h1) ‹_›))
      · exact setPsm_memoryOk (MemoryOk.of_fst (hgo _ _ _ h1) ‹_›)
      · exact raise_memoryOk h1
      · exact mustWait_memoryOk (MemoryOk.of_fst (hgo _ _ _ h1) ‹_›)
  · exact MemoryOk.ite (setEl_memoryOk h1) (MemoryOk.ite (setEl_memoryOk h1) h1)

theorem storeVec_memoryOk {s : State} {d p grp : Nat} {ix : List Nat} {go : State → Foot → Acc → State × Found} {foot : Nat → Except Trap Foot}
    (h : MemoryOk s) (hgo : ∀ t x y, MemoryOk t → MemoryOk (go t x y).1) : MemoryOk (storeVec s d p grp ix go foot) := by
  unfold storeVec
  refine markWhole_memoryOk ?_
  refine memLoop_memoryOk (preWalk_memoryOk h (fun _ _ _ h1 => hgo _ _ _ h1)) ?_
  intro _ _ h1
  split
  · exact raise_memoryOk h1
  · split
    · exact footStore_memoryOk (MemoryOk.of_fst (hgo _ _ _ h1) ‹_›)
    · exact setPsm_memoryOk (MemoryOk.of_fst (hgo _ _ _ h1) ‹_›)
    · exact raise_memoryOk h1
    · exact mustWait_memoryOk (MemoryOk.of_fst (hgo _ _ _ h1) ‹_›)

theorem memVld_memberOk {f : OpVM} : MemberOk (memVld f) := ⟨fun _ h => loadVec_memoryOk h (fun _ _ _ h1 => reach_memoryOk h1), fun _ _ h => h⟩

theorem memVlds_memberOk {f : OpVM} : MemberOk (memVlds f) := ⟨fun _ h => loadVec_memoryOk h (fun _ _ _ h1 => reach_memoryOk h1), fun _ _ h => h⟩

theorem memVldx_memberOk {f : OpVMX} : MemberOk (memVldx f) :=
  ⟨fun _ h => loadVec_memoryOk h (fun _ _ _ h1 => reachScoped_memoryOk h1), fun _ _ h => h⟩

theorem memVldFf_memberOk {f : OpVM} : MemberOk (memVldFf f) :=
  ⟨fun _ h => loadVec_memoryOk ((preWalk_memoryOk h (fun _ _ _ h1 => reach_memoryOk h1)).update) (fun _ _ _ h1 => reach_memoryOk h1), fun _ _ h => h⟩

theorem memVst_memberOk {f : OpVM} : MemberOk (memVst f) := ⟨fun _ h => storeVec_memoryOk h (fun _ _ _ h1 => reach_memoryOk h1), fun _ _ h => h⟩

theorem memVsts_memberOk {f : OpVM} : MemberOk (memVsts f) := ⟨fun _ h => storeVec_memoryOk h (fun _ _ _ h1 => reach_memoryOk h1), fun _ _ h => h⟩

theorem memVstx_memberOk {f : OpVMX} : MemberOk (memVstx f) :=
  ⟨fun _ h => storeVec_memoryOk h (fun _ _ _ h1 => reachScoped_memoryOk h1), fun _ _ h => h⟩

theorem setLinked_memoryOk {s : State} {l : List Linked} (h : MemoryOk s) : MemoryOk (setLinked s l) := by
  unfold setLinked
  split
  · exact h.update
  · exact h

theorem releaseLinked_memoryOk {s : State} {k : Linked} (h : MemoryOk s) : MemoryOk (releaseLinked s k).1 := by
  unfold releaseLinked
  refine markWhole_memoryOk ?_
  refine MemoryOk.forUp_fst ?_ h
  intro _ _ h1
  split
  · exact h1
  · dsimp only
    split
    · exact footStore_memoryOk (MemoryOk.of_fst (reach_memoryOk h1) ‹_›)
    · split
      · exact MemoryOk.foldl (fun _ _ h2 => release_memoryOk h2) h1
      · exact h1
    · exact h1

theorem runLinkedStore_memoryOk {f : OpVM} {transient : Bool} {s : State} (h : MemoryOk s) : MemoryOk (runLinkedStore f transient s) := by
  unfold runLinkedStore
  split
  · exact storeVec_memoryOk h (fun _ _ _ h => reach_memoryOk h)
  · extract_lets t k₀ k
    have ht : MemoryOk t := by
      refine MemoryOk.ite h (memLoop_memoryOk (preWalk_memoryOk h fun _ _ _ h => reach_memoryOk h) fun e t ht => ?_)
      split
      · exact MemoryOk.of_fst (reach_memoryOk ht) ‹_›
      · exact mustWait_memoryOk (MemoryOk.of_fst (reach_memoryOk ht) ‹_›)
      · exact raise_memoryOk ht
      · exact MemoryOk.of_fst (reach_memoryOk ht) ‹_›
    exact MemoryOk.ite (setLinked_memoryOk ht) ht

theorem runForward_memoryOk {f : OpVM} {k : Linked} {s : State} (h : MemoryOk s) : MemoryOk (runForward f k s) := writeVec_memoryOk h

theorem markPassed_memoryOk {tag : Nat} {s : State} (h : MemoryOk s) : MemoryOk (markPassed tag s) := h.update

theorem blameStore_memoryOk {s : State} {k : Linked} {tr : Trap} (h : MemoryOk s) : MemoryOk (blameStore s k tr) := MemoryOk.ite h h.update

theorem runLinkedLoad_memoryOk {f : OpVM} {s : State} (h : MemoryOk s) : MemoryOk (runLinkedLoad f s) := by
  unfold runLinkedLoad
  dsimp only
  split
  · exact loadVec_memoryOk h (fun _ _ _ h1 => reach_memoryOk h1)
  · split
    · exact loadVec_memoryOk h (fun _ _ _ h1 => reach_memoryOk h1)
    · split
      · exact runForward_memoryOk h
      · split
        · exact runForward_memoryOk (markPassed_memoryOk (setLinked_memoryOk h))
        · split
          · refine loadVec_memoryOk ?_ (fun _ _ _ h1 => reach_memoryOk h1)
            refine setLinked_memoryOk ?_
            refine MemoryOk.of_fst ?_ ‹_›
            refine MemoryOk.foldl_fst ?_ h
            intro _ _ h1
            split
            · exact h1
            · split <;> exact MemoryOk.of_fst (releaseLinked_memoryOk h1) ‹_›
          · exact mustWait_memoryOk h
          · exact blameStore_memoryOk h

theorem memVcopy_memberOk {f : OpVM} : MemberOk (memVcopy f) := by
  refine ⟨fun s h => ?_, fun _ _ h => h⟩
  refine markWhole_memoryOk (memLoop_memoryOk
    (preWalk_memoryOk (preWalk_memoryOk h fun _ _ _ h => reach_memoryOk h) fun _ _ _ h => reach_memoryOk h) fun e t ht => ?_)
  extract_lets src dst
  split
  · exact raise_memoryOk ht
  · have hu := reach_memoryOk (f := dst) (acc := .store) (MemoryOk.of_fst (reach_memoryOk ht) ‹_›)
    split
    · exact raise_memoryOk ht
    · exact footStore_memoryOk (flushSpan_memoryOk (MemoryOk.of_fst hu ‹_›))
    · exact mustWait_memoryOk (MemoryOk.of_fst hu ‹_›)
  · exact mustWait_memoryOk (MemoryOk.of_fst (reach_memoryOk ht) ‹_›)

theorem walkPages_memoryOk {s : State} {va : Word} {n : Nat} {acc : Acc} (h : MemoryOk s) : MemoryOk (walkPages s va n acc) := by
  unfold walkPages
  refine MemoryOk.forUp ?_ h
  intro _ _ h1
  split
  · exact noteWalk_memoryOk (MemoryOk.of_fst (hartPiece_memoryOk h1) ‹_›)
  · exact MemoryOk.of_fst (hartPiece_memoryOk h1) ‹_›

theorem memVspill_memberOk {f : OpVM} : MemberOk (memVspill f) := by
  refine ⟨fun s h => ?_, fun _ _ h => h⟩
  unfold memVspill
  dsimp -zeta only
  extract_lets w base put hdr walked1 walked2
  have hput (v n : Nat) (pois : Bool) (va : Word) (e : Nat) (t : State) (ht : MemoryOk t) : MemoryOk (put v n pois va e t) := by
    unfold put
    dsimp only
    split
    · exact footStore_memoryOk (MemoryOk.of_fst (reach_memoryOk ht) ‹_›)
    · exact raise_memoryOk ht
    · exact mustWait_memoryOk (MemoryOk.of_fst (reach_memoryOk ht) ‹_›)
  clear_value put
  have hwalked : MemoryOk walked2 :=
    preWalk_memoryOk (MemoryOk.ite (walkPages_memoryOk h) h) fun _ _ _ h => reach_memoryOk h
  clear_value walked2
  split
  · exact raise_memoryOk h
  · refine markWhole_memoryOk (memLoop_memoryOk hwalked fun e t ht => ?_)
    extract_lets t1 byte
    have ht1 : MemoryOk t1 := MemoryOk.ite (MemoryOk.forUp (fun _ _ hu => MemoryOk.ite (hput _ _ _ _ _ _ hu) hu) ht) ht
    clear_value t1
    split
    · exact ht1
    · split
      · exact hput _ _ _ _ _ _ ht1
      · split
        · split
          · exact footStore_memoryOk (MemoryOk.of_fst (reach_memoryOk ht1) ‹_›)
          · exact MemoryOk.of_fst (reach_memoryOk ht1) ‹_›
        · exact raise_memoryOk ht1
        · exact mustWait_memoryOk (MemoryOk.of_fst (reach_memoryOk ht1) ‹_›)

theorem memVfill_memberOk {f : OpVM} : MemberOk (memVfill f) := by
  refine ⟨fun s h => ?_, fun _ _ h => h⟩
  unfold memVfill
  dsimp -zeta only
  extract_lets w base k0 most bound
  clear_value bound
  split
  · exact h
  · split
    · exact raise_memoryOk h
    · split
      · exact raise_memoryOk h
      · exact mustWait_memoryOk (MemoryOk.of_fst (hartSpan_memoryOk h) ‹_›)
      · extract_lets u hdr dh
        have hu : MemoryOk u := flushSpan_memoryOk (noteWalk_memoryOk (MemoryOk.of_fst (hartSpan_memoryOk h) ‹_›))
        clear_value u dh
        split
        · exact raise_memoryOk hu
        · refine MemoryOk.forUp (fun e t ht => MemoryOk.ite (MemoryOk.ite (setEl_memoryOk ht) ?_) ht) (walkPages_memoryOk hu)
          dsimp only
          split
          · exact raise_memoryOk ht
          · exact waitAtEl_memoryOk (MemoryOk.of_fst (hartSpan_memoryOk ht) ‹_›)
          · exact setEl_memoryOk (flushSpan_memoryOk (MemoryOk.of_fst (hartSpan_memoryOk ht) ‹_›))

theorem zbLoop_memoryOk {src : Source} {d w vl bound fuel : Nat} :
    ∀ {a : State × Zb}, MemoryOk a.1 → MemoryOk (zbLoop src d w vl bound fuel a).1 := by
  induction fuel with
  | zero => exact fun h => h
  | succ fuel ih =>
    intro a h
    unfold zbLoop
    extract_lets have' ends
    clear_value have' ends
    split
    · exact h
    · split
      · exact h
      · split
        · exact h
        · dsimp only
          split
          · exact h
          · split
            · exact h
            · split
              · exact h
              · exact ih (MemoryOk.forUp (fun _ _ h => setEl_memoryOk h) h)

theorem vldcDone_memoryOk {f : OpVM} {base : Word} {b : Nat} {src : Source} {s : State} {z : Zb} (h : MemoryOk s) :
    MemoryOk (vldcDone f base b src s z) := by
  unfold vldcDone
  refine writeX_memoryOk ?_
  refine writeX_memoryOk ?_
  split
  · exact setStream_memoryOk (MemoryOk.ite (zeroTail_memoryOk h.update) h.update)
  · exact MemoryOk.ite (zeroTail_memoryOk h.update) h.update

theorem memVldc_memberOk {f : OpVM} : MemberOk (memVldc f) := by
  refine ⟨fun s h => ?_, fun g s h => hurtScalar_memoryOk (x0 := g) h⟩
  unfold memVldc
  dsimp -zeta only
  extract_lets base b vl go
  have hgo (t : State) (src : Source) (ht : MemoryOk t) : MemoryOk (go t src) := by
    unfold go
    have hr := zbLoop_memoryOk (src := src) (d := f.vd.toNat) (w := ew s) (vl := vl) (bound := b) (fuel := vl / 32 + 1)
      (a := (t, { n := 0, used := 0, done := false, pois := none, waits := false })) ht
    dsimp only
    split
    · exact raise_memoryOk ht
    · exact MemoryOk.ite (mustWait_memoryOk h) (vldcDone_memoryOk hr)
  clear_value go
  split
  · exact MemoryOk.ite (raise_memoryOk h) (hgo _ _ h)
  · split
    · exact hgo _ _ h
    · split
      · exact raise_memoryOk (walkPages_memoryOk h)
      · exact mustWait_memoryOk (MemoryOk.of_fst (hartSpan_memoryOk h) ‹_›)
      · exact hgo _ _ (flushSpan_memoryOk (noteWalk_memoryOk (MemoryOk.of_fst (hartSpan_memoryOk h) ‹_›)))

theorem putBytes_memoryOk {l : List (Hit × Nat)} {v : Nat} {pois : Bool} {o : Nat} {s : State} {n : Nat} (h : MemoryOk s) :
    MemoryOk (putBytes l v pois o s n) := by
  unfold putBytes
  refine MemoryOk.forUp ?_ h
  intro _ _ h1
  split
  · exact release_memoryOk (flushCombine_memoryOk h1)
  · exact h1

theorem vstcLoop_memoryOk {f : OpVM} {l : List (Hit × Nat)} {s0 : State} {b total fuel : Nat} :
    ∀ {a : State × Nat × Nat}, MemoryOk a.1 → MemoryOk (vstcLoop f l s0 b total fuel a).1 := by
  induction fuel with
  | zero => exact fun h => h
  | succ fuel ih =>
    intro a h
    unfold vstcLoop
    dsimp only
    split
    · exact h
    · split
      · exact h
      · exact ih (MemoryOk.foldl_fst (fun _ _ h => putBytes_memoryOk h) (putBytes_memoryOk h))

theorem memVstc_memberOk {f : OpVM} : MemberOk (memVstc f) := by
  refine ⟨fun s h => ?_, fun g s h => hurtScalar_memoryOk (x0 := g) h⟩
  unfold memVstc
  dsimp -zeta only
  extract_lets base b total
  split
  · exact raise_memoryOk (walkPages_memoryOk h)
  · exact mustWait_memoryOk (MemoryOk.of_fst (hartSpan_memoryOk h) ‹_›)
  · have hu := MemoryOk.of_fst (hartSpan_memoryOk h) ‹_›
    exact writeX_memoryOk (writeX_memoryOk (markWhole_memoryOk (vstcLoop_memoryOk hu)).update)

/-! ### Vector atomics, fences, windows and pennant members -/

theorem releaseWait_memoryOk {s : State} {sc : Nat} (h : MemoryOk s) : MemoryOk (releaseWait s sc) := by
  unfold releaseWait
  split
  · exact mustWait_memoryOk h
  · split
    · exact mustWait_memoryOk h
    · exact retireWhere_memoryOk (drainAll_memoryOk h)

theorem atomReach_memoryOk {s t : State} {f : OpVA} {acc : Acc} {e : Nat} (ht : MemoryOk t) : MemoryOk (atomReach s t f acc e).1 := by
  unfold atomReach
  dsimp only
  split
  · exact ht
  · split <;> exact MemoryOk.of_fst (reachScoped_memoryOk ht) ‹_›

theorem atomElem_memoryOk {s u : State} {f : OpVA} {h : Hit} {e : Nat} {g : Nat → Option Nat} {fresh pv returns : Bool} (hu : MemoryOk u) :
    MemoryOk (atomElem s u f h e g fresh pv returns) := by
  unfold atomElem
  extract_lets w n t u old po r
  have hu : MemoryOk u := flushCombine_memoryOk (drainTarget_memoryOk hu)
  have hr : MemoryOk r := by
    unfold r
    split
    · exact applyStore_memoryOk _ hu
    · exact hu
  exact MemoryOk.ite (setEl_memoryOk hr) hr

theorem vatom_memberOk {f : OpVA} {fp cas fresh : Bool} {g : State → Nat → Nat → Nat → Nat → Option Nat} : MemberOk (vatom f fp cas fresh g) := by
  unfold vatom
  refine ⟨?_, fun _ _ h => h⟩
  intro _ h
  refine tail_memoryOk ?_
  refine memLoop_memoryOk (openOld_memoryOk
    (MemoryOk.ite (setSeen_memoryOk (MemoryOk.ite (releaseWait_memoryOk h) h)) (MemoryOk.ite (releaseWait_memoryOk h) h))) ?_
  intro _ _ h1
  split
  · split
    · exact atomElem_memoryOk (MemoryOk.of_fst (atomReach_memoryOk h1) ‹_›)
    · exact setPsm_memoryOk (MemoryOk.of_fst (atomReach_memoryOk h1) ‹_›)
    · exact raise_memoryOk h1
    · exact mustWait_memoryOk (MemoryOk.of_fst (atomReach_memoryOk h1) ‹_›)
  · exact MemoryOk.ite (setEl_memoryOk h1) (MemoryOk.ite (setEl_memoryOk h1) h1)

theorem enterCombine_memoryOk {u : State} {c : Combine} (hu : MemoryOk u) : MemoryOk (enterCombine u c) :=
  MemoryOk.ite hu.update ((flushCombine_memoryOk hu).update)

theorem makeRoom_memoryOk {u : State} {k : Nat} (hu : MemoryOk u) : MemoryOk (makeRoom u k) := by
  unfold makeRoom
  split
  · exact hu
  · split
    · exact retireCombine_memoryOk hu.update
    · exact hu

theorem vcomb_memberOk {f : OpVA} {fp : Bool} {op : Nat} : MemberOk (vcomb f fp op) := by
  unfold vcomb
  refine ⟨?_, fun _ _ h => h⟩
  intro _ h
  refine memLoop_memoryOk (MemoryOk.ite (setSeen_memoryOk h) h) ?_
  intro _ _ h1
  split
  · exact MemoryOk.ite (enterCombine_memoryOk (makeRoom_memoryOk (drainTarget_memoryOk (MemoryOk.of_fst (atomReach_memoryOk h1) ‹_›))))
      (atomElem_memoryOk (MemoryOk.of_fst (atomReach_memoryOk h1) ‹_›))
  · exact setPsm_memoryOk (MemoryOk.of_fst (atomReach_memoryOk h1) ‹_›)
  · exact raise_memoryOk h1
  · exact mustWait_memoryOk (MemoryOk.of_fst (atomReach_memoryOk h1) ‹_›)

theorem vwaitM_memberOk {f : OpVA} {c : Nat → Nat → Nat → Bool} : MemberOk (vwaitM f c) := by
  refine ⟨fun s h => ?_, fun _ _ h => h⟩
  unfold vwaitM
  dsimp -zeta only
  extract_lets w p r
  have hr : MemoryOk r.1 := by
    refine MemoryOk.forUp_fst (fun e a ha => ?_) h
    split
    · exact ha
    · split
      · dsimp only
        split
        · exact ha
        · split <;> exact (flushCombine_memoryOk (MemoryOk.of_fst (atomReach_memoryOk ha) ‹_›)).update
      · exact setPsm_memoryOk (MemoryOk.of_fst (atomReach_memoryOk ha) ‹_›)
      · exact ha
      · exact MemoryOk.of_fst (atomReach_memoryOk ha) ‹_›
  clear_value r
  split
  · exact waitAtEl_memoryOk hr
  · exact raise_memoryOk hr
  · exact hr

theorem memVfence_memberOk {sc : BitVec 3} : MemberOk (memVfence sc) :=
  ⟨fun _ h => MemoryOk.ite h (MemoryOk.ite (mustWait_memoryOk h) (retireWhere_memoryOk (drainAll_memoryOk h))), fun _ _ h => h⟩

theorem pokeSpad_memoryOk {s : State} {k n v : Nat} (h : MemoryOk s) : MemoryOk (pokeSpad s k n v) := ⟨Memory.wf_writeN _ _ _ h.1, h.2⟩

theorem cleanSpad_memoryOk {s : State} {k n : Nat} (h : MemoryOk s) : MemoryOk (cleanSpad s k n) := h.update

theorem dropWindow_memoryOk {s : State} {n : Nat} (h : MemoryOk s) : MemoryOk (dropWindow s n) := by
  unfold dropWindow
  split
  · exact h
  · exact (cleanSpad_memoryOk (MemoryOk.setMem h (Memory.wf_clear _ _ h.1))).update

theorem memAwinDecl_memberOk {f : OpAW} : MemberOk (memAwinDecl f) := by
  unfold memAwinDecl
  refine ⟨?_, fun _ _ h => h⟩
  intro _ h
  dsimp only
  split
  · exact raise_memoryOk h
  · split
    · exact raise_memoryOk h
    · split
      · exact raise_memoryOk h
      · exact (MemoryOk.forUp (fun _ _ h1 => pokeSpad_memoryOk h1)
          (cleanSpad_memoryOk (flushCombine_memoryOk (drainTarget_memoryOk (dropWindow_memoryOk h))))).update

theorem memAwinUpd_memberOk {f : OpAW} : MemberOk (memAwinUpd f) := by
  unfold memAwinUpd
  refine ⟨?_, fun _ _ h => h⟩
  intro _ h
  dsimp only
  split
  · exact raise_memoryOk h
  · exact MemoryOk.ite (raise_memoryOk h) (memLoop_memoryOk h
      (fun _ _ h1 => MemoryOk.ite (raise_memoryOk h1) (MemoryOk.ite (raise_memoryOk h1) ⟨Memory.wf_writeN _ _ _ h1.1, h1.2⟩)))

theorem memAwinMerge_memberOk {f : OpAW} : MemberOk (memAwinMerge f) := by
  refine ⟨fun s h => ?_, fun _ _ h => h⟩
  unfold memAwinMerge
  dsimp -zeta only
  split
  · exact raise_memoryOk h
  · extract_lets n t
    have ht : MemoryOk t := by
      refine MemoryOk.forUp (fun i t ht => ?_) h
      split
      · exact ht
      · split
        · exact raise_memoryOk ht
        · exact mustWait_memoryOk (MemoryOk.of_fst (checkAccess_memoryOk ht) ‹_›)
        · exact release_memoryOk (flushCombine_memoryOk (MemoryOk.of_fst (checkAccess_memoryOk ht) ‹_›))
    exact MemoryOk.ite ht (dropWindow_memoryOk (markWhole_memoryOk ht))

theorem memPnTake_memberOk {c : BitVec 3} : MemberOk (memPnTake c) := by
  unfold memPnTake
  refine ⟨fun _ h => ?_, fun _ _ h => h⟩
  dsimp only
  split
  · exact h
  · split
    · exact mustWait_memoryOk h
    · exact (pnSet_memoryOk h).update

theorem postMember_memberOk {c : BitVec 3} {payload : State → BitVec 32} : MemberOk (postMember c payload) :=
  ⟨fun _ h => MemoryOk.ite h (MemoryOk.ite (mustWait_memoryOk h) (pnPush_memoryOk (retireWhere_memoryOk (drainAll_memoryOk h)))), fun _ _ h => h⟩

/-! ### The matrix engine -/

theorem raiseMismatch_memoryOk {s : State} {i : Nat} (h : MemoryOk s) : MemoryOk (raiseMismatch s i) := raise_memoryOk h

theorem setTile_memoryOk {s : State} {n : BitVec 2} {t : Tile} (h : MemoryOk s) : MemoryOk (setTile s n t) := dirtyM_memoryOk h.update

theorem outerTile_memoryOk {s : State} {f : OpTile} {int neg : Bool} {rowOn : Nat → Bool} {a b : Nat → Lane} (h : MemoryOk s) :
    MemoryOk (outerTile s f int neg rowOn a b) := by
  unfold outerTile
  dsimp only
  split
  · exact h
  · split
    · exact setOF_memoryOk (MemoryOk.ite (MemoryOk.ite h (setTile_memoryOk h)) (setTile_memoryOk h))
    · exact MemoryOk.ite (MemoryOk.ite h (setTile_memoryOk h)) (setTile_memoryOk h)

theorem runOuter_memoryOk {f : OpTile} {int signed neg : Bool} {s : State} (h : MemoryOk s) : MemoryOk (runOuter f int signed neg s) :=
  outerTile_memoryOk h

theorem runMopl_memoryOk {f : OpTile} {s : State} (h : MemoryOk s) : MemoryOk (runMopl f s) := outerTile_memoryOk h

theorem hurtTile_memoryOk {f : OpTile} {on : Nat → Nat → Bool} {s : State} (h : MemoryOk s) : MemoryOk (hurtTile f on s) := setTile_memoryOk h

theorem hurtOuter_memoryOk {f : OpTile} {x0 : Nat} {s : State} (h : MemoryOk s) : MemoryOk (hurtOuter f x0 s) := hurtTile_memoryOk h

theorem memMopa_memberOk {f : OpTile} : MemberOk (memMopa f) := by
  unfold memMopa
  refine ⟨fun _ h => ?_, fun _ _ h => ?_⟩
  · dsimp only
    exact runOuter_memoryOk h
  · dsimp only
    exact hurtOuter_memoryOk h

theorem memMops_memberOk {f : OpTile} : MemberOk (memMops f) := by
  unfold memMops
  refine ⟨fun _ h => ?_, fun _ _ h => ?_⟩
  · dsimp only
    exact runOuter_memoryOk h
  · dsimp only
    exact hurtOuter_memoryOk h

theorem memMopi_memberOk {f : OpTile} : MemberOk (memMopi f) := by
  unfold memMopi
  refine ⟨fun _ h => ?_, fun _ _ h => ?_⟩
  · dsimp only
    exact runOuter_memoryOk h
  · dsimp only
    exact hurtOuter_memoryOk h

theorem memMopn_memberOk {f : OpTile} : MemberOk (memMopn f) := by
  unfold memMopn
  refine ⟨fun _ h => ?_, fun _ _ h => ?_⟩
  · dsimp only
    exact runOuter_memoryOk h
  · dsimp only
    exact hurtOuter_memoryOk h

theorem memMopl_memberOk {f : OpTile} : MemberOk (memMopl f) := by
  unfold memMopl
  refine ⟨fun _ h => ?_, fun _ _ h => ?_⟩
  · dsimp only
    exact runMopl_memoryOk h
  · dsimp only
    exact hurtOuter_memoryOk h

theorem scanRows_memoryOk {s : State} {ff : Bool} {on : Nat → Bool} {row : State → Nat → State × Except Trap (List (Hit × Nat))} (h : MemoryOk s)
    {n : Nat} : ∀ {i : Nat}, MemoryOk (scanRows s ff on row n i).1 := by
  induction n with
  | zero => exact h
  | succ n ih =>
    intro i
    unfold scanRows
    split
    · exact ih
    · split
      · split
        · exact h
        · exact ih
      · split
        · exact h
        · exact h

theorem grantRows_memoryOk {s : State} {r g : Nat} (h : MemoryOk s) : MemoryOk (grantRows s r g) := MemoryOk.ite h.update h

theorem growRow_memoryOk {f : OpTile} {s : State} {w rb : Nat} {t : State} {i : Nat} (ht : MemoryOk t) : MemoryOk (growRow f s w rb t i).1 := by
  unfold growRow
  split
  · exact ht
  · dsimp only
    split
    · exact ht
    · split
      · exact MemoryOk.of_fst (hartSpan_memoryOk ht) ‹_›
      · exact MemoryOk.of_fst (hartSpan_memoryOk ht) ‹_›
      · exact mustWait_memoryOk (MemoryOk.of_fst (hartSpan_memoryOk ht) ‹_›)

theorem memMgrow_memberOk {f : OpTile} : MemberOk (memMgrow f) := by
  unfold memMgrow
  refine ⟨?_, fun _ _ h => h.update⟩
  intro _ h
  dsimp only
  split
  · exact raise_memoryOk h
  · exact mustWait_memoryOk h
  · refine grantRows_memoryOk ?_
    refine MemoryOk.update ?_
    refine MemoryOk.forUp_fst ?_ (MemoryOk.of_fst (scanRows_memoryOk h) ‹_›)
    intro _ _ h1
    split
    · split
      · exact flushSpan_memoryOk (MemoryOk.of_fst (growRow_memoryOk h1) ‹_›)
      · exact MemoryOk.of_fst (growRow_memoryOk h1) ‹_›
    · exact h1

theorem mldRow_memoryOk {f : OpTile} {s t : State} {i : Nat} (ht : MemoryOk t) : MemoryOk (mldRow f s t i).1 := by
  unfold mldRow
  refine MemoryOk.foldl_fst ?_ ht
  intro _ _ h1
  split
  · exact h1
  · split
    · exact MemoryOk.of_fst (hartSpan_memoryOk h1) ‹_›
    · exact MemoryOk.of_fst (hartSpan_memoryOk h1) ‹_›
    · exact mustWait_memoryOk (MemoryOk.of_fst (hartSpan_memoryOk h1) ‹_›)

theorem memMld_memberOk {f : OpTile} : MemberOk (memMld f) := by
  refine ⟨fun s h => ?_, fun g s h => ?_⟩
  · unfold memMld
    dsimp -zeta only
    split
    · exact raise_memoryOk h
    · extract_lets g
      split
      · exact raise_memoryOk h
      · exact mustWait_memoryOk h
      · refine grantRows_memoryOk (MemoryOk.forUp (fun i u hu => MemoryOk.ite ?_ hu) (MemoryOk.of_fst (scanRows_memoryOk h) ‹_›))
        split
        · extract_lets v t1 t2
          have hv : MemoryOk v := flushSpan_memoryOk (MemoryOk.of_fst (mldRow_memoryOk hu) ‹_›)
          clear_value t2 t1 v
          exact MemoryOk.ite (setTile_memoryOk hv) hv
        · exact MemoryOk.of_fst (mldRow_memoryOk hu) ‹_›
  · dsimp only [memMld]
    exact hurtTile_memoryOk h

theorem memMst_memberOk {f : OpTile} : MemberOk (memMst f) := by
  refine ⟨fun s h => ?_, fun _ _ h => h⟩
  unfold memMst
  dsimp -zeta only
  extract_lets t bad last r
  have hr : MemoryOk r := by
    refine markWhole_memoryOk (MemoryOk.forUp (fun i u hu => MemoryOk.ite (MemoryOk.forUp (fun j v hv => MemoryOk.ite ?_ hv) hu) hu) h)
    dsimp only
    split
    · exact footStore_memoryOk (MemoryOk.of_fst (reach_memoryOk hv) ‹_›)
    · exact raise_memoryOk hv
    · exact mustWait_memoryOk (MemoryOk.of_fst (reach_memoryOk hv) ‹_›)
  clear_value r last bad t
  split
  · exact raise_memoryOk h
  · split
    · exact MemoryOk.ite (raiseMismatch_memoryOk hr) hr
    · exact hr

theorem runGet_memoryOk {f : OpTile} {col : Bool} {s : State} (h : MemoryOk s) : MemoryOk (runGet f col s) := by
  unfold runGet
  dsimp only
  split
  · exact MemoryOk.ite (raiseMismatch_memoryOk h) ((writeVec_memoryOk h).update)
  · exact writeVec_memoryOk h

theorem runPut_memoryOk {f : OpTile} {col : Bool} {s : State} (h : MemoryOk s) : MemoryOk (runPut f col s) :=
  MemoryOk.ite h (MemoryOk.ite (setTile_memoryOk h) h)

theorem memMrowPut_memberOk {f : OpTile} : MemberOk (memMrowPut f) := by
  unfold memMrowPut
  refine ⟨fun _ h => ?_, fun _ _ h => ?_⟩
  · dsimp only
    exact runPut_memoryOk h
  · dsimp only
    exact hurtTile_memoryOk h

theorem memMcolPut_memberOk {f : OpTile} : MemberOk (memMcolPut f) := by
  unfold memMcolPut
  refine ⟨fun _ h => ?_, fun _ _ h => ?_⟩
  · dsimp only
    exact runPut_memoryOk h
  · dsimp only
    exact hurtTile_memoryOk h

theorem memMzero_memberOk {f : OpTile} : MemberOk (memMzero f) := by
  unfold memMzero
  refine ⟨fun _ h => ?_, fun _ _ h => ?_⟩
  · dsimp only
    exact setTile_memoryOk h
  · dsimp only
    exact hurtTile_memoryOk h

/-! ### Summaries and commits -/

theorem sumTrap_memoryOk {s : State} {c : Cause} {tval : Word} (h : MemoryOk s) : MemoryOk (sumTrap s c tval) := raise_memoryOk h

theorem setSum_memoryOk {s : State} {n : Nat} {m : Summary} (h : MemoryOk s) : MemoryOk (setSum s n m) := dirtyS_memoryOk h.update

theorem hurtSum_memoryOk {n x0 : Nat} {s : State} (h : MemoryOk s) : MemoryOk (hurtSum n x0 s) :=
  OptOk.getD (OptOk.map (fun _ _ => setSum_memoryOk h)) h

theorem withSum_memoryOk {s : State} {n : Nat} {g : Summary → State} (h : MemoryOk s) (hg : ∀ x, MemoryOk (g x)) : MemoryOk (withSum s n g) := by
  unfold withSum
  split
  · exact hg _
  · exact sumTrap_memoryOk h

theorem withType_memoryOk {s : State} {n ty : Nat} {g : Summary → State} (h : MemoryOk s) (hg : ∀ x, MemoryOk (g x)) : MemoryOk (withType s n ty g) :=
  withSum_memoryOk h (fun _ => MemoryOk.ite (hg _) (sumTrap_memoryOk h))

theorem withQuery_memoryOk {s : State} {n ty : Nat} {g : Summary → State} (h : MemoryOk s) (hg : ∀ x, MemoryOk (g x)) :
    MemoryOk (withQuery s n ty g) :=
  withType_memoryOk h (fun _ => MemoryOk.ite (sumTrap_memoryOk h) (hg _))

theorem sumRound_memoryOk {s : State} {n pred : Nat} {m : Summary} {bad : Nat → Bool} {f : Nat → Body → Body} (h : MemoryOk s) :
    MemoryOk (sumRound s n pred m bad f) := by
  unfold sumRound
  split
  · exact h
  · dsimp only
    split
    · exact setSum_memoryOk h
    · exact MemoryOk.ite (setSum_memoryOk h) (setSum_memoryOk h)

theorem memSupdCms_memberOk {f : OpSM} : MemberOk (memSupdCms f) := by
  unfold memSupdCms
  refine ⟨fun _ h => ?_, fun _ _ h => ?_⟩
  · dsimp only
    exact withType_memoryOk h (fun _ => sumRound_memoryOk h)
  · dsimp only
    exact hurtSum_memoryOk h

theorem memSupdBks_memberOk {f : OpSM} : MemberOk (memSupdBks f) := by
  unfold memSupdBks
  refine ⟨fun _ h => ?_, fun _ _ h => ?_⟩
  · dsimp only
    exact withType_memoryOk h (fun _ => sumRound_memoryOk h)
  · dsimp only
    exact hurtSum_memoryOk h

theorem memSupdQh_memberOk {f : OpSM} : MemberOk (memSupdQh f) := by
  unfold memSupdQh
  refine ⟨fun _ h => ?_, fun _ _ h => ?_⟩
  · dsimp only
    exact withType_memoryOk h (fun _ => MemoryOk.ite (sumTrap_memoryOk h) (sumRound_memoryOk h))
  · dsimp only
    exact hurtSum_memoryOk h

theorem memSupdMom_memberOk {f : OpSM} : MemberOk (memSupdMom f) := by
  unfold memSupdMom
  refine ⟨fun _ h => ?_, fun _ _ h => ?_⟩
  · dsimp only
    exact withType_memoryOk h (fun _ => MemoryOk.ite (sumTrap_memoryOk h) (sumRound_memoryOk h))
  · dsimp only
    exact hurtSum_memoryOk h

theorem memSupdWes_memberOk {f : OpSM} : MemberOk (memSupdWes f) := by
  unfold memSupdWes
  refine ⟨fun _ h => ?_, fun _ _ h => ?_⟩
  · dsimp only
    exact withType_memoryOk h (fun _ => MemoryOk.ite (sumTrap_memoryOk h) (sumRound_memoryOk h))
  · dsimp only
    exact hurtSum_memoryOk h

theorem memSclr_memberOk {f : OpSM} : MemberOk (memSclr f) := by
  unfold memSclr
  refine ⟨fun _ h => ?_, fun _ _ h => ?_⟩
  · dsimp only
    exact withSum_memoryOk h (fun _ => setSum_memoryOk h)
  · dsimp only
    exact hurtSum_memoryOk h

theorem memSmerge_memberOk {f : OpSM} : MemberOk (memSmerge f) := by
  unfold memSmerge
  refine ⟨fun _ h => ?_, fun _ _ h => ?_⟩
  · dsimp only
    refine withSum_memoryOk h ?_
    intro _
    refine withSum_memoryOk h ?_
    intro _
    split
    · exact setSum_memoryOk h
    · exact sumTrap_memoryOk h
  · dsimp only
    exact hurtSum_memoryOk h

theorem sumRead_memoryOk {s : State} {va : Word} {n : Nat} {g : State → Nat → Bool → State} (h : MemoryOk s)
    (hg : ∀ t x y, MemoryOk t → MemoryOk (g t x y)) : MemoryOk (sumRead s va n g) := by
  unfold sumRead
  split
  · exact sumTrap_memoryOk h
  · exact mustWait_memoryOk (MemoryOk.of_fst (hartSpan_memoryOk h) ‹_›)
  · exact hg _ _ _ (flushSpan_memoryOk (MemoryOk.of_fst (hartSpan_memoryOk h) ‹_›))

theorem memSdecl_memberOk {f : OpSM} : MemberOk (memSdecl f) := by
  refine ⟨fun s h => ?_, fun g s h => ?_⟩
  · unfold memSdecl
    dsimp only
    split
    · exact sumTrap_memoryOk h
    · refine sumRead_memoryOk h fun u d pois hu => MemoryOk.ite (sumTrap_memoryOk hu) ?_
      split
      · exact sumTrap_memoryOk hu
      · exact MemoryOk.ite (sumTrap_memoryOk hu) (setSum_memoryOk hu)
  · exact hurtSum_memoryOk (x0 := g) h

theorem readImageIf_memoryOk {ok : Summary → Bool} {s : State} {va : Word} {g : State → Summary → State} (h : MemoryOk s)
    (hg : ∀ t x, MemoryOk t → MemoryOk (g t x)) : MemoryOk (readImageIf ok s va g) := by
  unfold readImageIf
  split
  · exact sumTrap_memoryOk h
  · refine sumRead_memoryOk h ?_
    intro _ _ _ h1
    split
    · exact sumTrap_memoryOk h1
    · refine sumRead_memoryOk h1 ?_
      intro _ _ _ h2
      split
      · exact hg _ _ h2
      · split
        · exact sumTrap_memoryOk h2
        · exact hg _ _ h2

theorem readImage_memoryOk {s : State} {va : Word} {g : State → Summary → State} (h : MemoryOk s) (hg : ∀ t x, MemoryOk t → MemoryOk (g t x)) :
    MemoryOk (readImage s va g) :=
  readImageIf_memoryOk h (fun _ _ h1 => hg _ _ h1)

theorem memSld_memberOk {f : OpSM} : MemberOk (memSld f) := by
  unfold memSld
  refine ⟨fun _ h => ?_, fun _ _ h => ?_⟩
  · dsimp only
    exact readImage_memoryOk h (fun _ _ h1 => MemoryOk.ite (sumTrap_memoryOk h1) (setSum_memoryOk h1))
  · dsimp only
    exact hurtSum_memoryOk h

theorem memSmergeM_memberOk {f : OpSM} : MemberOk (memSmergeM f) := by
  unfold memSmergeM
  refine ⟨fun _ h => ?_, fun _ _ h => ?_⟩
  · dsimp only
    refine withSum_memoryOk h ?_
    intro _
    refine readImageIf_memoryOk h ?_
    intro _ _ h1
    split
    · exact setSum_memoryOk h1
    · exact sumTrap_memoryOk h1
  · dsimp only
    exact hurtSum_memoryOk h

theorem putImage_memoryOk {s : State} {va : Word} {v n : Nat} (h : MemoryOk s) : MemoryOk (putImage s va v n) := by
  unfold putImage
  refine markWhole_memoryOk ?_
  refine MemoryOk.forUp ?_ h
  intro _ _ h1
  split
  · dsimp only
    split
    · exact footStore_memoryOk (MemoryOk.of_fst (reach_memoryOk h1) ‹_›)
    · exact sumTrap_memoryOk h1
    · exact mustWait_memoryOk (MemoryOk.of_fst (reach_memoryOk h1) ‹_›)
  · exact h1

theorem raiseMark_memoryOk {s : State} {n : Nat} {m : Summary} {w : Word} (h : MemoryOk s) : MemoryOk (raiseMark s n m w).1 := by
  unfold raiseMark
  split
  · exact setSum_memoryOk h
  · exact h

theorem memSst_memberOk {f : OpSM} : MemberOk (memSst f) :=
  ⟨fun _ h => withSum_memoryOk h (fun _ => MemoryOk.ite (sumTrap_memoryOk h) (putImage_memoryOk (raiseMark_memoryOk h))), fun _ _ h => h⟩

theorem memSqBksEst_memberOk {f : OpSM} : MemberOk (memSqBksEst f) := by
  unfold memSqBksEst
  refine ⟨fun _ h => ?_, fun _ _ h => ?_⟩
  · dsimp only
    refine withQuery_memoryOk h ?_
    intro _
    split
    · exact writeX_memoryOk h
    · exact h
  · dsimp only
    exact hurtScalar_memoryOk h

theorem memSqBksItems_memberOk {f : OpSM} : MemberOk (memSqBksItems f) := by
  unfold memSqBksItems
  refine ⟨?_, fun _ _ h => h⟩
  intro _ h
  refine withQuery_memoryOk h ?_
  intro _
  split
  · exact writeVec_memoryOk (writeVec_memoryOk h)
  · exact h

theorem memSqQnt_memberOk {f : OpSM} : MemberOk (memSqQnt f) := by
  unfold memSqQnt
  refine ⟨fun _ h => ?_, fun _ _ h => ?_⟩
  · dsimp only
    exact withQuery_memoryOk h (fun _ => writeX_memoryOk h)
  · dsimp only
    exact hurtScalar_memoryOk h

theorem memSqMomQuery_memberOk {f : OpSM} : MemberOk (memSqMomQuery f) := by
  unfold memSqMomQuery
  refine ⟨fun _ h => ?_, fun _ _ h => ?_⟩
  · dsimp only
    exact withQuery_memoryOk h (fun _ => writeX_memoryOk h)
  · dsimp only
    exact hurtScalar_memoryOk h

theorem memSqWes_memberOk {f : OpSM} : MemberOk (memSqWes f) := by
  unfold memSqWes
  refine ⟨?_, fun _ _ h => h⟩
  intro _ h
  refine withQuery_memoryOk h ?_
  intro _
  dsimp only
  split
  · exact sumTrap_memoryOk h
  · split
    · exact writeVec_memoryOk h
    · exact h

theorem cellFault_memoryOk {fuel : Nat} : ∀ {s : State} {va : Word} {n : Nat}, MemoryOk s → MemoryOk (cellFault s fuel va n).1 := by
  induction fuel with
  | zero => exact fun h => h
  | succ fuel ih =>
    intro s va n h
    have hu := resolve_memoryOk va 1 .load h
    unfold cellFault
    split
    · exact MemoryOk.of_fst hu ‹_›
    · exact MemoryOk.of_fst hu ‹_›
    · have hv := resolve_memoryOk va 1 .store (MemoryOk.of_fst hu ‹_›)
      split
      · exact MemoryOk.of_fst hv ‹_›
      · exact MemoryOk.of_fst hv ‹_›
      · have hv := MemoryOk.of_fst hv ‹_›
        split
        · exact hv
        · split
          · exact hv
          · exact ih hv

theorem setPhase_memoryOk {s : State} {p : Nat} {c : Nat × Nat} (h : MemoryOk s) : MemoryOk (setPhase s p c) := h.update

theorem commitImage_memoryOk {f : OpSM} {m : Summary} {c : Nat × Nat} {s : State} (h : MemoryOk s) : MemoryOk (commitImage f m c s) := by
  unfold commitImage
  dsimp only
  split
  · exact mustWait_memoryOk h
  · exact mustWait_memoryOk (setPhase_memoryOk (putImage_memoryOk h))

theorem commitSeal_memoryOk {f : OpSM} {m : Summary} {s : State} (h : MemoryOk s) : MemoryOk (commitSeal f m s) := by
  unfold commitSeal
  dsimp only
  split
  · exact mustWait_memoryOk h
  · exact mustWait_memoryOk (setPhase_memoryOk (putImage_memoryOk h))

theorem commitPhase_memoryOk {f : OpSM} {m : Summary} {c : Nat × Nat} {s : State} (h : MemoryOk s) : MemoryOk (commitPhase f m c s) := by
  unfold commitPhase
  split
  · exact MemoryOk.ite (commitImage_memoryOk h) (mustWait_memoryOk h)
  · exact MemoryOk.ite (commitSeal_memoryOk h) (mustWait_memoryOk h)
  · exact MemoryOk.ite (raiseMark_memoryOk h) (mustWait_memoryOk h)

theorem memScmt_memberOk {f : OpSM} : MemberOk (memScmt f) := by
  unfold memScmt
  refine ⟨?_, fun _ _ h => h⟩
  intro _ h
  refine withSum_memoryOk h ?_
  intro _
  split
  · exact sumTrap_memoryOk h
  · dsimp only
    split
    · exact commitPhase_memoryOk h
    · split
      · exact sumTrap_memoryOk h
      · split
        · exact sumTrap_memoryOk h
        · exact mustWait_memoryOk (MemoryOk.of_fst (cellFault_memoryOk h) ‹_›)
        · refine sumRead_memoryOk (MemoryOk.of_fst (cellFault_memoryOk h) ‹_›) ?_
          intro _ _ _ h1
          refine sumRead_memoryOk h1 ?_
          intro _ _ _ h2
          split
          · exact commitPhase_memoryOk h2
          · exact MemoryOk.ite (sumTrap_memoryOk h2) (commitPhase_memoryOk h2)

theorem execScmtImageWrite_outOk {s : State} (h : MemoryOk s) : OutOk (execScmtImageWrite s) := by
  unfold execScmtImageWrite
  split
  · split
    · split
      · exact OutOk.next (runConvoy_memoryOk (MembersOk.cons memScmt_memberOk MembersOk.nil) (roleFor_memoryOk h))
      · exact OutOk.next h
    · exact OutOk.next h
  · exact OutOk.next h

theorem execScmtSealWrite_outOk {s : State} (h : MemoryOk s) : OutOk (execScmtSealWrite s) := by
  unfold execScmtSealWrite
  split
  · split
    · split
      · exact OutOk.next (runConvoy_memoryOk (MembersOk.cons memScmt_memberOk MembersOk.nil) (roleFor_memoryOk h))
      · exact OutOk.next h
    · exact OutOk.next h
  · exact OutOk.next h

/-! ### Sheds -/

theorem zeroShed_memoryOk {s : State} {plane block : Nat} (h : MemoryOk s) : MemoryOk (zeroShed s plane block) := ⟨Memory.wf_clear _ _ h.1, h.2⟩

theorem takeShed_memoryOk {s : State} {plane block : Nat} {partner : Option (Nat × Nat)} {mirror : Bool} (h : MemoryOk s) :
    MemoryOk (takeShed s plane block partner mirror) :=
  zeroShed_memoryOk h.update

theorem memShalloc_memberOk {f : OpDS} : MemberOk (memShalloc f) := by
  unfold memShalloc
  refine ⟨?_, fun _ _ h => h⟩
  intro _ h
  dsimp only
  split
  · exact writeX_memoryOk h
  · split
    · exact writeX_memoryOk h
    · exact writeX_memoryOk (takeShed_memoryOk h)

theorem memShallocM_memberOk {f : OpDS} : MemberOk (memShallocM f) := by
  unfold memShallocM
  refine ⟨?_, fun _ _ h => h⟩
  intro _ h
  dsimp only
  split
  · exact writeX_memoryOk h
  · split
    · exact writeX_memoryOk h
    · exact writeX_memoryOk (takeShed_memoryOk (takeShed_memoryOk h))

theorem drainWhere_memoryOk {p : Nat → Bool} {s : State} (h : MemoryOk s) : MemoryOk (drainWhere p s) :=
  MemoryOk.foldl (fun _ _ h1 => drainTarget_memoryOk h1) h

theorem freeShed_memoryOk {s : State} {b : ShedBlock} (h : MemoryOk s) : MemoryOk (freeShed s b) :=
  (eachHart_memoryOk h (fun _ h1 => drainWhere_memoryOk h1)).update

theorem memShfree_memberOk {f : OpDS} : MemberOk (memShfree f) := by
  unfold memShfree
  refine ⟨?_, fun _ _ h => h⟩
  intro _ h
  dsimp only
  split
  · exact raise_memoryOk h
  · split
    · exact raise_memoryOk h
    · exact raise_memoryOk h
    · exact MemoryOk.ite (raise_memoryOk h) (freeShed_memoryOk h)

theorem memShstat_memberOk {f : OpDS} : MemberOk (memShstat f) := by
  unfold memShstat
  refine ⟨?_, fun _ _ h => h⟩
  intro _ h
  dsimp only
  split
  · exact writeX_memoryOk h
  · exact writeX_memoryOk h
  · exact raise_memoryOk h

theorem markExcess_memoryOk {s : State} {plane tenant : Nat} (h : MemoryOk s) : MemoryOk (markExcess s plane tenant) := h.update

theorem unmark_memoryOk {s : State} {plane tenant : Nat} (h : MemoryOk s) : MemoryOk (unmark s plane tenant) := h.update

theorem execQuotaChange_outOk {plane : BitVec 4} {tenant quota : Nat} {s : State} (h : MemoryOk s) :
    OutOk (execQuotaChange plane tenant quota s) := by
  unfold execQuotaChange
  refine OutOk.next ?_
  split
  · exact unmark_memoryOk ((eachHart_memoryOk h (fun _ h1 => drainWhere_memoryOk h1)).update)
  · exact markExcess_memoryOk ((eachHart_memoryOk h (fun _ h1 => drainWhere_memoryOk h1)).update)

theorem takeLost_memoryOk {s : State} {va : Word} (h : MemoryOk s) : MemoryOk (takeLost s va) := takeStop_memoryOk _ _ _ _ _ _ _ _ h

theorem dropLost_memoryOk {s : State} (h : MemoryOk s) : MemoryOk (dropLost s) := by
  unfold dropLost
  split
  · exact h
  · exact MemoryOk.ite (takeLost_memoryOk h.update) (MemoryOk.ite h.update h.update)

theorem execSwitchFailure_outOk {plane : BitVec 4} {s : State} (h : MemoryOk s) : OutOk (execSwitchFailure plane s) :=
  OutOk.next (eachHart_memoryOk ((logError_memoryOk h).update) (fun _ h1 => dropLost_memoryOk h1))

/-! ### The convoy at the program counter -/

theorem memberOf_memberOk {i : Instr} {m : Member} (e : memberOf i = some m) : MemberOk m := by
  cases i with
  | vadd | vsub | vmul | vmulh | vmulhn | vand | vor | vxor | vsll | vsrl | vsra | vmin | vmax | vminn | vmaxn | vfmin | vfmax | vfsgnj
  | vfaerr | vfmerr => cases e; exact memVV_memberOk
  | vsel => cases e; exact selMember_memberOk
  | vfadd | vfsub | vfmul | vfdiv => cases e; exact memF2_memberOk
  | vfsqrt => cases e; exact memSqrt_memberOk
  | vfabs | vfneg | vfclass | vfrecipEst | vfrsqrtEst => cases e; exact memV1_memberOk
  | vfma | vfms | vfnma | vfnms => cases e; exact memFma_memberOk
  | vceq | vclt | vcle | vcltn | vclen | vfceq | vfclt | vfcle => cases e; exact memCmp_memberOk
  | vcvt => cases e; exact memCvt_memberOk
  | vperm | vslideup | vslidedown | vexpand | vmv | vzip | vunzip => cases e; exact memPermute_memberOk
  | vcompress => cases e; exact memCompress_memberOk
  | vfoldAdd | vfoldMin | vfoldMax | vfoldMinn | vfoldMaxn | vfoldFadd | vfoldFmin | vfoldFmax => cases e; exact memFold_memberOk
  | pand | por | pxor | pandn => cases e; exact memPred2_memberOk
  | plt => cases e; exact pltMember_memberOk
  | pgetsm => cases e; exact getsmMember_memberOk
  | pcount => cases e; exact countMember_memberOk
  | pfirst => cases e; exact firstMember_memberOk
  | vaddVx | vsubVx | vrsubVx | vmulVx | vandVx | vorVx | vxorVx | vsllVx | vsrlVx | vsraVx | vminVx | vmaxVx => cases e; exact memVX_memberOk
  | vfaddVx | vfmulVx => cases e; exact memFX_memberOk
  | vfmaVx => cases e; exact memFmaX_memberOk
  | vbcast => cases e; exact memBcast_memberOk
  | vld => cases e; exact memVld_memberOk
  | vlds => cases e; exact memVlds_memberOk
  | vldFf => cases e; exact memVldFf_memberOk
  | vldc => cases e; exact memVldc_memberOk
  | vfill => cases e; exact memVfill_memberOk
  | vldXn | vldXtn => cases e; exact ⟨fun _ h => runLinkedLoad_memoryOk h, fun _ _ h => h⟩
  | vldx => cases e; exact memVldx_memberOk
  | vst => cases e; exact memVst_memberOk
  | vsts => cases e; exact memVsts_memberOk
  | vcopy => cases e; exact memVcopy_memberOk
  | vstc => cases e; exact memVstc_memberOk
  | vspill => cases e; exact memVspill_memberOk
  | vstXn | vstXtn => cases e; exact ⟨fun _ h => runLinkedStore_memoryOk h, fun _ _ h => h⟩
  | vstx => cases e; exact memVstx_memberOk
  | vamoSwap | vamoAdd | vamoAnd | vamoOr | vamoXor | vamoMin | vamoMax | vamoMinn | vamoMaxn | vamoCas | vamoFadd | vamoFmin | vamoFmax =>
    cases e; exact vatom_memberOk
  | vamoAddCb | vamoAndCb | vamoOrCb | vamoXorCb | vamoMinCb | vamoMaxCb | vamoMinnCb | vamoMaxnCb | vamoFaddCb | vamoFminCb | vamoFmaxCb =>
    cases e; exact vcomb_memberOk
  | vwaitEq | vwaitNe | vwaitGe | vwaitLt | vwaitGen | vwaitLtn => cases e; exact vwaitM_memberOk
  | vfence => cases e; exact memVfence_memberOk
  | awinDecl => cases e; exact memAwinDecl_memberOk
  | awinUpd => cases e; exact memAwinUpd_memberOk
  | awinMerge => cases e; exact memAwinMerge_memberOk
  | pnTake => cases e; exact memPnTake_memberOk
  | pnPost | pnPostVl => cases e; exact postMember_memberOk
  | supdCms => cases e; exact memSupdCms_memberOk
  | supdBks => cases e; exact memSupdBks_memberOk
  | supdQh => cases e; exact memSupdQh_memberOk
  | supdMom => cases e; exact memSupdMom_memberOk
  | supdWes => cases e; exact memSupdWes_memberOk
  | smerge => cases e; exact memSmerge_memberOk
  | sclr => cases e; exact memSclr_memberOk
  | sdecl => cases e; exact memSdecl_memberOk
  | sqCms => cases e; exact ⟨fun _ h => withQuery_memoryOk h (fun _ => writeVec_memoryOk h), fun _ _ h => h⟩
  | sqBksEst => cases e; exact memSqBksEst_memberOk
  | sqBksItems => cases e; exact memSqBksItems_memberOk
  | sqQnt => cases e; exact memSqQnt_memberOk
  | sqMomQuery => cases e; exact memSqMomQuery_memberOk
  | sqWes => cases e; exact memSqWes_memberOk
  | sst => cases e; exact memSst_memberOk
  | sld => cases e; exact memSld_memberOk
  | smergeM => cases e; exact memSmergeM_memberOk
  | scmt => cases e; exact memScmt_memberOk
  | dpb => cases e; exact ⟨fun _ h => MemoryOk.ite h (mustWait_memoryOk h), fun _ _ h => h⟩
  | shalloc => cases e; exact memShalloc_memberOk
  | shallocM => cases e; exact memShallocM_memberOk
  | shfree => cases e; exact memShfree_memberOk
  | shstat => cases e; exact memShstat_memberOk
  | mopa => cases e; exact memMopa_memberOk
  | mops => cases e; exact memMops_memberOk
  | mopi => cases e; exact memMopi_memberOk
  | mopn => cases e; exact memMopn_memberOk
  | mopl => cases e; exact memMopl_memberOk
  | mgrow => cases e; exact memMgrow_memberOk
  | mrowGet | mcolGet => cases e; exact ⟨fun _ h => runGet_memoryOk h, fun _ _ h => h⟩
  | mrowPut => cases e; exact memMrowPut_memberOk
  | mcolPut => cases e; exact memMcolPut_memberOk
  | mld => cases e; exact memMld_memberOk
  | mst => cases e; exact memMst_memberOk
  | mzero => cases e; exact memMzero_memberOk
  | _ => cases e

theorem MembersOk.filterMap {is : List Instr} : MembersOk (is.filterMap memberOf) := by
  intro m hm
  obtain ⟨i, -, hi⟩ := List.mem_filterMap.mp hm
  exact memberOf_memberOk hi

theorem gotAt_memoryOk {s : State} {va : Word} (h : MemoryOk s) : MemoryOk (gotAt s va).1 := by
  unfold gotAt
  split
  · split <;> exact h
  · split <;> exact MemoryOk.of_fst (fetchBits_memoryOk h) ‹_›

theorem gather_memoryOk {n : Nat} : ∀ {s : State} {va : Word}, MemoryOk s → MemoryOk (gather s va n).1 := by
  induction n with
  | zero => exact fun h => h
  | succ n ih =>
    intro s va h
    unfold gather
    split
    · have ht := MemoryOk.of_fst (gotAt_memoryOk h) ‹_›
      split
      · exact ht
      · split
        · exact ih ht
        · exact ht
    · exact MemoryOk.of_fst (gotAt_memoryOk h) ‹_›

theorem headTurn_memoryOk {s : State} (h : MemoryOk s) : MemoryOk (headTurn s) := by
  unfold headTurn
  split
  · exact runConvoy_memoryOk MembersOk.filterMap (roleFor_memoryOk h)
  · exact h

theorem memberTrap_memoryOk {s : State} {t : Trap} {member : Nat} (h : MemoryOk s) : MemoryOk (memberTrap s t member) :=
  takeStop_memoryOk _ _ _ _ _ _ _ _ h

theorem execConvoyPost_outOk {s : State} (h : MemoryOk s) : OutOk (execConvoyPost s) := by
  unfold execConvoyPost
  split
  · exact OutOk.next h
  · split
    · dsimp only
      split
      · exact OutOk.next (memberTrap_memoryOk h)
      · split
        · exact OutOk.next (wait_memoryOk h)
        · split
          · exact OutOk.next h
          · split
            · exact OutOk.next (wait_memoryOk h)
            · refine OutOk.next ?_
              split
              · exact headTurn_memoryOk (postConvoy_memoryOk (MemoryOk.of_fst (gather_memoryOk h) ‹_›))
              · exact postConvoy_memoryOk (MemoryOk.of_fst (gather_memoryOk h) ‹_›)

/-! ### Streams of the access queue -/

theorem setEntry_memoryOk {s : State} {i : Nat} {e : AqEntry} (h : MemoryOk s) : MemoryOk (setEntry s i e) := h.update

theorem finish_tryOk {s : State} {i : Nat} {e : AqEntry} {result : Word} {payload : Nat} {durable : Bool} (h : MemoryOk s) :
    TryOk (finish s i e result payload durable) :=
  TryOk.go (setEntry_memoryOk h)

theorem aqRead_memoryOk {s : State} {va : Word} {n align : Nat} (h : MemoryOk s) : MemoryOk (aqRead s va n align).1 := by
  unfold aqRead
  split
  · exact h
  · split
    · split <;> exact MemoryOk.of_fst (hartSpan_memoryOk h) ‹_›
    · exact MemoryOk.of_fst (hartSpan_memoryOk h) ‹_›
    · exact MemoryOk.of_fst (hartSpan_memoryOk h) ‹_›

theorem onRead_tryOk {α : Type} {r : State × Except (Option Trap) α} {g : State → α → Try} (hr : MemoryOk r.1)
    (hg : ∀ t x, MemoryOk t → TryOk (g t x)) : TryOk (onRead r g) := by
  unfold onRead
  split
  · exact hg _ _ hr
  · exact TryOk.trap
  · exact TryOk.blocked

theorem retireEntry_tryOk {s : State} (h : MemoryOk s) : TryOk (retireEntry s) := by
  unfold retireEntry
  split
  · exact TryOk.blocked
  · split
    · split
      · exact TryOk.blocked
      · dsimp only
        split
        · exact TryOk.go ((MemoryOk.ite (writeX_memoryOk h) h).update)
        · split
          · exact TryOk.blocked
          · exact TryOk.go ((pnPush_memoryOk (MemoryOk.ite (writeX_memoryOk h) h)).update)
    · exact TryOk.blocked

theorem startOpen_tryOk {f : OpAC} {s : State} {i : Nat} {e : AqEntry} (h : MemoryOk s) : TryOk (startOpen f s i e) := by
  unfold startOpen
  refine onRead_tryOk (aqRead_memoryOk h) ?_
  intro _ _ h1
  split
  · exact finish_tryOk h1.update
  · exact TryOk.trap

theorem startClose_tryOk {f : OpAC} {s : State} {i : Nat} {e : AqEntry} (h : MemoryOk s) : TryOk (startClose f s i e) := by
  unfold startClose
  dsimp only
  split
  · exact TryOk.trap
  · split
    · exact TryOk.trap
    · split
      · exact TryOk.blocked
      · exact finish_tryOk ⟨Memory.wf_clear _ _ ((retireWhere_memoryOk (eachHart_memoryOk h (fun _ h1 => drainWhere_memoryOk h1))).1),
          (retireWhere_memoryOk (eachHart_memoryOk h (fun _ h1 => drainWhere_memoryOk h1))).2⟩

theorem startBind_tryOk {f : OpAC} {s : State} {i : Nat} {e : AqEntry} (h : MemoryOk s) : TryOk (startBind f s i e) := by
  unfold startBind
  dsimp only
  split
  · exact TryOk.blocked
  · split
    · exact TryOk.trap
    · exact TryOk.ite TryOk.trap (finish_tryOk h.update)

theorem startUnbind_tryOk {f : OpAC} {s : State} {i : Nat} {e : AqEntry} (h : MemoryOk s) : TryOk (startUnbind f s i e) :=
  TryOk.ite TryOk.trap (finish_tryOk h.update)

theorem startRun_tryOk {f : OpAC} {s : State} {i : Nat} {e : AqEntry} (h : MemoryOk s) : TryOk (startRun f s i e) := by
  unfold startRun
  split
  · exact TryOk.trap
  · split
    · exact finish_tryOk h
    · split
      · exact TryOk.trap
      · exact TryOk.blocked
      · split
        · exact TryOk.trap
        · exact TryOk.ite (finish_tryOk h) (TryOk.go (setEntry_memoryOk h))

theorem sourceRead_memoryOk {s : State} {va : Word} {n : Nat} (h : MemoryOk s) : MemoryOk (sourceRead s va n).1 := by
  unfold sourceRead
  split <;> exact MemoryOk.of_fst (hartSpan_memoryOk h) ‹_›

theorem putPoisoned_memoryOk {s : State} {l : List (Hit × Nat)} {bs : List (Byte × Bool)} {epoch : Nat} (h : MemoryOk s) :
    MemoryOk (putPoisoned s l bs epoch) :=
  MemoryOk.foldl_fst (fun _ _ h1 => MemoryOk.foldl (fun _ _ h2 => applyStore_memoryOk _ h2) h1) h

theorem engineStore_tryOk {s : State} {va : Word} {bs : List (Byte × Bool)} {epoch : Nat} {g : State → Try} (h : MemoryOk s)
    (hg : ∀ t, MemoryOk t → TryOk (g t)) : TryOk (engineStore s va bs epoch g) := by
  unfold engineStore
  split
  · exact hg _ (putPoisoned_memoryOk (MemoryOk.of_fst (hartSpan_memoryOk h) ‹_›))
  · exact TryOk.trap
  · exact TryOk.blocked

theorem blockAtPos_memoryOk {s : State} {r : Stream} {pos : Nat} (h : MemoryOk s) : MemoryOk (blockAtPos s r pos).1 := by
  unfold blockAtPos
  dsimp only
  split
  · exact h
  · split
    · exact h
    · split
      · have ht := MemoryOk.of_fst (sourceRead_memoryOk h) ‹_›
        split
        · exact ht
        · split
          · exact ht
          · split <;> exact MemoryOk.of_fst (sourceRead_memoryOk ht) ‹_›
      · exact MemoryOk.of_fst (sourceRead_memoryOk h) ‹_›

theorem decodeChunk_memoryOk {r : Stream} {fuel : Nat} :
    ∀ {s : State} {d : Decoded}, MemoryOk s → MemoryOk (decodeChunk r fuel s d).1 := by
  induction fuel with
  | zero => exact fun h => h
  | succ fuel ih =>
    intro s d h
    have ht := blockAtPos_memoryOk (r := r) (pos := d.pos) h
    unfold decodeChunk
    split
    · exact ih (MemoryOk.of_fst ht ‹_›)
    · exact MemoryOk.of_fst ht ‹_›
    · exact MemoryOk.of_fst ht ‹_›

theorem unitDone_tryOk {f : OpAC} {r : Stream} {s : State} {i : Nat} {e : AqEntry} {units count : Nat} {err stop : Bool} (h : MemoryOk s) :
    TryOk (unitDone f r s i e units count err stop) :=
  TryOk.ite (finish_tryOk h) (TryOk.go (setEntry_memoryOk h))

theorem unitIn_tryOk {f : OpAC} {s : State} {i : Nat} {e : AqEntry} {r : Stream} {units count : Nat} (h : MemoryOk s) :
    TryOk (unitIn f s i e r units count) := by
  unfold unitIn
  split
  · exact unitDone_tryOk h
  · split
    · split
      · exact TryOk.blocked
      · exact onRead_tryOk (sourceRead_memoryOk h) (fun _ _ h1 => unitDone_tryOk (setStream_memoryOk h1))
    · split
      · split
        · exact TryOk.blocked
        · exact onRead_tryOk (decodeChunk_memoryOk h) (fun _ _ h1 => unitDone_tryOk (setStream_memoryOk h1))
      · split
        · exact TryOk.blocked
        · refine onRead_tryOk (blockAtPos_memoryOk h) ?_
          intro _ _ h1
          split <;> exact unitDone_tryOk (setStream_memoryOk h1)

theorem unitOut_tryOk {f : OpAC} {s : State} {i : Nat} {e : AqEntry} {r : Stream} {units count : Nat} (h : MemoryOk s) :
    TryOk (unitOut f s i e r units count) := by
  unfold unitOut
  split
  · exact TryOk.blocked
  · dsimp only
    split
    · exact unitDone_tryOk (setStream_memoryOk h)
    · exact engineStore_tryOk h (fun _ h1 => unitDone_tryOk (setStream_memoryOk h1))

theorem unitRun_tryOk {s : State} {i : Nat} {e : AqEntry} (h : MemoryOk s) : TryOk (unitRun s i e) := by
  unfold unitRun
  split
  · split
    · exact TryOk.ite (unitOut_tryOk h) (unitIn_tryOk h)
    · exact finish_tryOk h
  · exact TryOk.blocked

/-! ### Collectives -/

theorem sendMessage_memoryOk {s : State} {m : Message} (h : MemoryOk s) : MemoryOk (sendMessage s m) :=
  MemoryOk.ite h (MemoryOk.ite h.update h.update)

theorem takeMessage_memoryOk {s t : State} {p : Message → Bool} {m : Message} (h : MemoryOk s) (e : takeMessage s p = some (m, t)) : MemoryOk t := by
  obtain ⟨q, -, hq⟩ := Option.map_eq_some_iff.mp e
  cases hq
  exact h.update

theorem startColl_tryOk {f : OpAC} {s : State} {i : Nat} {e : AqEntry} (h : MemoryOk s) : TryOk (startColl f s i e) := by
  unfold startColl
  refine onRead_tryOk (aqRead_memoryOk h) ?_
  intro _ _ h1
  split
  · exact TryOk.trap
  · refine onRead_tryOk (aqRead_memoryOk h1) ?_
    intro _ _ h2
    split
    · exact TryOk.trap
    · refine onRead_tryOk (aqRead_memoryOk h2) ?_
      intro _ _ h3
      split
      · exact TryOk.trap
      · exact TryOk.ite TryOk.trap (TryOk.go (setEntry_memoryOk (MemoryOk.ite h3 h3.update)))

theorem putColl_tryOk {s : State} {i : Nat} {e : AqEntry} {c : Coll} (h : MemoryOk s) : TryOk (putColl s i e c) := TryOk.go (setEntry_memoryOk h)

theorem stepDone_tryOk {s : State} {i : Nat} {e : AqEntry} {c : Coll} (h : MemoryOk s) : TryOk (stepDone s i e c) := putColl_tryOk h

theorem stepSend_tryOk {s : State} {i : Nat} {e : AqEntry} {c : Coll} {st : RouteStep} (h : MemoryOk s) : TryOk (stepSend s i e c st) := by
  unfold stepSend
  split
  · exact onRead_tryOk (sourceRead_memoryOk h) (fun _ _ h1 => stepDone_tryOk (sendMessage_memoryOk h1))
  · exact stepDone_tryOk (sendMessage_memoryOk h)

theorem flushRecv_tryOk {s : State} {i : Nat} {e : AqEntry} {c : Coll} {st : RouteStep} {lost : Bool} (h : MemoryOk s) :
    TryOk (flushRecv s i e c st lost) := by
  unfold flushRecv
  dsimp only
  split
  · exact stepDone_tryOk h
  · split
    · split
      · exact stepDone_tryOk h
      · exact TryOk.ite (putColl_tryOk h) (stepDone_tryOk h.update)
    · split
      · exact stepDone_tryOk h
      · exact TryOk.ite (putColl_tryOk h) (stepDone_tryOk h.update)

theorem stepRecv_tryOk {s : State} {i : Nat} {e : AqEntry} {c : Coll} {st : RouteStep} (h : MemoryOk s) : TryOk (stepRecv s i e c st) := by
  unfold stepRecv
  split
  · dsimp only
    split
    · exact engineStore_tryOk (takeMessage_memoryOk h ‹_›) (fun _ h1 => stepDone_tryOk h1)
    · exact stepDone_tryOk (takeMessage_memoryOk h ‹_›)
  · split
    · exact flushRecv_tryOk h
    · exact TryOk.ite (flushRecv_tryOk h) TryOk.blocked

theorem mergeSlots_tryOk {s : State} {e : AqEntry} {c : Coll} {st : RouteStep} {g : State → Try} (h : MemoryOk s)
    (hg : ∀ t, MemoryOk t → TryOk (g t)) : TryOk (mergeSlots s e c st g) := by
  unfold mergeSlots
  refine onRead_tryOk (sourceRead_memoryOk h) ?_
  intro _ _ h1
  refine onRead_tryOk (sourceRead_memoryOk h1) ?_
  intro _ _ h2
  split
  · exact TryOk.trap
  · exact TryOk.trap
  · split
    · exact TryOk.trap
    · exact engineStore_tryOk h2 (fun _ h3 => hg _ h3)

theorem copySlots_tryOk {s : State} {e : AqEntry} {c : Coll} {st : RouteStep} {g : State → Try} (h : MemoryOk s)
    (hg : ∀ t, MemoryOk t → TryOk (g t)) : TryOk (copySlots s e c st g) :=
  onRead_tryOk (sourceRead_memoryOk h) (fun _ _ h1 => engineStore_tryOk h1 (fun _ h2 => hg _ h2))

theorem stepRed_tryOk {s : State} {i : Nat} {e : AqEntry} {c : Coll} {st : RouteStep} (h : MemoryOk s) : TryOk (stepRed s i e c st) := by
  unfold stepRed
  dsimp only
  split
  · exact stepDone_tryOk h
  · split
    · split
      · exact copySlots_tryOk h (fun _ h1 => stepDone_tryOk h1)
      · exact stepDone_tryOk h
    · split
      · exact mergeSlots_tryOk h (fun _ h1 => stepDone_tryOk h1)
      · exact stepDone_tryOk h

theorem stepCopy_tryOk {s : State} {i : Nat} {e : AqEntry} {c : Coll} {st : RouteStep} (h : MemoryOk s) : TryOk (stepCopy s i e c st) := by
  unfold stepCopy
  dsimp only
  split
  · exact copySlots_tryOk h (fun _ h1 => stepDone_tryOk h1)
  · exact stepDone_tryOk h

theorem stepCopyIn_tryOk {s : State} {i : Nat} {e : AqEntry} {c : Coll} {st : RouteStep} (h : MemoryOk s) : TryOk (stepCopyIn s i e c st) := by
  unfold stepCopyIn
  split
  · refine onRead_tryOk (sourceRead_memoryOk h) ?_
    intro _ _ h1
    split
    · exact TryOk.trap
    · exact onRead_tryOk (sourceRead_memoryOk h1) (fun _ _ h2 => TryOk.ite TryOk.trap (engineStore_tryOk h2 (fun _ h3 => stepDone_tryOk h3)))
  · split
    · exact TryOk.blocked
    · exact stepDone_tryOk h

theorem putMask_tryOk {s : State} {e : AqEntry} {c : Coll} {g : State → Try} (h : MemoryOk s) (hg : ∀ t, MemoryOk t → TryOk (g t)) :
    TryOk (putMask s e c g) :=
  engineStore_tryOk h (fun _ h1 => hg _ h1)

theorem stepCopyOut_tryOk {s : State} {i : Nat} {e : AqEntry} {c : Coll} {st : RouteStep} (h : MemoryOk s) : TryOk (stepCopyOut s i e c st) := by
  unfold stepCopyOut
  dsimp only
  split
  · split
    · exact stepDone_tryOk h
    · refine onRead_tryOk (sourceRead_memoryOk h) ?_
      intro _ _ h1
      split
      · exact TryOk.trap
      · exact engineStore_tryOk h1 (fun _ h2 => putMask_tryOk h2 (fun _ h3 => stepDone_tryOk h3))
  · exact stepDone_tryOk h

theorem collStep_tryOk {s : State} {i : Nat} {e : AqEntry} {c : Coll} {st : RouteStep} (h : MemoryOk s) : TryOk (collStep s i e c st) := by
  unfold collStep
  split
  · exact stepSend_tryOk h
  · exact stepRecv_tryOk h
  · exact stepRed_tryOk h
  · exact stepCopy_tryOk h
  · exact stepCopyIn_tryOk h
  · exact stepCopyOut_tryOk h

theorem mergeDest_tryOk {s : State} {e : AqEntry} {c : Coll} {m : Message} {g : State → Coll → Try} (h : MemoryOk s)
    (hg : ∀ t x, MemoryOk t → TryOk (g t x)) : TryOk (mergeDest s e c m g) := by
  unfold mergeDest
  split
  · exact TryOk.trap
  · dsimp only
    split
    · refine onRead_tryOk (sourceRead_memoryOk h) ?_
      intro _ _ h1
      split
      · exact engineStore_tryOk h1 (fun _ h2 => putMask_tryOk h2 (fun _ h3 => hg _ _ h3))
      · exact TryOk.trap
    · exact engineStore_tryOk h (fun _ h1 => putMask_tryOk h1 (fun _ h2 => hg _ _ h2))

theorem replay_tryOk {e : AqEntry} {m : Message} {who : Nat} {g : State → Coll → Try} (hg : ∀ s c, MemoryOk s → TryOk (g s c)) {l : List RouteStep} :
    ∀ {p : List Nat} {s : State} {c : Coll}, MemoryOk s → TryOk (replay e m who l p s c g) := by
  induction l with
  | nil => exact fun h => hg _ _ h
  | cons st l ih =>
    intro p s c h
    unfold replay
    dsimp only
    split
    · exact ih (MemoryOk.ite (sendMessage_memoryOk h) h)
    · exact ih h
    · exact ih h
    · split
      · exact mergeDest_tryOk h fun _ _ ht => ih ht
      · exact ih h
    · exact ih h

theorem mergeLate_tryOk {s : State} {i : Nat} {e : AqEntry} {c : Coll} (h : MemoryOk s) : TryOk (mergeLate s i e c) := by
  unfold mergeLate
  split
  · exact TryOk.blocked
  · split
    · exact TryOk.blocked
    · dsimp only
      split
      · exact putColl_tryOk (takeMessage_memoryOk h ‹_›)
      · exact replay_tryOk (fun _ _ h1 => putColl_tryOk h1) (takeMessage_memoryOk h ‹_›)

theorem collEnd_tryOk {s : State} {i : Nat} {e : AqEntry} {table : Word} {c : Coll} (h : MemoryOk s) : TryOk (collEnd s i e table c) := by
  unfold collEnd
  split
  · exact TryOk.blocked
  · exact engineStore_tryOk (MemoryOk.ite (setSeen_memoryOk h) h) (fun _ h1 => finish_tryOk (MemoryOk.ite h1.update h1))

theorem unitColl_tryOk {s : State} {i : Nat} {e : AqEntry} (h : MemoryOk s) : TryOk (unitColl s i e) := by
  unfold unitColl
  split
  · split
    · exact collEnd_tryOk h
    · split
      · exact collStep_tryOk h
      · split
        · exact TryOk.ite (putColl_tryOk h) (TryOk.ite (collEnd_tryOk h) TryOk.blocked)
        · exact mergeLate_tryOk h
  · exact TryOk.blocked

theorem discardLate_optOk {s : State} {m : Message} (h : MemoryOk s) : OptOk (discardLate s m) := by
  unfold discardLate
  split
  · exact OptOk.ite (OptOk.of_some h.update) OptOk.of_none
  · exact OptOk.of_none

/-! ### Entries of the access queue -/

theorem startSend_tryOk {f : OpAC} {s : State} {i : Nat} {e : AqEntry} (h : MemoryOk s) : TryOk (startSend f s i e) := by
  unfold startSend
  refine onRead_tryOk (aqRead_memoryOk h) ?_
  intro _ _ h1
  split
  · exact TryOk.trap
  · exact TryOk.ite (finish_tryOk h1) (TryOk.go (setEntry_memoryOk h1))

theorem startRecv_tryOk {f : OpAC} {s : State} {i : Nat} {e : AqEntry} (h : MemoryOk s) : TryOk (startRecv f s i e) := by
  unfold startRecv
  refine onRead_tryOk (aqRead_memoryOk h) ?_
  intro _ _ h1
  split
  · exact TryOk.trap
  · exact TryOk.go (setEntry_memoryOk h1)

theorem matchRecv_memoryOk {s : State} {t : Transfer} (h : MemoryOk s) : MemoryOk (matchRecv s t).1 := by
  unfold matchRecv
  split
  · exact h
  · dsimp only
    split <;> exact h.update

theorem remoteRecv_memoryOk {s : State} {fromModule fromHart toHart tag len : Nat} (h : MemoryOk s) :
    MemoryOk (remoteRecv s fromModule fromHart toHart tag len) :=
  MemoryOk.ite h.update h.update

theorem unitSend_tryOk {s : State} {i : Nat} {e : AqEntry} (h : MemoryOk s) : TryOk (unitSend s i e) := by
  unfold unitSend
  split
  · dsimp only
    split
    · exact finish_tryOk h
    · split
      · exact TryOk.blocked
      · exact onRead_tryOk (sourceRead_memoryOk h) (fun _ _ h1 => TryOk.ite (TryOk.go (setEntry_memoryOk (sendMessage_memoryOk h1)))
          (finish_tryOk (sendMessage_memoryOk (matchRecv_memoryOk h1))))
  · exact TryOk.blocked

theorem lostSender_tryOk {s : State} {i : Nat} {e : AqEntry} {t : Transfer} (h : MemoryOk s) : TryOk (lostSender s i e t) := finish_tryOk h

theorem unitRecv_tryOk {s : State} {i : Nat} {e : AqEntry} (h : MemoryOk s) : TryOk (unitRecv s i e) := by
  unfold unitRecv
  split
  · split
    · exact TryOk.blocked
    · split
      · exact engineStore_tryOk (takeMessage_memoryOk h ‹_›) (fun _ h1 => TryOk.ite (TryOk.go (setEntry_memoryOk h1)) (finish_tryOk h1))
      · exact TryOk.ite (lostSender_tryOk h) TryOk.blocked
  · exact TryOk.blocked

theorem drainHarts_memoryOk {s : State} (h : MemoryOk s) : MemoryOk (drainHarts s) := eachHart_memoryOk h (fun _ h1 => drainAll_memoryOk h1)

theorem exchange_memoryOk {s : State} {l : List Hit} (h : MemoryOk s) : MemoryOk (exchange s l) :=
  ⟨Memory.wf_foldl (fun _ _ h1 => Memory.wf_write _ _ h1) ((retireWhere_memoryOk (drainHarts_memoryOk h)).1),
    (retireWhere_memoryOk (drainHarts_memoryOk h)).2⟩

theorem startFlip_tryOk {f : OpAC} {s : State} {i : Nat} {e : AqEntry} (h : MemoryOk s) : TryOk (startFlip f s i e) := by
  unfold startFlip
  dsimp only
  split
  · exact TryOk.blocked
  · split
    · exact TryOk.trap
    · split
      · exact TryOk.trap
      · split
        · exact finish_tryOk h
        · split
          · exact TryOk.trap
          · exact TryOk.blocked
          · split
            · exact TryOk.trap
            · split
              · exact TryOk.trap
              · split
                · exact TryOk.trap
                · exact TryOk.blocked
                · exact TryOk.ite TryOk.blocked (finish_tryOk (exchange_memoryOk h))

theorem startEntry_tryOk {s : State} {i : Nat} {e : AqEntry} (h : MemoryOk s) : TryOk (startEntry s i e) := by
  unfold startEntry
  split
  · exact startOpen_tryOk h
  · exact startClose_tryOk h
  · exact startRun_tryOk h
  · exact startBind_tryOk h
  · exact startUnbind_tryOk h
  · exact startColl_tryOk h
  · exact startSend_tryOk h
  · exact startRecv_tryOk h
  · exact startFlip_tryOk h
  · exact TryOk.blocked

theorem settleTry_optOk {s : State} {i : Nat} {e : AqEntry} {r : Try} (h : MemoryOk s) (hr : TryOk r) : OptOk (settleTry s i e r) := by
  unfold settleTry
  split
  · exact OptOk.of_some (MemoryOk.ite ((hr _ rfl).update) (hr _ rfl))
  · exact OptOk.of_none
  · split
    · exact OptOk.of_some (takeStop_memoryOk _ _ _ _ _ _ _ _ h)
    · exact OptOk.of_none

theorem moveRetire_optOk {s : State} (h : MemoryOk s) : OptOk (moveRetire s) := by
  unfold moveRetire
  split
  · refine OptOk.of_some (retireEntry_tryOk ?_ _ ‹_›)
    split
    · exact roleFor_memoryOk h
    · exact h
  · exact OptOk.of_none

theorem moveStart_optOk {s : State} (h : MemoryOk s) : OptOk (moveStart s) := by
  unfold moveStart
  split
  · exact OptOk.of_none
  · split
    · exact OptOk.of_none
    · next e _ =>
      have hs : MemoryOk (roleFor s e.addr) := roleFor_memoryOk h
      generalize roleFor s e.addr = s at hs ⊢
      refine OptOk.ite OptOk.of_none ?_
      split
      · split
        · exact OptOk.of_none
        · extract_lets t
          have ht : MemoryOk t := setEntry_memoryOk (pnSet_memoryOk hs)
          exact OptOk.of_some (OptOk.getD (settleTry_optOk ht (startEntry_tryOk ht)) ht)
      · exact settleTry_optOk hs (startEntry_tryOk hs)

theorem moveUnit_optOk {s : State} {i : Nat} (h : MemoryOk s) : OptOk (moveUnit s i) := by
  unfold moveUnit
  split
  · exact OptOk.of_none
  · next e _ =>
    have hs : MemoryOk (roleFor s e.addr) := roleFor_memoryOk h
    dsimp only
    split
    · exact OptOk.ite (settleTry_optOk hs (unitRun_tryOk hs)) OptOk.of_none
    · exact settleTry_optOk hs (unitColl_tryOk hs)
    · exact settleTry_optOk hs (unitRecv_tryOk hs)
    · exact settleTry_optOk hs (unitSend_tryOk hs)
    · exact OptOk.of_none

theorem moveLate_optOk {s : State} (h : MemoryOk s) : OptOk (moveLate s) := OptOk.findSome (fun _ => discardLate_optOk h)

theorem accessTurn_optOk {s : State} (h : MemoryOk s) : OptOk (accessTurn s) := by
  unfold accessTurn
  split
  · exact OptOk.of_none
  · split
    · exact OptOk.of_some ((moveLate_optOk h) _ ‹_›)
    · split
      · exact OptOk.of_some ((moveRetire_optOk h) _ ‹_›)
      · split
        · exact OptOk.of_some ((moveStart_optOk h) _ ‹_›)
        · exact OptOk.findSome (fun _ => moveUnit_optOk h)

theorem endBinding_memoryOk {s : State} {i : Instr} (h : MemoryOk s) : MemoryOk (endBinding s i) := by
  unfold endBinding
  split
  · exact MemoryOk.ite (MemoryOk.ite (zeroRegs_memoryOk h) h.update) h
  · exact h

theorem enqueue_memoryOk {s : State} {i : Instr} (h : MemoryOk s) : MemoryOk (enqueue s i) := (endBinding_memoryOk h).update

theorem postEntry_outOk {i : Instr} {s : State} (h : MemoryOk s) : OutOk (postEntry i s) := by
  unfold postEntry
  split
  · exact OutOk.next (wait_memoryOk h)
  · exact OutOk.ite (OutOk.next (wait_memoryOk h)) (OutOk.next (enqueue_memoryOk h))

theorem deliver_outOk {h : Nat} {out : Bool} {s : State} (h' : MemoryOk s) : OutOk (deliver h out s) := by
  unfold deliver
  split
  · exact OutOk.next h'
  · split
    · exact OutOk.ite (OutOk.next (OptOk.getD (moveUnit_optOk h') h')) (OutOk.next h')
    · exact OutOk.next h'

theorem collMove_outOk {kind n : Nat} {s : State} (h : MemoryOk s) : OutOk (collMove kind n s) := by
  unfold collMove
  split
  · exact OutOk.next h
  · split
    · split
      · split
        · exact OutOk.ite (OutOk.next (OptOk.getD (moveUnit_optOk h) h)) (OutOk.next h)
        · exact OutOk.next h
      · exact OutOk.next h
    · exact OutOk.next h

theorem execRecvTimeout_outOk {n : Nat} {s : State} (h : MemoryOk s) : OutOk (execRecvTimeout n s) := by
  unfold execRecvTimeout
  split
  · split
    · split
      · exact OutOk.ite (OutOk.next (OptOk.getD (moveUnit_optOk h) h)) (OutOk.next h)
      · exact OutOk.next h
    · exact OutOk.next h
  · exact OutOk.next h

theorem execLateImageMerge_outOk {n : Nat} {s : State} (h : MemoryOk s) : OutOk (execLateImageMerge n s) := by
  unfold execLateImageMerge
  split
  · split
    · split
      · exact OutOk.next (OptOk.getD (settleTry_optOk h (mergeLate_tryOk h)) h)
      · exact OutOk.next h
    · exact OutOk.next h
  · exact OutOk.next h

theorem execLateDataDiscard_outOk {n : Nat} {s : State} (h : MemoryOk s) : OutOk (execLateDataDiscard n s) := by
  unfold execLateDataDiscard
  split
  · exact OutOk.ite (OutOk.next (OptOk.getD (discardLate_optOk h) h)) (OutOk.next h)
  · exact OutOk.next h

theorem execTransferMatch_outOk {n : Nat} {s : State} (h : MemoryOk s) : OutOk (execTransferMatch n s) := by
  unfold execTransferMatch
  split
  · split
    · exact OutOk.ite (OutOk.next (OptOk.getD (moveUnit_optOk h) h)) (OutOk.next h)
    · exact OutOk.next h
  · exact OutOk.next h

theorem flushFailed_memoryOk {s : State} (h : MemoryOk s) : MemoryOk (flushFailed s) := by
  unfold flushFailed
  refine MemoryOk.foldl ?_ h
  intro _ _ h1
  split
  · split
    · split
      · exact MemoryOk.ite (setEntry_memoryOk h1) h1
      · exact h1
    · exact MemoryOk.ite (setEntry_memoryOk h1) h1
    · exact h1
  · exact h1

theorem execParticipantFailed_outOk {m : BitVec 6} {hart : BitVec 16} {s : State} (h : MemoryOk s) : OutOk (execParticipantFailed m hart s) :=
  OutOk.next (eachHart_memoryOk h.update (fun _ h1 => MemoryOk.ite (flushFailed_memoryOk h1) h1))

theorem execBackingExchange_outOk {pasid : BitVec 20} {base len : Word} {s : State} (h : MemoryOk s) :
    OutOk (execBackingExchange pasid base len s) := by
  unfold execBackingExchange
  split
  · exact OutOk.next h
  · split
    · exact OutOk.ite (OutOk.next h) (OutOk.next (exchange_memoryOk h))
    · exact OutOk.next h

/-! ### Steps of the vector queue and of the store queues -/

theorem renameIn_memoryOk {l : List Nat} : ∀ {s : State} {p : Nat}, MemoryOk s → MemoryOk (renameIn s l p) := by
  induction l with
  | nil => exact fun h => h
  | cons n l ih =>
    intro s p h
    have ht : MemoryOk (forUp (n - (s.hart.renamed[p]?).getD 0) 0 s fun _ t =>
        if windowRoom t then
          { t with hart := { t.hart with renamed := t.hart.renamed.take p ++ [(t.hart.renamed[p]?).getD 0 + 1] } }
        else t) :=
      MemoryOk.forUp (fun _ _ h => MemoryOk.ite h.update h) h
    unfold renameIn
    dsimp only
    split
    · exact ht
    · exact ih ht.update

theorem rename_memoryOk {s : State} (h : MemoryOk s) : MemoryOk (rename s) := renameIn_memoryOk h

theorem execMicroOperationIssue_outOk {s : State} (h : MemoryOk s) : OutOk (execMicroOperationIssue s) := by
  unfold execMicroOperationIssue
  dsimp only
  split
  · split
    · exact OutOk.next ((setCore_memoryOk (rename_memoryOk h)).update)
    · exact OutOk.next h
  · exact OutOk.next h

theorem execMicroOperationComplete_outOk {n : Nat} {s : State} (h : MemoryOk s) : OutOk (execMicroOperationComplete n s) := by
  unfold execMicroOperationComplete
  split
  · exact OutOk.ite (OutOk.next h.update) (OutOk.next h)
  · exact OutOk.next h

theorem hurtUop_memoryOk {s : State} {p member group : Nat} (h : MemoryOk s) : MemoryOk (hurtUop s p member group) := by
  unfold hurtUop
  split
  · exact h.update
  · exact h

theorem countLane_memoryOk {s : State} {lane : Nat} (h : MemoryOk s) : MemoryOk (countLane s lane) := setCore_memoryOk h

theorem execLaneReExecution_outOk {n : Nat × Nat} {again : Bool} {s : State} (h : MemoryOk s) : OutOk (execLaneReExecution n again s) := by
  unfold execLaneReExecution
  split
  · split
    · exact OutOk.next (logError_memoryOk (countLane_memoryOk (MemoryOk.ite (hurtUop_memoryOk h) h)))
    · exact OutOk.next h
  · exact OutOk.next h

theorem execConvoyRetire_outOk {s : State} (h : MemoryOk s) : OutOk (execConvoyRetire s) := by
  unfold execConvoyRetire
  split
  · exact OutOk.ite (OutOk.next (headTurn_memoryOk h)) (OutOk.next h)
  · exact OutOk.next h

theorem execPennantTake_outOk {c : BitVec 3} {s : State} (h : MemoryOk s) : OutOk (execPennantTake c s) := by
  unfold execPennantTake
  dsimp only
  split
  · exact OutOk.next h
  · split
    · exact OutOk.next h
    · split
      · split
        · exact OutOk.ite (OutOk.next ((pnSet_memoryOk h).update)) (OutOk.next h)
        · exact OutOk.next h
      · split
        · split
          · split
            · split
              · exact OutOk.next (setEntry_memoryOk (pnSet_memoryOk h))
              · exact OutOk.next h
            · exact OutOk.next h
          · exact OutOk.next h
        · split
          · exact OutOk.ite (pnRecv_outOk h) (OutOk.next h)
          · exact OutOk.ite (pnRecv_outOk h) (OutOk.next h)
          · exact OutOk.next h

theorem drainNth_memoryOk {s : State} {n : Nat} (h : MemoryOk s) : MemoryOk (drainNth s n) := by
  unfold drainNth
  split
  · exact MemoryOk.ite h (applyStore_memoryOk _ h.update)
  · exact h

theorem execCombiningEntryRetire_outOk {n : Nat} {s : State} (h : MemoryOk s) : OutOk (execCombiningEntryRetire n s) := by
  unfold execCombiningEntryRetire
  split
  · exact OutOk.next (retireCombine_memoryOk h.update)
  · exact OutOk.next h

/-! ### Stops, partitions and the stall mode -/

theorem cutRun_cutRunOk {b : State} {ms : List Member} (hb : MemoryOk b) (hms : MembersOk ms) {n : Nat} :
    ∀ {k : Nat}, CutRunOk (cutRun b ms n k) := by
  induction n with
  | zero => exact CutRunOk.upTo hb
  | succ n ih =>
    intro k
    have hr := runMembers_memoryOk (s := { b with hart := { b.hart with cur := { b.hart.cur with stop := some k } } }) hb.update hms
    unfold cutRun
    dsimp only
    split
    · exact CutRunOk.upTo hb
    · split
      · exact ih
      · split
        · exact CutRunOk.fault hr
        · exact CutRunOk.upTo hr

theorem cutAt_memoryOk {s : State} {c : Convoy} {ms : List Member} {b r : State} {k : Nat} (h : MemoryOk s) (hms : MembersOk ms) (hb : MemoryOk b)
    (hr : MemoryOk r) : MemoryOk (cutAt s c ms b r k) := by
  unfold cutAt
  refine MemoryOk.update (MemoryOk.ite ?_ hr)
  split
  · exact (foldl_keepRelease_memoryOk hms ⟨hb, h⟩).2
  · exact h

theorem cutHead_ok {s b : State} {c : Convoy} {ms : List Member} {r : CutRun} (h : MemoryOk s) (e : cutHead s c = (ms, b, r)) :
    MembersOk ms ∧ MemoryOk b ∧ CutRunOk r := by
  have hb := beginConvoy_memoryOk (c := c) h
  cases e
  exact ⟨MembersOk.filterMap, hb, cutRun_cutRunOk hb MembersOk.filterMap⟩

theorem settlePartition_memoryOk {s : State} (h : MemoryOk s) : MemoryOk (settlePartition s) :=
  retireWhere_memoryOk (eachHart_memoryOk h (fun _ h1 => drainWhere_memoryOk h1))

theorem stopHart_memoryOk {s : State} {t : Trap} (h : MemoryOk s) : MemoryOk (stopHart s t) := by
  unfold stopHart
  split
  · exact takeStop_memoryOk _ _ _ _ _ _ _ _ (settlePartition_memoryOk (roleFor_memoryOk h))
  · next c _ _ =>
    have hs := roleFor_memoryOk (a := c.addr) h
    dsimp only
    split
    · obtain ⟨hms, hb, -⟩ := cutHead_ok hs ‹_›
      split
      · exact (stopConvoy_memoryOk hs hms).update
      · exact takeStop_memoryOk _ _ _ _ _ _ _ _ (settlePartition_memoryOk (cutAt_memoryOk hs hms hb hb))
    · obtain ⟨hms, hb, hr⟩ := cutHead_ok hs ‹_›
      exact takeStop_memoryOk _ _ _ _ _ _ _ _ (settlePartition_memoryOk (cutAt_memoryOk hs hms hb hr))

theorem cutLate_memoryOk {s : State} (h : MemoryOk s) : MemoryOk (cutLate s).1 := by
  unfold cutLate
  split
  · exact h
  · next c _ _ =>
    have hs := roleFor_memoryOk (a := c.addr) h
    dsimp only
    split
    · obtain ⟨hms, hb, hr⟩ := cutHead_ok hs ‹_›
      exact cutAt_memoryOk hs hms hb hr
    · obtain ⟨hms, hb, -⟩ := cutHead_ok hs ‹_›
      split
      · next e =>
        have hr := CutRunOk.of_eq (cutRun_cutRunOk hb hms) e
        exact cutAt_memoryOk hs hms hb hr
      · exact cutAt_memoryOk hs hms hb hb

theorem finishStop_memoryOk {s : State} (h : MemoryOk s) : MemoryOk (finishStop s) := by
  unfold finishStop
  split
  · split
    · exact h
    · refine saveFrame_memoryOk _ ?_
      refine MemoryOk.update ?_
      split
      · refine settlePartition_memoryOk ?_
        split
        · exact cutLate_memoryOk h
        · exact h
      · split
        · exact cutLate_memoryOk h
        · exact h
  · exact h

theorem execTrapDelivery_outOk {cause : BitVec 8} {tval epc : Word} {member : BitVec 2} {s : State} (h : MemoryOk s) :
    OutOk (execTrapDelivery cause tval epc member s) := by
  have htake {t : Trap} {q : Queue} {epc pc : Word} {m k a : Nat} {b : BitVec 14} :
      OutOk (.next (takeStop (logMismatch s t) q t epc pc m k a b)) := OutOk.next (takeStop_memoryOk _ _ _ _ _ _ _ _ (logMismatch_memoryOk h))
  unfold execTrapDelivery
  split
  · exact OutOk.next h
  · refine OutOk.ite (OutOk.next h) (OutOk.ite (OutOk.next (stopHart_memoryOk h)) (OutOk.ite (OutOk.next (stopHart_memoryOk h)) ?_))
    split
    · exact OutOk.ite (OutOk.next (stopConvoy_memoryOk (roleFor_memoryOk h) MembersOk.filterMap)) htake
    · exact OutOk.ite htake htake
    · exact htake

theorem squashStore_memoryOk {s : State} {n : Nat} (h : MemoryOk s) : MemoryOk (squashStore s n) := by
  unfold squashStore
  split
  · exact h
  · exact takeStop_memoryOk _ _ _ _ _ _ _ _ (MemoryOk.foldl (fun _ _ h1 => dirtyS_memoryOk h1.update) (logMismatch_memoryOk h.update))

theorem execPartitionSave_outOk {s : State} (h : MemoryOk s) : OutOk (execPartitionSave s) := by
  unfold execPartitionSave
  split
  · exact OutOk.next h
  · split
    · exact OutOk.next h
    · split
      · exact OutOk.next h
      · exact OutOk.next ((MemoryOk.of_fst (frameWalk_memoryOk _ _ _ (settlePartition_memoryOk h)) ‹_›).update)
      · exact OutOk.next ((frameWrite_memoryOk _ _ _ (MemoryOk.of_fst (frameWalk_memoryOk _ _ _ (settlePartition_memoryOk h)) ‹_›)).update)

theorem loadPartition_memoryOk {s : State} {c : SpadCopy} (h : MemoryOk s) : MemoryOk (loadPartition s c) :=
  ⟨Memory.wf_foldl (fun _ _ h1 => Memory.wf_write _ _ h1) (Memory.wf_clear _ _ h.1), h.2⟩

theorem execRestore_outOk {core : BitVec 8} {stall : BitVec 2} {rpc : Option Word} {s : State} (h : MemoryOk s) :
    OutOk (execRestore core stall rpc s) := by
  unfold execRestore
  split
  · exact OutOk.next h
  · extract_lets c st h1 h2 t1
    have ht1 : MemoryOk t1 := by
      unfold t1
      split
      · exact h
      · exact frameWrite_memoryOk _ _ _ h
    clear_value t1
    split
    · exact OutOk.next h
    · split
      · exact OutOk.next h
      · split
        · exact OutOk.next h.update
        · extract_lets h3 t2 t3
          have ht2 : MemoryOk t2 := ht1.update
          clear_value t2
          have ht3 : MemoryOk t3 := by
            unfold t3
            split
            · exact loadPartition_memoryOk ht2
            · exact ht2
          clear_value t3
          refine OutOk.next ?_
          split
          · exact takeLost_memoryOk ht3.update
          · exact ht3

theorem execArrival_outOk {s : State} (h : MemoryOk s) : OutOk (execArrival s) := by
  unfold execArrival
  split
  · exact OutOk.ite (OutOk.next (wait_memoryOk h)) (OutOk.next h)
  · exact OutOk.next h

theorem freeVsl_memoryOk {s : State} {c : Nat} (h : MemoryOk s) : MemoryOk (freeVsl s c) := mapHarts_memoryOk h

theorem clearLost_memoryOk {s : State} {c old new : Nat} (h : MemoryOk s) : MemoryOk (clearLost s c old new) := ⟨Memory.wf_filter h.1, h.2⟩

theorem absorbOne_memoryOk {c old new : Nat} {s : State} (h : MemoryOk s) : MemoryOk (absorbOne c old new s) :=
  MemoryOk.ite (stopHart_memoryOk h.update) (MemoryOk.ite h.update h)

theorem switchMode_memoryOk {s : State} (h : MemoryOk s) : MemoryOk (switchMode s) := by
  unfold switchMode
  dsimp only
  split
  · split
    · split
      · exact h
      · exact setCore_memoryOk (mapHarts_memoryOk
          (clearLost_memoryOk (eachHart_memoryOk (asHart_memoryOk h (fun _ h1 => settlePartition_memoryOk h1)) (fun _ h1 => absorbOne_memoryOk h1))))
    · exact h
  · exact h

/-! ### Job images -/

theorem imageBytes_memoryOk {s : State} {pasid : Nat} {va : Word} {n : Nat} (h : MemoryOk s) : MemoryOk (imageBytes s pasid va n).1 := by
  unfold imageBytes
  split <;> exact MemoryOk.of_fst (engineRead_memoryOk h) ‹_›

theorem readRegs_memoryOk {pasid vrl fuel : Nat} : ∀ {s : State} {va : Word}, MemoryOk s → MemoryOk (readRegs s pasid vrl fuel va).1 := by
  induction fuel with
  | zero => exact fun h => h
  | succ fuel ih =>
    intro s va h
    have ht {t r} (e : imageBytes s pasid va 8 = (t, r)) : MemoryOk t := MemoryOk.of_fst (imageBytes_memoryOk h) e
    unfold readRegs
    split
    · have ht := ht ‹_›
      extract_lets kind reg len room regs
      clear_value room regs
      split
      · exact ht
      · split
        · exact ht
        · split
          · exact ht
          · have hu {u : State} {r} (e : imageBytes _ pasid (va + 8) (ceilTo len 8) = (u, r)) : MemoryOk u := MemoryOk.of_fst (imageBytes_memoryOk ht) e
            split
            · have hu := hu ‹_›
              split
              · exact hu
              · split
                · exact MemoryOk.of_fst (ih hu) ‹_›
                · exact ih hu
            · exact hu ‹_›
            · exact hu ‹_›
    · exact ht ‹_›
    · exact ht ‹_›

theorem readSummary_memoryOk {s : State} {pasid form : Nat} {va : Word} (h : MemoryOk s) : MemoryOk (readSummary s pasid form va).1 := by
  have ht {t r} (e : imageBytes s pasid va 64 = (t, r)) : MemoryOk t := MemoryOk.of_fst (imageBytes_memoryOk h) e
  unfold readSummary
  split
  · exact ht ‹_›
  · exact ht ‹_›
  · have ht := ht ‹_›
    split
    · split <;> exact ht
    · split
      · exact ht
      · next m _ =>
        have hu {u : State} {r} (e : imageBytes _ pasid (va + 64) (bodyBytes m.body.ty m.param) = (u, r)) : MemoryOk u :=
          MemoryOk.of_fst (imageBytes_memoryOk ht) e
        dsimp only
        split
        · exact hu ‹_›
        · exact hu ‹_›
        · split <;> exact hu ‹_›

theorem readSums_memoryOk {pasid fuel : Nat} : ∀ {s : State} {va : Word}, MemoryOk s → MemoryOk (readSums s pasid fuel va).1 := by
  induction fuel with
  | zero => exact fun h => h
  | succ fuel ih =>
    intro s va h
    have ht {t r} (e : imageBytes s pasid va 64 = (t, r)) : MemoryOk t := MemoryOk.of_fst (imageBytes_memoryOk h) e
    unfold readSums
    split
    · exact h
    · split
      · have ht := ht ‹_›
        extract_lets reg form
        clear_value reg form
        have hu {u : State} {r} (e : readSummary _ pasid form (va + 64) = (u, r)) : MemoryOk u := MemoryOk.of_fst (readSummary_memoryOk ht) e
        split
        · exact ht
        · split
          · exact ht
          · split
            · exact ht
            · split
              · have hu := hu ‹_›
                split
                · exact MemoryOk.of_fst (ih hu) ‹_›
                · exact ih hu
              · exact hu ‹_›
              · exact hu ‹_›
      · exact ht ‹_›
      · exact ht ‹_›

theorem readSpills_memoryOk {pasid fuel : Nat} : ∀ {s : State} {va : Word}, MemoryOk s → MemoryOk (readSpills s pasid fuel va).1 := by
  induction fuel with
  | zero => exact fun h => h
  | succ fuel ih =>
    intro s va h
    have ht {t r} (e : imageBytes s pasid va 8 = (t, r)) : MemoryOk t := MemoryOk.of_fst (imageBytes_memoryOk h) e
    unfold readSpills
    split
    · have ht := ht ‹_›
      extract_lets kind reg
      clear_value kind reg
      generalize (if kind = 5 then 16 else 32) = regs
      split
      · exact ht
      · split
        · exact ht
        · split
          · exact ht
          · split
            · exact MemoryOk.of_fst (ih ht) ‹_›
            · exact ih ht
    · exact ht ‹_›
    · exact ht ‹_›

theorem sectionAt_memoryOk {α : Type} {s : State} {va : Word} {off : Nat} {f : State → Word → State × ImagePart (List α)} (h : MemoryOk s)
    (hf : ∀ t x, MemoryOk t → MemoryOk (f t x).1) : MemoryOk (sectionAt s va off f).1 := by
  unfold sectionAt
  split
  · exact h
  · exact hf _ _ h

theorem readJob_memoryOk {s : State} {pasid : Nat} {va : Word} (h : MemoryOk s) : MemoryOk (readJob s pasid va).1 := by
  have ht {t r} (e : imageBytes s pasid va 256 = (t, r)) : MemoryOk t := MemoryOk.of_fst (imageBytes_memoryOk h) e
  unfold readJob
  split
  · exact ht ‹_›
  · exact ht ‹_›
  · have ht := ht ‹_›
    split
    · exact ht
    · extract_lets mode vrl
      clear_value mode vrl
      have hregs {u : State} {off r} (e : sectionAt _ va off (fun s a => readRegs s pasid vrl sectionFuel a) = (u, r)) : MemoryOk u :=
        MemoryOk.of_fst (sectionAt_memoryOk ht fun _ _ h => readRegs_memoryOk h) e
      split
      · exact hregs ‹_›
      · exact hregs ‹_›
      · have hregs := hregs ‹_›
        have hsums {u : State} {off r} (e : sectionAt _ va off (fun s a => readSums s pasid sectionFuel a) = (u, r)) : MemoryOk u :=
          MemoryOk.of_fst (sectionAt_memoryOk hregs fun _ _ h => readSums_memoryOk h) e
        split
        · exact hsums ‹_›
        · exact hsums ‹_›
        · have hsums := hsums ‹_›
          have hspills {u : State} {off r} (e : sectionAt _ va off (fun s a => readSpills s pasid sectionFuel a) = (u, r)) : MemoryOk u :=
            MemoryOk.of_fst (sectionAt_memoryOk hsums fun _ _ h => readSpills_memoryOk h) e
          extract_lets sums
          clear_value sums
          split
          · exact hsums
          · split <;> exact hspills ‹_›

/-! ### The harness -/

theorem fetchHalfAs_memoryOk {s : State} {pasid : Nat} {va : Word} (h : MemoryOk s) : MemoryOk (fetchHalfAs s pasid va).1 := by
  unfold fetchHalfAs
  split <;> exact MemoryOk.of_fst (translate_memoryOk _ _ _ h) ‹_›

theorem fetchHalvesAs_memoryOk {pasid n : Nat} : ∀ {s : State} {va : Word}, MemoryOk s → MemoryOk (fetchHalvesAs s pasid va n).1 := by
  induction n with
  | zero => exact fun h => h
  | succ n ih =>
    intro s va h
    unfold fetchHalvesAs
    split
    · have ht := ih (va := va + 2) (MemoryOk.of_fst (fetchHalfAs_memoryOk h) ‹_›)
      split
      · exact MemoryOk.of_fst ht ‹_›
      · exact ht
    · exact fetchHalfAs_memoryOk h

theorem fetchAs_memoryOk {s : State} {pasid : Nat} {va : Word} (h : MemoryOk s) : MemoryOk (fetchAs s pasid va).1 := by
  unfold fetchAs
  split
  · have ht := MemoryOk.of_fst (fetchHalfAs_memoryOk h) ‹_›
    split
    · split <;> exact MemoryOk.of_fst (fetchHalvesAs_memoryOk ht) ‹_›
    · exact MemoryOk.of_fst (fetchHalvesAs_memoryOk ht) ‹_›
    · exact MemoryOk.of_fst (fetchHalvesAs_memoryOk ht) ‹_›
  · exact MemoryOk.of_fst (fetchHalfAs_memoryOk h) ‹_›
  · exact MemoryOk.of_fst (fetchHalfAs_memoryOk h) ‹_›

theorem scanExtent_memoryOk {pasid fuel : Nat} :
    ∀ {s : State} {va : Word} {body fin : Bool}, MemoryOk s → MemoryOk (scanExtent s pasid fuel va body fin).1 := by
  induction fuel with
  | zero => exact fun h => h
  | succ fuel ih =>
    intro s va body fin h
    unfold scanExtent
    split
    · exact MemoryOk.of_fst (fetchAs_memoryOk h) ‹_›
    · exact MemoryOk.of_fst (fetchAs_memoryOk h) ‹_›
    · next t i n e =>
      have ht := MemoryOk.of_fst (fetchAs_memoryOk h) e
      extract_lets more
      have hmore (b f : Bool) : MemoryOk (more b f).1 := by
        unfold more
        split
        · exact MemoryOk.of_fst (ih ht) ‹_›
        · exact ih ht
      clear_value more
      split
      · split
        · exact ht
        · exact hmore _ _
      · split
        · exact ht
        · exact hmore _ _
      · split <;> exact ht
      · exact hmore _ _

theorem readExtent_memoryOk {s : State} {pasid : Nat} {entry : Word} (h : MemoryOk s) : MemoryOk (readExtent s pasid entry).1 := by
  unfold readExtent
  split
  · split <;> exact MemoryOk.of_fst (scanExtent_memoryOk h) ‹_›
  · exact MemoryOk.of_fst (scanExtent_memoryOk h) ‹_›
  · exact MemoryOk.of_fst (scanExtent_memoryOk h) ‹_›

theorem planPair_memoryOk {s : State} {pasid : Nat} {pi ci : Image} (h : MemoryOk s) : MemoryOk (planPair s pasid pi ci).1 := by
  have ht := readExtent_memoryOk (pasid := pasid) (entry := pi.entry) h
  unfold planPair
  split
  · exact h
  · split
    · exact MemoryOk.of_fst ht ‹_›
    · exact MemoryOk.of_fst ht ‹_›
    · have hu := readExtent_memoryOk (pasid := pasid) (entry := ci.entry) (MemoryOk.of_fst ht ‹_›)
      split <;> exact MemoryOk.of_fst hu ‹_›

/-! ### The launch engine -/

theorem setQueue_memoryOk {s : State} {q : BitVec 6} {c : CQueue} (h : MemoryOk s) : MemoryOk (setQueue s q c) := h.update

theorem setLaunch_memoryOk {s : State} {l : Launch} (h : MemoryOk s) : MemoryOk (setLaunch s l) := h.update

theorem endLaunch_memoryOk {s : State} {l : Launch} {r : Result} (h : MemoryOk s) : MemoryOk (endLaunch s l r) := setLaunch_memoryOk h

theorem execRecordFetch_outOk {q : BitVec 6} {s : State} (h : MemoryOk s) : OutOk (execRecordFetch q s) := by
  unfold execRecordFetch
  extract_lets c _ _ slot add done
  have hadd (t : State) (l : Launch) (ht : MemoryOk t) : OutOk (add t l) := OutOk.next (setQueue_memoryOk ht).update
  have hdone (t : State) (l : Launch) (r : Result) (ht : MemoryOk t) : OutOk (done t l r) := hadd _ _ ht
  clear_value add done
  refine OutOk.ite (OutOk.next (setQueue_memoryOk h).update) (OutOk.ite (OutOk.next h) (OutOk.ite (hdone _ _ _ h) ?_))
  split
  · exact OutOk.next h
  · exact hdone _ _ _ (MemoryOk.of_fst (engineRead_memoryOk h) ‹_›)
  · have ht := MemoryOk.of_fst (engineRead_memoryOk h) ‹_›
    refine OutOk.ite (hdone _ _ _ ht) (OutOk.ite (hdone _ _ _ ht) (OutOk.ite (hdone _ _ _ ht) ?_))
    split
    · exact OutOk.next h
    · exact hdone _ _ _ (MemoryOk.of_fst (readJob_memoryOk ht) ‹_›)
    · exact hadd _ _ (MemoryOk.of_fst (readJob_memoryOk ht) ‹_›)

theorem depState_memoryOk {s : State} {pasid : Nat} {d : Dep} (h : MemoryOk s) : MemoryOk (depState s pasid d).1 := by
  unfold depState
  split
  · split <;> exact h
  · split <;> exact MemoryOk.of_fst (engineRead_memoryOk h) ‹_›
  · exact h

theorem depsState_memoryOk {s : State} {l : Launch} (h : MemoryOk s) : MemoryOk (depsState s l).1 := by
  unfold depsState
  refine MemoryOk.foldl_fst ?_ h
  intro _ _ h1
  split
  · exact h1
  · split
    · exact h1
    · split <;> exact MemoryOk.of_fst (depState_memoryOk h1) ‹_›

theorem execLaunchReady_outOk {lid : Word} {s : State} (h : MemoryOk s) : OutOk (execLaunchReady lid s) := by
  unfold execLaunchReady
  split
  · exact OutOk.next h
  · split
    · exact OutOk.next h
    · split
      · dsimp only
        split
        · exact OutOk.next (endLaunch_memoryOk (MemoryOk.of_fst (depsState_memoryOk h) ‹_›))
        · split <;> exact OutOk.next (setLaunch_memoryOk (MemoryOk.of_fst (depsState_memoryOk h) ‹_›))

theorem refusePair_memoryOk {s : State} {p : Launch} {c : Option Launch} {code : Nat} (h : MemoryOk s) : MemoryOk (refusePair s p c code) := by
  unfold refusePair
  dsimp only
  split
  · split
    · exact setLaunch_memoryOk (setLaunch_memoryOk h)
    · exact setLaunch_memoryOk h
  · exact setLaunch_memoryOk h

theorem joinPair_memoryOk {s : State} {p c : Launch} {n : Plan} (h : MemoryOk s) : MemoryOk (joinPair s p c n) :=
  setLaunch_memoryOk (setLaunch_memoryOk h)

theorem execPairDecision_outOk {lid : Word} {s : State} (h : MemoryOk s) : OutOk (execPairDecision lid s) := by
  unfold execPairDecision
  split
  · exact OutOk.next h
  · split
    · exact OutOk.next h
    · split
      · exact OutOk.next h
      · split
        · exact OutOk.next (refusePair_memoryOk h)
        · split
          · split
            · exact OutOk.next h
            · exact OutOk.next (refusePair_memoryOk (MemoryOk.of_fst (planPair_memoryOk h) ‹_›))
            · exact OutOk.next (joinPair_memoryOk (MemoryOk.of_fst (planPair_memoryOk h) ‹_›))
          · exact OutOk.next (endLaunch_memoryOk (MemoryOk.of_fst (readJob_memoryOk h) ‹_›))
          · exact OutOk.next (endLaunch_memoryOk (MemoryOk.of_fst (readJob_memoryOk h) ‹_›))
          · exact OutOk.next h

theorem endBoth_memoryOk {s : State} {l : Launch} {r : Result} (h : MemoryOk s) : MemoryOk (endBoth s l r) := by
  unfold endBoth
  dsimp only
  split
  · exact endLaunch_memoryOk (endLaunch_memoryOk h)
  · exact endLaunch_memoryOk h

theorem lowerClocks_memoryOk {l : Launch} {cores : List Nat} {room n : Nat} : ∀ {s : State}, MemoryOk s → MemoryOk (lowerClocks l cores room n s) := by
  induction n with
  | zero => exact fun h => h
  | succ n ih =>
    intro s h
    unfold lowerClocks
    split
    · exact h
    · exact ih h.update

theorem measured_memoryOk {s : State} (h : MemoryOk s) : MemoryOk (measured s) := (takeFree_memoryOk h).update

theorem execSchedulerSelection_outOk {s : State} (h : MemoryOk s) : OutOk (execSchedulerSelection s) := by
  unfold execSchedulerSelection
  split
  · exact OutOk.next h
  · split
    · exact OutOk.next (endBoth_memoryOk h)
    · dsimp only
      split
      · exact OutOk.next (setLaunch_memoryOk (measured_memoryOk h))
      · split
        · exact OutOk.next (setLaunch_memoryOk (lowerClocks_memoryOk (measured_memoryOk h)))
        · exact OutOk.next h

theorem buildSlot_memoryOk {va level l : Nat} : ∀ {table : Nat} {s : State}, MemoryOk s → MemoryOk (buildSlot va level l table s).1 := by
  induction l with
  | zero => exact fun h => h
  | succ l ih =>
    intro table s h
    unfold buildSlot
    dsimp only
    split
    · exact h
    · split
      · split
        · exact ih h
        · exact h
      · have hn := takeFree_memoryOk h
        exact ih ⟨Memory.wf_writeN _ _ _ (Memory.wf_clear _ _ hn.1), hn.2⟩

theorem mapExtent_memoryOk {s : State} {pasid : Nat} {ava : Word} {plane n pte : Nat} (h : MemoryOk s) :
    MemoryOk (mapExtent s pasid ava plane n pte) := by
  have hslot (va : Nat) (o : Option Nat) :
      MemoryOk (if pte = 0 then (s, o) else buildSlot va 2 5 (contextOf s pasid).root s).1 := by
    split
    · exact h
    · exact buildSlot_memoryOk h
  unfold mapExtent
  dsimp only
  split
  · have ht := MemoryOk.of_fst (hslot _ _) ‹_›
    exact ⟨Memory.wf_writeN _ _ _ ht.1, ht.2⟩
  · exact MemoryOk.of_fst (hslot _ _) ‹_›

theorem giveArena_memoryOk {s : State} {pasid : Nat} {lid ava : Word} {l : List (Nat × Nat)} (h : MemoryOk s) :
    MemoryOk (giveArena s pasid lid ava l) :=
  MemoryOk.foldl_fst (fun _ _ h1 => mapExtent_memoryOk h1) h.update

theorem dropArena_memoryOk {s : State} {pasid : Nat} {lid ava : Word} {ng : List Nat} (h : MemoryOk s) : MemoryOk (dropArena s pasid lid ava ng) :=
  (MemoryOk.foldl (fun _ _ h1 => MemoryOk.foldl (fun _ _ h2 => mapExtent_memoryOk h2) h1)
    (MemoryOk.foldl (fun _ _ h1 => zeroShed_memoryOk h1) h)).update

theorem clearPartition_memoryOk {s : State} {core stall mode : Nat} (h : MemoryOk s) : MemoryOk (clearPartition s core stall mode) :=
  ⟨Memory.wf_clear _ _ h.1, h.2⟩

theorem enroll_memoryOk {s : State} {new : List Hart} (h : MemoryOk s) : MemoryOk (enroll s new) := by
  unfold enroll
  dsimp only
  split
  · split <;> exact h.update
  · exact h.update

theorem writeStrips_optOk {s : State} {pasid : Nat} {i : Image} {places : List (Nat × Nat)} (h : MemoryOk s) :
    OptOk (writeStrips s pasid i places) := by
  unfold writeStrips
  split
  · exact OptOk.of_some h
  · split
    · exact OptOk.of_none
    · exact OptOk.of_some (MemoryOk.of_fst (engineWrite_memoryOk h) ‹_›)

theorem preparePlaces_memoryOk {s : State} {i : Image} {places : List (Nat × Nat)} (h : MemoryOk s) : MemoryOk (preparePlaces s i places) :=
  MemoryOk.foldl (fun _ _ h1 => MemoryOk.ite (clearPartition_memoryOk (clearPartition_memoryOk h1)) (clearPartition_memoryOk h1)) (MemoryOk.foldl
    (fun _ _ h1 => MemoryOk.ite (setCore_memoryOk h1) h1) h)

theorem execGangStart_outOk {lid : Word} {s : State} (h : MemoryOk s) : OutOk (execGangStart lid s) := by
  unfold execGangStart
  split
  · exact OutOk.next h
  · split
    · exact OutOk.next h
    · split
      · exact OutOk.next h
      · exact OutOk.next (endBoth_memoryOk (MemoryOk.of_fst (readJob_memoryOk h) ‹_›))
      · have ht := MemoryOk.of_fst (readJob_memoryOk h) ‹_›
        split
        · exact OutOk.next (endBoth_memoryOk ht)
        · split
          · exact OutOk.next (setLaunch_memoryOk ht)
          · split
            · exact OutOk.next h
            · exact OutOk.next (endBoth_memoryOk ht)
            · dsimp only
              split
              · exact OutOk.next h
              · have hu := writeStrips_optOk (giveArena_memoryOk ht) _ ‹_›
                exact OutOk.next (enroll_memoryOk (MemoryOk.foldl (fun _ _ h => setLaunch_memoryOk h) (preparePlaces_memoryOk hu).update))

theorem execStallModeSwitch_outOk {gang : Word} {s : State} (h : MemoryOk s) : OutOk (execStallModeSwitch gang s) := by
  unfold execStallModeSwitch
  dsimp only
  split
  · exact OutOk.next h
  · split
    · split
      · split
        · exact OutOk.next (MemoryOk.of_fst (readJob_memoryOk (switchMode_memoryOk h)) ‹_›)
        · split
          · exact OutOk.next h
          · exact OutOk.next (MemoryOk.of_fst (readJob_memoryOk (switchMode_memoryOk h)) ‹_›)
          · exact OutOk.next (enroll_memoryOk (preparePlaces_memoryOk (MemoryOk.of_fst (readJob_memoryOk (switchMode_memoryOk h)) ‹_›)))
      · exact OutOk.next (switchMode_memoryOk h)
    · exact OutOk.next (switchMode_memoryOk h)

theorem execStripSteal_outOk {lid : Word} {s : State} (h : MemoryOk s) : OutOk (execStripSteal lid s) := by
  unfold execStripSteal
  split
  · exact OutOk.next h
  · split
    · exact OutOk.next h
    · split
      · dsimp only
        split
        · split
          · exact OutOk.next h
          · exact OutOk.next (engineWrite_memoryOk
              (engineWrite_memoryOk (MemoryOk.of_fst (engineWrite_memoryOk (MemoryOk.of_fst (engineRead_memoryOk h) ‹_›)) ‹_›)))
        · split
          · split
            · exact OutOk.next h
            · exact OutOk.next (MemoryOk.of_fst (engineWrite_memoryOk (MemoryOk.of_fst (engineRead_memoryOk h) ‹_›)) ‹_›)
          · exact OutOk.next (MemoryOk.of_fst (engineRead_memoryOk h) ‹_›)
      · exact OutOk.next (MemoryOk.of_fst (engineRead_memoryOk h) ‹_›)

theorem gangEnergy_memoryOk {s : State} {g : Gang} (h : MemoryOk s) : MemoryOk (gangEnergy s g).2 := takeFree_memoryOk h

theorem releaseHeld_memoryOk {s : State} (h : MemoryOk s) : MemoryOk (releaseHeld s).1 := by
  unfold releaseHeld
  split
  · exact h
  · refine setLinked_memoryOk (MemoryOk.foldl_fst (fun a k ha => ?_) h)
    exact releaseLinked_memoryOk ha

theorem settleHart_memoryOk {s : State} (h : MemoryOk s) : MemoryOk (settleHart s) := retireWhere_memoryOk (drainAll_memoryOk h)

theorem endHart_memoryOk {g : Gang} {s : State} (h : MemoryOk s) : MemoryOk (endHart g s) := by
  unfold endHart
  split
  · exact h
  · exact (settleHart_memoryOk (releaseHeld_memoryOk (MemoryOk.ite (stopHart_memoryOk h) h))).update

theorem closeGang_memoryOk {s : State} {g : Gang} {r : Result} (h : MemoryOk s) : MemoryOk (closeGang s g r) :=
  MemoryOk.foldl (fun _ _ h1 => MemoryOk.ite (endLaunch_memoryOk h1) h1)
    ((dropArena_memoryOk (eachHart_memoryOk h (fun _ h1 => endHart_memoryOk h1))).update)

theorem execGangEnd_outOk {cause : BitVec 8} {s : State} (h : MemoryOk s) : OutOk (execGangEnd cause s) := by
  unfold execGangEnd
  split
  · split
    · exact OutOk.next h
    · split
      · exact OutOk.ite (OutOk.next (closeGang_memoryOk h)) (OutOk.next h)
      · split
        · exact OutOk.next h
        · split
          · exact OutOk.next (closeGang_memoryOk h)
          · exact OutOk.next (closeGang_memoryOk (gangEnergy_memoryOk h))
  · exact OutOk.next h

theorem finishGang_memoryOk {s : State} (h : MemoryOk s) : MemoryOk (finishGang s) := by
  unfold finishGang
  split
  · exact MemoryOk.ite (closeGang_memoryOk (gangEnergy_memoryOk h)) h
  · exact h

theorem writePieces_memoryOk {l : List (Nat × Nat × Bool)} : ∀ {s : State} {va : Word}, MemoryOk s → MemoryOk (writePieces s va l).1 := by
  induction l with
  | nil => exact fun h => h
  | cons p l ih =>
    intro s va h
    unfold writePieces
    split
    · exact ih (spanApply_memoryOk (MemoryOk.of_fst (hartSpan_memoryOk h) ‹_›))
    · exact MemoryOk.of_fst (hartSpan_memoryOk h) ‹_›
    · exact MemoryOk.of_fst (hartSpan_memoryOk h) ‹_›

theorem writeSpills_memoryOk {s : State} {image stride : Word} {l : List (Nat × Nat × Nat)} (h : MemoryOk s) :
    MemoryOk (writeSpills s image stride l).1 := by
  unfold writeSpills
  refine MemoryOk.foldl_fst ?_ h
  intro _ _ h1
  split
  · exact h1
  · exact writePieces_memoryOk h1

theorem allSpills_memoryOk {s : State} (h : MemoryOk s) : MemoryOk (allSpills s).1 := by
  unfold allSpills
  split
  · exact h
  · split
    · exact writeSpills_memoryOk (MemoryOk.of_fst (writeSpills_memoryOk h) ‹_›)
    · exact writeSpills_memoryOk h

theorem spillFault_memoryOk {s : State} {t : Trap} (h : MemoryOk s) : MemoryOk (spillFault s t) := h.update

theorem haltHart_memoryOk {s : State} (h : MemoryOk s) : MemoryOk (haltHart s) := by
  unfold haltHart
  split
  · exact finishGang_memoryOk (takeStop_memoryOk _ _ _ _ _ _ _ _ (MemoryOk.of_fst (allSpills_memoryOk (settleHart_memoryOk h)) ‹_›))
  · exact spillFault_memoryOk (MemoryOk.of_fst (allSpills_memoryOk (settleHart_memoryOk h)) ‹_›)
  · exact wait_memoryOk h

theorem execHalt_outOk {s : State} (h : MemoryOk s) : OutOk (execHalt s) := by
  unfold execHalt
  dsimp only
  split
  · split
    · split
      · exact OutOk.next (wait_memoryOk h)
      · exact OutOk.next (haltHart_memoryOk h)
    · exact OutOk.next (jumpTo_memoryOk h)
  · split
    · exact OutOk.next (wait_memoryOk h)
    · exact OutOk.next (haltHart_memoryOk h)

theorem execJl_outOk {f : OpA} {s : State} (h : MemoryOk s) : OutOk (execJl f s) := by
  unfold execJl
  refine OutOk.ite (OutOk.next (wait_memoryOk h)) (OutOk.ite (OutOk.next (wait_memoryOk h)) ?_)
  extract_lets ea fails
  have hfails {t : State} (ht : MemoryOk t) : OutOk (fails t) := OutOk.next (advance_memoryOk (writeX_memoryOk ht))
  clear_value fails
  split
  · exact OutOk.next (takeTrap_memoryOk _ _ h)
  · exact OutOk.next (wait_memoryOk (MemoryOk.of_fst (checkAccess_memoryOk h) ‹_›))
  · have ht := MemoryOk.of_fst (checkAccess_memoryOk h) ‹_›
    refine OutOk.ite (OutOk.next (takeTrap_memoryOk _ _ h)) (OutOk.ite (hfails ht) (OutOk.ite (hfails ht) ?_))
    extract_lets r
    split
    · exact OutOk.next (wait_memoryOk ht)
    · exact hfails ht
    · exact OutOk.next (advance_memoryOk (writeX_memoryOk (setQueue_memoryOk (MemoryOk.of_fst (engineWrite_memoryOk ht) ‹_›))))

theorem releaseAll_memoryOk {l : List Linked} : ∀ {s : State}, MemoryOk s → MemoryOk (releaseAll s l) := by
  induction l with
  | nil => exact fun h => setLinked_memoryOk h
  | cons k l ih =>
    intro s h
    unfold releaseAll
    split
    · exact h
    · split
      · exact ih h
      · split
        · exact ih (MemoryOk.of_fst (releaseLinked_memoryOk h) ‹_›)
        · exact wait_memoryOk (setLinked_memoryOk h)
        · exact takeStop_memoryOk _ _ _ _ _ _ _ _ (setLinked_memoryOk (MemoryOk.of_fst (releaseLinked_memoryOk h) ‹_›))

theorem execLinkedStoreRelease_outOk {s : State} (h : MemoryOk s) : OutOk (execLinkedStoreRelease s) := by
  unfold execLinkedStoreRelease
  split
  · exact OutOk.ite (OutOk.next (releaseAll_memoryOk h)) (OutOk.next h)
  · exact OutOk.next h

theorem settleGang_memoryOk {s : State} {lid : Word} (h : MemoryOk s) : MemoryOk (settleGang s lid) :=
  retireWhere_memoryOk (eachHart_memoryOk h (fun _ h1 => MemoryOk.ite (drainAll_memoryOk h1) h1))

theorem execCompletionRecord_outOk {q : BitVec 6} {s : State} (h : MemoryOk s) : OutOk (execCompletionRecord q s) := by
  unfold execCompletionRecord
  dsimp only
  split
  · exact OutOk.next h
  · split
    · exact OutOk.next h
    · split
      · exact OutOk.next (settleGang_memoryOk h)
      · refine OutOk.next ?_
        split <;> exact (setQueue_memoryOk (setLaunch_memoryOk (MemoryOk.of_fst (engineWrite_memoryOk (settleGang_memoryOk h)) ‹_›))).update
      · refine OutOk.next ?_
        split <;> exact (setQueue_memoryOk
          (setLaunch_memoryOk (logError_memoryOk (MemoryOk.of_fst (engineWrite_memoryOk (settleGang_memoryOk h)) ‹_›)))).update

/-! ### Translation, migration and module links -/

theorem execPageWalk_outOk {pasid : BitVec 20} {va : Word} {write : Bool} {s : State} (h : MemoryOk s) : OutOk (execPageWalk pasid va write s) := by
  unfold execPageWalk
  dsimp only
  split
  · exact OutOk.next h
  · split
    · exact OutOk.next h
    · exact OutOk.ite (OutOk.next h) (OutOk.next ((setAD_memoryOk _ _ h).update))

theorem settlePasid_memoryOk {s : State} {pasid : Nat} (h : MemoryOk s) : MemoryOk (settlePasid s pasid) :=
  eachHart_memoryOk h (fun _ h1 => MemoryOk.ite (settleHart_memoryOk h1) h1)

theorem shootdown_optOk {s : State} {pasid lo hi : Nat} (h : MemoryOk s) : OptOk (shootdown s pasid lo hi) := by
  unfold shootdown
  dsimp only
  split
  · exact OptOk.of_none
  · exact OptOk.of_some (mapHarts_memoryOk ((settlePasid_memoryOk h).update))

theorem setOwner_memoryOk {s : State} {owner next : Nat} (h : MemoryOk s) : MemoryOk (setOwner s owner next) := logError_memoryOk h.update

theorem endHandover_memoryOk {s : State} (h : MemoryOk s) : MemoryOk (endHandover s) := MemoryOk.ite h.update h

theorem endOwnership_memoryOk {s : State} (h : MemoryOk s) : MemoryOk (endOwnership s) := MemoryOk.ite (setOwner_memoryOk h) h

theorem settleOwner_memoryOk {s : State} (h : MemoryOk s) : MemoryOk (settleOwner s) := endOwnership_memoryOk (endHandover_memoryOk h)

theorem goneHart_memoryOk {pasid : Nat} {s : State} (h : MemoryOk s) : MemoryOk (goneHart pasid s) := by
  unfold goneHart
  split
  · exact h
  · exact settleHart_memoryOk (setLinked_memoryOk (MemoryOk.ite (stopHart_memoryOk h) h))

theorem tearDown_memoryOk {s : State} {pasid : Nat} (h : MemoryOk s) : MemoryOk (tearDown s pasid) :=
  (MemoryOk.foldl (fun _ _ h1 => closeGang_memoryOk h1) (eachHart_memoryOk (setContext_memoryOk h) (fun _ h1 => goneHart_memoryOk h1))).update

theorem execPasidTeardown_outOk {id : BitVec 4} {pasid : BitVec 20} {s : State} (h : MemoryOk s) : OutOk (execPasidTeardown id pasid s) := by
  unfold execPasidTeardown
  dsimp only
  split
  · exact OutOk.next (settleOwner_memoryOk h)
  · exact OutOk.next (tearDown_memoryOk (settleOwner_memoryOk h))

theorem execPasidDrain_outOk {pasid : BitVec 20} {s : State} (h : MemoryOk s) : OutOk (execPasidDrain pasid s) := by
  unfold execPasidDrain
  split
  · exact OutOk.next h
  · exact OutOk.next (setContext_memoryOk (settlePasid_memoryOk h))

theorem tagSealed_memoryOk {s : State} {g n slot : Nat} (h : MemoryOk s) : MemoryOk (tagSealed s g n slot) :=
  MemoryOk.foldl (fun _ _ h1 => h1.update) h

theorem zStore_memoryOk {s : State} {b size : Nat} {l : List (Option Nat)} (h : MemoryOk s) : MemoryOk (zStore s b size l) := by
  unfold zStore
  split
  · exact ⟨Memory.wf_writeN _ _ _ h.1, (tagSealed_memoryOk h).2⟩
  · exact ⟨Memory.wf_writeN _ _ _ h.1, h.2⟩

theorem applyMoved_memoryOk {s : State} {b size : Nat} (h : MemoryOk s) : MemoryOk (applyMoved s b size) :=
  MemoryOk.foldl (fun _ _ h1 => MemoryOk.ite (MemoryOk.setMem (zStore_memoryOk h1) (Memory.wf_clear _ _ ((zStore_memoryOk h1).1))) h1) h

theorem holdBlock_memoryOk {s : State} {b size k : Nat} (h : MemoryOk s) : MemoryOk (holdBlock s b size k) :=
  zStore_memoryOk ((zTouch_memoryOk _ h).update)

theorem writeBackIn_memoryOk {s : State} {a : Nat × Nat} {block : Nat} (h : MemoryOk s) : MemoryOk (writeBackIn s a block) := by
  unfold writeBackIn
  dsimp only
  split
  · exact h
  · split
    · exact applyMoved_memoryOk (MemoryOk.setMem (zStore_memoryOk h) (Memory.wf_clear _ _ ((zStore_memoryOk h).1)))
    · exact MemoryOk.ite (holdBlock_memoryOk h) h.update

theorem writeBack_memoryOk {s : State} {pte block : Nat} (h : MemoryOk s) : MemoryOk (writeBack s pte block) := writeBackIn_memoryOk h

theorem retryWriteBack_memoryOk {s : State} (h : MemoryOk s) : MemoryOk (retryWriteBack s) := by
  unfold retryWriteBack
  split
  · exact MemoryOk.ite h.update (MemoryOk.ite (writeBackIn_memoryOk h) h)
  · exact h

theorem execWriteBack_outOk {pasid : BitVec 20} {va : Word} {block : BitVec 5} {s : State} (h : MemoryOk s) :
    OutOk (execWriteBack pasid va block s) := by
  unfold execWriteBack
  split
  · exact OutOk.ite (OutOk.next (writeBack_memoryOk h)) (OutOk.next h)
  · exact OutOk.next h

theorem acceptAt_memoryOk {s : State} {i : Nat} (h : MemoryOk s) : MemoryOk (acceptAt s i) := by
  unfold acceptAt
  split
  · exact h
  · exact MemoryOk.ite h.update ⟨h.1, Memory.wf_writeMasked _ _ _ _ _ h.2⟩

theorem moveCells_wf {m : List Host.Cell} {src dst n : Nat} (h : Memory.wf m = true) : Memory.wf (moveCells m src dst n) = true :=
  Memory.wf_foldl (fun _ _ h => Memory.wf_write _ _ h) (Memory.wf_clear _ _ h)

theorem copyBytes_memoryOk {s : State} {src dst n : Nat} (h : MemoryOk s) : MemoryOk (copyBytes s src dst n) := ⟨moveCells_wf h.1, h.2⟩

theorem copyDurable_memoryOk {s : State} {src dst n : Nat} (h : MemoryOk s) : MemoryOk (copyDurable s src dst n) := ⟨h.1, moveCells_wf h.2⟩

theorem writeBackAll_memoryOk {s : State} {pte : Nat} (h : MemoryOk s) : MemoryOk (writeBackAll s pte) :=
  MemoryOk.forUp (fun _ _ h1 => writeBack_memoryOk h1) h

theorem shrinkTo_optOk {s : State} {b size room : Nat} (h : MemoryOk s) : OptOk (shrinkTo s b size room) := by
  refine List.foldlRecOn (motive := OptOk) _ _ (OptOk.of_some h) fun o ho i _ => OptOk.bind fun t ht => ?_
  have ht := ho t ht
  split
  · exact OptOk.of_some ht
  · exact OptOk.ite (OptOk.of_some (holdBlock_memoryOk ht)) OptOk.of_none

theorem moveOverflow_memoryOk {s : State} {a b : Nat} (h : MemoryOk s) : MemoryOk (moveOverflow s a b) :=
  MemoryOk.foldl (fun _ _ h1 => MemoryOk.ite (MemoryOk.setMem (copyBytes_memoryOk h1) (Memory.wf_clear _ _ ((copyBytes_memoryOk h1).1))) h1) h

theorem copyPage_optOk {s : State} {old new level : Nat} (h : MemoryOk s) : OptOk (copyPage s old new level) := by
  unfold copyPage
  dsimp only
  split
  · split
    · split
      · exact OptOk.of_none
      · refine OptOk.of_some ?_
        split
        · exact copyDurable_memoryOk (copyBytes_memoryOk h)
        · exact copyBytes_memoryOk h
    · split
      · exact OptOk.of_none
      · refine OptOk.of_some ?_
        split
        · exact copyDurable_memoryOk (copyBytes_memoryOk h)
        · exact copyBytes_memoryOk h
  · split
    · exact OptOk.of_some (MemoryOk.setMem (copyBytes_memoryOk (MemoryOk.foldl (fun _ _ h1 => zTouch_memoryOk _ h1) h))
        (Memory.wf_clear _ _ ((copyBytes_memoryOk (MemoryOk.foldl (fun _ _ h1 => zTouch_memoryOk _ h1) h)).1)))
    · split
      · exact OptOk.of_some (writeBackAll_memoryOk (MemoryOk.setMem (copyBytes_memoryOk h) (Memory.wf_writeN _ _ _ ((copyBytes_memoryOk h).1))))
      · split
        · exact OptOk.of_none
        · exact OptOk.map (fun _ h1 => applyMoved_memoryOk
            ((moveOverflow_memoryOk (copyBytes_memoryOk ((shrinkTo_optOk (writeBackAll_memoryOk h)) _ ‹_›))).update))

theorem putLeaf_memoryOk {s : State} {pteAt old : Nat} {f : Nat → Nat} (h : MemoryOk s) : MemoryOk (putLeaf s pteAt old f) :=
  ⟨Memory.wf_foldl (fun _ _ h1 => Memory.wf_ite h1 (Memory.wf_writeN _ _ _ h1)) h.1, h.2⟩

theorem execPageMigration_outOk {pasid : BitVec 20} {va pte : Word} {s : State} (h : MemoryOk s) : OutOk (execPageMigration pasid va pte s) := by
  unfold execPageMigration
  dsimp only
  split
  · exact OutOk.next h
  · split
    · split
      · split
        · exact OutOk.next h
        · split
          · exact OutOk.next (((shootdown_optOk (putLeaf_memoryOk h)) _ ‹_›).update)
          · exact OutOk.next h
      · split
        · exact OutOk.next h
        · split
          · exact OutOk.next (((shootdown_optOk (putLeaf_memoryOk h)) _ ‹_›).update)
          · exact OutOk.next h
    · split
      · split
        · exact OutOk.next (((copyPage_optOk h) _ ‹_›).update)
        · exact OutOk.next h
      · split
        · exact OutOk.next (((shootdown_optOk (putLeaf_memoryOk h)) _ ‹_›).update)
        · exact OutOk.next h

theorem acceptUntil_optOk {k n mask data fuel : Nat} : ∀ {s : State}, MemoryOk s → OptOk (acceptUntil s k n mask data fuel) := by
  induction fuel with
  | zero => exact fun _ => OptOk.of_none
  | succ fuel ih =>
    intro s h
    unfold acceptUntil
    split
    · exact OptOk.ite (OptOk.of_some (acceptAt_memoryOk h)) (ih (acceptAt_memoryOk h))
    · exact OptOk.of_none

theorem loftWrite_optOk {s : State} {k n mask data : Nat} {pois : Bool} (h : MemoryOk s) : OptOk (loftWrite s k n mask data pois) :=
  OptOk.bind (fun _ h1 => OptOk.ite OptOk.of_none (OptOk.of_some ((acceptUntil_optOk h) _ ‹_›)))

theorem sendPacket_memoryOk {s : State} {m cmd addr len mask data : Nat} {pois : Bool} (h : MemoryOk s) :
    MemoryOk (sendPacket s m cmd addr len mask data pois) := by
  unfold sendPacket
  dsimp only
  split
  · exact h.update
  · exact h

theorem reply_memoryOk {s : State} {r : Reply} (h : MemoryOk s) : MemoryOk (reply s r) := h.update

theorem execLinkRd_outOk {m : BitVec 6} {addr : BitVec 40} {len : BitVec 3} {s : State} (h : MemoryOk s) : OutOk (execLinkRd m addr len s) := by
  unfold execLinkRd
  split
  · exact OutOk.next h
  · split
    · exact OutOk.next (reply_memoryOk h)
    · exact OutOk.next (sendPacket_memoryOk h)

theorem strangePacket_memoryOk {s : State} {m cmd addr len : Nat} (h : MemoryOk s) : MemoryOk (strangePacket s m cmd addr len) := by
  unfold strangePacket
  dsimp only
  split
  · exact h
  · split
    · exact h
    · exact logError_memoryOk (reply_memoryOk h)

theorem linkWrite_memoryOk {m addr len cmd mask data : Nat} {pois : Bool} {s : State} (h : MemoryOk s) :
    MemoryOk (linkWrite m addr len cmd mask data pois s) := by
  unfold linkWrite
  split
  · exact h
  · exact MemoryOk.ite h (MemoryOk.ite h (sendPacket_memoryOk h))

theorem countUnit_memoryOk {s : State} {n die unit : Nat} (h : MemoryOk s) : MemoryOk (countUnit s n die unit) :=
  MemoryOk.ite ((logError_memoryOk h).update) h.update

theorem countCorrected_memoryOk {s : State} {m : Nat} (h : MemoryOk s) : MemoryOk (countCorrected s m) := countUnit_memoryOk h

theorem eccPoison_memoryOk {s : State} {gs : List Nat} {m ecc : Nat} (h : MemoryOk s) : MemoryOk (eccPoison s gs m ecc) := by
  unfold eccPoison
  split
  · exact h
  · split
    · exact countCorrected_memoryOk h
    · split
      · exact h
      · exact logError_memoryOk ((MemoryOk.ite h.update h).update)

theorem execLinkRdr_outOk {m : BitVec 6} {sc : BitVec 5} {tag : BitVec 3} {ecc : BitVec 2} {s : State} (h : MemoryOk s) :
    OutOk (execLinkRdr m sc tag ecc s) := by
  unfold execLinkRdr
  split
  · exact OutOk.next h
  · split
    · exact OutOk.next h
    · split
      · exact OutOk.next h
      · split
        · exact OutOk.next h
        · exact OutOk.next (reply_memoryOk (eccPoison_memoryOk h.update))

theorem performWrite_memoryOk {s : State} {p : Packet} {k : Nat} (h : MemoryOk s) : MemoryOk (performWrite s p k).1 := by
  unfold performWrite
  dsimp only
  split
  · exact logError_memoryOk ⟨Memory.wf_foldl (fun _ _ h1 => Memory.wf_writeN _ _ _ h1) (Memory.wf_writeMasked _ _ _ _ _ h.1), h.2⟩
  · exact ⟨Memory.wf_foldl (fun _ _ h1 => Memory.wf_writeN _ _ _ h1) (Memory.wf_writeMasked _ _ _ _ _ h.1), h.2⟩

theorem execLinkWra_outOk {m : BitVec 6} {sc : BitVec 5} {tag : BitVec 3} {ecc : BitVec 2} {s : State} (h : MemoryOk s) :
    OutOk (execLinkWra m sc tag ecc s) := by
  unfold execLinkWra
  split
  · exact OutOk.next h
  · split
    · exact OutOk.next h
    · split
      · exact OutOk.next h
      · split
        · exact OutOk.next h
        · dsimp only
          split
          · split
            · exact OutOk.next h
            · refine OutOk.next ?_
              refine reply_memoryOk ?_
              split
              · exact logError_memoryOk (((loftWrite_optOk (eccPoison_memoryOk h.update)) _ ‹_›).update)
              · exact ((loftWrite_optOk (eccPoison_memoryOk h.update)) _ ‹_›).update
          · exact OutOk.next (reply_memoryOk (performWrite_memoryOk (eccPoison_memoryOk h.update)))

theorem loseLoft_memoryOk {s : State} {n : Nat} (h : MemoryOk s) : MemoryOk (loseLoft s n) := logError_memoryOk h.update

theorem execModuleLinkFailure_outOk {m : BitVec 6} {s : State} (h : MemoryOk s) : OutOk (execModuleLinkFailure m s) := by
  unfold execModuleLinkFailure
  dsimp only
  split
  · exact OutOk.next h
  · refine OutOk.next ?_
    split
    · exact loseLoft_memoryOk (logError_memoryOk ((MemoryOk.foldl (fun _ _ h1 => reply_memoryOk h1) h).update))
    · exact logError_memoryOk ((MemoryOk.foldl (fun _ _ h1 => reply_memoryOk h1) h).update)

/-! ### The management interface -/

theorem writeTail_memoryOk {s : State} {q : BitVec 6} {v : Nat} (h : MemoryOk s) : MemoryOk (writeTail s q v) := MemoryOk.ite h (setQueue_memoryOk h)

theorem writeReprio_memoryOk {s : State} {q : BitVec 6} {v : Word} (h : MemoryOk s) : MemoryOk (writeReprio s q v) := by
  unfold writeReprio
  dsimp only
  split
  · exact setQueue_memoryOk h
  · exact MemoryOk.ite (setLaunch_memoryOk (setQueue_memoryOk h)) (setQueue_memoryOk h)

theorem writeQueue_memoryOk {s : State} {q : BitVec 6} {reg : Nat} {v : Word} (h : MemoryOk s) : MemoryOk (writeQueue s q reg v) := by
  unfold writeQueue
  dsimp only
  split
  · exact setQueue_memoryOk h
  · exact MemoryOk.ite h (setQueue_memoryOk h)
  · exact MemoryOk.ite h (setQueue_memoryOk h)
  · exact MemoryOk.ite h (setQueue_memoryOk h)
  · exact MemoryOk.ite h (setQueue_memoryOk h)
  · exact writeTail_memoryOk h
  · exact writeReprio_memoryOk h
  · exact h

theorem claim_memoryOk {s : State} {id : Nat} {nonce : Word} (h : MemoryOk s) : MemoryOk (claim s id nonce) := by
  unfold claim
  split
  · exact h
  · exact MemoryOk.ite ((setOwner_memoryOk h).update) (MemoryOk.ite h.update h)

theorem writeNext_memoryOk {s : State} {id v : Nat} (h : MemoryOk s) : MemoryOk (writeNext s id v) := MemoryOk.ite h h.update

theorem beat_memoryOk {s : State} {id : Nat} (h : MemoryOk s) : MemoryOk (beat s id) := MemoryOk.ite h.update h

theorem writeBeat_memoryOk {s : State} {id : Nat} {v : Word} (h : MemoryOk s) : MemoryOk (writeBeat s id v) :=
  MemoryOk.ite ((beat_memoryOk h).update) h

theorem writePwrlim_memoryOk {s : State} {id v : Nat} (h : MemoryOk s) : MemoryOk (writePwrlim s id v) := MemoryOk.ite h.update h

theorem writeElogTail_memoryOk {s : State} {v : Nat} (h : MemoryOk s) : MemoryOk (writeElogTail s v) := MemoryOk.ite h h.update

theorem clearElogLost_memoryOk {s : State} {v : Word} (h : MemoryOk s) : MemoryOk (clearElogLost s v) := h.update

theorem execManagementRegisterWrite_outOk {fn : BitVec 1} {off : BitVec 25} {v : Word} {s : State} (h : MemoryOk s) :
    OutOk (execManagementRegisterWrite fn off v s) := by
  unfold execManagementRegisterWrite
  dsimp only
  split
  · split
    · exact OutOk.next (writeQueue_memoryOk (settleOwner_memoryOk h))
    · exact OutOk.next (settleOwner_memoryOk h)
  · split
    · exact OutOk.next (claim_memoryOk (settleOwner_memoryOk h))
    · exact OutOk.next (writeNext_memoryOk (settleOwner_memoryOk h))
    · exact OutOk.next (writeBeat_memoryOk (settleOwner_memoryOk h))
    · exact OutOk.next (writePwrlim_memoryOk (settleOwner_memoryOk h))
    · exact OutOk.next (writeElogTail_memoryOk (settleOwner_memoryOk h))
    · exact OutOk.next (clearElogLost_memoryOk (settleOwner_memoryOk h))
    · exact OutOk.next (settleOwner_memoryOk h)

theorem mgmtRead_memoryOk {s : State} {off : Nat} (h : MemoryOk s) : MemoryOk (mgmtRead s off) := (settleOwner_memoryOk h).update

theorem measure_memoryOk {s : State} (h : MemoryOk s) : MemoryOk (measure s) := (takeFree_memoryOk (measured_memoryOk h)).update

theorem setIde_memoryOk {s : State} {fn : Nat} {stream : Option Nat} {on : Bool} (h : MemoryOk s) : MemoryOk (setIde s fn stream on) := by
  unfold setIde
  split
  · exact h.update
  · exact MemoryOk.ite h h.update

theorem freeBytes_memoryOk {n : Nat} : ∀ {s : State}, MemoryOk s → MemoryOk (freeBytes s n).1 := by
  induction n with
  | zero => exact fun h => h
  | succ n ih => exact fun h => ih (takeFree_memoryOk h)

theorem respond_memoryOk {s : State} {fn : BitVec 1} {l : List Byte} (h : MemoryOk s) : MemoryOk (respond s fn l) := h.update

theorem execKeyExchange_outOk {fn : BitVec 1} {s : State} (h : MemoryOk s) : OutOk (execKeyExchange fn s) := by
  unfold execKeyExchange
  split
  · exact OutOk.next (respond_memoryOk (MemoryOk.of_fst (freeBytes_memoryOk h) ‹_›)).update

theorem execKeySlotWrite_outOk {id : BitVec 4} {slot : BitVec 12} {key : BitVec 512} {s : State} (h : MemoryOk s) :
    OutOk (execKeySlotWrite id slot key s) := by
  unfold execKeySlotWrite
  dsimp only
  split
  · exact OutOk.next ((settleOwner_memoryOk h).update)
  · exact OutOk.next (settleOwner_memoryOk h)

theorem execKeySlotErase_outOk {id : BitVec 4} {slot : BitVec 12} {s : State} (h : MemoryOk s) : OutOk (execKeySlotErase id slot s) := by
  unfold execKeySlotErase
  dsimp only
  split
  · exact OutOk.next ((settleOwner_memoryOk h).update)
  · exact OutOk.next (settleOwner_memoryOk h)

theorem setTdisp_memoryOk {s : State} {fn : BitVec 1} {st : TdispState} (h : MemoryOk s) : MemoryOk (setTdisp s fn st) := by
  unfold setTdisp
  dsimp only
  split
  · exact MemoryOk.foldl (fun _ _ h1 => MemoryOk.ite (tearDown_memoryOk h1) h1) h.update
  · exact h.update

theorem execBar2Read_outOk {off : BitVec 36} {s : State} (h : MemoryOk s) : OutOk (execBar2Read off s) := by
  unfold execBar2Read
  dsimp only
  split
  · exact OutOk.next h
  · split
    · exact OutOk.next ((logError_memoryOk h).update)
    · split
      · exact OutOk.next ((takeFree_memoryOk h).update)
      · exact OutOk.next h.update

theorem execBar2Write_outOk {off : BitVec 36} {v : Word} {s : State} (h : MemoryOk s) : OutOk (execBar2Write off v s) := by
  unfold execBar2Write
  dsimp only
  split
  · exact OutOk.next h
  · split
    · exact OutOk.next (logError_memoryOk h)
    · exact OutOk.next (applyAt_memoryOk _ _ h)

theorem setClocks_memoryOk {s : State} {p : Nat → Bool} {f : Nat → Nat} (h : MemoryOk s) : MemoryOk (setClocks s p f) := h.update

theorem preemptHart_memoryOk {s : State} (h : MemoryOk s) : MemoryOk (preemptHart s) := MemoryOk.ite (stopHart_memoryOk h) h

theorem execDieTemperature115_outOk {s : State} (h : MemoryOk s) : OutOk (execDieTemperature115 s) :=
  OutOk.next (logError_memoryOk ((eachHart_memoryOk h (fun _ h1 => preemptHart_memoryOk (drainAll_memoryOk h1))).update))

theorem execScrubPass_outOk {hit : Option Nat} {s : State} (h : MemoryOk s) : OutOk (execScrubPass hit s) := by
  unfold execScrubPass
  dsimp only
  split
  · exact OutOk.next h.update
  · exact OutOk.ite (OutOk.next (logError_memoryOk h.update)) (OutOk.next h.update)

theorem mapTile_memoryOk {s : State} {t : Nat} {f : Tile → Tile} (h : MemoryOk s) : MemoryOk (mapTile s t f) := h.update

theorem mapConvoy_memoryOk {s : State} {p : Nat} {f : Convoy → Convoy} (h : MemoryOk s) : MemoryOk (mapConvoy s p f) := h.update

theorem upsetValue_memoryOk {s : State} {x0 : Upset} (h : MemoryOk s) : MemoryOk (upsetValue s x0) := by
  unfold upsetValue
  split
  · exact MemoryOk.ite (mapTile_memoryOk h) h
  · exact MemoryOk.ite (mapConvoy_memoryOk h) h
  · exact MemoryOk.ite (squashStore_memoryOk h) h
  · exact h.update
  · exact MemoryOk.ite h h.update
  · exact h.update
  · exact takeTrap_memoryOk _ _ h
  · exact hurtUop_memoryOk h
  · exact h.update
  · split
    · exact takeStop_memoryOk _ _ _ _ _ _ _ _ h
    · exact h
  · exact mapTile_memoryOk h
  · exact h.update
  · exact h.update
  · exact h.update
  · exact h
  · exact h

theorem applyUpset_memoryOk {s : State} {u : Upset} (h : MemoryOk s) : MemoryOk (applyUpset s u) := by
  unfold applyUpset
  dsimp only
  split
  · exact h
  · split
    · exact countUnit_memoryOk h
    · exact MemoryOk.ite (logError_memoryOk h) h
    · exact upsetValue_memoryOk h
    · exact upsetValue_memoryOk h
    · exact upsetValue_memoryOk h
    · exact upsetValue_memoryOk (logError_memoryOk h)

theorem failPort_memoryOk {s : State} {port : Nat} (h : MemoryOk s) : MemoryOk (failPort s port) := MemoryOk.ite h.update h

theorem setPeerDrams_memoryOk {s : State} {m n : Nat} (h : MemoryOk s) : MemoryOk (setPeerDrams s m n) := h.update

theorem assignTenant_memoryOk {s : State} {pasid tenant : Nat} (h : MemoryOk s) : MemoryOk (assignTenant s pasid tenant) := h.update

theorem setHostPage_memoryOk {s : State} {pasid page : Nat} {fails : Bool} (h : MemoryOk s) : MemoryOk (setHostPage s pasid page fails) := h.update

theorem askQuarantine_memoryOk {s : State} {id core : Nat} (h : MemoryOk s) : MemoryOk (askQuarantine s id core) :=
  MemoryOk.ite ((settleOwner_memoryOk h).update) (settleOwner_memoryOk h)

theorem execCoreQuarantine_outOk {core : BitVec 8} {s : State} (h : MemoryOk s) : OutOk (execCoreQuarantine core s) := by
  unfold execCoreQuarantine
  dsimp only
  split
  · exact OutOk.next h
  · refine OutOk.next ?_
    refine logError_memoryOk ?_
    split
    · exact (setCore_memoryOk (eachHart_memoryOk h (fun _ h1 => MemoryOk.ite (preemptHart_memoryOk h1) h1))).update
    · exact MemoryOk.setMem (setCore_memoryOk (eachHart_memoryOk h (fun _ h1 => MemoryOk.ite (preemptHart_memoryOk h1) h1))) (Memory.wf_clear _ _
        ((setCore_memoryOk (eachHart_memoryOk h (fun _ h1 => MemoryOk.ite (preemptHart_memoryOk h1) h1))).1))

theorem loseAll_memoryOk {s : State} (h : MemoryOk s) : MemoryOk (loseAll s) := ⟨Memory.wf_filter h.1, h.2⟩

theorem restoreLoft_memoryOk {s : State} (h : MemoryOk s) : MemoryOk (restoreLoft s) :=
  ⟨Memory.wf_foldl (fun _ _ h1 => Memory.wf_write _ _ h1) (Memory.wf_clear _ _ h.1), h.2⟩

theorem clearOwn_memoryOk {s : State} (h : MemoryOk s) : MemoryOk (clearOwn s) := ⟨Memory.wf_filter h.1, h.2⟩

theorem execPowerOn_outOk {lost bad : List Nat} {s : State} (h : MemoryOk s) : OutOk (execPowerOn lost bad s) := by
  unfold execPowerOn
  extract_lets t u v
  have ht : MemoryOk t := clearOwn_memoryOk (restoreLoft_memoryOk h)
  have hu : MemoryOk u := MemoryOk.foldl (fun _ _ h => MemoryOk.ite (loseLoft_memoryOk h) h) ht
  have hv : MemoryOk v := MemoryOk.foldl (fun _ _ h => MemoryOk.ite (logError_memoryOk h.update) h) hu
  exact OutOk.ite (OutOk.next h) (OutOk.next hv.update)

/-! ### Scalar memory instructions -/

theorem loadM_outOk {f : OpM11} {n : Nat} {ext : Nat → Word} {s : State} (h : MemoryOk s) : OutOk (loadM f n ext s) := by
  unfold loadM
  split
  · exact OutOk.next (wait_memoryOk h)
  · exact scalarLoad_outOk h (fun _ _ h1 => writeX_memoryOk h1)

theorem storeM_outOk {f : OpM11} {n : Nat} {s : State} (h : MemoryOk s) : OutOk (storeM f n s) :=
  OutOk.ite (OutOk.next (wait_memoryOk h)) (scalarStore_outOk h)

theorem execLdPr_outOk {f : OpM11} {s : State} (h : MemoryOk s) : OutOk (execLdPr f s) := by
  unfold execLdPr
  split
  · exact OutOk.next (wait_memoryOk h)
  · exact scalarLoad_outOk h (fun _ _ h1 => writeX_memoryOk (writeX_memoryOk h1))

theorem execCLd_outOk {a d : BitVec 5} {s : State} (h : MemoryOk s) : OutOk (execCLd a d s) := by
  unfold execCLd
  split
  · exact OutOk.next (wait_memoryOk h)
  · exact scalarLoad_outOk h (fun _ _ h1 => writeX_memoryOk h1)

theorem amoM_outOk {f : OpSA} {g : Word → Word → Word} {s : State} (h : MemoryOk s) : OutOk (amoM f g s) := scalarAmo_outOk h

/-! ### Turns -/

theorem spliceTurn_memoryOk {s : State} {sp : Splice} (h : MemoryOk s) : MemoryOk (spliceTurn s sp).1 := by
  unfold spliceTurn
  dsimp only
  split
  · exact takeTrap_memoryOk _ _ h
  · split
    · split
      · split
        · exact h.update
        · exact wait_memoryOk h.update
      · split
        · exact swapRole_memoryOk h.update
        · exact wait_memoryOk (swapRole_memoryOk h.update)
    · exact MemoryOk.ite h.update (swapRole_memoryOk h.update)

theorem retryQueues_memoryOk {s : State} (h : MemoryOk s) : MemoryOk (retryQueues s) := MemoryOk.ite h h.update

theorem fetchTurn_memoryOk {s : State} (h : MemoryOk s) : MemoryOk (fetchTurn s).1 := by
  unfold fetchTurn
  split
  · exact spliceTurn_memoryOk h
  · split
    · exact MemoryOk.of_fst (fetchBits_memoryOk h) ‹_›
    · exact takeTrap_memoryOk _ _ h
    · exact wait_memoryOk h

theorem vectorTurn_memoryOk {s : State} (h : MemoryOk s) : MemoryOk (vectorTurn s) :=
  MemoryOk.ite (headTurn_memoryOk h) ((headTurn_memoryOk h).update)

theorem wake_memoryOk {s : State} (h : MemoryOk s) : MemoryOk (wake s) := h.update

theorem deadlock_optOk {s : State} {p : Park} (h : MemoryOk s) : OptOk (deadlock s p) := by
  unfold deadlock
  split
  · exact OptOk.of_none
  · split
    · exact OptOk.of_none
    · split
      · exact OptOk.of_some (takeStop_memoryOk _ _ _ _ _ _ _ _ h)
      · exact OptOk.of_none
    · dsimp only
      split
      · split
        · exact OptOk.of_some (stopConvoy_memoryOk (roleFor_memoryOk h) MembersOk.filterMap)
        · exact OptOk.of_none
      · exact OptOk.of_none

theorem passTurn_memoryOk {s : State} (h : MemoryOk s) : MemoryOk (passTurn s) := rotate_memoryOk h.update

theorem idleTurn_memoryOk {s pass : State} (h : MemoryOk s) (hpass : MemoryOk pass) : MemoryOk (idleTurn s pass).1 := by
  unfold idleTurn
  split
  · exact h
  · exact passTurn_memoryOk hpass

theorem parkedTurn_memoryOk {s : State} {p : Park} (h : MemoryOk s) : MemoryOk (parkedTurn s p).1 := by
  unfold parkedTurn
  split
  · exact h
  · split
    · exact (deadlock_optOk h) _ ‹_›
    · exact passTurn_memoryOk h.update

theorem runTurn_memoryOk {s : State} (h : MemoryOk s) : MemoryOk (runTurn s).1 := by
  unfold runTurn
  split
  · exact idleTurn_memoryOk h h
  · split
    · exact vectorTurn_memoryOk h
    · split
      · split
        · exact wake_memoryOk ((accessTurn_optOk h) _ ‹_›)
        · exact h.update
      · split
        · split
          · exact fetchTurn_memoryOk (retryQueues_memoryOk h.update)
          · exact parkedTurn_memoryOk h
        · exact fetchTurn_memoryOk (retryQueues_memoryOk h)

theorem policyTurn_memoryOk {s : State} (h : MemoryOk s) : MemoryOk (policyTurn s).1 := by
  unfold policyTurn
  split
  · exact h
  · split
    · exact retryWriteBack_memoryOk h
    · split
      · split
        · exact h
        · exact runTurn_memoryOk h
      · dsimp only
        split
        · exact idleTurn_memoryOk h h
        · exact finishStop_memoryOk h

theorem agendaTurn_memoryOk {s : State} {a : Turn} (h : MemoryOk s) : MemoryOk (agendaTurn s a).1 := by
  unfold agendaTurn
  split
  · exact h
  · exact MemoryOk.foldl (fun _ _ h1 => rotate_memoryOk h1) h
  · exact h.update
  · exact h.update
  · exact setHostPage_memoryOk h
  · exact applyUpset_memoryOk h
  · exact assignTenant_memoryOk h
  · exact remoteRecv_memoryOk h
  · exact strangePacket_memoryOk h
  · exact mgmtRead_memoryOk h
  · exact measure_memoryOk h
  · exact setIde_memoryOk h
  · exact askQuarantine_memoryOk h
  · exact failPort_memoryOk h
  · exact setPeerDrams_memoryOk h

theorem chosen_memoryOk {s : State} (h : MemoryOk s) : MemoryOk (chosen s).1 := by
  unfold chosen
  split
  · exact agendaTurn_memoryOk h.update
  · exact policyTurn_memoryOk h

/-! ### Instructions, events and steps -/

/-- Performing an instruction or an event keeps memory in canonical form: a vector-class instruction by its member, and every other by its own meaning. -/
theorem exec_outOk {i : Instr} {s : State} (h : MemoryOk s) : OutOk (exec i s) := by
  cases hm : memberOf i with
  | some m =>
    rw [exec_member i m s hm]
    exact solo_outOk (memberOf_memberOk hm) h
  | none =>
    cases i with
    | add | sub | and | or | xor | sll | srl | sra | slt | sltn | min | max | minn | maxn | mul | mulh | mulhn | div | divn | rem | remn
    | addw | subw => unfold exec; exact alu_outOk h
    | clz | ctz | popc | addi | andi | ori | xori | slli | srli | srai | slti | sltni | ldh | pcadd | cAddi | cLi | cMv | cSlli | cSrai =>
      unfold exec; exact aluImm_outOk h
    | ldI8 | ldI16 | ldI32 | ldI64 | ldN8 | ldN16 | ldN32 => unfold exec; exact loadM_outOk h
    | ldPr => unfold exec; exact execLdPr_outOk h
    | stI8 | stI16 | stI32 | stI64 => unfold exec; exact storeM_outOk h
    | stPr | cSd => unfold exec; exact OutOk.ite (OutOk.next (wait_memoryOk h)) (scalarStore_outOk h)
    | amoSwap | amoAdd | amoAnd | amoOr | amoXor | amoMin | amoMax | amoMinn | amoMaxn => unfold exec; exact amoM_outOk h
    | amoCas | amoLd | amoSt => unfold exec; exact scalarAmo_outOk h
    | beq | bne | blt | bge | bltn | bgen | cBeqz | cBnez => unfold exec; exact branch_outOk h
    | jal => unfold exec; exact execJal_outOk h
    | jalr => unfold exec; exact execJalr_outOk h
    | crRd => unfold exec; exact execCrRd_outOk h
    | crWr | crSet | crClr => unfold exec; exact crWrite_outOk h
    | tilenWrite => unfold exec; exact OutOk.ite (OutOk.next (setTilen_memoryOk h)) (OutOk.next h)
    | psmMirrorClear => unfold exec; exact OutOk.ite (OutOk.next (clearPsm_memoryOk h)) (OutOk.next h)
    | vsl => unfold exec; exact execVsl_outOk h
    | brk | cBrk => unfold exec; exact OutOk.next (takeTrap_memoryOk _ _ h)
    | swtrap => unfold exec; exact execSwtrap_outOk h
    | halt => unfold exec; exact execHalt_outOk h
    | lsync => unfold exec; exact execLsync_outOk h
    | gbar => unfold exec; exact execGbar_outOk h
    | wmPub => unfold exec; exact execWmPub_outOk h
    | wmWait => unfold exec; exact execWmWait_outOk h
    | pnSend => unfold exec; exact execPnSend_outOk h
    | pnRecvCh2 | pnRecvCh4 => unfold exec; exact pnRecv_outOk h
    | pnCnt => unfold exec; exact execPnCnt_outOk h
    | jl => unfold exec; exact execJl_outOk h
    | jwait => unfold exec; exact execJwait_outOk h
    | hmBody | hmEnd | cNop => unfold exec; exact OutOk.next (advance_memoryOk h)
    | cAdd | cSub | cAnd => unfold exec; exact aluC_outOk h
    | cLd => unfold exec; exact execCLd_outOk h
    | cJ => unfold exec; exact transfer_outOk h (fun _ h1 => h1)
    | cJr => unfold exec; exact execCJr_outOk h
    | illegalInstruction => unfold exec; exact OutOk.ite (OutOk.next h) (OutOk.next (memberTrap_memoryOk h))
    | scmtImageWrite => unfold exec; exact execScmtImageWrite_outOk h
    | scmtSealWrite => unfold exec; exact execScmtSealWrite_outOk h
    | astOpen | astClose | astRun | arBind | arUnbind | acol | asend | arecv | aflip => unfold exec; exact postEntry_outOk h
    | convoyPost => unfold exec; exact execConvoyPost_outOk h
    | microOperationIssue => unfold exec; exact execMicroOperationIssue_outOk h
    | microOperationComplete => unfold exec; exact execMicroOperationComplete_outOk h
    | laneReExecution => unfold exec; exact execLaneReExecution_outOk h
    | convoyRetire => unfold exec; exact execConvoyRetire_outOk h
    | pennantTake => unfold exec; exact execPennantTake_outOk h
    | storeQueueDrain => unfold exec; exact OutOk.next (drainNth_memoryOk h)
    | combiningEntryRetire => unfold exec; exact execCombiningEntryRetire_outOk h
    | gangBarrierComplete => unfold exec; exact execGangBarrierComplete_outOk h
    | wmWaitSatisfied => unfold exec; exact execWmWaitSatisfied_outOk h
    | trapDelivery => unfold exec; exact execTrapDelivery_outOk h
    | preempt => unfold exec; exact OutOk.ite (OutOk.next (stopHart_memoryOk h.update)) (OutOk.next h)
    | partitionSave => unfold exec; exact execPartitionSave_outOk h
    | restore => unfold exec; exact execRestore_outOk h
    | gangEnd => unfold exec; exact execGangEnd_outOk h
    | stallModeRequest => unfold exec; exact OutOk.ite (OutOk.next h) (OutOk.next (setCore_memoryOk h))
    | arrival => unfold exec; exact execArrival_outOk h
    | pendingModeWithdraw => unfold exec; exact OutOk.next (freeVsl_memoryOk (setCore_memoryOk h))
    | stallModeSwitch => unfold exec; exact execStallModeSwitch_outOk h
    | pageWalk => unfold exec; exact execPageWalk_outOk h
    | shootdown => unfold exec; exact OutOk.next (OptOk.getD (shootdown_optOk h) h)
    | pageMigration => unfold exec; exact execPageMigration_outOk h
    | backingExchange => unfold exec; exact execBackingExchange_outOk h
    | writeBack => unfold exec; exact execWriteBack_outOk h
    | linkRd => unfold exec; exact execLinkRd_outOk h
    | linkWr => unfold exec; exact OutOk.next (linkWrite_memoryOk h)
    | linkWrm => unfold exec; exact OutOk.ite (OutOk.next h) (OutOk.next (linkWrite_memoryOk h))
    | linkRdr => unfold exec; exact execLinkRdr_outOk h
    | linkWra => unfold exec; exact execLinkWra_outOk h
    | moduleLinkFailure => unfold exec; exact execModuleLinkFailure_outOk h
    | pasidTeardown => unfold exec; exact execPasidTeardown_outOk h
    | pasidDrain => unfold exec; exact execPasidDrain_outOk h
    | powerLoss | deviceReset => unfold exec; exact OutOk.next (loseAll_memoryOk h)
    | powerOn => unfold exec; exact execPowerOn_outOk h
    | scrubPass => unfold exec; exact execScrubPass_outOk h
    | coreQuarantine => unfold exec; exact execCoreQuarantine_outOk h
    | quotaChange => unfold exec; exact execQuotaChange_outOk h
    | switchFailure => unfold exec; exact execSwitchFailure_outOk h
    | switchReturn => unfold exec; exact OutOk.ite (OutOk.next ⟨Memory.wf_clear _ _ h.1, h.2⟩) (OutOk.next h)
    | chunkDelivery | outChunkWrite => unfold exec; exact deliver_outOk h
    | colSend | colRecv | colRed | colCopy | colCopyIn | colCopyOut => unfold exec; exact collMove_outOk h
    | recvTimeout => unfold exec; exact execRecvTimeout_outOk h
    | lateImageMerge => unfold exec; exact execLateImageMerge_outOk h
    | participantFailed => unfold exec; exact execParticipantFailed_outOk h
    | transferMatch => unfold exec; exact execTransferMatch_outOk h
    | qtailWrite => unfold exec; exact OutOk.ite (OutOk.next (writeTail_memoryOk h)) (OutOk.next h)
    | qreprioWrite => unfold exec; exact OutOk.ite (OutOk.next (writeReprio_memoryOk h)) (OutOk.next h)
    | managementRegisterWrite => unfold exec; exact execManagementRegisterWrite_outOk h
    | recordFetch => unfold exec; exact execRecordFetch_outOk h
    | launchReady => unfold exec; exact execLaunchReady_outOk h
    | pairDecision => unfold exec; exact execPairDecision_outOk h
    | schedulerSelection => unfold exec; exact execSchedulerSelection_outOk h
    | gangStart => unfold exec; exact execGangStart_outOk h
    | stripSteal => unfold exec; exact execStripSteal_outOk h
    | linkedStoreRelease => unfold exec; exact execLinkedStoreRelease_outOk h
    | completionRecord => unfold exec; exact execCompletionRecord_outOk h
    | ownclaim => unfold exec; exact OutOk.next (claim_memoryOk (settleOwner_memoryOk h))
    | ownstatNextWrite => unfold exec; exact OutOk.next (writeNext_memoryOk (settleOwner_memoryOk h))
    | handoverTimeout => unfold exec; exact OutOk.next (endHandover_memoryOk h)
    | ownbeat => unfold exec; exact OutOk.next (beat_memoryOk (settleOwner_memoryOk h))
    | heartbeatTimeout => unfold exec; exact OutOk.next (endOwnership_memoryOk h)
    | pwrlim => unfold exec; exact OutOk.next (writePwrlim_memoryOk (settleOwner_memoryOk h))
    | elogtail => unfold exec; exact OutOk.next (writeElogTail_memoryOk h)
    | eloglost => unfold exec; exact OutOk.next (clearElogLost_memoryOk h)
    | getMeasurements => unfold exec; exact OutOk.next (respond_memoryOk h)
    | keyExchange => unfold exec; exact execKeyExchange_outOk h
    | keySlotWrite => unfold exec; exact execKeySlotWrite_outOk h
    | keySlotErase => unfold exec; exact execKeySlotErase_outOk h
    | tdispError | tdispInterfaceStateChange => unfold exec; exact OutOk.next (setTdisp_memoryOk h)
    | bar2Read => unfold exec; exact execBar2Read_outOk h
    | bar2Write => unfold exec; exact execBar2Write_outOk h
    | powerLimitExceeded | dieTemperature105 => unfold exec; exact OutOk.next (logError_memoryOk (setClocks_memoryOk h))
    | clockRaise => unfold exec; exact OutOk.ite (OutOk.next h) (OutOk.next ((measured_memoryOk h).update))
    | dieTemperature115 => unfold exec; exact execDieTemperature115_outOk h
    | supplySag => unfold exec; exact OutOk.next (mapHarts_memoryOk h)
    | pasidAssign => unfold exec; exact OutOk.ite (OutOk.next h) (OutOk.next (setContext_memoryOk h))
    | pageTableChange => unfold exec; exact OutOk.ite (OutOk.next h) (OutOk.next ⟨Memory.wf_writeN _ _ _ h.1, h.2⟩)
    | lateDataDiscard => unfold exec; exact execLateDataDiscard_outOk h
    | accessEntryIssue => unfold exec; exact OutOk.ite (OutOk.next h) (OutOk.next (OptOk.getD (moveStart_optOk h) h))
    | _ => cases hm

theorem step_outOk {s : State} (h : MemoryOk s) : OutOk (step s) := by
  have ht := chosen_memoryOk h
  unfold step
  split
  · exact exec_outOk (MemoryOk.of_fst ht ‹_›)
  · exact OutOk.next (MemoryOk.of_fst ht ‹_›)

/-- Settles O59: the canonical form holds of whatever state the turn or the instruction of a step gives. -/
theorem stepKeepsMemoryOk : Obligations.StepKeepsMemoryOk := by
  unfold Obligations.StepKeepsMemoryOk
  exact fun s t h e => step_outOk h t e

end Sys2Proof.Machine
end

section
/-! SUPPORT. The pennants of the sequencer (R25, R27, R79). -/

namespace Sys2Proof.Machine

/-! ### Pennants of the sequencer -/

/-- Of registers none of which is held, no part is held. -/
theorem NoHold.of_subset {s : State} {l k : List (BitVec 5)} (h : NoHold s l) (hk : ∀ n ∈ k, n ∈ l) : NoHold s k := by
  unfold NoHold anyHeld at *
  rw [List.any_eq_false] at *
  exact fun n hn => h n (hk n hn)

/-- R79: `pn.send` with no scalar store pending and a free slot posts the low half of its register. -/
theorem execPnSend_posts (c : BitVec 1) (f : OpA) (s : State) (h : NoHold s [f.a]) (hs : scalarPending s = false)
    (hr : (pnList s.hart c.toNat).length < 64) :
    execPnSend c f s = .next (past (pnSet s c.toNat (pnList s.hart c.toNat ++ [(readX s f.a).truncate 32])) 4) := by
  have hr' : ¬64 ≤ (pnList s.hart c.toNat).length := by omega
  unfold NoHold at h
  unfold execPnSend
  simp only [h, hs, hr', if_false, Bool.false_eq_true]
  rfl

/-- R27, R79: `pn.send` on a full channel traps when the hart's queues are empty. -/
theorem execPnSend_full (c : BitVec 1) (f : OpA) (s : State) (h : NoHold s [f.a]) (hs : scalarPending s = false)
    (hr : 64 ≤ (pnList s.hart c.toNat).length) (hq : queuesEmpty s.hart = true) :
    execPnSend c f s = .next (takeTrap s .pennant (W c.toNat)) := by
  unfold NoHold at h
  unfold execPnSend
  simp only [h, hs, hr, hq, if_true, if_false, Bool.false_eq_true]

/-- R79: a receive takes the oldest pennant of its channel. -/
theorem pnRecv_takes (c : Nat) (f : OpA) (s : State) (v : BitVec 32) (l : List (BitVec 32)) (h : NoHold s [f.d]) (hl : pnList s.hart c = v :: l) :
    pnRecv c f s = .next (completed (pnSet s c l) f.d (v.zeroExtend 64) 4) := by
  unfold NoHold at h
  unfold pnRecv
  simp only [h, hl, if_false, Bool.false_eq_true, advance_writeX]

/-- R27, R79: a receive of an empty channel traps when the hart's queues are empty. -/
theorem pnRecv_empty (c : Nat) (f : OpA) (s : State) (h : NoHold s [f.d]) (hl : pnList s.hart c = []) (hq : queuesEmpty s.hart = true) :
    pnRecv c f s = .next (takeTrap s .pennant (W c)) := by
  unfold NoHold at h
  unfold pnRecv
  simp only [h, hl, hq, if_true, if_false, Bool.false_eq_true]

/-- R79: `pn.cnt` counts the pennants of a channel. -/
theorem execPnCnt_counts (c : BitVec 3) (f : OpA) (s : State) (h : NoHold s [f.d]) :
    execPnCnt c f s = .next (completed s f.d (W (pnList s.hart c.toNat).length) 4) := by
  unfold NoHold at h
  unfold execPnCnt
  simp only [h, if_false, Bool.false_eq_true, advance_writeX]

/-- Settles O16: each instruction by what it does with its channel, once its registers are free. -/
theorem pennantResults : Obligations.PennantResults := by
  unfold Obligations.PennantResults
  refine ⟨fun s f h => ?_, fun s f h hq => ?_⟩ <;>
    have ha : NoHold s [f.a] := h.of_subset (by simp) <;>
    have hd : NoHold s [f.d] := h.of_subset (by simp)
  · exact ⟨fun c => execPnSend_posts c f s ha, fun v l => pnRecv_takes 2 f s v l hd, fun v l => pnRecv_takes 4 f s v l hd,
      fun c => execPnCnt_counts c f s hd⟩
  · exact ⟨fun hl => pnRecv_empty 2 f s hd hl hq, fun hl => pnRecv_empty 4 f s hd hl hq,
      fun c hs hr => execPnSend_full c f s ha hs hr hq⟩

end Sys2Proof.Machine
end

section
/-! SUPPORT. What a stop leaves in the hart (R60, R86, R94): translating and saving a frame touch no hart, so class F and the frame's record are all. -/

namespace Sys2Proof.Machine

/-! ### Translating and saving leave the hart as it is -/

/-- R274: setting A and D changes memory alone. -/
theorem setAD_hart (s : State) (a : Nat) (acc : Acc) : (setAD s a acc).hart = s.hart := by
  unfold setAD
  dsimp only
  split <;> rfl

theorem grantLeaf_hart (s : State) (p : Nat) (va : Word) (acc : Acc) (h : Hit) : (grantLeaf s p va acc h).1.hart = s.hart := by
  unfold grantLeaf
  split
  · rfl
  · split
    · rfl
    · dsimp only
      split
      · rfl
      · exact setAD_hart _ _ _

theorem grant_hart (s : State) (p : Nat) (va : Word) (acc : Acc) (h : Hit) : (grant s p va acc h).1.hart = s.hart := by
  unfold grant
  split
  · exact grantLeaf_hart _ _ _ _ _
  · split
    · exact grantLeaf_hart _ _ _ _ _
    · rfl

/-- R269: a translation leaves the hart as it is. -/
theorem translate_hart (s : State) (p : Nat) (va : Word) (acc : Acc) : (translate s p va acc).1.hart = s.hart := by
  unfold translate
  split
  · exact grant_hart _ _ _ _ _
  · rfl

/-- R94: the walk over the pages of a frame leaves the hart as it is. -/
theorem frameWalk_hart (fuel : Nat) : ∀ (s : State) (va : Word) (n : Nat), (frameWalk s fuel va n).1.hart = s.hart := by
  induction fuel with
  | zero => intro s va n; rfl
  | succ fuel ih =>
    intro s va n
    have hload := translate_hart s s.hart.pasid va .load
    unfold frameWalk
    split
    · rename_i e; rw [e] at hload; exact hload
    · rename_i e; rw [e] at hload; exact hload
    · rename_i t _ e
      rw [e] at hload
      have hstore := translate_hart t t.hart.pasid va .store
      split
      · rename_i e2; rw [e2] at hstore; exact hstore.trans hload
      · rename_i e2; rw [e2] at hstore; exact hstore.trans hload
      · rename_i e2
        rw [e2] at hstore
        split
        · exact hstore.trans hload
        · exact (ih _ _ _).trans (hstore.trans hload)

theorem foldl_store_hart {β : Type} (f : State → β → PStore) (l : List β) :
    ∀ s : State, (l.foldl (fun s c => applyStore s (f s c)) s).hart = s.hart := by
  induction l with
  | nil => intro s; rfl
  | cons c l ih => intro s; exact (ih _).trans (applyStore_hart _ _)

/-- R94: writing a part of a frame leaves the hart as it is. -/
theorem frameWrite_hart (s : State) (va : Word) (n v : Nat) : (frameWrite s va n v).hart = s.hart := by
  have h := translate_hart s s.hart.pasid va .store
  unfold frameWrite
  split
  · rename_i e; rw [e] at h; exact (foldl_store_hart _ _ _).trans h
  · rename_i e; rw [e] at h; exact h

/-- A hart with the stop record, the copy of its partition and the dirty maps of another: what a stop writes beside class F (R94, R96). -/
def withFrame (h r : Hart) : Hart :=
  { h with stop := r.stop, spad := r.spad, vdirty := r.vdirty, sdirty := r.sdirty, mdirty := r.mdirty }

/-- R94, R96: saving a frame leaves a stop record, the copy of the partition and the dirty maps, and the rest of the hart as it is. -/
theorem saveFrame_hart (s : State) (p : Stop) :
    (saveFrame s p).hart = withFrame s.hart (saveFrame s p).hart ∧ (saveFrame s p).hart.stop.isSome = true := by
  have h := frameWalk_hart 2048 s p.frame (framesz s)
  unfold saveFrame
  dsimp only
  split
  · rename_i e
    rw [e] at h
    exact ⟨by rw [← h]; rfl, rfl⟩
  · rename_i e
    rw [e] at h
    exact ⟨by rw [← h]; rfl, rfl⟩
  · rename_i u e
    rw [e] at h
    have hw := (frameWrite_hart u p.frame 256 (headerOf u.hart p (vrlen u) (framesz s))).trans h
    generalize frameWrite u p.frame 256 (headerOf u.hart p (vrlen u) (framesz s)) = w at hw ⊢
    exact ⟨by rw [← hw]; rfl, rfl⟩

/-! ### What a stop leaves in the hart (R56, R60, R86, R89) -/

/-- The hart of a state that stops for the condition `t`, before its frame is saved: class F is written, nothing waits, and `vstart` is `vs`. -/
def stopClass (h : Hart) (t : Trap) (epc : Word) (member vs : Nat) : Hart :=
  { h with
    run := if t.cause = .halt then .halted else .stopped, park := none, again := false,
    cause := BitVec.ofNat 8 t.cause.code, epc := epc, tval := t.tval, member := BitVec.ofNat 2 member,
    origin := originAt h epc, vstart := vs, vwait := none, await := none,
    pins := if t.cause = .preempt ∨ t.cause = .repartition then [] else h.pins }

/-- R60, R86, R92: taking a stop leaves class F and the frame's record; of the vector queue it takes back what had begun, at once or, when the save waits for
the head convoy to be cut, with the save. -/
theorem takeStop_hart (s : State) (q : Queue) (t : Trap) (epc rpc : Word) (member vs vl : Nat) (vt : BitVec 14) :
    ∃ h, (h = s.hart ∨ h = uncommit s.hart) ∧
      (takeStop s q t epc rpc member vs vl vt).hart =
        withFrame (stopClass h t epc member vs) (takeStop s q t epc rpc member vs vl vt).hart ∧
      (takeStop s q t epc rpc member vs vl vt).hart.stop.isSome = true := by
  unfold takeStop
  dsimp only
  generalize ((s.hart.complete.any fun u => u.1 == 0) && (q == .sequencer || q == .access)) = late
  have hl : (if late then s.hart else uncommit s.hart) = s.hart ∨ (if late then s.hart else uncommit s.hart) = uncommit s.hart := by
    cases late
    · exact .inr rfl
    · exact .inl rfl
  generalize (if late then s.hart else uncommit s.hart) = h at hl ⊢
  have ho : originAt h epc = originAt s.hart epc := by rcases hl with rfl | rfl <;> rfl
  have hp : h.pins = s.hart.pins := by rcases hl with rfl | rfl <;> rfl
  refine ⟨h, hl, ?_⟩
  rw [stopClass, ho, hp]
  split
  · exact ⟨rfl, rfl⟩
  · split
    · exact ⟨rfl, rfl⟩
    · exact saveFrame_hart _ _

/-- R86, R60: a stop other than HALT stops the hart with its condition charged, its registers and its place as they were. -/
theorem takeStop_stoppedWith (s : State) (q : Queue) (t : Trap) (epc rpc : Word) (member vs vl : Nat) (vt : BitVec 14) (hc : t.cause ≠ .halt) :
    StoppedWith (takeStop s q t epc rpc member vs vl vt) t.cause.code epc t.tval member := by
  obtain ⟨h, -, hh, hs⟩ := takeStop_hart s q t epc rpc member vs vl vt
  exact ⟨by rw [hh]; exact if_neg hc, by rw [hh]; rfl, by rw [hh]; rfl, by rw [hh]; rfl, by rw [hh]; rfl, hs⟩

/-- R60: what a stop leaves as it is. -/
theorem takeStop_keeps (s : State) (q : Queue) (t : Trap) (epc rpc : Word) (member vs vl : Nat) (vt : BitVec 14) :
    let u := takeStop s q t epc rpc member vs vl vt
    u.hart.v = s.hart.v ∧ u.hart.x = s.hart.x ∧ u.hart.pc = s.hart.pc ∧ u.hart.vstart = vs ∧ (uncommit u.hart).vq = (uncommit s.hart).vq := by
  obtain ⟨h, hl, hh, -⟩ := takeStop_hart s q t epc rpc member vs vl vt
  have hu : (uncommit (uncommit s.hart)).vq = (uncommit s.hart).vq := by
    unfold uncommit
    cases s.hart.vq <;> rfl
  dsimp only
  rw [hh]
  rcases hl with rfl | rfl
  · exact ⟨rfl, rfl, rfl, rfl, rfl⟩
  · exact ⟨rfl, rfl, rfl, rfl, hu⟩

end Sys2Proof.Machine
end

section
/-! SUPPORT. The three ways in which the convoy at the head of the vector queue can go (R53, R90, R91), and a ready instruction as that convoy. -/

namespace Sys2Proof.Machine

/-! ### Performing the convoy at the head (R53, R90, R91) -/

/-- R170: making earlier stores visible leaves the hart as it is, but for its store queue. -/
theorem settleEarlier_hart (s : State) (c : Convoy) :
    (settleEarlier s c).hart = { s.hart with storeQ := (settleEarlier s c).hart.storeQ } := by
  unfold settleEarlier
  split
  · rw [drainAll_hart]
  · rfl

/-- The state in which the members of the head convoy begin. -/
def begunHead (s : State) (c : Convoy) : State := beginConvoy (settleEarlier s c) c

/-- The state that the members of the head convoy leave. -/
def ranHead (s : State) (c : Convoy) (ms : List Member) : State := runMembers (settleCompare (begunHead s c) ms) ms

section
variable {ms : List Member} {s : State} {c : Convoy} {rest : List Convoy} (hq : s.hart.vq = c :: rest)
include hq

/-- R91: a whole convoy that is not resumed at its start stops with ILLEGAL. -/
theorem runConvoy_whole (hw : (ms.any fun m => m.whole) = true) (hv : s.hart.vstart ≠ 0) :
    ∃ u vl vt, u.hart = { (settleEarlier s c).hart with vq := u.hart.vq } ∧ runConvoy ms s =
      takeStop u .vector ⟨.illegal, W ((c.members.head?.map encode).getD 0)⟩ c.addr s.hart.pc 0 s.hart.vstart vl vt := by
  have hs := settleEarlier_hart s c
  have hvs : (settleEarlier s c).hart.vstart = s.hart.vstart := by rw [hs]
  have hpc : (settleEarlier s c).hart.pc = s.hart.pc := by rw [hs]
  unfold runConvoy
  simp only [hq, hw, hvs, hpc, bne_iff_ne, ne_eq, hv, not_false_eq_true, if_true, Bool.true_and]
  exact ⟨_, _, _, rfl, rfl⟩

variable (hv : (ms.any fun m => m.whole) = true → s.hart.vstart = 0)
include hv

/-- The convoy is performed: what decides is the condition that its members have found and the wait. -/
theorem runConvoy_eq :
    runConvoy ms s =
      let u := settleEarlier s c
      let r := ranHead s c ms
      let stop (q : State) : State :=
        match q.hart.cur.fault with
        | some (k, j, t) => stopConvoy (keepWalked u (r.hart.cur.walked ++ q.hart.cur.walked)) c ms k j t q.hart.cur.taken q.hart.pennants q.hart.cur.blame
        | none => keepHead u q c
      match r.hart.cur.fault with
      | some (k, _, _) =>
        if r.hart.cur.wait.isSome && decide (s.hart.vstart < k) then ((faultBelow (begunHead s c) ms r).map stop).getD (keepHead u r c) else stop r
      | none =>
        if r.hart.cur.wait.isSome then stop ((faultBelow (begunHead s c) ms r).getD r) else retire u r c.members.length := by
  have hvs : (settleEarlier s c).hart.vstart = s.hart.vstart := by rw [settleEarlier_hart]
  have hwh : ((ms.any fun m => m.whole) && s.hart.vstart != 0) = false := by
    cases h : ms.any fun m => m.whole
    · rfl
    · simp [hv h]
  unfold runConvoy
  simp only [hq, hvs, hwh, Bool.false_eq_true, if_false]
  rfl

/-- R53: with no condition and no wait the convoy retires. -/
theorem runConvoy_retires (hf : (ranHead s c ms).hart.cur.fault = none) (hw : (ranHead s c ms).hart.cur.wait = none) :
    runConvoy ms s = retire (settleEarlier s c) (ranHead s c ms) c.members.length := by
  rw [runConvoy_eq hq hv]
  simp only [hf, hw, Option.isSome_none, Bool.false_eq_true, if_false]

/-- R90: while a member waits, and no condition lies below the element that waits, the convoy keeps its place. -/
theorem runConvoy_waits (hw : (ranHead s c ms).hart.cur.wait ≠ none)
    (hf : ∀ k j t, (ranHead s c ms).hart.cur.fault = some (k, j, t) → s.hart.vstart < k)
    (hb : ∀ q, faultBelow (begunHead s c) ms (ranHead s c ms) ≠ some q) :
    runConvoy ms s = keepHead (settleEarlier s c) (ranHead s c ms) c := by
  have hn : faultBelow (begunHead s c) ms (ranHead s c ms) = none := Option.eq_none_iff_forall_ne_some.mpr hb
  have hi : (ranHead s c ms).hart.cur.wait.isSome = true := Option.isSome_iff_ne_none.mpr hw
  rw [runConvoy_eq hq hv]
  simp only [hn, hi, if_true, Bool.true_and, Option.map_none, Option.getD_none]
  split
  · rename_i k j t e
    rw [if_pos (decide_eq_true (hf k j t e))]
  · rfl

/-- R90: a condition with no wait stops the convoy. -/
theorem runConvoy_stops {k j : Nat} {t : Trap} (hf : (ranHead s c ms).hart.cur.fault = some (k, j, t)) (hw : (ranHead s c ms).hart.cur.wait = none) :
    runConvoy ms s = stopConvoy (keepWalked (settleEarlier s c) ((ranHead s c ms).hart.cur.walked ++ (ranHead s c ms).hart.cur.walked)) c ms k j t
      (ranHead s c ms).hart.cur.taken (ranHead s c ms).hart.pennants (ranHead s c ms).hart.cur.blame := by
  rw [runConvoy_eq hq hv]
  simp only [hf, hw, Option.isSome_none, Bool.false_and, Bool.false_eq_true, if_false]

end

/-- R104, R255: zeroing registers leaves what the convoy runs in. -/
theorem zeroRegs_cur (s : State) (l : List Nat) : (zeroRegs s l).hart.cur = s.hart.cur :=
  List.foldlRecOn (motive := fun t : State => t.hart.cur = s.hart.cur) l _ rfl fun _ h _ _ => h

/-- R53: the length of the convoy that has retired is that of the hart. -/
theorem retire_vl (u r : State) (n : Nat) : (retire u r n).hart.vl = r.hart.cur.vl := by
  unfold retire
  dsimp only
  split
  · rw [zeroRegs_cur]
  · rfl

/-! ### A ready instruction as a convoy of its own -/

/-- R19, R20: an instruction that can be posted into an empty queue is performed as the convoy at its head. -/
theorem solo_performs (i : Instr) (m : Member) (s : State) (hq : s.hart.vq = []) (hp : postWait s [i] = none) (hc : m.check (dctx s) = none) :
    solo i m s = .next (runConvoy [m] (posted s i)) := by
  unfold solo
  simp only [hc, hp, hq]
  rfl

/-- An instruction that is ready runs its one member as it is. -/
theorem Ready.ranHead {i : Instr} {m : Member} {s : State} (h : Ready i m s) : ranHead (posted s i) (mkConvoy s [i]) [m] = ranOne s i m := by
  obtain ⟨-, -, hb, hu, ht, -, -⟩ := h
  have hun : (begun s i).hart.unverified = [] := by rw [begun_settled s i hu, settled_hart]; exact ht
  change runMembers (settleCompare (begun s i) [m]) [m] = _
  rw [settleCompare_none _ _ hun]
  exact runMembers_one _ _ (by rw [begun_settled s i hu]) (by rw [begun_binds s i hu, hb]) (by rw [begun_settled s i hu])
    (by rw [begun_settled s i hu]) hun

/-- R91: a whole member that is ready begins at element 0. -/
theorem Ready.vstart {i : Instr} {m : Member} {s : State} (h : Ready i m s) : ([m].any fun m => m.whole) = true → (posted s i).hart.vstart = 0 := by
  obtain ⟨-, -, -, -, -, -, hv⟩ := h
  intro hw
  exact hv (by simpa using hw)

theorem Ready.exec {i : Instr} {m : Member} {s : State} (hm : memberOf i = some m) (h : Ready i m s) :
    exec i s = .next (runConvoy [m] (posted s i)) := by
  obtain ⟨hq, hp, -, -, -, hc, -⟩ := h
  rw [exec_member i m s hm, solo_performs i m s hq hp hc]

/-- Settles O28: of the three ways in which the convoy at the head can go, its condition and its wait choose one. -/
theorem convoyOfOne : Obligations.ConvoyOfOne := by
  unfold Obligations.ConvoyOfOne
  intro i m s hm hr
  have hq := posted_vq s i hr.1
  refine ⟨fun hf hw => ⟨?_, rfl, ?_⟩, fun hw hf hb => ?_, fun k j t hf hw => ?_⟩
  · rw [hr.exec hm, runConvoy_retires hq hr.vstart (by rw [hr.ranHead]; exact hf) (by rw [hr.ranHead]; exact hw), hr.ranHead]
    rfl
  · rw [retire_vl]; rfl
  · have hnone : ∀ q, faultBelow (begun s i) [m] (ranOne s i m) ≠ some q := fun q e => by rw [hb] at e; cases e
    rw [hr.exec hm, runConvoy_waits hq hr.vstart (by rw [hr.ranHead]; exact hw) (by rw [hr.ranHead]; exact hf) (by rw [hr.ranHead]; exact hnone), hr.ranHead]
    rfl
  · rw [hr.exec hm, runConvoy_stops hq hr.vstart (by rw [hr.ranHead]; exact hf) (by rw [hr.ranHead]; exact hw), hr.ranHead]
    rfl

end Sys2Proof.Machine
end

section
/-! SUPPORT. A commit that waits releases nothing more (R298), whatever slot it is asked for. -/

namespace Sys2Proof.Machine

/-! ### A commit that waits -/

/-- R184: with no store released since, no granule is marked. -/
theorem markWhole_self (s : State) : markWhole s.hart.storeQ.length s = s := by
  unfold markWhole
  simp only [List.drop_length, List.take_length, List.foldr_nil, List.append_nil]

/-- R238: a member that waits already stores nothing. -/
theorem putImage_waiting (s : State) (va : Word) (v n : Nat) (hw : s.hart.cur.wait = some none) : putImage s va v n = s := by
  unfold putImage
  rw [forUp_induct (P := (· = s)) (fun i t ht => ?_) rfl]
  · exact markWhole_self s
  · subst ht
    dsimp only
    rw [hw, Option.isNone_some, Bool.and_false, if_neg Bool.false_ne_true]

/-- A member that waits at its first element waits there already. -/
theorem mustWait_waiting (s : State) (hw : s.hart.cur.wait = some none) (he : s.hart.cur.waitAt = s.hart.cur.vstart) : mustWait s none = s := by
  unfold mustWait waitAtEl
  rw [← hw, ← he]

/-- R298: with a member that waits already, an image releases nothing, and the commit waits as before. -/
theorem commitImage_waiting (f : OpSM) (m : Summary) (k : Nat × Nat) (s : State) (hw : s.hart.cur.wait = some none)
    (he : s.hart.cur.waitAt = s.hart.cur.vstart) : commitImage f m k s = s := by
  unfold commitImage
  dsimp only
  rw [putImage_waiting _ _ _ _ hw, hw, Option.isSome_some, if_pos rfl, mustWait_waiting _ hw he]

/-- R298: once its image has been released, a commit waits at its first element. -/
theorem commitImage_wait (f : OpSM) (m : Summary) (k : Nat × Nat) (s : State) :
    (commitImage f m k s).hart.cur.wait = some none ∧
      (commitImage f m k s).hart.cur.waitAt = (commitImage f m k s).hart.cur.vstart := by
  unfold commitImage
  dsimp only
  split <;> exact ⟨rfl, rfl⟩

/-- A commit that gives its image gives, of the state it leaves, every slot and sequence number. -/
theorem commitImage_every (f : OpSM) (m : Summary) (k : Nat × Nat) (s : State) :
    commitImage f m k (commitImage f m (0, 0) s) = commitImage f m (0, 0) s :=
  have ⟨hw, he⟩ := commitImage_wait f m (0, 0) s
  commitImage_waiting f m k _ hw he

/-- Refutes O47: its clause on SCMT_IMAGE_WRITE lets `commitImage f m k u` be of any slot and sequence number `k`, in any state `u` that gives what the
commit's member gives. Of the concrete commit `committing 0` the state that its image leaves is such a `u` for every `k`, since a commit
that waits releases nothing more; so the head convoy would hold (0, 0) and (1, 0) at once. -/
theorem not_vectorQueueSteps : ¬ Obligations.VectorQueueSteps := by
  unfold Obligations.VectorQueueSteps
  intro h
  have hrun := committing_image
  obtain ⟨-, -, -, -, -, -, -, hwitness, -⟩ := witness_VectorQueueSteps
  obtain ⟨hq, hstate, hrole, hmembers, hbinds, hhurt, hvstart, hphase, -, hfault, hnew, -⟩ := hwitness
  have every := fun k => commitImage_every osm (emptySum 1 cmsP 0) k (beginConvoy (committing 0) (headOf (committing 0)))
  obtain ⟨-, -, -, -, -, -, -, -, -, -, -, hcommit, -⟩ := h (committing 0) (headOf (committing 0)) [] 0 hq hstate
  have held (k : Nat × Nat) : ∃ t c', exec .scmtImageWrite (committing 0) = .next t ∧ t.hart.vq = [c'] ∧ c'.commit = k := by
    obtain ⟨himage, -⟩ := hcommit osm (emptySum 1 cmsP 0) k _ hmembers hbinds hhurt rfl rfl hvstart hrole
    obtain ⟨t, c', ht, hvq, -, hk, -⟩ := himage hphase (hrun.trans (every k).symm) ((every k).symm ▸ hfault) ((every k).symm ▸ hnew)
    exact ⟨t, c', ht, hvq, hk⟩
  obtain ⟨t, c, ht, hc, hk⟩ := held (0, 0)
  obtain ⟨t1, c1, ht1, hc1, hk1⟩ := held (1, 0)
  cases ht.symm.trans ht1
  cases hc.symm.trans hc1
  exact absurd (hk.symm.trans hk1) (by decide)

end Sys2Proof.Machine
end

section
/-! SUPPORT. Decode conditions, and a whole member that is not resumed at its start (R90, R91, R105). -/

namespace Sys2Proof.Machine

/-! ### Decode conditions (R90, R105, R120) -/

/-- R90: a member that fails its decode check traps with the instruction. -/
theorem exec_of_check {i : Instr} {m : Member} {s : State} {c : Cause} (hm : memberOf i = some m) (hc : m.check (dctx s) = some c) :
    exec i s = .next (takeTrap s c (W (encode i))) := by
  rw [exec_member i m s hm]
  unfold solo
  simp only [hc]

/-- Of a list of instructions that check the element width alone, each traps ILLEGAL at a width that the list does not hold. -/
theorem exec_of_needEw {l : List Instr} {ews : List Nat} {s : State}
    (hl : (l.map fun i => (memberOf i).map Member.check) = l.map fun _ => some (needEw ews)) (hew : (dctx s).ew ∉ ews) {i : Instr} (hi : i ∈ l) :
    exec i s = .next (takeTrap s .illegal (W (encode i))) := by
  obtain ⟨m, hm, hc⟩ := Option.map_eq_some_iff.mp (List.map_inj_left.mp hl i hi)
  refine exec_of_check hm ?_
  rw [hc, needEw, if_neg (by simpa using hew)]

/-- R91: a whole member that is reached with `vstart` ≠ 0 stops the vector queue, with its instruction and its address, before it has done anything. -/
theorem exec_whole {i : Instr} {m : Member} {s : State} (hm : memberOf i = some m) (hq : s.hart.vq = []) (hp : postWait s [i] = none)
    (hc : m.check (dctx s) = none) (hw : m.whole = true) (hv : s.hart.vstart ≠ 0) :
    ∃ u vl vt, u.hart.v = s.hart.v ∧ u.hart.x = s.hart.x ∧
      exec i s = .next (takeStop u .vector ⟨.illegal, W (encode i)⟩ s.hart.pc (posted s i).hart.pc 0 s.hart.vstart vl vt) := by
  obtain ⟨u, vl, vt, hu, he⟩ := runConvoy_whole (ms := [m]) (posted_vq s i hq) (by simpa using hw) hv
  have hs : (settleEarlier (posted s i) (mkConvoy s [i])).hart = _ := settleEarlier_hart (posted s i) _
  refine ⟨u, vl, vt, ?_, ?_, ?_⟩
  · rw [hu, hs]; rfl
  · rw [hu, hs]; rfl
  · rw [exec_member i m s hm, solo_performs i m s hq hp hc, he]
    rfl

/-- Settles O29: the integer and the floating-point members check the element width alone. -/
theorem memberConditions : Obligations.MemberConditions := by
  unfold Obligations.MemberConditions
  refine fun s => ⟨fun i m c => exec_of_check, fun f h i => exec_of_needEw (ews := ewInt) rfl ?_, fun f h i => exec_of_needEw (ews := ewFp) rfl ?_,
    fun i m hm hq hp hc hw hv => ?_⟩
  · simp only [ewInt, List.mem_cons, List.not_mem_nil, or_false]
    omega
  · simp only [ewFp, List.mem_cons, List.not_mem_nil, or_false]
    omega
  · obtain ⟨u, vl, vt, huv, hux, he⟩ := exec_whole hm hq hp hc hw hv
    obtain ⟨hrun, hcause, hepc, htval, hmember, -⟩ :=
      takeStop_stoppedWith u .vector ⟨.illegal, W (encode i)⟩ s.hart.pc (posted s i).hart.pc 0 s.hart.vstart vl vt nofun
    obtain ⟨hv', hx', -, hvs, -⟩ := takeStop_keeps u .vector ⟨.illegal, W (encode i)⟩ s.hart.pc (posted s i).hart.pc 0 s.hart.vstart vl vt
    exact ⟨_, he, hrun, hcause, hepc, htval, hmember, hvs, hv'.trans huv, hx'.trans hux⟩

end Sys2Proof.Machine
end

section
/-! SUPPORT. Posting a convoy, and the precise trap of its first condition (R19, R20, R49). -/

namespace Sys2Proof.Machine

/-! ### Posting a convoy (R19, R20, R49) -/

/-- R49: a member's trap is precise: the head convoy is taken back, and the registers and the program counter stand. -/
theorem memberTrap_precise (s : State) (t : Trap) (j : Nat) (hc : t.cause ≠ .halt) :
    StoppedWith (memberTrap s t j) t.cause.code s.hart.pc t.tval j ∧ (uncommit (memberTrap s t j).hart).vq = (uncommit s.hart).vq ∧
      (memberTrap s t j).hart.v = s.hart.v ∧ (memberTrap s t j).hart.x = s.hart.x ∧ (memberTrap s t j).hart.pc = s.hart.pc := by
  obtain ⟨hv, hx, hpc, -, hq⟩ := takeStop_keeps s .sequencer t s.hart.pc s.hart.pc j s.hart.vstart 0 0
  exact ⟨takeStop_stoppedWith _ _ _ _ _ _ _ _ _ hc, hq, hv, hx, hpc⟩

section
variable {s u : State} {l : List Got} {other : Bool} (hr : s.hart.run = .running) (hg : gather s s.hart.pc 4 = (u, l, other))
include hr hg

/-- R49: the first condition of a gathered convoy traps. -/
theorem execConvoyPost_traps {tr : Trap} {j : Nat} (hp : firstCondition (dctx s) (gotInstrs l).head? other 0 l = some (tr, j)) :
    execConvoyPost s = .next (memberTrap s tr j) := by
  unfold execConvoyPost
  simp only [hr, hg, hp, ne_eq, not_true_eq_false, if_false]

variable (hp : firstCondition (dctx s) (gotInstrs l).head? other 0 l = none) (hs : gotStall l = false) (hi : gotInstrs l ≠ [])
include hp hs hi

/-- R20: what keeps the sequencer from posting parks it. -/
theorem execConvoyPost_parks {why : Park} (hw : postWait s (gotInstrs l) = some why) : execConvoyPost s = .next (parked s why) := by
  unfold execConvoyPost
  simp only [hr, hg, hp, hs, hw, List.isEmpty_eq_false_iff.mpr hi, ne_eq, not_true_eq_false, if_false, Bool.false_eq_true]
  rfl

/-- R19, R20: a convoy without a condition is posted, and performed when it is alone in the queue. -/
theorem execConvoyPost_posts (hw : postWait s (gotInstrs l) = none) :
    execConvoyPost s = .next (if s.hart.vq.isEmpty then headTurn (postConvoy u (gotInstrs l) (gotBytes l)) else
      postConvoy u (gotInstrs l) (gotBytes l)) := by
  unfold execConvoyPost
  simp only [hr, hg, hp, hs, hw, List.isEmpty_eq_false_iff.mpr hi, ne_eq, not_true_eq_false, if_false, Bool.false_eq_true]

end

/-- R47: a pattern that is not an instruction traps. -/
theorem execIllegalInstruction_traps {s : State} (hr : s.hart.run = .running) (enc : Word) (m : BitVec 2) :
    execIllegalInstruction enc m s = .next (memberTrap s ⟨.illegal, enc⟩ m.toNat) := by
  unfold execIllegalInstruction
  rw [if_neg (by simp [hr])]

/-- Settles O46: CONVOY_POST traps the first condition, waits, or posts, as the gathered members decide. -/
theorem convoySteps : Obligations.ConvoySteps := by
  unfold Obligations.ConvoySteps
  intro s u l other hr hg
  refine ⟨fun tr j hp hc => ?_, fun why hp hs hi hw => ?_, fun hp hs hi hw => ⟨fun hq => ?_, fun hq => ?_⟩, fun enc m => ?_⟩
  · exact ⟨_, execConvoyPost_traps hr hg hp, memberTrap_precise s tr j hc⟩
  · exact execConvoyPost_parks hr hg hp hs hi hw
  · refine ⟨_, mkConvoy u (gotInstrs l), execConvoyPost_posts hr hg hp hs hi hw, ?_⟩
    rw [if_neg (by simpa using hq)]
    exact ⟨rfl, rfl, rfl, rfl, rfl, rfl, rfl, rfl, rfl⟩
  · refine (execConvoyPost_posts hr hg hp hs hi hw).trans ?_
    rw [hq, List.isEmpty_nil, if_pos rfl]
  · exact ⟨_, execIllegalInstruction_traps hr enc m, memberTrap_precise s _ _ nofun⟩

end Sys2Proof.Machine
end

section
/-! SUPPORT. How each kind of entry of the access queue starts (R23, R247 to R267). -/

namespace Sys2Proof.Machine

/-! ### An operation that every hart leaves as it is -/

/-- The machine with other harts, the first of them in focus. -/
def withHarts (s : State) : List Hart → State
  | [] => s
  | h :: l => { s with hart := h, others := l }

theorem rotate_withHarts (s : State) (h : Hart) (l : List Hart) : rotate (withHarts s (h :: l)) = withHarts s ((h :: l).rotate 1) := by
  rw [List.rotate_cons_succ, List.rotate_zero]
  cases l <;> rfl

/-- What no hart of the machine is changed by changes nothing when it is done for each. -/
theorem eachHart_eq_self {P : Hart → Prop} {f : State → State} (hf : ∀ t : State, P t.hart → f t = t) {s : State} (hs : ∀ h ∈ harts s, P h) :
    eachHart s f = s := by
  have turns (k : Nat) : (List.range k).foldl (fun s _ => rotate (f s)) s = withHarts s ((harts s).rotate k) := by
    induction k with
    | zero => rw [List.rotate_zero]; rfl
    | succ k ih =>
      rw [List.range_succ, List.foldl_append, ih, ← List.rotate_rotate]
      have hne : ((harts s).rotate k) ≠ [] := by simp [harts]
      obtain ⟨h, l, hl⟩ := List.exists_cons_of_ne_nil hne
      have hp : P h := hs h (List.mem_rotate.mp (hl ▸ List.mem_cons_self))
      rw [hl, ← rotate_withHarts]
      exact congrArg rotate (hf (withHarts s (h :: l)) hp)
  unfold eachHart
  rw [turns]
  change withHarts s ((harts s).rotate (harts s).length) = s
  rw [List.rotate_length]
  rfl

/-- R169: with no store in the range, none is performed. -/
theorem drainWhere_of_none {p : Nat → Bool} {s : State} (h : ∀ st ∈ s.hart.storeQ, p st.key = false) : drainWhere p s = s := by
  have hf : (s.hart.storeQ.filter fun st => p st.key) = [] := List.filter_eq_nil_iff.mpr fun st hst => by rw [h st hst]; exact Bool.false_ne_true
  unfold drainWhere
  rw [hf]
  rfl

/-- R178: with no combining entry, none retires. -/
theorem retireWhere_of_empty {s : State} (h : s.combining = []) (p : Combine → Bool) : retireWhere s p = s := by
  unfold retireWhere
  simp only [h, List.filter_nil, List.foldl_nil]
  rw [← h]

/-- A cleared range reads zero, whatever the list of cells. -/
theorem Memory.read_clear_inside {lo n k : Nat} (h1 : lo ≤ k) (h2 : k < lo + n) (m : List Host.Cell) : Memory.read (Memory.clear m lo n) k = 0 := by
  induction m with
  | nil => rfl
  | cons c m ih =>
    unfold Memory.clear at ih ⊢
    rw [List.filter_cons]
    split
    · rename_i hc
      have hk : k ≠ c.1 := by
        rintro rfl
        simp [h1, h2] at hc
      unfold Memory.read
      rw [if_neg hk]
      split
      · rfl
      · exact ih
    · exact ih

/-! ### Starting an entry of the access queue (R23, R39, R247) -/

theorem roleFor_ofRole {s : State} {a : Word} (h : ofRole s.hart a = true) : roleFor s a = s := if_pos h

/-- R23: the next entry starts with what its kind does. -/
theorem issue_starts {s t : State} {i : Nat} {e : AqEntry} (h : NextEntry s i e) (hs : startEntry s i e = .go t) :
    exec .accessEntryIssue s = .next (unitEnds i t) := by
  obtain ⟨hr, hi, he, htake, hrole, hacq⟩ := h
  have hmove : moveStart s = some (unitEnds i t) := by
    unfold moveStart
    simp only [hi, he, roleFor_ofRole hrole, hacq, Bool.false_eq_true, if_false]
    split
    · rename_i hc hn
      rcases htake with h | h
      · rw [h] at hc; cases hc
      · rw [hn] at h; cases h
    · rw [hs]; rfl
  change execAccessEntryIssue s = _
  unfold execAccessEntryIssue
  rw [if_neg (by simp [hr]), hmove]
  rfl

/-- R39: an entry that takes a pennant starts once it has it. -/
theorem issue_takes {s w : State} {i c : Nat} {e : AqEntry} {p : BitVec 32} {l : List (BitVec 32)} (hr : s.hart.run = .running)
    (hi : s.hart.aq.findIdx? isFresh = some i) (he : s.hart.aq[i]? = some e) (hc : takeOf e = some c) (hn : e.taken = none)
    (hp : pnList s.hart c = p :: l) (hrole : ofRole s.hart e.addr = true) (hacq : acquireIn (s.hart.vq.take e.vqAhead) = false)
    (hs : startEntry (setEntry (pnSet s c l) i { e with taken := some p }) i { e with taken := some p } = .go w) :
    exec .accessEntryIssue s = .next (unitEnds i w) := by
  have hmove : moveStart s = some (unitEnds i w) := by
    unfold moveStart
    simp only [hi, he, roleFor_ofRole hrole, hacq, Bool.false_eq_true, if_false, hc, hn, hp, hs]
    rfl
  change execAccessEntryIssue s = _
  unfold execAccessEntryIssue
  rw [if_neg (by simp [hr]), hmove]
  rfl

section
variable {s u : State} {i : Nat} {e : AqEntry} {f : OpAC}

/-- R250: `ast.open` opens the record under the lowest free handle. -/
theorem startOpen_opens {v h : Nat} {r : Stream} (hread : aqRead s (entryX e f.a) 64 64 = (u, .ok v)) (hrec : recordOf u (entryX e f.a) v = some r)
    (hh : freeHandle u = some h) :
    startOpen f s i e = .go (entryDone { u with hart := { u.hart with streams := u.hart.streams ++ [{ r with handle := h }] } } i e (W h) 0 false) := by
  unfold startOpen
  simp only [hread, onRead, hrec, hh]
  rfl

/-- R252: `ar.bind` at the head of the queue adds its binding. -/
theorem startBind_binds {r : Stream} (hi : i = 0) (hr : streamOf s (entryX e f.a).toNat = some r)
    (hb : ∀ x ∈ s.hart.bound, x.1 ≠ f.d.toNat ∧ x.2 ≠ .stream (entryX e f.a).toNat) :
    startBind f s i e =
      .go (entryDone { s with hart := { s.hart with bound := (f.d.toNat, .stream (entryX e f.a).toNat) :: s.hart.bound } } i e 0 0 false) := by
  have hn : (s.hart.bound.any fun b => b.1 == f.d.toNat || b.2 == .stream (entryX e f.a).toNat) = false := by
    rw [List.any_eq_false]
    exact fun x hx => by simpa using hb x hx
  unfold startBind
  simp only [hi, hr, hn, ne_eq, not_true_eq_false, if_false, Bool.false_eq_true]
  rfl

/-- R252: `ar.unbind` ends the binding of its register. -/
theorem startUnbind_unbinds (he : e.early = false) :
    startUnbind f s i e =
      .go (entryDone { s with hart := { s.hart with bound := s.hart.bound.filter fun x => x.1 != f.d.toNat } } i e 0 0 false) := by
  unfold startUnbind
  rw [if_neg (by simp [he])]
  rfl

/-- R249, R258: `ast.run` of a record whose place and reach are as the record says. -/
theorem startRun_runs {r : Stream} {h : Hit} (hr : streamOf s (entryX e f.a).toNat = some r) (hf : r.failed = false)
    (hl : findPlace s r.addr 1 (if r.out then .engineStore else .load) = .ok h) (hk : (placeOf s h.key).bind srckOf = some r.srck)
    (hin : inReach s r.addr h.key r.scope = true) :
    startRun f s i e = if entryX e f.b = 0 then .go (entryDone s i e 0 0 false) else .go (setEntry s i { e with progress := .run 0 0 false }) := by
  unfold startRun
  simp only [hr, hf, hl, hk, hin, Bool.false_eq_true, if_false, ne_eq, not_true_eq_false, Bool.not_true, or_self]
  rfl

/-- R265: a receive waits for its sender. -/
theorem startRecv_waits {v : Nat} {t : Transfer} (hread : aqRead s (entryX e f.a) 32 32 = (u, .ok v)) (hd : descRead v = some t) :
    startRecv f s i e = .go (setEntry u i { e with progress := .transfer t }) := by
  unfold startRecv
  simp only [hread, onRead, hd]

/-- R265: a send begins, or finds its peer failed. -/
theorem startSend_sends {v : Nat} {t : Transfer} (hread : aqRead s (entryX e f.a) 32 32 = (u, .ok v)) (hd : descRead v = some t) :
    startSend f s i e = if (t.peerModule, t.peerHart) ∈ u.peersFailed then .go (entryDone u i e 3 0 false)
      else .go (setEntry u i { e with progress := .send t }) := by
  unfold startSend
  simp only [hread, onRead, hd, List.contains_iff_mem]
  rfl

/-- R267: an `aflip` of an aligned range at the head of the queue that is empty moves nothing. -/
theorem startFlip_empty (hi : i = 0) (ha : (entryX e f.a).toNat % 4096 = 0) (hb : entryX e f.b = 0) :
    startFlip f s i e = .go (entryDone s i e 0 0 false) := by
  unfold startFlip
  simp only [hi, ha, hb, ne_eq, not_true_eq_false, if_false, if_true]
  rfl

/-- R267: an `aflip` of shadow pages that nothing holds exchanges their backings. -/
theorem startFlip_exchanges {h : Hit} {l : List Hit} (hi : i = 0) (ha : (entryX e f.a).toNat % 4096 = 0) (hb : (entryX e f.b).toNat % 4096 = 0)
    (hn : entryX e f.b ≠ 0) (hl : findPlace s (entryX e f.a) 1 .load = .ok h) (hin : inReach s (entryX e f.a) h.key (f.d.toNat % 8) = true)
    (hk : isSpadKey h.key = false) (hp : shadowPages s s.hart.pasid ((entryX e f.b).toNat / 4096) (entryX e f.a) = .ok l)
    (hh : flipHeld s s.hart.pasid (entryX e f.a) (entryX e f.b).toNat l = false) :
    startFlip f s i e = .go (entryDone (exchange s l) i e 0 0 false) := by
  unfold startFlip
  simp only [hi, ha, hb, hn, hl, hin, hk, hp, hh, ne_eq, not_true_eq_false, if_false, Bool.not_true, Bool.false_eq_true]
  rfl

/-- What `acol` makes of an entry once its route table has been read: a collective in progress, and the binding of its window unless it merges. -/
theorem startColl_begins {h v p nstep : Nat} {c : Coll} {list : Word} {t w : State} {steps : List RouteStep} {ps : List (Nat × Nat)}
    (hh : aqRead s (entryX e f.a) 128 64 = (u, .ok h)) (hc : collHeader h f.b.toNat = some (c, nstep, list))
    (hv : aqRead u (entryX e f.a) (128 + 16 * nstep) 64 = (t, .ok v)) (hs : allSome ((fieldsOf (v / 2 ^ 1024) 128 nstep).map (stepRead c)) = some steps)
    (hp : aqRead t list (8 * c.npart) 64 = (w, .ok p)) (hps : allSome ((fieldsOf p 64 c.npart).map partRead) = some ps)
    (hfit : slotsFit w c = true) (hb : c.op ≠ 2 → ∀ x ∈ w.hart.bound, x.1 ≠ f.b.toNat) :
    startColl f s i e = .go (setEntry (if c.op = 2 then w else { w with hart := { w.hart with
      bound := (f.b.toNat, .window (entryX e f.a)) :: w.hart.bound, winFailed := w.hart.winFailed.filter fun t => t != entryX e f.a } }) i
        { e with progress := .coll { c with steps := steps, parts := ps, since := w.time } }) := by
  have hn : (c.op != 2 && w.hart.bound.any fun b => b.1 == f.b.toNat) = false := by
    by_cases h2 : c.op = 2
    · simp [h2]
    · rw [Bool.and_eq_false_iff, List.any_eq_false]
      exact .inr fun x hx => by simpa using hb h2 x hx
  unfold startColl
  simp only [hh, onRead, hc, hv, hs, hp, hps, hfit, hn, Bool.not_true, Bool.or_self, Bool.false_eq_true, if_false]
  split <;> rfl

/-- The record that a handle names is dropped, its ring range is cleared, and its runs are stopped: what `ast.close` leaves when no store and no combining
update is on its way there. -/
theorem startClose_drops {r : Stream} (hr : streamOf s (entryX e f.a).toNat = some r) (he : e.early = false) (hq : s.hart.vq = [])
    (hc : s.combining = [])
    (hst : ∀ h ∈ harts s, ∀ st ∈ h.storeQ, st.key < partKey s + r.rbase ∨ partKey s + r.rbase + r.rbytes ≤ st.key) :
    ∃ (stop : AqEntry → AqEntry) (poison : List Nat), startClose f s i e = .go (entryDone { s with
      hart := { s.hart with streams := s.hart.streams.filter (fun q => q.handle != (entryX e f.a).toNat), aq := s.hart.aq.map stop },
      mem := Memory.clear s.mem (partKey s + r.rbase) r.rbytes, poison := poison } i e 0 0 false) := by
  have hdrain : eachHart s (drainWhere fun a => decide (partKey s + r.rbase ≤ a) && decide (a < partKey s + r.rbase + r.rbytes)) = s := by
    refine eachHart_eq_self (P := fun h => ∀ st ∈ h.storeQ, st.key < partKey s + r.rbase ∨ partKey s + r.rbase + r.rbytes ≤ st.key)
      (fun t ht => drainWhere_of_none fun st hm => ?_) hst
    rcases ht st hm with h | h
    · rw [decide_eq_false (by omega), Bool.false_and]
    · rw [Bool.and_eq_false_iff]; exact .inr (decide_eq_false (by omega))
  unfold startClose
  simp only [hr, he, hq, hdrain, retireWhere_of_empty hc, List.take_nil, List.any_nil, Bool.false_eq_true, if_false]
  exact ⟨_, _, rfl⟩

end

/-- Settles O44: one lemma for each kind of entry, and `issue_starts` for what they share. -/
theorem accessEntryStarts : Obligations.AccessEntryStarts := by
  unfold Obligations.AccessEntryStarts
  intro s u i e f
  refine ⟨fun c p l hr hi he hc hn hp hrole hacq w hs => issue_takes hr hi he hc hn hp hrole hacq hs, fun hnext => ?_⟩
  have go {t : State} (g : State → Nat → AqEntry → Try) (hk : startEntry s i e = g s i e) (hs : g s i e = .go t) :
      exec .accessEntryIssue s = .next (unitEnds i t) := issue_starts hnext (hk.trans hs)
  refine ⟨fun v r h hi hread hrec hh => ?_, fun r hi hr he hq hc hst => ?_, fun r hi h0 hr hb => ?_, fun hi he => ?_, fun r h hi hr hf hl hk hin => ?_,
    fun h c nstep list t v w steps p ps hi hh hc hv hs hp hps hfit => ?_, fun v t hi hread hd => ?_, fun v t hi hread hd => ?_, fun hi h0 ha hb => ?_⟩
  · exact go (startOpen f) (by unfold startEntry; rw [hi]) (startOpen_opens hread hrec hh)
  · obtain ⟨stop, poison, hclose⟩ := startClose_drops (i := i) hr he hq hc hst
    refine ⟨_, { e with progress := .done 0 0 false }, go (startClose f) (by unfold startEntry; rw [hi]) hclose, rfl, ?_, rfl, fun k h1 h2 => ?_,
      fun hm k hk => ?_⟩
    · obtain ⟨-, -, hentry, -⟩ := hnext
      obtain ⟨hlt, -⟩ := List.getElem?_eq_some_iff.mp hentry
      exact List.getElem?_set_self (by simpa using hlt)
    · exact Memory.read_clear_inside h1 h2 s.mem
    · refine (Memory.read_clear hm.1 _ _ k).trans (if_neg ?_)
      omega
  · exact go (startBind f) (by unfold startEntry; rw [hi]) (startBind_binds h0 hr hb)
  · exact go (startUnbind f) (by unfold startEntry; rw [hi]) (startUnbind_unbinds he)
  · have hrun := startRun_runs (i := i) (e := e) hr hf hl hk hin
    exact ⟨fun hb => go (startRun f) (by unfold startEntry; rw [hi]) (hrun.trans (if_pos hb)),
      fun hb => go (startRun f) (by unfold startEntry; rw [hi]) (hrun.trans (if_neg hb))⟩
  · refine ⟨fun h2 => ?_, fun h2 hb => ?_⟩
    · have hcoll := startColl_begins (i := i) hh hc hv hs hp hps hfit (fun h => absurd h2 h)
      rw [if_pos h2] at hcoll
      exact go (startColl f) (by unfold startEntry; rw [hi]) hcoll
    · have hcoll := startColl_begins (i := i) hh hc hv hs hp hps hfit (fun _ => hb)
      rw [if_neg h2] at hcoll
      exact go (startColl f) (by unfold startEntry; rw [hi]) hcoll
  · exact go (startRecv f) (by unfold startEntry; rw [hi]) (startRecv_waits hread hd)
  · have hsend := startSend_sends (i := i) hread hd
    exact ⟨fun hn => go (startSend f) (by unfold startEntry; rw [hi]) (hsend.trans (if_neg hn)),
      fun hf => go (startSend f) (by unfold startEntry; rw [hi]) (hsend.trans (if_pos hf))⟩
  · exact ⟨fun hz => go (startFlip f) (by unfold startEntry; rw [hi]) (startFlip_empty h0 ha hz),
      fun h l hn hl hin hk hp hh => go (startFlip f) (by unfold startEntry; rw [hi]) (startFlip_exchanges h0 ha hb hn hl hin hk hp hh)⟩

end Sys2Proof.Machine
end

section
/-! SUPPORT. A convoy that waits at its first element, and the member of a convoy in which one register is bound (R252 to R255). -/

namespace Sys2Proof.Machine

/-! ### Retirement and what the convoy ran in -/

/-- R104, R255: registers are zeroed whatever the context of the convoy is. -/
theorem zeroRegs_withCur (l : List Nat) : ∀ (s : State) (c : Ctx),
    zeroRegs { s with hart := { s.hart with cur := c } } l = { zeroRegs s l with hart := { (zeroRegs s l).hart with cur := c } } := by
  induction l with
  | nil => intro s c; rfl
  | cons r l ih => intro s c; exact ih (setReg s r 0 0) c

/-- R53: of the context that the convoy ran in, its retirement uses the length and the type alone. -/
theorem retire_withCur (u r : State) (c : Ctx) (n : Nat) (hl : c.vl = r.hart.cur.vl) (ht : c.vtype = r.hart.cur.vtype) :
    retire u { r with hart := { r.hart with cur := c } } n = retire u r n := by
  unfold retire
  dsimp only
  rw [zeroRegs_withCur]
  split
  · rw [zeroRegs_cur]
    simp only [hl, ht]
  · simp only [hl, ht]

/-! ### A convoy that waits at its first element -/

/-- R90: a convoy that waits has no condition below its wait when the run of its members that settles it has found none. -/
theorem faultBelow_none {b : State} {ms : List Member} {r y : State} (hr : runBelow b ms (ms.length + 1) r = y) (hf : y.hart.cur.fault = none) (q : State) :
    faultBelow b ms r ≠ some q := by
  unfold faultBelow
  rw [hr]
  dsimp only
  rw [hf]
  split <;> exact nofun

/-- R90: the members of a convoy that waits at its first element have no condition below it. -/
theorem faultBelow_first (b : State) (ms : List Member) (r : State) (hf : r.hart.cur.fault = none) (ha : r.hart.cur.waitAt ≤ b.hart.cur.vstart) (q : State) :
    faultBelow b ms r ≠ some q := by
  refine faultBelow_none ?_ hf q
  unfold runBelow
  rw [decide_eq_true ha, Bool.or_true, if_pos rfl]

/-- R20, R39, R90: an instruction that has been posted alone, and whose member waits, waits at the head of the vector queue and has changed nothing. -/
theorem waitsAtHead_of {i : Instr} {m : Member} {s : State} {why : Option Word} (hm : memberOf i = some m) (hq : s.hart.vq = [])
    (hp : postWait s [i] = none) (hc : m.check (dctx s) = none) (hv : m.whole = true → s.hart.vstart = 0) (hs : settled s i = posted s i)
    (hw : (ranHead (posted s i) (mkConvoy s [i]) [m]).hart.cur.wait = some why)
    (hph : (ranHead (posted s i) (mkConvoy s [i]) [m]).hart.cur.phase = 0)
    (hpn : (ranHead (posted s i) (mkConvoy s [i]) [m]).hart.pennants = s.hart.pennants)
    (hf : ∀ k j t, (ranHead (posted s i) (mkConvoy s [i]) [m]).hart.cur.fault = some (k, j, t) → s.hart.vstart < k)
    (hb : ∀ q, faultBelow (begun s i) [m] (ranHead (posted s i) (mkConvoy s [i]) [m]) ≠ some q) : WaitsAtHead i s why := by
  have hrun := runConvoy_waits (ms := [m]) (posted_vq s i hq) (fun h => hv (by simpa using h)) (by rw [hw]; exact nofun) hf hb
  change runConvoy [m] (posted s i) = keepHead (settled s i) _ _ at hrun
  refine ⟨_, by rw [exec_member i m s hm, solo_performs i m s hq hp hc, hrun], ?_⟩
  generalize ranHead (posted s i) (mkConvoy s [i]) [m] = r at hw hph hpn
  unfold keepHead
  rw [hs, if_neg (not_not_intro hph), hpn, hw, posted_vq s i hq]
  exact ⟨rfl, ⟨_, rfl, rfl⟩, rfl, rfl, rfl, rfl, rfl, rfl⟩

/-- R170: with no vector store queued, nothing is to be made visible. -/
theorem settled_of_vectorStores {s : State} (i : Instr) (h : vectorStores s.hart = false) : settled s i = posted s i := by
  unfold settled settleEarlier
  rw [show vectorStores (posted s i).hart = false from h, Bool.and_false, if_neg Bool.false_ne_true]

/-! ### Bound registers of a convoy (R252 to R255) -/

/-- Of a list without repeats, one element is once there or not at all. -/
theorem filter_eraseDups_eq (r : Nat) (l : List Nat) : (l.eraseDups.filter fun q => q == r) = if r ∈ l then [r] else [] := by
  induction h : l.length using Nat.strong_induction_on generalizing l with
  | _ n ih =>
    cases l with
    | nil => rfl
    | cons a l =>
      have hlt : (l.filter fun b => !b == a).length < n := by
        rw [← h]
        exact Nat.lt_succ_of_le (List.length_filter_le _ _)
      rw [List.eraseDups_cons, List.filter_cons, ih _ hlt _ rfl]
      by_cases ha : a = r
      · subst ha
        simp
      · have hr : r ≠ a := fun h => ha h.symm
        simp [ha, hr]

section
variable {m : Member} {s : State} {r : Fin 32} {b : Bind} (hb : s.hart.cur.binds = [(r.val, b)])
include hb

/-- Register r alone is bound. -/
theorem bindOf_one (q : Nat) : bindOf s q = if q = r.val then some b else none := by
  unfold bindOf
  rw [hb, List.find?_cons]
  by_cases h : q = r.val
  · simp [h]
  · have hn : (r.val == q) = false := by simpa using fun h' => h h'.symm
    rw [hn, if_neg h]
    rfl

theorem boundOf_one (l : List Nat) : boundOf s l = if r.val ∈ l then [r.val] else [] := by
  have hf : (fun q => (bindOf s q).isSome) = fun q => q == r.val := by
    funext q
    rw [bindOf_one hb]
    by_cases h : q = r.val <;> simp [h]
  unfold boundOf
  rw [hf, filter_eraseDups_eq]

variable {d : DCtx} (hg : r.val ∉ m.groups) (hz : ∀ g ∈ m.sized d, g.2 ≠ 1 → r.val < g.1 ∨ g.1 + g.2 ≤ r.val)
include hg hz

/-- R255: the bound register is in no group of registers of the member. -/
theorem grouped_unbound :
    (m.groups ++ (m.sized d).flatMap fun g => if g.2 = 1 then [] else (List.range g.2).map (g.1 + ·)).findSome? (bindOf s) = none := by
  rw [List.findSome?_eq_none_iff]
  intro q hq
  rw [bindOf_one hb, if_neg]
  rintro rfl
  rcases List.mem_append.mp hq with h | h
  · exact hg h
  · obtain ⟨g, hgm, hgr⟩ := List.mem_flatMap.mp h
    by_cases h1 : g.2 = 1
    · rw [if_pos h1] at hgr
      cases hgr
    · rw [if_neg h1] at hgr
      obtain ⟨k, hk, hkr⟩ := List.mem_map.mp hgr
      have := List.mem_range.mp hk
      rcases hz g hgm h1 with h | h <;> omega

end

theorem mem_single {l : List (Nat × Nat)} {r : Nat} : r ∈ (l.filterMap fun g => if g.2 = 1 then some g.1 else none) ↔ (r, 1) ∈ l := by
  rw [List.mem_filterMap]
  constructor
  · rintro ⟨⟨a, n⟩, hm, h⟩
    obtain ⟨rfl, rfl⟩ : n = 1 ∧ a = r := by simpa using h
    exact hm
  · exact fun h => ⟨_, h, rfl⟩

/-- The member of a bound register has been performed: the register keeps what it held, and no old value stands beside it. -/
def leaveBound (s t : State) (r : Fin 32) : State := keepsReg s { t with hart := { t.hart with cur := { t.hart.cur with old := [] } } } r

/-- What `t` has found of a condition and a wait stops the member before it runs. -/
def haltsBound (s t : State) : Bool := t.hart.cur.wait.isSome || (t.hart.cur.fault != s.hart.cur.fault)

/-- The member has not run: what `t` has found stands. -/
def stayBound (s t : State) : State :=
  { s with hart := { s.hart with cur := { s.hart.cur with wait := t.hart.cur.wait, waitAt := t.hart.cur.waitAt, fault := t.hart.cur.fault } } }

theorem stayBound_mustWait (s y : State) (why : Option Word) :
    (if haltsBound s (mustWait s why) then stayBound s (mustWait s why) else y) = mustWait s why := rfl

theorem stayBound_raise {s : State} (hf : s.hart.cur.fault = none) (y : State) (k : Nat) (t : Trap) :
    (if haltsBound s (raise s k t) then stayBound s (raise s k t) else y) = raise s k t := by
  unfold raise haltsBound
  simp only [hf]
  exact if_pos ((Bool.or_eq_true _ _).mpr (.inr rfl))

theorem stayBound_none {s u : State} (hw : s.hart.cur.wait = none) (hc : u.hart.cur = s.hart.cur) (y : State) :
    (if haltsBound s u then stayBound s u else y) = y := by
  unfold haltsBound
  rw [hc, hw, bne_self_eq_false]
  rfl

section
variable {m : Member} {s : State} {r : Fin 32} {b : Bind} (hb : s.hart.cur.binds = [(r.val, b)])
variable {d : DCtx} (hg : r.val ∉ m.groups) (hz : ∀ g ∈ m.sized d, g.2 ≠ 1 → r.val < g.1 ∨ g.1 + g.2 ≤ r.val)
include hb hg hz

/-- R253: a member that reads the bound register runs on its chunk. -/
theorem runBound_source (hr : r.val ∈ m.srcs ∨ (r.val, 1) ∈ m.sized d) (hd : r.val ∉ m.dsts) :
    runBound m d s =
      let t := takeChunk s r.val
      if haltsBound s t then stayBound s t
      else leaveBound s (m.run t) r := by
  have hsrc : boundOf s (m.srcs ++ ((m.sized d).filterMap fun g => if g.2 = 1 then some g.1 else none) ++
      (if m.readsDst then m.dsts.filter (isWindowBound s) else [])) = [r.val] := by
    rw [boundOf_one hb, if_pos]
    rw [List.mem_append, List.mem_append, mem_single]
    exact .inl hr
  have hdst : boundOf s m.dsts = [] := by rw [boundOf_one hb, if_neg hd]
  unfold runBound
  simp only [grouped_unbound hb hg hz, hsrc, hdst, List.filter_nil, List.foldl_nil, List.foldl_cons, List.append_nil, Nat.mod_eq_of_lt r.isLt]
  rfl

/-- R254: a member that writes the bound register, and does not read it, runs on its result so far, which is pushed. -/
theorem runBound_dest (hr : ¬(r.val ∈ m.srcs ∨ (r.val, 1) ∈ m.sized d)) (hd : r.val ∈ m.dsts) (hw : m.readsDst = false ∨ isWindowBound s r.val = false)
    (hv : s.hart.cur.vstart < s.hart.cur.vl ∨ isInBound s r.val = false) :
    runBound m d s =
      let t := openDst m false s r.val
      if haltsBound s t then stayBound s t
      else leaveBound s (pushDst (keepParts (m.run t) [r.val]) r.val) r := by
  have hsrc : boundOf s (m.srcs ++ ((m.sized d).filterMap fun g => if g.2 = 1 then some g.1 else none) ++
      (if m.readsDst then m.dsts.filter (isWindowBound s) else [])) = [] := by
    rw [boundOf_one hb, if_neg]
    rw [List.mem_append, List.mem_append, mem_single]
    rintro (h | h)
    · exact hr h
    · rcases hw with hw | hw
      · simp [hw] at h
      · split at h
        · simp [hw] at h
        · cases h
  have hdst : (boundOf s m.dsts).filter (fun r => decide (s.hart.cur.vstart < s.hart.cur.vl) || !isInBound s r) = [r.val] := by
    rw [boundOf_one hb, if_pos hd, List.filter_cons, List.filter_nil, if_pos]
    rcases hv with h | h <;> simp [h]
  unfold runBound
  simp only [grouped_unbound hb hg hz, hsrc, hdst, List.contains_nil, List.foldl_nil, List.foldl_cons, List.nil_append, Nat.mod_eq_of_lt r.isLt]
  rfl

end

end Sys2Proof.Machine
end

section
/-! SUPPORT. What a ring or a window gives to a member and takes from it (R253 to R255, R262), and how its convoy ends. -/

namespace Sys2Proof.Machine

/-- R90, R91: a stop of the vector queue is charged to the convoy, or to the element that is to blame. -/
theorem stopConvoy_stoppedWith (s : State) (c : Convoy) (ms : List Member) (k j : Nat) (t : Trap) (taken : Option (BitVec 32))
    (pennants : Vector (List (BitVec 32)) 6) (blame : Option Word) (hc : t.cause ≠ .halt) :
    StoppedWith (stopConvoy s c ms k j t taken pennants blame) t.cause.code (blame.getD c.addr) t.tval j := by
  unfold stopConvoy
  exact takeStop_stoppedWith _ _ _ _ _ _ _ _ _ hc

/-! ### What a bound register gives a member (R253 to R255, R262) -/

section
variable {m : Member} {s : State} {r : Fin 32} {h : Nat} {st : Stream} (hb : s.hart.cur.binds = [(r.val, .stream h)]) (hs : streamOf s h = some st)
include hb hs

theorem takeChunk_stream {c : Chunk} {rest : List Chunk} (ho : st.out = false) (hr : st.ring = c :: rest) :
    takeChunk s r = setReg (setStream s { st with ring := rest }) r c.val c.cells := by
  unfold takeChunk
  simp only [bindOf_one hb, if_true, hs, ho, hr, Bool.false_eq_true, if_false]

theorem takeChunk_stream_empty (ho : st.out = false) (hr : st.ring = []) (he : st.exhausted = false) :
    takeChunk s r = mustWait s (some st.recAddr) := by
  unfold takeChunk
  simp only [bindOf_one hb, if_true, hs, ho, hr, he, Bool.false_eq_true, if_false]

theorem takeChunk_stream_over (ho : st.out = true ∨ st.ring = [] ∧ st.exhausted = true) :
    takeChunk s r = raise s s.hart.cur.vstart ⟨.stream, st.recAddr⟩ := by
  unfold takeChunk
  simp only [bindOf_one hb, if_true, hs]
  rcases ho with ho | ⟨hr, he⟩
  · rw [if_pos ho]
  · simp only [hr, he, if_true, ite_self]

theorem openDst_stream (ho : st.out = true) (hd : m.readsDst = false) (hr : st.ring.length < st.rbytes / st.ch) (hp : s.hart.cur.parts = []) :
    openDst m false s r = setReg s r 0 0 := by
  unfold openDst setOld partOf
  simp only [bindOf_one hb, if_true, hs, ho, hd, Bool.not_true, Bool.or_self, Bool.false_eq_true, if_false, Nat.not_le.mpr hr, hp, List.find?_nil]
  rfl

theorem openDst_stream_full (ho : st.out = true) (hd : m.readsDst = false) (hr : st.rbytes / st.ch ≤ st.ring.length) :
    openDst m false s r = mustWait s (some st.recAddr) := by
  unfold openDst
  simp only [bindOf_one hb, if_true, hs, ho, hd, Bool.not_true, Bool.or_self, Bool.false_eq_true, if_false, hr]

theorem openDst_stream_wrong (ho : st.out = false ∨ m.readsDst = true) :
    openDst m false s r = raise s s.hart.cur.vstart ⟨.stream, st.recAddr⟩ := by
  unfold openDst
  simp only [bindOf_one hb, if_true, hs]
  rw [if_pos (by rcases ho with ho | ho <;> simp [ho])]

/-- R254: the result in a register that is bound for output goes to the end of its ring. -/
theorem pushDst_stream : pushDst s r = setStream s { st with ring := st.ring ++ [chunkOf s r st.ch] } := by
  unfold pushDst chunkOf
  simp only [bindOf_one hb, if_true, hs, Nat.mod_eq_of_lt r.isLt]
  rfl

end

section
variable {m : Member} {s : State} {r : Fin 32} {t : Word} {c : Coll} (hb : s.hart.cur.binds = [(r.val, .window t)]) (hs : collOf s t = some c)
include hb hs

theorem takeChunk_window {q : Chunk} {rest : List Chunk} (hf : c.failed = false) (hq : c.outq = q :: rest) :
    takeChunk s r = setReg (setColl s t { c with outq := rest }) r q.val q.cells := by
  unfold takeChunk
  simp only [bindOf_one hb, if_true, hs, hf, hq, Bool.false_eq_true, if_false]

theorem takeChunk_window_empty (hf : c.failed = false) (hq : c.outq = []) : takeChunk s r = mustWait s (some t) := by
  unfold takeChunk
  simp only [bindOf_one hb, if_true, hs, hf, hq, Bool.false_eq_true, if_false]

theorem openDst_window (hf : c.failed = false) (hp : s.hart.cur.parts = []) : openDst m false s r = setReg s r 0 0 := by
  unfold openDst setOld partOf
  simp only [bindOf_one hb, if_true, hs, hf, hp, List.find?_nil, Bool.false_eq_true, if_false]
  rfl

/-- R262: the result in a register that is bound as a window goes to the collective. -/
theorem pushDst_window : pushDst s r = setColl s t { c with inq := c.inq ++ [chunkOf s r c.ch] } := by
  unfold pushDst chunkOf
  simp only [bindOf_one hb, if_true, hs, Nat.mod_eq_of_lt r.isLt]
  rfl

end

/-! ### A convoy of its own with a bound register -/

/-- R346: a member of which no group has failed runs as it is. -/
theorem withHurt_run (m : Member) {u : State} (h : u.hart.cur.hurt = []) : (withHurt m).run u = m.run u := by
  unfold withHurt hurtMember
  dsimp only
  rw [h]
  rfl

section
variable {i : Instr} {m : Member} {s : State} {r : Fin 32} {b : Bind} (h : ReadyBound i m s r b)
include h

/-- The context in which a member with a bound register begins. -/
theorem ReadyBound.cur : (begun s i).hart.cur.binds = [(r.val, b)] ∧ (begun s i).hart.cur.parts = [] ∧ (begun s i).hart.cur.hurt = [] ∧
    (begun s i).hart.cur.differs = [] ∧ (begun s i).hart.cur.index = 0 ∧ (begun s i).hart.cur.blame = none ∧ (begun s i).hart.cur.phase = 0 ∧
    (begun s i).hart.unverified = [] := by
  obtain ⟨-, -, hb, hu, ht, -⟩ := h
  rw [begun_settled s i hu, settled_hart]
  exact ⟨hb, rfl, rfl, rfl, rfl, rfl, rfl, ht⟩

theorem ReadyBound.ranHead : ranHead (posted s i) (mkConvoy s [i]) [m] =
    nextMember (runBound (withHurt m) (curDctx (begun s i)) (begun s i)) m := by
  obtain ⟨hb, -, -, hd, -, -, -, ht⟩ := h.cur
  obtain ⟨-, -, -, hu, -⟩ := h
  obtain ⟨-, -, -, -, -, hw, -⟩ := begun_cur s i hu
  change runMembers (settleCompare (begun s i) [m]) [m] = _
  rw [settleCompare_none _ _ ht]
  unfold runMembers runMember
  simp only [List.foldl_cons, List.foldl_nil, hw, Option.isSome_none, Bool.false_eq_true, if_false, compareMember_none _ _ ht hd, hb, List.isEmpty_cons]
  rfl

theorem ReadyBound.vstart : ([m].any fun m => m.whole) = true → (posted s i).hart.vstart = 0 := by
  obtain ⟨-, -, -, -, -, -, hv, -⟩ := h
  exact fun hw => hv (by simpa using hw)

theorem ReadyBound.exec (hm : memberOf i = some m) : exec i s = .next (runConvoy [m] (posted s i)) := by
  obtain ⟨hq, hp, -, -, -, hc, -⟩ := h
  rw [exec_member i m s hm, solo_performs i m s hq hp hc]

/-- R53: the convoy retires with what its member has done, whatever the context has come to hold for its bound register. -/
theorem ReadyBound.retires (hm : memberOf i = some m) {y : State} {c : Ctx}
    (hr : runBound (withHurt m) (curDctx (begun s i)) (begun s i) =
      { keepsReg (begun s i) y r with hart := { (keepsReg (begun s i) y r).hart with cur := c } })
    (hl : c.vl = y.hart.cur.vl) (ht : c.vtype = y.hart.cur.vtype) (hf : c.fault = none) (hw : c.wait = none) : RetiresBound i s y r := by
  have hrh := h.ranHead
  rw [hr] at hrh
  obtain ⟨hq, -⟩ := id h
  unfold RetiresBound
  rw [h.exec hm, runConvoy_retires (posted_vq s i hq) h.vstart (by rw [hrh]; exact hf) (by rw [hrh]; exact hw), hrh]
  exact congrArg _ (retire_withCur (settled s i) (keepsReg (begun s i) y r) _ 1 hl ht)

/-- R20, R253, R254: the convoy waits for its ring. -/
theorem ReadyBound.waits (hm : memberOf i = some m) {why : Word}
    (hr : runBound (withHurt m) (curDctx (begun s i)) (begun s i) = mustWait (begun s i) (some why)) (hs : vectorStores s.hart = false) :
    WaitsAtHead i s (some why) := by
  have hrh := h.ranHead
  rw [hr] at hrh
  obtain ⟨-, -, -, -, -, -, hphase, -⟩ := h.cur
  obtain ⟨hq, hp, -, hu, -, hc, hv, -⟩ := id h
  obtain ⟨-, -, -, -, hfault, -⟩ := begun_cur s i hu
  have hset := settled_of_vectorStores i hs
  have hpn : (begun s i).hart.pennants = s.hart.pennants := by rw [begun_settled s i hu, settled_hart]; rfl
  have hf : (Machine.ranHead (posted s i) (mkConvoy s [i]) [m]).hart.cur.fault = none := by rw [hrh]; exact hfault
  refine waitsAtHead_of hm hq hp hc hv hset (by rw [hrh]; rfl) (by rw [hrh]; exact hphase) (by rw [hrh]; exact hpn)
    (fun k j t e => by rw [hf] at e; cases e) (faultBelow_first _ _ _ hf (by rw [hrh]; exact le_refl _))

/-- R255: the convoy stops at its first element, charged to its own address. -/
theorem ReadyBound.stops (hm : memberOf i = some m) {a : Word}
    (hr : runBound (withHurt m) (curDctx (begun s i)) (begun s i) = raise (begun s i) (begun s i).hart.cur.vstart ⟨.stream, a⟩) :
    ∃ t, Machine.exec i s = .next t ∧ StoppedWith t Cause.stream.code s.hart.pc a 0 := by
  have hrh := h.ranHead
  obtain ⟨-, -, -, -, hindex, hblame, -⟩ := h.cur
  obtain ⟨hq, -, -, hu, -⟩ := id h
  obtain ⟨-, -, -, -, hfault, hwait, -⟩ := begun_cur s i hu
  unfold raise at hr
  simp only [hfault, hindex] at hr
  rw [hr] at hrh
  refine ⟨_, by rw [h.exec hm, runConvoy_stops (k := (begun s i).hart.cur.vstart) (j := 0) (t := ⟨.stream, a⟩) (posted_vq s i hq) h.vstart
    (by rw [hrh]; rfl) (by rw [hrh]; exact hwait)], ?_⟩
  have hstop := stopConvoy_stoppedWith (keepWalked (settleEarlier (posted s i) (mkConvoy s [i]))
    ((Machine.ranHead (posted s i) (mkConvoy s [i]) [m]).hart.cur.walked ++ (Machine.ranHead (posted s i) (mkConvoy s [i]) [m]).hart.cur.walked))
    (mkConvoy s [i]) [m] (begun s i).hart.cur.vstart 0 ⟨.stream, a⟩ (Machine.ranHead (posted s i) (mkConvoy s [i]) [m]).hart.cur.taken
    (Machine.ranHead (posted s i) (mkConvoy s [i]) [m]).hart.pennants (Machine.ranHead (posted s i) (mkConvoy s [i]) [m]).hart.cur.blame nofun
  have hb : (Machine.ranHead (posted s i) (mkConvoy s [i]) [m]).hart.cur.blame = none := by rw [hrh]; exact hblame
  rw [hb] at hstop ⊢
  exact hstop

end

end Sys2Proof.Machine
end

section
/-! SUPPORT. A convoy of its own with one bound register, as source and as destination, and what posting an access entry changes. -/

namespace Sys2Proof.Machine

section
variable {i : Instr} {m : Member} {s : State} {r : Fin 32} {b : Bind} (h : ReadyBound i m s r b)
include h

/-- The rings and the collectives are those of the machine before the convoy was posted. -/
theorem ReadyBound.rings : (begun s i).hart.streams = s.hart.streams ∧ (begun s i).hart.aq = s.hart.aq := by
  obtain ⟨-, -, -, hu, -⟩ := h
  rw [begun_settled s i hu, settled_hart]
  exact ⟨rfl, rfl⟩

theorem ReadyBound.streamOf_begun (n : Nat) : streamOf (begun s i) n = streamOf s n := by
  obtain ⟨hs, -⟩ := h.rings
  unfold streamOf
  rw [hs]

theorem ReadyBound.collOf_begun (t : Word) : collOf (begun s i) t = collOf s t := by
  obtain ⟨-, ha⟩ := h.rings
  unfold collOf
  rw [ha]

section
variable (hr : readsBound i m s r) (hd : r.val ∉ m.dsts)
include hr hd

/-- A member that reads its bound register is what `takeChunk` lets it be. -/
theorem ReadyBound.source {u : State} (ht : takeChunk (begun s i) r = u) : runBound (withHurt m) (curDctx (begun s i)) (begun s i) =
    if haltsBound (begun s i) u then stayBound (begun s i) u else leaveBound (begun s i) ((withHurt m).run u) r := by
  obtain ⟨hb, -⟩ := h.cur
  obtain ⟨-, -, -, -, -, -, -, hg, hz⟩ := h
  rw [runBound_source (m := withHurt m) hb hg hz hr hd, ht]

theorem ReadyBound.source_retires (hm : memberOf i = some m) {u x : State} (ht : takeChunk (begun s i) r = u) (hu : u.hart.cur = (begun s i).hart.cur)
    (hx : RanIn m u x) : RetiresBound i s x r := by
  obtain ⟨rfl, hf, hw, -⟩ := hx
  obtain ⟨-, -, hhurt, -⟩ := h.cur
  obtain ⟨-, -, -, hun, -⟩ := id h
  obtain ⟨-, -, -, -, -, hwait, -⟩ := begun_cur s i hun
  have hrun := h.source hr hd ht
  rw [stayBound_none hwait hu, withHurt_run m (by rw [hu]; exact hhurt)] at hrun
  exact h.retires hm (c := { (m.run u).hart.cur with old := [] }) hrun rfl rfl hf hw

theorem ReadyBound.source_waits (hm : memberOf i = some m) {why : Word} (ht : takeChunk (begun s i) r = mustWait (begun s i) (some why))
    (hs : vectorStores s.hart = false) : WaitsAtHead i s (some why) :=
  h.waits hm ((h.source hr hd ht).trans (stayBound_mustWait _ _ _)) hs

theorem ReadyBound.source_stops (hm : memberOf i = some m) {a : Word}
    (ht : takeChunk (begun s i) r = raise (begun s i) (begun s i).hart.cur.vstart ⟨.stream, a⟩) :
    ∃ t, Machine.exec i s = .next t ∧ StoppedWith t Cause.stream.code s.hart.pc a 0 := by
  obtain ⟨-, -, -, hun, -⟩ := id h
  obtain ⟨-, -, -, -, hfault, -⟩ := begun_cur s i hun
  exact h.stops hm ((h.source hr hd ht).trans (stayBound_raise hfault _ _ _))

end

section
variable (hr : ¬readsBound i m s r) (hd : r.val ∈ m.dsts) (hw : m.readsDst = false ∨ isWindowBound (begun s i) r.val = false)
variable (hv : s.hart.vstart < nextLen s ∨ isInBound (begun s i) r.val = false)
include hr hd hw hv

/-- A member that writes its bound register is what `openDst` lets it be. -/
theorem ReadyBound.dest {u : State} (ht : openDst m false (begun s i) r = u) : runBound (withHurt m) (curDctx (begun s i)) (begun s i) =
    if haltsBound (begun s i) u then stayBound (begun s i) u
    else leaveBound (begun s i) (pushDst (keepParts ((withHurt m).run u) [r.val]) r.val) r := by
  obtain ⟨hb, -⟩ := h.cur
  obtain ⟨-, -, -, hun, -, -, -, hg, hz⟩ := h
  obtain ⟨hvl, -, hvs, -⟩ := begun_cur s i hun
  subst ht
  exact runBound_dest (m := withHurt m) hb hg hz hr hd hw (by rw [hvl, hvs]; exact hv)

theorem ReadyBound.dest_waits (hm : memberOf i = some m) {why : Word} (ht : openDst m false (begun s i) r = mustWait (begun s i) (some why))
    (hs : vectorStores s.hart = false) : WaitsAtHead i s (some why) :=
  h.waits hm ((h.dest hr hd hw hv ht).trans (stayBound_mustWait _ _ _)) hs

theorem ReadyBound.dest_stops (hm : memberOf i = some m) {a : Word}
    (ht : openDst m false (begun s i) r = raise (begun s i) (begun s i).hart.cur.vstart ⟨.stream, a⟩) :
    ∃ t, Machine.exec i s = .next t ∧ StoppedWith t Cause.stream.code s.hart.pc a 0 := by
  obtain ⟨-, -, -, hun, -⟩ := id h
  obtain ⟨-, -, -, -, hfault, -⟩ := begun_cur s i hun
  exact h.stops hm ((h.dest hr hd hw hv ht).trans (stayBound_raise hfault _ _ _))

/-- The convoy retires, and its result has been pushed as `y` says. -/
theorem ReadyBound.dest_retires (hm : memberOf i = some m) {x y : State} {c : Ctx} (ht : openDst m false (begun s i) r = setReg (begun s i) r 0 0)
    (hx : RanIn m (setReg (begun s i) r 0 0) x)
    (hy : pushDst (keepParts x [r.val]) r.val = { y with hart := { y.hart with cur := c } })
    (hl : c.vl = y.hart.cur.vl) (hvt : c.vtype = y.hart.cur.vtype) (hf : c.fault = none) (hwt : c.wait = none) : RetiresBound i s y r := by
  obtain ⟨rfl, -⟩ := hx
  obtain ⟨-, -, hhurt, -⟩ := h.cur
  obtain ⟨-, -, -, hun, -⟩ := id h
  obtain ⟨-, -, -, -, -, hwait, -⟩ := begun_cur s i hun
  have hrun := h.dest hr hd hw hv ht
  rw [stayBound_none (u := setReg (begun s i) r 0 0) hwait rfl, withHurt_run m (u := setReg (begun s i) r 0 0) hhurt, hy] at hrun
  exact h.retires hm (c := { c with old := [] }) hrun hl hvt hf hwt

end

end

section
variable {i : Instr} {m : Member} {s : State} {r : Fin 32} {n : Nat} {st : Stream} (h : ReadyBound i m s r (.stream n)) (hs : streamOf s n = some st)
include h

/-- A register that is bound to a record is no window. -/
theorem ReadyBound.not_window : isWindowBound (begun s i) r.val = false := by
  obtain ⟨hb, -⟩ := h.cur
  unfold isWindowBound
  rw [bindOf_one hb, if_pos rfl]

include hs

/-- R252: a record of a stream that runs out receives no chunks. -/
theorem ReadyBound.not_inBound (ho : st.out = true) : isInBound (begun s i) r.val = false := by
  obtain ⟨hb, -⟩ := h.cur
  unfold isInBound
  simp only [bindOf_one hb, if_true, h.streamOf_begun, hs, Option.map_some, Option.getD_some, ho, Bool.not_true]

/-- R254: the result of the member enters the ring of the record. -/
theorem ReadyBound.dest_pushes (hm : memberOf i = some m) (hr : ¬readsBound i m s r) (hd : r.val ∈ m.dsts) (ho : st.out = true)
    (hrd : m.readsDst = false) (hroom : st.ring.length < st.rbytes / st.ch) {x : State} (hx : RanIn m (setReg (begun s i) r 0 0) x)
    (hxs : x.hart.streams = s.hart.streams) : RetiresBound i s (setStream x { st with ring := st.ring ++ [chunkOf x r st.ch] }) r := by
  obtain ⟨hb, hp, -⟩ := h.cur
  obtain ⟨-, hf, hw, hxb⟩ := id hx
  have hxst : streamOf x n = some st := by
    rw [← hs]
    unfold streamOf
    rw [hxs]
  exact h.dest_retires hr hd (.inl hrd) (.inr (h.not_inBound hs ho)) hm (c := (keepParts x [r.val]).hart.cur)
    (openDst_stream hb ((h.streamOf_begun n).trans hs) ho hrd hroom hp) hx (pushDst_stream (s := keepParts x [r.val]) (hxb.trans hb) hxst) rfl rfl hf hw

end

section
variable {i : Instr} {m : Member} {s : State} {r : Fin 32} {t : Word} {c : Coll} (h : ReadyBound i m s r (.window t)) (hs : collOf s t = some c)
  (hfail : c.failed = false)
include h hs hfail

/-- R262: the result of the member enters the collective. -/
theorem ReadyBound.dest_enters (hm : memberOf i = some m) (hr : ¬readsBound i m s r) (hd : r.val ∈ m.dsts)
    (hrd : m.readsDst = false) {x : State} (hx : RanIn m (setReg (begun s i) r 0 0) x) (hxs : collOf x t = some c) :
    RetiresBound i s (setColl x t { c with inq := c.inq ++ [chunkOf x r c.ch] }) r := by
  obtain ⟨hb, hp, -⟩ := h.cur
  obtain ⟨-, hf, hw, hxb⟩ := id hx
  have hin : isInBound (begun s i) r.val = false := by
    unfold isInBound
    simp only [bindOf_one hb, if_true]
  exact h.dest_retires hr hd (.inl hrd) (.inr hin) hm (c := (keepParts x [r.val]).hart.cur)
    (openDst_window hb ((h.collOf_begun t).trans hs) hfail hp) hx (pushDst_window (s := keepParts x [r.val]) (hxb.trans hb) hxs) rfl rfl hf hw

end

/-! ### Access entries as they are posted (R247, R252) -/

/-- What posting an access-class instruction adds to the queue. -/
theorem postEntry_posts {i : Instr} {s : State} (hn : NoHold s (xsrcOf i)) (hl : s.hart.aq.length < 128) : postEntry i s = .next (enqueue s i) := by
  unfold NoHold at hn
  unfold postEntry
  rw [hn, if_neg Bool.false_ne_true, if_neg (Nat.not_le.mpr hl)]

/-- What posting changes in the hart. -/
theorem enqueue_eq (i : Instr) (s : State) : enqueue s i = { s with hart := { s.hart with
    aq := s.hart.aq ++ [mkEntry s i (earlyOf s i)], binds := bindsAfter s i, pc := s.hart.pc + W (if s.hart.splice.isSome then 8 else 4), park := none,
    await := none, v := (endBinding s i).hart.v, vp := (endBinding s i).hart.vp, vdirty := (endBinding s i).hart.vdirty,
    unbound := (endBinding s i).hart.unbound } } := by
  have he : endBinding s i = { s with hart := { s.hart with
      v := (endBinding s i).hart.v, vp := (endBinding s i).hart.vp, vdirty := (endBinding s i).hart.vdirty, unbound := (endBinding s i).hart.unbound } } := by
    unfold endBinding
    split
    · split
      · split <;> rfl
      · rfl
    · rfl
  unfold enqueue
  rw [he]
  rfl

/-- R252: only `ar.unbind` ends a binding. -/
theorem endBinding_other {i : Instr} (h : ∀ g, i ≠ .arUnbind g) (s : State) : endBinding s i = s := by
  unfold endBinding
  split
  · exact absurd rfl (h _)
  · rfl

/-- A binding that has been added is the one of its register. -/
theorem boundTo_cons {h : Hart} {d : Nat} {b : Bind} {l : List (Nat × Bind)} (hb : h.binds = (d, b) :: l) : boundTo h d = some b := by
  unfold boundTo
  rw [hb, List.find?_cons_of_pos (by simp)]
  rfl

/-- R252: a register has no binding once it has been taken out of them. -/
theorem boundTo_without {h k : Hart} {d : Nat} (hb : h.binds = k.binds.filter fun b => b.1 != d) :
    boundTo h d = none ∧ ∀ r, r ≠ d → boundTo h r = boundTo k r := by
  unfold boundTo
  rw [hb]
  constructor
  · rw [Option.map_eq_none_iff, List.find?_eq_none]
    intro b hm
    have := (List.mem_filter.mp hm).2
    simpa using this
  · intro r hr
    rw [List.find?_filter]
    congr 2
    funext b
    by_cases h : b.1 = r <;> simp [h, hr]

end Sys2Proof.Machine
end

section
/-! SUPPORT. Access entries as they are posted (R247, R252). -/

namespace Sys2Proof.Machine

/-- R252: the register whose binding ends reads zero at once when no convoy is queued, and the others are as they were. -/
theorem endBinding_unbinds (s : State) (f : OpAC) :
    (boundTo s.hart f.d.toNat ≠ none → s.hart.vq = [] →
      (endBinding s (.arUnbind f)).hart.v[f.d.toNat] = 0 ∧ (endBinding s (.arUnbind f)).hart.vp[f.d.toNat] = 0) ∧
    ∀ r : Fin 32, r.val ≠ f.d.toNat → (endBinding s (.arUnbind f)).hart.v[r] = s.hart.v[r] ∧ (endBinding s (.arUnbind f)).hart.vp[r] = s.hart.vp[r] := by
  have hd : f.d.toNat % 32 = f.d.toNat := Nat.mod_eq_of_lt f.d.isLt
  unfold endBinding
  dsimp only
  constructor
  · intro hb hq
    have hany : (s.hart.binds.any fun b => b.1 == f.d.toNat) = true := by
      unfold boundTo at hb
      rw [ne_eq, Option.map_eq_none_iff, ← ne_eq, ← Option.isSome_iff_ne_none, List.find?_isSome] at hb
      simpa using hb
    rw [if_pos hany, hq, List.isEmpty_nil, if_pos rfl]
    simp [zeroRegs, setReg, hd]
  · intro r hr
    have hne : ¬f.d.toNat % 32 = r.val := by omega
    split
    · split
      · simp [zeroRegs, setReg, hne]
      · exact ⟨rfl, rfl⟩
    · exact ⟨rfl, rfl⟩

/-- R247: each access-class instruction is posted. -/
theorem exec_access (f : OpAC) (s : State) {i : Instr}
    (hi : i ∈ [Instr.astOpen f, .astClose f, .astRun f, .arBind f, .arUnbind f, .acol f, .asend f, .arecv f, .aflip f]) : exec i s = postEntry i s := by
  simp only [List.mem_cons, List.not_mem_nil, or_false] at hi
  rcases hi with rfl | rfl | rfl | rfl | rfl | rfl | rfl | rfl | rfl <;> rfl

/-- Settles O43: the statement's cases are those of `takeChunk` and `openDst`, and of `endBinding` and `bindsAfter`. -/
theorem accessPosting : Obligations.AccessPosting := by
  unfold Obligations.AccessPosting
  refine ⟨fun i m s r x hm => ⟨fun n st h hs => ?_, fun t c h hs hfail hrd => ?_⟩, fun f s i hi => ⟨fun hh => ?_, fun hn hl => ?_, fun hn hl => ?_⟩⟩
  · have hst := (h.streamOf_begun n).trans hs
    obtain ⟨hb, -⟩ := h.cur
    refine ⟨fun hr hd => ⟨fun c rest ho hring hx => ?_, fun ho hring he hvs => ?_, fun ho => ?_⟩,
      fun hr hd => ⟨fun ho hrd hroom hx hxs => ?_, fun ho hrd hfull hvs => ?_, fun ho hv => ?_, fun ho hrd => ?_⟩⟩
    · exact h.source_retires hr hd hm (takeChunk_stream hb hst ho hring) rfl hx
    · exact h.source_waits hr hd hm (takeChunk_stream_empty hb hst ho hring he) hvs
    · exact h.source_stops hr hd hm (takeChunk_stream_over hb hst ho)
    · exact h.dest_pushes hs hm hr hd ho hrd hroom hx hxs
    · exact h.dest_waits hr hd (.inl hrd) (.inr (h.not_inBound hs ho)) hm (openDst_stream_full hb hst ho hrd hfull) hvs
    · exact h.dest_stops hr hd (.inr h.not_window) (.inl hv) hm (openDst_stream_wrong hb hst (.inl ho))
    · exact h.dest_stops hr hd (.inr h.not_window) (.inr (h.not_inBound hs ho)) hm (openDst_stream_wrong hb hst (.inr hrd))
  · have hst := (h.collOf_begun t).trans hs
    obtain ⟨hb, -⟩ := h.cur
    refine ⟨fun hr hd => ⟨fun q rest hq hx => ?_, fun hq hvs => ?_⟩, fun hr hd hx hxs => ?_⟩
    · exact h.source_retires hr hd hm (takeChunk_window hb hst hfail hq) rfl hx
    · exact h.source_waits hr hd hm (takeChunk_window_empty hb hst hfail hq) hvs
    · exact h.dest_enters hs hfail hm hr hd hrd hx hxs
  · rw [exec_access f s hi, postEntry, if_pos hh]
    rfl
  · rw [exec_access f s hi, postEntry, if_neg (by rw [show anyHeld s (xsrcOf i) = false from hn]; exact Bool.false_ne_true), if_pos hl]
    rfl
  · refine ⟨_, _, (exec_access f s hi).trans (postEntry_posts hn hl), enqueue_eq i s, rfl, rfl, rfl, rfl, rfl, fun hg => ?_, ?_, ?_, ?_⟩
    · change (endBinding s i).hart.v = _ ∧ (endBinding s i).hart.vp = _ ∧ (endBinding s i).hart.vdirty = _
      rw [endBinding_other hg s]
      exact ⟨rfl, rfl, rfl⟩
    · rintro rfl
      exact boundTo_cons rfl
    · rintro rfl hb
      exact boundTo_cons (if_neg fun ⟨h0, _⟩ => hb h0)
    · rintro rfl
      obtain ⟨hnone, hother⟩ := boundTo_without (h := (enqueue s (.arUnbind f)).hart) (k := s.hart) (d := f.d.toNat) rfl
      obtain ⟨hzero, hkeep⟩ := endBinding_unbinds s f
      exact ⟨hnone, hzero, fun r hr => ⟨hother r hr, hkeep r hr⟩⟩

end Sys2Proof.Machine
end

section
/-! SUPPORT. Memory after stores and combining updates depends on no hart: what a fence leaves can be said of the state before the convoy (R173). -/

namespace Sys2Proof.Machine

/-! ### Stores act on memory whatever the hart holds -/

/-- A state with another hart, another record of what is to become durable, and another log. -/
def withRest (s : State) (h : Hart) (l : List LoftStore) (d : Device) (z : List (Nat × Word × Nat)) : State :=
  { s with hart := h, loftPend := l, dev := d, zWriters := z }

/-- Two states agree on memory and on the updates on their way to it; their harts, the record of what is to become durable, and the log may differ. -/
def SameCells (s t : State) : Prop := ∃ h l d z, t = withRest s h l d z

theorem SameCells.refl (s : State) : SameCells s s := ⟨s.hart, s.loftPend, s.dev, s.zWriters, rfl⟩

theorem SameCells.symm {s t : State} (h : SameCells s t) : SameCells t s := by
  obtain ⟨h, l, d, z, rfl⟩ := h
  exact ⟨s.hart, s.loftPend, s.dev, s.zWriters, rfl⟩

theorem SameCells.trans {s t u : State} (h : SameCells s t) (g : SameCells t u) : SameCells s u := by
  obtain ⟨h, l, d, z, rfl⟩ := h
  obtain ⟨h, l, d, z, rfl⟩ := g
  exact ⟨h, l, d, z, rfl⟩

theorem SameCells.mem {s t : State} (h : SameCells s t) : t.mem = s.mem := by
  obtain ⟨h, l, d, z, rfl⟩ := h
  rfl

theorem SameCells.combining {s t : State} (h : SameCells s t) : t.combining = s.combining := by
  obtain ⟨h, l, d, z, rfl⟩ := h
  rfl

theorem SameCells.logError (s : State) (a b c d e f : Nat) : SameCells s (logError s a b c d e f) := by
  unfold Machine.logError
  split <;> exact ⟨_, _, _, _, rfl⟩

theorem zTouch_withRest (s : State) (h : Hart) (l : List LoftStore) (d : Device) (z : List (Nat × Word × Nat)) (k : Nat) :
    zTouch (withRest s h l d z) k = withRest (zTouch s k) h l d z := by
  have hh : zHeld (withRest s h l d z) k = zHeld s k := rfl
  have hp : zPois (withRest s h l d z) k = zPois s k := rfl
  unfold zTouch
  rw [hh, hp]
  dsimp only
  split
  · dsimp only [withRest]
  · rfl

/-- The write of a store at its place, without the event of a poisoned merge. -/
def written (s : State) (k : Nat) (st : PStore) : State :=
  let gs := granulesOf k st.n
  { s with
    mem := Memory.writeMasked s.mem k st.n st.val st.mask,
    poison := poisonAfter s.poison gs st.poison st.whole,
    loftClean := if s.loftLost.isEmpty || st.poison || !st.whole then s.loftClean else gs.foldl (fun l g => insertN g l) s.loftClean,
    sealed := if st.sealing then insertN (k / 64) s.sealed else s.sealed,
    sealKeys := if st.sealing then (k / 64, st.slot) :: s.sealKeys.filter (fun q => q.1 != k / 64) else s.sealKeys }

/-- R184: a write at its place leaves the written state, but for an event in the log, or drops the write. -/
theorem applyAt_written (s : State) (k : Nat) (st : PStore) :
    if moduleFailed s k then applyAt s k st = s else SameCells (written (zTouch s k) k st) (applyAt s k st) := by
  by_cases hf : moduleFailed s k = true
  · rw [if_pos hf]
    exact if_pos hf
  · rw [if_neg hf, show applyAt s k st = _ from if_neg hf]
    dsimp only
    split
    · exact SameCells.logError (written (zTouch s k) k st) _ _ _ _ _ _
    · exact SameCells.refl (written (zTouch s k) k st)

theorem SameCells.applyAt {s t : State} (h : SameCells s t) (k : Nat) (st : PStore) : SameCells (applyAt s k st) (applyAt t k st) := by
  have hs := applyAt_written s k st
  have ht := applyAt_written t k st
  obtain ⟨h, l, d, z, rfl⟩ := h
  rw [zTouch_withRest] at ht
  change if moduleFailed s k = true then _ else _ at ht
  split at hs
  · rename_i hf
    rw [if_pos hf] at ht
    rw [hs, ht]
    exact ⟨h, l, d, z, rfl⟩
  · rename_i hf
    rw [if_neg hf] at ht
    have hw : SameCells (written (zTouch s k) k st) (written (withRest (zTouch s k) h l d z) k st) := ⟨h, l, d, z, rfl⟩
    exact hs.symm.trans (hw.trans ht)

/-- Outside sheds, a store is one write at its place, and notes of who made it. -/
theorem applyStoreOf_place {s : State} {st : PStore} (hk : isShedKey st.key = false) (g : Word) (n : Nat) :
    SameCells (applyAt s st.key st) (applyStoreOf s g n st) := by
  have hn : SameCells (Machine.applyAt s st.key st) (noteWriter (Machine.applyAt s st.key st) g n st.key) := by
    unfold noteWriter
    split
    · exact ⟨_, _, _, _, rfl⟩
    · exact SameCells.refl _
  unfold applyStoreOf
  rw [if_neg (by rw [hk]; exact Bool.false_ne_true)]
  dsimp only
  split
  · exact hn.trans ⟨_, _, _, _, rfl⟩
  · exact hn

/-- A store does the same to memory whichever hart made it. -/
theorem SameCells.applyStoreOf {s t : State} (h : SameCells s t) (g g' : Word) (n n' : Nat) (st : PStore) :
    SameCells (applyStoreOf s g n st) (applyStoreOf t g' n' st) := by
  cases hk : isShedKey st.key
  · exact (applyStoreOf_place hk g n).symm.trans ((h.applyAt st.key st).trans (applyStoreOf_place hk g' n'))
  · have hr : shedRoute t st.key = shedRoute s st.key := by
      obtain ⟨h, l, d, z, rfl⟩ := h
      rfl
    unfold Machine.applyStoreOf
    rw [if_pos hk, if_pos hk, hr]
    dsimp only
    split
    · exact (h.applyAt _ st).applyAt _ st
    · exact h.applyAt _ st

theorem SameCells.foldl_applyStore (l : List PStore) : ∀ {s t : State}, SameCells s t → SameCells (l.foldl applyStore s) (l.foldl applyStore t) := by
  induction l with
  | nil => exact id
  | cons st l ih => exact fun h => ih (h.applyStoreOf _ _ _ _ st)

theorem SameCells.drainAll {s t : State} (h : SameCells s t) (hq : t.hart.storeQ = s.hart.storeQ) : SameCells (drainAll s) (drainAll t) := by
  unfold Machine.drainAll
  rw [hq]
  refine SameCells.foldl_applyStore _ ?_
  obtain ⟨h, l, d, z, rfl⟩ := h
  exact ⟨_, _, _, _, rfl⟩

theorem SameCells.retireCombine {s t : State} (h : SameCells s t) (c : Combine) : SameCells (retireCombine s c) (retireCombine t c) := by
  have hb : memByte t = memByte s := by
    obtain ⟨h, l, d, z, rfl⟩ := h
    rfl
  have hp : granulePois t = granulePois s := by
    obtain ⟨h, l, d, z, rfl⟩ := h
    rfl
  have hf : moduleFailed t = moduleFailed s := by
    obtain ⟨h, l, d, z, rfl⟩ := h
    rfl
  unfold Machine.retireCombine
  rw [hb, hp, hf]
  exact h.applyStoreOf _ _ _ _ _

theorem SameCells.retireWhere {s t : State} (h : SameCells s t) (p : Combine → Bool) : SameCells (retireWhere s p) (retireWhere t p) := by
  have hfold (l : List Combine) : ∀ {s t : State}, SameCells s t → SameCells (l.foldl Machine.retireCombine s) (l.foldl Machine.retireCombine t) := by
    induction l with
    | nil => exact id
    | cons c l ih => exact fun h => ih (h.retireCombine c)
  unfold Machine.retireWhere
  rw [h.combining]
  refine hfold _ ?_
  obtain ⟨h, l, d, z, rfl⟩ := h
  exact ⟨_, _, _, _, rfl⟩

/-! ### What performing every store and combining update leaves (R173) -/

theorem applyAt_combining (s : State) (k : Nat) (st : PStore) : (applyAt s k st).combining = s.combining := by
  have hz : (zTouch s k).combining = s.combining := by unfold zTouch; split <;> rfl
  have h := applyAt_written s k st
  split at h
  · rw [h]
  · exact h.combining.trans hz

theorem applyStoreOf_combining (s : State) (g : Word) (n : Nat) (st : PStore) : (applyStoreOf s g n st).combining = s.combining := by
  cases hk : isShedKey st.key
  · exact (applyStoreOf_place hk g n).combining.trans (applyAt_combining _ _ _)
  · unfold applyStoreOf
    rw [if_pos hk]
    dsimp only
    split
    · exact (applyAt_combining _ _ _).trans (applyAt_combining _ _ _)
    · exact applyAt_combining _ _ _

/-- R178: once every combining update has been performed, none is outstanding. -/
theorem retireWhere_all (s : State) : (retireWhere s fun _ => true).combining = [] ∧ (retireWhere s fun _ => true).hart = s.hart := by
  unfold retireWhere
  refine List.foldlRecOn (motive := fun t : State => t.combining = [] ∧ t.hart = s.hart) _ _ ⟨by simp, rfl⟩ fun t h c _ => ?_
  obtain ⟨hc, hh⟩ := h
  exact ⟨(applyStoreOf_combining _ _ _ _).trans hc, (applyStoreOf_hart _ _ _ _).trans hh⟩

end Sys2Proof.Machine
end

section
/-! SUPPORT. Fences, `dpb` and pennant members as convoys of their own (R26, R39, R173, R293). -/

namespace Sys2Proof.Machine

/-! ### A ready instruction that retires or waits -/

/-- R252: with no binding ended, retirement zeroes nothing. -/
theorem retire_unbound (u r : State) (n : Nat) (h : r.hart.unbound = []) :
    retire u r n = { r with hart := { r.hart with
      vq := r.hart.vq.drop 1, vl := r.hart.cur.vl, vtype := r.hart.cur.vtype, vstart := 0, cur := u.hart.cur, vwait := none,
      await := none, park := none, aq := r.hart.aq.map fun e => { e with vqAhead := e.vqAhead - 1 },
      unbound := if r.hart.vq.length ≤ 1 then [] else r.hart.unbound,
      renamed := r.hart.renamed.drop 1, issued := nextUops r.hart.issued, complete := nextUops r.hart.complete,
      pins := r.hart.pins.filter fun p => p.queue != .vector, instret := r.hart.instret + W n } } := by
  have hz : (if r.hart.vq.length ≤ 1 then zeroRegs r [] else r) = r := ite_self r
  unfold retire
  simp only [h, hz]

section
variable {i : Instr} {m : Member} {s : State} (h : Ready i m s)
include h

theorem Ready.retires (hm : memberOf i = some m) (hf : (m.run (begun s i)).hart.cur.fault = none) (hw : (m.run (begun s i)).hart.cur.wait = none) :
    Machine.exec i s = .next (retire (settled s i) (nextMember (m.run (begun s i)) m) 1) := by
  rw [exec_member i m s hm, solo_retires i m s h hf hw]
  rfl

/-- R53: when the member has left the machine as it began, the instruction only retires. -/
theorem Ready.retire_begun (hh : holdsOf i = []) : retire (settled s i) (nextMember (begun s i) m) 1 = { s with hart := convoyEnd s i } := by
  obtain ⟨hq, -, -, hu, -⟩ := h
  obtain ⟨hv, hvp, hp, hpp, hx, hvd, -⟩ := begun_regs s i hu
  rw [retire_regs s (begun s i) i m hu hq rfl, settled_end_of s i hh, hv, hvp, hp, hpp, hx, hvd]
  rfl

/-- R52: when the member has changed nothing but the context it runs in, the instruction only retires. -/
theorem Ready.onlyRetires (hm : memberOf i = some m) (hh : holdsOf i = []) {c : Ctx}
    (hr : m.run (begun s i) = { begun s i with hart := { (begun s i).hart with cur := c } }) (hl : c.vl = nextLen s) (ht : c.vtype = nextType s)
    (hf : c.fault = none) (hw : c.wait = none) : OnlyRetires i s := by
  obtain ⟨-, -, -, hu, -⟩ := id h
  obtain ⟨hvl, hvt, -⟩ := begun_cur s i hu
  have hexec := h.retires hm (by rw [hr]; exact hf) (by rw [hr]; exact hw)
  rw [hr] at hexec
  refine hexec.trans (congrArg _ ?_)
  rw [← h.retire_begun hh]
  exact retire_withCur (settled s i) (nextMember (begun s i) m) _ 1 (hl.trans hvl.symm) (ht.trans hvt.symm)

/-- R20: when the member waits at its first element, the convoy waits at the head of the queue. -/
theorem Ready.waitsFirst (hm : memberOf i = some m) (hh : holdsOf i = []) {why : Option Word} (hr : m.run (begun s i) = mustWait (begun s i) why) :
    WaitsAtHead i s why := by
  have hrh : Machine.ranHead (posted s i) (mkConvoy s [i]) [m] = nextMember (mustWait (begun s i) why) m := by
    rw [h.ranHead, ranOne, hr]
  obtain ⟨hq, hp, -, hu, -, hc, hv⟩ := id h
  obtain ⟨-, -, -, -, hfault, -⟩ := begun_cur s i hu
  have hphase : (begun s i).hart.cur.phase = 0 := by rw [begun_settled s i hu]
  have hpn : (begun s i).hart.pennants = s.hart.pennants := by rw [begun_eq s i hu hq hh]
  have hf : (Machine.ranHead (posted s i) (mkConvoy s [i]) [m]).hart.cur.fault = none := by rw [hrh]; exact hfault
  exact waitsAtHead_of hm hq hp hc hv (settled_of s i hh) (by rw [hrh]; rfl) (by rw [hrh]; exact hphase) (by rw [hrh]; exact hpn)
    (fun k j t e => by rw [hf] at e; cases e) (faultBelow_first _ _ _ hf (by rw [hrh]; exact le_refl _))

/-- Of the machine in which the member begins, the cells of memory and the queues of stores are those of the machine before. -/
theorem Ready.sameCells (hh : holdsOf i = []) : SameCells s (begun s i) ∧ (begun s i).hart.storeQ = s.hart.storeQ := by
  obtain ⟨hq, -, -, hu, -⟩ := h
  rw [begun_eq s i hu hq hh]
  exact ⟨⟨_, _, _, _, rfl⟩, rfl⟩

end

/-! ### Fences and pennant members (R26, R39, R173) -/

/-- Every store of the hart and every combining update is visible; the registers are as they were, and the convoy has left the queue. -/
def Drained (s t : State) : Prop :=
  t.hart.storeQ = [] ∧ t.combining = [] ∧ t.mem = (retireWhere (drainAll s) fun _ => true).mem ∧ t.hart.v = s.hart.v ∧ t.hart.x = s.hart.x ∧ t.hart.vq = []

/-- What performing everything leaves of the hart. -/
theorem drainEverything_hart (s : State) : (retireWhere (drainAll s) fun _ => true).hart = { s.hart with storeQ := [] } := by
  obtain ⟨-, hh⟩ := retireWhere_all (drainAll s)
  rw [hh, drainAll_hart]

/-- Every store of the hart and every combining update has been performed, and the pennants are `p`. -/
def drainedWith (s : State) (p : Vector (List (BitVec 32)) 6) : State :=
  { (retireWhere (drainAll s) fun _ => true) with hart := { s.hart with storeQ := [], pennants := p } }

/-- R173: when the member has performed every store and combining update, and at most posted pennants, the retirement leaves the machine drained. -/
theorem Ready.drains {i : Instr} {m : Member} {s : State} (h : Ready i m s) (hm : memberOf i = some m) (hh : holdsOf i = [])
    {p : Vector (List (BitVec 32)) 6} (hrun : m.run (begun s i) = drainedWith (begun s i) p) :
    ∃ t, Machine.exec i s = .next t ∧ Drained s t ∧ t.hart.pennants = p := by
  obtain ⟨hc, hs⟩ := h.sameCells hh
  obtain ⟨hcomb, -⟩ := retireWhere_all (drainAll (begun s i))
  have hmem := ((hc.drainAll hs).retireWhere fun _ => true).mem
  obtain ⟨hq, -, -, hu, -⟩ := id h
  obtain ⟨hv, -, -, -, hx, -⟩ := begun_regs s i hu
  obtain ⟨-, -, -, -, hfault, hwait, -⟩ := begun_cur s i hu
  have hb := begun_eq s i hu hq hh
  have hun : (begun s i).hart.unbound = [] := by rw [hb]
  have hvq : (begun s i).hart.vq.drop 1 = [] := by rw [hb]; rfl
  unfold drainedWith at hrun
  generalize (retireWhere (drainAll (begun s i)) fun _ => true) = y at hcomb hmem hrun
  refine ⟨_, h.retires hm (by rw [hrun]; exact hfault) (by rw [hrun]; exact hwait), ?_⟩
  rw [retire_unbound _ _ _ (by rw [hrun]; exact hun), hrun]
  exact ⟨⟨rfl, hcomb, hmem, hv, hx, hvq⟩, rfl⟩

section
variable {s : State}

/-- R173, R291: `vfence` performs everything, unless it waits for durability. -/
theorem memVfence_run {sc : BitVec 3} (h : Ready (.vfence sc) (memVfence sc) s) :
    (memVfence sc).run (begun s (.vfence sc)) =
      if sc = 6 ∧ vectorPending s = true then mustWait (begun s (.vfence sc)) none else drainedWith (begun s (.vfence sc)) s.hart.pennants := by
  obtain ⟨hq, -, -, hu, -⟩ := h
  obtain ⟨-, -, -, hstop, -⟩ := begun_cur s (.vfence sc) hu
  have hb := begun_eq s (.vfence sc) hu hq rfl
  have hv : vectorPending (begun s (.vfence sc)) = vectorPending s := by rw [hb]; rfl
  have hp : (begun s (.vfence sc)).hart.pennants = s.hart.pennants := by rw [hb]
  unfold memVfence drainedWith
  dsimp only
  rw [hstop, if_neg (by simp), hv, ← hp, ← drainEverything_hart]

/-- R26, R27, R39: a pennant member posts once everything is visible, or waits for room. -/
theorem postMember_run {i : Instr} {m : Member} {c : BitVec 3} {f : State → BitVec 32} (h : Ready i m s) (hm : m = postMember c f) (hh : holdsOf i = []) :
    m.run (begun s i) = if 64 ≤ (pnList s.hart c.toNat).length then mustWait (begun s i) (some (W c.toNat)) else
      drainedWith (begun s i) (s.hart.pennants.set (c.toNat % 6) (pnList s.hart c.toNat ++ [f (begun s i)]) (Nat.mod_lt _ (by decide))) := by
  obtain ⟨hq, -, -, hu, -⟩ := h
  obtain ⟨-, -, -, hstop, hfault, -⟩ := begun_cur s i hu
  have hb := begun_eq s i hu hq hh
  have hp : (begun s i).hart.pennants = s.hart.pennants := by rw [hb]
  have hl : pnList (begun s i).hart c.toNat = pnList s.hart c.toNat := by unfold pnList; rw [hp]
  have hd := drainEverything_hart (begun s i)
  subst hm
  unfold postMember
  dsimp only
  rw [hstop, hfault, if_neg (by simp), hl]
  split
  · rfl
  · unfold pnPush drainedWith pnList
    rw [hd, ← hp]

/-- R39: a pennant is taken from the front of its channel, or the convoy waits for one. -/
theorem memPnTake_run {b : Bool} {c : BitVec 3} (h : Ready (.pnTake b c) (memPnTake c) s) :
    (∀ x l, pnList s.hart c.toNat = x :: l → ∃ k : Ctx, (memPnTake c).run (begun s (.pnTake b c)) =
      { begun s (.pnTake b c) with hart := { (begun s (.pnTake b c)).hart with
        pennants := s.hart.pennants.set (c.toNat % 6) l (Nat.mod_lt _ (by decide)), cur := k } } ∧ k.vl = nextLen s ∧ k.vtype = nextType s ∧
        k.fault = none ∧ k.wait = none) ∧
    (pnList s.hart c.toNat = [] → (memPnTake c).run (begun s (.pnTake b c)) = mustWait (begun s (.pnTake b c)) (some (W c.toNat))) := by
  obtain ⟨hq, -, -, hu, -⟩ := h
  obtain ⟨hvl, hvt, -, -, hfault, hwait, -⟩ := begun_cur s (.pnTake b c) hu
  have hb := begun_eq s (.pnTake b c) hu hq rfl
  have ht : (begun s (.pnTake b c)).hart.cur.taken = none := by rw [begun_settled s _ hu]
  have hp : (begun s (.pnTake b c)).hart.pennants = s.hart.pennants := by rw [hb]
  have hl : pnList (begun s (.pnTake b c)).hart c.toNat = pnList s.hart c.toNat := by unfold pnList; rw [hp]
  unfold memPnTake pnSet
  dsimp only
  rw [ht, hl]
  constructor
  · intro x l hx
    rw [hx]
    exact ⟨{ (begun s (.pnTake b c)).hart.cur with taken := some x }, by rw [← hp]; rfl, hvl, hvt, hfault, hwait⟩
  · intro hx
    rw [hx]
    rfl

end

/-- R104, R255: registers are zeroed whatever the pennants are. -/
theorem zeroRegs_withPennants (l : List Nat) : ∀ (s : State) (p : Vector (List (BitVec 32)) 6),
    zeroRegs { s with hart := { s.hart with pennants := p } } l = { zeroRegs s l with hart := { (zeroRegs s l).hart with pennants := p } } := by
  induction l with
  | nil => intro s p; rfl
  | cons r l ih => intro s p; exact ih (setReg s r 0 0) p

/-- R53: retirement leaves the pennants as they are. -/
theorem retire_withPennants (u r : State) (p : Vector (List (BitVec 32)) 6) (n : Nat) :
    retire u { r with hart := { r.hart with pennants := p } } n = { retire u r n with hart := { (retire u r n).hart with pennants := p } } := by
  unfold retire
  dsimp only
  rw [zeroRegs_withPennants]
  split <;> rfl

/-- R39: the convoy that has taken a pennant retires. -/
theorem pnTake_takes {s : State} {b : Bool} {c : BitVec 3} (h : Ready (.pnTake b c) (memPnTake c) s) {x : BitVec 32} {l : List (BitVec 32)}
    (hx : pnList s.hart c.toNat = x :: l) : exec (.pnTake b c) s = .next { s with hart := { convoyEnd s (.pnTake b c) with
      pennants := s.hart.pennants.set (c.toNat % 6) l (Nat.mod_lt _ (by decide)) } } := by
  obtain ⟨htake, -⟩ := memPnTake_run h
  obtain ⟨k, hrun, hl, ht, hf, hw⟩ := htake x l hx
  obtain ⟨-, -, -, hu, -⟩ := id h
  obtain ⟨hvl, hvt, -⟩ := begun_cur s (.pnTake b c) hu
  have hexec := h.retires rfl (by rw [hrun]; exact hf) (by rw [hrun]; exact hw)
  rw [hrun] at hexec
  refine hexec.trans (congrArg _ ?_)
  have hcur := retire_withCur (settled s (.pnTake b c)) (nextMember (begun s (.pnTake b c)) (memPnTake c)) { k with
    index := k.index + 1, cut := if k.fault.isSome || k.stop.isSome then k.cut ++ (memPnTake c).dsts ++ (memPnTake c).pdsts.map (32 + ·) else k.cut } 1
    (hl.trans hvl.symm) (ht.trans hvt.symm)
  rw [h.retire_begun rfl] at hcur
  exact (retire_withPennants _ _ _ 1).trans (by rw [hcur])

end Sys2Proof.Machine
end

section
/-! SUPPORT. An element of an atomic is reached alike in every context of the convoy (R174, R177). -/

namespace Sys2Proof.Machine

/-! ### Reaching an element whatever the context of the convoy (R174, R177) -/

/-- The machine with another context of the convoy that is performed. -/
def withCur (s : State) (c : Ctx) : State := { s with hart := { s.hart with cur := c } }

/-- Of what is gathered of a list, its first element enters by what is asked of it alone. -/
theorem flatMap_filter_head {α β : Type} {p : α → Bool} {g : α → List β} {a b : α} (hp : p a = p b) (hg : g a = g b) (l : List α) :
    ((a :: l).filter p).flatMap g = ((b :: l).filter p).flatMap g := by
  rw [List.filter_cons, List.filter_cons, hp]
  split
  · rw [List.flatMap_cons, List.flatMap_cons, hg]
  · rfl

theorem reservedRanges_withCur (s : State) (c : Ctx) (core : Nat) : reservedRanges (withCur s c) core = reservedRanges s core := by
  have hc : coreOf (withCur s c) core = coreOf s core := rfl
  unfold reservedRanges harts
  rw [hc]
  refine flatMap_filter_head ?_ ?_ s.others <;> rfl

theorem reservedByte_withCur (s : State) (c : Ctx) (core n : Nat) : ∀ k, reservedByte (withCur s c) core k n = reservedByte s core k n := by
  induction n with
  | zero => intro k; rfl
  | succ n ih => intro k; unfold reservedByte; rw [reservedRanges_withCur, ih]

theorem lateFault_withCur (s : State) (c : Ctx) (va : Word) (k n : Nat) : lateFault (withCur s c) va k n = lateFault s va k n := by
  unfold lateFault
  rw [reservedByte_withCur]
  rfl

theorem setAD_withCur (s : State) (c : Ctx) (a : Nat) (acc : Acc) : setAD (withCur s c) a acc = withCur (setAD s a acc) c := by
  have hf : moduleFailed (withCur s c) a = moduleFailed s a := rfl
  have hm : (withCur s c).mem = s.mem := rfl
  unfold setAD
  rw [hf, hm]
  dsimp only
  split <;> rfl

theorem grantLeaf_withCur (s : State) (c : Ctx) (p : Nat) (va : Word) (acc : Acc) (h : Hit) :
    grantLeaf (withCur s c) p va acc h = (withCur (grantLeaf s p va acc h).1 c, (grantLeaf s p va acc h).2) := by
  have hc : contextOf (withCur s c) p = contextOf s p := rfl
  unfold grantLeaf
  rw [hc, setAD_withCur]
  split
  · rfl
  · split
    · rfl
    · dsimp only
      split <;> rfl

theorem locate_withCur (s : State) (c : Ctx) (p : Nat) (va : Word) (acc : Acc) : locate (withCur s c) p va acc = locate s p va acc := rfl

theorem grant_withCur (s : State) (c : Ctx) (p : Nat) (va : Word) (acc : Acc) (h : Hit) :
    grant (withCur s c) p va acc h = (withCur (grant s p va acc h).1 c, (grant s p va acc h).2) := by
  have hm : (withCur s c).mem = s.mem := rfl
  unfold grant
  rw [hm, locate_withCur]
  split
  · exact grantLeaf_withCur _ _ _ _ _ _
  · split
    · exact grantLeaf_withCur _ _ _ _ _ _
    · rfl

theorem grantPlace_withCur (s : State) (c : Ctx) (va : Word) (acc : Acc) (h : Hit) :
    grantPlace (withCur s c) va acc h = (withCur (grantPlace s va acc h).1 c, (grantPlace s va acc h).2) := by
  unfold grantPlace
  split
  · rfl
  · exact grant_withCur _ _ _ _ _ _

theorem findPlace_withCur (s : State) (c : Ctx) (va : Word) (n : Nat) (acc : Acc) : findPlace (withCur s c) va n acc = findPlace s va n acc := rfl

theorem inReach_withCur (s : State) (c : Ctx) (va : Word) (k sc : Nat) : inReach (withCur s c) va k sc = inReach s va k sc := rfl

theorem checkScoped_withCur (s : State) (c : Ctx) (va : Word) (n sc : Nat) (acc : Acc) :
    checkScoped (withCur s c) va n sc acc = (withCur (checkScoped s va n sc acc).1 c, (checkScoped s va n sc acc).2) := by
  unfold checkScoped
  rw [findPlace_withCur]
  split
  · rfl
  · split
    · rename_i h _
      rw [inReach_withCur, grantPlace_withCur]
      split
      · rfl
      · rcases grantPlace s va acc h with ⟨t, _ | _ | _⟩
        · dsimp only
          rw [lateFault_withCur]
          split <;> rfl
        · rfl
        · rfl
    · rfl

theorem reachScoped_withCur (sc : Nat) (s : State) (c : Ctx) (f : Foot) (acc : Acc) :
    reachScoped sc (withCur s c) f acc = (withCur (reachScoped sc s f acc).1 c, (reachScoped sc s f acc).2) := by
  unfold reachScoped
  rw [checkScoped_withCur]
  rcases checkScoped s f.va (f.wm / 8) sc acc with ⟨t, _ | _ | _ | _⟩ <;> rfl

/-- An element is reached alike in every context of one element width. -/
theorem atomReach_withCur (s t : State) (c d : Ctx) (hc : c.vtype = s.hart.cur.vtype) (f : OpVA) (acc : Acc) (e : Nat) :
    atomReach (withCur s c) (withCur t d) f acc e = (withCur (atomReach s t f acc e).1 d, (atomReach s t f acc e).2) := by
  have hw : ew (withCur s c) = ew s := by
    unfold ew withCur
    rw [← hc]
  have he : elG (withCur s c) f.vb.toNat e 64 = elG s f.vb.toNat e 64 := rfl
  have hp : elGP (withCur s c) f.vb.toNat e 64 = elGP s f.vb.toNat e 64 := rfl
  unfold atomReach
  rw [hw, he, hp]
  dsimp only
  split
  · rfl
  · rw [reachScoped_withCur]
    rcases reachScoped f.sc.toNat t { va := W (elG s f.vb.toNat e 64), bit := 0, wm := ew s } acc with ⟨u, _ | _ | _ | _⟩ <;> rfl

theorem hartRead_withCur (s : State) (c : Ctx) (n : Nat) : ∀ k, hartRead (withCur s c) k n = hartRead s k n := by
  induction n with
  | zero => intro k; rfl
  | succ n ih => intro k; unfold hartRead; rw [ih]; rfl

theorem readsPoison_withCur (s : State) (c : Ctx) (k n : Nat) : readsPoison (withCur s c) k n = readsPoison s k n := rfl

theorem flushCombine_of_empty {s : State} (h : s.combining = []) (k n : Nat) : flushCombine s k n = s := by
  unfold flushCombine
  rw [h]
  rfl

end Sys2Proof.Machine
end

section
/-! SUPPORT. The loop of a `vwait` (R179). -/

namespace Sys2Proof.Machine

/-! ### The elements of a `vwait` (R179) -/

/-- The machine with the elements that have been waited for, and the leaves whose translations are held, noted in the context. -/
def noted (b : State) (waited held : List Nat) : State := withCur b { b.hart.cur with waited := waited, held := held }

/-- What a `vwait` does at an element, as its loop does it. -/
def vwaitStep (f : OpVA) (c : Nat → Nat → Nat → Bool) (s : State) (e : Nat) (a : State × Option Nat × Option (Nat × Trap)) :
    State × Option Nat × Option (Nat × Trap) :=
  if a.2.2.isSome || !decide (e < limit s) || !active s f.pred.toNat e || s.hart.cur.waited.contains (waitKey s e) then a
  else
    match atomReach s a.1 f .load e with
    | (u, .ok [(h, _)], va) =>
      let u := flushCombine u h.key (ew s / 8)
      let u := { u with hart := { u.hart with cur := { u.hart.cur with held := insertN h.pteAt u.hart.cur.held } } }
      if readsPoison u h.key (ew s / 8) then (a.1, a.2.1, some (e, ⟨.poison, va⟩))
      else if c (ew s) (hartRead u h.key (ew s / 8)) (el s f.vd.toNat e (ew s)) then
        ({ u with hart := { u.hart with cur := { u.hart.cur with waited := insertN (waitKey s e) u.hart.cur.waited } } }, a.2.1, none)
      else (u, some (a.2.1.getD e), none)
    | (u, .missed, _) => (setPsm u e, a.2.1, none)
    | (_, .trap tr, _) => (a.1, a.2.1, some (e, tr))
    | (u, _, _) => (u, some (a.2.1.getD e), none)

/-- The loop of a `vwait`. -/
theorem vwaitM_run (f : OpVA) (c : Nat → Nat → Nat → Bool) (s : State) : (vwaitM f c).run s =
    match forUp (s.hart.cur.vl - s.hart.cur.vstart) s.hart.cur.vstart (s, none, none) (vwaitStep f c s) with
    | (t, some e, _) => waitAtEl t e none
    | (t, none, some (e, tr)) => raise t e tr
    | (t, none, none) => t := rfl

/-- An active element below the limit whose condition does not hold. -/
def unmet (f : OpVA) (c : Nat → Nat → Nat → Bool) (place : Nat → Hit) (b : State) (e : Nat) : Bool :=
  decide (e < limit b) && active b f.pred.toNat e && !c (ew b) (hartRead b (place e).key (ew b / 8)) (el b f.vd.toNat e (ew b))

section
variable {f : OpVA} {c : Nat → Nat → Nat → Bool} {place : Nat → Hit} {b : State} (hcomb : b.combining = []) (hwaited : b.hart.cur.waited = [])
variable (hreach : ∀ e, b.hart.cur.vstart ≤ e → e < limit b → active b f.pred.toNat e = true → ∃ va,
  atomReach b b f .load e = (b, .ok [(place e, ew b / 8)], va) ∧ readsPoison b (place e).key (ew b / 8) = false)
include hcomb hwaited hreach

/-- R179: at an element that is reached and not poisoned, a `vwait` notes what it has found. -/
theorem vwaitStep_noted {e : Nat} (he : b.hart.cur.vstart ≤ e) (w h : List Nat) (o : Option Nat) :
    ∃ w' h', vwaitStep f c b e (noted b w h, o, none) = (noted b w' h', if unmet f c place b e then some (o.getD e) else o, none) := by
  unfold vwaitStep unmet
  by_cases hon : e < limit b ∧ active b f.pred.toNat e = true
  · obtain ⟨hl, ha⟩ := hon
    obtain ⟨va, hr, hp⟩ := hreach e he hl ha
    have hr' : atomReach b (noted b w h) f .load e = (noted b w h, .ok [(place e, ew b / 8)], va) := by
      have := atomReach_withCur b b b.hart.cur { b.hart.cur with waited := w, held := h } rfl f .load e
      rw [hr] at this
      exact this
    have hf : flushCombine (noted b w h) (place e).key (ew b / 8) = noted b w h := flushCombine_of_empty (s := noted b w h) hcomb _ _
    rw [if_neg (by simp [hl, ha, hwaited])]
    simp only [hr', hf]
    change ∃ w' h', (if readsPoison (noted b w (insertN (place e).pteAt h)) (place e).key (ew b / 8) = true then _ else
      if c (ew b) (hartRead (noted b w (insertN (place e).pteAt h)) (place e).key (ew b / 8)) (el b f.vd.toNat e (ew b)) = true then
        (noted b (insertN (waitKey b e) w) (insertN (place e).pteAt h), o, none) else (noted b w (insertN (place e).pteAt h), some (o.getD e), none)) = _
    have hp' : readsPoison (noted b w (insertN (place e).pteAt h)) (place e).key (ew b / 8) = false := (readsPoison_withCur _ _ _ _).trans hp
    have hread : hartRead (noted b w (insertN (place e).pteAt h)) (place e).key (ew b / 8) = hartRead b (place e).key (ew b / 8) :=
      hartRead_withCur _ _ _ _
    rw [hp', if_neg Bool.false_ne_true, hread]
    cases hc : c (ew b) (hartRead b (place e).key (ew b / 8)) (el b f.vd.toNat e (ew b))
    · exact ⟨w, insertN (place e).pteAt h, by simp [hl, ha]⟩
    · exact ⟨insertN (waitKey b e) w, insertN (place e).pteAt h, by simp⟩
  · refine ⟨w, h, ?_⟩
    have hoff : (decide (e < limit b) && active b f.pred.toNat e) = false := by
      rw [Bool.eq_false_iff, ne_eq, Bool.and_eq_true, decide_eq_true_eq]
      exact hon
    rw [hoff, Bool.false_and, if_neg Bool.false_ne_true, if_pos]
    rw [Bool.or_assoc, Bool.or_assoc, ← Bool.or_assoc (!decide _), ← Bool.not_and, hoff]
    simp

/-- R179: the loop of a `vwait` ends at the lowest element whose condition does not hold. -/
theorem vwaitLoop (n : Nat) : ∀ (lo : Nat) (w h : List Nat) (o : Option Nat), b.hart.cur.vstart ≤ lo →
    ∃ w' h', forUp n lo (noted b w h, o, none) (vwaitStep f c b) = (noted b w' h', o.or ((List.range' lo n).find? (unmet f c place b)), none) := by
  induction n with
  | zero => intro lo w h o _; exact ⟨w, h, by rw [List.range'_zero, List.find?_nil, Option.or_none]; rfl⟩
  | succ n ih =>
    intro lo w h o hlo
    obtain ⟨w1, h1, hs⟩ := vwaitStep_noted (c := c) hcomb hwaited hreach hlo w h o
    obtain ⟨w2, h2, hl⟩ := ih (lo + 1) w1 h1 (if unmet f c place b lo then some (o.getD lo) else o) (by omega)
    refine ⟨w2, h2, ?_⟩
    unfold forUp
    rw [hs, hl, List.range'_succ, List.find?_cons]
    cases unmet f c place b lo
    · rfl
    · cases o <;> rfl

/-- R179: what a `vwait` makes of the machine in which it begins. -/
theorem vwaitM_noted : ∃ w h, (vwaitM f c).run b =
    match (List.range' b.hart.cur.vstart (b.hart.cur.vl - b.hart.cur.vstart)).find? (unmet f c place b) with
    | some e => waitAtEl (noted b w h) e none
    | none => noted b w h := by
  obtain ⟨w, h, hl⟩ := vwaitLoop (c := c) hcomb hwaited hreach (b.hart.cur.vl - b.hart.cur.vstart) b.hart.cur.vstart b.hart.cur.waited b.hart.cur.held none
    (le_refl _)
  refine ⟨w, h, ?_⟩
  rw [vwaitM_run]
  change (match forUp _ _ (noted b b.hart.cur.waited b.hart.cur.held, none, none) _ with
    | (t, some e, _) => waitAtEl t e none
    | (t, none, some (e, tr)) => raise t e tr
    | (t, none, none) => t) = _
  rw [hl, Option.none_or]
  cases (List.range' b.hart.cur.vstart (b.hart.cur.vl - b.hart.cur.vstart)).find? (unmet f c place b) <;> rfl

end

end Sys2Proof.Machine
end

section
/-! SUPPORT. A `vwait` as a convoy of its own: it retires, or waits with every lower element done (R90, R179). -/

namespace Sys2Proof.Machine

/-! ### A `vwait` as a convoy of its own (R179) -/

/-- What a `vwait` that waits leaves in the context, and what it leaves as it was. -/
theorem waitAtEl_noted (b : State) (w k : List Nat) (e : Nat) (m : Member) :
    let r := nextMember (waitAtEl (noted b w k) e none) m
    r.hart.cur.wait = some none ∧ r.hart.cur.waitAt = e ∧ r.hart.cur.fault = b.hart.cur.fault ∧ r.hart.cur.phase = b.hart.cur.phase ∧
      r.hart.pennants = b.hart.pennants := by
  unfold nextMember waitAtEl noted withCur
  exact ⟨rfl, rfl, rfl, rfl, rfl⟩

/-- With no convoy queued, the width at decode is that of the next convoy. -/
theorem dctx_ew {s : State} (hq : s.hart.vq = []) : (dctx s).ew = nextWidth s := by
  unfold dctx seqVtype nextWidth nextType
  rw [hq]
  cases s.hart.pend <;> rfl

/-- R175: the elements of an atomic are of 32 or 64 bits. -/
theorem atomCheck_ew {vb : BitVec 5} {fp : Bool} {d : DCtx} (h : atomCheck vb fp d = none) : d.ew = 32 ∨ d.ew = 64 := by
  unfold atomCheck at h
  by_contra hn
  rw [if_pos (by omega)] at h
  cases h

theorem overlay_lt (q : List PStore) (k : Nat) : ∀ b, b < 256 → overlay q k b < 256 := by
  unfold overlay
  intro b hb
  refine List.foldlRecOn (motive := fun b => b < 256) q _ hb fun b hb st _ => ?_
  dsimp only
  split
  · refine Nat.or_lt_two_pow (n := 8) (lt_of_le_of_lt Nat.and_le_left hb) (lt_of_le_of_lt Nat.and_le_left (Nat.mod_lt _ (by decide)))
  · exact hb

/-- `n` bytes are a number of `n` bytes. -/
theorem hartRead_lt (s : State) (n : Nat) : ∀ k, hartRead s k n < 256 ^ n := by
  induction n with
  | zero => intro k; exact Nat.one_pos
  | succ n ih =>
    intro k
    have hb : hartByte s k < 256 := overlay_lt _ _ _ (BitVec.isLt _)
    have := ih (k + 1)
    unfold hartRead
    rw [Nat.pow_succ]
    omega

section
variable {f : OpVA} {cb : Nat → Nat → Nat → Bool} {i : Instr} {s : State} {place : Nat → Hit} (h : Ready i (vwaitM f cb) s) (hh : holdsOf i = [])
variable (hcomb : s.combining = [])
variable (hreach : ∀ e ∈ activeBody s f.pred.toNat, ∃ va,
  atomReach (begun s i) (begun s i) f .load e = (begun s i, .ok [(place e, nextWidth s / 8)], va) ∧
    readsPoison (begun s i) (place e).key (nextWidth s / 8) = false)
include h hh hcomb hreach

/-- The machine in which a `vwait` begins, when it is to be performed below an element alone. -/
def begunBelow (s : State) (i : Instr) (stop : Option Nat) : State := withCur (begun s i) { (begun s i).hart.cur with stop := stop }

/-- R90: what a `vwait` makes of the machine, performed below `stop`. -/
theorem vwait_below (stop : Option Nat) : ∃ w k, (vwaitM f cb).run (begunBelow s i stop) =
    match (List.range' s.hart.vstart (nextLen s - s.hart.vstart)).find? (unmet f cb place (begunBelow s i stop)) with
    | some e => waitAtEl (noted (begunBelow s i stop) w k) e none
    | none => noted (begunBelow s i stop) w k := by
  obtain ⟨hq, -, -, hu, -⟩ := h
  obtain ⟨hvl, hvt, hvs, -, hf, -⟩ := begun_cur s i hu
  obtain ⟨-, -, hp, -⟩ := begun_regs s i hu
  have hc : (begunBelow s i stop).combining = [] := by
    unfold begunBelow withCur
    rw [begun_eq s i hu hq hh]
    exact hcomb
  have hw : (begunBelow s i stop).hart.cur.waited = [] := by
    unfold begunBelow withCur
    rw [begun_settled s i hu]
  have hew : ew (begunBelow s i stop) = nextWidth s := congrArg ewOf hvt
  have hr : ∀ e, (begunBelow s i stop).hart.cur.vstart ≤ e → e < limit (begunBelow s i stop) → active (begunBelow s i stop) f.pred.toNat e = true →
      ∃ va, atomReach (begunBelow s i stop) (begunBelow s i stop) f .load e = (begunBelow s i stop, .ok [(place e, ew (begunBelow s i stop) / 8)], va) ∧
        readsPoison (begunBelow s i stop) (place e).key (ew (begunBelow s i stop) / 8) = false := by
    intro e h1 h2 ha
    have hl : e < nextLen s := by
      unfold limit begunBelow withCur at h2
      dsimp only at h2
      rw [hf, hvl] at h2
      exact lt_of_lt_of_le h2 (min_le_left _ _)
    have hm : e ∈ activeBody s f.pred.toNat := by
      unfold activeBody
      rw [List.mem_filter, List.mem_range, Bool.and_eq_true, decide_eq_true_eq]
      exact ⟨hl, hvs ▸ h1, (active_congr hp _ _).symm.trans ha⟩
    obtain ⟨va, hgo, hpois⟩ := hreach e hm
    refine ⟨va, ?_, ?_⟩
    · rw [hew]
      unfold begunBelow
      rw [atomReach_withCur (begun s i) (begun s i) { (begun s i).hart.cur with stop := stop } _ rfl, hgo]
    · rw [hew, begunBelow, readsPoison_withCur]
      exact hpois
  obtain ⟨w, k, hrun⟩ := vwaitM_noted (c := cb) hc hw hr
  refine ⟨w, k, ?_⟩
  rw [hrun]
  change (match (List.range' (begun s i).hart.cur.vstart ((begun s i).hart.cur.vl - (begun s i).hart.cur.vstart)).find? _ with
    | some e => waitAtEl (noted (begunBelow s i stop) w k) e none
    | none => noted (begunBelow s i stop) w k) = _
  rw [hvl, hvs]

omit hh hcomb hreach in
/-- R179: the elements that a `vwait` waits for, when it is performed below `stop`. -/
theorem unmet_below (stop : Option Nat) (e : Nat) : unmet f cb place (begunBelow s i stop) e =
    (decide (e < min (nextLen s) (stop.getD (nextLen s))) && active s f.pred.toNat e &&
      !cb (nextWidth s) (hartRead (begun s i) (place e).key (nextWidth s / 8)) (el s f.vd.toNat e (nextWidth s))) := by
  obtain ⟨-, -, -, hu, -⟩ := h
  obtain ⟨hvl, hvt, -, -, hf, -⟩ := begun_cur s i hu
  obtain ⟨hv, -, hp, -⟩ := begun_regs s i hu
  have hew : ew (begunBelow s i stop) = nextWidth s := congrArg ewOf hvt
  have hlim : limit (begunBelow s i stop) = min (nextLen s) (stop.getD (nextLen s)) := by
    unfold limit begunBelow withCur
    dsimp only
    rw [hf, hvl]
  have hread : hartRead (begunBelow s i stop) (place e).key (nextWidth s / 8) = hartRead (begun s i) (place e).key (nextWidth s / 8) :=
    hartRead_withCur _ _ _ _
  have ha : active (begunBelow s i stop) f.pred.toNat e = active s f.pred.toNat e := active_congr hp _ _
  have he : el (begunBelow s i stop) f.vd.toNat e (nextWidth s) = el s f.vd.toNat e (nextWidth s) := el_congr hv _ _ _
  unfold unmet
  rw [hew, hlim, hread, ha, he]

omit hh hcomb hreach in
/-- A machine in which a convoy begins is performed without a stop. -/
theorem begunBelow_none : begunBelow s i none = begun s i := by
  obtain ⟨-, -, -, hu, -⟩ := h
  obtain ⟨-, -, -, hs, -⟩ := begun_cur s i hu
  unfold begunBelow withCur
  rw [← hs]

/-- R179: with every condition met, the `vwait` retires, with no result. -/
theorem vwait_retires (hm : memberOf i = some (vwaitM f cb))
    (hmet : ∀ e ∈ activeBody s f.pred.toNat, cb (nextWidth s) (hartRead (begun s i) (place e).key (nextWidth s / 8)) (el s f.vd.toNat e (nextWidth s)) = true) :
    OnlyRetires i s := by
  obtain ⟨w, k, hrun⟩ := vwait_below h hh hcomb hreach none
  have hnone : (List.range' s.hart.vstart (nextLen s - s.hart.vstart)).find? (unmet f cb place (begunBelow s i none)) = none := by
    rw [List.find?_range'_eq_none]
    intro e h1 h2
    rw [unmet_below h]
    cases ha : active s f.pred.toNat e
    · simp
    · have he : e ∈ activeBody s f.pred.toNat := by
        unfold activeBody
        rw [List.mem_filter, List.mem_range, ha, Bool.and_true, decide_eq_true_eq]
        exact ⟨by omega, h1⟩
      simp [hmet e he]
  rw [hnone, begunBelow_none h] at hrun
  obtain ⟨-, -, -, hu, -⟩ := id h
  obtain ⟨hvl, hvt, -, -, hf, hw, -⟩ := begun_cur s i hu
  exact h.onlyRetires hm hh (c := { (begun s i).hart.cur with waited := w, held := k }) hrun hvl hvt hf hw

/-- R90, R179: below the element that waits every condition is met, so no condition of the convoy lies there. -/
theorem vwait_faultBelow {e : Nat} (he : (List.range' s.hart.vstart (nextLen s - s.hart.vstart)).find? (unmet f cb place (begunBelow s i none)) = some e)
    {r : State} (hw : r.hart.cur.wait = some none) (hwa : r.hart.cur.waitAt = e) (hrf : r.hart.cur.fault = none) (q : State) :
    faultBelow (begun s i) [vwaitM f cb] r ≠ some q := by
  obtain ⟨-, -, hb, hu, ht, -⟩ := id h
  obtain ⟨-, -, hvs, -, hf, hwt, -⟩ := begun_cur s i hu
  by_cases hfirst : r.hart.cur.waitAt ≤ (begun s i).hart.cur.vstart
  · exact faultBelow_first _ _ _ hrf hfirst q
  · obtain ⟨w, k, hrun⟩ := vwait_below h hh hcomb hreach (some e)
    have hnone : (List.range' s.hart.vstart (nextLen s - s.hart.vstart)).find? (unmet f cb place (begunBelow s i (some e))) = none := by
      obtain ⟨-, hmem, hlow⟩ := List.find?_range'_eq_some.mp he
      rw [List.find?_range'_eq_none]
      intro x h1 h2
      rw [unmet_below h]
      by_cases hx : x < e
      · have := hlow x h1 hx
        rw [unmet_below h] at this
        have hlt : x < nextLen s := by omega
        simpa [hlt, hx] using this
      · have hge : ¬x < min (nextLen s) ((some e).getD (nextLen s)) := fun hlt => hx (lt_of_lt_of_le hlt (min_le_right _ _))
        rw [decide_eq_false hge]
        simp
    rw [hnone] at hrun
    change _ = noted (begunBelow s i (some e)) w k at hrun
    have hmem : runMembers (begunBelow s i (some e)) [vwaitM f cb] = nextMember (noted (begunBelow s i (some e)) w k) (vwaitM f cb) := by
      have hcur := begun_settled s i hu
      rw [← hrun]
      refine runMembers_one _ _ hwt ?_ ?_ ?_ ?_ <;> unfold begunBelow withCur <;> rw [hcur]
      · exact hb
      · rw [settled_hart]
        exact ht
    have hbelow : runBelow (begun s i) [vwaitM f cb] 2 r = nextMember (noted (begunBelow s i (some e)) w k) (vwaitM f cb) := by
      unfold runBelow
      rw [hw, decide_eq_false hfirst, if_neg (by simp), hwa]
      change runBelow (begun s i) [vwaitM f cb] 1 (runMembers (begunBelow s i (some e)) [vwaitM f cb]) = _
      rw [hmem]
      unfold runBelow
      rw [if_pos]
      rw [show (nextMember (noted (begunBelow s i (some e)) w k) (vwaitM f cb)).hart.cur.wait = none from hwt]
      rfl
    have hfault : (nextMember (noted (begunBelow s i (some e)) w k) (vwaitM f cb)).hart.cur.fault = none := hf
    exact faultBelow_none hbelow hfault q

/-- R179: with a condition that does not hold, the `vwait` waits at the head of the vector queue. -/
theorem vwait_waits (hm : memberOf i = some (vwaitM f cb))
    (hun : ∃ e ∈ activeBody s f.pred.toNat, cb (nextWidth s) (hartRead (begun s i) (place e).key (nextWidth s / 8)) (el s f.vd.toNat e (nextWidth s)) = false) :
    WaitsAtHead i s none := by
  obtain ⟨w, k, hrun⟩ := vwait_below h hh hcomb hreach none
  obtain ⟨e, he⟩ : ∃ e, (List.range' s.hart.vstart (nextLen s - s.hart.vstart)).find? (unmet f cb place (begunBelow s i none)) = some e := by
    rw [← Option.isSome_iff_exists, List.find?_isSome]
    obtain ⟨e, hb, hc⟩ := hun
    unfold activeBody at hb
    rw [List.mem_filter, List.mem_range, Bool.and_eq_true, decide_eq_true_eq] at hb
    obtain ⟨hl, hv, ha⟩ := hb
    refine ⟨e, List.mem_range'_1.mpr ⟨hv, by omega⟩, ?_⟩
    rw [unmet_below h, ha, hc]
    simp [hl]
  have hfb := fun r hw hwa hrf => vwait_faultBelow h hh hcomb hreach he (r := r) hw hwa hrf
  rw [he, begunBelow_none h] at hrun
  have hrh : ranHead (posted s i) (mkConvoy s [i]) [vwaitM f cb] = nextMember (waitAtEl (noted (begun s i) w k) e none) (vwaitM f cb) := by
    rw [h.ranHead, ranOne, hrun]
  obtain ⟨hq, hp, -, hu, -, hc, hv⟩ := id h
  obtain ⟨-, -, -, -, hfault, -⟩ := begun_cur s i hu
  have hphase : (begun s i).hart.cur.phase = 0 := by rw [begun_settled s i hu]
  have hpn : (begun s i).hart.pennants = s.hart.pennants := by rw [begun_eq s i hu hq hh]
  obtain ⟨hrw, hra, hrf, hrp, hrn⟩ := waitAtEl_noted (begun s i) w k e (vwaitM f cb)
  rw [← hrh] at hrw hra hrf hrp hrn
  rw [hfault] at hrf
  exact waitsAtHead_of hm hq hp hc hv (settled_of s i hh) hrw (hrp.trans hphase) (hrn.trans hpn) (fun k j t e => by rw [hrf] at e; cases e)
    (hfb _ hrw hra hrf)

end

end Sys2Proof.Machine
end

section
/-! SUPPORT. What `vwait`, `vfence`, `dpb` and the pennant members do (R26, R39, R173, R179, R291, R293). -/

namespace Sys2Proof.Machine

/-- R179: a `vwait` whose condition, on numbers of the element width, is `C`. -/
theorem vwait_rule {f : OpVA} {cb : Nat → Nat → Nat → Bool} {i : Instr} {s : State} (C : Nat → Nat → Prop) {place : Nat → Hit} {va : Nat → Word}
    (hm : memberOf i = some (vwaitM f cb)) (hh : holdsOf i = []) (hcomb : s.combining = [])
    (hC : ∀ x v, x % 2 ^ nextWidth s = x → v % 2 ^ nextWidth s = v → (cb (nextWidth s) x v = true ↔ C x v)) (hruns : Runs i s)
    (hreach : ∀ e ∈ activeBody s f.pred.toNat,
      atomReach (begun s i) (begun s i) f .load e = (begun s i, .ok [(place e, nextWidth s / 8)], va e) ∧
        readsPoison (begun s i) (place e).key (nextWidth s / 8) = false) :
    ((∀ e ∈ activeBody s f.pred.toNat, C (hartRead (begun s i) (place e).key (nextWidth s / 8)) (el s f.vd.toNat e (nextWidth s))) → OnlyRetires i s) ∧
      ((∃ e ∈ activeBody s f.pred.toNat, ¬C (hartRead (begun s i) (place e).key (nextWidth s / 8)) (el s f.vd.toNat e (nextWidth s))) →
        WaitsAtHead i s none) := by
  obtain ⟨m, hmm, h⟩ := hruns
  obtain rfl : vwaitM f cb = m := Option.some.inj (hm.symm.trans hmm)
  have hread (k : Nat) : hartRead (begun s i) k (nextWidth s / 8) % 2 ^ nextWidth s = hartRead (begun s i) k (nextWidth s / 8) := by
    obtain ⟨hq, -, -, -, -, hc, -⟩ := id h
    have hlt := hartRead_lt (begun s i) (nextWidth s / 8) k
    have hw := atomCheck_ew hc
    rw [dctx_ew hq] at hw
    refine Nat.mod_eq_of_lt (lt_of_lt_of_le hlt ?_)
    rcases hw with hw | hw <;> rw [hw] <;> decide
  have hcond (e : Nat) : cb (nextWidth s) (hartRead (begun s i) (place e).key (nextWidth s / 8)) (el s f.vd.toNat e (nextWidth s)) = true ↔
      C (hartRead (begun s i) (place e).key (nextWidth s / 8)) (el s f.vd.toNat e (nextWidth s)) := hC _ _ (hread _) (el_lt _ _ _ _)
  refine ⟨fun hmet => vwait_retires h hh hcomb (fun e he => ⟨_, hreach e he⟩) hm fun e he => (hcond e).mpr (hmet e he), fun ⟨e, he, hun⟩ => ?_⟩
  exact vwait_waits h hh hcomb (fun e he => ⟨_, hreach e he⟩) hm ⟨e, he, Bool.eq_false_iff.mpr fun hc => hun ((hcond e).mp hc)⟩

theorem wEq_iff {w a b : Nat} (ha : a % 2 ^ w = a) (hb : b % 2 ^ w = b) : wEq w a b = true ↔ a = b := by
  unfold wEq
  rw [ha, hb, beq_iff_eq]

theorem wGe_iff {w a b : Nat} : wGe w a b = true ↔ signExt b w ≤ signExt a w := decide_eq_true_iff

theorem wGen_iff {w a b : Nat} (ha : a % 2 ^ w = a) (hb : b % 2 ^ w = b) : wGen w a b = true ↔ b ≤ a := by
  unfold wGen
  rw [ha, hb, decide_eq_true_iff]

/-- Of two opposite conditions, the second holds where the first does not. -/
theorem not_bool_iff {c : Bool} {p q : Prop} (h : c = true ↔ p) (hq : q ↔ ¬p) : (!c) = true ↔ q := by
  rw [Bool.not_eq_true', hq, ← h, Bool.not_eq_true]

/-- R293: `dpb` waits for the durability of its epochs. -/
theorem memDpb_run (f : OpDS) (s : State) : (memDpb f).run s = if persisted s s.hart.cur.epoch then s else mustWait s none := rfl

/-- R292: `dpb` retires under the epoch in which it was posted. -/
theorem dpb_epoch {s : State} (f : OpDS) (hu : s.hart.unbound = []) : (begun s (.dpb f)).hart.cur.epoch = s.hart.epoch := by
  rw [begun_settled s _ hu]
  rfl

/-- Settles O34: one lemma for what each member does, and `Ready.onlyRetires`, `Ready.drains`, `Ready.waitsFirst` for how its convoy ends. -/
theorem vectorWaitResults : Obligations.VectorWaitResults := by
  unfold Obligations.VectorWaitResults
  refine ⟨fun f s place va hcomb => ?_, fun s => ⟨fun sc => ?_, fun f => ?_, fun b c => ?_, fun c => ?_⟩⟩
  · refine ⟨vwait_rule (fun x v => x = v) rfl rfl hcomb fun x v => wEq_iff,
      vwait_rule (fun x v => x ≠ v) rfl rfl hcomb fun x v hx hv => not_bool_iff (wEq_iff hx hv) Iff.rfl,
      vwait_rule (fun x v => signExt v (nextWidth s) ≤ signExt x (nextWidth s)) rfl rfl hcomb fun x v _ _ => wGe_iff,
      vwait_rule (fun x v => signExt x (nextWidth s) < signExt v (nextWidth s)) rfl rfl hcomb fun x v _ _ => not_bool_iff wGe_iff not_le.symm,
      vwait_rule (fun x v => v ≤ x) rfl rfl hcomb fun x v => wGen_iff,
      vwait_rule (fun x v => x < v) rfl rfl hcomb fun x v hx hv => not_bool_iff (wGen_iff hx hv) not_le.symm⟩
  · rintro ⟨m, hm, h⟩
    obtain rfl : memVfence sc = m := Option.some.inj hm
    have hrun := memVfence_run h
    refine ⟨fun hp => ?_, fun h6 hp => h.waitsFirst rfl rfl (hrun.trans (if_pos ⟨h6, hp⟩))⟩
    have hn : ¬(sc = 6 ∧ vectorPending s = true) := by
      rintro ⟨h6, ht⟩
      rcases hp with hp | hp
      · exact hp h6
      · rw [hp] at ht
        cases ht
    exact h.drains rfl rfl (hrun.trans (if_neg hn))
  · rintro ⟨m, hm, h⟩
    obtain rfl : memDpb f = m := Option.some.inj hm
    obtain ⟨-, -, -, hu, -⟩ := id h
    obtain ⟨hvl, hvt, -, -, hfault, hwait, -⟩ := begun_cur s (.dpb f) hu
    have hrun := memDpb_run f (begun s (.dpb f))
    rw [dpb_epoch f hu] at hrun
    refine ⟨fun hp => ⟨?_, rfl⟩, fun hp => ?_⟩
    · rw [if_pos hp] at hrun
      exact h.onlyRetires rfl rfl (c := (begun s (.dpb f)).hart.cur) hrun hvl hvt hfault hwait
    · rw [if_neg (by rw [hp]; exact Bool.false_ne_true)] at hrun
      exact h.waitsFirst rfl rfl hrun
  · rintro ⟨m, hm, h⟩
    obtain rfl : memPnTake c = m := Option.some.inj hm
    obtain ⟨-, hempty⟩ := memPnTake_run h
    exact ⟨fun x l hx => pnTake_takes h hx, fun hx => h.waitsFirst rfl rfl (hempty hx)⟩
  · refine ⟨?_, ?_⟩
    · rintro ⟨m, hm, h⟩
      obtain rfl : memPnPost c = m := Option.some.inj hm
      have hrun := postMember_run h rfl rfl
      exact ⟨fun hl => h.drains rfl rfl (hrun.trans (if_neg (Nat.not_le.mpr hl))), fun hl => h.waitsFirst rfl rfl (hrun.trans (if_pos hl))⟩
    · rintro ⟨m, hm, h⟩
      obtain rfl : memPnPostVl c = m := Option.some.inj hm
      obtain ⟨-, -, -, hu, -⟩ := id h
      have hrun := postMember_run h rfl rfl
      have hvl : (begun s (.pnPostVl c)).hart.cur.vlStart = nextLen s := by rw [begun_settled s _ hu]
      rw [hvl] at hrun
      exact ⟨fun hl => h.drains rfl rfl (hrun.trans (if_neg (Nat.not_le.mpr hl))), fun hl => h.waitsFirst rfl rfl (hrun.trans (if_pos hl))⟩

end Sys2Proof.Machine
end

section
/-! SUPPORT. Layouts: where the operands of a format lie in a word, and that they are read back from any word that holds them beside a constant
(R34, R37, R41, R45). -/

namespace Sys2Proof

/-! ### Words as disjoint bits -/

/-- Numbers without a common bit add up without a carry. -/
theorem add_eq_or_of_and_eq_zero {a b : Nat} (h : a &&& b = 0) : a + b = a ||| b := by
  induction a using Nat.strongRecOn generalizing b with
  | ind a ih =>
    rcases Nat.eq_zero_or_pos a with rfl | ha
    · simp
    · have high : a / 2 + b / 2 = a / 2 ||| b / 2 :=
        ih (a / 2) (by omega) (by rw [← Nat.pow_one 2, ← Nat.and_div_two_pow, h, Nat.zero_div])
      have low : a % 2 + b % 2 = a % 2 ||| b % 2 := by
        have disjoint : a % 2 &&& b % 2 = 0 := by rw [← Nat.pow_one 2, ← Nat.and_mod_two_pow, h, Nat.zero_mod]
        rcases Nat.mod_two_eq_zero_or_one a with e | e <;> rcases Nat.mod_two_eq_zero_or_one b with e' | e' <;> simp_all
      rw [← Nat.pow_one 2] at high low
      rw [← Nat.or_div_two_pow] at high
      rw [← Nat.or_mod_two_pow] at low
      omega

/-- The bits of a disjoint sum, field by field. -/
theorem field_add {a b : Nat} (h : a &&& b = 0) (lo len : Nat) :
    (a + b) / 2 ^ lo % 2 ^ len = (a / 2 ^ lo % 2 ^ len) ||| (b / 2 ^ lo % 2 ^ len) := by
  rw [add_eq_or_of_and_eq_zero h, Nat.or_div_two_pow, Nat.or_mod_two_pow]

/-- A field of a number whose mask has no bit there is zero. -/
theorem field_eq_zero_of_masked {n mask lo len : Nat} (h : n &&& mask = n) (hm : mask / 2 ^ lo % 2 ^ len = 0) : n / 2 ^ lo % 2 ^ len = 0 := by
  rw [← h, Nat.and_div_two_pow, Nat.and_mod_two_pow, hm, Nat.and_zero]

/-- A field that a mask covers is zero in a number that is disjoint from the mask. -/
theorem field_eq_zero_of_disjoint {c n lo : Nat} (h : c &&& (2 ^ n - 1) * 2 ^ lo = 0) : c / 2 ^ lo % 2 ^ n = 0 := by
  have := congrArg (· / 2 ^ lo) h
  simpa [Nat.and_div_two_pow, Nat.and_two_pow_sub_one_eq_mod] using this

/-- Numbers within disjoint masks are disjoint. -/
theorem and_eq_zero_of_masked {a b m : Nat} (hb : b &&& m = b) (h : a &&& m = 0) : a &&& b = 0 := by
  rw [← hb, Nat.and_comm b, ← Nat.and_assoc, h, Nat.zero_and]

/-- Bits within a mask are within a larger one. -/
theorem masked_or {n m k : Nat} (h : n &&& m = n) : n &&& (m ||| k) = n := by
  rw [Nat.and_or_distrib_left, h]
  apply Nat.eq_of_testBit_eq
  simp +contextual [Nat.testBit_or, Nat.testBit_and]

/-! ### Layouts -/

/-- Where operands lie in a word: the bits they take, how they are written there, and how they are read from a word. Reading gives back what was
written beside any constant that leaves those bits zero. -/
structure Layout (α : Type) where
  mask : Nat
  read : Nat → α
  write : α → Nat
  masked : ∀ f, write f &&& mask = write f
  read_add : ∀ c f, c &&& mask = 0 → read (c + write f) = f

/-- An operand of `n` bits from bit `lo` on. -/
def Layout.field (n lo : Nat) : Layout (BitVec n) where
  mask := (2 ^ n - 1) * 2 ^ lo
  read w := BitVec.ofNat n (w / 2 ^ lo)
  write x := x.toNat * 2 ^ lo
  masked x := by
    rw [← Nat.shiftLeft_eq, ← Nat.shiftLeft_eq, ← Nat.shiftLeft_and_distrib, Nat.and_two_pow_sub_one_eq_mod, Nat.mod_eq_of_lt x.isLt]
  read_add c x h := by
    apply BitVec.eq_of_toNat_eq
    rw [BitVec.toNat_ofNat, Nat.add_mul_div_right _ _ (Nat.two_pow_pos lo), Nat.add_mod, field_eq_zero_of_disjoint h, Nat.zero_add,
      Nat.mod_mod, Nat.mod_eq_of_lt x.isLt]

/-- A flag at bit `k`. -/
def Layout.flag (k : Nat) : Layout Bool where
  mask := 2 ^ k
  read w := bitAt w k
  write b := bitTo b k
  masked b := by cases b <;> simp [bitTo]
  read_add c b h := by
    have clear : c / 2 ^ k % 2 = 0 := field_eq_zero_of_disjoint (n := 1) (by simpa using h)
    cases b
    · simp [bitTo, bitAt, clear]
    · simp [bitTo, bitAt, Nat.add_div_right _ (Nat.two_pow_pos k)]
      omega

/-- Operands at disjoint places of one word. -/
def Layout.prod {α β : Type} (L : Layout α) (M : Layout β) (h : L.mask &&& M.mask = 0 := by rfl) : Layout (α × β) where
  mask := L.mask ||| M.mask
  read w := (L.read w, M.read w)
  write f := L.write f.1 + M.write f.2
  masked f := by
    have apart : L.write f.1 &&& M.write f.2 = 0 := by
      rw [← L.masked, Nat.and_assoc, and_eq_zero_of_masked (M.masked _) h, Nat.and_zero]
    rw [add_eq_or_of_and_eq_zero apart, Nat.and_or_distrib_right, masked_or (L.masked _), Nat.or_comm L.mask, masked_or (M.masked _)]
  read_add c f hc := by
    rw [Nat.and_or_distrib_left, Nat.or_eq_zero_iff] at hc
    have left : (c + M.write f.2) &&& L.mask = 0 := by
      rw [add_eq_or_of_and_eq_zero (and_eq_zero_of_masked (M.masked _) hc.2), Nat.and_or_distrib_right, hc.1, Nat.zero_or, Nat.and_comm,
        and_eq_zero_of_masked (M.masked _) h]
    have right : (c + L.write f.1) &&& M.mask = 0 := by
      rw [add_eq_or_of_and_eq_zero (and_eq_zero_of_masked (L.masked _) hc.1), Nat.and_or_distrib_right, hc.2, Nat.zero_or, Nat.and_comm,
        and_eq_zero_of_masked (L.masked _) (Nat.and_comm _ _ ▸ h)]
    rw [show c + (L.write f.1 + M.write f.2) = c + M.write f.2 + L.write f.1 by omega, L.read_add _ _ left,
      show c + M.write f.2 + L.write f.1 = c + L.write f.1 + M.write f.2 by omega, M.read_add _ _ right]

/-- The same operands, read and written as the fields of another type. -/
def Layout.as {α β : Type} (L : Layout α) (read : Nat → β) (write : β → Nat) (mk : α → β) (get : β → α)
    (hread : ∀ w, read w = mk (L.read w) := by intro _; rfl) (hwrite : ∀ b, write b = L.write (get b) := by intro _; rfl)
    (hmk : ∀ b, mk (get b) = b := by intro _; rfl) : Layout β where
  mask := L.mask
  read := read
  write := write
  masked b := by rw [hwrite, L.masked]
  read_add c b hc := by rw [hread, hwrite, L.read_add c (get b) hc, hmk]

/-- No operands at all. -/
def Layout.none : Layout Unit where
  mask := 0
  read _ := ()
  write _ := 0
  masked _ := rfl
  read_add _ _ _ := rfl

/-- A field of a word outside the operands of the layout is the constant's. -/
theorem Layout.field_add_write {α : Type} (L : Layout α) (f : α) {c lo len : Nat} (hc : c &&& L.mask = 0) (h : L.mask / 2 ^ lo % 2 ^ len = 0) :
    (c + L.write f) / 2 ^ lo % 2 ^ len = c / 2 ^ lo % 2 ^ len := by
  rw [field_add (and_eq_zero_of_masked (L.masked f) hc), field_eq_zero_of_masked (L.masked f) h, Nat.or_zero]

/-- Operands beside a constant stay below a bound that constant and mask respect. -/
theorem Layout.add_write_lt {α : Type} (L : Layout α) (f : α) {c n : Nat} (hc : c &&& L.mask = 0) (h : c ||| L.mask < 2 ^ n) : c + L.write f < 2 ^ n := by
  rw [add_eq_or_of_and_eq_zero (and_eq_zero_of_masked (L.masked f) hc)]
  refine Nat.or_lt_two_pow (Nat.lt_of_le_of_lt Nat.left_le_or h) (Nat.lt_of_le_of_lt ?_ h)
  rw [← L.masked f]
  exact Nat.le_trans Nat.and_le_right Nat.right_le_or

/-! ### The formats (R34, R37) -/

/-- Format A (R34). -/
def Layout.a : Layout OpA :=
  (field 5 18 |>.prod (field 5 13) |>.prod (field 5 8)).as OpOf.a OpTo.a (fun ((b, a), d) => ⟨b, a, d⟩) fun f => ((f.b, f.a), f.d)

/-- Format I with its 14-bit immediate (R34, R35). -/
def Layout.i14 : Layout OpI14 :=
  (field 14 18 |>.prod (field 5 13) |>.prod (field 5 8)).as OpOf.i14 OpTo.i14 (fun ((imm, a), d) => ⟨imm, a, d⟩) fun f => ((f.imm, f.a), f.d)

/-- Format I of major 0x06 (R35). -/
def Layout.sh6 : Layout OpSh6 :=
  (field 6 18 |>.prod (field 5 13) |>.prod (field 5 8)).as OpOf.sh6 OpTo.sh6 (fun ((sh, a), d) => ⟨sh, a, d⟩) fun f => ((f.sh, f.a), f.d)

/-- Format I of major 0x07 (R35). -/
def Layout.i13 : Layout OpI13 :=
  (field 13 18 |>.prod (field 5 13) |>.prod (field 5 8)).as OpOf.i13 OpTo.i13 (fun ((imm, a), d) => ⟨imm, a, d⟩) fun f => ((f.imm, f.a), f.d)

/-- Format M (R34). -/
def Layout.m11 : Layout OpM11 :=
  (field 11 21 |>.prod (field 5 13) |>.prod (field 5 8)).as OpOf.m11 OpTo.m11 (fun ((imm, a), d) => ⟨imm, a, d⟩) fun f => ((f.imm, f.a), f.d)

/-- Format SA (R34). -/
def Layout.sA : Layout OpSA :=
  (field 3 29 |>.prod (flag 28) |>.prod (flag 27) |>.prod (field 5 18) |>.prod (field 5 13) |>.prod (field 5 8)).as OpOf.sA OpTo.sA
    (fun (((((sc, rl), aq), b), a), d) => ⟨sc, rl, aq, b, a, d⟩) fun f => (((((f.sc, f.rl), f.aq), f.b), f.a), f.d)

/-- Formats U and J (R34). -/
def Layout.u19 : Layout OpU19 :=
  (field 19 13 |>.prod (field 5 8)).as OpOf.u19 OpTo.u19 (fun (imm, d) => ⟨imm, d⟩) fun f => (f.imm, f.d)

/-- Format B (R34). -/
def Layout.br : Layout OpBr :=
  (field 9 23 |>.prod (field 5 18) |>.prod (field 5 13) |>.prod (field 5 8)).as OpOf.br OpTo.br
    (fun (((hi, b), a), lo) => ⟨hi, b, a, lo⟩) fun f => (((f.hi, f.b), f.a), f.lo)

/-- Format C (R34). -/
def Layout.c : Layout OpC :=
  (field 12 20 |>.prod (field 5 13) |>.prod (field 5 8)).as OpOf.c OpTo.c (fun ((idx, a), d) => ⟨idx, a, d⟩) fun f => ((f.idx, f.a), f.d)

/-- Format V (R37). -/
def Layout.v : Layout OpV :=
  (flag 28 |>.prod (flag 27) |>.prod (flag 26) |>.prod (field 3 23) |>.prod (field 5 18) |>.prod (field 5 13) |>.prod (field 5 8)).as OpOf.v OpTo.v
    (fun ((((((l, cb), ca), pred), vb), va), vd) => ⟨l, cb, ca, pred, vb, va, vd⟩) fun f => ((((((f.l, f.cb), f.ca), f.pred), f.vb), f.va), f.vd)

/-- Format VS (R37). -/
def Layout.vS : Layout OpVS :=
  (flag 28 |>.prod (flag 26) |>.prod (field 3 23) |>.prod (field 5 18) |>.prod (field 5 13) |>.prod (field 5 8)).as OpOf.vS OpTo.vS
    (fun (((((l, ca), pred), xb), va), vd) => ⟨l, ca, pred, xb, va, vd⟩) fun f => (((((f.l, f.ca), f.pred), f.xb), f.va), f.vd)

/-- Format V as the conversions use it (R37, R133). -/
def Layout.cv : Layout OpCv :=
  (field 3 29 |>.prod (flag 28) |>.prod (flag 26) |>.prod (field 3 23) |>.prod (field 5 18) |>.prod (field 5 13) |>.prod (field 5 8)).as OpOf.cv OpTo.cv
    (fun ((((((fn, l), ca), pred), t), va), vd) => ⟨fn, l, ca, pred, t, va, vd⟩) fun f => ((((((f.fn, f.l), f.ca), f.pred), f.t), f.va), f.vd)

/-- Format VM with X = 0 (R37, R38). -/
def Layout.vM : Layout OpVM :=
  (flag 28 |>.prod (flag 26) |>.prod (field 3 23) |>.prod (field 5 18) |>.prod (field 5 13) |>.prod (field 5 8)).as OpOf.vM OpTo.vM
    (fun (((((l, c), pred), b), a), vd) => ⟨l, c, pred, b, a, vd⟩) fun f => (((((f.l, f.c), f.pred), f.b), f.a), f.vd)

/-- Format VM with X = 1 (R37, R38). -/
def Layout.vMX : Layout OpVMX :=
  (field 3 29 |>.prod (flag 28) |>.prod (flag 26) |>.prod (field 3 23) |>.prod (field 5 18) |>.prod (field 5 13) |>.prod (field 5 8)).as OpOf.vMX OpTo.vMX
    (fun ((((((sc, l), c), pred), vb), a), vd) => ⟨sc, l, c, pred, vb, a, vd⟩) fun f => ((((((f.sc, f.l), f.c), f.pred), f.vb), f.a), f.vd)

/-- Format VA (R37, R38). -/
def Layout.vA : Layout OpVA :=
  (field 3 29 |>.prod (flag 28) |>.prod (flag 27) |>.prod (flag 26) |>.prod (field 3 23) |>.prod (field 5 18) |>.prod (field 5 8)).as OpOf.vA OpTo.vA
    (fun ((((((sc, l), rl), aq), pred), vb), vd) => ⟨sc, l, rl, aq, pred, vb, vd⟩) fun f => ((((((f.sc, f.l), f.rl), f.aq), f.pred), f.vb), f.vd)

/-- The layout of the accumulation windows (R180, R181). -/
def Layout.aW : Layout OpAW :=
  (flag 28 |>.prod (flag 27) |>.prod (flag 26) |>.prod (field 3 23) |>.prod (field 5 18) |>.prod (field 5 13) |>.prod (field 2 8)).as OpOf.aW OpTo.aW
    (fun ((((((l, cb), ca), pred), b), a), n) => ⟨l, cb, ca, pred, b, a, n⟩) fun f => ((((((f.l, f.cb), f.ca), f.pred), f.b), f.a), f.n)

/-- Format SM (R37). -/
def Layout.sM : Layout OpSM :=
  (flag 28 |>.prod (flag 27) |>.prod (flag 26) |>.prod (field 3 23) |>.prod (field 5 18) |>.prod (field 5 13) |>.prod (field 4 8)).as OpOf.sM OpTo.sM
    (fun ((((((l, cb), ca), pred), b), a), sd) => ⟨l, cb, ca, pred, b, a, sd⟩) fun f => ((((((f.l, f.cb), f.ca), f.pred), f.b), f.a), f.sd)

/-- Format DS (R37). -/
def Layout.dS : Layout OpDS :=
  (flag 28 |>.prod (field 3 23) |>.prod (field 5 18) |>.prod (field 5 13) |>.prod (field 5 8)).as OpOf.dS OpTo.dS
    (fun ((((l, sc), b), a), d) => ⟨l, sc, b, a, d⟩) fun f => ((((f.l, f.sc), f.b), f.a), f.d)

/-- Format AC (R34). -/
def Layout.aC : Layout OpAC :=
  (field 2 25 |>.prod (field 2 23) |>.prod (field 5 18) |>.prod (field 5 13) |>.prod (field 5 8)).as OpOf.aC OpTo.aC
    (fun ((((po, tk), b), a), d) => ⟨po, tk, b, a, d⟩) fun f => ((((f.po, f.tk), f.b), f.a), f.d)

/-! ### Constants and operands -/

/-- The bits of the instruction are its own: they decode to it, they fit its length, and their first bits announce that length (R32). -/
def RoundTrips (i : Instr) : Prop :=
  decodeBits (encode i) = .ok i ∧ encode i < 2 ^ i.bits ∧ lengthOf (encode i) * 8 = i.bits

/-- Two words hold the same constant outside the operands of a layout. -/
def Layout.Agree {α : Type} (L : Layout α) (c w : Nat) : Prop :=
  ∀ lo len, L.mask / 2 ^ lo % 2 ^ len = 0 → w / 2 ^ lo % 2 ^ len = c / 2 ^ lo % 2 ^ len

/-- The constant of a base word, beside operands in this layout: bits 1:0 are 01 and the major is the constant's (R32, R34). -/
abbrev Layout.IsBase {α : Type} (L : Layout α) (c : Nat) : Prop :=
  c &&& L.mask = 0 ∧ c ||| L.mask < 2 ^ 32 ∧ L.mask % 2 ^ 8 = 0 ∧ c % 4 = 1

/-- R34, R37: a base word round-trips when the decoder of its major gives the instruction for every word with the constant's bits and its operands. -/
theorem Layout.roundTrips_base {α : Type} (L : Layout α) (major : Nat → Option Instr) {c : Nat} {f : α} {i : Instr} (hc : L.IsBase c)
    (he : encode i = c + L.write f) (hb : i.bits = 32) (hw : i.wellFormed = true) (hd : ∀ w, L.Agree c w → L.read w = f → major w = some i)
    (hmajor : ∀ w, w / 2 ^ 2 % 2 ^ 6 = c / 2 ^ 2 % 2 ^ 6 → decodeBase w = major w := by intro w h; rw [decodeBase, h]; rfl) : RoundTrips i := by
  obtain ⟨hdis, hlt, hlow, hfour⟩ := hc
  have lt : encode i < 2 ^ 32 := he ▸ L.add_write_lt f hdis hlt
  have four : encode i % 4 = 1 := by simpa [he, hfour] using L.field_add_write (lo := 0) (len := 2) f hdis (by omega)
  have base : decodeBase (encode i) = some i := by
    rw [hmajor _ (he ▸ L.field_add_write f hdis (by omega))]
    exact hd _ (he ▸ fun _ _ h => L.field_add_write f hdis h) (he ▸ L.read_add c f hdis)
  have odd : encode i % 2 = 1 := by omega
  refine ⟨?_, hb ▸ lt, ?_⟩
  · rw [decodeBits, if_neg (by omega), if_pos four, Nat.mod_eq_of_lt lt, base, checkFields, if_pos hw]
  · rw [lengthOf, if_neg (by omega), if_pos four, hb]

/-- R34, R46: a base word whose major has one instruction alone round-trips. -/
theorem Layout.roundTrips_major {α : Type} (L : Layout α) {mk : α → Instr} {c : Nat} {f : α} (hc : L.IsBase c) (he : encode (mk f) = c + L.write f)
    (hb : (mk f).bits = 32) (hw : (mk f).wellFormed = true)
    (hmajor : ∀ w, w / 2 ^ 2 % 2 ^ 6 = c / 2 ^ 2 % 2 ^ 6 → decodeBase w = some (mk (L.read w)) := by intro w h; rw [decodeBase, h]; rfl) :
    RoundTrips (mk f) :=
  L.roundTrips_base (fun w => some (mk (L.read w))) hc he hb hw (fun w _ hf => by rw [hf]) hmajor

/-- The constant of a compressed halfword, beside operands in this layout: bit 0 is 0 and bits 4:1 are the constant's (R32, R45). -/
abbrev Layout.IsHalf {α : Type} (L : Layout α) (c : Nat) : Prop :=
  c &&& L.mask = 0 ∧ c ||| L.mask < 2 ^ 16 ∧ L.mask % 2 ^ 5 = 0 ∧ c % 2 = 0

/-- R45: a compressed instruction round-trips when it is what every halfword with the constant's bits and its operands decodes to. -/
theorem Layout.roundTrips_half {α : Type} (L : Layout α) {c : Nat} {f : α} {i : Instr} (hc : L.IsHalf c) (he : encode i = c + L.write f) (hb : i.bits = 16)
    (hw : i.wellFormed = true) (hd : ∀ w, w / 2 % 2 ^ 4 = c / 2 % 2 ^ 4 → L.Agree c w → L.read w = f → decodeCompressed w = some i) : RoundTrips i := by
  obtain ⟨hdis, hlt, hlow, heven⟩ := hc
  have lt : encode i < 2 ^ 16 := he ▸ L.add_write_lt f hdis hlt
  have even : encode i % 2 = 0 := by simpa [he, heven] using L.field_add_write (lo := 0) (len := 1) f hdis (by omega)
  have half : decodeCompressed (encode i) = some i :=
    hd _ (he ▸ L.field_add_write (lo := 1) f hdis (by omega)) (he ▸ fun _ _ h => L.field_add_write f hdis h) (he ▸ L.read_add c f hdis)
  refine ⟨?_, hb ▸ lt, ?_⟩
  · rw [decodeBits, if_pos even, Nat.mod_eq_of_lt lt, half, checkFields, if_pos hw]
  · rw [lengthOf, if_pos even, hb]

/-! ### Tile forms (R37, R41, R43) -/

/-- The operands of the first word of a tile form (R41). -/
def Layout.tilePrefix : Layout ((((((((Bool × Bool) × BitVec 3) × BitVec 2) × BitVec 2) × BitVec 2) × BitVec 4) × BitVec 4) × BitVec 2) :=
  flag 28 |>.prod (flag 27) |>.prod (field 3 24) |>.prod (field 2 22) |>.prod (field 2 20) |>.prod (field 2 18) |>.prod (field 4 14) |>.prod (field 4 10)
    |>.prod (field 2 8)

/-- What a tile form holds in its first word (R41). -/
def OpTile.prefixOperands (f : OpTile) := ((((((((f.ff, f.us), f.ks), f.fsa), f.fsb), f.kind), f.cp), f.rp), f.t)

/-- What it holds in its base word, which lies in the V layout (R37). -/
def OpTile.baseOperands (f : OpTile) : OpV := ⟨f.l, f.cb, f.ca, f.pred, f.vb, f.va, f.vd⟩

/-- The tile form of what its two words hold. -/
def OpTile.ofWords (x : (((((((Bool × Bool) × BitVec 3) × BitVec 2) × BitVec 2) × BitVec 2) × BitVec 4) × BitVec 4) × BitVec 2) (v : OpV) : OpTile :=
  match x with
  | ((((((((ff, us), ks), fsa), fsb), kind), cp), rp), t) => ⟨ff, us, ks, fsa, fsb, kind, cp, rp, t, v.l, v.cb, v.ca, v.pred, v.vb, v.va, v.vd⟩

theorem OpOf.tile_eq (p w : Nat) : OpOf.tile p w = OpTile.ofWords (Layout.tilePrefix.read p) (Layout.v.read w) := rfl

theorem OpTo.prefixWord_eq (c : Nat) (f : OpTile) : OpTo.prefixWord c f = 3 + 4 * c + Layout.tilePrefix.write f.prefixOperands := by
  simp only [OpTo.prefixWord, Layout.tilePrefix, Layout.prod, Layout.field, Layout.flag, OpTile.prefixOperands, Nat.add_assoc]

theorem OpTo.tileBase_eq (k : Nat) (f : OpTile) : OpTo.tileBase k f = 1 + k * 2 ^ 29 + Layout.v.write f.baseOperands := by
  simp only [OpTo.tileBase, Layout.v, Layout.as, OpTo.v, OpTile.baseOperands, Nat.add_assoc]

theorem tilePrefix_disjoint : ∀ c < 64, (3 + 4 * c) &&& Layout.tilePrefix.mask = 0 := by decide

theorem tileBase_disjoint : ∀ k < 8, (1 + k * 2 ^ 29) &&& Layout.v.mask = 0 := by decide

/-- The first word of a tile form: its size, its fields outside the operands, and its operands (R41). -/
theorem OpTo.prefixWord_fields {c : Nat} (f : OpTile) (hc : c < 64) :
    OpTo.prefixWord c f < 2 ^ 32 ∧ OpTo.prefixWord c f % 2 ^ 8 = 3 + 4 * c ∧ OpTo.prefixWord c f / 2 ^ 29 % 2 ^ 3 = 0 ∧
      Layout.tilePrefix.read (OpTo.prefixWord c f) = f.prefixOperands := by
  have dis := tilePrefix_disjoint c hc
  have low := Layout.tilePrefix.field_add_write f.prefixOperands (lo := 0) (len := 8) dis rfl
  rw [OpTo.prefixWord_eq, Layout.tilePrefix.field_add_write f.prefixOperands dis rfl]
  refine ⟨Layout.add_write_lt _ _ dis (Nat.or_lt_two_pow (by omega) (by decide)),
    by simpa using low.trans (by omega), by omega, Layout.read_add _ _ _ dis⟩

/-- The base word of a tile form: its size, its fields outside the operands, and its operands (R37, R43). -/
theorem OpTo.tileBase_fields {k : Nat} (f : OpTile) (hk : k < 8) :
    OpTo.tileBase k f < 2 ^ 32 ∧ OpTo.tileBase k f % 2 ^ 8 = 1 ∧ OpTo.tileBase k f / 2 ^ 29 % 2 ^ 3 = k ∧ Layout.v.read (OpTo.tileBase k f) = f.baseOperands := by
  have dis := tileBase_disjoint k hk
  have low := Layout.v.field_add_write f.baseOperands (lo := 0) (len := 8) dis rfl
  rw [OpTo.tileBase_eq, Layout.v.field_add_write f.baseOperands dis rfl]
  refine ⟨Layout.add_write_lt _ _ dis (Nat.or_lt_two_pow (by omega) (by decide)),
    by simpa using low.trans (by omega), by omega, Layout.v.read_add _ _ dis⟩

/-- R41, R43: a tile form round-trips when it is what its two words decode to by their class and function. -/
theorem roundTrips_tile {c k : Nat} {f : OpTile} {i : Instr} (hc : c < 64) (hk : k < 8) (he : encode i = OpTo.prefixWord c f + 2 ^ 32 * OpTo.tileBase k f)
    (hb : i.bits = 64) (hw : i.wellFormed = true)
    (hd : ∀ p w, w % 2 ^ 8 = 1 ∧ p / 2 ^ 29 % 2 ^ 3 = 0 → p / 2 ^ 2 % 2 ^ 6 = c → w / 2 ^ 29 % 2 ^ 3 = k → OpOf.tile p w = f →
      decodePrefixed p w = some i) : RoundTrips i := by
  obtain ⟨ltP, lowP, topP, readP⟩ := OpTo.prefixWord_fields f hc
  obtain ⟨ltB, lowB, topB, readB⟩ := OpTo.tileBase_fields f hk
  have tile : decodePrefixed (OpTo.prefixWord c f) (OpTo.tileBase k f) = some i :=
    hd _ _ ⟨lowB, topP⟩ (by omega) topB (by rw [OpOf.tile_eq, readP, readB]; rfl)
  refine ⟨?_, by rw [hb]; omega, ?_⟩
  · rw [decodeBits, if_neg (by omega), if_neg (by omega), show encode i % 2 ^ 32 = OpTo.prefixWord c f by omega,
      show encode i / 2 ^ 32 % 2 ^ 32 = OpTo.tileBase k f by omega, tile, checkFields, if_pos hw]
  · rw [lengthOf, if_neg (by omega), if_neg (by omega), hb]

end Sys2Proof
end

section
/-! SUPPORT. Every well-formed instruction with an encoding round-trips (R32, R34 to R47). -/

namespace Sys2Proof

/-- Flags of a word are its fields of one bit. -/
theorem flag_field (w k : Nat) : w / 2 ^ k % 2 ^ 1 = (bitAt w k).toNat := by
  rcases Nat.mod_two_eq_zero_or_one (w / 2 ^ k) with h | h <;> simp [bitAt, h]

/-- R34, R37, R41, R45, R46: every well-formed instruction with an encoding, by its format and its major. -/
theorem roundTrips_of_wellFormed (i : Instr) (hw : i.wellFormed = true) (hc : i.cls ≠ .event) : RoundTrips i := by
  cases i
  case add | sub | and | or | xor | sll | srl | sra | slt | sltn | min | max | minn | maxn | mul | mulh | mulhn | div | divn | rem | remn | addw |
      subw | clz | ctz | popc =>
    exact Layout.a.roundTrips_base decodeMajor01 (by decide) rfl rfl hw fun w h hf => by
      subst hf; rw [decodeMajor01, h 23 9 rfl]; rfl
  case addi | andi | ori | xori | jalr | vsl => exact Layout.i14.roundTrips_major (by decide) rfl rfl hw
  case ldh | pcadd | jal => exact Layout.u19.roundTrips_major (by decide) rfl rfl hw
  case beq | bne | blt | bge | bltn | bgen => exact Layout.br.roundTrips_major (by decide) rfl rfl hw
  case slli | srli | srai =>
    exact Layout.sh6.roundTrips_base decodeMajor06 (by decide) rfl rfl hw fun w h hf => by
      subst hf; rw [decodeMajor06, h 24 8 rfl]; rfl
  case slti | sltni =>
    exact Layout.i13.roundTrips_base decodeMajor07 (by decide) rfl rfl hw fun w h hf => by
      subst hf; rw [decodeMajor07, h 31 1 rfl]; rfl
  case ldI8 | ldI16 | ldI32 | ldI64 | ldN8 | ldN16 | ldN32 | ldPr =>
    exact Layout.m11.roundTrips_base decodeMajor08 (by decide) rfl rfl hw fun w h hf => by
      subst hf; rw [decodeMajor08, h 18 3 rfl]; rfl
  case stI8 | stI16 | stI32 | stI64 | stPr =>
    exact Layout.m11.roundTrips_base decodeMajor09 (by decide) rfl rfl hw fun w h hf => by
      subst hf; rw [decodeMajor09, h 18 3 rfl]; rfl
  case amoSwap | amoAdd | amoAnd | amoOr | amoXor | amoMin | amoMax | amoMinn | amoMaxn | amoCas | amoLd | amoSt =>
    exact Layout.sA.roundTrips_base decodeMajor0A (by decide) rfl rfl hw fun w h hf => by
      subst hf; rw [decodeMajor0A, h 23 4 rfl]; rfl
  case crRd | crWr | crSet | crClr =>
    exact Layout.c.roundTrips_base decodeMajor15 (by decide) rfl rfl hw fun w h hf => by
      subst hf; rw [decodeMajor15, h 18 2 rfl]; rfl
  case jl | jwait =>
    exact Layout.a.roundTrips_base decodeMajor18 (by decide) rfl rfl hw fun w h hf => by
      subst hf; rw [decodeMajor18, h 23 9 rfl]; rfl
  case vadd | vsub | vmul | vmulh | vmulhn | vand | vor | vxor =>
    exact Layout.v.roundTrips_base decodeMajor20 (by decide) rfl rfl hw fun w h hf => by
      subst hf; rw [decodeMajor20, h 29 3 rfl]; rfl
  case vsll | vsrl | vsra | vmin | vmax | vminn | vmaxn | vsel =>
    exact Layout.v.roundTrips_base decodeMajor21 (by decide) rfl rfl hw fun w h hf => by
      subst hf; rw [decodeMajor21, h 29 3 rfl]; rfl
  case vfadd | vfsub | vfmul | vfdiv | vfmin | vfmax | vfsgnj =>
    exact Layout.v.roundTrips_base decodeMajor22 (by decide) rfl rfl hw fun w h hf => by
      subst hf; rw [decodeMajor22, h 29 3 rfl]; rfl
  case vfma | vfms | vfnma | vfnms | vfaerr | vfmerr | vfrecipEst | vfrsqrtEst =>
    exact Layout.v.roundTrips_base decodeMajor23 (by decide) rfl rfl hw fun w h hf => by
      subst hf; rw [decodeMajor23, h 29 3 rfl]; rfl
  case vceq | vclt | vcle | vcltn | vclen | vfceq | vfclt | vfcle =>
    exact Layout.v.roundTrips_base decodeMajor24 (by decide) rfl rfl hw fun w h hf => by
      subst hf; rw [decodeMajor24, h 29 3 rfl]; rfl
  case vcvt f =>
    exact Layout.cv.roundTrips_base decodeMajor25 (by decide) rfl rfl hw fun w h hf => by
      subst hf; rw [decodeMajor25, h 27 1 rfl]; rfl
  case vperm | vslideup | vslidedown | vcompress | vexpand | vmv | vzip | vunzip =>
    exact Layout.v.roundTrips_base decodeMajor26 (by decide) rfl rfl hw fun w h hf => by
      subst hf; rw [decodeMajor26, h 29 3 rfl]; rfl
  case vfoldAdd | vfoldMin | vfoldMax | vfoldMinn | vfoldMaxn | vfoldFadd | vfoldFmin | vfoldFmax =>
    exact Layout.v.roundTrips_base decodeMajor27 (by decide) rfl rfl hw fun w h hf => by
      subst hf; rw [decodeMajor27, h 29 3 rfl]; rfl
  case pand | por | pxor | pandn | plt | pgetsm | pcount | pfirst =>
    exact Layout.v.roundTrips_base decodeMajor28 (by decide) rfl rfl hw fun w h hf => by
      subst hf; rw [decodeMajor28, h 29 3 rfl]; rfl
  case vaddVx | vsubVx | vrsubVx | vmulVx | vandVx | vorVx | vxorVx | vsllVx | vsrlVx | vsraVx | vminVx | vmaxVx | vfaddVx | vfmulVx | vfmaVx |
      vbcast =>
    exact Layout.vS.roundTrips_base decodeMajor29 (by decide) rfl rfl hw fun w h hf => by
      subst hf; rw [decodeMajor29, h 29 3 rfl, h 27 1 rfl]; rfl
  case vld | vlds | vldFf | vldc | vfill | vldXn | vldXtn =>
    exact Layout.vM.roundTrips_base decodeMajor2A (by decide) rfl rfl hw fun w h hf => by
      subst hf; rw [decodeMajor2A, h 27 1 rfl, h 29 3 rfl]; rfl
  case vldx f =>
    exact Layout.vMX.roundTrips_base decodeMajor2A (by decide) rfl rfl hw fun w h hf => by
      subst hf; rw [decodeMajor2A, h 27 1 rfl]; rfl
  case vst | vsts | vcopy | vstc | vspill | vstXn | vstXtn =>
    exact Layout.vM.roundTrips_base decodeMajor2B (by decide) rfl rfl hw fun w h hf => by
      subst hf; rw [decodeMajor2B, h 27 1 rfl, h 29 3 rfl]; rfl
  case vstx f =>
    exact Layout.vMX.roundTrips_base decodeMajor2B (by decide) rfl rfl hw fun w h hf => by
      subst hf; rw [decodeMajor2B, h 27 1 rfl]; rfl
  case vamoSwap | vamoAdd | vamoAnd | vamoOr | vamoXor | vamoMin | vamoMax | vamoMinn | vamoMaxn | vamoCas | vamoAddCb | vamoAndCb | vamoOrCb |
      vamoXorCb | vamoMinCb | vamoMaxCb | vamoMinnCb | vamoMaxnCb =>
    exact Layout.vA.roundTrips_base decodeMajor2C (by decide) rfl rfl hw fun w h hf => by
      subst hf; rw [decodeMajor2C, h 13 5 rfl]; rfl
  case vamoFadd | vamoFmin | vamoFmax | vwaitEq | vwaitNe | vwaitGe | vwaitLt | vwaitGen | vwaitLtn | vamoFaddCb | vamoFminCb | vamoFmaxCb =>
    exact Layout.vA.roundTrips_base decodeMajor2D (by decide) rfl rfl hw fun w h hf => by
      subst hf; rw [decodeMajor2D, h 13 5 rfl]; rfl
  case supdCms | supdBks | supdQh | supdMom | supdWes | smerge | sclr | sdecl =>
    exact Layout.sM.roundTrips_base decodeMajor2F (by decide) rfl rfl hw fun w h hf => by
      subst hf; rw [decodeMajor2F, h 29 3 rfl, h 12 1 rfl]; rfl
  case scmt f =>
    exact Layout.sM.roundTrips_base decodeMajor31 (by decide) rfl rfl hw fun w h hf => by
      subst hf; rw [decodeMajor31, h 29 3 rfl, h 12 1 rfl]; rfl
  case astOpen | astClose | astRun | arBind | arUnbind | acol | asend | arecv | aflip =>
    exact Layout.aC.roundTrips_base decodeMajor32 (by decide) rfl rfl hw fun w h hf => by
      subst hf; rw [decodeMajor32, h 27 1 rfl, h 28 4 rfl]; rfl
  case dpb | shalloc | shallocM | shfree | shstat =>
    exact Layout.dS.roundTrips_base decodeMajor33 (by decide) rfl rfl hw fun w h hf => by
      subst hf; rw [decodeMajor33, h 29 3 rfl, h 26 2 rfl]; rfl
  case brk | halt =>
    exact Layout.none.roundTrips_base (f := ()) decodeMajor17 (by decide) rfl rfl hw fun w h _ => by
      rw [decodeMajor17, h 23 9 rfl, h 8 15 rfl]; rfl
  case hmBody | hmEnd =>
    exact Layout.none.roundTrips_base (f := ()) decodeMajor18 (by decide) rfl rfl hw fun w h _ => by
      rw [decodeMajor18, h 23 9 rfl, h 8 15 rfl]; rfl
  case swtrap | gbar | pnRecvCh2 | pnRecvCh4 =>
    exact Layout.a.roundTrips_base decodeMajor17 (by decide) rfl rfl hw fun w h hf => by
      subst hf; rw [decodeMajor17, h 23 9 rfl, h 24 8 rfl, h 26 6 rfl]; rfl
  case lsync sc =>
    exact (Layout.field 3 23).roundTrips_base decodeMajor17 (by decide) rfl rfl hw fun w h hf => by
      have high := h 26 6 rfl
      subst hf; rw [decodeMajor17, if_neg (by omega), if_neg (by omega), if_neg (by omega), h 26 6 rfl, h 8 15 rfl]; rfl
  case wmPub sc f | wmWait sc f =>
    exact (Layout.field 3 23 |>.prod .a).roundTrips_base (f := (sc, f)) decodeMajor17 (by decide) (Nat.add_assoc ..) rfl hw fun w h hf => by
      have high := h 26 6 rfl
      obtain ⟨rfl, rfl⟩ := Prod.mk.inj hf
      rw [decodeMajor17, if_neg (by omega), if_neg (by omega), if_neg (by omega), if_neg (by omega), if_neg (by omega), h 26 6 rfl]; rfl
  case pnSend sc f =>
    exact (Layout.field 1 23 |>.prod .a).roundTrips_base (f := (sc, f)) decodeMajor17 (by decide) (Nat.add_assoc ..) rfl hw fun w h hf => by
      have high := h 26 6 rfl
      obtain ⟨rfl, rfl⟩ := Prod.mk.inj hf
      rw [decodeMajor17, if_neg (by omega), if_neg (by omega), if_neg (by omega), if_neg (by omega), if_neg (by omega), h 26 6 rfl, h 24 8 rfl]; rfl
  case pnCnt sc f =>
    exact (Layout.field 3 23 |>.prod .a).roundTrips_base (f := (sc, f)) decodeMajor17 (by decide) (Nat.add_assoc ..) rfl hw fun w h hf => by
      have high := h 26 6 rfl
      obtain ⟨rfl, rfl⟩ := Prod.mk.inj hf
      rw [decodeMajor17, if_neg (by omega), if_neg (by omega), if_neg (by omega), if_neg (by omega), if_neg (by omega), if_neg (by omega),
        if_neg (by omega), if_neg (by omega), if_neg (by omega), if_neg (by omega), h 26 6 rfl]; rfl
  case vfsqrt | vfabs | vfneg | vfclass =>
    exact Layout.v.roundTrips_base decodeMajor22 (by decide) rfl rfl hw fun w h hf => by
      obtain ⟨_, hvb⟩ := (Bool.and_eq_true _ _).mp hw
      have sub : w / 2 ^ 18 % 2 ^ 5 = _ := (BitVec.toNat_ofNat ..).symm.trans (congrArg BitVec.toNat ((congrArg OpV.vb hf).trans (eq_of_beq hvb)))
      rw [decodeMajor22, h 29 3 rfl, sub, ← hf]; rfl
  case vfence sc =>
    exact (Layout.field 3 8).roundTrips_base decodeMajor2E (by decide) rfl rfl hw fun w h hf => by
      subst hf; rw [decodeMajor2E, h 29 3 rfl, h 28 1 rfl, h 11 17 rfl]; rfl
  case awinDecl | awinUpd | awinMerge =>
    exact Layout.aW.roundTrips_base decodeMajor2E (by decide) rfl rfl hw fun w h hf => by
      subst hf; rw [decodeMajor2E, h 29 3 rfl, h 10 3 rfl]; rfl
  case pnTake l c =>
    exact (Layout.flag 28 |>.prod (.field 3 8)).roundTrips_base (f := (l, c)) decodeMajor2E (by decide) (Nat.add_assoc ..) rfl hw fun w h hf => by
      obtain ⟨rfl, rfl⟩ := Prod.mk.inj hf
      rw [decodeMajor2E, h 29 3 rfl, h 11 17 rfl]; rfl
  case pnPost | pnPostVl c =>
    exact (Layout.field 3 8).roundTrips_base decodeMajor2E (by decide) rfl rfl hw fun w h hf => by
      subst hf; rw [decodeMajor2E, h 29 3 rfl, h 28 1 rfl, h 11 17 rfl]; rfl
  case sqCms | sqQnt | sqMomQuery | sqWes | sst | sld | smergeM =>
    exact Layout.sM.roundTrips_base decodeMajor30 (by decide) rfl rfl hw fun w h hf => by
      subst hf; rw [decodeMajor30, h 29 3 rfl, h 12 1 rfl]; rfl
  case sqBksEst f =>
    exact Layout.sM.roundTrips_base decodeMajor30 (by decide) rfl rfl hw fun w h hf => by
      have hcb : f.cb = false := by simp_all [Instr.wellFormed]
      have sub : w / 2 ^ 27 % 2 ^ 1 = _ := (flag_field w 27).trans (congrArg Bool.toNat ((congrArg OpSM.cb hf).trans hcb))
      rw [decodeMajor30, h 29 3 rfl, h 12 1 rfl, sub, ← hf]; rfl
  case sqBksItems f =>
    exact Layout.sM.roundTrips_base decodeMajor30 (by decide) rfl rfl hw fun w h hf => by
      have hcb : f.cb = true := by simp_all [Instr.wellFormed]
      have sub : w / 2 ^ 27 % 2 ^ 1 = _ := (flag_field w 27).trans (congrArg Bool.toNat ((congrArg OpSM.cb hf).trans hcb))
      rw [decodeMajor30, h 29 3 rfl, h 12 1 rfl, sub, ← hf]; rfl
  case cAddi imm d | cLi imm d | cSlli imm d | cSrai imm d | cBeqz imm d | cBnez imm d =>
    exact (Layout.field 5 5 |>.prod (.field 6 10)).roundTrips_half (f := (d, imm)) (by decide) (Nat.add_assoc ..) rfl hw fun w hform _ hf => by
      obtain ⟨rfl, rfl⟩ := Prod.mk.inj hf
      rw [decodeCompressed, hform]; rfl
  case cMv a d | cAdd a d | cSub a d | cAnd a d | cLd a d | cSd a d =>
    exact (Layout.field 5 5 |>.prod (.field 5 10)).roundTrips_half (f := (d, a)) (by decide) (Nat.add_assoc ..) rfl hw fun w hform h hf => by
      obtain ⟨rfl, rfl⟩ := Prod.mk.inj hf
      have top : w / 2 ^ 15 % 2 = _ := h 15 1 rfl
      rw [decodeCompressed, hform, top]; rfl
  case cJ imm =>
    exact (Layout.field 11 5).roundTrips_half (by decide) rfl rfl hw fun w hform _ hf => by
      subst hf; rw [decodeCompressed, hform]; rfl
  case cJr a =>
    exact (Layout.field 5 5).roundTrips_half (by decide) rfl rfl hw fun w hform h hf => by
      subst hf; rw [decodeCompressed, hform, h 10 6 rfl]; rfl
  case cNop | cBrk =>
    exact Layout.none.roundTrips_half (f := ()) (by decide) rfl rfl hw fun w hform h _ => by
      rw [decodeCompressed, hform, h 5 11 rfl]; rfl
  case mopa | mops | mopi | mopn | mopl | mgrow | mrowGet | mrowPut | mcolGet | mcolPut | mld | mst | mzero =>
    exact roundTrips_tile (by decide) (by decide) rfl rfl hw fun p w hfix hclass hfn hf => by
      rw [decodePrefixed, if_pos hfix, hclass, hfn, hf]; rfl
  all_goals exact absurd rfl hc

/-! ### From bits to bytes (R1, R32) -/

@[simp] theorem leBytes_length (n v : Nat) : (leBytes n v).length = n := by
  induction n generalizing v with
  | zero => rfl
  | succ n ih => rw [leBytes, List.length_cons, ih]

/-- Little-endian bytes hold the low bits of their number. -/
theorem leNat_leBytes (n v : Nat) : leNat (leBytes n v) = v % 256 ^ n := by
  induction n generalizing v with
  | zero => rw [leBytes, leNat, Nat.pow_zero, Nat.mod_one]
  | succ n ih =>
    rw [leBytes, leNat, ih, BitVec.toNat_ofNat, show 256 ^ (n + 1) = 2 ^ 8 * 256 ^ n from Nat.pow_succ', Nat.mod_mul]
    rfl

/-- The announced length depends on the two lowest bits alone. -/
theorem lengthOf_mod (v : Nat) : lengthOf (v % 2 ^ 8 + 256 * (v / 256 % 2 ^ 8)) = lengthOf v := by
  have two : (v % 2 ^ 8 + 256 * (v / 256 % 2 ^ 8)) % 2 = v % 2 := by omega
  have four : (v % 2 ^ 8 + 256 * (v / 256 % 2 ^ 8)) % 4 = v % 4 := by omega
  rw [lengthOf, two, four, lengthOf]

/-- An instruction that round-trips is decoded from its bytes, whatever follows them. -/
theorem RoundTrips.decode {i : Instr} (h : RoundTrips i) (rest : List Byte) : decode (leBytes (i.bits / 8) (encode i) ++ rest) = .ok (i, rest) := by
  obtain ⟨hbits, hlt, hlen⟩ := h
  obtain ⟨n, hn⟩ : ∃ n, lengthOf (encode i) = n + 2 := ⟨lengthOf (encode i) - 2, by unfold lengthOf; split_ifs <;> rfl⟩
  have bytes : i.bits / 8 = n + 2 := by omega
  have value : encode i % 256 ^ (n + 2) = encode i := Nat.mod_eq_of_lt (by rwa [show 256 = 2 ^ 8 from rfl, ← Nat.pow_mul, ← hn, Nat.mul_comm, hlen])
  have front : leBytes (n + 2) (encode i) =
      BitVec.ofNat 8 (encode i) :: BitVec.ofNat 8 (encode i / 256) :: leBytes n (encode i / 256 / 256) := rfl
  have take : (leBytes (n + 2) (encode i) ++ rest).take (n + 2) = leBytes (n + 2) (encode i) := List.take_left' (leBytes_length ..)
  have drop : (leBytes (n + 2) (encode i) ++ rest).drop (n + 2) = rest := List.drop_left' (leBytes_length ..)
  have long : ¬ (leBytes (n + 2) (encode i) ++ rest).length < n + 2 := by simp
  rw [bytes]
  rw [front, List.cons_append, List.cons_append] at take drop long ⊢
  simp only [Sys2Proof.decode, BitVec.toNat_ofNat, lengthOf_mod, hn, if_neg long, take, drop, ← front, leNat_leBytes, value, hbits]

/-- Settles O58: by its format and major every instruction round-trips in bits, and so in bytes. -/
theorem decodeEncodeRoundTrip : Obligations.DecodeEncodeRoundTrip := by
  intro i rest hw hc
  have h := roundTrips_of_wellFormed i hw hc
  exact ⟨h.1, h.2.1, h.decode rest⟩

end Sys2Proof
end

section
/-! SUPPORT. The scalar immediate and compressed arithmetic forms (R45, R63, R64). -/

namespace Sys2Proof.Machine

/-! ### Registers that nothing holds (R22) -/

theorem noHold_cons {s : State} {a : BitVec 5} {l : List (BitVec 5)} : NoHold s (a :: l) ↔ isHeld s.hart a.toNat = false ∧ NoHold s l := by
  unfold NoHold anyHeld
  rw [List.any_cons, Bool.or_eq_false_iff]

/-- R22: `x0` is never held. -/
theorem noHold_zero {s : State} {l : List (BitVec 5)} : NoHold s (0 :: l) ↔ NoHold s l := by
  rw [noHold_cons]
  exact and_iff_right rfl

/-! ### Words as numbers (R8) -/

theorem shiftLeft_eq_ofNat (x : Word) (n : Nat) : x <<< n = BitVec.ofNat 64 (x.toNat * 2 ^ n) := by
  apply BitVec.eq_of_toNat_eq
  rw [BitVec.toNat_shiftLeft, BitVec.toNat_ofNat, Nat.shiftLeft_eq]

theorem ushiftRight_eq_ofNat (x : Word) (n : Nat) : x >>> n = BitVec.ofNat 64 (x.toNat / 2 ^ n) := by
  apply BitVec.eq_of_toNat_eq
  rw [BitVec.toNat_ushiftRight, BitVec.toNat_ofNat, Nat.shiftRight_eq_div_pow, Nat.mod_eq_of_lt (Nat.lt_of_le_of_lt (Nat.div_le_self _ _) x.isLt)]

theorem sshiftRight_eq_ofInt (x : Word) (n : Nat) : x.sshiftRight n = BitVec.ofInt 64 (x.toInt / 2 ^ n) := by
  rw [BitVec.sshiftRight, Int.shiftRight_eq_div_pow]
  norm_cast

theorem flag_slt (a b : Word) : flag (a.slt b) = if a.toInt < b.toInt then 1 else 0 := by
  rw [flag, BitVec.slt]
  simp only [decide_eq_true_eq]

theorem flag_ult (a b : Word) : flag (a.ult b) = if a.toNat < b.toNat then 1 else 0 := by
  rw [flag, BitVec.ult]
  simp only [decide_eq_true_eq]

/-- R35: the U immediate is a signed multiple of 2^14. -/
theorem immU_eq_ofInt (v : BitVec 19) : immU v = BitVec.ofInt 64 (v.toInt * 2 ^ 14) := by
  rw [immU, BitVec.shiftLeft_eq_mul_twoPow, BitVec.signExtend, BitVec.ofInt_mul]
  rfl

/-! ### Immediate forms -/

/-- R63: an instruction that is an operation on one register completes with its value. -/
theorem exec_of_aluImm {i : Instr} {s : State} {a d : BitVec 5} {n : Nat} (g : Word → Word) {v : Word} (hi : exec i s = aluImm a d n g s)
    (h : NoHold s [a, d]) (hv : g (readX s a) = v) : exec i s = .next (completed s d v n) := by
  rw [hi, aluImm_spec a d n g s h, hv]

/-- R45: a compressed operation on two registers, of which the first is the destination. -/
theorem exec_of_aluC {i : Instr} {s : State} {a d : BitVec 5} (g : Word → Word → Word) (hi : exec i s = aluC d a d g s) (h : NoHold s [a, d]) :
    exec i s = .next (completed s d (g (readX s d) (readX s a)) 2) := by
  obtain ⟨-, hd⟩ := noHold_cons.mp h
  have hold : anyHeld s [d, a, d] = false := noHold_cons.mpr ⟨(noHold_cons.mp hd).1, h⟩
  rw [hi, aluC, hold]
  simp only [Bool.false_eq_true, if_false, advance_writeX]

/-- Settles O3: each form is one operation on a register and a constant. -/
theorem scalarImmediateResults : Obligations.ScalarImmediateResults := by
  intro s
  refine ⟨fun f h => ⟨?_, ?_, ?_, ?_⟩, fun f h => ⟨?_, ?_, ?_⟩, fun f h => ⟨?_, ?_⟩, fun f h => ⟨?_, ?_⟩⟩
  · exact exec_of_aluImm (· + immS f.imm) rfl h rfl
  · exact exec_of_aluImm (· &&& immS f.imm) rfl h rfl
  · exact exec_of_aluImm (· ||| immS f.imm) rfl h rfl
  · exact exec_of_aluImm (· ^^^ immS f.imm) rfl h rfl
  · exact exec_of_aluImm (· <<< f.sh.toNat) rfl h (shiftLeft_eq_ofNat ..)
  · exact exec_of_aluImm (· >>> f.sh.toNat) rfl h (ushiftRight_eq_ofNat ..)
  · exact exec_of_aluImm (·.sshiftRight f.sh.toNat) rfl h (sshiftRight_eq_ofInt ..)
  · exact exec_of_aluImm (fun a => flag (a.slt (immS f.imm))) rfl h (flag_slt ..)
  · exact exec_of_aluImm (fun a => flag (a.ult (immS f.imm))) rfl h (flag_ult ..)
  · exact exec_of_aluImm (fun _ => immU f.imm) rfl (noHold_zero.mpr h) (immU_eq_ofInt _)
  · exact exec_of_aluImm (fun _ => origAddr s.hart s.hart.pc + immU f.imm) rfl (noHold_zero.mpr h) (by rw [immU_eq_ofInt])

/-- Settles O4: each form is an operation on its destination, on one other register, or on both. -/
theorem compressedResults : Obligations.CompressedResults := by
  intro s
  refine ⟨fun imm d h => ?_, fun a d h => ?_, rfl⟩
  · have hdd : NoHold s [d, d] := noHold_cons.mpr ⟨(noHold_cons.mp h).1, h⟩
    refine ⟨?_, ?_, ?_, ?_⟩
    · exact exec_of_aluImm (· + immS imm) rfl hdd rfl
    · exact exec_of_aluImm (fun _ => immS imm) rfl (noHold_zero.mpr h) rfl
    · exact exec_of_aluImm (· <<< imm.toNat) rfl hdd (shiftLeft_eq_ofNat ..)
    · exact exec_of_aluImm (·.sshiftRight imm.toNat) rfl hdd (sshiftRight_eq_ofInt ..)
  · refine ⟨?_, ?_, ?_, ?_⟩
    · exact exec_of_aluImm id rfl h rfl
    · exact exec_of_aluC (· + ·) rfl h
    · exact exec_of_aluC (· - ·) rfl h
    · exact exec_of_aluC (· &&& ·) rfl h

end Sys2Proof.Machine
end

section
/-! SUPPORT. Every instruction, event and step answers a next state (R32, R60, R86). -/

namespace Sys2Proof.Machine

/-! ### Outcomes with a next state -/

/-- The outcome is a next state. -/
def Answers (o : Out) : Prop := ∃ t, o = .next t

theorem answers_next (t : State) : Answers (.next t) := ⟨t, rfl⟩

theorem Answers.ite {c : Prop} [Decidable c] {a b : Out} (ha : Answers a) (hb : Answers b) : Answers (if c then a else b) := by
  split
  · exact ha
  · exact hb

/-! ### The operations that meanings share -/

theorem solo_answers (i : Instr) (m : Member) (s : State) : Answers (solo i m s) := by
  unfold solo
  repeat' split
  all_goals exact answers_next _

theorem alu_answers {f : OpA} {g : Word → Word → Word} {s : State} : Answers (alu f g s) := Answers.ite (answers_next _) (answers_next _)

theorem aluImm_answers {a d : BitVec 5} {n : Nat} {g : Word → Word} {s : State} : Answers (aluImm a d n g s) :=
  Answers.ite (answers_next _) (answers_next _)

theorem aluC_answers {a b d : BitVec 5} {g : Word → Word → Word} {s : State} : Answers (aluC a b d g s) :=
  Answers.ite (answers_next _) (answers_next _)

theorem scalarLoad_answers (s : State) (ea : Word) (n len : Nat) (fin : State → Nat → State) : Answers (scalarLoad s ea n len fin) := by
  unfold scalarLoad
  repeat' split
  all_goals exact answers_next _

theorem scalarStore_answers (s : State) (ea : Word) (n val len : Nat) : Answers (scalarStore s ea n val len) := by
  unfold scalarStore
  repeat' split
  all_goals exact answers_next _

theorem scalarAmo_answers {f : OpSA} {writes reads : Bool} {regs : List (BitVec 5)} {g : Word → Option Word} {s : State} :
    Answers (scalarAmo f writes reads regs g s) := by
  dsimp only [scalarAmo]
  repeat' split
  all_goals exact answers_next _

theorem loadM_answers {f : OpM11} {n : Nat} {ext : Nat → Word} {s : State} : Answers (loadM f n ext s) :=
  Answers.ite (answers_next _) (scalarLoad_answers _ _ _ _ _)

theorem storeM_answers {f : OpM11} {n : Nat} {s : State} : Answers (storeM f n s) :=
  Answers.ite (answers_next _) (scalarStore_answers _ _ _ _ _)

theorem amoM_answers {f : OpSA} {g : Word → Word → Word} {s : State} : Answers (amoM f g s) := scalarAmo_answers

theorem transfer_answers (s : State) (target : Word) (w : State → State) : Answers (transfer s target w) := by
  unfold transfer
  repeat' split
  all_goals exact answers_next _

theorem branch_answers {a b : BitVec 5} {off : Word} {n : Nat} {cond : Word → Word → Bool} {s : State} : Answers (branch a b off n cond s) := by
  dsimp only [branch]
  refine Answers.ite (answers_next _) ?_
  split
  · refine Answers.ite ?_ (Answers.ite (transfer_answers _ _ _) (answers_next _))
    split
    · exact answers_next _
    · exact Answers.ite (answers_next _) (answers_next _)
    · exact answers_next _
  · exact Answers.ite (transfer_answers _ _ _) (answers_next _)

theorem crWrite_answers {f : OpC} {rw : Nat → Nat → Nat} {w1c : Bool} {s : State} : Answers (crWrite f rw w1c s) := by
  dsimp only [crWrite]
  repeat' split
  all_goals exact answers_next _

theorem execWmWait_answers (sc : BitVec 3) (f : OpA) (s : State) : Answers (execWmWait sc f s) := by
  dsimp only [execWmWait]
  repeat' split
  all_goals exact answers_next _

theorem execWmWaitSatisfied_answers (s : State) : Answers (execWmWaitSatisfied s) := by
  unfold execWmWaitSatisfied
  split
  · exact execWmWait_answers _ _ _
  · exact answers_next _

theorem pnRecv_answers (c : Nat) (f : OpA) (s : State) : Answers (pnRecv c f s) := by
  dsimp only [pnRecv]
  repeat' split
  all_goals exact answers_next _

/-- A pennant goes to the head convoy, to a fresh access entry, or to the parked `pn.recv` (R79). -/
theorem execPennantTake_answers (c : BitVec 3) (s : State) : Answers (execPennantTake c s) := by
  dsimp only [execPennantTake]
  split
  · exact answers_next _
  · refine Answers.ite (answers_next _) (Answers.ite ?_ (Answers.ite ?_ ?_))
    · split
      · exact Answers.ite (answers_next _) (answers_next _)
      · exact answers_next _
    · split
      · split
        · exact Answers.ite (answers_next _) (answers_next _)
        · exact answers_next _
      · exact answers_next _
    · split
      · exact Answers.ite (pnRecv_answers _ _ _) (answers_next _)
      · exact Answers.ite (pnRecv_answers _ _ _) (answers_next _)
      · exact answers_next _

/-! ### Instructions, events and steps -/

/-- Every meaning answers: a vector-class instruction's by the convoy it is, a shared operation's by its own lemma, and any other's because each
of its branches names a next state. -/
theorem exec_answers (i : Instr) (s : State) : Answers (exec i s) := by
  cases hm : memberOf i with
  | some m => exact exec_member i m s hm ▸ solo_answers i m s
  | none =>
    cases i with
    | add | sub | and | or | xor | sll | srl | sra | slt | sltn | min | max | minn | maxn | mul | mulh | mulhn | div | divn | rem | remn
    | addw | subw =>
      unfold exec; exact alu_answers
    | clz | ctz | popc | addi | andi | ori | xori | slli | srli | srai | slti | sltni | ldh | pcadd | cAddi | cLi | cMv | cSlli | cSrai =>
      unfold exec; exact aluImm_answers
    | cAdd | cSub | cAnd =>
      unfold exec; exact aluC_answers
    | ldI8 | ldI16 | ldI32 | ldI64 | ldN8 | ldN16 | ldN32 =>
      unfold exec; exact loadM_answers
    | ldPr | cLd =>
      unfold exec; exact Answers.ite (answers_next _) (scalarLoad_answers _ _ _ _ _)
    | stI8 | stI16 | stI32 | stI64 =>
      unfold exec; exact storeM_answers
    | stPr | cSd =>
      unfold exec; exact Answers.ite (answers_next _) (scalarStore_answers _ _ _ _ _)
    | amoSwap | amoAdd | amoAnd | amoOr | amoXor | amoMin | amoMax | amoMinn | amoMaxn =>
      unfold exec; exact amoM_answers
    | amoCas | amoLd | amoSt =>
      unfold exec; exact scalarAmo_answers
    | beq | bne | blt | bge | bltn | bgen | cBeqz | cBnez =>
      unfold exec; exact branch_answers
    | jal =>
      unfold exec; exact Answers.ite (answers_next _) (transfer_answers _ _ _)
    | jalr | cJr =>
      unfold exec; exact Answers.ite (answers_next _) (Answers.ite (answers_next _) (transfer_answers _ _ _))
    | cJ =>
      unfold exec; exact transfer_answers _ _ _
    | crWr | crSet | crClr =>
      unfold exec; exact crWrite_answers
    | pnRecvCh2 | pnRecvCh4 =>
      unfold exec; exact pnRecv_answers _ _ _
    | pennantTake =>
      unfold exec; exact execPennantTake_answers _ _
    | wmWait =>
      unfold exec; exact execWmWait_answers _ _ _
    | wmWaitSatisfied =>
      unfold exec; exact execWmWaitSatisfied_answers _
    | cNop | brk | cBrk | hmBody | hmEnd | quotaChange | switchFailure | participantFailed | storeQueueDrain | pendingModeWithdraw | shootdown
    | linkWr | ownclaim | ownstatNextWrite | handoverTimeout | ownbeat | heartbeatTimeout | pwrlim | elogtail | eloglost | getMeasurements
    | tdispError | tdispInterfaceStateChange | powerLimitExceeded | dieTemperature105 | dieTemperature115 | supplySag | powerLoss | deviceReset =>
      unfold exec; exact answers_next _
    | tilenWrite | psmMirrorClear | swtrap | lsync | pnCnt | switchReturn | illegalInstruction | accessEntryIssue | preempt | stallModeRequest
    | clockRaise | pageTableChange | pasidAssign | pasidTeardown | pasidDrain | linkWrm | moduleLinkFailure | qtailWrite | qreprioWrite | keySlotWrite
    | keySlotErase | coreQuarantine | powerOn =>
      unfold exec; exact Answers.ite (answers_next _) (answers_next _)
    | crRd | vsl | gbar | gangBarrierComplete | pnSend | scmtImageWrite | scmtSealWrite | recvTimeout | lateImageMerge | lateDataDiscard
    | transferMatch | backingExchange | microOperationComplete | laneReExecution | convoyRetire | combiningEntryRetire | trapDelivery | partitionSave
    | arrival | launchReady | pairDecision | gangStart | gangEnd | halt | linkedStoreRelease | writeBack | linkRd | linkRdr | keyExchange | scrubPass
    | wmPub | jwait | convoyPost | microOperationIssue | restore | recordFetch | schedulerSelection | stallModeSwitch | stripSteal | jl
    | completionRecord | pageWalk | pageMigration | linkWra | managementRegisterWrite | bar2Read | bar2Write | astOpen | astClose | astRun | arBind
    | arUnbind | acol | asend | arecv | aflip | chunkDelivery | outChunkWrite | colSend | colRecv | colRed | colCopy | colCopyIn | colCopyOut =>
      dsimp only [exec, execCrRd, execVsl, execGbar, execGangBarrierComplete, execPnSend, execScmtImageWrite, execScmtSealWrite, execRecvTimeout,
        execLateImageMerge, execLateDataDiscard, execTransferMatch, execBackingExchange, execMicroOperationComplete, execLaneReExecution,
        execConvoyRetire, execCombiningEntryRetire, execTrapDelivery, execPartitionSave, execArrival, execLaunchReady, execPairDecision,
        execGangStart, execGangEnd, execHalt, execLinkedStoreRelease, execWriteBack, execLinkRd, execLinkRdr, execKeyExchange, execScrubPass,
        execWmPub, execJwait, execConvoyPost, execMicroOperationIssue, execRestore, execRecordFetch, execSchedulerSelection, execStallModeSwitch,
        execStripSteal, execJl, execCompletionRecord, execPageWalk, execPageMigration, execLinkWra, execManagementRegisterWrite, execBar2Read,
        execBar2Write, execAstOpen, execAstClose, execAstRun, execArBind, execArUnbind, execAcol, execAsend, execArecv, execAflip, execChunkDelivery,
        execOutChunkWrite, execColSend, execColRecv, execColRed, execColCopy, execColCopyIn, execColCopyOut, postEntry, deliver, collMove]
      repeat' split
      all_goals exact answers_next _
    | _ => cases hm

theorem step_answers (s : State) : Answers (step s) := by
  unfold step
  split
  · exact exec_answers _ _
  · exact answers_next _

/-- Settles O55: whatever turn is chosen, what it performs answers a next state. -/
theorem everyStepAnswers : Obligations.EveryStepAnswers := ⟨exec_answers, step_answers⟩

end Sys2Proof.Machine
end

section
/-! SUPPORT. The jumps (R33, R48, R72). -/

namespace Sys2Proof.Machine

/-- A meaning whose registers are not held is its branch without the wait (R22). -/
theorem unheld {s : State} {l : List (BitVec 5)} (h : NoHold s l) (a b : Out) : (if anyHeld s l then a else b) = b :=
  if_neg (ne_true_of_eq_false h)

/-- R48: an instruction that is a transfer with a link lands, or traps with its target. -/
theorem exec_of_transfer {i : Instr} {s : State} {d : BitVec 5} {target v : Word} (hi : exec i s = transfer s target (fun t => writeX t d v)) :
    (∀ t, Lands s target t → exec i s = .next (transferred t d v (placeOfTarget t target))) ∧
      (Trips s target → exec i s = .next (takeTrap s .illegal target)) :=
  ⟨fun t h => hi.trans (transfer_lands s t target d v h), fun h => hi.trans (transfer_trips s target _ h)⟩

/-- R33: an instruction that jumps through a register refuses an odd target, and otherwise transfers to it. -/
theorem exec_of_jumpReg {i : Instr} {s : State} {d : BitVec 5} {target v : Word}
    (hi : exec i s = if target.toNat % 2 = 1 then .next (takeTrap s .misalign target) else transfer s target (fun t => writeX t d v)) :
    (target.toNat % 2 = 0 →
      (∀ t, Lands s target t → exec i s = .next (transferred t d v (placeOfTarget t target))) ∧
        (Trips s target → exec i s = .next (takeTrap s .illegal target))) ∧
      (target.toNat % 2 = 1 → exec i s = .next (takeTrap s .misalign target)) :=
  ⟨fun even => exec_of_transfer (hi.trans (if_neg (by omega))), fun odd => hi.trans (if_pos odd)⟩

/-- Settles O9: each jump is a transfer to its target; a compressed one links to `x0`, which holds nothing. -/
theorem jumpResults : Obligations.JumpResults := by
  intro s
  refine ⟨fun f h => ?jal, fun f h => ?jalr, fun imm => ?cJ, fun a h => ?cJr⟩
  case jal => exact exec_of_transfer (unheld h _ _)
  case jalr => exact exec_of_jumpReg (unheld h _ _)
  case cJ => exact exec_of_transfer (d := 0) rfl
  case cJr => exact exec_of_jumpReg (d := 0) (unheld h _ _)

end Sys2Proof.Machine
end

section
/-! SUPPORT. The conditional branches, spliced and not (R48, R71, R339). -/

namespace Sys2Proof.Machine

/-! ### The conditions of the branches -/

/-- Every conditional branch is the shared operation on its registers with R71's condition: what holds of that operation holds of each. -/
theorem forall_branches {s : State} {P : Instr → Nat → Word → Bool → Prop}
    (hP : ∀ {i : Instr} {a b : BitVec 5} {off : Word} {n : Nat} {p : Bool} (cond : Word → Word → Bool), NoHold s [a, b] →
      exec i s = branch a b off n cond s → cond (readX s a) (readX s b) = p → P i n off p) :
    (∀ f : OpBr, NoHold s [f.a, f.b] →
      P (.beq f) 4 (brOff f) (decide (readX s f.a = readX s f.b)) ∧ P (.bne f) 4 (brOff f) (decide (readX s f.a ≠ readX s f.b)) ∧
      P (.blt f) 4 (brOff f) (decide ((readX s f.a).toInt < (readX s f.b).toInt)) ∧
      P (.bge f) 4 (brOff f) (decide ((readX s f.b).toInt ≤ (readX s f.a).toInt)) ∧
      P (.bltn f) 4 (brOff f) (decide ((readX s f.a).toNat < (readX s f.b).toNat)) ∧
      P (.bgen f) 4 (brOff f) (decide ((readX s f.b).toNat ≤ (readX s f.a).toNat))) ∧
    ∀ (imm : BitVec 6) (d : BitVec 5), NoHold s [d, 0] →
      P (.cBeqz imm d) 2 (offS imm) (decide (readX s d = 0)) ∧ P (.cBnez imm d) 2 (offS imm) (decide (readX s d ≠ 0)) := by
  have ne (a b : Word) : (a != b) = decide (a ≠ b) := by rw [decide_not]; rfl
  have ge (a b : Word) : (!a.slt b) = decide (b.toInt ≤ a.toInt) := by rw [BitVec.slt, ← decide_not, decide_eq_decide]; exact Int.not_lt
  have geu (a b : Word) : (!a.ult b) = decide (b.toNat ≤ a.toNat) := by rw [BitVec.ult, ← decide_not, decide_eq_decide]; exact Nat.not_lt
  exact ⟨fun f h => ⟨hP (· == ·) h rfl rfl, hP (· != ·) h rfl (ne _ _), hP BitVec.slt h rfl rfl, hP (!BitVec.slt · ·) h rfl (ge _ _),
    hP BitVec.ult h rfl rfl, hP (!BitVec.ult · ·) h rfl (geu _ _)⟩, fun imm d h => ⟨hP (· == ·) h rfl rfl, hP (· != ·) h rfl (ne _ _)⟩⟩

/-! ### Outside the back branches of a splice -/

/-- An instruction of `n` bytes goes on behind itself when `p` is false; otherwise it transfers to its own address plus `off`. -/
def BranchesOn (s : State) (i : Instr) (n : Nat) (off : Word) (p : Bool) : Prop :=
  (p = false → exec i s = .next (past s n)) ∧
    (p = true → (∀ t, Lands s (origAddr s.hart s.hart.pc + off) t →
        exec i s = .next (transferred t 0 0 (placeOfTarget t (origAddr s.hart s.hart.pc + off)))) ∧
      (Trips s (origAddr s.hart s.hart.pc + off) → exec i s = .next (takeTrap s .illegal (origAddr s.hart s.hart.pc + off))))

theorem branchesOn_of_branch {s : State} {i : Instr} {a b : BitVec 5} {off : Word} {n : Nat} {p : Bool} (cond : Word → Word → Bool)
    (hs : s.hart.splice = none ∨ ∃ i, spliceAt s.hart = some i ∧ i.region ≠ 2) (h : NoHold s [a, b]) (hi : exec i s = branch a b off n cond s)
    (hp : cond (readX s a) (readX s b) = p) : BranchesOn s i n off p := by
  rw [branch_spec s a b off n cond hs h, hp] at hi
  refine ⟨fun h => ?_, fun h => ?_⟩ <;> subst h
  · exact hi
  · exact exec_of_transfer (d := 0) hi

/-! ### The back branches of a splice (R339) -/

/-- What the decision `p` of a back branch makes of `u`: registers and memory stay; a role that is left goes on or ends; the producer's is recorded;
the consumer's begins the next iteration, ends the loop, or unzips the splice. -/
def Decided (sp : Splice) (i : SpInstr) (p : Bool) (u t : State) : Prop :=
  t.hart.x = u.hart.x ∧ t.hart.v = u.hart.v ∧ t.mem = u.mem ∧
    (∀ c, sp.unzipped = some c → t.hart.pc = spliceAddr (startOf sp c (if p then 1 else 3)) ∧ t.hart.splice = some sp) ∧
    (sp.unzipped = none → i.consumer = false →
      t.hart.pc = spliceAddr (spliceIndex u.hart.pc + 1) ∧ t.hart.splice = some { sp with taken := some p }) ∧
    (sp.unzipped = none → i.consumer = true →
      (sp.taken = some p → t.hart.pc = spliceAddr (startOf sp false (if p then 1 else 3)) ∧ t.hart.splice = some { sp with taken := none }) ∧
      (sp.taken = some (!p) → t.hart.pc = spliceAddr (startOf sp false (if p then 3 else 1)) ∧
        t.hart.splice = some { sp with taken := none, unzipped := some p }))

/-- Going to a spliced place with a new splice leaves registers and memory. (For any address: the kernel would unfold a number's.) -/
theorem jumpTo_splice_keeps (u : State) (a : Word) (o : Option Splice) :
    let t : State := { jumpTo u a with hart := { (jumpTo u a).hart with splice := o } }
    t.hart.x = u.hart.x ∧ t.hart.v = u.hart.v ∧ t.mem = u.mem :=
  ⟨rfl, rfl, rfl⟩

/-- R339: the shared decision does that. -/
theorem decided_backBranch (u : State) (sp : Splice) (i : SpInstr) (p : Bool) : Decided sp i p u (backBranch u sp i.consumer p) := by
  have keeps : (backBranch u sp i.consumer p).hart.x = u.hart.x ∧ (backBranch u sp i.consumer p).hart.v = u.hart.v ∧
      (backBranch u sp i.consumer p).mem = u.mem := by
    unfold backBranch
    repeat' split
    all_goals exact jumpTo_splice_keeps _ _ _
  obtain ⟨hx, hv, hmem⟩ := keeps
  refine ⟨hx, hv, hmem, fun c hu => ?alone, fun hu hc => ?producer, fun hu hc => ⟨fun ht => ?agree, fun ht => ?unzip⟩⟩
  case alone => cases p <;> simp only [backBranch, hu] <;> exact ⟨rfl, rfl⟩
  case producer => simp only [backBranch, hu, hc]; exact ⟨rfl, rfl⟩
  case agree => cases p <;> simp only [backBranch, hu, hc, ht] <;> exact ⟨rfl, rfl⟩
  case unzip => cases p <;> simp only [backBranch, hu, hc, ht] <;> exact ⟨rfl, rfl⟩

/-- A back branch decides by `p`, once the check of its original target has passed when it is taken. -/
def DecidesBy (s : State) (sp : Splice) (i : SpInstr) (b : Instr) (off : Word) (p : Bool) : Prop :=
  (p = true → (∀ u, Lands s (i.orig + off) u → ∃ t, exec b s = .next t ∧ Decided sp i p u t) ∧
    (Trips s (i.orig + off) → exec b s = .next (takeTrap s .illegal (i.orig + off)))) ∧
  (p = false → ∃ t, exec b s = .next t ∧ Decided sp i p s t)

theorem decidesBy_of_branch {s : State} {sp : Splice} {i : SpInstr} {ins : Instr} {a b : BitVec 5} {off : Word} {n : Nat} {p : Bool}
    (cond : Word → Word → Bool) (hs : s.hart.splice = some sp) (hi : spliceAt s.hart = some i) (hr : i.region = 2) (h : NoHold s [a, b])
    (hb : exec ins s = branch a b off n cond s) (hp : cond (readX s a) (readX s b) = p) : DecidesBy s sp i ins off p := by
  have here : origAddr s.hart s.hart.pc = i.orig := by
    have at_pc : spliceCodeAt s.hart s.hart.pc = some i := hi
    rw [origAddr, at_pc]
  rw [branch, unheld h] at hb
  simp only [hs, hi, hr, hp, here, if_true] at hb
  refine ⟨fun taken => ⟨fun u hu => ⟨_, ?lands, decided_backBranch u sp i p⟩, fun ⟨t, v, hf, hv⟩ => ?trips⟩,
    fun fallen => ⟨_, ?_, decided_backBranch s sp i p⟩⟩
  case lands =>
    rw [if_pos taken] at hb
    rcases hu with ⟨v, hf, hv⟩ | ⟨u', tr, hf, rfl⟩ <;> rw [hf] at hb
    · exact hb.trans (if_neg (ne_true_of_eq_false hv))
    · exact hb
  case trips =>
    rw [if_pos taken, hf] at hb
    exact hb.trans (if_pos hv)
  · rw [if_neg (ne_true_of_eq_false fallen)] at hb
    exact hb

/-- Settles O8: every branch is the shared operation, which outside a back branch goes on or transfers, and at one decides for the splice. -/
theorem branchResults : Obligations.BranchResults :=
  ⟨fun s hs => forall_branches (P := BranchesOn s) fun cond h hi hp => branchesOn_of_branch cond hs h hi hp,
    fun s sp i hs hi hr => forall_branches (P := fun b _ off p => DecidesBy s sp i b off p) fun cond h hb hp =>
      decidesBy_of_branch cond hs hi hr h hb hp⟩

end Sys2Proof.Machine
end

section
/-! SUPPORT. Scalar loads (R36, R65, R66, R172). -/

namespace Sys2Proof.Machine

/-! ### Extension (R8) -/

/-- `Sext` of the low bits is the signed reading of a bit vector. -/
theorem signExt_eq_toInt (v n : Nat) : signExt v (n + 1) = (BitVec.ofNat (n + 1) v).toInt := by
  have half : v % 2 ^ (n + 1) < 2 ^ n ↔ 2 * (v % 2 ^ (n + 1)) < 2 ^ (n + 1) := by rw [Nat.pow_succ]; omega
  rw [signExt, BitVec.toInt, BitVec.toNat_ofNat, Nat.add_sub_cancel]
  simp only [half]

/-- `Wrap` to 64 bits is the word of an integer. -/
theorem ofNat_wrapN (z : Int) : W (wrapN z 64) = BitVec.ofInt 64 z := by
  apply BitVec.eq_of_toNat_eq
  rw [BitVec.toNat_ofNat, BitVec.toNat_ofInt, wrapN]
  omega

/-- R36: a signed load's value is the sign extension of its bytes. -/
theorem ofNat_wrapN_signExt (v n : Nat) : W (wrapN (signExt v (n + 1)) 64) = (BitVec.ofNat (n + 1) v).signExtend 64 := by
  rw [ofNat_wrapN, signExt_eq_toInt, BitVec.signExtend]

/-! ### The shared load -/

/-- R172: a load waits for an acquire that was posted before it. -/
theorem scalarLoad_acquire {s : State} (ea : Word) (n len : Nat) (fin : State → Nat → State) (h : acquireIn s.hart.vq = true) :
    scalarLoad s ea n len fin = .next (parked s .acquire) :=
  if_pos h

/-- R65: a load whose checks pass and whose data is not poison completes with what the hart reads. -/
theorem scalarLoad_ok {s u : State} {ea : Word} {n : Nat} {h : Hit} (len : Nat) (fin : State → Nat → State) (ha : acquireIn s.hart.vq = false)
    (hc : checkAccess s ea n n .load = (u, .ok h)) (hp : readsPoison u h.key n = false) :
    scalarLoad s ea n len fin = .next (advance (fin u (hartRead u h.key n)) len) := by
  rw [scalarLoad, if_neg (ne_true_of_eq_false ha), hc]
  exact if_neg (ne_true_of_eq_false hp)

/-- A load of one register completes with its value. -/
theorem exec_of_loadOk {i : Instr} {s u : State} {ea w : Word} {d : BitVec 5} {n len : Nat} {h : Hit} (ext : Nat → Word)
    (hi : exec i s = scalarLoad s ea n len fun t v => writeX t d (ext v)) (ha : acquireIn s.hart.vq = false)
    (hc : checkAccess s ea n n .load = (u, .ok h)) (hp : readsPoison u h.key n = false) (hw : ext (hartRead u h.key n) = w) :
    exec i s = .next (completed u d w len) := by
  rw [hi, scalarLoad_ok len _ ha hc hp, advance_writeX, hw]

/-! ### The load forms -/

/-- Every load of one register waits for an acquire. -/
theorem loads_acquire {s : State} {f : OpM11} (h : NoHold s [f.a, f.d]) (ha : acquireIn s.hart.vq = true) :
    ∀ i ∈ [Instr.ldI8 f, .ldI16 f, .ldI32 f, .ldI64 f, .ldN8 f, .ldN16 f, .ldN32 f, .cLd f.a f.d], exec i s = .next (parked s .acquire) := by
  have load (n : Nat) (ext : Nat → Word) : loadM f n ext s = .next (parked s .acquire) := (unheld h _ _).trans (scalarLoad_acquire _ _ _ _ ha)
  simp only [List.forall_mem_cons, List.not_mem_nil, false_imp_iff, implies_true, and_true]
  exact ⟨load 1 _, load 2 _, load 4 _, load 8 _, load 1 _, load 2 _, load 4 _, (unheld h _ _).trans (scalarLoad_acquire _ _ _ _ ha)⟩

/-- The registers of `ld.pr` are unheld when those of the other loads and its second one are. -/
theorem noHold_pair {s : State} {f : OpM11} (h : NoHold s [f.a, f.d]) (h2 : NoHold s [f.d + 1]) : NoHold s [f.a, f.d, f.d + 1] := by
  simp only [noHold_cons] at h h2 ⊢
  exact ⟨h.1, h.2.1, h2⟩

/-- Settles O5: the forms differ in width and extension; the shared load says when they wait and what they read. -/
theorem scalarLoadResults : Obligations.ScalarLoadResults := by
  refine ⟨fun s f h ha => ⟨loads_acquire h ha, fun h2 => (unheld (noHold_pair h h2) _ _).trans (scalarLoad_acquire _ _ _ _ ha)⟩, ?_⟩
  intro s u hit f n h ha ea v hc hp gives
  have load {i : Instr} {w : Word} (ext : Nat → Word) (hi : exec i s = loadM f n ext s) (hw : ext v = w) : gives i w :=
    exec_of_loadOk ext (hi.trans (unheld h _ _)) ha hc hp hw
  refine ⟨?_, ?_, ?_, fun h8 => ?_, fun h16 h2 => ?_⟩
  · rintro rfl
    exact ⟨load _ rfl rfl, load _ rfl (ofNat_wrapN_signExt v 7)⟩
  · rintro rfl
    exact ⟨load _ rfl rfl, load _ rfl (ofNat_wrapN_signExt v 15)⟩
  · rintro rfl
    exact ⟨load _ rfl rfl, load _ rfl (ofNat_wrapN_signExt v 31)⟩
  · subst h8
    refine ⟨load _ rfl rfl, fun himm => ?_⟩
    have here : ea = readX s f.a := by simp [ea, himm]
    exact exec_of_loadOk W (unheld h _ _) ha (here ▸ hc) hp rfl
  · subst h16
    have run : exec (.ldPr f) s = _ := (unheld (noHold_pair h h2) _ _).trans (scalarLoad_ok 4 _ ha hc hp)
    rw [run, writeX_eq, writeX_eq]
    rfl

end Sys2Proof.Machine
end

section
/-! SUPPORT. The step of a hart that nothing keeps from its next instruction (R32, R33, R47, R60). -/

namespace Sys2Proof.Machine

/-! ### Fetching changes memory alone, for the accessed bit (R33, R274) -/

/-- `t` is `s` but for memory. -/
def OnlyMem (s t : State) : Prop := ∃ m, t = { s with mem := m }

theorem OnlyMem.refl (s : State) : OnlyMem s s := ⟨s.mem, rfl⟩

theorem OnlyMem.trans {s t u : State} : OnlyMem s t → OnlyMem t u → OnlyMem s u := by
  rintro ⟨m, rfl⟩ ⟨n, rfl⟩
  exact ⟨n, rfl⟩

theorem OnlyMem.harts {s t : State} : OnlyMem s t → t.hart = s.hart ∧ t.others = s.others := by
  rintro ⟨m, rfl⟩
  exact ⟨rfl, rfl⟩

theorem setAD_onlyMem (s : State) (a : Nat) (acc : Acc) : OnlyMem s (setAD s a acc) := by
  dsimp only [setAD]
  split
  · exact .refl s
  · exact ⟨_, rfl⟩

theorem grantLeaf_onlyMem (s : State) (p : Nat) (va : Word) (acc : Acc) (h : Hit) : OnlyMem s (grantLeaf s p va acc h).1 := by
  unfold grantLeaf
  split
  · exact .refl s
  · split
    · exact .refl s
    · dsimp only
      split
      · exact .refl s
      · exact setAD_onlyMem s _ acc

theorem grant_onlyMem (s : State) (p : Nat) (va : Word) (acc : Acc) (h : Hit) : OnlyMem s (grant s p va acc h).1 := by
  unfold grant
  split
  · exact grantLeaf_onlyMem ..
  · split
    · exact grantLeaf_onlyMem ..
    · exact .refl s

theorem resolve_onlyMem (s : State) (va : Word) (n : Nat) (acc : Acc) : OnlyMem s (resolve s va n acc).1 := by
  unfold resolve
  split
  · unfold grantPlace
    split
    · exact .refl s
    · exact grant_onlyMem ..
  · exact .refl s

theorem fetchHalf_onlyMem (s : State) (va : Word) : OnlyMem s (fetchHalf s va).1 := by
  have h := resolve_onlyMem s va 2 .fetch
  unfold fetchHalf
  split <;> rename_i e
  · rw [e] at h
    exact h
  · exact .refl s
  · exact .refl s

theorem fetchHalves_onlyMem (n : Nat) : ∀ (s : State) (va : Word), OnlyMem s (fetchHalves s va n).1 := by
  induction n with
  | zero => exact fun s _ => .refl s
  | succ n ih =>
    intro s va
    have half := fetchHalf_onlyMem s va
    unfold fetchHalves
    split <;> rename_i e
    · rw [e] at half
      have more := half.trans (ih _ (va + 2))
      split <;> rename_i e2
      · rw [e2] at more
        exact more
      · exact more
    · exact half

theorem fetchBits_onlyMem (s : State) (va : Word) : OnlyMem s (fetchBits s va).1 := by
  have half := fetchHalf_onlyMem s va
  unfold fetchBits
  split <;> rename_i e
  · rename_i v
    rw [e] at half
    have more := half.trans (fetchHalves_onlyMem (lengthOf v / 2 - 1) _ (va + 2))
    split <;> rename_i e2
    · rw [e2] at more
      exact more
    · exact more
  · exact half

/-! ### What fetched bits perform (R19, R32, R47) -/

theorem instrOf_of_decodes {v : Nat} {i : Instr} (h : decodeBits v = .ok i) :
    instrOf v = if i.cls = .vector ∧ i.linked = true then .convoyPost else i := by
  rw [instrOf, gotOf, h]
  rfl

/-- Bits that decode neither as they stand nor as a linked `vfence` (R49) are bad. -/
theorem gotOf_of_undecodable {v : Nat} {r : Reject} (h : decodeBits v = .error r) (hf : ∀ sc, decodeBits (v - 2 ^ 28) ≠ .ok (.vfence sc)) :
    gotOf v = .bad v := by
  rw [gotOf, h]
  generalize decodeBits (v - 2 ^ 28) = unlinked at hf
  cases unlinked with
  | error _ => rfl
  | ok i =>
    cases i
    case vfence sc => exact absurd rfl (hf sc)
    all_goals rfl

theorem instrOf_of_undecodable {v : Nat} {r : Reject} (h : decodeBits v = .error r) (hf : ∀ sc, decodeBits (v - 2 ^ 28) ≠ .ok (.vfence sc)) :
    instrOf v = .illegalInstruction (W v) 0 := by
  rw [instrOf, gotOf_of_undecodable h hf]

/-! ### The chosen turn -/

/-- A running hart that nothing keeps from its next instruction fetches (log entry 1). -/
theorem chosen_fetches {s : State} (hagenda : s.agenda = []) (hready : s.dev.ready = true) (hrun : s.hart.run = .running)
    (hturn : s.hart.instret.toNat / 256 = s.hart.kept) (hleaf : .preemptPending s.hart.gangid s.hart.hartid ∉ s.leaf) (hvq : s.hart.vq = [])
    (hwriter : writerStalls s s.hart = false) (hwb : retryWriteBack s = s) (haq : s.hart.aq = []) (hpark : s.hart.park = none)
    (hvwait : s.hart.vwait = none) (hawait : s.hart.await = none) : chosen s = fetchTurn s := by
  have policy : policyTurn s = runTurn s := by
    rw [policyTurn, hready, hwb, if_neg (by simp), if_neg (by simp), if_pos hrun, if_neg (by simpa using hleaf)]
  have retry : retryQueues s = s := by
    rw [retryQueues, hvwait, hawait]
    rfl
  have run : runTurn s = fetchTurn s := by
    rw [runTurn, hwriter, hvq, haq, hpark, if_neg (by simp [hturn]), if_neg (by simp), if_neg (by simp)]
    dsimp only
    rw [retry]
  rw [chosen, hagenda]
  exact policy.trans run

/-- A fetch that gives bits, in code that is not spliced, is followed by what they perform. -/
theorem step_of_bits {s t : State} {v : Nat} (h : chosen s = fetchTurn s) (hsplice : s.hart.splice = none)
    (hf : fetchBits s s.hart.pc = (t, .bits v)) : step s = exec (instrOf v) t := by
  have turn : chosen s = (t, some (instrOf v)) := by rw [h, fetchTurn, hsplice]; dsimp only; rw [hf]
  rw [step, turn]

theorem step_of_fault {s t : State} {tr : Trap} (h : chosen s = fetchTurn s) (hsplice : s.hart.splice = none)
    (hf : fetchBits s s.hart.pc = (t, .trap tr)) : step s = .next (takeTrap s tr.cause tr.tval) := by
  have turn : chosen s = (takeTrap s tr.cause tr.tval, none) := by rw [h, fetchTurn, hsplice]; dsimp only; rw [hf]
  rw [step, turn]

/-- An event at the head of the agenda is performed. -/
theorem step_of_event {s : State} {i : Instr} {rest : List Turn} (hi : i.cls = .event) :
    step { s with agenda := .event i :: rest } = exec i { s with agenda := rest } := by
  have turn : chosen { s with agenda := .event i :: rest } = ({ s with agenda := rest }, some i) := by
    dsimp only [chosen, agendaTurn]
    rw [if_pos hi]
  rw [step, turn]

/-- Settles O56: the turn is the hart's fetch, and the bits say what it performs. -/
theorem stepRunsDecoded : Obligations.StepRunsDecoded := by
  intro s t v hagenda hready hrun hturn hleaf hvq hwriter hwb haq hpark hvwait hawait hsplice
  have turn := chosen_fetches hagenda hready hrun hturn hleaf hvq hwriter hwb haq hpark hvwait hawait
  refine ⟨fun hf => ?bits, fun tr hf => step_of_fault turn hsplice hf, fun i rest hi => step_of_event hi⟩
  have keeps := fetchBits_onlyMem s s.hart.pc
  rw [hf] at keeps
  have run := step_of_bits turn hsplice hf
  exact ⟨keeps.harts.1, keeps.harts.2, fun i hi => run.trans (congrArg (exec · t) (instrOf_of_decodes hi)),
    fun r hr hv => run.trans (congrArg (exec · t) (instrOf_of_undecodable hr hv))⟩

end Sys2Proof.Machine
end

section
/-! SUPPORT. Written-out words (R34 to R46). -/

namespace Sys2Proof

/-- A word decodes to an instruction that is encoded as it. -/
theorem decodeBits_of_encode {w : Nat} {i : Instr} (h : encode i = w) (hw : i.wellFormed = true) (hc : i.cls ≠ .event) : decodeBits w = .ok i :=
  h ▸ (roundTrips_of_wellFormed i hw hc).1

/-- Settles O57: each word is the encoding of its instruction. -/
theorem decodesWrittenWords : Obligations.DecodesWrittenWords :=
  ⟨decodeBits_of_encode rfl rfl (by decide), decodeBits_of_encode rfl rfl (by decide), decodeBits_of_encode rfl rfl (by decide),
    decodeBits_of_encode rfl rfl (by decide), decodeBits_of_encode rfl rfl (by decide), decodeBits_of_encode rfl rfl (by decide),
    decodeBits_of_encode rfl rfl (by decide), decodeBits_of_encode rfl rfl (by decide)⟩

end Sys2Proof
end

section
/-! SUPPORT. Control registers read, the vector length, and the state of reset (R51, R52, R54, R55, R73, R74, R318, R337, R358). -/

namespace Sys2Proof.Machine

/-! ### Classes and values (R54, R55) -/

theorem isClassQ_iff (idx : Nat) : isClassQ idx = true ↔ idx ∈ classQ := by
  simp only [isClassQ, classQ, Bool.or_eq_true, decide_eq_true_eq, beq_iff_eq, List.mem_cons, List.not_mem_nil, or_false]
  omega

/-- R54: a register that is no free-running counter stands still when it is read. -/
theorem crRead_still {s : State} {idx : Nat} (h : idx ∉ [0x040, 0x042, 0x043]) : crRead s idx = (crValue s idx, s) := by
  unfold crRead
  split
  · exact absurd (by decide) h
  · exact absurd (by decide) h
  · exact absurd (by decide) h
  · rfl

/-- R54: each row of the table of readable registers, as `crRead` reads it. -/
theorem crRead_table (s : State) : ∀ r ∈ crTable s, crRead s r.1 = (r.2, s) := List.map_inj_left.mp rfl

/-! ### The tiles that a role of a splice sees (R337) -/

theorem bitN_or_two_pow (a m n : Nat) : bitN (a ||| 2 ^ m) n = (decide (m = n) || bitN a n) := by
  rw [bitN_eq, bitN_eq, Nat.testBit_or, Nat.testBit_two_pow, Bool.or_comm]

/-- The bits that a role's tiles gather: those of the tiles whose own bit is set, each under the number the role gives it. -/
theorem bitN_gather {α : Type} (name own : α → Nat) (v n : Nat) (l : List α) (a : Nat) :
    bitN (l.foldl (fun a m => if bitN v (own m) then a ||| 2 ^ name m else a) a) n = true ↔
      bitN a n = true ∨ ∃ m ∈ l, name m = n ∧ bitN v (own m) = true := by
  induction l generalizing a with
  | nil => simp
  | cons m l ih =>
    rw [List.foldl_cons, ih, List.exists_mem_cons_iff]
    by_cases h : bitN v (own m) = true
    · simp only [h, if_true, bitN_or_two_pow, Bool.or_eq_true, decide_eq_true_eq, and_true]
      tauto
    · simp [h]

theorem bitN_zero_left (n : Nat) : bitN 0 n = false := by simp [bitN_eq]

theorem roleTiles_producer {h : Hart} {sp : Splice} (v n : Nat) (hs : h.splice = some sp) (hc : sp.consumer = false) :
    bitN (roleTiles h v) n = (decide (n ∈ sp.tilesP) && bitN v n) := by
  have hg := bitN_gather id id v n sp.tilesP 0
  simp only [id, bitN_zero_left, Bool.false_eq_true, false_or] at hg
  unfold roleTiles
  rw [hs, Bool.eq_iff_iff]
  simp only [hc, Bool.false_eq_true, if_false, hg, Bool.and_eq_true, decide_eq_true_eq]
  exact ⟨fun ⟨m, hm, hn, hv⟩ => hn ▸ ⟨hm, hv⟩, fun ⟨hm, hv⟩ => ⟨n, hm, rfl, hv⟩⟩

theorem roleTiles_consumer {h : Hart} {sp : Splice} (v n : Nat) (hs : h.splice = some sp) (hc : sp.consumer = true) :
    bitN (roleTiles h v) n = true ↔ ∃ m ∈ sp.tilesC, m.1 = n ∧ bitN v m.2 = true := by
  have hg := bitN_gather (fun m : Nat × Nat => m.1) (fun m => m.2) v n sp.tilesC 0
  simp only [bitN_zero_left, Bool.false_eq_true, false_or] at hg
  unfold roleTiles
  rw [hs]
  simpa only [hc, if_true] using hg

/-! ### `cr.rd` (R55, R73) -/

/-- R55: what lets a read go on without the vector queue. -/
theorem crReadWaits_eq_false_iff (s : State) (idx : Nat) :
    crReadWaits s idx = false ↔ idx ∉ classQ ∨ vectorBusy s.hart = false ∨ (idx ∈ [0x000, 0x001, 0x004] ∧ s.hart.pend.isSome = true) := by
  rw [← isClassQ_iff]
  simp only [crReadWaits, Bool.and_eq_false_iff, Bool.not_eq_false', Bool.and_eq_true, Bool.or_eq_true, beq_iff_eq, List.mem_cons, List.not_mem_nil,
    or_false, Bool.not_eq_true, or_assoc]

theorem exec_crRd_waits {f : OpC} {s : State} (h : NoHold s [f.d]) (hw : crReadWaits s f.idx.toNat = true) :
    exec (.crRd f) s = .next (parked s .qclass) :=
  (unheld h _ _).trans (if_pos hw)

/-- R73: a read that does not wait completes with what the register then holds. -/
theorem exec_crRd_reads {f : OpC} {s t : State} {v : Word} (h : NoHold s [f.d]) (hw : crReadWaits s f.idx.toNat = false)
    (hr : crRead s f.idx.toNat = (v, t)) : exec (.crRd f) s = .next (completed t f.d v 4) := by
  refine (unheld h _ _).trans ((if_neg (by rw [hw]; exact Bool.false_ne_true)).trans ?_)
  simp only [hr, advance_writeX]

/-- Settles O10: a read waits as its class says, and otherwise reads its row of the table, or moves its counter on. -/
theorem controlRegisterReads : Obligations.ControlRegisterReads := by
  unfold Obligations.ControlRegisterReads
  refine ⟨fun h v => ⟨fun hs => ?_, fun sp n => roleTiles_producer v n, fun sp n => roleTiles_consumer v n⟩, fun f s h => ?_⟩
  · unfold roleTiles
    rw [hs]
  · rw [← crReadWaits_eq_false_iff]
    have counts {k : Nat} {v : Word} {t : State} (hk : k ∉ classQ) (hr : crRead s k = (v, t)) (hi : f.idx.toNat = k) :
        exec (.crRd f) s = .next (completed t f.d v 4) :=
      exec_crRd_reads h ((crReadWaits_eq_false_iff s _).mpr (.inl (hi ▸ hk))) (hi ▸ hr)
    exact ⟨fun hw => exec_crRd_waits h (eq_true_of_ne_false hw),
      fun hw r hr hi => exec_crRd_reads h hw (hi ▸ crRead_table s r hr),
      counts (by decide) rfl, counts (by decide) rfl, counts (by decide) rfl⟩

/-! ### `vsl` (R52, R74) -/

/-- Settles O12: a `vsl` that nothing holds up leaves the clamped length and the type for the next convoy. -/
theorem setVectorLength : Obligations.SetVectorLength := by
  intro f s h hp
  refine (unheld h _ _).trans ((if_neg (by rw [hp]; exact Bool.false_ne_true)).trans ?_)
  simp only [writeX_eq]
  rfl

/-! ### Reset (R51, R54, R318, R358, R361) -/

theorem queueOf_reset (q : BitVec 6) : queueOf State.reset q = CQueue.reset := Vector.getElem_replicate _

/-- Settles O60: every field of the reset state has its reset value, and each queue is the reset queue. -/
theorem resetState : Obligations.ResetState := by
  refine ⟨reset_memoryOk, fun _ => rfl, ?_⟩
  simp only [queueOf_reset, forall_const]
  and_intros <;> rfl

end Sys2Proof.Machine
end

section
/-! SUPPORT. Control registers written, set and cleared (R54 to R56, R73). -/

namespace Sys2Proof.Machine

/-! ### The shared write (R55, R73) -/

/-- The value of the RW bits that a write would store. -/
def crNew (f : OpC) (rw : Nat → Nat → Nat) (s : State) : Nat :=
  rw (crOld s f.idx.toNat) (readX s f.a).toNat &&& crRw s f.idx.toNat

/-- The W1C bits that a write would clear. -/
def crCleared (f : OpC) (w1c : Bool) (s : State) : Nat := if w1c then (readX s f.a).toNat &&& crW1c f.idx.toNat else 0

section
variable {f : OpC} {s : State} (rw : Nat → Nat → Nat) (w1c : Bool)

/-- R55: a write to a class Q register waits for the vector queue. -/
theorem crWrite_waits (h : NoHold s [f.a, f.d]) (hq : f.idx.toNat ∈ classQ) (hb : vectorBusy s.hart = true) :
    crWrite f rw w1c s = .next (parked s .qclass) :=
  (unheld h _ _).trans (if_pos (by rw [(isClassQ_iff _).mpr hq, hb]; rfl))

/-- R56: a write that changes `tilen` waits for the vector queue. -/
theorem crWrite_tilen_waits (h : NoHold s [f.a, f.d]) (hi : f.idx.toNat = 0x012) (hv : roleTilen s.hart (crNew f rw s) ≠ s.hart.tilen.toNat)
    (hb : vectorBusy s.hart = true) : crWrite f rw w1c s = .next (parked s .qclass) := by
  have hc : ¬(isClassQ f.idx.toNat && vectorBusy s.hart) = true := by rw [hi]; exact Bool.false_ne_true
  exact (unheld h _ _).trans ((if_neg hc).trans (if_pos ⟨hi, hv, hb⟩))

/-- R73: a write that does not wait returns the register's value and stores the new one. -/
theorem crWrite_writes (h : NoHold s [f.a, f.d]) (hq : f.idx.toNat ∈ classQ → vectorBusy s.hart = false)
    (ht : f.idx.toNat = 0x012 → vectorBusy s.hart = false) (hs : f.idx.toNat ∉ [0x040, 0x042, 0x043]) :
    crWrite f rw w1c s =
      .next (completed (crStore s f.idx.toNat (crNew f rw s) (crCleared f w1c s)) f.d (crValue s f.idx.toNat) 4) := by
  have hc : ¬(isClassQ f.idx.toNat && vectorBusy s.hart) = true := by
    rw [Bool.and_eq_true, isClassQ_iff]
    exact fun ⟨hm, hb⟩ => Bool.false_ne_true ((hq hm).symm.trans hb)
  have hn : ¬(f.idx.toNat = 0x012 ∧ roleTilen s.hart (crNew f rw s) ≠ s.hart.tilen.toNat ∧ vectorBusy s.hart = true) :=
    fun ⟨hi, _, hb⟩ => Bool.false_ne_true ((ht hi).symm.trans hb)
  refine (unheld h _ _).trans ((if_neg hc).trans ((if_neg hn).trans ?_))
  simp only [crRead_still hs, advance_writeX]
  rfl

end

/-! ### Plain registers (R54, R56) -/

/-- R54, R56: each row of the table of plain registers gives the register's RW bits, its value, and what storing a value does. -/
theorem crStore_plain (s : State) : ∀ r ∈ crPlain s, (crRw s r.1, crValue s r.1, crStore s r.1) = (r.2.1, r.2.2.1, fun v _ => r.2.2.2 v) :=
  List.map_inj_left.mp rfl

theorem crPlain_index (s : State) : ∀ r ∈ crPlain s, r.1 ∉ [0x012, 0x040, 0x042, 0x043] := by
  have hi : (crPlain s).map (fun r => r.1) = [0x002, 0x006, 0x008, 0x009, 0x00A, 0x00B, 0x00C, 0x011, 0x013] := rfl
  intro r hr
  have hm := List.mem_map_of_mem (f := fun r : Nat × Nat × Word × (Nat → State) => r.1) hr
  rw [hi] at hm
  exact (by decide : ∀ k ∈ [0x002, 0x006, 0x008, 0x009, 0x00A, 0x00B, 0x00C, 0x011, 0x013], k ∉ [0x012, 0x040, 0x042, 0x043]) _ hm

theorem crWrite_plain {f : OpC} {s : State} (rw : Nat → Nat → Nat) (w1c : Bool) (h : NoHold s [f.a, f.d])
    (hq : f.idx.toNat ∈ classQ → vectorBusy s.hart = false) {r : Nat × Nat × Word × (Nat → State)} (hr : r ∈ crPlain s) (hi : f.idx.toNat = r.1) :
    crWrite f rw w1c s =
      .next (completed (r.2.2.2 (rw (r.2.2.1.toNat &&& r.2.1) (readX s f.a).toNat &&& r.2.1)) f.d r.2.2.1 4) := by
  obtain ⟨hrw, hv, hstore⟩ : crRw s r.1 = r.2.1 ∧ crValue s r.1 = r.2.2.1 ∧ ∀ v c, crStore s r.1 v c = r.2.2.2 v := by
    have h := crStore_plain s r hr
    simp only [Prod.mk.injEq] at h
    obtain ⟨h1, h2, h3⟩ := h
    exact ⟨h1, h2, fun v c => congrFun₂ h3 v c⟩
  have hx := crPlain_index s r hr
  rw [← hi] at hrw hv hstore hx
  have ht : f.idx.toNat ≠ 0x012 := fun e => hx (by rw [e]; decide)
  rw [crWrite_writes rw w1c h hq (fun e => absurd e ht) (fun e => hx (List.mem_cons_of_mem _ e)), hstore]
  unfold crNew crOld
  rw [hrw, hv]

/-! ### Registers with bits that a 1 clears (R56, R73) -/

section
variable {f : OpC} {s : State} (rw : Nat → Nat → Nat) (w1c : Bool)

/-- R73: a form other than `cr.clr` clears the W1C bit of a register when x[a] has a 1 there. -/
theorem crCleared_eq_zero_iff {k : Nat} (hk : crW1c f.idx.toNat = 2 ^ k) :
    crCleared f w1c s = 0 ↔ (!(w1c && bitN (readX s f.a).toNat k)) = true := by
  unfold crCleared
  rw [hk, Nat.and_two_pow, bitN_eq]
  cases w1c <;> cases (readX s f.a).toNat.testBit k <;> simp

/-- R56, R73: `mflags.OF` is 0 after a form that clears it. -/
theorem crWrite_mflags (h : NoHold s [f.a, f.d]) (hq : f.idx.toNat ∈ classQ → vectorBusy s.hart = false) (hi : f.idx.toNat = 0x00E) :
    crWrite f rw w1c s = .next (completed
      { s with hart := { s.hart with mflags := if w1c && bitN (readX s f.a).toNat 0 then 0 else s.hart.mflags } } f.d (W s.hart.mflags.toNat) 4) := by
  rw [crWrite_writes rw w1c h hq (fun e => hq (by rw [hi]; decide)) (by rw [hi]; decide)]
  have hc := crCleared_eq_zero_iff (s := s) w1c (k := 0) (by rw [hi]; rfl)
  rw [hi]
  simp only [crStore, hc]
  cases w1c && bitN (readX s f.a).toNat 0 <;> rfl

/-- R56, R73: `psm` is zero after a form that clears it through the mirror's ANY. -/
theorem crWrite_psm (h : NoHold s [f.a, f.d]) (hq : f.idx.toNat ∈ classQ → vectorBusy s.hart = false) (hi : f.idx.toNat = 0x070) :
    crWrite f rw w1c s = .next (completed
      { s with hart := { s.hart with psm := if w1c && bitN (readX s f.a).toNat 63 then 0 else s.hart.psm } } f.d (psmMirror s.hart.psm) 4) := by
  rw [crWrite_writes rw w1c h hq (fun e => hq (by rw [hi]; decide)) (by rw [hi]; decide)]
  have hc := crCleared_eq_zero_iff (s := s) w1c (k := 63) (by rw [hi]; rfl)
  rw [hi]
  simp only [crStore, hc]
  cases w1c && bitN (readX s f.a).toNat 63 <;> rfl

/-- R29, R56, R73: `repro` takes its RW bit, and keeps SEEN when the form does not clear it. -/
theorem crWrite_repro (h : NoHold s [f.a, f.d]) (hi : f.idx.toNat = 0x00D) :
    crWrite f rw w1c s = .next (completed
      { s with hart := { s.hart with repro := W (rw (s.hart.repro.toNat % 2) (readX s f.a).toNat % 2 +
        if !(w1c && bitN (readX s f.a).toNat 1) && bitN s.hart.repro.toNat 1 then 2 else 0) } } f.d s.hart.repro 4) := by
  have hn : crNew f rw s = rw (s.hart.repro.toNat % 2) (readX s f.a).toNat % 2 := by
    unfold crNew crOld
    rw [hi]
    change rw (s.hart.repro.toNat &&& 1) _ &&& 1 = _
    rw [Nat.and_one_is_mod, Nat.and_one_is_mod]
  rw [crWrite_writes rw w1c h (by rw [hi]; exact fun e => absurd e (by decide)) (by rw [hi]; exact fun e => absurd e (by decide)) (by rw [hi]; decide)]
  have hc := crCleared_eq_zero_iff (s := s) w1c (k := 1) (by rw [hi]; rfl)
  rw [hn, hi]
  simp only [crStore, hc, Bool.decide_eq_true]
  rfl

end

theorem or_mod_two_eq_max (n a : Nat) : (n % 2 ||| a) % 2 = max (n % 2) (a % 2) := by
  have hn := Nat.mod_two_eq_zero_or_one n
  have ha := Nat.mod_two_eq_zero_or_one a
  rw [Nat.or_mod_two_pow (n := 1), pow_one, Nat.mod_mod]
  rcases hn with hn | hn <;> rcases ha with ha | ha <;> rw [hn, ha] <;> rfl

theorem sub_and_mod_two_eq (n a : Nat) : (n % 2 - (n % 2 &&& a)) % 2 = n % 2 - min (n % 2) (a % 2) := by
  rcases Nat.mod_two_eq_zero_or_one n with hn | hn
  · rw [hn, Nat.zero_and]
    rfl
  · rw [hn, Nat.and_comm, Nat.and_one_is_mod]
    omega

/-! ### Tile enables (R56) -/

/-- Tile n as `tilen` takes the value v. -/
def switchTile (v n : Nat) (s : State) : State :=
  if bitN s.hart.tilen.toNat n = bitN v n then s
  else
    let t := { s with hart := { s.hart with tile := s.hart.tile.set (n % 4) Tile.zero (Nat.mod_lt _ (by decide)) } }
    if bitN v n then dirtyM t n else { t with hart := { t.hart with mdirty := t.hart.mdirty &&& ~~~(BitVec.ofNat 4 (2 ^ (n % 4))) } }

theorem setTilen_eq (s : State) (v : Nat) :
    setTilen s v = { forUp 4 0 s (switchTile v) with hart := { (forUp 4 0 s (switchTile v)).hart with tilen := W v } } := rfl

/-- What `tilen` taking the value v makes of tile n, and of its dirty bit. -/
def tileAfter (v : Nat) (h : Hart) (n : Fin 4) : Tile × Bool :=
  if bitN h.tilen.toNat n = bitN v n then (h.tile[n], h.mdirty.getLsbD n) else (Tile.zero, bitN v n)

/-- The tiles below k have taken their part of the value v of `tilen`, and nothing else has changed. -/
def SwitchedBelow (v : Nat) (s : State) (k : Nat) (t : State) : Prop :=
  t = { s with hart := { s.hart with tile := t.hart.tile, mdirty := t.hart.mdirty } } ∧
  ∀ n : Fin 4, (t.hart.tile[n], t.hart.mdirty.getLsbD n) = if n.val < k then tileAfter v s.hart n else (s.hart.tile[n], s.hart.mdirty.getLsbD n)

theorem SwitchedBelow.zero (v : Nat) (s : State) : SwitchedBelow v s 0 s := ⟨rfl, fun _ => rfl⟩

/-- A tile's bit of the dirty map after it has been set or cleared. -/
theorem getLsbD_setBit (x : BitVec 4) (k n : Fin 4) (b : Bool) :
    (if b then x ||| BitVec.ofNat 4 (2 ^ (k.val % 4)) else x &&& ~~~(BitVec.ofNat 4 (2 ^ (k.val % 4)))).getLsbD n =
      if n = k then b else x.getLsbD n := by
  have hk : (BitVec.ofNat 4 (2 ^ (k.val % 4))).getLsbD n = decide (n = k) := by
    rw [BitVec.getLsbD_ofNat, Nat.testBit_two_pow, Nat.mod_eq_of_lt k.isLt]
    simp [n.isLt, Fin.ext_iff, eq_comm]
  generalize BitVec.ofNat 4 (2 ^ (k.val % 4)) = m at hk
  cases b
  · rw [if_neg Bool.false_ne_true, BitVec.getLsbD_and, BitVec.getLsbD_not, hk]
    by_cases h : n = k <;> simp [h]
  · rw [if_pos rfl, BitVec.getLsbD_or, hk]
    by_cases h : n = k <;> simp [h]

/-- Switching tile k leaves its new value in it, and every other tile as it was. -/
theorem switchTile_spec (v : Nat) (k : Fin 4) (t : State) :
    let u := switchTile v k t
    u = { t with hart := { t.hart with tile := u.hart.tile, mdirty := u.hart.mdirty } } ∧
    ∀ n : Fin 4, (u.hart.tile[n], u.hart.mdirty.getLsbD n) = if n = k then tileAfter v t.hart n else (t.hart.tile[n], t.hart.mdirty.getLsbD n) := by
  by_cases h : bitN t.hart.tilen.toNat k = bitN v k
  · rw [show switchTile v k t = t from if_pos h]
    refine ⟨rfl, fun n => ?_⟩
    split
    · next e => rw [e, tileAfter, if_pos h]
    · rfl
  · have hu : switchTile v k t = { t with hart := { t.hart with
        tile := t.hart.tile.set (k.val % 4) Tile.zero (Nat.mod_lt _ (by decide)),
        mdirty := if bitN v k then t.hart.mdirty ||| BitVec.ofNat 4 (2 ^ (k.val % 4)) else t.hart.mdirty &&& ~~~(BitVec.ofNat 4 (2 ^ (k.val % 4))) } } := by
      refine (if_neg h).trans ?_
      dsimp only
      split <;> rfl
    rw [hu]
    refine ⟨rfl, fun n => ?_⟩
    dsimp only
    rw [getLsbD_setBit, Fin.getElem_fin, Vector.getElem_set, Nat.mod_eq_of_lt k.isLt]
    by_cases e : n = k
    · rw [if_pos e, if_pos e, e, if_pos rfl, tileAfter, if_neg h]
    · rw [if_neg e, if_neg e, if_neg (fun he => e (Fin.ext he.symm))]
      rfl

theorem SwitchedBelow.succ {v : Nat} {s t : State} {k : Fin 4} (h : SwitchedBelow v s k t) : SwitchedBelow v s (k.val + 1) (switchTile v k t) := by
  obtain ⟨ht, hn⟩ := h
  obtain ⟨hu, hm⟩ := switchTile_spec v k t
  refine ⟨hu.trans (by rw [ht]), fun n => ?_⟩
  rw [hm n]
  by_cases e : n = k
  · rw [if_pos e, if_pos (by rw [e]; exact Nat.lt_succ_self _)]
    have hk := hn n
    rw [if_neg (by rw [e]; exact Nat.lt_irrefl _)] at hk
    have hl : t.hart.tilen = s.hart.tilen := by rw [ht]
    obtain ⟨h1, h2⟩ := Prod.mk.inj hk
    unfold tileAfter
    rw [hl, h1, h2]
  · rw [if_neg e, hn n]
    have hne : n.val ≠ k.val := fun he => e (Fin.ext he)
    exact if_congr (by omega) rfl rfl

/-- R56: a write of `tilen` gives each tile its new value, and changes nothing else. -/
theorem setTilen_spec (s : State) (v : Nat) :
    let t := setTilen s v
    t.hart.tilen = W v ∧ t = { s with hart := { s.hart with tilen := t.hart.tilen, tile := t.hart.tile, mdirty := t.hart.mdirty } } ∧
    ∀ n : Fin 4, (t.hart.tile[n], t.hart.mdirty.getLsbD n) = tileAfter v s.hart n := by
  have h : SwitchedBelow v s 4 (forUp 4 0 s (switchTile v)) :=
    SwitchedBelow.succ (k := 3) (SwitchedBelow.succ (k := 2) (SwitchedBelow.succ (k := 1) (SwitchedBelow.succ (k := 0) (SwitchedBelow.zero v s))))
  rw [setTilen_eq]
  generalize forUp 4 0 s (switchTile v) = t at h
  obtain ⟨ht, hn⟩ := h
  exact ⟨rfl, by rw [ht], fun n => (hn n).trans (if_pos n.isLt)⟩

section
variable {f : OpC} {s : State} (rw : Nat → Nat → Nat) (w1c : Bool)

/-- R56, R73: a form on `tilen` of an unspliced hart waits when it changes the value and a convoy is posted, and otherwise is the step of the write. -/
theorem crWrite_tilen (h : NoHold s [f.a, f.d]) (hsp : s.hart.splice = none) (hi : f.idx.toNat = 0x012) {v : Nat}
    (hv : v = rw (s.hart.tilen.toNat &&& (2 ^ tilesPerStall s - 1)) (readX s f.a).toNat &&& (2 ^ tilesPerStall s - 1)) :
    (vectorBusy s.hart = true → v ≠ s.hart.tilen.toNat → crWrite f rw w1c s = .next (parked s .qclass)) ∧
    (vectorBusy s.hart = false → crWrite f rw w1c s = .next (completed (setTilen s v) f.d s.hart.tilen 4) ∧
      (s.hart.run = .running → exec (.tilenWrite (W v)) s = .next (setTilen s v))) := by
  have hold : crValue s 0x012 = s.hart.tilen := by
    change W (roleTiles s.hart s.hart.tilen.toNat) = _
    unfold roleTiles
    rw [hsp]
    exact BitVec.ofNat_toNat _ _
  have hr (n : Nat) : roleTilen s.hart n = n := by
    unfold roleTilen
    rw [hsp]
  have hn : crNew f rw s = v := by
    unfold crNew crOld
    rw [hi, hold, hv]
    rfl
  refine ⟨fun hb hne => crWrite_tilen_waits rw w1c h hi (by rw [hn, hr]; exact hne) hb, fun hb => ⟨?_, fun hrun => ?_⟩⟩
  · rw [crWrite_writes rw w1c h (fun _ => hb) (fun _ => hb) (by rw [hi]; decide), hn, hi, hold]
    change Host.Outcome.next (completed (setTilen s (roleTilen s.hart v)) f.d s.hart.tilen 4) = _
    rw [hr]
  · have hvq : s.hart.vq.isEmpty = true := by
      unfold vectorBusy at hb
      simp only [Bool.or_eq_false_iff, Bool.not_eq_false'] at hb
      exact hb.1
    have hmod : v % 2 ^ tilesPerStall s = v := by rw [hv, Nat.and_two_pow_sub_one_eq_mod, Nat.mod_mod]
    have hlt : v < 2 ^ 64 := by
      have ht : tilesPerStall s ≤ 4 := Nat.div_le_self _ _
      have hp : 2 ^ tilesPerStall s ≤ 2 ^ 4 := Nat.pow_le_pow_right (by decide) ht
      have := Nat.mod_lt v (Nat.two_pow_pos (tilesPerStall s))
      omega
    refine (if_pos ⟨hrun, hvq⟩).trans ?_
    rw [hr, BitVec.toNat_ofNat, Nat.mod_eq_of_lt hlt, hmod]

end

/-! ### What each form does -/

/-- Settles O11: the three forms are one shared write, which waits as the class asks and otherwise stores what its register takes. -/
theorem controlRegisterWrites : Obligations.ControlRegisterWrites := by
  have hwr (f : OpC) (s : State) : exec (.crWr f) s = crWrite f (fun _ a => a) true s := rfl
  have hset (f : OpC) (s : State) : exec (.crSet f) s = crWrite f (fun o a => o ||| a) true s := rfl
  have hclr (f : OpC) (s : State) : exec (.crClr f) s = crWrite f (fun o a => o - (o &&& a)) false s := rfl
  refine ⟨fun f s h hq hb => ?waits, fun f s h hq r hr hi => ?plain, fun f s h hq => ?w1c, fun f s h hsp hi x hx => ?tilen, fun s hrun hvq => ?psm⟩
  case waits => simp only [List.forall_mem_cons, List.not_mem_nil, false_implies, implies_true, hwr, hset, hclr, crWrite_waits _ _ h hq hb, and_self]
  case plain =>
    rw [hwr, hset, hclr]
    exact ⟨crWrite_plain _ _ h hq hr hi, crWrite_plain _ _ h hq hr hi, crWrite_plain _ _ h hq hr hi⟩
  case w1c =>
    simp only [List.forall_mem_cons, List.not_mem_nil, false_implies, implies_true, and_true, hwr, hset, hclr]
    refine ⟨fun hi => ?_, fun hi => ?_, fun hi => ?_⟩
    · simp only [crWrite_mflags _ _ h hq hi, Bool.true_and, Bool.false_and, Bool.false_eq_true, if_false, and_self]
    · simp only [crWrite_repro _ _ h hi, Bool.true_and, Bool.false_and, or_mod_two_eq_max, sub_and_mod_two_eq, and_self]
    · simp only [crWrite_psm _ _ h hq hi, Bool.true_and, Bool.false_and, Bool.false_eq_true, if_false, and_self]
  case tilen =>
    obtain ⟨rw, w1c, he, hv⟩ : ∃ rw w1c, exec x.1 s = crWrite f rw w1c s ∧
        x.2 = rw (s.hart.tilen.toNat &&& (2 ^ tilesPerStall s - 1)) (readX s f.a).toNat &&& (2 ^ tilesPerStall s - 1) := by
      simp only [List.mem_cons, List.not_mem_nil, or_false] at hx
      rcases hx with rfl | rfl | rfl
      · exact ⟨_, _, hwr f s, rfl⟩
      · exact ⟨_, _, hset f s, rfl⟩
      · exact ⟨_, _, hclr f s, rfl⟩
    obtain ⟨waits, writes⟩ := crWrite_tilen rw w1c h hsp hi hv
    obtain ⟨hl, hrest, htile⟩ := setTilen_spec s x.2
    rw [he]
    refine ⟨waits, fun hb => ⟨setTilen s x.2, (writes hb).1, (writes hb).2, hl, hrest, fun n => ⟨fun same => ?_, fun new => ?_⟩⟩⟩
    · exact Prod.mk.inj ((htile n).trans (if_pos same.symm))
    · exact Prod.mk.inj ((htile n).trans (if_neg (Ne.symm new)))
  case psm => exact if_pos ⟨hrun, by rw [hvq]; rfl⟩

end Sys2Proof.Machine
end

section
/-! SUPPORT. What stores, translations and the end of a gang leave as it is beside memory: the other harts, the gangs, and what the leaf has been told. -/

namespace Sys2Proof.Machine

/-! ### Operations that touch no other hart, no gang and no note to the leaf -/

/-- The other harts, the gangs and the notes to the leaf are as before. -/
def KeepsRest (s t : State) : Prop := t.others = s.others ∧ t.gangs = s.gangs ∧ t.leaf = s.leaf

theorem KeepsRest.refl (s : State) : KeepsRest s s := ⟨rfl, rfl, rfl⟩

theorem KeepsRest.trans {s t u : State} (h : KeepsRest s t) (g : KeepsRest t u) : KeepsRest s u :=
  ⟨g.1.trans h.1, g.2.1.trans h.2.1, g.2.2.trans h.2.2⟩

theorem KeepsRest.foldl {β : Type} {f : State → β → State} (hf : ∀ s b, KeepsRest s (f s b)) (l : List β) (s : State) : KeepsRest s (l.foldl f s) :=
  List.foldlRecOn l f (motive := KeepsRest s) (.refl s) fun t ht b _ => ht.trans (hf t b)

theorem OnlyMem.keepsRest {s t : State} (h : OnlyMem s t) : KeepsRest s t := by
  obtain ⟨m, rfl⟩ := h
  exact ⟨rfl, rfl, rfl⟩

theorem SameCells.keepsRest {s t : State} (h : SameCells s t) : KeepsRest s t := by
  obtain ⟨h, l, d, z, rfl⟩ := h
  exact ⟨rfl, rfl, rfl⟩

theorem applyAt_keepsRest (s : State) (k : Nat) (st : PStore) : KeepsRest s (applyAt s k st) := by
  have hz : KeepsRest s (zTouch s k) := by
    unfold zTouch
    split <;> exact ⟨rfl, rfl, rfl⟩
  have h := applyAt_written s k st
  split at h
  · rw [h]
    exact .refl s
  · exact (hz.trans ⟨rfl, rfl, rfl⟩).trans h.keepsRest

theorem applyStoreOf_keepsRest (s : State) (g : Word) (n : Nat) (st : PStore) : KeepsRest s (applyStoreOf s g n st) := by
  cases hk : isShedKey st.key
  · exact (applyAt_keepsRest _ _ _).trans (applyStoreOf_place hk g n).keepsRest
  · unfold applyStoreOf
    rw [if_pos hk]
    dsimp only
    split
    · exact (applyAt_keepsRest _ _ _).trans (applyAt_keepsRest _ _ _)
    · exact applyAt_keepsRest _ _ _

theorem drainTarget_keepsRest (s : State) (t : Nat) : KeepsRest s (drainTarget s t) :=
  KeepsRest.trans ⟨rfl, rfl, rfl⟩ (.foldl (fun _ _ => applyStoreOf_keepsRest _ _ _ _) _ _)

theorem drainWhere_keepsRest (p : Nat → Bool) (s : State) : KeepsRest s (drainWhere p s) := .foldl drainTarget_keepsRest _ _

theorem drainAll_keepsRest (s : State) : KeepsRest s (drainAll s) :=
  KeepsRest.trans ⟨rfl, rfl, rfl⟩ (.foldl (fun _ _ => applyStoreOf_keepsRest _ _ _ _) _ _)

theorem retireWhere_keepsRest (s : State) (p : Combine → Bool) : KeepsRest s (retireWhere s p) :=
  KeepsRest.trans ⟨rfl, rfl, rfl⟩ (.foldl (fun _ _ => applyStoreOf_keepsRest _ _ _ _) _ _)

/-- R178: the retirement of combining updates leaves the hart as it is. -/
theorem retireWhere_hart (s : State) (p : Combine → Bool) : (retireWhere s p).hart = s.hart :=
  List.foldlRecOn (motive := fun t : State => t.hart = s.hart) _ _ rfl fun _ h _ _ => (applyStoreOf_hart _ _ _ _).trans h

/-! ### Held linked stores (R340, R345) -/

theorem hartPiece_onlyMem (acc : Acc) (s : State) (va : Word) (n : Nat) : OnlyMem s (hartPiece acc s va n).1 := by
  have h := resolve_onlyMem s va 1 acc
  unfold hartPiece
  split
  · next e =>
    rw [e] at h
    dsimp only
    split <;> exact h
  · exact h

theorem spanWith_onlyMem {tr : State → Word → Nat → State × XRes} (htr : ∀ s va n, OnlyMem s (tr s va n).1) (fuel : Nat) :
    ∀ (s : State) (va : Word) (n : Nat), OnlyMem s (spanWith tr fuel s va n).1 := by
  induction fuel with
  | zero => exact fun s _ _ => .refl s
  | succ fuel ih =>
    intro s va n
    have h := htr s va n
    unfold spanWith
    split
    · exact .refl s
    · split
      · next t hit e =>
        rw [e] at h
        have hu := h.trans (ih t (va + W (min n hit.left)) (n - min n hit.left))
        dsimp only
        split
        · next e2 => rw [e2] at hu; exact hu
        · exact hu
      · next e => rw [e] at h; exact h
      · next e => rw [e] at h; exact h

theorem reach_onlyMem (s : State) (f : Foot) (acc : Acc) : OnlyMem s (reach s f acc).1 := by
  have h : OnlyMem s (hartSpan s f.va f.bytes acc).1 := spanWith_onlyMem (hartPiece_onlyMem acc) _ _ _ _
  unfold reach
  split
  · exact .refl s
  · split <;> next e => rw [e] at h; exact h

theorem release_keepsRest (s : State) (st : PStore) : KeepsRest s (release s st) := ⟨rfl, rfl, rfl⟩

theorem footStore_keepsRest (s : State) (f : Foot) (l : List (Hit × Nat)) (v : Nat) (pois : Bool) (q : Queue) (epoch : Nat) :
    KeepsRest s (footStore s f l v pois q epoch) := by
  have hflush (t : State) (k n : Nat) : KeepsRest t (flushCombine t k n) := by
    unfold flushCombine
    split
    · exact retireWhere_keepsRest _ _
    · exact .refl t
  have hs : KeepsRest s (flushSpan s l) := .foldl (fun t p => hflush t _ _) l s
  unfold footStore
  extract_lets t val mask one
  have hone (u : State) (o n : Nat) : KeepsRest u (one u o n) := by
    unfold one
    split
    · exact release_keepsRest _ _
    · exact .refl u
  have htwo (u : State) : KeepsRest u (one (one u 0 1) 1 1) := (hone _ _ _).trans (hone _ _ _)
  refine hs.trans ?_
  split
  · split
    · exact htwo t
    · split
      · exact hone _ _ _
      · exact htwo t
  · exact hone _ _ _

theorem releaseLinked_keepsRest (s : State) (k : Linked) : KeepsRest s (releaseLinked s k).1 := by
  unfold releaseLinked
  extract_lets wm r
  refine KeepsRest.trans (t := r.1) ?_ ⟨rfl, rfl, rfl⟩
  refine forUp_induct (P := fun a : State × Option (Option Trap) => KeepsRest s a.1) (fun e a ha => ?_) (.refl s)
  have hr := (reach_onlyMem a.1 (unitFoot k.base (memWidth k.snap k.ew) e) .store).keepsRest
  split
  · exact ha
  · dsimp only
    split
    · next e2 =>
      rw [e2] at hr
      exact (ha.trans hr).trans (footStore_keepsRest _ _ _ _ _ _ _)
    · split
      · exact ha.trans (.foldl (fun _ _ => release_keepsRest _ _) _ _)
      · exact ha
    · exact ha

theorem setLinked_keepsRest (s : State) (l : List Linked) : KeepsRest s (setLinked s l) := by
  unfold setLinked
  split
  · exact ⟨rfl, rfl, rfl⟩
  · exact .refl s

theorem releaseHeld_keepsRest (s : State) : KeepsRest s (releaseHeld s).1 := by
  unfold releaseHeld
  split
  · exact .refl s
  · refine KeepsRest.trans ?_ (setLinked_keepsRest _ _)
    exact List.foldlRecOn (motive := fun a : State × Bool => KeepsRest s a.1) _ _ (.refl s) fun a ha k _ => ha.trans (releaseLinked_keepsRest _ _)

/-! ### Frames -/

/-- R94: writing a part of a frame touches no other hart, no gang and no note to the leaf. -/
theorem frameWrite_keepsRest (s : State) (va : Word) (n v : Nat) : KeepsRest s (frameWrite s va n v) := by
  have h : KeepsRest s (translate s s.hart.pasid va .store).1 := by
    unfold translate
    split
    · exact (grant_onlyMem _ _ _ _ _).keepsRest
    · exact .refl s
  unfold frameWrite
  split
  · next e =>
    rw [e] at h
    exact h.trans (.foldl (fun _ _ => applyStoreOf_keepsRest _ _ _ _) _ _)
  · next e => rw [e] at h; exact h

/-! ### The stores to a scratchpad (R93, R96) -/

/-- A hart with other queued stores. -/
def OtherStores (h k : Hart) : Prop := ∃ q, k = { h with storeQ := q }

theorem OtherStores.refl (h : Hart) : OtherStores h h := ⟨h.storeQ, rfl⟩

theorem OtherStores.trans {h k l : Hart} : OtherStores h k → OtherStores k l → OtherStores h l := by
  rintro ⟨q, rfl⟩ ⟨r, rfl⟩
  exact ⟨r, rfl⟩

/-- R169: performing some of the queued stores leaves the rest of the hart as it is. -/
theorem drainWhere_hart (p : Nat → Bool) (s : State) : OtherStores s.hart (drainWhere p s).hart :=
  List.foldlRecOn (motive := fun t : State => OtherStores s.hart t.hart) _ _ (.refl _) fun _ h _ _ =>
    h.trans ⟨_, foldl_applyStore_hart _ _⟩

theorem harts_rotate (s : State) : harts (rotate s) = (harts s).rotate 1 := by
  unfold rotate harts
  cases h : s.others
  · simp [h]
  · simp [List.rotate_cons_succ]

/-- An operation that changes queued stores alone, done for every hart, leaves each hart but for its stores, and the gangs. -/
theorem eachHart_otherStores {f : State → State} (hf : ∀ t, OtherStores t.hart (f t).hart ∧ KeepsRest t (f t)) (s : State) :
    List.Forall₂ OtherStores (harts s) (harts (eachHart s f)) ∧ (eachHart s f).gangs = s.gangs := by
  have turns (k : Nat) : List.Forall₂ OtherStores ((harts s).rotate k) (harts ((List.range k).foldl (fun s _ => rotate (f s)) s)) ∧
      ((List.range k).foldl (fun s _ => rotate (f s)) s).gangs = s.gangs := by
    induction k with
    | zero =>
      rw [List.rotate_zero]
      exact ⟨List.forall₂_same.mpr fun h _ => .refl h, rfl⟩
    | succ k ih =>
      rw [List.range_succ, List.foldl_append, ← List.rotate_rotate]
      generalize (List.range k).foldl (fun s _ => rotate (f s)) s = t at ih
      obtain ⟨hh, hg⟩ := ih
      obtain ⟨hst, ho, hgf, -⟩ := hf t
      have hrg : (rotate (f t)).gangs = (f t).gangs := by unfold rotate; split <;> rfl
      refine ⟨?_, hrg.trans (hgf.trans hg)⟩
      change List.Forall₂ OtherStores (((harts s).rotate k).rotate 1) (harts (rotate (f t)))
      rw [harts_rotate]
      obtain ⟨a, l, hl⟩ : ∃ a l, (harts s).rotate k = a :: l := by
        cases h : (harts s).rotate k with
        | nil => rw [h] at hh; cases hh
        | cons a l => exact ⟨a, l, rfl⟩
      rw [hl] at hh ⊢
      obtain ⟨hhead, htail⟩ := List.forall₂_cons.mp hh
      have hfh : harts (f t) = (f t).hart :: t.others := by unfold harts; rw [ho]
      rw [hfh]
      simp only [List.rotate_cons_succ, List.rotate_zero]
      exact List.rel_append htail (.cons (hhead.trans hst) .nil)
  have h := turns (s.others.length + 1)
  rw [show s.others.length + 1 = (harts s).length from rfl, List.rotate_length] at h
  exact h

/-- R93, R96: settling a partition leaves each hart but for its queued stores, and the gangs. -/
theorem settlePartition_keeps (s : State) :
    OtherStores s.hart (settlePartition s).hart ∧ (settlePartition s).others.length = s.others.length ∧ (settlePartition s).gangs = s.gangs := by
  unfold settlePartition
  extract_lets mine
  obtain ⟨hh, hg⟩ := eachHart_otherStores (fun t => ⟨drainWhere_hart mine t, drainWhere_keepsRest mine t⟩) s
  obtain ⟨hhart, hothers⟩ := List.forall₂_cons.mp hh
  obtain ⟨ho, hgr, -⟩ := retireWhere_keepsRest (eachHart s (drainWhere mine)) fun c => mine c.key
  refine ⟨?_, ?_, hgr.trans hg⟩
  · rw [retireWhere_hart]
    exact hhart
  · rw [ho]
    exact hothers.length_eq.symm

end Sys2Proof.Machine
end

section
/-! SUPPORT. Stops, saves, restores, the end of a gang and stall modes (R58, R59, R86 to R99). -/

namespace Sys2Proof.Machine

/-! ### The stop record (R93, R94, R96) -/

/-- R94: saving a frame leaves in the stop record what the stop wrote of queue, resume address and partition. -/
theorem saveFrame_stop (s : State) (p : Stop) :
    ∃ q, (saveFrame s p).hart.stop = some q ∧ q.spad = p.spad ∧ q.queue = p.queue ∧ q.rpc = p.rpc := by
  unfold saveFrame
  dsimp only
  split <;> exact ⟨_, rfl, rfl, rfl, rfl⟩

/-- R93: the stop record holds the queue charged and the resume address, and the partition when the stop is a pre-emption or a repartition. -/
theorem takeStop_stop (s : State) (q : Queue) (t : Trap) (epc rpc : Word) (member vs vl : Nat) (vt : BitVec 14) :
    ∃ p, (takeStop s q t epc rpc member vs vl vt).hart.stop = some p ∧ p.spad = decide (t.cause = .preempt ∨ t.cause = .repartition) ∧ p.queue = q ∧
      p.rpc = rpc := by
  unfold takeStop
  dsimp only
  split
  · exact ⟨_, rfl, rfl, rfl, rfl⟩
  · split
    · exact ⟨_, rfl, rfl, rfl, rfl⟩
    · exact saveFrame_stop _ _

/-- R60, R98: a stop leaves the access queue and the note of a lost store, and the pins but for a pre-emption or a repartition. -/
theorem takeStop_keeps_queues (s : State) (q : Queue) (t : Trap) (epc rpc : Word) (member vs vl : Nat) (vt : BitVec 14) :
    let u := takeStop s q t epc rpc member vs vl vt
    u.hart.aq = s.hart.aq ∧ u.hart.lostAt = s.hart.lostAt ∧
      u.hart.pins = if t.cause = .preempt ∨ t.cause = .repartition then [] else s.hart.pins := by
  obtain ⟨h, hl, hh, -⟩ := takeStop_hart s q t epc rpc member vs vl vt
  dsimp only
  rw [hh]
  rcases hl with rfl | rfl <;> exact ⟨rfl, rfl, rfl⟩

/-! ### Traps delivered and pre-emption (R86, R93) -/

theorem logMismatch_hart (s : State) (t : Trap) : (logMismatch s t).hart = s.hart := by
  unfold logMismatch
  split
  · rfl
  · exact (logError_hart _ _ _ _ _ _ _).trans (logError_hart _ _ _ _ _ _ _)

theorem causeOf_code {n : Nat} {c : Cause} (h : causeOf n = some c) : c.code = n := beq_iff_eq.mp (List.find?_some (p := fun c : Cause => c.code == n) h)

/-- R86, R88: a trap that meets no convoy, and whose address the oldest access entry does not have, is charged to the sequencer. -/
theorem exec_trapDelivery {s : State} {c : Cause} {cause : BitVec 8} {v epc : Word} {m : BitVec 2} (hc : causeOf cause.toNat = some c)
    (hx : c ∉ [Cause.preempt, .repartition, .pasidGone, .halt]) (hrun : s.hart.run = .running) (hvq : s.hart.vq = [])
    (haq : ∀ e ∈ s.hart.aq.head?, e.addr ≠ epc) :
    exec (.trapDelivery cause v epc m) s =
      .next (takeStop (logMismatch s ⟨c, v⟩) .sequencer ⟨c, v⟩ epc s.hart.pc m.toNat s.hart.vstart 0 0) := by
  simp only [List.mem_cons, List.not_mem_nil, or_false, not_or] at hx
  obtain ⟨h1, h2, h3, -⟩ := hx
  change execTrapDelivery cause v epc m s = _
  unfold execTrapDelivery
  simp only [hc, hrun, h1, h2, h3, hvq, ne_eq, not_true_eq_false, or_self, if_false]
  cases ha : s.hart.aq with
  | nil => rfl
  | cons e l => exact if_neg (haq e (by rw [ha]; rfl))

theorem exec_trapDelivery_stops {s : State} {c : Cause} {cause : BitVec 8} {v epc : Word} {m : BitVec 2} (hc : causeOf cause.toNat = some c)
    (hx : c ∉ [Cause.preempt, .repartition, .pasidGone, .halt]) (hrun : s.hart.run = .running) (hvq : s.hart.vq = [])
    (haq : ∀ e ∈ s.hart.aq.head?, e.addr ≠ epc) :
    ∃ t, exec (.trapDelivery cause v epc m) s = .next t ∧ StoppedWith t cause.toNat epc v m.toNat ∧ t.hart.x = s.hart.x ∧ t.hart.v = s.hart.v ∧
      t.hart.aq = s.hart.aq ∧ t.hart.pc = s.hart.pc := by
  have hn : c ≠ .halt := fun e => hx (by rw [e]; decide)
  have hs := takeStop_stoppedWith (logMismatch s ⟨c, v⟩) .sequencer ⟨c, v⟩ epc s.hart.pc m.toNat s.hart.vstart 0 0 hn
  obtain ⟨hv, hxr, hpc, -, -⟩ := takeStop_keeps (logMismatch s ⟨c, v⟩) .sequencer ⟨c, v⟩ epc s.hart.pc m.toNat s.hart.vstart 0 0
  obtain ⟨haq', -, -⟩ := takeStop_keeps_queues (logMismatch s ⟨c, v⟩) .sequencer ⟨c, v⟩ epc s.hart.pc m.toNat s.hart.vstart 0 0
  rw [logMismatch_hart] at hv hxr hpc haq'
  rw [show (⟨c, v⟩ : Trap).cause.code = cause.toNat from causeOf_code hc] at hs
  exact ⟨_, exec_trapDelivery hc hx hrun hvq haq, hs, hxr, hv, haq', hpc⟩

/-- R86, R93: a stop of a hart with no convoy is charged to nothing. -/
theorem stopHart_idle {s : State} (hvq : s.hart.vq = []) (hrole : ofRole s.hart s.hart.pc = true) (t : Trap) :
    stopHart s t = takeStop (settlePartition s) .none t s.hart.pc s.hart.pc 0 s.hart.vstart 0 0 := by
  unfold stopHart
  simp only [hvq, roleFor_ofRole hrole]

/-- R93: a pre-emption of a hart with no convoy stops it at its next instruction, charged to nothing, with its partition in the frame. -/
theorem exec_preempt_stops {s : State} (hrun : s.hart.run = .running) (hvq : s.hart.vq = []) (hrole : ofRole s.hart s.hart.pc = true) :
    ∃ t p, exec .preempt s = .next t ∧ StoppedWith t 0x20 s.hart.pc 0 0 ∧ t.hart.stop = some p ∧ p.spad = true ∧ p.queue = .none ∧
      p.rpc = s.hart.pc ∧ t.hart.pins = [] ∧ t.hart.x = s.hart.x ∧ t.hart.v = s.hart.v ∧ t.hart.aq = s.hart.aq := by
  let z : State := { s with leaf := s.leaf.erase (.preemptPending s.hart.gangid s.hart.hartid) }
  have he : exec .preempt s = .next (takeStop (settlePartition z) .none ⟨.preempt, 0⟩ s.hart.pc s.hart.pc 0 s.hart.vstart 0 0) :=
    (if_pos hrun).trans (congrArg _ (stopHart_idle (s := z) hvq hrole _))
  obtain ⟨⟨q, hq⟩, -, -⟩ := settlePartition_keeps z
  have hs := takeStop_stoppedWith (settlePartition z) .none ⟨.preempt, 0⟩ s.hart.pc s.hart.pc 0 s.hart.vstart 0 0 (by decide)
  obtain ⟨hv, hx, -, -, -⟩ := takeStop_keeps (settlePartition z) .none ⟨.preempt, 0⟩ s.hart.pc s.hart.pc 0 s.hart.vstart 0 0
  obtain ⟨haq, -, hpins⟩ := takeStop_keeps_queues (settlePartition z) .none ⟨.preempt, 0⟩ s.hart.pc s.hart.pc 0 s.hart.vstart 0 0
  obtain ⟨p, hp, hspad, hqueue, hrpc⟩ := takeStop_stop (settlePartition z) .none ⟨.preempt, 0⟩ s.hart.pc s.hart.pc 0 s.hart.vstart 0 0
  rw [hq] at hv hx haq
  exact ⟨_, p, he, hs, hp, hspad, hqueue, hrpc, hpins, hx, hv, haq⟩

/-! ### Partition save (R96) -/

theorem exec_partitionSave_saves {s t : State} {p : Stop} (hp : s.hart.stop = some p) (hspad : p.spad = false) (hun : p.unsaved = false)
    (hf : p.faulted = none) (hrun : s.hart.run = .stopped) (hc : s.hart.cause ≠ 0x14)
    (hw : frameWalk (settlePartition s) 2048 p.frame (framesz s) = (t, none)) :
    ∃ u, exec .partitionSave s = .next u ∧ u.hart.stop = some { p with spad := true } ∧ u.hart.spad = some (partitionCopy t) ∧
      u.leaf = t.leaf ++ [.partitionSaved t.hart.gangid t.hart.hartid] := by
  have hc' : ¬s.hart.cause.toNat = 0x14 := fun e => hc (BitVec.eq_of_toNat_eq e)
  change ∃ u, execPartitionSave s = .next u ∧ _
  unfold execPartitionSave
  simp only [hp, hspad, hun, hf, hrun, hc', hw, Bool.false_eq_true, Option.isSome_none, ne_eq, not_true_eq_false, or_self, if_false]
  refine ⟨_, rfl, rfl, rfl, ?_⟩
  dsimp only
  rw [frameWrite_hart, (frameWrite_keepsRest _ _ _ _).2.2]

/-! ### Restore (R97) -/

section
variable {s : State} {p : Stop} {v : Nat} {core : BitVec 8} {stall : BitVec 2} {rpc : Option Word}

/-- R97: the stopped hart has a saved frame, and the stall is free for it, on a core that has it, with power. -/
def MayRestore (s : State) (p : Stop) (core stall : Nat) : Prop :=
  s.hart.stop = some p ∧ s.hart.run = .stopped ∧ p.unsaved = false ∧ p.faulted = none ∧ s.hart.cause.toNat ≠ 0x14 ∧ stallTaken s core stall = false ∧
    stall < 2 ^ (coreOf s core).cur ∧ core < 192 ∧ s.dev.computeOn = true

/-- R97: why a frame is refused by a stall. -/
def Refuses (s : State) (p : Stop) (b : Option Nat) (core stall : Nat) (rpc : Option Word) : Prop :=
  frameBroken s p b = true ∨ p.vrl ≠ vrlenIn (coreOf s core).cur s.hart.prot ∨ (!p.spad) = true ∧ ¬(p.core = core ∧ p.stall = stall) ∨
    rpc.isSome = true ∧ p.queue ≠ .sequencer

/-- The hart that a restore puts into a stall, as its frame holds it. -/
def restoredHart (s : State) (p : Stop) (v core stall : Nat) (rpc : Option Word) : Hart :=
  let h := (pinFault s p).hart
  { resumeHart { h with win := Vector.ofFn fun i => (h.win[i]).map (moveWindow s p core stall) } p (rpc.getD (W (bitsN v 128 64))) with
    core := core, stall := stall }

/-- The machine after a restore, before the trap of a lost store is taken. -/
def restored (s : State) (p : Stop) (v core stall : Nat) (rpc : Option Word) : State :=
  let t := match rpc with
    | none => s
    | some r => frameWrite s (p.frame + 0x10) 8 r.toNat
  let t := { t with hart := restoredHart s p v core stall rpc }
  match s.hart.spad with
  | some copy => loadPartition t copy
  | none => t

/-- A hart that has lost a store in flight takes its trap (R314). -/
def afterLost (l : Option Word) (t : State) : State :=
  match l with
  | some va => takeLost { t with hart := { t.hart with lostAt := none } } va
  | none => t

theorem restored_hart : (restored s p v core.toNat stall.toNat rpc).hart = restoredHart s p v core.toNat stall.toNat rpc := by
  unfold restored
  cases s.hart.spad <;> rfl

theorem exec_restore (hm : MayRestore s p core.toNat stall.toNat) :
    (headerBytes s p = none → exec (.restore core stall rpc) s = .next s) ∧
    (∀ b, headerBytes s p = some b → Refuses s p b core.toNat stall.toNat rpc →
      exec (.restore core stall rpc) s = .next { s with leaf := s.leaf ++ [.refused s.hart.gangid s.hart.hartid] }) ∧
    (headerBytes s p = some (some v) → ¬Refuses s p (some v) core.toNat stall.toNat rpc →
      exec (.restore core stall rpc) s = .next (afterLost s.hart.lostAt (restored s p v core.toNat stall.toNat rpc))) := by
  obtain ⟨hp, hrun, hun, hf, hc, ht, hst, hcore, hon⟩ := hm
  have hst' : ¬2 ^ (coreOf s core.toNat).cur ≤ stall.toNat := Nat.not_le.mpr hst
  have hcore' : ¬192 ≤ core.toNat := Nat.not_le.mpr hcore
  change (_ → execRestore core stall rpc s = _) ∧ (∀ b, _ → _ → execRestore core stall rpc s = _) ∧ (_ → _ → execRestore core stall rpc s = _)
  unfold execRestore
  simp only [hp, hrun, hun, hf, hc, ht, hst', hcore', hon, ne_eq, not_true_eq_false, Bool.false_eq_true, Option.isSome_none, Bool.not_true, or_self,
    if_false]
  refine ⟨fun h => ?_, fun b h hr => ?_, fun h hr => ?_⟩
  · rw [h]
  · rw [h]
    exact if_pos hr
  · rw [h]
    exact if_neg hr

/-- R97: a frame whose header and opaque part are unchanged, of an active context, with the stall's VRLEN, is accepted by its own stall, or by any when it holds its
partition. -/
theorem not_refuses (hk : headerKept s.hart p v = true) (ho : opaqueCells s p.frame (frameszOf s.hart p) = p.opaquePart)
    (hv : p.vrl = vrlenIn (coreOf s core.toNat).cur s.hart.prot) (hs : p.spad = true ∨ p.core = core.toNat ∧ p.stall = stall.toNat)
    (hc : (contextOf s s.hart.pasid).state = 1) (hr : rpc = none ∨ p.queue = .sequencer) :
    ¬Refuses s p (some v) core.toNat stall.toNat rpc := by
  have hb : frameBroken s p (some v) = false := by
    unfold frameBroken
    simp [hk, ho, hc]
  rintro (h | h | ⟨h, hn⟩ | ⟨h, hn⟩)
  · exact Bool.false_ne_true (hb.symm.trans h)
  · exact h hv
  · rcases hs with hs | hs
    · rw [hs] at h; exact Bool.false_ne_true h
    · exact hn hs
  · rcases hr with rfl | hr
    · exact Bool.false_ne_true h
    · exact hn hr

/-- R97: a frame whose header cannot be read or has changed, or whose opaque part or context has, is refused. -/
theorem frameBroken_of {b : Option Nat} (h : (b = none ∨ b = some v ∧ headerKept s.hart p v = false) ∨ (contextOf s s.hart.pasid).state ≠ 1 ∨
    opaqueCells s p.frame (frameszOf s.hart p) ≠ p.opaquePart) : frameBroken s p b = true := by
  unfold frameBroken
  rcases h with (rfl | ⟨rfl, hk⟩) | hc | ho
  · rfl
  · simp [hk]
  · simp [hc]
  · simp [ho]

/-- What a restore leaves in the hart (R97). -/
theorem restoredHart_fields : let h := restoredHart s p v core.toNat stall.toNat rpc
    h.run = .running ∧ h.pc = rpc.getD (W (bitsN v 128 64)) ∧ h.core = core.toNat ∧ h.stall = stall.toNat ∧ h.stop = none ∧ h.vstart = p.stands ∧
    h.x = s.hart.x ∧ h.v = s.hart.v ∧ h.vp = s.hart.vp ∧ h.p = s.hart.p ∧ h.tile = s.hart.tile ∧ h.sums = s.hart.sums ∧ h.cause = s.hart.cause ∧
    h.epc = s.hart.epc ∧ h.vq = s.hart.vq ∧ h.aq = s.hart.aq ∧ h.vdirty = 0 ∧ h.sdirty = 0 ∧ h.mdirty = 0 := by
  have hpin : ∃ l, (pinFault s p).hart = { s.hart with pins := l } := by
    unfold pinFault
    split
    · split
      · exact ⟨_, rfl⟩
      · exact ⟨_, rfl⟩
    · exact ⟨_, rfl⟩
  obtain ⟨l, hl⟩ := hpin
  unfold restoredHart
  rw [hl]
  and_intros <;> rfl

end

/-! ### The end of a gang (R99) -/

section
variable {s : State} {g : Gang} {p : Stop}

theorem exec_gangEnd (hg : gangOf s s.hart = some g) (hp : s.hart.stop = some p) (hrun : s.hart.run = .stopped) (hun : p.unsaved = false)
    (hf : p.faulted = none) (hc : s.hart.cause ≠ 0x14) (hw : heldWaits s g = false) :
    exec (.gangEnd s.hart.cause) s = .next (closeGang (gangEnergy s g).2 g (stopResult s.hart (gangEnergy s g).1)) := by
  have hc' : ¬s.hart.cause.toNat = 0x14 := fun e => hc (BitVec.eq_of_toNat_eq e)
  change execGangEnd s.hart.cause s = _
  unfold execGangEnd
  simp only [hg, hp, hrun, hun, hf, hw, hc', ne_eq, not_true_eq_false, Bool.false_eq_true, or_self, if_false]

theorem sameGang_of_gangOf (hg : gangOf s s.hart = some g) (hrun : s.hart.run ≠ .idle) : sameGang g s.hart = true := by
  have h := List.find?_some hg
  unfold sameGang
  rw [h, bne_iff_ne.mpr hrun]
  rfl

/-- R99: a stopped hart of the gang that ends: nothing of it is queued any more. -/
theorem endHart_ends (hs : sameGang g s.hart = true) (hrun : s.hart.run = .stopped) :
    let t := endHart g s
    t.others = s.others ∧ t.gangs = s.gangs ∧ t.hart.run = .ended ∧ t.hart.vq = [] ∧ t.hart.aq = [] ∧ t.hart.storeQ = [] := by
  have hn : ¬s.hart.run = .running := by rw [hrun]; decide
  have hk : KeepsRest s (settleHart (releaseHeld s).1) :=
    ((releaseHeld_keepsRest s).trans (drainAll_keepsRest _)).trans (retireWhere_keepsRest _ _)
  have hq : (settleHart (releaseHeld s).1).hart.storeQ = [] := by
    unfold settleHart
    dsimp only
    rw [retireWhere_hart, drainAll_hart]
  unfold endHart
  simp only [hs, hn, Bool.not_true, Bool.false_eq_true, if_false]
  exact ⟨hk.1, hk.2.1, trivial, trivial, trivial, hq⟩

end

end Sys2Proof.Machine
end

section
/-! SUPPORT. The end of a gang and the stall modes of a core (R58, R59, R99, R186). -/

namespace Sys2Proof.Machine

/-! ### The end of a gang (R99) -/

/-- Without other harts, an operation for every hart is done once. -/
theorem eachHart_alone {s : State} {f : State → State} (hf : (f s).others = []) (hs : s.others = []) : eachHart s f = f s := by
  unfold eachHart
  rw [hs]
  change rotate (f s) = f s
  unfold rotate
  rw [hf]

/-- R306: unmapping a job's arena leaves the hart and the gangs as they are. -/
theorem dropArena_keeps (s : State) (pasid : Nat) (lid ava : Word) (ng : List Nat) :
    (dropArena s pasid lid ava ng).hart = s.hart ∧ (dropArena s pasid lid ava ng).gangs = s.gangs := by
  let P (t : State) : Prop := t.hart = s.hart ∧ t.gangs = s.gangs
  have hunmap (t : State) (p n : Nat) (ht : P t) : P (mapExtent t pasid ava p n 0) := by
    unfold mapExtent
    simp only [if_true]
    split
    · next u pa e =>
      have hu : t = u := congrArg Prod.fst e
      subst hu
      exact ht
    · next u e =>
      have hu : t = u := congrArg Prod.fst e
      subst hu
      exact ht
  unfold dropArena
  extract_lets gone t u
  have hzero : P t := List.foldlRecOn (motive := P) _ _ ⟨rfl, rfl⟩ fun _ h _ _ => h
  have hu : P u := List.foldlRecOn (motive := P) _ _ hzero fun _ h p _ => List.foldlRecOn (motive := P) _ _ h fun _ h n _ => hunmap _ p n h
  exact hu

/-- R99, R331: with no other hart, the end of a gang ends its stopped hart, with nothing queued, and leaves every other gang. -/
theorem closeGang_alone {s : State} {g : Gang} (hs : sameGang g s.hart = true) (hrun : s.hart.run = .stopped) (ho : s.others = []) (r : Result) :
    let t := closeGang s g r
    t.gangs = s.gangs.filter (fun k => k.lid != g.lid) ∧ t.hart.run = .ended ∧ t.hart.vq = [] ∧ t.hart.aq = [] ∧ t.hart.storeQ = [] := by
  obtain ⟨hothers, hgangs, hend⟩ := endHart_ends hs hrun
  obtain ⟨hh, hg⟩ := dropArena_keeps (endHart g s) g.pasid g.lid g.ava g.ng
  have hclose : (closeGang s g r).hart = (dropArena (endHart g s) g.pasid g.lid g.ava g.ng).hart ∧
      (closeGang s g r).gangs = (dropArena (endHart g s) g.pasid g.lid g.ava g.ng).gangs.filter fun k => k.lid != g.lid := by
    unfold closeGang
    rw [eachHart_alone (hothers.trans ho) ho]
    refine List.foldlRecOn (motive := fun t : State => t.hart = _ ∧ t.gangs = _) _ _ ⟨rfl, rfl⟩ fun t ht l _ => ?_
    split <;> exact ht
  rw [hh, hg, hgangs] at hclose
  dsimp only
  rw [hclose.1, hclose.2]
  exact ⟨rfl, hend⟩

/-! ### The record of a core (R56, R58) -/

theorem coreOf_id (s : State) (c : Nat) : (coreOf s c).id = c := by
  unfold coreOf
  split
  · next h => exact beq_iff_eq.mp (List.find?_some (p := fun r : Core => r.id == c) h)
  · rfl

theorem coreOf_setCore_same (s : State) (r : Core) : coreOf (setCore s r) r.id = r := by
  unfold coreOf setCore
  simp only [List.find?_cons, beq_self_eq_true]

theorem coreOf_setCore_apart {s : State} {r : Core} {c : Nat} (h : c ≠ r.id) : coreOf (setCore s r) c = coreOf s c := by
  have hf : (s.cores.filter fun q => q.id != r.id).find? (fun q => q.id == c) = s.cores.find? fun q => q.id == c := by
    rw [List.find?_filter]
    congr 1
    funext q
    by_cases hq : q.id = c
    · simp [hq, h]
    · simp [hq]
  unfold coreOf setCore
  rw [List.find?_cons_of_neg (by simpa using h.symm), hf]

/-- The mode that is pending for a core is set or withdrawn. -/
theorem coreOf_setPend (s : State) (c : Nat) (m : Option Nat) :
    coreOf (setCore s { coreOf s c with pend := m }) c = { coreOf s c with pend := m } ∧
    ∀ k, k ≠ c → coreOf (setCore s { coreOf s c with pend := m }) k = coreOf s k := by
  have hid := coreOf_id s c
  refine ⟨?_, fun k hk => coreOf_setCore_apart (by rw [hid]; exact hk)⟩
  have h := coreOf_setCore_same s { coreOf s c with pend := m }
  rwa [show ({ coreOf s c with pend := m } : Core).id = c from hid] at h

/-! ### Pending modes (R58) -/

theorem exec_stallModeRequest {s : State} {mode : BitVec 2} (h3 : mode.toNat ≠ 3) (hcur : mode.toNat ≠ (coreOf s s.hart.core).cur)
    (hb : boundCore s s.hart.core = false) (hall : ∀ o ∈ coreHarts s s.hart.core, o.run = .running → mayRepartition s o = true) :
    exec (.stallModeRequest mode) s = .next (setCore s { coreOf s s.hart.core with pend := some mode.toNat }) := by
  have ha : ((coreHarts s s.hart.core).all fun h => h.run != .running || mayRepartition s h) = true :=
    List.all_eq_true.mpr fun o ho => by
      by_cases hr : o.run = .running
      · rw [hall o ho hr, Bool.or_true]
      · rw [bne_iff_ne.mpr hr, Bool.true_or]
  refine if_neg ?_
  rw [hb, ha]
  simp [h3, hcur]

theorem exec_arrival {s : State} {f : OpI14} (hi : instrHere s = some (.vsl f)) (hrun : s.hart.run = .running)
    (hp : (coreOf s s.hart.core).pend.isSome = true) (hvq : s.hart.vq = []) (haq : s.hart.aq = []) (h : NoHold s [f.a, f.d]) :
    exec .arrival s = .next (parked s .vsl) := by
  have hq : queuesEmpty s.hart = true := by unfold queuesEmpty; rw [hvq, haq]; rfl
  unfold NoHold at h
  change execArrival s = _
  unfold execArrival
  simp only [hi, hrun, hp, hq, h, Bool.not_false, and_self, if_true]
  rfl

theorem runsOn_core (h : Hart) : runsOn h h.core = true := by simp [runsOn]

theorem freeVsl_hart (s : State) : (freeVsl s s.hart.core).hart =
    if s.hart.park = some .vsl ∨ s.hart.park = some .drain then { s.hart with park := none, again := false } else s.hart := by
  change (if runsOn s.hart s.hart.core = true ∧ _ then _ else _) = _
  rw [runsOn_core]
  simp only [true_and]

/-! ### The switch of a core with one hart (R58, R59) -/

theorem gaveUp_running {h : Hart} (hrun : h.run = .running) : gaveUp h = false := by
  unfold gaveUp partitionMoved
  rw [hrun]
  rfl

/-- R59: a hart that continues after a switch is not absorbed. -/
theorem absorbOne_continues {s : State} {c old new k : Nat} (hk : stallAfter old new s.hart.stall = some k) : absorbOne c old new s = s := by
  unfold absorbOne
  simp [hk]

/-- R59: the harts of a core as they continue after its switch. -/
def continued (t : State) (c old new : Nat) : State :=
  mapHarts (clearLost t c old new) fun h => if runsOn h c ∧ (h.run = .running ∨ h.run = .halted) ∧ !gaveUp h then continueHart old new h else h

/-- R58, R59: the switch of a core whose one hart has arrived: the hart continues, and the mode is the new one. -/
theorem switchMode_alone {s : State} {new k : Nat} (ho : s.others = []) (hrun : s.hart.run = .running) (hpark : s.hart.park = some .vsl)
    (hp : (coreOf s s.hart.core).pend = some new) (hk : stallAfter (coreOf s s.hart.core).cur new s.hart.stall = some k) :
    ∃ t q, switchMode s = setCore t { coreOf s s.hart.core with cur := new, pend := none } ∧ t.gangs = s.gangs ∧
      t.hart = continueHart (coreOf s s.hart.core).cur new { s.hart with storeQ := q } := by
  obtain ⟨⟨q, hq⟩, hlen, hg⟩ := settlePartition_keeps s
  have hall : (coreHarts s s.hart.core).all hasArrived = true := by
    refine List.all_eq_true.mpr fun h hh => ?_
    have hm := (List.mem_filter.mp hh).1
    unfold harts at hm
    rw [ho, List.mem_singleton] at hm
    unfold hasArrived
    rw [hm, hrun, hpark]
    rfl
  have hsettle : asHart s (fun h => h.core == s.hart.core) settlePartition = settlePartition s := if_pos (beq_self_eq_true _)
  generalize settlePartition s = t at hq hlen hg hsettle
  have ht : t.others = [] := List.eq_nil_of_length_eq_zero (hlen.trans (by rw [ho]; rfl))
  have hrun' : t.hart.run = .running := by rw [hq]; exact hrun
  have hcore : t.hart.core = s.hart.core := by rw [hq]
  have habsorb : eachHart t (absorbOne s.hart.core (coreOf s s.hart.core).cur new) = t := by
    have h := absorbOne_continues (s := t) (c := s.hart.core) (by rw [hq]; exact hk)
    rw [eachHart_alone (by rw [h]; exact ht) ht, h]
  have hwaits : ((harts t).any fun h => runsOn h s.hart.core && saveWaits h) = false := by
    unfold harts saveWaits
    rw [ht, List.any_cons, hrun']
    simp
  refine ⟨continued t s.hart.core (coreOf s s.hart.core).cur new, q, ?_, hg, ?_⟩
  · unfold switchMode
    simp only [hp, hall, if_true, hsettle, habsorb, hwaits, Bool.false_eq_true, if_false]
    rfl
  · rw [← hq]
    refine if_pos ⟨?_, .inl hrun', ?_⟩
    · rw [← hcore]
      exact runsOn_core _
    · change (!gaveUp t.hart) = true
      rw [gaveUp_running hrun']
      rfl

/-- R58: the leaf's step is the switch of the core, when there is power and no gang waits for the new stalls. -/
theorem exec_stallModeSwitch {s t : State} {gang : Word} {r : Core} {new : Nat} (hp : (coreOf s s.hart.core).pend = some new)
    (hs : switchMode s = setCore t r) (hid : r.id = s.hart.core) (hr : r.pend = none) (hon : s.dev.computeOn = true) (hg : t.gangs = s.gangs)
    (hgang : s.gangs.find? (fun g => g.lid == gang) = none) : exec (.stallModeSwitch gang) s = .next (setCore t r) := by
  have hc : coreOf (setCore t r) s.hart.core = r := hid ▸ coreOf_setCore_same t r
  have hf : (setCore t r).gangs.find? (fun g => g.lid == gang) = none := by
    change t.gangs.find? _ = none
    rw [hg, hgang]
  change execStallModeSwitch gang s = _
  unfold execStallModeSwitch
  simp only [hs, hp, hc, hr, hon, hf, Option.isNone_some, Option.isSome_none, Bool.false_eq_true, Bool.not_true, or_self, if_false]

/-- What a continuing hart keeps and loses (R59, R186). -/
theorem continueHart_fields {h : Hart} {old new k : Nat} (hk : stallAfter old new h.stall = some k) : let t := continueHart old new h
    t.stall = k ∧ t.vl = 0 ∧ t.vstart = 0 ∧ t.x = h.x ∧ t.latch = { val := 0, cells := 0 } ∧ t.lr = 0 ∧ t.park = none ∧ t.vdirty = 0xFFFFFFFF ∧
    t.sdirty = 0xFFFF := by
  refine ⟨?_, rfl, rfl, rfl, rfl, rfl, rfl, rfl, rfl⟩
  change (stallAfter old new h.stall).getD h.stall = k
  rw [hk]
  rfl

/-- R59: with no register bound, each vector register keeps the bytes that both register lengths have. -/
theorem continueHart_v {h : Hart} {old new : Nat} (hb : h.binds = []) (i : Fin 32) :
    (continueHart old new h).v[i] = keepBits h.v[i] (8 * min (vrlenIn old h.prot) (vrlenIn new h.prot)) := by
  unfold continueHart
  simp only [hb, List.filter_nil, List.map_nil, Fin.getElem_fin, Vector.getElem_ofFn, List.contains_nil, Bool.false_eq_true, if_false]

/-! ### Restores and switches as wholes (R59, R97, R314) -/

/-- R314: the trap of a lost store stops the hart at its resume address, with the store's address. -/
theorem afterLost_some (va : Word) (t : State) : let u := afterLost (some va) t
    StoppedWith u Cause.shedLost.code t.hart.pc va 0 ∧ u.hart.lostAt = none ∧ u.hart.x = t.hart.x ∧ u.hart.v = t.hart.v := by
  let w : State := { t with hart := { t.hart with lostAt := none } }
  obtain ⟨hv, hx, -⟩ := takeStop_keeps w .sequencer ⟨.shedLost, va⟩ w.hart.pc w.hart.pc 0 w.hart.vstart 0 0
  obtain ⟨-, hl, -⟩ := takeStop_keeps_queues w .sequencer ⟨.shedLost, va⟩ w.hart.pc w.hart.pc 0 w.hart.vstart 0 0
  exact ⟨takeStop_stoppedWith w .sequencer ⟨.shedLost, va⟩ w.hart.pc w.hart.pc 0 w.hart.vstart 0 0 nofun, hl, hx, hv⟩

section
variable {s : State} {p : Stop} {v : Nat} {core : BitVec 8} {stall : BitVec 2} {rpc : Option Word}

/-- R97, R314: what a restore does that is not refused. -/
theorem exec_restore_resumes (he : exec (.restore core stall rpc) s = .next (afterLost s.hart.lostAt (restored s p v core.toNat stall.toNat rpc))) :
    (∀ va, s.hart.lostAt = some va → ∃ t, exec (.restore core stall rpc) s = .next t ∧
      StoppedWith t Cause.shedLost.code (rpc.getD (W (bitsN v 128 64))) va 0 ∧ t.hart.lostAt = none ∧ t.hart.x = s.hart.x ∧ t.hart.v = s.hart.v) ∧
    (s.hart.lostAt = none → ∃ t, exec (.restore core stall rpc) s = .next t ∧ t.hart = restoredHart s p v core.toNat stall.toNat rpc) := by
  obtain ⟨-, hpc, -, -, -, -, hx, hv, -⟩ := restoredHart_fields (s := s) (p := p) (v := v) (core := core) (stall := stall) (rpc := rpc)
  refine ⟨fun va hl => ?_, fun hl => ⟨_, he, ?_⟩⟩
  · have hs := afterLost_some va (restored s p v core.toNat stall.toNat rpc)
    rw [restored_hart, hpc, hx, hv] at hs
    rw [hl] at he
    exact ⟨_, he, hs⟩
  · rw [hl]
    exact restored_hart

end

/-- Settles O48: each stop, save, restore and change of mode by the lemma that says what it does. -/
theorem stopsAndModes : Obligations.StopsAndModes := by
  intro s
  refine ⟨fun c cause v epc m hc hx hrun hvq haq => exec_trapDelivery_stops hc hx hrun hvq haq, fun hrun hvq hrole => exec_preempt_stops hrun hvq hrole,
    fun p t hp hspad hun hf hrun hc hw => exec_partitionSave_saves hp hspad hun hf hrun hc hw,
    fun p v core stall rpc hp hrun hun hf hc ht hst hcore hon => ?restore, fun g p hg hp hrun hun hf hc hw => ?gangEnd,
    fun mode h3 hcur hb hall => ?request, fun f hi hrun hp hvq haq h => exec_arrival hi hrun hp hvq haq h, ?withdraw,
    fun new k gang ho hrun hpark hp hk hon hg => ?switch⟩
  case restore =>
    have hm : MayRestore s p core.toNat stall.toNat := ⟨hp, hrun, hun, hf, fun e => hc (BitVec.eq_of_toNat_eq e), ht, hst, hcore, hon⟩
    obtain ⟨hwaits, hrefuses, haccepts⟩ := exec_restore (v := v) (rpc := rpc) hm
    refine ⟨fun hb hk ho hv hs hctx hr => ?_, hwaits, fun b hb h => hrefuses b hb ?_⟩
    · obtain ⟨hlost, hresumes⟩ := exec_restore_resumes (haccepts hb (not_refuses hk ho hv hs hctx hr))
      refine ⟨hlost, fun hl => ?_⟩
      obtain ⟨t, he, hh⟩ := hresumes hl
      exact ⟨t, he, hh ▸ restoredHart_fields⟩
    · rcases h with h | h | h | h | ⟨h, hplace⟩ | h
      · exact .inl (frameBroken_of (.inl h))
      · exact .inr (.inl h)
      · exact .inl (frameBroken_of (v := v) (.inr (.inl h)))
      · exact .inl (frameBroken_of (v := v) (.inr (.inr h)))
      · exact .inr (.inr (.inl ⟨by rw [h]; rfl, fun ⟨hcore, hstall⟩ => hplace.elim (· hcore) (· hstall)⟩))
      · exact .inr (.inr (.inr h))
  case gangEnd =>
    have he := exec_gangEnd hg hp hrun hun hf hc hw
    have hs := sameGang_of_gangOf hg fun e => by rw [hrun] at e; cases e
    exact ⟨he, fun ho => ⟨_, he, closeGang_alone (s := (gangEnergy s g).2) hs hrun ho _⟩⟩
  case request =>
    obtain ⟨hsame, hapart⟩ := coreOf_setPend s s.hart.core (some mode.toNat)
    exact ⟨_, exec_stallModeRequest h3 hcur hb hall, rfl, hsame, hapart⟩
  case withdraw =>
    obtain ⟨hsame, -⟩ := coreOf_setPend s s.hart.core none
    exact ⟨_, rfl, hsame, freeVsl_hart _⟩
  case switch =>
    obtain ⟨t, q, hs, hgangs, ht⟩ := switchMode_alone ho hrun hpark hp hk
    have hid := coreOf_id s s.hart.core
    have he := exec_stallModeSwitch hp hs hid rfl hon hgangs hg
    have hc := coreOf_setCore_same t { coreOf s s.hart.core with cur := new, pend := none }
    obtain ⟨hstall, hvl, hvstart, hx, hlatch, hlr, hpark', hvd, hsd⟩ := continueHart_fields (h := { s.hart with storeQ := q }) hk
    rw [show ({ coreOf s s.hart.core with cur := new, pend := none } : Core).id = s.hart.core from hid] at hc
    rw [← ht] at hstall hvl hvstart hx hlatch hlr hpark' hvd hsd
    refine ⟨_, he, hc, hstall, hvl, hvstart, hx, hlatch, hlr, hpark', hvd, hsd, fun _ hb i => ?_⟩
    change t.hart.v[i] = _
    rw [ht]
    exact continueHart_v (h := { s.hart with storeQ := q }) hb i

end Sys2Proof.Machine
end

section
/-! SUPPORT. The stop of the vector queue at an element of its head convoy: what its members leave, and what the stop reports (R90, R91, R95, R340). -/

namespace Sys2Proof.Machine

/-! ### The report of a stop of the vector queue (R95) -/

/-- R94, R95: saving a frame leaves in the stop record the reported `vl` and `vtype`, beside the queue and the resume address. -/
theorem saveFrame_reports (s : State) (p : Stop) :
    ∃ q, (saveFrame s p).hart.stop = some q ∧ q.queue = p.queue ∧ q.rpc = p.rpc ∧ q.vl = p.vl ∧ q.vtype = p.vtype := by
  unfold saveFrame
  dsimp only
  split <;> exact ⟨_, rfl, rfl, rfl, rfl, rfl⟩

/-- R95: a stop of the vector queue reports the resume address and the posted `vl` and `vtype` of the convoy. -/
theorem takeStop_vector_reports (s : State) (t : Trap) (epc rpc : Word) (member vs vl : Nat) (vt : BitVec 14) :
    ∃ p, (takeStop s .vector t epc rpc member vs vl vt).hart.stop = some p ∧ p.queue = .vector ∧ p.rpc = rpc ∧ p.vl = vl ∧ p.vtype = vt := by
  unfold takeStop
  dsimp only
  split
  · exact ⟨_, rfl, rfl, rfl, rfl, rfl⟩
  · split
    · exact ⟨_, rfl, rfl, rfl, rfl, rfl⟩
    · exact saveFrame_reports _ _

/-- R60, R86: a stop leaves the predicates, the poison of the vector registers and the queued stores. -/
theorem takeStop_keeps_results (s : State) (q : Queue) (t : Trap) (epc rpc : Word) (member vs vl : Nat) (vt : BitVec 14) :
    let u := takeStop s q t epc rpc member vs vl vt
    u.hart.vp = s.hart.vp ∧ u.hart.p = s.hart.p ∧ u.hart.storeQ = s.hart.storeQ := by
  obtain ⟨h, hl, hh, -⟩ := takeStop_hart s q t epc rpc member vs vl vt
  dsimp only
  rw [hh]
  rcases hl with rfl | rfl <;> exact ⟨rfl, rfl, rfl⟩

/-- R86, R91: a stop leaves a convoy that stands alone its place, with its members, its address, and its `vl` and `vtype`. -/
theorem takeStop_keeps_head {s : State} {c : Convoy} (hq : s.hart.vq = [c]) (q : Queue) (t : Trap) (epc rpc : Word) (member vs vl : Nat) (vt : BitVec 14) :
    ∃ d, (takeStop s q t epc rpc member vs vl vt).hart.vq = [d] ∧ d.members = c.members ∧ d.setVl = c.setVl ∧ d.addr = c.addr := by
  obtain ⟨h, hl, hh, -⟩ := takeStop_hart s q t epc rpc member vs vl vt
  rw [hh]
  rcases hl with rfl | rfl
  · exact ⟨c, hq, rfl, rfl, rfl⟩
  · refine ⟨{ c with phase := 0, commit := (0, 0) }, ?_, rfl, rfl, rfl⟩
    change (uncommit s.hart).vq = _
    unfold uncommit
    rw [hq]

/-! ### What MISMATCH does besides the trap (R204, R348, R351) -/

/-- Two harts hold the same vector, predicate and scalar registers, queued stores and convoys. -/
structure SameResults (g h : Hart) : Prop where
  v : h.v = g.v
  vp : h.vp = g.vp
  p : h.p = g.p
  x : h.x = g.x
  storeQ : h.storeQ = g.storeQ
  vq : h.vq = g.vq

theorem SameResults.refl (h : Hart) : SameResults h h := ⟨rfl, rfl, rfl, rfl, rfl, rfl⟩

theorem SameResults.trans {g h k : Hart} (a : SameResults g h) (b : SameResults h k) : SameResults g k :=
  ⟨b.v.trans a.v, b.vp.trans a.vp, b.p.trans a.p, b.x.trans a.x, b.storeQ.trans a.storeQ, b.vq.trans a.vq⟩

/-- A loop keeps the registers, the queued stores and the convoys when every round of it does. -/
theorem SameResults.foldl {β : Type} {f : State → β → State} (hf : ∀ s b, SameResults s.hart (f s b).hart) (l : List β) (s : State) :
    SameResults s.hart (l.foldl f s).hart :=
  List.foldlRecOn l f (motive := fun t => SameResults s.hart t.hart) (.refl _) fun t ht b _ => ht.trans (hf t b)

/-- R204, R351: a failed compare poisons tiles and summaries alone. -/
theorem mismatchEffects_sameResults (s : State) (c : Convoy) (j : Nat) (t : Trap) : SameResults s.hart (mismatchEffects s c j t).hart := by
  unfold mismatchEffects
  split
  · exact .refl _
  · have htiles : SameResults s.hart ((failedTiles (logMismatch s t) c j).foldl poisonTile (logMismatch s t)).hart := by
      rw [← logMismatch_hart s t]
      exact .foldl (f := poisonTile) (fun _ _ => ⟨rfl, rfl, rfl, rfl, rfl, rfl⟩) _ _
    refine htiles.trans (.foldl (fun _ _ => ?_) _ _)
    exact ⟨rfl, rfl, rfl, rfl, rfl, rfl⟩

/-! ### What a whole member leaves (R91, R340) -/

/-- R91, R340: of a whole member that stops, only what its checks have decided of stores stands. -/
theorem keepRelease_keeps (a : State × State) (m : Member) :
    let u := (keepRelease a m).2
    u.hart.v = a.2.hart.v ∧ u.hart.vp = a.2.hart.vp ∧ u.hart.p = a.2.hart.p ∧ u.hart.x = a.2.hart.x := by
  unfold keepRelease
  dsimp only
  split <;> exact ⟨rfl, rfl, rfl, rfl⟩

/-- R340: outside a splice no linked store is held. -/
theorem heldStores_unspliced {s : State} (h : s.hart.splice = none) : heldStores s = [] := by
  unfold heldStores
  rw [h]
  rfl

/-- R91: outside a splice nothing of a whole member that stops stands. -/
theorem keepRelease_unspliced {a : State × State} (h1 : a.1.hart.splice = none) (h2 : a.2.hart.splice = none) (m : Member) : (keepRelease a m).2 = a.2 := by
  unfold keepRelease
  dsimp only
  rw [if_neg (by simp [heldStores_unspliced h1, heldStores_unspliced h2])]

/-- R104: the start of a convoy leaves the splice. -/
theorem beginConvoy_splice (s : State) (c : Convoy) : (beginConvoy s c).hart.splice = s.hart.splice :=
  List.foldlRecOn (motive := fun t : State => t.hart.splice = s.hart.splice) c.zero _ rfl fun _ h _ _ => h

/-! ### The stop of a convoy of one (R90, R91) -/

/-- The element at which a convoy of one member stops for a condition at element `k` (R91, R136). -/
def stopElement (s : State) (c : Convoy) (m : Member) (k : Nat) : Nat :=
  if m.whole then 0 else max (k / m.block (curDctx (beginConvoy s c)) * m.block (curDctx (beginConvoy s c))) s.hart.vstart

/-- R90, R91: a convoy of one member stops at its element with the `vl` and `vtype` it was posted with; it keeps its place, and of a whole member no result
stands and, outside a splice, no store. -/
theorem stopConvoy_one (s : State) (c : Convoy) (m : Member) (k j : Nat) (t : Trap) (taken : Option (BitVec 32)) (pennants : Vector (List (BitVec 32)) 6)
    (blame : Option Word) :
    ∃ u d, stopConvoy s c [m] k j t taken pennants blame = takeStop u .vector t (blame.getD c.addr) s.hart.pc j (stopElement s c m k)
        (beginConvoy s c).hart.cur.vl (beginConvoy s c).hart.cur.vtype ∧
      u.hart.vq = d :: s.hart.vq.drop 1 ∧ d.members = c.members ∧
      d.setVl = some ((beginConvoy s c).hart.cur.vl, (beginConvoy s c).hart.cur.vtype) ∧ d.addr = c.addr ∧
      (m.whole = true → u.hart.v = s.hart.v ∧ u.hart.vp = s.hart.vp ∧ u.hart.p = s.hart.p ∧ u.hart.x = s.hart.x ∧
        (s.hart.splice = none → u.hart.storeQ = s.hart.storeQ)) := by
  have hw : ([m].any fun m => m.whole) = m.whole := Bool.or_false _
  unfold stopConvoy
  dsimp only
  rw [hw]
  refine ⟨_, _, rfl, (mismatchEffects_sameResults _ _ _ _).vq, rfl, rfl, rfl, fun hm => ?_⟩
  obtain ⟨hv, hvp, hp, hx, hs, -⟩ := mismatchEffects_sameResults _ c j t
  obtain ⟨hv', hvp', hp', hx'⟩ := keepRelease_keeps (beginConvoy s c, s) m
  rw [hv, hvp, hp, hx, hs, if_pos hm]
  refine ⟨hv', hvp', hp', hx', fun hsp => ?_⟩
  exact congrArg (fun u => u.hart.storeQ) (keepRelease_unspliced (a := (beginConvoy s c, s)) ((beginConvoy_splice s c).trans hsp) hsp m)

/-! ### The convoy of one that has been posted (R20, R52, R156) -/

/-- R156, R274: the walks of a convoy change memory alone, for the accessed and dirty bits. -/
theorem keepWalked_onlyMem (s : State) (l : List (Nat × Bool)) : OnlyMem s (keepWalked s l) :=
  List.foldlRecOn (motive := OnlyMem s) l _ (.refl s) fun _ ht p _ => ht.trans (setAD_onlyMem _ p.1 _)

/-- R20, R339: with its convoy posted the sequencer stands behind the instruction; an instruction of spliced code takes eight bytes, which is the model's
choice of log entry 6. -/
theorem settled_pc (s : State) (i : Instr) : (settled s i).hart.pc = s.hart.pc + W (if s.hart.splice.isSome then 8 else i.bits / 8) := by
  rw [settled_hart]
  rfl

/-- With nothing queued, the convoy that has been posted stands alone at the head. -/
theorem settled_vq {s : State} (i : Instr) (hq : s.hart.vq = []) : (settled s i).hart.vq = [mkConvoy s [i]] := by
  rw [settled_hart]
  exact posted_vq s i hq

/-- Posting a convoy leaves `vstart`, the splice and the registers. -/
theorem settled_keeps (s : State) (i : Instr) :
    (settled s i).hart.vstart = s.hart.vstart ∧ (settled s i).hart.splice = s.hart.splice ∧ (settled s i).hart.v = s.hart.v ∧
    (settled s i).hart.vp = s.hart.vp ∧ (settled s i).hart.p = s.hart.p ∧ (settled s i).hart.x = s.hart.x := by
  rw [settled_hart]
  exact ⟨rfl, rfl, rfl, rfl, rfl, rfl⟩

/-- The start of a convoy of one does not depend on memory. -/
theorem beginConvoy_withMem {s : State} (i : Instr) (hu : s.hart.unbound = []) (mem : List Host.Cell) :
    beginConvoy { settled s i with mem := mem } (mkConvoy s [i]) = { begun s i with mem := mem } := by
  unfold begun beginConvoy zeroRegs mkConvoy
  simp only [hu, List.foldl_nil]

/-- R91, R136: the element at which the convoy of one stops, whatever its walks have done to memory. -/
theorem stopElement_withMem {s : State} (i : Instr) (hu : s.hart.unbound = []) (mem : List Host.Cell) (m : Member) (k : Nat) :
    stopElement { settled s i with mem := mem } (mkConvoy s [i]) m k =
      if m.whole then 0 else max (k / m.block (curDctx (begun s i)) * m.block (curDctx (begun s i))) s.hart.vstart := by
  obtain ⟨hvs, -⟩ := settled_keeps s i
  rw [stopElement, beginConvoy_withMem i hu, hvs]
  rfl

/-- Settles O30: the convoy of one stops by `stopConvoy_one`, in the state that its posting and its walks have left; the stop keeps and reports what
that lemma gives it. -/
theorem elementStops : Obligations.ElementStops := by
  unfold Obligations.ElementStops
  intro i m s k j tr hm hr hc hf hw hb
  obtain ⟨-, -, hstops⟩ := convoyOfOne i m s hm hr
  have he := hstops k j tr hf hw
  obtain ⟨hq, -, -, hu, -⟩ := hr
  obtain ⟨hvl, hvt, -⟩ := begun_cur s i hu
  obtain ⟨-, hsp, hv, hvp, hp, hx⟩ := settled_keeps s i
  obtain ⟨mem, hmem⟩ := keepWalked_onlyMem (settled s i) ((m.run (begun s i)).hart.cur.walked ++ (m.run (begun s i)).hart.cur.walked)
  obtain ⟨u, d, hstop, huq, hmembers, hset, haddr, hwhole⟩ := stopConvoy_one { settled s i with mem := mem } (mkConvoy s [i]) m k j tr
    (m.run (begun s i)).hart.cur.taken (ranOne s i m).hart.pennants (m.run (begun s i)).hart.cur.blame
  rw [hmem, hstop, hb, stopElement_withMem i hu, beginConvoy_withMem i hu] at he
  rw [beginConvoy_withMem i hu] at hset
  dsimp only at he hset huq hwhole
  rw [hvl, hvt, settled_pc] at he
  rw [hvl, hvt] at hset
  rw [settled_vq i hq] at huq
  rw [hv, hvp, hp, hx, hsp] at hwhole
  generalize s.hart.pc + W (if s.hart.splice.isSome then 8 else i.bits / 8) = rpc at he ⊢
  generalize (if m.whole then 0 else max (k / m.block (curDctx (begun s i)) * m.block (curDctx (begun s i))) s.hart.vstart) = e at he ⊢
  obtain ⟨hrun, hcause, hepc, htval, hmember, -⟩ := takeStop_stoppedWith u .vector tr s.hart.pc rpc j e (nextLen s) (nextType s) hc
  obtain ⟨htv, htx, -, hte, -⟩ := takeStop_keeps u .vector tr s.hart.pc rpc j e (nextLen s) (nextType s)
  obtain ⟨htvp, htp, hts⟩ := takeStop_keeps_results u .vector tr s.hart.pc rpc j e (nextLen s) (nextType s)
  obtain ⟨p, hrecord, hqueue, hrpc, hpvl, hpvt⟩ := takeStop_vector_reports u tr s.hart.pc rpc j e (nextLen s) (nextType s)
  obtain ⟨c, hcq, hcm, hcs, hca⟩ := takeStop_keeps_head huq .vector tr s.hart.pc rpc j e (nextLen s) (nextType s)
  refine ⟨_, p, c, he, hrun, hcause, hepc, htval, hmember, hte, hrecord, hqueue, hrpc, hpvl, hpvt, hcq, hcm.trans hmembers, hcs.trans hset,
    hca.trans haddr, fun hw => ?_⟩
  obtain ⟨huv, huvp, hup, hux, hus⟩ := hwhole hw
  exact ⟨htv.trans huv, htvp.trans huvp, htp.trans hup, htx.trans hux, fun h => hts.trans (hus h)⟩

end Sys2Proof.Machine
end

section
/-! SUPPORT. What the member of a convoy of one reads in the state in which it begins (R52, R121), and from each shape of member to the result of its
instruction. -/

namespace Sys2Proof.Machine

/-! ### What a member reads -/

section
variable {s : State} {i : Instr} (hu : s.hart.unbound = [])
include hu

theorem el_begun (r e w : Nat) : el (begun s i) r e w = el s r e w := el_congr (begun_regs s i hu).1 r e w

theorem elP_begun (r e w : Nat) : elP (begun s i) r e w = elP s r e w := by
  obtain ⟨-, hvp, -⟩ := begun_regs s i hu
  exact elP_congr hvp r e w

theorem active_begun (p e : Nat) : active (begun s i) p e = active s p e := by
  obtain ⟨-, -, hp, -⟩ := begun_regs s i hu
  exact active_congr hp p e

theorem activeP_begun (p e : Nat) : activeP (begun s i) p e = activeP s p e := by
  obtain ⟨-, -, -, hpp, -⟩ := begun_regs s i hu
  exact activeP_congr hpp p e

theorem ew_begun : ew (begun s i) = nextWidth s := by
  obtain ⟨-, hvt, -⟩ := begun_cur s i hu
  rw [ew, hvt, nextWidth]

theorem tz_begun : tz (begun s i) = bitN (nextType s).toNat 3 := by
  obtain ⟨-, hvt, -⟩ := begun_cur s i hu
  rw [tz, hvt]

/-- R121: a scalar source is read as it stands at posting. -/
theorem srcX_begun (n : BitVec 5) : srcX (begun s i) n = readX s n := by
  obtain ⟨-, -, -, -, -, -, hxs, -⟩ := begun_cur s i hu
  rw [srcX, hxs, readX]

/-- R122: the rounding mode is that of the posting. -/
theorem rmodeOf_begun : rmodeOf (begun s i) = s.hart.rmode.toNat % 4 := by
  obtain ⟨-, -, -, -, -, -, -, hsnap⟩ := begun_cur s i hu
  rw [rmodeOf, hsnap, curSnap]

/-- R112: a descriptor is that of the posting. -/
theorem fmtReg_begun (n : Nat) : fmtReg (begun s i) n = s.hart.fmt[n % 4] := by
  obtain ⟨-, -, -, -, -, -, -, hsnap⟩ := begun_cur s i hu
  rw [fmtReg, hsnap, curSnap]

theorem openOld_begun (d : Nat) : openOld (begun s i) d = begun s i := by
  simp [openOld, begun_settled s i hu]

/-- Nothing has cut the member short when it begins: it performs the elements below `vl` (R90). -/
theorem limit_begun : limit (begun s i) = nextLen s := by
  obtain ⟨hvl, -, -, hstop, hfault, -⟩ := begun_cur s i hu
  simp [limit, hvl, hstop, hfault]

end

theorem vrlen_begun {s : State} {i : Instr} (hu : s.hart.unbound = []) (hq : s.hart.vq = []) (hh : holdsOf i = []) :
    vrlen (begun s i) = vrlen s := by
  rw [begun_eq s i hu hq hh]
  rfl

/-- An element that lies in a register ends within its 32768 bits. -/
theorem fits_of_lt {k w : Nat} (h0 : 0 < w) (h : k < 32768 / w) : k * w + w ≤ 32768 :=
  Nat.succ_mul k w ▸ (Nat.le_div_iff_mul_le h0).mp h

/-! ### From a member to its instruction -/

/-- The member of an instruction that runs is the one that the table gives. -/
theorem Runs.ready {i : Instr} {s : State} {m : Member} (h : Runs i s) (hm : memberOf i = some m) : Ready i m s := by
  obtain ⟨m', hm', hr⟩ := h
  rw [hm] at hm'
  exact Option.some.inj hm' ▸ hr

theorem Runs.unbound {i : Instr} {s : State} (h : Runs i s) : s.hart.unbound = [] := by
  obtain ⟨m, -, -, -, -, hu, -⟩ := h
  exact hu

/-- An instruction whose member changes one vector register alone has that register for its only result. -/
theorem vectorResult_of {i : Instr} {m : Member} {s : State} {d : Nat} {D : State → Prop} (hm : memberOf i = some m) (hh : holdsOf i = []) (hd : d < 32)
    (hr : Runs i s) (honly : OnlyReg d (begun s i) (m.run (begun s i)))
    (hD : ∀ t : State, t.hart.v = (m.run (begun s i)).hart.v → t.hart.vp = (m.run (begun s i)).hart.vp → D t) : VectorResult i s d D := by
  obtain ⟨hq, -, -, hu, -⟩ := hr.ready hm
  obtain ⟨-, -, -, -, hfault, hwait, -⟩ := begun_cur s i hu
  obtain ⟨hv, hvp, hp, hpp, hx, hdirty, -⟩ := begun_regs s i hu
  have hcur := honly.cur
  obtain ⟨heq, hother, hclean⟩ := honly
  have hsolo := solo_retires i m s (hr.ready hm) (by rw [hcur, hfault]) (by rw [hcur, hwait])
  have hret := (retire_regs s (m.run (begun s i)) i m hu hq (regs_of_vector heq)).trans (settled_end_of s i hh _ _ _ _ _ _)
  have hkept : (m.run (begun s i)).hart.p = s.hart.p ∧ (m.run (begun s i)).hart.pp = s.hart.pp ∧ (m.run (begun s i)).hart.x = s.hart.x := by
    rw [heq]; exact ⟨hp, hpp, hx⟩
  obtain ⟨hp', hpp', hx'⟩ := hkept
  rw [hp', hpp', hx'] at hret
  rw [hv, hvp, hdirty, Nat.mod_eq_of_lt hd] at *
  exact ⟨_, (exec_member i m s hm).trans (hsolo.trans (congrArg _ hret)), rfl, hother, fun h => (hclean h).2, hD _ rfl rfl⟩

/-- R106, R123: an instruction whose member is an element-wise write under `f`; of the values only the bits within the width count. -/
theorem elementwise_of_writeVec {i : Instr} {m : Member} {s : State} {d p : Nat} {val : Nat → Nat} {pois : Nat → Bool} (f : Nat → Nat × Bool)
    (hm : memberOf i = some m) (hh : holdsOf i = []) (hd : d < 32)
    (hrun : m.run (begun s i) = writeVec (begun s i) d (ew (begun s i)) p f)
    (hf : s.hart.unbound = [] → ∀ e, (f e).1 % 2 ^ nextWidth s = val e % 2 ^ nextWidth s ∧ (f e).2 = pois e) (hr : Runs i s) :
    Elementwise i s d p val pois := by
  obtain ⟨t, ht, hrest, hother, hclean, helems⟩ := elementwise_of i m s d p (fun e => (f e).1) (fun e => (f e).2)
    (exec_member i m s hm) (hr.ready hm) hh hd (ew_begun hr.unbound (i := i) ▸ hrun)
  refine ⟨t, ht, hrest, hother, hclean, fun e he => ?_⟩
  obtain ⟨hval, hpois⟩ := hf hr.unbound e
  rw [← hval, ← hpois]
  exact helems e he

/-- R106, R123: an instruction whose member writes a predicate bit by bit under `f`. -/
theorem bitwise_of_writePred {i : Instr} {m : Member} {s : State} {d p : Nat} {val pois : Nat → Bool} (f : Nat → Bool × Bool)
    (hm : memberOf i = some m) (hh : holdsOf i = []) (hd : d < 16) (hrun : m.run (begun s i) = writePred (begun s i) d p f)
    (hf : s.hart.unbound = [] → ∀ e, f e = (val e, pois e)) (hr : Runs i s) : Bitwise i s d p val pois :=
  bitwise_of i m s d p val pois (exec_member i m s hm) (hr.ready hm) hh hd (funext (hf hr.unbound) ▸ hrun)

/-- R124: two vector sources, element by element. -/
theorem elementwise_vv {i : Instr} {f : OpV} {l : List Nat} {g : Nat → Nat → Nat → Nat} {s : State} {val : Nat → Nat}
    (hm : memberOf i = some (memVV f l g)) (hh : holdsOf i = [])
    (hg : ∀ e, let w := nextWidth s; g w (el s f.va.toNat e w) (el s f.vb.toNat e w) % 2 ^ w = val e % 2 ^ w) :
    Runs i s → Elementwise i s f.vd.toNat f.pred.toNat val fun e => elP s f.va.toNat e (nextWidth s) || elP s f.vb.toNat e (nextWidth s) :=
  elementwise_of_writeVec _ hm hh f.vd.isLt rfl fun hu e => by
    simp only [ew_begun hu, el_begun hu, elP_begun hu]
    exact ⟨hg e, trivial⟩

/-- R142: a vector source and a scalar one. -/
theorem elementwise_vx {i : Instr} {f : OpVS} {l : List Nat} {g : Nat → Nat → Nat → Nat} {s : State} {val : Nat → Nat}
    (hm : memberOf i = some (memVX f l g)) (hh : holdsOf i = [])
    (hg : ∀ e, let w := nextWidth s; g w (el s f.va.toNat e w) ((readX s f.xb).toNat % 2 ^ w) % 2 ^ w = val e % 2 ^ w) :
    Runs i s → Elementwise i s f.vd.toNat f.pred.toNat val fun e => elP s f.va.toNat e (nextWidth s) :=
  elementwise_of_writeVec _ hm hh f.vd.isLt rfl fun hu e => by
    simp only [ew_begun hu, el_begun hu, elP_begun hu, srcX_begun hu]
    exact ⟨hg e, trivial⟩

end Sys2Proof.Machine
end

section
/-! SUPPORT. The integer vector operations and their scalar forms (R106, R123, R124, R142). -/

namespace Sys2Proof.Machine

/-- Settles O19: each operation is the element-wise write of its own function; an element is below 2^EW, so that cutting an operand to EW bits changes nothing. -/
theorem vectorIntegerResults : Obligations.VectorIntegerResults := by
  unfold Obligations.VectorIntegerResults
  refine fun s => ⟨fun f => ?_, fun f => ?_⟩
  · have hlt (r : BitVec 5) (e : Nat) : el s r.toNat e (nextWidth s) % 2 ^ nextWidth s = el s r.toNat e (nextWidth s) := el_lt s _ e _
    exact ⟨elementwise_vv rfl rfl fun e => rfl, elementwise_vv rfl rfl fun e => rfl, elementwise_vv rfl rfl fun e => rfl,
      elementwise_vv rfl rfl fun e => rfl, elementwise_vv rfl rfl fun e => by simp only [iMulhn, hlt],
      elementwise_vv rfl rfl fun e => Nat.mod_mod _ _, elementwise_vv rfl rfl fun e => Nat.mod_mod _ _,
      elementwise_vv rfl rfl fun e => Nat.mod_mod _ _, elementwise_vv rfl rfl fun e => Nat.mod_mod _ _,
      elementwise_vv rfl rfl fun e => by simp only [iSrl, hlt], elementwise_vv rfl rfl fun e => rfl,
      elementwise_vv rfl rfl fun e => by simp only [iMin, hlt], elementwise_vv rfl rfl fun e => by simp only [iMax, hlt],
      elementwise_vv rfl rfl fun e => by simp only [iMinn, hlt], elementwise_vv rfl rfl fun e => by simp only [iMaxn, hlt]⟩
  · have hlt (e : Nat) : el s f.va.toNat e (nextWidth s) % 2 ^ nextWidth s = el s f.va.toNat e (nextWidth s) := el_lt s _ e _
    exact ⟨elementwise_vx rfl rfl fun e => rfl, elementwise_vx rfl rfl fun e => rfl, elementwise_vx rfl rfl fun e => rfl,
      elementwise_vx rfl rfl fun e => rfl, elementwise_vx rfl rfl fun e => Nat.mod_mod _ _, elementwise_vx rfl rfl fun e => Nat.mod_mod _ _,
      elementwise_vx rfl rfl fun e => Nat.mod_mod _ _, elementwise_vx rfl rfl fun e => Nat.mod_mod _ _,
      elementwise_vx rfl rfl fun e => by simp only [iSrl, hlt], elementwise_vx rfl rfl fun e => rfl,
      elementwise_vx rfl rfl fun e => by simp only [iMin, hlt, Nat.mod_mod], elementwise_vx rfl rfl fun e => by simp only [iMax, hlt, Nat.mod_mod],
      elementwise_of_writeVec _ rfl rfl f.vd.isLt rfl fun hu e => by
        simp only [ew_begun hu, srcX_begun hu]
        exact ⟨trivial, trivial⟩⟩

end Sys2Proof.Machine
end

section
/-! SUPPORT. The compares and the predicate operations (R102, R106, R123, R132, R141). -/

namespace Sys2Proof.Machine

/-- R132: a compare of two vector sources. -/
theorem bitwise_cmp {i : Instr} {f : OpV} {l : List Nat} {g : Nat → Nat → Nat → Bool} {s : State} {val : Nat → Bool}
    (hm : memberOf i = some (memCmp f l g)) (hh : holdsOf i = []) (hd : f.vd.toNat < 16)
    (hg : ∀ e, let w := nextWidth s; g w (el s f.va.toNat e w) (el s f.vb.toNat e w) = val e) :
    Runs i s → Bitwise i s f.vd.toNat f.pred.toNat val fun e => elP s f.va.toNat e (nextWidth s) || elP s f.vb.toNat e (nextWidth s) :=
  bitwise_of_writePred _ hm hh hd rfl fun hu e => by
    simp only [ew_begun hu, el_begun hu, elP_begun hu, ← hg e]

/-- Settles O23: each compare is `bitwise_cmp` with its own function; an element is below 2^EW, so that cutting it to EW bits changes nothing. -/
theorem vectorCompareResults : Obligations.VectorCompareResults := by
  unfold Obligations.VectorCompareResults
  intro f s hd
  have hlt (r : BitVec 5) (e : Nat) : el s r.toNat e (nextWidth s) % 2 ^ nextWidth s = el s r.toNat e (nextWidth s) := el_lt s _ e _
  exact ⟨bitwise_cmp rfl rfl hd fun e => by simp only [cEq, hlt]; rfl, bitwise_cmp rfl rfl hd fun e => rfl, bitwise_cmp rfl rfl hd fun e => rfl,
    bitwise_cmp rfl rfl hd fun e => by simp only [cLtn, hlt], bitwise_cmp rfl rfl hd fun e => by simp only [cLen, hlt],
    bitwise_cmp rfl rfl hd fun e => rfl, bitwise_cmp rfl rfl hd fun e => rfl, bitwise_cmp rfl rfl hd fun e => rfl⟩

/-- R141: an operation on two predicates. -/
theorem bitwise_pred2 {i : Instr} {f : OpV} {g : Bool → Bool → Bool} {s : State} (hm : memberOf i = some (memPred2 f g)) (hh : holdsOf i = [])
    (hd : f.vd.toNat < 16) :
    Runs i s → Bitwise i s f.vd.toNat f.pred.toNat (fun e => g (active s f.va.toNat e) (active s f.vb.toNat e))
      fun e => activeP s f.va.toNat e || activeP s f.vb.toNat e :=
  bitwise_of_writePred _ hm hh hd rfl fun hu e => by simp only [pbit, active_begun hu, activeP_begun hu]

/-- A predicate whose bits below `vl` are free of poison is clean for the member that reads it (R141). -/
theorem predClean_begun {s : State} {i : Instr} {r : Nat} (hu : s.hart.unbound = []) (h : ∀ e, e < nextLen s → activeP s r e = false) :
    predClean (begun s i) r = true := by
  obtain ⟨hvl, -⟩ := begun_cur s i hu
  rw [predClean, hvl, List.all_eq_true]
  intro e he
  rw [activeP_begun hu, h e (List.mem_range.mp he)]
  rfl

/-- R141: `pcount` of a predicate that is clean writes the number of its bits. -/
theorem pcount_run {f : OpV} {s : State} {i : Instr} (hu : s.hart.unbound = []) (h : ∀ e, e < nextLen s → activeP s f.va.toNat e = false) :
    (memPcount f).run (begun s i) = writeX (begun s i) f.vd (W (rank s f.va.toNat (nextLen s))) := by
  obtain ⟨hvl, -, -, hstop, -⟩ := begun_cur s i hu
  simp [memPcount, countMember, hstop, predClean_begun hu h, hvl, active_begun hu, rank]

/-- R141: `pfirst` of a predicate that is clean writes the lowest number of a set bit, or all ones. -/
theorem pfirst_run {f : OpV} {s : State} {i : Instr} (hu : s.hart.unbound = []) (h : ∀ e, e < nextLen s → activeP s f.va.toNat e = false) :
    (memPfirst f).run (begun s i) = writeX (begun s i) f.vd
      (((List.range (nextLen s)).find? fun e => active s f.va.toNat e).elim (BitVec.allOnes 64) W) := by
  obtain ⟨hvl, -, -, hstop, -⟩ := begun_cur s i hu
  simp only [memPfirst, firstMember, hstop, predClean_begun hu h, hvl, active_begun hu, if_true, bne_self_eq_false, Bool.false_eq_true, if_false]
  cases (List.range (nextLen s)).find? fun e => active s f.va.toNat e <;> rfl

/-- Settles O27: the operations write their predicate bit by bit; `pcount` and `pfirst` write what they find among the bits below `vl`. -/
theorem predicateResults : Obligations.PredicateResults := by
  unfold Obligations.PredicateResults
  refine fun f s => ⟨fun hd => ⟨bitwise_pred2 rfl rfl hd, bitwise_pred2 rfl rfl hd, bitwise_pred2 rfl rfl hd,
    bitwise_pred2 (g := fun a b => a && !b) rfl rfl hd, bitwise_of_writePred _ rfl rfl hd rfl fun hu e => by simp only [srcX_begun hu], fun hp => ?_⟩,
    fun hclean => ⟨fun hr => ?_, fun hr => ⟨fun hnone => ?_, fun e he ha hbelow => ?_⟩⟩⟩
  · rw [hp]
    refine bitwise_of_writePred _ rfl rfl hd rfl fun hu e => ?_
    obtain ⟨-, -, -, -, -, -, hpsm⟩ := begun_regs s (.pgetsm f) hu
    simp only [hpsm, bitN_eq, BitVec.testBit_toNat]
  · exact scalar_of _ _ s f.vd _ (exec_member _ _ s rfl) (hr.ready rfl) (pcount_run hr.unbound hclean)
  · refine scalar_of _ _ s f.vd _ (exec_member _ _ s rfl) (hr.ready rfl) ((pfirst_run hr.unbound hclean).trans ?_)
    rw [List.find?_range_eq_none.mpr fun e he => by simp [hnone e he]]
    rfl
  · refine scalar_of _ _ s f.vd _ (exec_member _ _ s rfl) (hr.ready rfl) ((pfirst_run hr.unbound hclean).trans ?_)
    rw [List.find?_range_eq_some.mpr ⟨ha, List.mem_range.mpr he, fun j hj => by simp [hbelow j hj]⟩]
    rfl

end Sys2Proof.Machine
end

section
/-! SUPPORT. The permutes (R106, R123, R137, R138). Those that select by position write element by element what they pick; `vcompress` is a loop whose
state after element e holds the active elements below e, packed in order. -/

namespace Sys2Proof.Machine

/-! ### Permutes that select by position (R137, R138) -/

/-- The value and poison that a pick gives, from the elements of a state. -/
def pickValue (s : State) (d w e : Nat) : Pick → Nat × Bool
  | .from r k p => (el s r k w, elP s r k w || p)
  | .zero p => (0, p)
  | .keep => (el s d e w, elP s d e w)

/-- R106: a permute writes, element by element, what it picks. -/
theorem elementwise_permute {i : Instr} {f : OpV} {l srcs : List Nat} {g : State → Nat → Nat → Pick} {s : State} {val : Nat → Nat} {pois : Nat → Bool}
    (hm : memberOf i = some (memPermute f l srcs g)) (hh : holdsOf i = []) (hr : Runs i s)
    (hg : ∀ e, pickValue s f.vd.toNat (nextWidth s) e (g (begun s i) (nextWidth s) e) = (val e, pois e)) :
    Elementwise i s f.vd.toNat f.pred.toNat val pois := by
  refine elementwise_of_writeVec _ hm hh f.vd.isLt rfl (fun hu e => ?_) hr
  obtain ⟨hval, hpois⟩ : _ = val e ∧ _ = pois e := Prod.ext_iff.mp (hg e)
  rw [← hval, ← hpois, ew_begun hu, openOld_begun hu]
  cases g (begun s i) (nextWidth s) e <;> simp only [pickValue, el_begun hu, elP_begun hu, and_self]

theorem curVlmax_begun {s : State} {i : Instr} (hr : Runs i s) (hh : holdsOf i = []) : curVlmax (begun s i) = vrlen s * 8 / nextWidth s := by
  obtain ⟨m, -, hq, -, -, hu, -⟩ := hr
  obtain ⟨-, hvt, -⟩ := begun_cur s i hu
  rw [curVlmax, vlmaxFor, hvt, vrlen_begun hu hq hh, nextWidth]

/-! ### The active elements below an element -/

theorem rank_succ (s : State) (p e : Nat) : rank s p (e + 1) = rank s p e + if active s p e then 1 else 0 := by
  simp [rank, List.range_succ, List.countP_append, List.countP_singleton]

theorem rank_mono (s : State) (p : Nat) : Monotone (rank s p) :=
  monotone_nat_of_le_succ fun e => (rank_succ s p e).symm ▸ Nat.le_add_right _ _

/-- An active element has a rank of its own, below the number of active elements of a range that holds it. -/
theorem rank_lt {s : State} {p e n : Nat} (he : e < n) (ha : active s p e = true) : rank s p e < rank s p n :=
  calc rank s p e < rank s p (e + 1) := by rw [rank_succ, if_pos ha]; exact Nat.lt_succ_self _
    _ ≤ rank s p n := rank_mono s p he

theorem any_range_succ (q : Nat → Bool) (e : Nat) : (List.range (e + 1)).any q = ((List.range e).any q || q e) := by
  simp [List.range_succ]

/-- The count of `vexpand` is the rank, and its poison that of the predicate bits below (log entry 94). -/
theorem activeBelow_eq (s : State) (p e : Nat) : activeBelow s p e = (rank s p e, (List.range e).any fun j => activeP s p j) := by
  induction e with
  | zero => rfl
  | succ e ih => rw [activeBelow, ih, rank_succ, any_range_succ]

theorem activeBelow_begun {s : State} {i : Instr} (hu : s.hart.unbound = []) (p e : Nat) :
    activeBelow (begun s i) p e = (rank s p e, (List.range e).any fun j => activeP s p j) := by
  simp only [activeBelow_eq, rank, active_begun hu, activeP_begun hu]

theorem rank_begun {s : State} {i : Instr} (hu : s.hart.unbound = []) (p e : Nat) : rank (begun s i) p e = rank s p e := by
  simp only [rank, active_begun hu]

/-! ### `vcompress` (R138) -/

/-- One step more of an ascending loop. -/
theorem forUp_succ {α : Type} (f : Nat → α → α) (n lo : Nat) (a : α) : forUp (n + 1) lo a f = f (lo + n) (forUp n lo a f) := by
  induction n generalizing lo a with
  | zero => rfl
  | succ n ih =>
    rw [forUp, ih, Nat.add_right_comm, Nat.add_assoc]
    rfl

/-- What one element of `vcompress` does to the number of packed elements, the state, and whether a predicate bit so far is poisoned. -/
def compressStep (s : State) (r d p w e : Nat) (a : Nat × State × Bool) : Nat × State × Bool :=
  let pois := a.2.2 || activeP s p e
  if active s p e then (a.1 + 1, setEl a.2.1 d a.1 w (el s r e w) (elP s r e w || pois), pois) else (a.1, a.2.1, pois)

/-- Register d of `t` holds the active elements of r below e, packed in order, and above them what it held in `s` (log entry 107). -/
def PackedBelow (s : State) (r d p w e : Nat) (t : State) : Prop :=
  OnlyReg d s t ∧ ∀ k, k * w + w ≤ 32768 →
    (∀ j, j < e → active s p j = true → rank s p j = k →
      el t d k w = el s r j w ∧ elP t d k w = (elP s r j w || (List.range (j + 1)).any fun j => activeP s p j)) ∧
    (rank s p e ≤ k → el t d k w = el s d k w ∧ elP t d k w = elP s d k w)

/-- Packing one active element more. -/
theorem PackedBelow.succ_active {s t : State} {r d p w e : Nat} (hw : 2 ∣ w) (h0 : 0 < w) (h : PackedBelow s r d p w e t) (ha : active s p e = true) :
    PackedBelow s r d p w (e + 1)
      (setEl t d (rank s p e) w (el s r e w) (elP s r e w || (List.range (e + 1)).any fun j => activeP s p j)) := by
  obtain ⟨honly, hk⟩ := h
  refine ⟨honly.trans (setEl_eq t d _ w _ _ ▸ OnlyReg.setReg _ _ _ _ _ (OnlyReg.refl _ _)), fun k hb => ?_⟩
  obtain ⟨hbelow, habove⟩ := hk k hb
  refine ⟨fun j hj haj hrank => ?_, fun hle => ?_⟩
  · rcases Nat.lt_succ_iff_lt_or_eq.mp hj with hlt | rfl
    · have hne : k ≠ rank s p e := hrank ▸ (rank_lt hlt haj).ne
      rw [el_setEl_apart _ _ _ _ _ _ _ _ (.inr hne) hb, elP_setEl_apart _ _ _ _ _ _ _ _ hw (.inr hne) hb]
      exact hbelow j hlt haj hrank
    · subst hrank
      rw [el_setEl_same _ _ _ _ _ _ hb, elP_setEl_same _ _ _ _ _ _ hw h0 hb, el_lt]
      exact ⟨rfl, rfl⟩
  · have hlt : rank s p e < k := lt_of_lt_of_le (rank_lt (Nat.lt_succ_self e) ha) hle
    rw [el_setEl_apart _ _ _ _ _ _ _ _ (.inr hlt.ne') hb, elP_setEl_apart _ _ _ _ _ _ _ _ hw (.inr hlt.ne') hb]
    exact habove hlt.le

/-- An element that is not active packs nothing. -/
theorem PackedBelow.succ_inactive {s t : State} {r d p w e : Nat} (h : PackedBelow s r d p w e t) (ha : active s p e = false) :
    PackedBelow s r d p w (e + 1) t := by
  obtain ⟨honly, hk⟩ := h
  refine ⟨honly, fun k hb => ⟨fun j hj haj hrank => (hk k hb).1 j ?_ haj hrank, fun hle => (hk k hb).2 ?_⟩⟩
  · rcases Nat.lt_succ_iff_lt_or_eq.mp hj with hlt | rfl
    · exact hlt
    · rw [ha] at haj; cases haj
  · rwa [rank_succ, ha, if_neg (by decide), Nat.add_zero] at hle

/-- The loop of `vcompress` packs the active elements. -/
theorem forUp_compressStep (s : State) (r d p w : Nat) (hw : 2 ∣ w) (h0 : 0 < w) (n : Nat) :
    ∃ t, forUp n 0 (0, s, false) (compressStep s r d p w) = (rank s p n, t, (List.range n).any fun j => activeP s p j) ∧
      PackedBelow s r d p w n t := by
  induction n with
  | zero => exact ⟨s, rfl, OnlyReg.refl d s, fun k _ => ⟨fun j hj => absurd hj (Nat.not_lt_zero j), fun _ => ⟨rfl, rfl⟩⟩⟩
  | succ n ih =>
    obtain ⟨t, ht, hpacked⟩ := ih
    rw [forUp_succ, ht, Nat.zero_add, compressStep, ← any_range_succ, rank_succ]
    cases ha : active s p n with
    | true => exact ⟨_, rfl, hpacked.succ_active hw h0 ha⟩
    | false => exact ⟨t, rfl, hpacked.succ_inactive ha⟩

/-- R138: what `vcompress` leaves: the packed elements, and above them zeros under TZ or what was there. -/
def Compressed (s : State) (r d p w n : Nat) (zeros : Bool) (t : State) : Prop :=
  (∀ e, e < n → active s p e = true → rank s p e < 32768 / w →
    el t d (rank s p e) w = el s r e w ∧ elP t d (rank s p e) w = (elP s r e w || (List.range (e + 1)).any fun j => activeP s p j)) ∧
  ∀ k, k < 32768 / w → rank s p n ≤ k →
    (zeros = true → 0 < n → el t d k w = 0 ∧ elP t d k w = false) ∧
    (zeros = false ∨ n = 0 → el t d k w = el s d k w ∧ elP t d k w = elP s d k w)

/-- With the tail kept, packing is all that `vcompress` does. -/
theorem PackedBelow.compressed {s t : State} {r d p w n : Nat} (h0 : 0 < w) (h : PackedBelow s r d p w n t) : Compressed s r d p w n false t := by
  obtain ⟨-, hk⟩ := h
  refine ⟨fun e he ha hb => ?_, fun k hb hle => ⟨fun hz => absurd hz Bool.false_ne_true, fun _ => ?_⟩⟩
  · obtain ⟨hpacked, -⟩ := hk _ (fits_of_lt h0 hb)
    exact hpacked e he ha rfl
  · obtain ⟨-, hkept⟩ := hk k (fits_of_lt h0 hb)
    exact hkept hle

/-- Under TZ the packed elements stand below the zeros. -/
theorem PackedBelow.compressed_zeroTail {s t : State} {r d p w n : Nat} (hw : 2 ∣ w) (h0 : 0 < w) (hn : n ≠ 0) (h : PackedBelow s r d p w n t) :
    Compressed s r d p w n true (zeroTail t d (rank s p n * w)) := by
  obtain ⟨-, hk⟩ := h
  refine ⟨fun e he ha hb => ?_, fun k hb hle => ⟨fun _ _ => ?_, fun hz => ?_⟩⟩
  · obtain ⟨hpacked, -⟩ := hk _ (fits_of_lt h0 hb)
    obtain ⟨hbelow, -⟩ := zeroTail_spec t d (rank s p n) w (rank s p e) hw (fits_of_lt h0 hb)
    obtain ⟨hel, hpois⟩ := hbelow (rank_lt he ha)
    rw [hel, hpois]
    exact hpacked e he ha rfl
  · obtain ⟨-, habove⟩ := zeroTail_spec t d (rank s p n) w k hw (fits_of_lt h0 hb)
    exact habove hle
  · exact absurd hz (by simp [hn])

/-- The member of `vcompress` changes its destination alone, and leaves in it the packed elements. -/
theorem memCompress_run {f : OpV} {s : State} {i : Instr} (hu : s.hart.unbound = []) (hv : s.hart.vstart = 0) :
    let u := begun s i
    OnlyReg f.vd.toNat u ((memCompress f).run u) ∧
      Compressed u f.va.toNat f.vd.toNat f.pred.toNat (nextWidth s) (nextLen s) (bitN (nextType s).toNat 3) ((memCompress f).run u) := by
  intro u
  obtain ⟨hvl, -, hvs, -⟩ := begun_cur s i hu
  obtain ⟨heven, hpos⟩ : 2 ∣ nextWidth s ∧ 0 < nextWidth s := ewOf_even _
  obtain ⟨t, ht, hpacked⟩ := forUp_compressStep u f.va.toNat f.vd.toNat f.pred.toNat (nextWidth s) heven hpos (nextLen s)
  have hrun : (memCompress f).run u = if nextLen s ≤ 0 then u else
      if bitN (nextType s).toNat 3 then zeroTail t f.vd.toNat (rank u f.pred.toNat (nextLen s) * nextWidth s) else t := by
    change (if u.hart.cur.vl ≤ u.hart.cur.vstart then u else
      let r := forUp u.hart.cur.vl 0 (0, openOld u f.vd.toNat, false) (compressStep u f.va.toNat f.vd.toNat f.pred.toNat (ew u))
      if tz u then zeroTail r.2.1 f.vd.toNat (r.1 * ew u) else r.2.1) = _
    rw [openOld_begun hu, ew_begun hu, tz_begun hu, hvl, hvs, hv, ht]
  rw [hrun]
  split
  next hn =>
    exact ⟨OnlyReg.refl _ _, fun e he => absurd he (by omega), fun k _ _ => ⟨fun _ h => absurd h (by omega), fun _ => ⟨rfl, rfl⟩⟩⟩
  next hn =>
    cases bitN (nextType s).toNat 3
    case false => exact ⟨hpacked.1, hpacked.compressed hpos⟩
    case true => exact ⟨hpacked.1.setReg _ _ _ _ _, hpacked.compressed_zeroTail heven hpos (by omega)⟩

/-- R138: `vcompress` writes its destination alone, as `Compressed` says. -/
theorem vcompress_result {f : OpV} {s : State} (hr : Runs (.vcompress f) s) : VectorResult (.vcompress f) s f.vd.toNat
    (Compressed s f.va.toNat f.vd.toNat f.pred.toNat (nextWidth s) (nextLen s) (bitN (nextType s).toNat 3)) := by
  have hu := hr.unbound
  obtain ⟨-, -, -, -, -, -, hwhole⟩ := hr.ready (m := memVcompress f) rfl
  obtain ⟨honly, hcompressed⟩ := memCompress_run (f := f) (i := .vcompress f) hu (hwhole rfl)
  refine vectorResult_of rfl rfl f.vd.isLt hr honly fun t hv hvp => ?_
  simp only [Compressed, rank_begun hu, active_begun hu, activeP_begun hu, el_begun hu, elP_begun hu] at hcompressed
  simp only [Compressed, el_congr hv, elP_congr hvp]
  exact hcompressed

/-- Settles O25: each permute that selects by position by what it picks, and `vcompress` by what its loop packs. -/
theorem permuteResults : Obligations.PermuteResults := by
  unfold Obligations.PermuteResults
  intro f s
  refine ⟨fun hr => elementwise_permute rfl rfl hr fun e => ?_, fun hr => elementwise_permute rfl rfl hr fun e => ?_,
    fun hr => elementwise_permute rfl rfl hr fun e => ?_, fun hr => elementwise_permute rfl rfl hr fun e => ?_,
    fun hr => elementwise_permute rfl rfl hr fun e => ?_, fun hr => elementwise_permute rfl rfl hr fun e => ?_,
    fun hr => elementwise_permute rfl rfl hr fun e => ?_, vcompress_result⟩
  · simp only [pkPerm, el_begun hr.unbound, elP_begun hr.unbound, curVlmax_begun hr rfl]
    split <;> simp [pickValue, *]
  · simp only [pkUp, srcX_begun hr.unbound]
    split <;> simp [pickValue]
  · simp only [pkDown, srcX_begun hr.unbound, curVlmax_begun hr rfl]
    split <;> simp [pickValue, *]
  · simp only [pkExpand, activeBelow_begun hr.unbound, pickValue]
  · simp only [pkMv, pickValue, Bool.or_false]
  · unfold pkZip
    split <;> simp [pickValue]
  · obtain ⟨hvl, -⟩ := begun_cur s (.vunzip f) hr.unbound
    simp only [pkUnzip, hvl]
    split <;> simp [pickValue]

end Sys2Proof.Machine
end

section
/-! SUPPORT. `Round` on exact rationals (R111): powers of two, the binary logarithm, and that rounding depends on the value alone. -/

namespace Sys2Proof.Machine

/-! ### Powers of two and the binary logarithm -/

theorem pow2_pos (k : Int) : 0 < (pow2 k).1 ∧ 0 < (pow2 k).2 := by
  unfold pow2
  split <;> simp

/-- `pow2` is 2^k. -/
theorem pow2_div (k : Int) : ((pow2 k).1 : ℚ) / (pow2 k).2 = 2 ^ k := by
  unfold pow2
  split
  next h =>
    obtain ⟨n, rfl⟩ := Int.eq_ofNat_of_zero_le h
    simp
  next h =>
    obtain ⟨n, hn⟩ := Int.eq_ofNat_of_zero_le (a := -k) (by omega)
    obtain rfl : k = -n := by omega
    simp

/-- The power of two of a difference. -/
theorem pow2_sub (a b : Int) : pow2 (a - b) = (2 ^ (a - b).toNat, 2 ^ (b - a).toNat) := by
  unfold pow2
  split
  next h => rw [show (b - a).toNat = 0 by omega, pow_zero]
  next h => rw [show (a - b).toNat = 0 by omega, pow_zero, neg_sub]

/-- The logarithm of a value between two neighbouring powers of two. -/
theorem log_eq_of_between {r : ℚ} {k : Int} (hlo : (2 : ℚ) ^ k ≤ r) (hhi : r < 2 ^ (k + 1)) : Int.log 2 r = k := by
  have hr : 0 < r := lt_of_lt_of_le (by positivity) hlo
  refine le_antisymm (Int.lt_add_one_iff.mp ?_) ?_
  · exact (Int.lt_zpow_iff_log_lt one_lt_two hr).mp (by exact_mod_cast hhi)
  · exact (Int.zpow_le_iff_le_log one_lt_two hr).mp (by exact_mod_cast hlo)

/-- `floorLog2` is the floor of the binary logarithm of the quotient. -/
theorem floorLog2_eq_log {n d : Nat} (hn : n ≠ 0) (hd : d ≠ 0) : floorLog2 n d = Int.log 2 ((n : ℚ) / d) := by
  have hd0 : (0 : ℚ) < d := by positivity
  have bounds {a : Nat} (ha : a ≠ 0) : (2 : ℚ) ^ (a.log2 : Int) ≤ a ∧ (a : ℚ) < 2 ^ (a.log2 + 1 : Int) := by
    constructor
    · exact_mod_cast Nat.log2_self_le ha
    · exact_mod_cast Nat.lt_log2_self (n := a)
  obtain ⟨hnlo, hnhi⟩ := bounds hn
  obtain ⟨hdlo, hdhi⟩ := bounds hd
  have hlo : (2 : ℚ) ^ ((n.log2 : Int) - d.log2 - 1) ≤ n / d := by
    rw [le_div_iff₀ hd0]
    calc (2 : ℚ) ^ ((n.log2 : Int) - d.log2 - 1) * d ≤ 2 ^ ((n.log2 : Int) - d.log2 - 1) * 2 ^ (d.log2 + 1 : Int) := by gcongr
      _ = 2 ^ (n.log2 : Int) := by rw [← zpow_add₀ two_ne_zero]; congr 1; ring
      _ ≤ n := hnlo
  have hhi : (n : ℚ) / d < 2 ^ ((n.log2 : Int) - d.log2 + 1) := by
    rw [div_lt_iff₀ hd0]
    calc (n : ℚ) < 2 ^ (n.log2 + 1 : Int) := hnhi
      _ = 2 ^ ((n.log2 : Int) - d.log2 + 1) * 2 ^ (d.log2 : Int) := by rw [← zpow_add₀ two_ne_zero]; congr 1; ring
      _ ≤ 2 ^ ((n.log2 : Int) - d.log2 + 1) * d := by gcongr
  obtain ⟨hp1, hp2⟩ := pow2_pos ((n.log2 : Int) - d.log2)
  have htest : d * (pow2 ((n.log2 : Int) - d.log2)).1 ≤ n * (pow2 ((n.log2 : Int) - d.log2)).2 ↔
      (2 : ℚ) ^ ((n.log2 : Int) - d.log2) ≤ n / d := by
    rw [← pow2_div, div_le_div_iff₀ (by exact_mod_cast hp2) hd0, mul_comm d]
    exact_mod_cast Iff.rfl
  unfold floorLog2
  dsimp only
  split
  next h => exact (log_eq_of_between (htest.mp h) hhi).symm
  next h => exact (log_eq_of_between hlo (by rw [sub_add_cancel]; exact not_le.mp fun hc => h (htest.mpr hc))).symm

theorem floorLog2_congr {n d n' d' : Nat} (hn : n ≠ 0) (hd : d ≠ 0) (hd' : d' ≠ 0) (h : n * d' = n' * d) : floorLog2 n d = floorLog2 n' d' := by
  have hn' : n' ≠ 0 := by
    rintro rfl
    simp [hn, hd'] at h
  have hq : (n : ℚ) / d = n' / d' := by
    rw [div_eq_div_iff (by positivity) (by positivity)]
    exact_mod_cast h
  rw [floorLog2_eq_log hn hd, floorLog2_eq_log hn' hd', hq]

/-- The logarithm of m × 2^e. -/
theorem floorLog2_mul_pow2 {m : Nat} (hm : m ≠ 0) (e : Int) : floorLog2 (m * (pow2 e).1) (pow2 e).2 = m.log2 + e := by
  obtain ⟨hp1, hp2⟩ := pow2_pos e
  rw [floorLog2_eq_log (by positivity) hp2.ne', Nat.cast_mul, mul_div_assoc, pow2_div]
  refine log_eq_of_between ?_ ?_
  · rw [zpow_add₀ two_ne_zero]
    gcongr
    exact_mod_cast Nat.log2_self_le hm
  · rw [add_right_comm, zpow_add₀ two_ne_zero]
    gcongr
    exact_mod_cast Nat.lt_log2_self (n := m)

/-! ### Rounding depends on the quotient alone -/

theorem div_congr_cross {n d n' d' : Nat} (hd : 0 < d) (hd' : 0 < d') (h : n * d' = n' * d) : n / d = n' / d' := by
  rw [← Nat.mul_div_mul_right n d hd', ← Nat.mul_div_mul_right n' d' hd, h, Nat.mul_comm d]

theorem mod_congr_cross {n d n' d' : Nat} (h : n * d' = n' * d) : n % d * d' = n' % d' * d := by
  rw [← Nat.mul_mod_mul_right, ← Nat.mul_mod_mul_right, h, Nat.mul_comm d]

/-- Whether a magnitude is rounded up depends on the part that is left as a fraction (R111). -/
theorem roundsUp_congr {rem den rem' den' : Nat} (mode : Nat) (neg : Bool) (lo : Nat) (hd : 0 < den) (hd' : 0 < den') (h : rem * den' = rem' * den) :
    roundsUp mode neg lo rem den = roundsUp mode neg lo rem' den' := by
  have hzero : rem = 0 ↔ rem' = 0 := by
    constructor <;> rintro rfl
    · simpa [hd.ne'] using h.symm
    · simpa [hd'.ne'] using h
  have hcross : 2 * rem * den' = 2 * rem' * den := by rw [Nat.mul_assoc, h, Nat.mul_assoc]
  have hlt : den < 2 * rem ↔ den' < 2 * rem' := by
    rw [← Nat.mul_lt_mul_right hd', hcross, Nat.mul_comm den, Nat.mul_lt_mul_right hd]
  have heq : 2 * rem = den ↔ 2 * rem' = den' := by
    rw [← Nat.mul_left_inj hd'.ne', hcross, Nat.mul_comm den, Nat.mul_left_inj hd.ne']
  simp only [roundsUp, hzero, hlt, heq]

theorem roundMag_congr {n d n' d' : Nat} (f : Fmt) (mode : Nat) (neg : Bool) (hn : n ≠ 0) (hd : 0 < d) (hd' : 0 < d') (h : n * d' = n' * d) :
    roundMag f mode neg n d = roundMag f mode neg n' d' := by
  unfold roundMag
  dsimp only
  rw [floorLog2_congr hn hd.ne' hd'.ne' h]
  generalize max (floorLog2 n' d') (1 - f.bias) - f.man = q
  obtain ⟨hp1, hp2⟩ := pow2_pos q
  have hcross : n * (pow2 q).2 * (d' * (pow2 q).1) = n' * (pow2 q).2 * (d * (pow2 q).1) := by
    rw [mul_mul_mul_comm, h, mul_mul_mul_comm]
  have hD : 0 < d * (pow2 q).1 := Nat.mul_pos hd hp1
  have hD' : 0 < d' * (pow2 q).1 := Nat.mul_pos hd' hp1
  rw [div_congr_cross hD hD' hcross, roundsUp_congr mode neg _ hD hD' (mod_congr_cross hcross)]

/-- R111: `Round` depends on the rational that a numerator and a denominator stand for. -/
theorem roundRat_congr {n d n' d' : Nat} (f : Fmt) (mode : Nat) (neg : Bool) (sat : Bool) (hn : n ≠ 0) (hd : 0 < d) (hd' : 0 < d') (h : n * d' = n' * d) :
    f.roundRat mode neg n d sat = f.roundRat mode neg n' d' sat := by
  unfold Fmt.roundRat
  rw [roundMag_congr f mode neg hn hd hd' h]

end Sys2Proof.Machine
end

section
/-! SUPPORT. The floating-point vector operations (R110, R111, R122, R126 to R131, R142). -/

namespace Sys2Proof.Machine

/-! ### The shapes of the floating-point members -/

/-- R126: one vector source. -/
theorem elementwise_v1 {i : Instr} {f : OpV} {l : List Nat} {g : Nat → Nat → Nat} {s : State} {val : Nat → Nat} (hm : memberOf i = some (memV1 f l g))
    (hh : holdsOf i = []) (hg : ∀ e, g (nextWidth s) (el s f.va.toNat e (nextWidth s)) = val e) :
    Runs i s → Elementwise i s f.vd.toNat f.pred.toNat val fun e => elP s f.va.toNat e (nextWidth s) :=
  elementwise_of_writeVec _ hm hh f.vd.isLt rfl fun hu e => by
    simp only [ew_begun hu, el_begun hu, elP_begun hu, hg, and_self]

/-- R122: two vector sources, under the rounding mode as it stands at posting. -/
theorem elementwise_f2 {i : Instr} {f : OpV} {g : Nat → Nat → Nat → Nat → Nat} {s : State} {val : Nat → Nat} (hm : memberOf i = some (memF2 f g))
    (hh : holdsOf i = [])
    (hg : ∀ e, let w := nextWidth s; g (s.hart.rmode.toNat % 4) w (el s f.va.toNat e w) (el s f.vb.toNat e w) = val e) :
    Runs i s → Elementwise i s f.vd.toNat f.pred.toNat val fun e => elP s f.va.toNat e (nextWidth s) || elP s f.vb.toNat e (nextWidth s) :=
  elementwise_of_writeVec _ hm hh f.vd.isLt rfl fun hu e => by
    simp only [ew_begun hu, el_begun hu, elP_begun hu, rmodeOf_begun hu, hg, and_self]

/-- R142: a vector source and a scalar one, under the rounding mode as it stands at posting. -/
theorem elementwise_fx {i : Instr} {f : OpVS} {g : Nat → Nat → Nat → Nat → Nat} {s : State} {val : Nat → Nat} (hm : memberOf i = some (memFX f g))
    (hh : holdsOf i = [])
    (hg : ∀ e, let w := nextWidth s; g (s.hart.rmode.toNat % 4) w (el s f.va.toNat e w) ((readX s f.xb).toNat % 2 ^ w) = val e) :
    Runs i s → Elementwise i s f.vd.toNat f.pred.toNat val fun e => elP s f.va.toNat e (nextWidth s) :=
  elementwise_of_writeVec _ hm hh f.vd.isLt rfl fun hu e => by
    simp only [ew_begun hu, el_begun hu, elP_begun hu, rmodeOf_begun hu, srcX_begun hu, hg, and_self]

/-- R128: a fused form of three vector operands. -/
theorem elementwise_fma {i : Instr} {f : OpV} {negP negC : Bool} {s : State} {val : Nat → Nat} (hm : memberOf i = some (memFma f negP negC))
    (hh : holdsOf i = [])
    (hg : ∀ e, let w := nextWidth s
      fFma negP negC (s.hart.rmode.toNat % 4) w (el s f.va.toNat e w) (el s f.vb.toNat e w) (el s f.vd.toNat e w) = val e) :
    let w := nextWidth s
    Runs i s → Elementwise i s f.vd.toNat f.pred.toNat val fun e => elP s f.va.toNat e w || elP s f.vb.toNat e w || elP s f.vd.toNat e w :=
  elementwise_of_writeVec _ hm hh f.vd.isLt rfl fun hu e => by
    simp only [ew_begun hu, el_begun hu, elP_begun hu, rmodeOf_begun hu, hg, and_self]

/-! ### Special values -/

theorem vfmt_sgn (w : Nat) : (vfmt w).sgn = true := by
  unfold vfmt
  split_ifs <;> rfl

theorem round_inf {F : Fmt} (h : F.sgn = true) (m : Nat) (n : Bool) : F.round m (.inf n) = F.inf n := by
  simp [Fmt.round, h]

theorem round_zero {F : Fmt} (h : F.sgn = true) (m : Nat) (n : Bool) (e : Int) : F.round m (.fin n 0 e) = F.sign n := by
  simp [Fmt.round, h]

theorem div_two_pow_mod_two (a k : Nat) : a / 2 ^ k % 2 = if bitN a k then 1 else 0 := by
  unfold bitN
  rcases Nat.mod_two_eq_zero_or_one (a / 2 ^ k) with h | h <;> simp [h]

/-- R126: the negation of a value that is no NaN has the other sign bit. -/
theorem fNeg_eq (w a : Nat) : fNeg w a = if ((vfmt w).decode a).isNan then (vfmt w).nan
    else a % 2 ^ (w - 1) + (1 - a / 2 ^ (w - 1) % 2) * 2 ^ (w - 1) := by
  rw [fNeg, magOf, div_two_pow_mod_two]
  cases bitN a (w - 1) <;> simp

/-- R126: `vfsgnj` gives the first pattern the sign bit of the second. -/
theorem fSgnj_eq (w a b : Nat) : fSgnj w a b = if ((vfmt w).decode a).isNan then (vfmt w).nan
    else a % 2 ^ (w - 1) + b / 2 ^ (w - 1) % 2 * 2 ^ (w - 1) := by
  rw [fSgnj, magOf, div_two_pow_mod_two]
  cases bitN b (w - 1) <;> simp

/-! ### Quotients and square roots -/

/-- R110, R126: a quotient, special values included. -/
theorem divRound_rules {F : Fmt} (hF : F.sgn = true) (m : Nat) :
    (∀ x, divRound F m .nan x = F.nan ∧ divRound F m x .nan = F.nan) ∧
    (∀ a b k e, divRound F m (.inf a) (.inf b) = F.nan ∧ divRound F m (.inf a) (.fin b k e) = F.inf (a != b) ∧
      divRound F m (.fin b k e) (.inf a) = F.sign (b != a)) ∧
    ∀ (a b : Bool) (j k : Nat) (i e : Int), j ≠ 0 →
      divRound F m (.fin a 0 i) (.fin b 0 e) = F.nan ∧ divRound F m (.fin a j i) (.fin b 0 e) = F.inf (a != b) ∧
      divRound F m (.fin a 0 i) (.fin b j e) = F.sign (a != b) ∧
      (k ≠ 0 → divRound F m (.fin a j i) (.fin b k e) = F.roundRat m (a != b) (j * 2 ^ (i - e).toNat) (k * 2 ^ (e - i).toNat)) := by
  refine ⟨fun x => ⟨by cases x <;> rfl, by cases x <;> rfl⟩, fun a b k e => ⟨rfl, round_inf hF m _, round_zero hF m _ _⟩, fun a b j k i e hj => ?_⟩
  refine ⟨by simp [divRound], by simp [divRound, hj, round_inf hF], by simp [divRound, hj, round_zero hF], fun hk => ?_⟩
  simp only [divRound, hj, hk, if_false, pow2_sub]

/-- The bits of a root, from bit `k` down: with the root below r + 2^k, the loop gives it. -/
theorem isqrtFrom_spec (n k r : Nat) (hlo : r * r ≤ n) (hhi : n < (r + 2 ^ k) * (r + 2 ^ k)) :
    isqrtFrom n k r * isqrtFrom n k r ≤ n ∧ n < (isqrtFrom n k r + 1) * (isqrtFrom n k r + 1) := by
  induction k generalizing r with
  | zero => exact ⟨hlo, hhi⟩
  | succ k ih =>
    rw [isqrtFrom]
    split
    next h => exact ih _ h (by rwa [pow_succ, mul_two, ← Nat.add_assoc] at hhi)
    next h => exact ih _ hlo (not_le.mp h)

theorem isqrt_eq_sqrt (n : Nat) : isqrt n = n.sqrt := by
  have hhi : n < (0 + 2 ^ (n.log2 / 2 + 1)) * (0 + 2 ^ (n.log2 / 2 + 1)) :=
    calc n < 2 ^ (n.log2 + 1) := Nat.lt_log2_self
      _ ≤ 2 ^ ((n.log2 / 2 + 1) + (n.log2 / 2 + 1)) := Nat.pow_le_pow_right (by decide) (by omega)
      _ = _ := by rw [Nat.zero_add, pow_add]
  obtain ⟨hlo, hhi⟩ := isqrtFrom_spec n _ 0 (Nat.zero_le n) hhi
  exact Nat.eq_sqrt.mpr ⟨hlo, hhi⟩

/-- R110, R126: a square root, special values included. -/
theorem sqrtRound_rules {F : Fmt} (hF : F.sgn = true) (m : Nat) :
    sqrtRound F m .nan = F.nan ∧ sqrtRound F m (.inf true) = F.nan ∧ sqrtRound F m (.inf false) = F.inf false ∧
    (∀ n e, sqrtRound F m (.fin n 0 e) = F.sign n) ∧ (∀ k e, k ≠ 0 → sqrtRound F m (.fin true k e) = F.nan) ∧
    ∀ (k o r : Nat) (e : Int), k ≠ 0 → o < 2 → r * r ≤ k * 2 ^ o * 2 ^ 256 → k * 2 ^ o * 2 ^ 256 < (r + 1) * (r + 1) →
      sqrtRound F m (.fin false k (2 * e + o)) =
        let q := 2 * r + (if r * r = k * 2 ^ o * 2 ^ 256 then 0 else 1)
        F.roundRat m false (q * 2 ^ (e - 129).toNat) (2 ^ (129 - e).toNat) := by
  refine ⟨rfl, rfl, by simp [sqrtRound, round_inf hF], fun n e => ?_, fun k e hk => ?_, fun k o r e hk ho hlo hhi => ?_⟩
  · simp [sqrtRound, round_zero hF]
  · simp [sqrtRound, hk]
  · have hmod : (2 * e + o) % 2 = o := by
      rw [Int.mul_add_emod_self_left, Int.emod_eq_of_lt (Int.natCast_nonneg o) (by exact_mod_cast ho)]
    have hpow : (if (o : Int) = 1 then 2 else 1) = 2 ^ o := by
      interval_cases o <;> rfl
    have hexp : ((if (o : Int) = 1 then 2 * e + (o : Int) - 1 else 2 * e + o) - 256) / 2 - 1 = e - 129 := by
      clear hlo hhi
      split <;> omega
    have hroot : isqrt (k * 2 ^ o * 2 ^ 256) = r := (isqrt_eq_sqrt _).trans (Nat.eq_sqrt.mpr ⟨hlo, hhi⟩).symm
    simp only [sqrtRound, hk, if_false, Bool.false_eq_true, hmod, hpow, hexp, hroot, pow2_sub]

/-! ### Estimates -/

/-- R130: the estimate of a reciprocal. -/
theorem fRecip_rules (w a : Nat) :
    let F := vfmt w
    (F.decode a = .nan → fRecip w a = F.nan) ∧ (∀ n, F.decode a = .inf n → fRecip w a = F.sign n) ∧
    (∀ n e, F.decode a = .fin n 0 e → fRecip w a = F.inf n) ∧
    ∀ n k e, F.decode a = .fin n k e → k ≠ 0 →
      fRecip w a = F.round 0 (.fin n (65536 / (257 + 2 * (k * 128 / 2 ^ k.log2 - 128))) (-((k.log2 : Int) + e) - 8)) := by
  refine ⟨fun h => ?_, fun n h => ?_, fun n e h => ?_, fun n k e h hk => ?_⟩ <;> simp only [fRecip, h]
  · exact round_zero (vfmt_sgn w) 0 n 0
  · rw [if_pos trivial]
  · rw [if_neg hk, estParts]

/-- R131: the largest q with q² × d ≤ 2^24. -/
theorem rsqrtQ_eq {d q : Nat} (hlo : q * q * d ≤ 2 ^ 24) (hhi : 2 ^ 24 < (q + 1) * (q + 1) * d) : rsqrtQ d = q := by
  have hd : 0 < d := Nat.pos_of_ne_zero fun h => by simp [h] at hhi
  rw [rsqrtQ, isqrt_eq_sqrt]
  exact (Nat.eq_sqrt.mpr ⟨(Nat.le_div_iff_mul_le hd).mpr hlo, (Nat.div_lt_iff_lt_mul hd).mpr hhi⟩).symm

/-- R131: the estimate of a reciprocal square root. -/
theorem fRsqrt_rules (w a : Nat) :
    let F := vfmt w
    (F.decode a = .nan → fRsqrt w a = F.nan) ∧ (∀ n, F.decode a = .inf n → fRsqrt w a = if n then F.nan else 0) ∧
    (∀ n e, F.decode a = .fin n 0 e → fRsqrt w a = F.inf n) ∧ (∀ k e, F.decode a = .fin true k e → k ≠ 0 → fRsqrt w a = F.nan) ∧
    ∀ (k h o q : Nat) (e H : Int), F.decode a = .fin false k e → k ≠ 0 → (k.log2 : Int) + e = 2 * H + o → o < 2 →
      h = (257 + 2 * (k * 128 / 2 ^ k.log2 - 128)) * 2 ^ o → q * q * h ≤ 2 ^ 24 → 2 ^ 24 < (q + 1) * (q + 1) * h →
      fRsqrt w a = F.round 0 (.fin false q (-H - 8)) := by
  refine ⟨fun h => ?_, fun n h => ?_, fun n e h => ?_, fun k e h hk => ?_, fun k h o q e H hx hk hE ho hh hlo hhi => ?_⟩
  · simp only [fRsqrt, h]
  · simp only [fRsqrt, h]
  · simp only [fRsqrt, h, if_true]
  · simp only [fRsqrt, h, hk, if_false, if_true]
  · have hodd : ((2 * H + (o : Int)) % 2).toNat = o := by omega
    have hhalf : (2 * H + (o : Int) - o) / 2 = H := by omega
    subst hh
    simp only [fRsqrt, hx, hk, if_false, Bool.false_eq_true, estParts, hE, hodd, hhalf, rsqrtQ_eq hlo hhi]

/-- Settles O20: each operation is the element-wise write of its own function, and `divRound_rules`, `sqrtRound_rules`, `fRecip_rules` and `fRsqrt_rules`
say what the quotient, the root and the estimates are. -/
theorem vectorFloatResults : Obligations.VectorFloatResults := by
  unfold Obligations.VectorFloatResults
  intro s w F m P V sign err
  obtain ⟨hquotNan, hquotInf, hquotFin⟩ := divRound_rules (vfmt_sgn w) m
  obtain ⟨hrootNan, hrootNeg, hrootInf, hrootZero, hrootFin, hroot⟩ := sqrtRound_rules (vfmt_sgn w) m
  refine ⟨fun f => ?_, fun f => ⟨elementwise_fx rfl rfl fun e => rfl, elementwise_fx rfl rfl fun e => rfl, ?_⟩,
    ⟨hquotNan, hquotInf, hquotFin, hrootNan, hrootNeg, hrootInf, hrootZero, hrootFin, hroot⟩, fun a => ?_⟩
  · have herr (a b x : FVal) : fErr w a b x = err a b x := by
      dsimp only [fErr, err]
      cases a <;> cases b <;> cases F.decode (F.round 0 x) <;> rfl
    refine ⟨elementwise_f2 rfl rfl fun e => rfl, elementwise_f2 rfl rfl fun e => rfl, elementwise_f2 rfl rfl fun e => rfl,
      elementwise_f2 rfl rfl fun e => rfl, elementwise_vv rfl rfl fun e => rfl, elementwise_vv rfl rfl fun e => rfl,
      elementwise_vv rfl rfl fun e => congrArg (· % 2 ^ w) (fSgnj_eq _ _ _), elementwise_vv rfl rfl fun e => congrArg (· % 2 ^ w) (herr _ _ _),
      elementwise_vv rfl rfl fun e => congrArg (· % 2 ^ w) (herr _ _ _), elementwise_of_writeVec _ rfl rfl f.vd.isLt rfl fun hu e => ?_,
      elementwise_v1 rfl rfl fun e => rfl, elementwise_v1 rfl rfl fun e => fNeg_eq _ _, elementwise_v1 rfl rfl fun e => rfl,
      elementwise_v1 rfl rfl fun e => rfl, elementwise_fma rfl rfl fun e => rfl, elementwise_fma rfl rfl fun e => rfl,
      elementwise_fma rfl rfl fun e => rfl, elementwise_fma rfl rfl fun e => rfl⟩
    simp only [ew_begun hu, elF, el_begun hu, elP_begun hu, rmodeOf_begun hu]
    exact ⟨rfl, rfl⟩
  · exact elementwise_of_writeVec _ rfl rfl f.vd.isLt rfl fun hu e => by
      simp only [ew_begun hu, el_begun hu, elP_begun hu, rmodeOf_begun hu, srcX_begun hu]
      exact ⟨rfl, rfl⟩
  · obtain ⟨hrecipNan, hrecipInf, hrecipZero, hrecip⟩ := fRecip_rules w a
    obtain ⟨hrsqrtNan, hrsqrtInf, hrsqrtZero, hrsqrtNeg, hrsqrt⟩ := fRsqrt_rules w a
    refine ⟨fun h => ⟨hrecipNan h, hrsqrtNan h⟩, fun n h => ⟨hrecipInf n h, hrsqrtInf n h⟩, fun n e h => ⟨hrecipZero n e h, hrsqrtZero n e h⟩,
      fun n k e h hk => ⟨hrecip n k e h hk, ?_, ?_⟩⟩
    · rintro rfl
      exact hrsqrtNeg k e h hk
    · rintro d o q H hE ho hd hlo hhi rfl
      exact hrsqrt k d o q e H h hk hE ho hd hlo hhi

end Sys2Proof.Machine
end

section
/-! SUPPORT. Rounding a value that a format represents gives its own pattern (R107, R111, R115). -/

namespace Sys2Proof.Machine

/-! ### Patterns and their fields -/

/-- The exponent field E and the mantissa field m are those of a finite value (R107, R115). -/
def Fmt.FiniteFields (f : Fmt) (E m : Nat) : Prop :=
  E < 2 ^ f.exp ∧ m < 2 ^ f.man ∧ ¬(f.spc = 0 ∧ E = 2 ^ f.exp - 1) ∧ ¬(f.spc = 1 ∧ E = 2 ^ f.exp - 1 ∧ m = 2 ^ f.man - 1)

/-- The integer significand of a finite value: the mantissa field, with the hidden bit of a normal value. -/
def Fmt.sig (f : Fmt) (E m : Nat) : Nat := if E = 0 then m else 2 ^ f.man + m

/-- The exponent of the unit in the last place of a finite value; subnormal values share that of the least normal ones. -/
def Fmt.ulp (f : Fmt) (E : Nat) : Int := (max E 1 : Nat) - f.bias - f.man

variable {f : Fmt}

/-- The fields of a pattern below its sign. -/
theorem fields_eq (u : Nat) : u / 2 ^ f.man % 2 ^ f.exp * 2 ^ f.man + u % 2 ^ f.man = u % 2 ^ (f.exp + f.man) := by
  rw [Nat.add_comm f.exp, pow_add, Nat.mod_mul, Nat.mul_comm, Nat.add_comm]

theorem fields_lt {E m : Nat} (hE : E < 2 ^ f.exp) (hm : m < 2 ^ f.man) : E * 2 ^ f.man + m < 2 ^ (f.exp + f.man) :=
  calc E * 2 ^ f.man + m < E * 2 ^ f.man + 2 ^ f.man := Nat.add_lt_add_left hm _
    _ = (E + 1) * 2 ^ f.man := (Nat.succ_mul _ _).symm
    _ ≤ 2 ^ f.exp * 2 ^ f.man := Nat.mul_le_mul_right _ hE
    _ = 2 ^ (f.exp + f.man) := (pow_add 2 _ _).symm

/-- A pattern is its sign, its exponent field and its mantissa field. -/
theorem pattern_eq {u : Nat} (h : u < 2 ^ f.wid) :
    u = f.sign (f.sgn && bitN u (f.exp + f.man)) + u / 2 ^ f.man % 2 ^ f.exp * 2 ^ f.man + u % 2 ^ f.man := by
  have hsign : f.sign (f.sgn && bitN u (f.exp + f.man)) = u / 2 ^ (f.exp + f.man) * 2 ^ (f.exp + f.man) := by
    unfold Fmt.wid at h
    cases hs : f.sgn
    · rw [hs, if_neg (by decide), Nat.zero_add] at h
      simp [Fmt.sign, Nat.div_eq_of_lt h]
    · rw [hs, if_pos rfl, Nat.add_assoc, pow_add, pow_one] at h
      have h2 : u / 2 ^ (f.exp + f.man) < 2 := Nat.div_lt_of_lt_mul (by rwa [Nat.mul_comm])
      unfold Fmt.sign bitN
      generalize u / 2 ^ (f.exp + f.man) = q at h2
      interval_cases q <;> simp [hs]
  rw [Nat.add_assoc, fields_eq, hsign, Nat.div_add_mod']

/-- R107, R115: what a pattern decodes to. -/
theorem decode_cases (u : Nat) :
    let s := f.sgn && bitN u (f.exp + f.man)
    let E := u / 2 ^ f.man % 2 ^ f.exp
    let m := u % 2 ^ f.man
    f.decode u = .nan ∨ (f.spc = 0 ∧ E = 2 ^ f.exp - 1 ∧ m = 0 ∧ f.decode u = .inf s) ∨
      (f.FiniteFields E m ∧ f.decode u = .fin s (f.sig E m) (f.ulp E)) := by
  intro s E m
  have hE : E < 2 ^ f.exp := Nat.mod_lt _ (by positivity)
  have hm : m < 2 ^ f.man := Nat.mod_lt _ (by positivity)
  by_cases h0 : f.spc = 0 ∧ E = 2 ^ f.exp - 1
  · by_cases hm0 : m = 0
    · exact .inr (.inl ⟨h0.1, h0.2, hm0, (if_pos h0).trans (if_pos hm0)⟩)
    · exact .inl ((if_pos h0).trans (if_neg hm0))
  · by_cases h1 : f.spc = 1 ∧ E = 2 ^ f.exp - 1 ∧ m = 2 ^ f.man - 1
    · exact .inl ((if_neg h0).trans (if_pos h1))
    · refine .inr (.inr ⟨⟨hE, hm, h0, h1⟩, (if_neg h0).trans ((if_neg h1).trans ?_)⟩)
      unfold Fmt.sig Fmt.ulp
      split
      next hz =>
        have hE0 : E = 0 := hz
        rw [hE0]
        rfl
      next hz => rw [max_eq_left (Nat.one_le_iff_ne_zero.mpr hz)]

/-! ### The largest finite value -/

/-- MaxFin is a pattern without its sign (R107, R115). -/
theorem maxFin_lt (f : Fmt) : f.maxFin < 2 ^ (f.exp + f.man) := by
  have hexp : 0 < 2 ^ f.exp := Nat.two_pow_pos _
  have hman : 0 < 2 ^ f.man := Nat.two_pow_pos _
  unfold Fmt.maxFin
  split
  · exact fields_lt (Nat.sub_lt hexp two_pos) (Nat.sub_lt hman one_pos)
  · split
    next h => rw [h]; exact Nat.sub_lt hexp two_pos
    next h => exact fields_lt (Nat.sub_lt hexp one_pos) (Nat.sub_lt hman two_pos)
  · exact Nat.sub_lt (Nat.two_pow_pos _) one_pos

/-- No finite pattern is above MaxFin (R107, R115). -/
theorem le_maxFin {E m : Nat} (h : f.FiniteFields E m) : E * 2 ^ f.man + m ≤ f.maxFin := by
  obtain ⟨hE, hm, hinf, hnan⟩ := h
  have hlt := fields_lt hE hm
  have below {a b : Nat} (hab : a < b) (hne : a ≠ b - 1) : a ≤ b - 2 :=
    Nat.le_sub_of_add_le (Nat.succ_le_of_lt (Nat.add_lt_of_lt_sub (Nat.lt_of_le_of_ne (Nat.le_sub_one_of_lt hab) hne)))
  unfold Fmt.maxFin
  split
  next hspc => exact Nat.add_le_add (Nat.mul_le_mul_right _ (below hE fun hc => hinf ⟨hspc, hc⟩)) (Nat.le_sub_one_of_lt hm)
  next hspc =>
    split
    next h0 =>
      rw [h0] at hm hnan ⊢
      have hm0 : m = 0 := Nat.lt_one_iff.mp hm
      rw [hm0, Nat.add_zero, pow_zero, Nat.mul_one]
      exact below hE fun hc => hnan ⟨hspc, hc, hm0⟩
    next h0 =>
      by_cases hc : E = 2 ^ f.exp - 1
      · rw [hc]
        exact Nat.add_le_add_left (below hm fun h => hnan ⟨hspc, hc, h⟩) _
      · refine (Nat.add_lt_add_left hm _).le.trans ?_
        rw [← Nat.succ_mul]
        exact (Nat.mul_le_mul_right _ (Nat.lt_of_le_of_ne (Nat.le_sub_one_of_lt hE) hc)).trans (Nat.le_add_right _ _)
  next => exact Nat.le_sub_one_of_lt hlt

/-- The values of finite fields are ordered as the patterns are. -/
theorem value_mono {E m E' m' : Nat} (hm : m < 2 ^ f.man) (hm' : m' < 2 ^ f.man) (h : E * 2 ^ f.man + m ≤ E' * 2 ^ f.man + m') :
    (f.sig E m : ℚ) * 2 ^ f.ulp E ≤ f.sig E' m' * 2 ^ f.ulp E' := by
  have hE : E ≤ E' := by
    by_contra hc
    have := Nat.mul_le_mul_right (2 ^ f.man) (not_le.mp hc)
    rw [Nat.succ_mul] at this
    omega
  rcases hE.lt_or_eq with hlt | rfl
  · have hsig' : 2 ^ f.man ≤ f.sig E' m' := by
      rw [Fmt.sig, if_neg (by omega)]
      exact Nat.le_add_right _ _
    by_cases hz : max E 1 = E'
    · have hsig : f.sig E m ≤ f.sig E' m' := by
        rw [Fmt.sig, if_pos (by omega)]
        omega
      have hulp : f.ulp E = f.ulp E' := by
        unfold Fmt.ulp
        rw [hz, max_eq_left (by omega)]
      rw [hulp]
      gcongr
    · have hsig : f.sig E m ≤ 2 * 2 ^ f.man := by
        unfold Fmt.sig
        split <;> omega
      have hulp : f.ulp E + 1 ≤ f.ulp E' := by
        unfold Fmt.ulp
        omega
      calc (f.sig E m : ℚ) * 2 ^ f.ulp E ≤ (2 * 2 ^ f.man : ℕ) * 2 ^ f.ulp E := by gcongr
        _ = (2 ^ f.man : ℕ) * 2 ^ (f.ulp E + 1) := by rw [zpow_add_one₀ two_ne_zero]; push_cast; ring
        _ ≤ (2 ^ f.man : ℕ) * 2 ^ f.ulp E' := by gcongr; exact one_le_two
        _ ≤ f.sig E' m' * 2 ^ f.ulp E' := by gcongr
  · have hle : f.sig E m ≤ f.sig E m' := by
      unfold Fmt.sig
      split <;> omega
    gcongr

/-- Whether y × 2^q is above MaxFin, as an inequality of rationals (R111). -/
theorem exceeds_iff {s : Bool} {m : Nat} {e : Int} (h : f.decode f.maxFin = .fin s m e) (y : Nat) (q : Int) :
    f.exceeds y q = true ↔ (m : ℚ) * 2 ^ e < y * 2 ^ q := by
  obtain ⟨hp1, hp2⟩ := pow2_pos (q - e)
  have hp : (0 : ℚ) < (pow2 (q - e)).2 := by exact_mod_cast hp2
  have hq : (2 : ℚ) ^ q = (pow2 (q - e)).1 / (pow2 (q - e)).2 * 2 ^ e := by
    rw [pow2_div, ← zpow_add₀ two_ne_zero, sub_add_cancel]
  have he : (0 : ℚ) < 2 ^ e := by positivity
  rw [Fmt.exceeds, h, decide_eq_true_iff, hq, ← mul_assoc, mul_lt_mul_iff_left₀ he, ← mul_div_assoc, lt_div_iff₀ hp]
  exact_mod_cast Iff.rfl

/-- No finite value of a format exceeds its MaxFin. -/
theorem not_exceeds {E m : Nat} (h : f.FiniteFields E m) : f.exceeds (f.sig E m) (f.ulp E) = false := by
  obtain ⟨-, hm, -, -⟩ := id h
  have hmax := fields_eq (f := f) f.maxFin
  rw [Nat.mod_eq_of_lt (maxFin_lt f)] at hmax
  rcases decode_cases (f := f) f.maxFin with hnan | ⟨-, -, -, hinf⟩ | ⟨⟨-, hm', -, -⟩, hfin⟩
  · rw [Fmt.exceeds, hnan]
  · rw [Fmt.exceeds, hinf]
  · refine Bool.eq_false_iff.mpr fun hc => ?_
    exact absurd ((exceeds_iff hfin _ _).mp hc) (not_lt.mpr (value_mono hm hm' ((le_maxFin h).trans_eq hmax.symm)))

/-! ### Rounding of represented values -/

/-- The logarithm of a significand: a normal one fills the mantissa, a subnormal one lies below it. -/
theorem log2_sig {E m : Nat} (hm : m < 2 ^ f.man) (h0 : f.sig E m ≠ 0) :
    max ((f.sig E m).log2 + f.ulp E) (1 - f.bias) - f.man = f.ulp E := by
  unfold Fmt.sig at h0 ⊢
  split at h0
  next hE =>
    have hlog : m.log2 < f.man := (Nat.log2_lt h0).mpr hm
    rw [if_pos hE, Fmt.ulp, hE]
    omega
  next hE =>
    have hlog : (2 ^ f.man + m).log2 = f.man := (Nat.log2_eq_iff h0).mpr ⟨Nat.le_add_right _ _, by rw [pow_succ]; omega⟩
    rw [if_neg hE, hlog, Fmt.ulp]
    omega

/-- A multiple of the spacing is its own spaced magnitude, in every mode (R111). -/
theorem roundMag_represented (mode : Nat) (neg : Bool) {y : Nat} {q : Int} (hy : y ≠ 0) (hq : max (y.log2 + q) (1 - f.bias) - f.man = q) :
    roundMag f mode neg (y * (pow2 q).1) (pow2 q).2 = (y, q) := by
  obtain ⟨hp1, hp2⟩ := pow2_pos q
  have hnum : y * (pow2 q).1 * (pow2 q).2 = y * ((pow2 q).2 * (pow2 q).1) := by ring
  have hpos : 0 < (pow2 q).2 * (pow2 q).1 := Nat.mul_pos hp2 hp1
  unfold roundMag
  dsimp only
  rw [floorLog2_mul_pow2 hy, hq, hnum, Nat.mul_div_cancel _ hpos, Nat.mul_mod_left]
  rfl

/-- The pattern of finite fields is packed from their significand. -/
theorem pack_fields {E m : Nat} (hm : m < 2 ^ f.man) (neg : Bool) : f.pack neg (f.sig E m) (f.ulp E) = f.sign neg + E * 2 ^ f.man + m := by
  have hne : f.sig E m ≠ 2 ^ (f.man + 1) := by
    unfold Fmt.sig
    rw [pow_succ]
    split <;> omega
  unfold Fmt.pack
  rw [if_neg hne]
  dsimp only
  unfold Fmt.sig Fmt.ulp
  split
  next hE => rw [hE, Nat.zero_mul, Nat.add_zero]
  next hE =>
    have hexp : ((max E 1 : Nat) - f.bias - f.man + f.man + f.bias).toNat = E := by
      rw [sub_add_cancel, sub_add_cancel, Int.toNat_natCast, max_eq_left (Nat.one_le_iff_ne_zero.mpr hE)]
    rw [if_neg (Nat.le_add_right _ _).not_gt, hexp, Nat.add_sub_cancel_left]

/-- R111: rounding the value of a pattern that is no NaN gives the pattern, in every mode. -/
theorem round_decode {u : Nat} (hu : u < 2 ^ f.wid) (hnan : f.decode u ≠ .nan) (mode : Nat) : f.round mode (f.decode u) = u := by
  have hunsigned : ((f.sgn && bitN u (f.exp + f.man)) && !f.sgn) = false := by cases f.sgn <;> simp
  have hpat := pattern_eq hu
  have hcases := decode_cases (f := f) u
  revert hpat hcases hunsigned
  generalize (f.sgn && bitN u (f.exp + f.man)) = s
  generalize u / 2 ^ f.man % 2 ^ f.exp = E
  generalize u % 2 ^ f.man = m
  intro hunsigned hpat hcases
  rcases hcases with h | ⟨hspc, hE, hm, h⟩ | ⟨hfin, h⟩
  · exact absurd h hnan
  · rw [h, Fmt.round, hunsigned, if_neg Bool.false_ne_true, Fmt.inf, hspc, hpat, hE, hm]
    rfl
  · obtain ⟨-, hm, -, -⟩ := id hfin
    rw [h, Fmt.round, hunsigned, if_neg Bool.false_ne_true, hpat]
    split
    next hz =>
      obtain ⟨rfl, rfl⟩ : E = 0 ∧ m = 0 := by
        unfold Fmt.sig at hz
        split at hz
        next hE => exact ⟨hE, hz⟩
        next hE => exact absurd hz (by positivity)
      rw [Nat.zero_mul]
      rfl
    next hz =>
      rw [Fmt.roundRat, hunsigned, if_neg Bool.false_ne_true, roundMag_represented mode s hz (log2_sig hm hz)]
      dsimp only
      rw [not_exceeds hfin, if_neg Bool.false_ne_true, pack_fields hm]

/-- A valid descriptor describes a format of its own width (R113). -/
theorem descFmt_wid {d : Word} (h : descValid d = true) : (descFmt d).wid = descWid d := by
  simp only [descValid, Bool.and_eq_true, beq_iff_eq] at h
  obtain ⟨⟨⟨⟨-, hwid⟩, -⟩, -⟩, -⟩ := h
  exact hwid

/-- Settles O22: `round_decode`, for the format of a valid descriptor and for the IEEE formats. -/
theorem roundingKeepsRepresented : Obligations.RoundingKeepsRepresented := by
  unfold Obligations.RoundingKeepsRepresented
  exact ⟨fun d mode v hd hv hnan => round_decode (descFmt_wid hd ▸ hv) hnan mode, fun F _ mode u hu hnan => round_decode hu hnan mode⟩

end Sys2Proof.Machine
end

section
/-! SUPPORT. The scale of a block (R117 to R119): the largest magnitude of its values, and the scale byte and patterns that follow from it. -/

namespace Sys2Proof.Machine

/-! ### The largest magnitude -/

/-- Magnitudes in order, as rationals. -/
def MagLe (a b : Nat × Nat) : Prop := a.1 * b.2 ≤ b.1 * a.2

theorem MagLe.trans {a b c : Nat × Nat} (hb : 0 < b.2) (hab : MagLe a b) (hbc : MagLe b c) : MagLe a c := by
  unfold MagLe at *
  refine Nat.le_of_mul_le_mul_right ?_ hb
  calc a.1 * c.2 * b.2 = a.1 * b.2 * c.2 := by ring
    _ ≤ b.1 * a.2 * c.2 := Nat.mul_le_mul_right _ hab
    _ = b.1 * c.2 * a.2 := by ring
    _ ≤ c.1 * b.2 * a.2 := Nat.mul_le_mul_right _ hbc
    _ = c.1 * a.2 * b.2 := by ring

theorem mag_den_pos (v : FVal) : 0 < v.mag.2 := by
  cases v
  case fin n m e => exact (pow2_pos e).2
  all_goals exact Nat.one_pos

theorem maxRat_cases (a b : Nat × Nat) : (MagLe a b ∧ maxRat a b = b) ∨ (MagLe b a ∧ maxRat a b = a) := by
  unfold maxRat MagLe
  split
  next h => exact .inl ⟨h, rfl⟩
  next h => exact .inr ⟨(not_le.mp h).le, rfl⟩

/-- The largest magnitude of a block's values, from `a` on. -/
def largestFrom (a : Nat × Nat) (vals : List FVal) : Nat × Nat := vals.foldl (fun a v => maxRat a v.mag) a

/-- The largest magnitude is one of them, and no other is larger. -/
theorem largestFrom_spec (vals : List FVal) (a : Nat × Nat) (ha : 0 < a.2) :
    (largestFrom a vals = a ∨ ∃ v ∈ vals, largestFrom a vals = v.mag) ∧ MagLe a (largestFrom a vals) ∧ ∀ v ∈ vals, MagLe v.mag (largestFrom a vals) := by
  induction vals generalizing a with
  | nil => exact ⟨.inl rfl, le_refl _, fun v hv => absurd hv List.not_mem_nil⟩
  | cons v vals ih =>
    rcases maxRat_cases a v.mag with ⟨hle, heq⟩ | ⟨hle, heq⟩ <;> simp only [largestFrom, List.foldl_cons, heq] <;> rw [← largestFrom]
    · obtain ⟨hin, hfrom, hall⟩ := ih v.mag (mag_den_pos v)
      refine ⟨.inr ?_, hle.trans (mag_den_pos v) hfrom, fun u hu => ?_⟩
      · rcases hin with h | ⟨u, hu, h⟩
        · exact ⟨v, List.mem_cons_self, h⟩
        · exact ⟨u, List.mem_cons_of_mem v hu, h⟩
      · rcases List.mem_cons.mp hu with rfl | hu
        · exact hfrom
        · exact hall u hu
    · obtain ⟨hin, hfrom, hall⟩ := ih a ha
      refine ⟨hin.imp id fun ⟨u, hu, h⟩ => ⟨u, List.mem_cons_of_mem v hu, h⟩, hfrom, fun u hu => ?_⟩
      rcases List.mem_cons.mp hu with rfl | hu
      · exact hle.trans ha hfrom
      · exact hall u hu

/-- A value of a block that is not zero and that none exceeds has the block's largest magnitude. -/
theorem largest_eq {vals : List FVal} {v : FVal} (hv : v ∈ vals) (h0 : v.mag.1 ≠ 0) (hmax : ∀ u ∈ vals, MagLe u.mag v.mag) :
    let a := largestFrom (0, 1) vals
    0 < a.2 ∧ a.1 ≠ 0 ∧ a.1 * v.mag.2 = v.mag.1 * a.2 := by
  intro a
  obtain ⟨hin, -, hall⟩ := largestFrom_spec vals (0, 1) Nat.one_pos
  have hle : v.mag.1 * a.2 ≤ a.1 * v.mag.2 := hall v hv
  have hvpos := mag_den_pos v
  rcases hin with h | ⟨u, hu, h⟩
  · have ha : a = (0, 1) := h
    rw [ha, Nat.mul_one, Nat.zero_mul] at hle
    exact absurd (Nat.le_zero.mp hle) h0
  · have ha : a = u.mag := h
    have hpos : 0 < a.2 := ha ▸ mag_den_pos u
    refine ⟨hpos, fun hz => ?_, le_antisymm (ha ▸ hmax u hu) hle⟩
    rw [hz, Nat.zero_mul] at hle
    exact Nat.mul_ne_zero h0 hpos.ne' (Nat.le_zero.mp hle)

/-- With nothing but zeros the largest magnitude is zero. -/
theorem largest_of_zeros {vals : List FVal} (h : ∀ v ∈ vals, ∃ n e, v = .fin n 0 e) : (largestFrom (0, 1) vals).1 = 0 := by
  obtain ⟨hin, -, -⟩ := largestFrom_spec vals (0, 1) Nat.one_pos
  rcases hin with hin | ⟨v, hv, hin⟩
  · rw [hin]
  · obtain ⟨n, e, rfl⟩ := h v hv
    rw [hin]
    exact Nat.zero_mul _

/-! ### The scale and the patterns -/

/-- A value is an infinity or NaN. -/
def FVal.notFinite : FVal → Bool
  | .fin _ _ _ => false
  | _ => true

theorem any_notFinite {vals : List FVal} : vals.any FVal.notFinite = true ↔ ∃ v ∈ vals, ∀ n k e, v ≠ .fin n k e := by
  rw [List.any_eq_true]
  refine exists_congr fun v => and_congr_right fun _ => ?_
  cases v <;> simp [FVal.notFinite]

/-- R119: each value divided by the scale sn / sd, saturating to MaxFin. -/
def scaledPat (d : Word) (m sn sd : Nat) : FVal → Nat
  | .fin n k e => if k = 0 then (descFmt d).round m (.fin n k e) else (descFmt d).roundRat m n (k * (pow2 e).1 * sd) ((pow2 e).2 * sn) true
  | v => (descFmt d).round m v true

/-- R119: the scale byte and patterns, in terms of the largest magnitude (a MaxFin of zero is log entry 93). -/
theorem deriveScale_eq (d : Word) (m : Nat) (vals : List FVal) : deriveScale d m vals =
    let a := largestFrom (0, 1) vals
    let top := ((descFmt d).decode (descFmt d).maxFin).mag
    let free := (Config.scaleByte d a.1 a.2).toNat
    if vals.any FVal.notFinite then (if descScl d = 1 then 255 else 0x7F, fun _ => 0)
    else if a.1 = 0 then (0, fun v => (descFmt d).round m v)
    else if descScl d = 1 then
      let c := if top.1 = 0 then free % 255 else (min (max (floorLog2 a.1 a.2 - floorLog2 top.1 top.2 + 127) 0) 254).toNat
      (c, scaledPat d m (pow2 ((c : Int) - 127)).1 (pow2 ((c : Int) - 127)).2)
    else
      let c := if top.1 = 0 then 1 + free % 0x7E else min (Fmt.e4m3.roundRat 2 false (a.1 * top.2) (a.2 * top.1)) 0x7E
      (c, scaledPat d m (Fmt.e4m3.decode c).mag.1 (Fmt.e4m3.decode c).mag.2) := by
  refine ite_congr (congrArg (fun q => vals.any q = true) (funext fun v => ?_)) (fun _ => rfl) fun _ => ite_congr rfl (fun _ => rfl) fun _ =>
    ite_congr rfl (fun _ => Prod.ext rfl (funext fun v => ?_)) fun _ => Prod.ext rfl (funext fun v => ?_)
  all_goals cases v <;> rfl

/-- R119: an infinity or NaN gives the NaN byte of the scale format. -/
theorem deriveScale_special {d : Word} {m : Nat} {vals : List FVal} (h : ∃ v ∈ vals, ∀ n k e, v ≠ .fin n k e) :
    deriveScale d m vals = (if descScl d = 1 then 255 else 0x7F, fun _ => 0) := by
  rw [deriveScale_eq]
  exact if_pos (any_notFinite.mpr h)

section
variable {d : Word} {vals : List FVal} {m : Nat} (hfin : ∀ v ∈ vals, ∃ n k e, v = .fin n k e)
include hfin

theorem not_any_notFinite : ¬vals.any FVal.notFinite = true := by
  rw [any_notFinite]
  rintro ⟨v, hv, hne⟩
  obtain ⟨n, k, e, rfl⟩ := hfin v hv
  exact hne n k e rfl

/-- R119: nothing but zeros gives byte 0. -/
theorem deriveScale_zeros (h0 : (largestFrom (0, 1) vals).1 = 0) : deriveScale d m vals = (0, fun v => (descFmt d).round m v) := by
  rw [deriveScale_eq]
  exact (if_neg (not_any_notFinite hfin)).trans (if_pos h0)

variable (h0 : (largestFrom (0, 1) vals).1 ≠ 0) (htop : ((descFmt d).decode (descFmt d).maxFin).mag.1 ≠ 0)
include h0 htop

/-- R119: with SCL 1 the scale is a power of two. -/
theorem deriveScale_power (hscl : descScl d = 1) :
    let a := largestFrom (0, 1) vals
    let top := ((descFmt d).decode (descFmt d).maxFin).mag
    let c := (min (max (floorLog2 a.1 a.2 - floorLog2 top.1 top.2 + 127) 0) 254).toNat
    deriveScale d m vals = (c, scaledPat d m (pow2 ((c : Int) - 127)).1 (pow2 ((c : Int) - 127)).2) := by
  simp only [deriveScale_eq, not_any_notFinite hfin, h0, htop, hscl, Bool.false_eq_true, if_false, if_true]

/-- R119: with SCL 2 the scale is a value of E4M3. -/
theorem deriveScale_e4m3 (hscl : descScl d = 2) :
    let a := largestFrom (0, 1) vals
    let top := ((descFmt d).decode (descFmt d).maxFin).mag
    let c := min (Fmt.e4m3.roundRat 2 false (a.1 * top.2) (a.2 * top.1)) 0x7E
    deriveScale d m vals = (c, scaledPat d m (Fmt.e4m3.decode c).mag.1 (Fmt.e4m3.decode c).mag.2) := by
  simp only [deriveScale_eq, not_any_notFinite hfin, h0, htop, hscl, Bool.false_eq_true, if_false, (by decide : (2 : Nat) ≠ 1)]

end

/-- R117 to R119: what `deriveScale` gives for every kind of block (a MaxFin of zero is log entry 93). -/
theorem deriveScale_rules (d : Word) (m : Nat) (vals : List FVal) :
    let F := descFmt d
    let scl := descScl d
    let r := deriveScale d m vals
    let top := (F.decode F.maxFin).mag
    ((∃ v ∈ vals, ∀ n k e, v ≠ .fin n k e) → r.1 = (if scl = 1 then 255 else 0x7F) ∧ ∀ v, r.2 v = 0) ∧
    ((∀ v ∈ vals, ∃ n e, v = .fin n 0 e) → r.1 = 0 ∧ ∀ v, r.2 v = F.round m v) ∧
    (∀ v ∈ vals, (∀ u ∈ vals, ∃ n k e, u = .fin n k e) → v.mag.1 ≠ 0 → top.1 ≠ 0 → (∀ u ∈ vals, u.mag.1 * v.mag.2 ≤ v.mag.1 * u.mag.2) →
      (scl = 1 → r.1 = (min (max (floorLog2 v.mag.1 v.mag.2 - floorLog2 top.1 top.2 + 127) 0) 254).toNat) ∧
      (scl = 2 → r.1 = min (Fmt.e4m3.roundRat 2 false (v.mag.1 * top.2) (v.mag.2 * top.1)) 0x7E) ∧
      (scl = 1 ∨ scl = 2 → let q := (scaleOf scl r.1).mag
        ∀ n k e, r.2 (.fin n k e) = if k = 0 then F.round m (.fin n k e)
          else F.roundRat m n (k * (pow2 e).1 * q.2) ((pow2 e).2 * q.1) true)) := by
  intro F scl r top
  refine ⟨fun h => ?_, fun h => ?_, fun v hv hfin hv0 htop hmax => ?_⟩
  · rw [show r = _ from deriveScale_special h]
    exact ⟨rfl, fun _ => rfl⟩
  · rw [show r = _ from deriveScale_zeros (fun v hv => (h v hv).imp fun n ⟨e, he⟩ => ⟨0, e, he⟩) (largest_of_zeros h)]
    exact ⟨rfl, fun _ => rfl⟩
  · obtain ⟨hpos, h0, hcross⟩ := largest_eq hv hv0 hmax
    have hvpos := mag_den_pos v
    have htpos : 0 < top.2 := mag_den_pos _
    refine ⟨fun hscl => ?_, fun hscl => ?_, fun hscl => ?_⟩
    · simp only [r, deriveScale_power hfin h0 htop hscl]
      rw [floorLog2_congr h0 hpos.ne' hvpos.ne' hcross]
    · simp only [r, deriveScale_e4m3 hfin h0 htop hscl]
      rw [roundRat_congr Fmt.e4m3 2 false false (Nat.mul_ne_zero h0 htpos.ne') (Nat.mul_pos hpos (Nat.pos_of_ne_zero htop))
        (Nat.mul_pos hvpos (Nat.pos_of_ne_zero htop)) (by rw [mul_mul_mul_comm, hcross, mul_mul_mul_comm])]
    · rcases hscl with hscl | hscl
      · simp only [r, deriveScale_power hfin h0 htop hscl]
        generalize hc : (min (max (floorLog2 (largestFrom (0, 1) vals).1 (largestFrom (0, 1) vals).2 -
          floorLog2 ((descFmt d).decode (descFmt d).maxFin).mag.1 ((descFmt d).decode (descFmt d).maxFin).mag.2 + 127) 0) 254).toNat = c
        have hscale : scaleOf scl c = .fin false 1 ((c : Int) - 127) := by
          rw [scaleOf, if_pos hscl, if_neg (by omega)]
        intro n k e
        rw [hscale]
        simp only [FVal.mag, one_mul]
        rfl
      · simp only [r, deriveScale_e4m3 hfin h0 htop hscl]
        generalize hc : min (Fmt.e4m3.roundRat 2 false _ _) 0x7E = c
        have hscale : scaleOf scl c = Fmt.e4m3.decode c := by
          rw [scaleOf, if_neg (by omega), if_pos (by omega)]
        intro n k e
        rw [hscale]
        rfl

end Sys2Proof.Machine
end

section
/-! SUPPORT. The conversions (R117 to R119, R133 to R136). A conversion to a scaled narrow format goes block by block; a block changes its own scale byte and its own
elements alone, so that each block's result is what its own step leaves. -/

namespace Sys2Proof.Machine

/-! ### What a scaled conversion leaves as it is -/

/-- Nothing but vector registers, scale registers and their status differs, and of the vector registers only d. -/
def OnlyScaled (d : Nat) (s t : State) : Prop :=
  t = { s with hart := { s.hart with v := t.hart.v, vp := t.hart.vp, vdirty := t.hart.vdirty, k := t.hart.k, kp := t.hart.kp } } ∧
    ∀ r : Fin 32, r.val ≠ d % 32 → t.hart.v[r] = s.hart.v[r]

theorem OnlyScaled.refl (d : Nat) (s : State) : OnlyScaled d s s := ⟨rfl, fun _ _ => rfl⟩

theorem OnlyScaled.trans {d : Nat} {s t u : State} (h : OnlyScaled d s t) (g : OnlyScaled d t u) : OnlyScaled d s u :=
  ⟨by conv_lhs => rw [g.1, h.1], fun r hr => (g.2 r hr).trans (h.2 r hr)⟩

theorem OnlyScaled.keeps {d : Nat} {s t : State} (h : OnlyScaled d s t) :
    t.hart.x = s.hart.x ∧ t.hart.p = s.hart.p ∧ t.mem = s.mem ∧ t.hart.cur = s.hart.cur ∧ t.hart.unbound = s.hart.unbound := by
  rw [h.1]
  exact ⟨rfl, rfl, rfl, rfl, rfl⟩

theorem OnlyReg.onlyScaled {d : Nat} {s t : State} (h : OnlyReg d s t) : OnlyScaled d s t := by
  obtain ⟨heq, hother, -⟩ := h
  refine ⟨?_, fun r hr => (hother r hr).1⟩
  conv_lhs => rw [heq]
  rw [heq]

theorem setReg_onlyScaled (d : Nat) (s : State) (x c : Nat) : OnlyScaled d s (setReg s d x c) :=
  (OnlyReg.setReg _ _ _ _ _ (OnlyReg.refl d s)).onlyScaled

theorem setEl_onlyScaled (d : Nat) (s : State) (e w x : Nat) (q : Bool) : OnlyScaled d s (setEl s d e w x q) := setReg_onlyScaled d s _ _

theorem setScale_onlyScaled (d : Nat) (s : State) (n j c : Nat) (q : Bool) : OnlyScaled d s (setScale s n j c q) := ⟨rfl, fun _ _ => rfl⟩

theorem OnlyScaled.foldl {β : Type} {d : Nat} {g : State → β → State} (hg : ∀ t b, OnlyScaled d t (g t b)) (l : List β) (s : State) :
    OnlyScaled d s (l.foldl g s) :=
  List.foldlRecOn (motive := OnlyScaled d s) l g (.refl d s) fun t ht b _ => ht.trans (hg t b)

theorem OnlyScaled.forUp {d : Nat} {g : Nat → State → State} (hg : ∀ i t, OnlyScaled d t (g i t)) (n lo : Nat) (s : State) :
    OnlyScaled d s (forUp n lo s g) :=
  forUp_induct (P := OnlyScaled d s) (fun i t ht => ht.trans (hg i t)) (.refl d s)

/-! ### What a step leaves of one block -/

/-- Scale byte j of scale register n and the elements of a list are the same in both states. -/
def SameBlock (n j d w : Nat) (es : List Nat) (s t : State) : Prop :=
  (scaleByte t n j = scaleByte s n j ∧ scaleP t n j = scaleP s n j) ∧
    ∀ e ∈ es, e * w + w ≤ 32768 → el t d e w = el s d e w ∧ elP t d e w = elP s d e w

section
variable {n j d w : Nat} {es : List Nat}

theorem SameBlock.refl (s : State) : SameBlock n j d w es s s := ⟨⟨rfl, rfl⟩, fun _ _ _ => ⟨rfl, rfl⟩⟩

theorem SameBlock.trans {s t u : State} (h : SameBlock n j d w es s t) (g : SameBlock n j d w es t u) : SameBlock n j d w es s u := by
  obtain ⟨⟨hb, hp⟩, he⟩ := h
  obtain ⟨⟨gb, gp⟩, ge⟩ := g
  exact ⟨⟨gb.trans hb, gp.trans hp⟩, fun e hm hw => ⟨(ge e hm hw).1.trans (he e hm hw).1, (ge e hm hw).2.trans (he e hm hw).2⟩⟩

theorem SameBlock.foldl {β : Type} {g : State → β → State} {l : List β} (hg : ∀ b ∈ l, ∀ t, SameBlock n j d w es t (g t b)) (s : State) :
    SameBlock n j d w es s (l.foldl g s) :=
  List.foldlRecOn (motive := SameBlock n j d w es s) l g (.refl s) fun t ht b hb => ht.trans (hg b hb t)

theorem SameBlock.forUp {g : Nat → State → State} (hg : ∀ i t, SameBlock n j d w es t (g i t)) (c lo : Nat) (s : State) :
    SameBlock n j d w es s (forUp c lo s g) :=
  forUp_induct (P := SameBlock n j d w es s) (fun i t ht => ht.trans (hg i t)) (.refl s)

/-- Writing an element of another block. -/
theorem setEl_sameBlock {e : Nat} (hw : 2 ∣ w) (he : e ∉ es) (s : State) (x : Nat) (q : Bool) : SameBlock n j d w es s (setEl s d e w x q) :=
  ⟨⟨rfl, rfl⟩, fun e' hm hb => by
    have hne : e' ≠ e := fun h => he (h ▸ hm)
    exact ⟨el_setEl_apart _ _ _ _ _ _ _ _ (.inr hne) hb, elP_setEl_apart _ _ _ _ _ _ _ _ hw (.inr hne) hb⟩⟩

/-- Scale bytes after one was written. -/
theorem scale_setScale (s : State) (n i c j : Nat) (q : Bool) (hj : j < 1024) :
    scaleByte (setScale s n i c q) n j = (if j = i then c % 256 else scaleByte s n j) ∧
    scaleP (setScale s n i c q) n j = (if j = i then q else scaleP s n j) := by
  simp only [scaleByte, scaleP, setScale, Vector.getElem_set_self, BitVec.toNat_ofNat, bitN_mod, hj, bitN_setBits, decide_true, Bool.true_and]
  rw [bitsN_mod _ 8192 _ _ (by omega)]
  refine ⟨?_, trivial⟩
  split
  next h =>
    rw [h, bitsN_setBits_same]
    rfl
  next h => rw [bitsN_setBits_apart _ _ _ _ _ _ (by omega)]

/-- Writing the scale byte of another block. -/
theorem setScale_sameBlock {i : Nat} (hi : i ≠ j) (hj : j < 1024) (s : State) (c : Nat) (q : Bool) : SameBlock n j d w es s (setScale s n i c q) := by
  obtain ⟨hb, hp⟩ := scale_setScale s n i c j q hj
  rw [if_neg hi.symm] at hb hp
  exact ⟨⟨hb, hp⟩, fun e _ _ => ⟨rfl, rfl⟩⟩

end

/-! ### One block of a scaled conversion -/

/-- An element's source value or predicate bit is poisoned (R119, R123). -/
def cvtHurt (s : State) (f : OpCv) (e : Nat) : Bool := (cvtSrc s f e).2 || activeP s f.pred.toNat e

/-- The contributing elements of block j of a scaled conversion (R119). -/
def cvtElems (s : State) (f : OpCv) (j : Nat) : List Nat := blockElems s (blockOf (fmtReg s (f.fn.toNat % 4))) j f.pred.toNat

/-- The scale of block j, and the pattern that each of its values then has (R119). -/
def cvtScale (s : State) (f : OpCv) (j : Nat) : Nat × (FVal → Nat) :=
  deriveScale (fmtReg s (f.fn.toNat % 4)) (rmodeOf s) ((cvtElems s f j).map fun e => (cvtSrc s f e).1.toF)

/-- The scale byte of block j and its contributing elements, as a scaled conversion writes them (R119). -/
def cvtWrite (s : State) (f : OpCv) (j : Nat) (t : State) : State :=
  let pois := (cvtElems s f j).any (cvtHurt s f)
  (cvtElems s f j).foldl (fun u e => setEl u f.vd.toNat e (ew s) ((cvtScale s f j).2 (cvtSrc s f e).1.toF) pois)
    (setScale t (f.fn.toNat % 4) j (cvtScale s f j).1 pois)

/-- What a scaled conversion does with block j (R119). -/
def cvtBlock (s : State) (f : OpCv) (j : Nat) (t : State) : State :=
  if (cvtElems s f j).isEmpty then t
  else if (cvtElems s f j).any (cvtHurt s f) then
    (blockBody s (blockOf (fmtReg s (f.fn.toNat % 4))) j).foldl
      (fun u e => if active s f.pred.toNat e then u else setEl u f.vd.toNat e (ew s) (el u f.vd.toNat e (ew s)) true) (cvtWrite s f j t)
  else cvtWrite s f j t

/-- What a scaled conversion does with an element that contributes to no scale (R106, R123). -/
def cvtInactive (s : State) (f : OpCv) (e : Nat) (t : State) : State :=
  let w := ew s
  if active s f.pred.toNat e then t
  else if mz s then
    setEl t f.vd.toNat e w 0 (elP t f.vd.toNat e w && (cvtElems s f (e / blockOf (fmtReg s (f.fn.toNat % 4)))).any (cvtHurt s f) || activeP s f.pred.toNat e)
  else if activeP s f.pred.toNat e then setEl t f.vd.toNat e w (el t f.vd.toNat e w) true
  else t

/-- A scaled conversion: its blocks, the elements that contribute to none, and the tail. -/
theorem cvtScaled_eq (s : State) (f : OpCv) : cvtScaled s f =
    tail (bodyLoop (if limit s ≤ s.hart.cur.vstart then openOld s f.vd.toNat
      else forUp (ceilDiv (limit s) (blockOf (fmtReg s (f.fn.toNat % 4)))) 0 (openOld s f.vd.toNat) (cvtBlock s f)) (cvtInactive s f)) f.vd.toNat (ew s) := rfl

theorem cvtWrite_onlyScaled (s : State) (f : OpCv) (j : Nat) (t : State) : OnlyScaled f.vd.toNat t (cvtWrite s f j t) :=
  (setScale_onlyScaled _ t _ _ _ _).trans (.foldl (fun u e => setEl_onlyScaled _ u e _ _ _) _ _)

theorem cvtBlock_onlyScaled (s : State) (f : OpCv) (j : Nat) (t : State) : OnlyScaled f.vd.toNat t (cvtBlock s f j t) := by
  unfold cvtBlock
  split_ifs
  · exact .refl _ _
  · refine (cvtWrite_onlyScaled s f j t).trans (.foldl (fun u e => ?_) _ _)
    split
    · exact .refl _ _
    · exact setEl_onlyScaled _ _ _ _ _ _
  · exact cvtWrite_onlyScaled s f j t

theorem cvtInactive_onlyScaled (s : State) (f : OpCv) (e : Nat) (t : State) : OnlyScaled f.vd.toNat t (cvtInactive s f e t) := by
  unfold cvtInactive
  dsimp only
  split_ifs
  · exact .refl _ _
  · exact setEl_onlyScaled _ _ _ _ _ _
  · exact setEl_onlyScaled _ _ _ _ _ _
  · exact .refl _ _

theorem bodyLoop_onlyScaled (s : State) (f : OpCv) (t : State) : OnlyScaled f.vd.toNat t (bodyLoop t (cvtInactive s f)) := by
  refine .forUp (fun e u => ?_) _ _ _
  split
  · exact cvtInactive_onlyScaled s f e u
  · exact .refl _ _

theorem tail_onlyScaled (s : State) (d w : Nat) : OnlyScaled d s (tail s d w) := by
  unfold tail
  split
  · exact setReg_onlyScaled _ _ _ _
  · exact .refl _ _

/-- A conversion to a scaled format writes its destination and scale registers alone. -/
theorem cvtScaled_onlyScaled (s : State) (f : OpCv) (ho : openOld s f.vd.toNat = s) : OnlyScaled f.vd.toNat s (cvtScaled s f) := by
  rw [cvtScaled_eq, ho]
  refine .trans ?_ ((bodyLoop_onlyScaled s f _).trans (tail_onlyScaled _ _ _))
  split
  · exact .refl _ _
  · exact .forUp (cvtBlock_onlyScaled s f) _ _ _

/-! ### The elements of a block -/

theorem mem_blockElems {s : State} {b j p e : Nat} :
    e ∈ blockElems s b j p ↔ (j * b ≤ e ∧ e < j * b + b) ∧ s.hart.cur.vstart ≤ e ∧ e < limit s ∧ active s p e = true := by
  simp only [blockElems, List.mem_filterMap, List.mem_range]
  constructor
  · rintro ⟨i, hi, h⟩
    split at h
    next hc =>
      obtain rfl := Option.some.inj h
      exact ⟨⟨by omega, by omega⟩, hc⟩
    next hc => cases h
  · rintro ⟨⟨hlo, hhi⟩, hc⟩
    refine ⟨e - j * b, by omega, ?_⟩
    rw [Nat.add_sub_cancel' hlo, if_pos hc]

/-- The contributing elements of a block lie in it, are active, and lie below the limit. -/
theorem cvtElems_of_mem {s : State} {f : OpCv} {j e : Nat} (h : e ∈ cvtElems s f j) :
    let b := blockOf (fmtReg s (f.fn.toNat % 4))
    (j * b ≤ e ∧ e < j * b + b) ∧ active s f.pred.toNat e = true ∧ s.hart.cur.vstart ≤ e ∧ e < limit s := by
  obtain ⟨hblock, hlo, hhi, ha⟩ := mem_blockElems.mp h
  exact ⟨hblock, ha, hlo, hhi⟩

theorem mem_blockBody {s : State} {b j e : Nat} (h : e ∈ blockBody s b j) : j * b ≤ e ∧ e < j * b + b := by
  simp only [blockBody, List.mem_filterMap, List.mem_range] at h
  obtain ⟨i, hi, h⟩ := h
  split at h
  · obtain rfl := Option.some.inj h
    omega
  · cases h

/-- Blocks have no element in common. -/
theorem blocks_apart {b i j e : Nat} (hi : i * b ≤ e ∧ e < i * b + b) (hj : j * b ≤ e ∧ e < j * b + b) : i = j := by
  have hb : 0 < b := by omega
  rw [← Nat.div_eq_of_lt_le hi.1 (by rw [Nat.succ_mul]; exact hi.2), ← Nat.div_eq_of_lt_le hj.1 (by rw [Nat.succ_mul]; exact hj.2)]

/-- A block leaves the scale byte and the elements of every other block. -/
theorem cvtBlock_sameBlock (s : State) (f : OpCv) {i j : Nat} (hij : i ≠ j) (hj : j < 1024) (hw : 2 ∣ ew s) (t : State) :
    SameBlock (f.fn.toNat % 4) j f.vd.toNat (ew s) (cvtElems s f j) t (cvtBlock s f i t) := by
  have hapart {e : Nat} (he : i * blockOf (fmtReg s (f.fn.toNat % 4)) ≤ e ∧
      e < i * blockOf (fmtReg s (f.fn.toNat % 4)) + blockOf (fmtReg s (f.fn.toNat % 4))) : e ∉ cvtElems s f j :=
    fun hm => hij (blocks_apart he (cvtElems_of_mem hm).1)
  have hwrite : SameBlock (f.fn.toNat % 4) j f.vd.toNat (ew s) (cvtElems s f j) t (cvtWrite s f i t) :=
    (setScale_sameBlock hij hj t _ _).trans (.foldl (fun e he t => setEl_sameBlock hw (hapart (cvtElems_of_mem he).1) t _ _) _)
  unfold cvtBlock
  split_ifs
  · exact .refl _
  · refine hwrite.trans (.foldl (fun e he t => ?_) _)
    split
    · exact .refl _
    · exact setEl_sameBlock hw (hapart (mem_blockBody he)) t _ _
  · exact hwrite

/-- The elements that a list of writes has written. -/
theorem foldl_setEl (d w : Nat) (hw : 2 ∣ w) (h0 : 0 < w) (g : Nat → Nat) (l : List Nat) (s : State) (e : Nat) (hb : e * w + w ≤ 32768) (he : e ∈ l) :
    let t := l.foldl (fun u e => setEl u d e w (g e) false) s
    el t d e w = g e % 2 ^ w ∧ elP t d e w = false := by
  induction l using List.reverseRecOn with
  | nil => cases he
  | append_singleton l a ih =>
    simp only [List.foldl_append, List.foldl_cons, List.foldl_nil]
    by_cases h : e = a
    · rw [h, el_setEl_same _ _ _ _ _ _ (h ▸ hb), elP_setEl_same _ _ _ _ _ _ hw h0 (h ▸ hb)]
      exact ⟨rfl, rfl⟩
    · rw [el_setEl_apart _ _ _ _ _ _ _ _ (.inr h) hb, elP_setEl_apart _ _ _ _ _ _ _ _ hw (.inr h) hb]
      exact ih (by simpa [h] using he)

/-- R119: block j of `t` has its scale, and its contributing elements the patterns under it. -/
def BlockScaled (s : State) (f : OpCv) (j : Nat) (t : State) : Prop :=
  (scaleByte t (f.fn.toNat % 4) j = (cvtScale s f j).1 % 256 ∧ scaleP t (f.fn.toNat % 4) j = false) ∧
    ∀ e ∈ cvtElems s f j, e * ew s + ew s ≤ 32768 →
      el t f.vd.toNat e (ew s) = (cvtScale s f j).2 (cvtSrc s f e).1.toF % 2 ^ ew s ∧ elP t f.vd.toNat e (ew s) = false

theorem BlockScaled.same {s : State} {f : OpCv} {j : Nat} {t u : State} (h : BlockScaled s f j t)
    (g : SameBlock (f.fn.toNat % 4) j f.vd.toNat (ew s) (cvtElems s f j) t u) : BlockScaled s f j u := by
  obtain ⟨⟨hbyte, hp⟩, helems⟩ := h
  obtain ⟨⟨gbyte, gp⟩, gelems⟩ := g
  refine ⟨⟨gbyte.trans hbyte, gp.trans hp⟩, fun e he hb => ?_⟩
  rw [(gelems e he hb).1, (gelems e he hb).2]
  exact helems e he hb

/-- R119: a block with contributing elements and no poison gets its scale. -/
theorem cvtBlock_scaled {s : State} {f : OpCv} {j : Nat} (hj : j < 1024) (hw : 2 ∣ ew s) (h0 : 0 < ew s) (hne : cvtElems s f j ≠ [])
    (hclean : ∀ e ∈ cvtElems s f j, cvtHurt s f e = false) (t : State) : BlockScaled s f j (cvtBlock s f j t) := by
  have hpois : (cvtElems s f j).any (cvtHurt s f) = false := List.any_eq_false.mpr fun e he => by rw [hclean e he]; exact Bool.false_ne_true
  have hkept : SameBlock (f.fn.toNat % 4) j f.vd.toNat (ew s) [] (setScale t (f.fn.toNat % 4) j (cvtScale s f j).1 false)
      (cvtWrite s f j t) := by
    rw [cvtWrite, hpois]
    exact .foldl (fun e _ t => setEl_sameBlock hw List.not_mem_nil t _ _) _
  obtain ⟨⟨hkeptByte, hkeptP⟩, -⟩ := hkept
  obtain ⟨hbyte, hp⟩ := scale_setScale t (f.fn.toNat % 4) j (cvtScale s f j).1 j false hj
  rw [if_pos rfl] at hbyte hp
  rw [cvtBlock, if_neg (by rwa [List.isEmpty_iff]), hpois, if_neg Bool.false_ne_true]
  refine ⟨⟨hkeptByte.trans hbyte, hkeptP.trans hp⟩, fun e he hb => ?_⟩
  rw [cvtWrite, hpois]
  exact foldl_setEl _ _ hw h0 (fun e => (cvtScale s f j).2 (cvtSrc s f e).1.toF) _ _ e hb he

/-- One place of an ascending loop: what it does stands when no later place undoes it. -/
theorem forUp_at {α : Type} {P : α → Prop} {g : Nat → α → α} {j n : Nat} (hj : j < n) (hat : ∀ a, P (g j a)) (hkeep : ∀ i a, i ≠ j → P a → P (g i a))
    (a : α) : P (forUp n 0 a g) := by
  induction n with
  | zero => exact absurd hj (Nat.not_lt_zero j)
  | succ n ih =>
    rw [forUp_succ, Nat.zero_add]
    by_cases h : j = n
    · rw [← h]
      exact hat _
    · exact hkeep n _ (Ne.symm h) (ih (by omega))

/-- What follows the blocks leaves the scale bytes and the contributing elements (R106). -/
theorem after_blocks_sameBlock (s : State) (f : OpCv) (j : Nat) (hw : 2 ∣ ew s) (hlim : limit s = s.hart.cur.vl) (t : State) (ht : t.hart.cur = s.hart.cur) :
    SameBlock (f.fn.toNat % 4) j f.vd.toNat (ew s) (cvtElems s f j) t (tail (bodyLoop t (cvtInactive s f)) f.vd.toNat (ew s)) := by
  have hloop := bodyLoop_onlyScaled s f t
  have hcur : (bodyLoop t (cvtInactive s f)).hart.cur = s.hart.cur := by
    rw [hloop.1]
    exact ht
  refine .trans (t := bodyLoop t (cvtInactive s f)) (.forUp (fun e u => ?_) _ _ _) ?_
  · have hinactive (ha : active s f.pred.toNat e ≠ true) : e ∉ cvtElems s f j := fun hm => by
      obtain ⟨-, hactive, -⟩ := cvtElems_of_mem hm
      exact ha hactive
    unfold cvtInactive
    dsimp only
    split_ifs with _ ha
    · exact .refl _
    · exact setEl_sameBlock hw (hinactive ha) _ _ _
    · exact setEl_sameBlock hw (hinactive ha) _ _ _
    · exact .refl _
    · exact .refl _
  · unfold tail
    split
    · refine ⟨⟨rfl, rfl⟩, fun e he hb => ?_⟩
      have hlt : e < (bodyLoop t (cvtInactive s f)).hart.cur.vl := by
        obtain ⟨-, -, -, hlt⟩ := cvtElems_of_mem he
        rwa [hcur, ← hlim]
      exact (zeroTail_spec _ _ _ _ _ hw hb).1 hlt
    · exact .refl _

end Sys2Proof.Machine
end

section
/-! SUPPORT. The conversions as convoys of their own (R106, R117 to R119, R133 to R136). -/

namespace Sys2Proof.Machine

theorem blockOf_pos (d : Word) : 0 < blockOf d := by
  unfold blockOf
  split_ifs <;> decide

theorem scaleByte_congr {s t : State} (h : t.hart.k = s.hart.k) (n j : Nat) : scaleByte t n j = scaleByte s n j := by unfold scaleByte; rw [h]

theorem scaleP_congr {s t : State} (h : t.hart.kp = s.hart.kp) (n j : Nat) : scaleP t n j = scaleP s n j := by unfold scaleP; rw [h]

/-- The blocks of a scaled conversion: one without contributing elements keeps its scale byte, and one without poison is scaled (R119). -/
theorem cvtScaled_blocks {s : State} {f : OpCv} {j : Nat} (ho : openOld s f.vd.toNat = s) (hlim : limit s = s.hart.cur.vl) (hw : 2 ∣ ew s) (h0 : 0 < ew s)
    (hj : j < 1024) (hjb : j * blockOf (fmtReg s (f.fn.toNat % 4)) < limit s) :
    (cvtElems s f j = [] → SameBlock (f.fn.toNat % 4) j f.vd.toNat (ew s) [] s (cvtScaled s f)) ∧
    (cvtElems s f j ≠ [] → (∀ e ∈ cvtElems s f j, cvtHurt s f e = false) → BlockScaled s f j (cvtScaled s f)) := by
  have hcur (c lo : Nat) : (forUp c lo s (cvtBlock s f)).hart.cur = s.hart.cur := by
    obtain ⟨-, -, -, hcur, -⟩ := (OnlyScaled.forUp (cvtBlock_onlyScaled s f) c lo s).keeps
    exact hcur
  rw [cvtScaled_eq, ho]
  refine ⟨fun hnil => ?_, fun hne hclean => ?_⟩
  · rw [← hnil]
    split
    · exact after_blocks_sameBlock s f j hw hlim s rfl
    · refine .trans (.forUp (fun i t => ?_) _ _ _) (after_blocks_sameBlock s f j hw hlim _ (hcur _ _))
      by_cases hij : i = j
      · rw [hij, cvtBlock, if_pos (by rw [hnil]; rfl)]
        exact .refl _
      · exact cvtBlock_sameBlock s f hij hj hw t
  · obtain ⟨e, he⟩ := List.exists_mem_of_ne_nil _ hne
    obtain ⟨-, -, hlo, hhi⟩ := cvtElems_of_mem he
    rw [if_neg (by omega)]
    have hblocks : BlockScaled s f j (forUp (ceilDiv (limit s) (blockOf (fmtReg s (f.fn.toNat % 4)))) 0 s (cvtBlock s f)) := by
      refine forUp_at ?_ (cvtBlock_scaled hj hw h0 hne hclean) (fun i t hij ht => ht.same (cvtBlock_sameBlock s f hij hj hw t)) s
      have hpos := blockOf_pos (fmtReg s (f.fn.toNat % 4))
      rw [ceilDiv, ← Nat.succ_le_iff, Nat.le_div_iff_mul_le hpos, Nat.succ_mul]
      omega
    exact hblocks.same (after_blocks_sameBlock s f j hw hlim _ (hcur _ _))

/-- The contributing elements of a block in the state in which the member begins. -/
theorem cvtElems_begun {s : State} {i : Instr} (hu : s.hart.unbound = []) (f : OpCv) (j : Nat) :
    cvtElems (begun s i) f j =
      (activeBody s f.pred.toNat).filter fun e => e / blockOf s.hart.fmt[f.fn.toNat % 4] = j := by
  obtain ⟨-, -, hvs, -⟩ := begun_cur s i hu
  have hfmt : fmtReg (begun s i) (f.fn.toNat % 4) = s.hart.fmt[f.fn.toNat % 4] := by
    simp only [fmtReg_begun hu, Nat.mod_mod]
  have hpos := blockOf_pos s.hart.fmt[f.fn.toNat % 4]
  refine List.Pairwise.eq_of_mem_iff (r := (· < ·)) ?_ ?_ fun e => ?_
  · refine List.pairwise_lt_range.filterMap _ fun a b hab x hx y hy => ?_
    simp only [Option.ite_none_right_eq_some, Option.some.injEq] at hx hy
    omega
  · exact (List.pairwise_lt_range.filter _).filter _
  · rw [cvtElems, hfmt, mem_blockElems, hvs, limit_begun hu, active_begun hu]
    simp only [activeBody, List.mem_filter, List.mem_range, Bool.and_eq_true, decide_eq_true_eq, Nat.div_eq_iff hpos]
    rw [Nat.lt_iff_le_pred (m := e) (Nat.add_pos_right (j * blockOf s.hart.fmt[f.fn.toNat % 4]) hpos)]
    tauto

/-- The blocks of a scaled conversion as a convoy of its own: a block without contributing elements keeps the scale byte of the hart. -/
theorem cvtScaled_blocks_begun {f : OpCv} {s : State} (hr : Runs (.vcvt f) s) {j : Nat} (hj : j < 1024)
    (hjb : j * blockOf s.hart.fmt[f.fn.toNat % 4] < nextLen s) :
    let u := begun s (.vcvt f)
    (cvtElems u f j = [] → scaleByte (cvtScaled u f) (f.fn.toNat % 4) j = scaleByte s (f.fn.toNat % 4) j) ∧
    (cvtElems u f j ≠ [] → (∀ e ∈ cvtElems u f j, cvtHurt u f e = false) → BlockScaled u f j (cvtScaled u f)) := by
  intro u
  obtain ⟨hq, -, -, hu, -⟩ := hr.ready (m := memVcvt f) rfl
  obtain ⟨hvl, -⟩ := begun_cur s (.vcvt f) hu
  obtain ⟨heven, hpos⟩ : 2 ∣ ew u ∧ 0 < ew u := ewOf_even _
  have hk : u.hart.k = s.hart.k := by rw [show u = _ from begun_eq s (.vcvt f) hu hq rfl]
  obtain ⟨hempty, hscaled⟩ := cvtScaled_blocks (openOld_begun hu f.vd.toNat) ((limit_begun hu).trans hvl.symm) heven hpos hj
    (by rw [fmtReg_begun hu, limit_begun hu]; simpa only [Nat.mod_mod] using hjb)
  refine ⟨fun hnil => ?_, hscaled⟩
  obtain ⟨⟨hbyte, -⟩, -⟩ := hempty hnil
  rw [hbyte, scaleByte_congr hk]

/-- A conversion to a scaled format is performed and retires with what its member leaves in the vector and scale registers. -/
theorem vcvt_scaled_retires {f : OpCv} {s : State} (hr : Runs (.vcvt f) s) (h : 4 ≤ f.fn.toNat ∧ descScl s.hart.fmt[f.fn.toNat % 4] ≠ 0) :
    let r := cvtScaled (begun s (.vcvt f)) f
    ∃ t, exec (.vcvt f) s = .next t ∧ t.hart.x = s.hart.x ∧ t.hart.p = s.hart.p ∧ t.mem = s.mem ∧ t.hart.vl = nextLen s ∧
      (∀ r : Fin 32, r.val ≠ f.vd.toNat → t.hart.v[r] = s.hart.v[r]) ∧
      t.hart.v = r.hart.v ∧ t.hart.vp = r.hart.vp ∧ t.hart.k = r.hart.k ∧ t.hart.kp = r.hart.kp := by
  intro r
  have hready := hr.ready (m := memVcvt f) rfl
  obtain ⟨hq, -, -, hu, -⟩ := id hready
  obtain ⟨hvl, -, -, -, hfault, hwait, -⟩ := begun_cur s (.vcvt f) hu
  obtain ⟨hv, -, hp, -, hx, -⟩ := begun_regs s (.vcvt f) hu
  have hbegun := begun_eq s (.vcvt f) hu hq rfl
  have hmem : (begun s (.vcvt f)).mem = s.mem := by rw [hbegun]
  have hunbound : (begun s (.vcvt f)).hart.unbound = [] := by rw [hbegun]
  have hrun : (memVcvt f).run (begun s (.vcvt f)) = r := if_pos (by simpa only [fmtReg_begun hu, Nat.mod_mod] using h)
  have honly : OnlyScaled f.vd.toNat (begun s (.vcvt f)) r := cvtScaled_onlyScaled _ _ (openOld_begun hu _)
  obtain ⟨hrx, hrp, hrmem, hrcur, hrunbound⟩ := honly.keeps
  refine ⟨_, hready.retires rfl (by rw [hrun, hrcur, hfault]) (by rw [hrun, hrcur, hwait]), ?_⟩
  rw [retire_unbound _ _ _ (by rw [hrun]; exact hrunbound.trans hunbound), hrun]
  refine ⟨hrx.trans hx, hrp.trans hp, hrmem.trans hmem, ?_, fun k hk => ?_, rfl, rfl, rfl, rfl⟩
  · exact (congrArg Ctx.vl hrcur).trans hvl
  · rw [← hv]
    exact honly.2 k (by rwa [Nat.mod_eq_of_lt f.vd.isLt])

/-! ### The statement -/

/-- An unscaled conversion writes, element by element, the pattern of the value it reads (R135). -/
theorem elementwise_cvt {f : OpCv} {s : State} (hr : Runs (.vcvt f) s) (h : ¬(4 ≤ f.fn.toNat ∧ descScl s.hart.fmt[f.fn.toNat % 4] ≠ 0)) {val : Nat → Nat}
    (hval : ∀ e, cvtPat (begun s (.vcvt f)) f (nextWidth s) (cvtSrc (begun s (.vcvt f)) f e).1 = val e) :
    Elementwise (.vcvt f) s f.vd.toNat f.pred.toNat val fun e => (cvtSrc (begun s (.vcvt f)) f e).2 := by
  have hu := hr.unbound
  refine elementwise_of_writeVec _ (m := memVcvt f) rfl rfl f.vd.isLt (if_neg ?_) (fun _ e => ⟨?_, rfl⟩) hr
  · simpa only [fmtReg_begun hu, Nat.mod_mod] using h
  · rw [ew_begun hu, ← hval e]

/-- What the destination of an unscaled conversion makes of a value (R133 to R135). -/
theorem cvtPat_rules {f : OpCv} {s : State} {i : Instr} (hu : s.hart.unbound = []) :
    let w := nextWidth s
    let m := s.hart.rmode.toNat % 4
    (f.fn = 0 → ∀ v, cvtPat (begun s i) f w v = wrapN (v.toInt m true w) w) ∧
    (f.fn = 1 → ∀ v, cvtPat (begun s i) f w v = wrapN (v.toInt m false w) w) ∧
    (f.fn = 2 → ∀ v, cvtPat (begun s i) f w v = (if w = 16 then Fmt.h16 else if w = 32 then Fmt.f32 else Fmt.f64).round m v.toF) ∧
    (f.fn = 3 → ∀ v, cvtPat (begun s i) f w v = Fmt.bf16.round m v.toF) ∧
    (4 ≤ f.fn.toNat → ∀ v, cvtPat (begun s i) f w v = (descFmt s.hart.fmt[f.fn.toNat % 4]).round m v.toF) := by
  simp only [cvtPat, rmodeOf_begun hu, fmtReg_begun hu, Nat.mod_mod]
  refine ⟨fun h v => ?_, fun h v => ?_, fun h v => ?_, fun h v => ?_, fun h v => ?_⟩
  · rw [h]; rfl
  · rw [h]; rfl
  · rw [h]; rfl
  · rw [h]; rfl
  · rw [if_neg (by omega), if_neg (by omega), if_neg (by omega), if_neg (by omega)]

/-- Settles O24: a scaled conversion by its blocks, the scale by `deriveScale_rules`, and an unscaled one as an element-wise write. -/
theorem conversionResults : Obligations.ConversionResults := by
  unfold Obligations.ConversionResults
  refine ⟨?_, deriveScale_rules, fun f s hr h => ?_⟩
  · intro f s hr h4 hscl u w n b es scale
    obtain ⟨t, hexec, hx, hp, hmem, hvl, hother, hv, hvp, hk, hkp⟩ := vcvt_scaled_retires hr ⟨h4, hscl⟩
    have hu := hr.unbound
    have hw : ew u = w := ew_begun hu
    refine ⟨t, hexec, hx, hp, hmem, hvl, hother, fun j hjb hj => ?_⟩
    have hes : cvtElems u f j = es j := cvtElems_begun hu f j
    have hscale : cvtScale u f j = scale j := by simp only [cvtScale, hes, fmtReg_begun hu, Nat.mod_mod, rmodeOf_begun hu, scale, u, n]
    obtain ⟨hempty, hscaled⟩ := cvtScaled_blocks_begun hr hj hjb
    rw [show cvtElems (begun s (.vcvt f)) f j = es j from hes] at hempty hscaled
    refine ⟨fun hnil => (scaleByte_congr hk n j).trans (hempty hnil), fun hne hclean => ?_⟩
    obtain ⟨⟨hbyte, hpois⟩, helems⟩ := hscaled hne fun e he => by
      obtain ⟨hsrc, hpred⟩ := hclean e he
      rw [cvtHurt, activeP_begun hu, hsrc, hpred]
      rfl
    rw [hes, hscale, hw] at helems
    refine ⟨(scaleByte_congr hk n j).trans (hscale ▸ hbyte), (scaleP_congr hkp n j).trans hpois, fun e he hlt => ?_⟩
    rw [el_congr hv, elP_congr hvp]
    exact helems e he (fits_of_lt (ewOf_even _).2 hlt)
  · obtain ⟨hsigned, hnatural, hieee, hbf16, hnarrow⟩ := cvtPat_rules (f := f) (i := .vcvt f) hr.unbound
    exact ⟨fun hfn => elementwise_cvt hr h fun e => hsigned hfn _, fun hfn => elementwise_cvt hr h fun e => hnatural hfn _,
      fun hfn => elementwise_cvt hr h fun e => hieee hfn _, fun hfn => elementwise_cvt hr h fun e => hbf16 hfn _,
      fun hfn => elementwise_cvt hr h fun e => hnarrow hfn _, fun x => ⟨rfl, rfl⟩, rfl, rfl, fun n k e => rfl⟩

end Sys2Proof.Machine
end

section
/-! SUPPORT. The selection by a predicate and the class of a floating-point pattern (R106, R125, R127). -/

namespace Sys2Proof.Machine

/-! ### `vsel` (R125) -/

/-- R101: in `p0` every element is active and no bit is poison. -/
theorem active_p0 (s : State) (e : Nat) : active s 0 e = true := rfl

theorem activeP_p0 (s : State) (e : Nat) : activeP s 0 e = false := rfl

/-- R125: the register from which `vsel` takes an element. -/
def selSource (s : State) (f : OpV) (e : Nat) : Nat := if active s f.pred.toNat e then f.va.toNat else f.vb.toNat

/-- R125: `vsel` writes every body element, so that it is an element-wise write under `p0`. -/
theorem selMember_run (f : OpV) (s : State) : (selMember f).run s = writeVec s f.vd.toNat (ew s) 0
    fun e => (el s (selSource s f e) e (ew s), elP s (selSource s f e) e (ew s) || activeP s f.pred.toNat e) := by
  simp only [selMember, writeVec, selSource, active_p0, activeP_p0, if_true, Bool.or_false]

theorem elementwise_vsel {f : OpV} {s : State} : Runs (.vsel f) s → Elementwise (.vsel f) s f.vd.toNat 0
    (fun e => el s (selSource s f e) e (nextWidth s))
    fun e => elP s (selSource s f e) e (nextWidth s) || activeP s f.pred.toNat e :=
  elementwise_of_writeVec _ rfl rfl f.vd.isLt (selMember_run f _) fun hu e => by
    simp only [selSource, ew_begun hu, el_begun hu, elP_begun hu, active_begun hu, activeP_begun hu, and_self]

/-! ### `vfclass` (R127) -/

/-- R127: the number of the class of a pattern with M fraction bits and E exponent bits whose sign is bit `w - 1`. -/
def classOf (w E M a : Nat) : Nat :=
  let neg := a / 2 ^ (w - 1) % 2 = 1
  if a / 2 ^ M % 2 ^ E = 2 ^ E - 1 then (if a % 2 ^ M ≠ 0 then 8 else if neg then 0 else 7)
  else if a / 2 ^ M % 2 ^ E ≠ 0 then (if neg then 1 else 6)
  else if a % 2 ^ M ≠ 0 then (if neg then 2 else 5)
  else if neg then 3 else 4

/-- R127: the class that `vfclass` finds by decoding a pattern of an IEEE format is the one that the fields of the pattern say. -/
theorem fClass_eq {w E M : Nat} (hspc : (vfmt w).spc = 0) (hexp : (vfmt w).exp = E) (hman : (vfmt w).man = M) (hsign : E + M = w - 1) (a : Nat) :
    fClass w a = 2 ^ classOf w E M a := by
  have hneg : (a / 2 ^ (w - 1) % 2 = 1) = (bitN a (w - 1) = true) := by rw [bitN, beq_iff_eq]
  have hm : a % 2 ^ M < 2 ^ M := Nat.mod_lt _ (by positivity)
  simp only [fClass, classOf, Fmt.decode, vfmt_sgn, hspc, hexp, hman, hsign, hneg, Bool.true_and, true_and, apply_ite (2 ^ ·)]
  generalize a / 2 ^ M % 2 ^ E = e, a % 2 ^ M = m at hm
  by_cases htop : e = 2 ^ E - 1
  · by_cases hm0 : m = 0
    · simp [htop, hm0]
    · simp [htop, hm0]
  · rw [if_neg htop, if_neg htop, if_neg (by omega)]
    by_cases he : e = 0
    · by_cases hm0 : m = 0
      · simp [he, hm0]
      · simp [he, hm0, hm]
    · simp [he]

/-- R107, R120: the fields of the formats of vector arithmetic. -/
theorem vfmt_fields {w : Nat} (hw : w ∈ ewFp) : (vfmt w).spc = 0 ∧ (vfmt w).exp = (if w = 64 then 11 else 8) ∧
    (vfmt w).man = w - 1 - (if w = 64 then 11 else 8) ∧ (if w = 64 then 11 else 8) + (w - 1 - (if w = 64 then 11 else 8)) = w - 1 := by
  simp only [ewFp, List.mem_cons, List.not_mem_nil, or_false] at hw
  rcases hw with rfl | rfl | rfl <;> decide

/-- R105: a member that checks the element width alone runs at a width of its list. -/
theorem Runs.width {i : Instr} {s : State} {m : Member} {l : List Nat} (h : Runs i s) (hm : memberOf i = some m) (hl : m.check = needEw l) :
    nextWidth s ∈ l := by
  obtain ⟨hq, -, -, -, -, hcheck, -⟩ := h.ready hm
  rw [hl, needEw, dctx_ew hq] at hcheck
  by_contra hn
  rw [if_neg (by simpa using hn)] at hcheck
  exact nomatch hcheck

/-- Settles O21: `vsel` is an element-wise write under `p0`, `vfclass` one of the class that the fields of each pattern say. -/
theorem selectAndClassify : Obligations.SelectAndClassify := by
  unfold Obligations.SelectAndClassify
  refine fun f s => ⟨fun hr => ?_, fun hp e => by rw [hp]; rfl, fun hr => ?_⟩
  · obtain ⟨t, ht, hrest, hother, hclean, helems⟩ := elementwise_vsel hr
    refine ⟨t, ht, hrest, hother, hclean, fun e he => ?_⟩
    obtain ⟨hbody, -, hzeroed, hkept⟩ := helems e he
    refine ⟨fun hb => ?_, hzeroed, hkept⟩
    rw [el_lt, activeP_p0, Bool.or_false] at hbody
    exact hbody hb (active_p0 s e)
  · obtain ⟨hspc, hexp, hman, hsign⟩ := vfmt_fields (hr.width rfl rfl)
    exact elementwise_v1 rfl rfl (fun e => fClass_eq hspc hexp hman hsign _) hr

end Sys2Proof.Machine
end

section
/-! SUPPORT. The pairwise tree of a reduction (R139): the model folds a list level by level, the statement descends from the root by element index; both
are one tree, and what holds of its leaves and of a pair of nodes holds of its root. -/

namespace Sys2Proof.Machine

variable {g : Nat → Nat → Nat} {t : Nat → Option Nat}

/-! ### The nodes of the tree -/

theorem treeNode_succ (j e : Nat) : treeNode g t (j + 1) e = Option.merge g (treeNode g t j e) (treeNode g t j (e + 2 ^ j)) := by
  rw [treeNode]
  cases treeNode g t j e <;> cases treeNode g t j (e + 2 ^ j) <;> rfl

/-- The lowest level taken first: the tree over the pairs. -/
theorem treeNode_pairs (j e : Nat) :
    treeNode g t (j + 1) (2 * e) = treeNode g (fun i => Option.merge g (t (2 * i)) (t (2 * i + 1))) j e := by
  induction j generalizing e with
  | zero => exact treeNode_succ 0 (2 * e)
  | succ j ih => rw [treeNode_succ, ih, treeNode_succ j e, ← ih (e + 2 ^ j), Nat.mul_add, ← pow_succ']

theorem treeNode_none {e : Nat} (h : ∀ i, e ≤ i → t i = none) (j : Nat) : treeNode g t j e = none := by
  induction j generalizing e with
  | zero => exact h e le_rfl
  | succ j ih => rw [treeNode_succ, ih h, ih fun i hi => h i (le_trans (Nat.le_add_right _ _) hi), Option.merge_none_left]

/-- A lone element goes up to the root. -/
theorem treeNode_lone (h : ∀ i, 1 ≤ i → t i = none) (j : Nat) : treeNode g t j 0 = t 0 := by
  induction j with
  | zero => rfl
  | succ j ih =>
    rw [treeNode_succ, ih, treeNode_none fun i hi => h i (le_trans (by simpa using Nat.one_le_two_pow) hi), Option.merge_none_right]

/-! ### The levels of the model's tree -/

theorem foldLevel_cons_cons (a b : Option Nat) (l : List (Option Nat)) :
    foldLevel g (a :: b :: l) = Option.merge g a b :: foldLevel g l := by
  cases a <;> cases b <;> rfl

theorem foldLevel_length : ∀ l : List (Option Nat), (foldLevel g l).length = (l.length + 1) / 2
  | [] => rfl
  | [a] => by simp [foldLevel]
  | a :: b :: l => by
    rw [foldLevel_cons_cons, List.length_cons, foldLevel_length l]
    simp only [List.length_cons]
    omega

/-- One level merges the elements in pairs; beyond the end of the list elements are absent. -/
theorem foldLevel_getElem? : ∀ (l : List (Option Nat)) (i : Nat),
    (foldLevel g l)[i]?.join = Option.merge g l[2 * i]?.join l[2 * i + 1]?.join
  | [], i => by simp [foldLevel]
  | [a], 0 => by cases a <;> rfl
  | [a], i + 1 => by simp [foldLevel, Nat.mul_add]
  | a :: b :: l, 0 => by rw [foldLevel_cons_cons]; rfl
  | a :: b :: l, i + 1 => by
    rw [foldLevel_cons_cons, Nat.mul_add]
    exact foldLevel_getElem? l i

/-- A list of at most one element is folded already. -/
theorem foldTree_lone {l : List (Option Nat)} (h : l.length ≤ 1) (k : Nat) : foldTree g k l = l[0]?.join := by
  match l with
  | [] => cases k <;> rfl
  | [a] => cases k <;> rfl

theorem foldTree_succ {l : List (Option Nat)} (h : ¬l.length ≤ 1) (k : Nat) : foldTree g (k + 1) l = foldTree g k (foldLevel g l) := by
  match l with
  | [] => exact absurd (Nat.zero_le 1) h
  | [a] => exact absurd le_rfl h
  | a :: b :: l => rfl

/-- R139: the model's tree over a list is the tree over its elements. -/
theorem foldTree_eq_treeNode {k j : Nat} {l : List (Option Nat)} (hk : l.length ≤ 2 ^ k) (hj : l.length ≤ 2 ^ j) :
    foldTree g k l = treeNode g (fun i => l[i]?.join) j 0 := by
  by_cases h1 : l.length ≤ 1
  · rw [foldTree_lone h1, treeNode_lone fun i hi => by rw [List.getElem?_eq_none (le_trans h1 hi)]; rfl]
  · match k, j with
    | 0, _ => exact absurd hk h1
    | _, 0 => exact absurd hj h1
    | k + 1, j + 1 =>
      have half {n : Nat} (h : l.length ≤ 2 ^ (n + 1)) : (foldLevel g l).length ≤ 2 ^ n := by rw [foldLevel_length]; omega
      rw [foldTree_succ h1, foldTree_eq_treeNode (half hk) (half hj)]
      simp only [foldLevel_getElem?]
      exact (treeNode_pairs (t := fun i => l[i]?.join) j 0).symm

/-! ### What holds of the root -/

/-- The elements that are present below node e of level j, in order. -/
def leavesBelow (t : Nat → Option Nat) (j e : Nat) : List Nat := (List.range' e (2 ^ j)).filterMap t

theorem leavesBelow_succ (j e : Nat) : leavesBelow t (j + 1) e = leavesBelow t j e ++ leavesBelow t j (e + 2 ^ j) := by
  have h := List.range'_append (s := e) (m := 2 ^ j) (n := 2 ^ j) (step := 1)
  rw [Nat.one_mul, ← mul_two, ← pow_succ] at h
  rw [leavesBelow, ← h, List.filterMap_append]
  rfl

/-- R139: a node is absent when no element below it is present; otherwise it relates to the elements below it as `P` says, when a present element
so relates to itself and a pair of nodes to the elements below both. -/
theorem treeNode_induction {P : Nat → List Nat → Prop} (hleaf : ∀ i x, t i = some x → P x [x])
    (hnode : ∀ a b xs ys, P a xs → P b ys → P (g a b) (xs ++ ys)) (j e : Nat) :
    (treeNode g t j e = none ∧ leavesBelow t j e = []) ∨ ∃ r, treeNode g t j e = some r ∧ P r (leavesBelow t j e) := by
  induction j generalizing e with
  | zero =>
    have hbelow : leavesBelow t 0 e = (t e).toList := by
      cases h : t e <;> simp [leavesBelow, h]
    rw [hbelow]
    cases h : t e with
    | none => exact .inl ⟨h, rfl⟩
    | some x => exact .inr ⟨x, h, hleaf e x h⟩
  | succ j ih =>
    rw [treeNode_succ, leavesBelow_succ]
    obtain ⟨ha, hxs⟩ | ⟨a, ha, hxs⟩ := ih e <;> obtain ⟨hb, hys⟩ | ⟨b, hb, hys⟩ := ih (e + 2 ^ j) <;> rw [ha, hb]
    · exact .inl ⟨rfl, by rw [hxs, hys]; rfl⟩
    · exact .inr ⟨b, rfl, by rwa [hxs]⟩
    · exact .inr ⟨a, rfl, by rwa [hys, List.append_nil]⟩
    · exact .inr ⟨g a b, rfl, hnode a b _ _ hxs hys⟩

end Sys2Proof.Machine
end

section
/-! SUPPORT. The reductions (R123, R139, R140). -/

namespace Sys2Proof.Machine

/-! ### From the member to the tree (R139, R140) -/

/-- The elements that a reduction folds, as their numbers: the active ones below `vl`. -/
def foldElems (s : State) (f : OpV) : List Nat := (List.range (nextLen s)).filter fun e => active s f.pred.toNat e

/-- The pattern that a reduction reads of an element, as `rd` takes it at the width. -/
def foldRead (s : State) (f : OpV) (rd : Nat → Nat → Nat) (e : Nat) : Nat := rd (nextWidth s) (el s f.va.toNat e (nextWidth s))

/-- The leaves of the tree of a reduction; those that are not active, or not below `vl`, are absent. -/
def foldLeaf (s : State) (f : OpV) (rd : Nat → Nat → Nat) (e : Nat) : Option Nat :=
  if e < nextLen s && active s f.pred.toNat e then some (foldRead s f rd e) else none

/-- The leaves below a root that covers every element are the folded elements, in order. -/
theorem leavesBelow_foldLeaf (s : State) (f : OpV) (rd : Nat → Nat → Nat) {j : Nat} (hj : nextLen s ≤ 2 ^ j) :
    leavesBelow (foldLeaf s f rd) j 0 = (foldElems s f).map (foldRead s f rd) := by
  obtain ⟨k, hk⟩ := Nat.exists_eq_add_of_le hj
  have habove : ((List.range k).map (nextLen s + ·)).filterMap (foldLeaf s f rd) = [] := by
    simp [List.filterMap_map, List.filterMap_eq_nil_iff, foldLeaf]
  rw [leavesBelow, ← List.range_eq_range', hk, List.range_add, List.filterMap_append, habove, List.append_nil, foldElems, ← List.filterMap_eq_map,
    List.filterMap_filter]
  exact List.filterMap_congr fun e he => by simp [foldLeaf, List.mem_range.mp he]

/-- The list that the member folds. -/
def foldList (s : State) (f : OpV) (rd : Nat → Nat → Nat) : List (Option Nat) :=
  (List.range (nextLen s)).map fun e => if active s f.pred.toNat e then some (foldRead s f rd e) else none

theorem foldList_length (s : State) (f : OpV) (rd : Nat → Nat → Nat) : (foldList s f rd).length = nextLen s := by simp [foldList]

/-- The list holds the leaves. -/
theorem foldList_getElem? (s : State) (f : OpV) (rd : Nat → Nat → Nat) (e : Nat) : (foldList s f rd)[e]?.join = foldLeaf s f rd e := by
  rw [foldList, List.getElem?_map, foldLeaf]
  by_cases he : e < nextLen s <;> simp [he]

section
variable {i : Instr} {f : OpV} {l : List Nat} {rd : Nat → Nat → Nat} {g : Nat → Nat → Nat → Nat → Nat} {empty : Nat → Nat}
  {fin : Nat → Nat → Nat} {s : State}

/-- R123, R140: a reduction that reads no poison writes what the model's tree gives, or its empty value. -/
theorem memFold_run (hu : s.hart.unbound = []) (hclean : ¬readsPoisonBelow s f.pred.toNat f.va.toNat (nextLen s) (nextWidth s)) :
    (memFold f l rd g empty fin).run (begun s i) = writeX (begun s i) f.vd
      (W ((foldTree (g (s.hart.rmode.toNat % 4) (nextWidth s)) (nextLen s) (foldList s f rd)).elim (empty (nextWidth s)) (fin (nextWidth s)))) := by
  obtain ⟨hvl, -⟩ := begun_cur s i hu
  simp only [memFold, hvl, ew_begun hu, active_begun hu, activeP_begun hu, el_begun hu, elP_begun hu, rmodeOf_begun hu, foldList, foldRead]
  rw [if_neg fun hpoison => hclean ?_]
  · cases foldTree _ _ _ <;> rfl
  · obtain ⟨e, he, h⟩ := List.any_eq_true.mp hpoison
    simp only [Bool.or_eq_true, Bool.and_eq_true] at h
    exact ⟨e, List.mem_range.mp he, h.imp And.left And.left⟩

/-- R139, R140: the result of a reduction that reads no poison is the root of a tree that covers every element. -/
theorem scalar_fold {j : Nat} (hm : memberOf i = some (memFold f l rd g empty fin))
    (hclean : ¬readsPoisonBelow s f.pred.toNat f.va.toNat (nextLen s) (nextWidth s)) (hj : nextLen s ≤ 2 ^ j) (hr : Runs i s) :
    ScalarResult i s f.vd
      (W ((treeNode (g (s.hart.rmode.toNat % 4) (nextWidth s)) (foldLeaf s f rd) j 0).elim (empty (nextWidth s)) (fin (nextWidth s)))) := by
  refine scalar_of i _ s f.vd _ (exec_member i _ s hm) (hr.ready hm) ((memFold_run hr.unbound hclean).trans ?_)
  rw [foldTree_eq_treeNode (j := j)]
  · simp only [foldList_getElem?]
  · rw [foldList_length]; exact Nat.lt_two_pow_self.le
  · rwa [foldList_length]

/-- R139, R140: by induction on the tree, a reduction with no active element writes its empty value, any other one a number that relates to the folded
patterns as `P` says. -/
theorem scalar_fold_induction {P : Nat → List Nat → Prop} (hm : memberOf i = some (memFold f l rd g empty fin))
    (hclean : ¬readsPoisonBelow s f.pred.toNat f.va.toNat (nextLen s) (nextWidth s)) (hr : Runs i s)
    (hleaf : ∀ e, P (foldRead s f rd e) [foldRead s f rd e])
    (hnode : ∀ a b xs ys, P a xs → P b ys → P (g (s.hart.rmode.toNat % 4) (nextWidth s) a b) (xs ++ ys)) :
    (foldElems s f = [] ∧ ScalarResult i s f.vd (W (empty (nextWidth s)))) ∨
      ∃ r, P r ((foldElems s f).map (foldRead s f rd)) ∧ ScalarResult i s f.vd (W (fin (nextWidth s) r)) := by
  have hj : nextLen s ≤ 2 ^ nextLen s := Nat.lt_two_pow_self.le
  have hres := scalar_fold hm hclean hj hr
  have hleaf' (e x : Nat) (h : foldLeaf s f rd e = some x) : P x [x] := by
    obtain ⟨-, hx⟩ := Option.ite_none_right_eq_some.mp h
    exact Option.some.inj hx ▸ hleaf e
  have hroot := treeNode_induction hleaf' hnode (nextLen s) 0
  rw [leavesBelow_foldLeaf s f rd hj, List.map_eq_nil_iff] at hroot
  obtain ⟨hnone, hempty⟩ | ⟨r, hsome, hP⟩ := hroot
  · exact .inl ⟨hempty, by rwa [hnone] at hres⟩
  · exact .inr ⟨r, hP, by rwa [hsome] at hres⟩

end

/-! ### The integer minima and maxima (R140) -/

section
variable {α : Type} {key : Nat → α} {w : Nat}

/-- A pattern of a list whose key is least in it. -/
def LeastBy [LE α] (key : Nat → α) (w r : Nat) (xs : List Nat) : Prop := r % 2 ^ w = r ∧ r ∈ xs ∧ ∀ x ∈ xs, key r ≤ key x

/-- A function of two patterns gives the one with the lesser key. -/
def PicksLeast [LE α] (key : Nat → α) (w : Nat) (g : Nat → Nat → Nat) : Prop :=
  ∀ a b, a % 2 ^ w = a → b % 2 ^ w = b → g a b = a ∧ key a ≤ key b ∨ g a b = b ∧ key b ≤ key a

/-- Of the least patterns of two lists the one with the lesser key is least in both. -/
theorem PicksLeast.append [Preorder α] {g : Nat → Nat → Nat} {a b : Nat} {xs ys : List Nat} (hg : PicksLeast key w g) (ha : LeastBy key w a xs)
    (hb : LeastBy key w b ys) : LeastBy key w (g a b) (xs ++ ys) := by
  obtain ⟨hca, hma, hla⟩ := ha
  obtain ⟨hcb, hmb, hlb⟩ := hb
  obtain ⟨hr, hle⟩ | ⟨hr, hle⟩ := hg a b hca hcb <;> rw [hr]
  · refine ⟨hca, List.mem_append_left _ hma, fun x hx => ?_⟩
    exact (List.mem_append.mp hx).elim (hla x) fun hx => hle.trans (hlb x hx)
  · refine ⟨hcb, List.mem_append_right _ hmb, fun x hx => ?_⟩
    exact (List.mem_append.mp hx).elim (fun hx => hle.trans (hla x hx)) (hlb x)

end

theorem iMin_picksLeast (w : Nat) : PicksLeast (fun a => signExt a w) w (iMin w) := by
  intro a b ha hb
  rw [iMin, ha, hb]
  split
  next h => exact .inl ⟨rfl, h⟩
  next h => exact .inr ⟨rfl, (not_le.mp h).le⟩

/-- The greatest is the least of the opposite order. -/
theorem iMax_picksLeast (w : Nat) : PicksLeast (fun a => OrderDual.toDual (signExt a w)) w (iMax w) := by
  intro a b ha hb
  rw [iMax, ha, hb]
  split
  next h => exact .inr ⟨rfl, h⟩
  next h => exact .inl ⟨rfl, (not_le.mp h).le⟩

theorem iMinn_picksLeast (w : Nat) : PicksLeast (fun a => a) w (iMinn w) := by
  intro a b ha hb
  rw [iMinn, ha, hb]
  exact (le_total a b).imp (fun h => ⟨min_eq_left h, h⟩) fun h => ⟨min_eq_right h, h⟩

theorem iMaxn_picksLeast (w : Nat) : PicksLeast (fun a => OrderDual.toDual a) w (iMaxn w) := by
  intro a b ha hb
  rw [iMaxn, ha, hb]
  exact (le_total b a).imp (fun h => ⟨max_eq_left h, h⟩) fun h => ⟨max_eq_right h, h⟩

/-- R140: a reduction that picks the least by a key gives its empty value when no element is active, and else the value of any active element whose
key is least; `v` is the value of a pattern, which its key decides. -/
theorem scalar_fold_least {α : Type} [PartialOrder α] {key : Nat → α} {i : Instr} {f : OpV} {l : List Nat} {g : Nat → Nat → Nat → Nat}
    {empty : Nat → Nat} {fin : Nat → Nat → Nat} {s : State} {v : Nat → Word} {v0 : Word}
    (hm : memberOf i = some (memFold f l (fun _ a => a) (fun _ => g) empty fin))
    (hclean : ¬readsPoisonBelow s f.pred.toNat f.va.toNat (nextLen s) (nextWidth s)) (hg : PicksLeast key (nextWidth s) (g (nextWidth s)))
    (hv0 : W (empty (nextWidth s)) = v0) (hv : ∀ a b, key a = key b → W (fin (nextWidth s) a) = v b) (hr : Runs i s) :
    let N (e : Nat) : Nat := el s f.va.toNat e (nextWidth s)
    (foldElems s f = [] → ScalarResult i s f.vd v0) ∧
      ∀ e ∈ foldElems s f, (∀ j ∈ foldElems s f, key (N e) ≤ key (N j)) → ScalarResult i s f.vd (v (N e)) := by
  intro N
  have hfold := scalar_fold_induction (P := LeastBy key (nextWidth s)) hm hclean hr
    (fun e => ⟨el_lt s _ e _, List.mem_singleton_self _, by simp⟩) fun a b xs ys => hg.append
  obtain ⟨hnil, hres⟩ | ⟨r, ⟨-, hmem, hleast⟩, hres⟩ := hfold
  · exact ⟨fun _ => hv0 ▸ hres, fun e he => absurd (hnil ▸ he) List.not_mem_nil⟩
  · obtain ⟨k, hk, rfl⟩ := List.mem_map.mp hmem
    refine ⟨fun hnil => absurd (hnil ▸ hk) List.not_mem_nil, fun e he hmin => ?_⟩
    exact hv _ (N e) ((hleast _ (List.mem_map_of_mem he)).antisymm (hmin k hk)) ▸ hres

/-! ### The sum (R140) -/

/-- The signed pattern of 64 bits, mod 2^64 (R8). -/
theorem ofNat_sx64 (w a : Nat) : W (sx64 w a) = BitVec.ofInt 64 (signExt a w) := ofNat_wrapN _

theorem W_add (a b : Nat) : W (a + b) = W a + W b := BitVec.ofNat_add a b

theorem W_mod (a : Nat) : W (a % 2 ^ 64) = W a := BitVec.eq_of_toNat_eq (Nat.mod_mod a _)

/-- Numbers that agree one by one mod 2^64 have sums that agree. -/
theorem ofNat_sum {a : Nat → Nat} {b : Nat → Int} (h : ∀ e, W (a e) = BitVec.ofInt 64 (b e)) (es : List Nat) :
    W (es.map a).sum = BitVec.ofInt 64 (es.map b).sum := by
  induction es with
  | nil => rfl
  | cons e es ih => rw [List.map_cons, List.sum_cons, List.map_cons, List.sum_cons, W_add, BitVec.ofInt_add, h, ih]

/-- R140: `vfold.add` gives the sum of the signed elements mod 2^64. -/
theorem vfoldAdd_result {f : OpV} {s : State} (hclean : ¬readsPoisonBelow s f.pred.toNat f.va.toNat (nextLen s) (nextWidth s))
    (hr : Runs (.vfoldAdd f) s) : ScalarResult (.vfoldAdd f) s f.vd
      (BitVec.ofInt 64 ((foldElems s f).map fun e => signExt (el s f.va.toNat e (nextWidth s)) (nextWidth s)).sum) := by
  have hnode (a b : Nat) (xs ys : List Nat) (ha : W a = W xs.sum) (hb : W b = W ys.sum) : W ((a + b) % 2 ^ 64) = W (xs ++ ys).sum := by
    rw [W_mod, List.sum_append, W_add, W_add, ha, hb]
  obtain ⟨hnil, hres⟩ | ⟨r, hsum, hres⟩ := scalar_fold_induction (P := fun r xs => W r = W xs.sum) rfl hclean hr (fun e => by simp) hnode
  · rw [hnil]
    exact hres
  · rw [← ofNat_sum fun e => ofNat_sx64 _ _]
    exact hsum ▸ hres

/-! ### The statement -/

/-- The greatest and the least signed number of a width, as patterns. -/
theorem signExt_greatest {w : Nat} (h : 0 < w) : signExt (2 ^ (w - 1) - 1) w = 2 ^ (w - 1) - 1 := by
  have hpos : 0 < 2 ^ (w - 1) := Nat.two_pow_pos _
  have hdouble : 2 ^ w = 2 * 2 ^ (w - 1) := by rw [← pow_succ', Nat.sub_add_cancel h]
  rw [signExt, Nat.mod_eq_of_lt (by omega), if_pos (by omega)]
  push_cast [Nat.cast_sub hpos]
  rfl

theorem signExt_least {w : Nat} (h : 0 < w) : signExt (2 ^ (w - 1)) w = -2 ^ (w - 1) := by
  have hpos : 0 < 2 ^ (w - 1) := Nat.two_pow_pos _
  have hdouble : 2 ^ w = 2 * 2 ^ (w - 1) := by rw [← pow_succ', Nat.sub_add_cancel h]
  rw [signExt, Nat.mod_eq_of_lt (by omega), if_neg (by omega), hdouble]
  push_cast
  ring

/-- Settles O26: the sum by `vfoldAdd_result`, the minima and maxima as reductions that pick the least by a key, the floating-point reductions as the
tree itself. -/
theorem foldResults : Obligations.FoldResults := by
  unfold Obligations.FoldResults
  intro f s w n r p es A N some' F m canon hclean gives
  have hw : 0 < w := (ewOf_even _).2
  have hsigned (a b : Nat) (h : signExt a w = signExt b w) : W (sx64 w a) = BitVec.ofInt 64 (signExt b w) := h ▸ ofNat_sx64 w a
  refine ⟨vfoldAdd_result hclean, scalar_fold_least rfl hclean (iMin_picksLeast w) ?_ hsigned, scalar_fold_least rfl hclean (iMax_picksLeast w) ?_ hsigned,
    scalar_fold_least rfl hclean (iMinn_picksLeast w) rfl fun a b => congrArg W, scalar_fold_least rfl hclean (iMaxn_picksLeast w) rfl fun a b => congrArg W,
    fun j hj => ⟨fun hr => ?_, fun hr => ?_, fun hr => ?_⟩⟩
  · rw [ofNat_sx64, signExt_greatest hw]
  · rw [ofNat_sx64, signExt_least hw]
  · exact scalar_fold (rd := fun _ a => a) (g := fAdd) (empty := fun _ => 0) (fin := canonNan) rfl hclean hj hr
  · exact scalar_fold (rd := fun _ a => a) (g := fun _ w => fminIn (vfmt w)) (empty := fun w => (vfmt w).inf false) (fin := canonNan) rfl hclean hj hr
  · exact scalar_fold (rd := fun _ a => a) (g := fun _ w => fmaxIn (vfmt w)) (empty := fun w => (vfmt w).inf true) (fin := canonNan) rfl hclean hj hr

end Sys2Proof.Machine
end
